-- ==== Sys2Proof/Word.lean ====
section
/-! DEFINITION. The word types of the Ifegil and their plainest arithmetic: 64-bit register values,
bytes, and the fields `x[hi:lo]` of R4. -/

namespace Sys2Proof

/-- A general register, an address or a doubleword (R93). -/
abbrev Word := BitVec 64

/-- A byte of memory (R7). -/
abbrev Byte := BitVec 8

/-- An instruction word of 96 bits (R41). -/
abbrev IWord := BitVec 96

/-- Contents of a vector register (R93). -/
abbrev VBits := BitVec 4096

/-- `x[hi:lo]`: the unsigned value of bits hi down to lo of x (R4). -/
def bits (x hi lo : Nat) : Nat := x / 2 ^ lo % 2 ^ (hi + 1 - lo)

/-- A natural number below `2^w`, read as a signed w-bit value (R144). -/
def signedOf (w x : Nat) : Int :=
  if 2 * (x % 2 ^ w) < 2 ^ w then (x % 2 ^ w : Nat) else ((x % 2 ^ w : Nat) : Int) - (2 ^ w : Nat)

/-- The w-bit pattern of an integer: its residue modulo `2^w`. -/
def patternOf (w : Nat) (x : Int) : Nat := (x % ((2 ^ w : Nat) : Int)).toNat

end Sys2Proof
end

