-- ==== Sys2Proof/Syntax.lean ====
section
/-! DEFINITION. The syntax of the Ifegil: operand forms, and one constructor of `Instr` for every row of
spec/opcode_table.json. The rows with an encoding (R58) come first; the others are the steps that the machine's
other agents take. -/

namespace Sys2Proof

/-- A general register g0 to g63 (R8, R46). -/
abbrev GReg := Fin 64
/-- A vector register field v0 to v63, before rotation (R95). -/
abbrev VReg := Fin 64
/-- A predicate p0 to p7. -/
abbrev PReg := Fin 8
/-- A vector mask m0 to m7. -/
abbrev MReg := Fin 8
/-- A loop counter lc0 to lc2. -/
abbrev LcReg := Fin 3
/-- An accumulator a0 or a1. -/
abbrev AReg := Fin 2
/-- A 6-bit next-use code (R26, R246). -/
abbrev NuCode := Fin 64

/-- The type-and-width codes of R47. -/
inductive Ty where
  | none | i4 | i8 | i16 | i32 | i64 | z4 | z8 | z16 | z32 | z64 | f16 | f32 | f64 | b16 | t6 | t8
  deriving DecidableEq, Repr

/-- The guard of an instruction (R42, R43): it takes effect when p`pred` differs from `sense`. -/
structure Guard where
  sense : Bool
  pred  : PReg
  deriving DecidableEq, Repr

/-- The address operand of format M (R45): base, index, signed offset, next-use code, gate. -/
structure Addr where
  base : GReg
  idx  : GReg
  off  : BitVec 32
  nu   : NuCode
  gate : Fin 4
  deriving DecidableEq, Repr

/-- The address operand of the strided and indexed forms (R226): no index. -/
structure BaseAddr where
  base : GReg
  off  : BitVec 32
  nu   : NuCode
  gate : Fin 4
  deriving DecidableEq, Repr

/-- A lane mask (R168, R169): `none` when mk is 0, else the mask and its inversion. -/
abbrev LaneMask := Option (MReg × Bool)

/-- The common options of a vector instruction: mask, rnd (R45), sat (R175). -/
structure VOpt where
  mask : LaneMask
  rnd  : Fin 5
  sat  : Bool
  deriving DecidableEq, Repr

/-- Integer conditions of `cmp` and `cmpi` (R127). -/
inductive Cc where
  | eq | ne | lt | ge | ltz | gez
  deriving DecidableEq, Repr

/-- Conditions of `fcmp` (R133). -/
inductive FCc where
  | eq | lt | le | un
  deriving DecidableEq, Repr

/-- Conditions of `vcmp` (R180). -/
inductive VCc where
  | eq | ne | lt | le | gt | ge | un
  deriving DecidableEq, Repr

/-- Combining operations of `vred` and `vscan` (R190). -/
inductive VComb where
  | add | min | max | and | or | xor
  deriving DecidableEq, Repr

/-- The files of a `mov` (R126). -/
inductive MovOp where
  | gg (a b : GReg)
  | lcg (a : LcReg) (b : GReg)
  | glc (a : GReg) (b : LcReg)
  deriving DecidableEq, Repr

/-- Operations of `amo` (R232). -/
inductive AmoOp where
  | add | and | or | xor | min | max | minz | maxz | swap | cas | fadd | fmin | fmax
  deriving DecidableEq, Repr

/-- Operations of `red` minors 0 to 10 (R234). -/
inductive RedOp where
  | add | and | or | xor | min | max | minz | maxz | fadd | fmin | fmax
  deriving DecidableEq, Repr

/-- The ord field of `amo` (R231). -/
inductive Ord4 where
  | relaxed | acq | rel | ar
  deriving DecidableEq, Repr

/-- A vector operand or an immediate with ix = 1 (R168). -/
inductive ShiftCount where
  | reg (c : VReg)
  | imm (k : Fin 64)
  deriving DecidableEq, Repr

/-- A lane index: a g register, or an immediate with ix = 1 (R194). -/
inductive LaneIndex where
  | reg (c : GReg)
  | imm (n : BitVec 32)
  deriving DecidableEq, Repr

/-- The scale operand of `vcvt` and `mcvt` (R184). -/
inductive ScaleOp where
  | given (s : BitVec 8)
  | auto
  deriving DecidableEq, Repr

/-- Operations of `vcnt` (R179). -/
inductive CntOp where
  | pop | clz | ctz
  deriving DecidableEq, Repr

/-- Path classes of `xf` (R239). -/
inductive Path where
  | core | ro | copy | mop | gather | stream
  deriving DecidableEq, Repr

/-- A direct transfer's target (R45): slot and signed count of lines. -/
structure Target where
  tslot : Fin 5
  disp  : BitVec 40
  deriving DecidableEq, Repr

/-- A full key of the horizon, a timestamped task or an event (R322): time, phase, idx, tie. -/
structure Key where
  t     : Nat
  phase : Nat
  idx   : Nat
  tie   : Nat × Nat
  deriving DecidableEq, Repr

/-- Where an error is found (R397): the structure and the thing in it. -/
inductive ErrPlace where
  /-- A block of a core's scratchpad: core number in the module, byte offset. -/
  | scratch (core off : Nat)
  /-- A word of an L1: cache number and physical word number; owned or update-only words only are lost. -/
  | l1 (cache word : Nat)
  /-- A line that is being recalled from a cache (R401). -/
  | recall (cache line : Nat)
  /-- A line copy of a core's instruction cache: slot, line address, corrupted contents. -/
  | icache (sid : Nat) (line : Word) (contents : BitVec 512)
  /-- A physical vector register of a slot. -/
  | vector (sid reg : Nat)
  /-- Elements of an accumulator of a slot. -/
  | accumulator (sid acc elem : Nat)
  /-- A column block of a panel of a slot's weight buffer. -/
  | weights (sid unit column : Nat)
  /-- A block of global memory: L2 dirty sector, LLC, HBM or metadata. -/
  | memory (code block : Nat)
  /-- A flit of the packet that carries a message in flight fails its check once more. -/
  | packet (k : Nat)
  /-- The registry entry of a line. -/
  | registry (line : Nat)
  /-- A Larkspur record of a cluster: the committed one of a variable. -/
  | larkspur (pkg var : Nat)
  /-- An uncommitted version in a cluster's Larkspur: its place in the version store. -/
  | version (pkg index : Nat)
  /-- An Aster entry of a cluster. -/
  | aster (pkg index : Nat)
  /-- The Phlox array of a cluster, during an instruction of a slot. -/
  | phlox (pkg sid : Nat)
  /-- The team table or a queue of a cluster. -/
  | tables (pkg : Nat)
  /-- A clean sector: refetched, no state is lost. -/
  | clean (code unit : Nat)
  deriving DecidableEq, Repr

/-- The interfaces whose versions are negotiated (R454). -/
inductive Iface where
  | host | continuation | rhojo | firmware | spdm
  deriving DecidableEq, Repr

/-- What happened to the image or step of a boot stage (R450, R451). -/
inductive StageResult where
  /-- The image was read: contents, public key and signature as bytes, security version. -/
  | image (contents key signature : List Nat) (version : Nat)
  /-- The image could not be read. -/
  | unreadable
  /-- A step without an image succeeded (die bring-up, negotiation). -/
  | done
  /-- The stage failed with the reason of R456. -/
  | failed (reason : Fin 8)
  deriving DecidableEq, Repr

/-- SPDM requests the module answers (R452). -/
inductive SpdmRequest where
  | getMeasurements (index : Option (Fin 16)) (nonce : Nat)
  | challenge (nonce : Nat)
  | keyExchange (nonce : Nat)
  | other
  deriving DecidableEq, Repr

/-- What the debugger reads in the cluster of a stopped slot (R371, R376, R380, R405, R448). -/
inductive DebugRead where
  /-- `print`: a g register, the predicates, a vector register, a mask, a control register. -/
  | g (n : Nat)
  | p
  | v (n : Nat)
  | m (n : Nat)
  | csr (n : Nat)
  /-- `x` and `addr`: bytes from an address, and the tag of a scratchpad word. -/
  | bytes (va : Word) (n : Nat)
  | tag (va : Word)
  /-- `acc aN i j`: the element, and whether the accumulator is owned. -/
  | acc (a i j : Nat)
  /-- `blk`: the descriptor of a block, and its first word. -/
  | block (va : Word)
  /-- `lines`: domain and code of a line in every governed cache that holds it. -/
  | lines (va : Word)
  /-- `qrec` and `lark`. -/
  | record (var : Nat)
  | lark
  /-- `trail`, `col` and `row`. -/
  | trail
  | col (n : Nat)
  | row (n : Nat)
  /-- `team` and `tasks`: a team's masks and phase; a slot's task, what it is doing, and where. -/
  | team (id : Nat)
  | task (sid : Nat)
  /-- `save`: bytes of memory by physical address. -/
  | physical (pa n : Nat)
  deriving DecidableEq, Repr

/-- Requests over the debug interface (R112, R371, R376, R380, R405, R448). -/
inductive DebugRequest where
  | arm (sid : Nat) (on : Bool)
  | hold (sid : Nat)
  | release (sid : Nat)
  | breakpoint (launch : Nat) (pc : Word) (preempt on : Bool) (sids : Option (List Nat))
  | commitStop (pkg : Nat) (on lark : Bool)
  | continueCommits (pkg n : Nat)
  | read (sid : Nat) (r : DebugRead)
  | write (sid : Nat) (va : Word) (data : List Byte)
  | preempt (launch : Nat)
  | resume (launch first : Nat)
  /-- `launch pkg=first dom=n`: the launch begins at a cluster, with a reuse domain that it names. -/
  | begin_ (launch first : Nat) (dom : Option Nat)
  deriving DecidableEq, Repr

/-- A remote write that arrives at a port (R470, R472): address, data, the descriptor it sets, an operation on the old
value (`amo`, reduction) with its type and comparand, the arrival (m, x) at an exact cell (R164), its next-use code, kind
and source. -/
structure RemoteWrite where
  pa      : Nat
  data    : List Byte
  desc    : Option (BitVec 16)
  op      : Option (AmoOp × Ty × Nat)
  cell    : Option (BitVec 64 × BitVec 16) := none
  nu      : Fin 64 := 0
  kind    : Fin 7
  module_ : Nat
  cluster : Nat
  core    : Nat
  slot    : Nat
  deriving DecidableEq, Repr

/-- What a packet from another module does here (R468, R85, R86, R303). -/
inductive Delivery where
  | write (w : RemoteWrite)
  /-- A load of n bytes with a next-use code, answered from the home. -/
  | load (pa n : Nat) (nu : Fin 64)
  /-- A spawned record: source device, target value, launch, record, its key when it is timestamped, join cell. -/
  | record (device target launch : Nat) (record : Word) (key : Option (Nat × Nat × Nat)) (join : Word)
  /-- A message with its template's head and its payload. -/
  | message (device target launch : Nat) (head : List Byte) (payload : List Word) (join : Word)
  /-- A Larkspur event message. -/
  | event (var t : Nat)
  /-- Another module refused a spawn of a launch of this one. -/
  | refusal (launch device : Nat)
  /-- A response, whose message this model performs by its own event. -/
  | response
  deriving DecidableEq, Repr

/-- A flit on a Rhojo Link port (R463): bytes 0 to 247, the CRC of bytes 248 to 255, its virtual channel, and what its
packets do. -/
structure Flit where
  bytes   : List Byte
  crc     : BitVec 64
  vc      : Fin 4
  packets : List Delivery
  deriving DecidableEq, Repr

/-- One constructor for every row of spec/opcode_table.json, in the order of the families. -/
inductive Instr where
  -- system (R115 to R119, R67, R80 to R82, R239)
  | nop
  | brk (n : BitVec 16)
  | trap (n : BitVec 16)
  | sret
  | sys (n : BitVec 16)
  | rgn (gin : BitVec 64) (lcin : BitVec 3)
  | fence
  | fenceAcq
  | fenceRel
  | fenceAr
  | xf (c1 c2 : Path)
  | wait (l s c t : Fin 16)
  | susFull (b : GReg)
  | susEmpty (b : GReg)
  | susJoin (b : GReg)
  | fin
  | yld
  | csrr (a : GReg) (n : BitVec 12)
  | csrw (n : BitVec 12) (b : GReg)
  | csrx (a : GReg) (n : BitVec 12) (b : GReg)
  | csrs (a : GReg) (n : BitVec 12) (b : GReg)
  | csrc (a : GReg) (n : BitVec 12) (b : GReg)
  -- integer (R121 to R129)
  | add (a b c : GReg)
  | sub (a b c : GReg)
  | mul (a b c : GReg)
  | mulh (a b c : GReg)
  | mulhz (a b c : GReg)
  | div (a b c : GReg)
  | divz (a b c : GReg)
  | rem (a b c : GReg)
  | remz (a b c : GReg)
  | min (a b c : GReg)
  | max (a b c : GReg)
  | minz (a b c : GReg)
  | maxz (a b c : GReg)
  | addi (a b : GReg) (imm : BitVec 32)
  | and (a b c : GReg)
  | or (a b c : GReg)
  | xor (a b c : GReg)
  | andn (a b c : GReg)
  | orn (a b c : GReg)
  | shl (a b c : GReg)
  | shr (a b c : GReg)
  | sar (a b c : GReg)
  | rot (a b c : GReg)
  | andi (a b : GReg) (imm : BitVec 32)
  | ori (a b : GReg) (imm : BitVec 32)
  | xori (a b : GReg) (imm : BitVec 32)
  | andni (a b : GReg) (imm : BitVec 32)
  | orni (a b : GReg) (imm : BitVec 32)
  | shli (a b : GReg) (k : Fin 64)
  | shri (a b : GReg) (k : Fin 64)
  | sari (a b : GReg) (k : Fin 64)
  | roti (a b : GReg) (k : Fin 64)
  | clz (a b : GReg)
  | ctz (a b : GReg)
  | pop (a b : GReg)
  | sext (ty : Ty) (a b : GReg)
  | zext (ty : Ty) (a b : GReg)
  | bswp (ty : Ty) (a b : GReg)
  | bfx (ty : Ty) (a b : GReg) (lo : Fin 64) (w : Fin 128)
  | bfi (a b : GReg) (lo : Fin 64) (w : Fin 128)
  | cmp (cc : Cc) (p : PReg) (b c : GReg)
  | cmpi (cc : Cc) (p : PReg) (b : GReg) (imm : BitVec 32)
  | sel (a : GReg) (p : PReg) (c d : GReg)
  | li (a : GReg) (imm : Word)
  | mov (m : MovOp)
  | lea (a base idx : GReg) (off : BitVec 32)
  | pand (a b c : PReg)
  | por (a b c : PReg)
  | pxor (a b c : PReg)
  | pnot (a b : PReg)
  -- scalar float (R130 to R134)
  | fadd (ty : Ty) (a b c : GReg)
  | fsub (ty : Ty) (a b c : GReg)
  | fmul (ty : Ty) (a b c : GReg)
  | fdiv (ty : Ty) (a b c : GReg)
  | fsqrt (ty : Ty) (a b : GReg)
  | fmin (ty : Ty) (a b c : GReg)
  | fmax (ty : Ty) (a b c : GReg)
  | fma (ty : Ty) (a b c d : GReg)
  | fcmp (cc : FCc) (ty : Ty) (p : PReg) (b c : GReg)
  | fcvt (dst src : Ty) (a b : GReg)
  -- control transfers (R135 to R143)
  | br (tgt : Target)
  | bri (b : GReg)
  | call (a : GReg) (tgt : Target)
  | calli (a b : GReg)
  | ret (b : GReg)
  | lp (k : LcReg) (b : GReg) (tick : Bool) (tgt : Target)
  | lpx (k : LcReg) (n : BitVec 21) (tick : Bool) (tgt : Target)
  | lpr (k : LcReg) (b : GReg) (tick : Bool) (tgt : Target)
  | jt (a b : GReg) (n1 : BitVec 16)
  -- tasks, teams, queues, horizon (R76 to R89, R270 to R289, R337)
  | spawn (a b c : GReg)
  | spawnt (a b c : GReg)
  | send (a b c d : GReg)
  | sendv (a b c : GReg) (d : VReg) (n : Fin 32)
  | jinit (b c : GReg) (n : BitVec 32)
  | arr (b : GReg) (n : BitVec 32)
  | tjoin (a b : GReg)
  | tleave
  | tarr
  | twait (a : GReg)
  | tinfo (a : GReg) (sel : Fin 4)
  | enq (a : PReg) (b : GReg) (q : Fin 4)
  | deq (a : GReg) (b : PReg) (q : Fin 4)
  | deqw (a : GReg) (q : Fin 4)
  | qinfo (a : GReg) (q : Fin 4)
  | gvt (a b : GReg) (sel : Fin 4)
  -- core memory (R219 to R239)
  | ld (ty : Ty) (a : GReg) (m : Addr)
  | ldAcq (ty : Ty) (a : GReg) (m : Addr)
  | st (ty : Ty) (a : GReg) (m : Addr)
  | stRel (ty : Ty) (a : GReg) (m : Addr)
  | ldc (ty : Ty) (a : GReg) (m : Addr)
  | ldv (ty : Ty) (a : VReg) (m : Addr) (mask : LaneMask)
  | stv (ty : Ty) (a : VReg) (m : Addr) (mask : LaneMask)
  | ldvs (ty : Ty) (a : VReg) (m : BaseAddr) (c : GReg) (mask : LaneMask)
  | stvs (ty : Ty) (a : VReg) (m : BaseAddr) (c : GReg) (mask : LaneMask)
  | ldvx (ty : Ty) (a : VReg) (m : BaseAddr) (c : VReg) (ix64 : Bool) (mask : LaneMask)
  | stvx (ty : Ty) (a : VReg) (m : BaseAddr) (c : VReg) (ix64 : Bool) (mask : LaneMask)
  | ldf (ty : Ty) (a : GReg) (m : Addr)
  | ldfe (ty : Ty) (a : GReg) (m : Addr)
  | stef (ty : Ty) (a : GReg) (m : Addr)
  | stff (ty : Ty) (a : GReg) (m : Addr)
  | pf (m : Addr)
  | cln (m : Addr)
  | inv (m : Addr)
  | amo (op : AmoOp) (ord : Ord4) (ty : Ty) (a : GReg) (m : Addr) (s : GReg)
  | red (op : RedOp) (rel : Bool) (ty : Ty) (a : GReg) (m : Addr)
  | redXs (rel : Bool) (a : GReg) (m : Addr) (s : GReg)
  | redXcvt (rel : Bool) (a : GReg) (m : Addr)
  | ldbd (a : GReg) (m : Addr)
  | stbd (a : GReg) (m : Addr)
  | bbar (a : GReg) (m : Addr)
  -- reuse and Aster (R258 to R261, R337)
  | nutick (n : BitVec 16)
  | nudom (n : BitVec 8)
  | nuq (a b : GReg) (w : Bool)
  | nurel (a : GReg) (m : Addr)
  | abrt
  | abrtRec (a b : GReg)
  | astat (a : GReg) (sel : Fin 8)
  -- vector (R175 to R196)
  | vadd (ty : Ty) (a b c : VReg) (o : VOpt)
  | vsub (ty : Ty) (a b c : VReg) (o : VOpt)
  | vmul (ty : Ty) (a b c : VReg) (o : VOpt)
  | vmin (ty : Ty) (a b c : VReg) (mask : LaneMask)
  | vmax (ty : Ty) (a b c : VReg) (mask : LaneMask)
  | vdiv (ty : Ty) (a b c : VReg) (mask : LaneMask) (rnd : Fin 5)
  | vfma (ty : Ty) (a b c d : VReg) (o : VOpt)
  | vsqrt (ty : Ty) (a b : VReg) (mask : LaneMask) (rnd : Fin 5)
  | vrcp (ty : Ty) (a b : VReg) (mask : LaneMask) (rnd : Fin 5)
  | vrsq (ty : Ty) (a b : VReg) (mask : LaneMask) (rnd : Fin 5)
  | vexp2 (ty : Ty) (a b : VReg) (mask : LaneMask) (rnd : Fin 5)
  | vlog2 (ty : Ty) (a b : VReg) (mask : LaneMask) (rnd : Fin 5)
  | vabs (ty : Ty) (a b : VReg) (mask : LaneMask) (sat : Bool)
  | vneg (ty : Ty) (a b : VReg) (mask : LaneMask) (sat : Bool)
  | vnot (ty : Ty) (a b : VReg) (mask : LaneMask)
  | vand (ty : Ty) (a b c : VReg) (mask : LaneMask)
  | vor (ty : Ty) (a b c : VReg) (mask : LaneMask)
  | vxor (ty : Ty) (a b c : VReg) (mask : LaneMask)
  | vshl (ty : Ty) (a b : VReg) (k : ShiftCount) (mask : LaneMask)
  | vshr (ty : Ty) (a b : VReg) (k : ShiftCount) (mask : LaneMask)
  | vsar (ty : Ty) (a b : VReg) (k : ShiftCount) (mask : LaneMask)
  | vcmp (cc : VCc) (ty : Ty) (m : MReg) (b c : VReg) (mask : LaneMask)
  | vsel (ty : Ty) (a : VReg) (m : MReg) (c d : VReg)
  | vcvt (dst src : Ty) (a b : VReg) (p : Fin 16) (scale : ScaleOp) (o : VOpt)
  | vsat (ty : Ty) (a b : VReg) (n : Fin 128) (mask : LaneMask)
  | vpack (ty : Ty) (a b c : VReg) (mask : LaneMask) (sat : Bool)
  | vunpk (ty : Ty) (a b : VReg) (p : Bool) (mask : LaneMask)
  | vred (op : VComb) (ty : Ty) (a : GReg) (b : VReg) (mask : LaneMask) (rnd : Fin 5)
  | vscan (op : VComb) (ty : Ty) (a b : VReg) (mask : LaneMask) (rnd : Fin 5)
  | vdot (ty : Ty) (a b c : VReg) (mask : LaneMask) (rnd : Fin 5)
  | vmacc (ty : Ty) (a b : VReg) (c : GReg) (o : VOpt)
  | vperm (ty : Ty) (a b c : VReg) (mask : LaneMask)
  | vshuf (ty : Ty) (a b c : VReg) (mask : LaneMask)
  | vbcast (ty : Ty) (a : VReg) (b : GReg) (mask : LaneMask)
  | vext (ty : Ty) (a : GReg) (b : VReg) (n : LaneIndex)
  | vins (ty : Ty) (a : VReg) (b : GReg) (n : LaneIndex)
  | vmov (a b : VReg)
  | vcnt (op : CntOp) (ty : Ty) (a b : VReg) (mask : LaneMask)
  | mand (ty : Ty) (a b c : MReg)
  | mor (ty : Ty) (a b c : MReg)
  | mnot (ty : Ty) (a b : MReg)
  | mpop (ty : Ty) (a : GReg) (b : MReg)
  | mfirst (ty : Ty) (a : GReg) (b : MReg)
  | vblkRd (a : GReg) (b : VReg) (blk : Fin 8)
  | vblkWr (a : VReg) (b : GReg) (sel : BitVec 8)
  -- matrix (R201 to R210)
  | mclr (a : AReg)
  | mldb (u : Fin 128) (b c d : GReg) (kb : Fin 64) (sp : Bool) (nu : NuCode)
  | mmac (ty : Ty) (a : AReg) (b c : GReg) (u : Fin 128) (kb : Fin 64)
  | mmacs (ty : Ty) (a : AReg) (b c : GReg) (u : Fin 128) (kb : Fin 64)
  | mrd (a : VReg) (b : AReg) (q : Fin 32) (c1 : Fin 32)
  | mwr (a : AReg) (b : VReg) (q : Fin 32) (c1 : Fin 32)
  | mcvt (ty : Ty) (a : VReg) (b : AReg) (q : Fin 16) (scale : ScaleOp) (sat : Bool) (rnd : Fin 5)
  | msum (a : AReg) (b c : GReg)
  | mtr (a : AReg) (b c : GReg) (tr : Bool)
  | mfree (a : AReg)
  -- copies, gather, streams (R242, R410, R417)
  | cp (a b c d : GReg) (dnu snu : NuCode)
  | cp2d (a b c d : GReg) (rows1 rowq1 : BitVec 16) (dnu snu : NuCode)
  | cpl (a b c d : GReg) (dnu : NuCode)
  | cpc (a b c d : GReg) (dnu snu : NuCode)
  | cps (a b c d : GReg) (desc : BitVec 16) (dnu snu : NuCode)
  | gth (ty : Ty) (a b c d : GReg) (n1 : BitVec 12) (ix64 : Bool) (dnu snu : NuCode)
  | sct (ty : Ty) (a b c d : GReg) (n1 : BitVec 12) (ix64 : Bool) (dnu snu : NuCode)
  | cmpx (ty : Ty) (a b c d : GReg) (n1 : BitVec 12) (idx : Bool) (dnu snu : NuCode)
  | tsubLd (a b c : GReg)
  | tsubSt (a b c : GReg)
  | trel (b c : GReg)
  -- Larkspur (R309)
  | qbase (b c d : GReg)
  | qdef (a b c : GReg) (n : BitVec 15)
  | qget (sel : Fin 13) (a b : GReg)
  | qset (sel : Fin 13) (b c : GReg)
  | qslope (b c d : GReg)
  | qcross (b : GReg)
  | qdeps (b c d : GReg)
  | qnext (a : GReg)
  | qrun (b c d : GReg)
  | qstop (a : GReg)
  | qsnap (b c : GReg) (n : BitVec 15)
  | qstat (a : GReg) (sel : Fin 8)
  | qstorm (sel : Fin 4) (b c : GReg)
  -- Phlox (R356)
  | pclr
  | pcol (a : GReg) (b : VReg)
  | pcolAt (a : GReg) (b : VReg) (c : GReg)
  | pcolrRd (a : VReg) (b : GReg)
  | pcolrFr (a b : GReg)
  | pdec (a b : GReg)
  | pprop (a : GReg)
  | pbt (a b : GReg)
  | prow (a b : GReg)
  | ptrl (a b : GReg)
  | pconf (a : GReg)
  | plvl (a : GReg)
  | pset (a b : GReg)
  | pstat (a : GReg) (sel : Fin 7)
  -- steps without an encoding: engines of a slot
  | fullEmptySpinExpiry (sid : Nat)
  | engineInstructionComplete (sid : Nat) (port : Bool)
  | matrixRetire (sid : Nat)
  | copyPieceWrite (k : Nat)
  | streamTileDone (k : Nat)
  | engineTransferFault (k : Nat)
  | engineFaultResolved (k : Nat)
  -- memory and homes
  | exactCellArrival (k : Nat)
  /-- A piece of a store: the message and the piece. -/
  | storeRegistration (k : Nat × Nat)
  | storeAck (k : Nat)
  | loadRequest (k part : Nat)
  | loadReturn (k : Nat)
  | postedUpdateApplied (k : Nat)
  | contributorRegistration (k : Nat)
  | partialCombine (cache line : Nat)
  | atomicAtHome (k : Nat)
  | joinIncrement (k : Nat)
  | joinArrival (k : Nat)
  | wakeRegistration (k : Nat)
  | reuseClockAdvance (k : Nat)
  | honestyReport (k : Nat)
  -- cluster
  | slotDispatch (sid : Nat)
  | readyQueueAgeing (pkg k : Nat)
  | recordPlacement (k : Nat)
  | messageDelivery (k : Nat)
  | slotPreempt (sid : Nat)
  -- Larkspur
  | crossingRelease (pkg : Nat)
  | eventMessageArrival (k : Nat)
  | larkspurRunEnd (pkg : Nat)
  -- Aster and the horizon
  | asterAccept (k : Nat)
  | asterCommit (pkg k : Nat)
  | conflictAbort (k : Nat)
  | taskRestartReady (pkg k : Nat)
  | irrevocablePromotion (pkg k : Nat)
  | horizonDieCombine (die : Nat)
  | horizonPackageCombine
  | horizonFabricCombine (others : List (Key × Key))
  -- errors and firmware
  | softErrorDetected (place : ErrPlace) (corrected : Bool)
  /-- A pass over a stack: entry n of a list is its block n/2, in HBM when n is even, the LLC's copy of it when n is odd. -/
  | patrolScrub (stack : Nat) (corrected uncorrected : List Nat)
  | pageUnmap (launch : Nat) (va : Word)
  | pageMigrate (launch : Nat) (va : Word) (frame : Nat)
  -- front end
  | queueDoorbell (q : Nat) (producer : BitVec 32)
  | queueStart (q : Nat)
  | queueDestroy (q : Nat)
  | queueReset (q : Nat)
  | launch (q : Nat)
  | launchBegin (id : Nat)
  | seedDispatch (id : Nat)
  | gangPlacement (id : Nat)
  | gangReservation (id : Nat)
  | launchEnd (id : Nat)
  | preemptLaunch (q : Nat)
  | copyQuiesceExpiry (core : Nat)
  | resumeLaunch (q : Nat)
  | endLaunch (q : Nat)
  | flushLaunch (q : Nat)
  | unknownOpcodeCommand (q : Nat)
  | ttFire (e : Nat)
  | ttEntryEnable (e : Nat)
  | ttQueuedBegin (e : Nat)
  -- boot and management
  | managementReset
  | clearFailCount
  | capWrite (w : BitVec 32)
  | powerInterval (watts : Nat) (hot critical : Bool)
  | moduleReset
  | bootStageComplete (r : StageResult)
  | bootTimeout
  | versionNegotiation (i : Iface) (lo hi : Nat × Nat)
  | measurementExtend (n : Fin 16) (d : BitVec 256)
  | spdmRequest (r : SpdmRequest)
  | ptpLockChange (locked : Bool) (time : Nat)
  -- fabric and host
  | flitReceive (port : Nat) (f : Flit)
  | linkRetrain (port : Nat)
  | retrainingEnd (port lanes : Nat)
  | remoteWriteHandover (port : Nat)
  | traceEnable (port : Nat)
  | hostBar2Write (off : Nat) (data : List Byte)
  | hostBar2Read (off n : Nat)
  | registerWrite (off : Nat) (size : Fin 9) (value : Word)
  | debugInterfaceRequest (r : DebugRequest)
  deriving DecidableEq, Repr

end Sys2Proof
end

