-- ==== Sys2Proof/WellFormed.lean ====
section
/-! DEFINITION. Which operands an instruction may carry: `Instr.illegal` names the reason of R57 for which an
instruction's word is illegal, and an instruction is well formed when there is none. The decoder asks it of every
word it reads, so no ill-formed instruction is ever executed. -/

namespace Sys2Proof

namespace Ty

/-- The 5-bit code of a type (R47). -/
def code : Ty → Nat
  | none => 0 | i4 => 1 | i8 => 2 | i16 => 3 | i32 => 4 | i64 => 5 | z4 => 6 | z8 => 7 | z16 => 8 | z32 => 9
  | z64 => 10 | f16 => 11 | f32 => 12 | f64 => 13 | b16 => 14 | t6 => 15 | t8 => 16

/-- The type of a code; codes 17 to 31 are reserved (R47). -/
def ofCode : Nat → Option Ty
  | 0 => some none | 1 => some i4 | 2 => some i8 | 3 => some i16 | 4 => some i32 | 5 => some i64 | 6 => some z4
  | 7 => some z8 | 8 => some z16 | 9 => some z32 | 10 => some z64 | 11 => some f16 | 12 => some f32
  | 13 => some f64 | 14 => some b16 | 15 => some t6 | 16 => some t8 | _ => Option.none

/-- The lane width in bits (R166); 0 for the type `none`. -/
def width : Ty → Nat
  | none => 0 | i4 => 4 | i8 => 8 | i16 => 16 | i32 => 32 | i64 => 64 | z4 => 4 | z8 => 8 | z16 => 16 | z32 => 32
  | z64 => 64 | f16 => 16 | f32 => 32 | f64 => 64 | b16 => 16 | t6 => 6 | t8 => 8

/-- The lane count of a vector register (R166). -/
def lanes : Ty → Nat
  | none => 0 | i4 => 1024 | i8 => 512 | i16 => 256 | i32 => 128 | i64 => 64 | z4 => 1024 | z8 => 512 | z16 => 256
  | z32 => 128 | z64 => 64 | f16 => 256 | f32 => 128 | f64 => 64 | b16 => 256 | t6 => 640 | t8 => 512

/-- Lanes in one 64-byte block (R166, R152). -/
def perBlock (t : Ty) : Nat := t.lanes / 8

/-- The signed integer types. -/
def isI : Ty → Bool
  | i4 | i8 | i16 | i32 | i64 => true
  | _ => false

/-- The unsigned integer types. -/
def isZ : Ty → Bool
  | z4 | z8 | z16 | z32 | z64 => true
  | _ => false

/-- "int" of R175. -/
def isInt (t : Ty) : Bool := t.isI || t.isZ

/-- "float" of R175. -/
def isFloat : Ty → Bool
  | f16 | f32 | f64 | b16 => true
  | _ => false

/-- The tapered types (R146). -/
def isTapered : Ty → Bool
  | t6 | t8 => true
  | _ => false

/-- The types of scaled blocks (R152, R184). -/
def isScaled : Ty → Bool
  | t8 | t6 | i8 | z8 | i4 => true
  | _ => false

/-- Types of the scalar loads and stores (R219). -/
def isScalarMem (t : Ty) : Bool := (t.isInt || t.isFloat) && 8 ≤ t.width

/-- Types of the strided, indexed and shuffled forms: 8 to 64 bits, other than t6 (R219, R194). -/
def isByteLane (t : Ty) : Bool := 8 ≤ t.width && t != none

end Ty

/-- Legal format codes of a descriptor (R152): neither reserved nor poison. -/
def formatOk (f : Nat) : Bool := f ≤ 0x0B

/-- The rule of R154 on a descriptor's scale, for the formats that may not be scaled: 0 or −128 only. -/
def scaleOk (d : Nat) : Bool :=
  let f := bits d 7 0
  let s := bits d 15 8
  if f == 0 || (6 ≤ f && f ≤ 9) then s == 0 || s == 0x80 else true

/-- A descriptor that an instruction may write: neither reserved nor poison, and within R154. -/
def descOk (d : Nat) : Bool := formatOk (bits d 7 0) && scaleOk d

/-- The first reason that holds, in ascending order of the reasons of R57 (log 5). -/
def firstReason (c4 c5 c6 : Bool) : Option Nat :=
  if c4 then some 4 else if c5 then some 5 else if c6 then some 6 else none

namespace Instr

/-- Reason 5: a type outside the instruction's row (R47, R167, R219). -/
def badType (ok : Bool) : Option Nat := firstReason false (!ok) false

/-- Common options of an integer or float vector operation that rounds floats (R167, R175): no `rnd`
with an int type (reason 4), the type in its row (reason 5), `sat` only where `satOk` (reason 6). -/
def badVec (t : Ty) (ok satOk : Bool) (o : VOpt) : Option Nat :=
  firstReason (t.isInt && o.rnd != 0) (!ok) (o.sat && !satOk)

/-- `vcvt`: the pair of types is in the table of R182. -/
def cvtPairOk (d s : Ty) : Bool :=
  d != s &&
  ((d.isFloat && s.isFloat) ||
   ((d.isInt && 16 ≤ d.width) && s.isFloat) ||
   (d.isFloat && ((s.isInt && 16 ≤ s.width) || s == .z4)) ||
   (d.isScaled && s.isFloat && (d != .t6 || s == .f32 || s == .f64)) ||
   (d.isFloat && s.isScaled && (s != .t6 || d == .f32 || d == .f64)) ||
   (d.isInt && s.isInt))

/-- `vcvt`: the destination is encoded with a scale (R184). -/
def cvtEncodes (d s : Ty) : Bool := d.isScaled && s.isFloat

/-- `vcvt`: the number of parts (R183). -/
def cvtParts (d s : Ty) : Nat := Nat.max d.lanes s.lanes / Nat.max 1 (Nat.min d.lanes s.lanes)

/-- Automatic scales without a mask need destination blocks written in all their lanes (R184). -/
def cvtAutoWhole (d s : Ty) : Bool := d.lanes ≤ s.lanes || s.lanes % Nat.max 1 d.perBlock == 0

/-- Reasons of `vcvt` (R167, R182 to R186). -/
def badCvt (d s : Ty) (p : Nat) (sc : ScaleOp) (o : VOpt) : Option Nat :=
  firstReason
    ((d.isInt && s.isInt && o.rnd != 0) ||
      (!cvtEncodes d s && sc != .given 0))
    (d == .none || s == .none || cvtParts d s ≤ p || (cvtEncodes d s && sc == .given 0x80))
    (!cvtPairOk d s ||
      (o.sat && !((d.isTapered && s.isFloat) || (d.isInt && s.isInt))) ||
      (cvtEncodes d s && sc == .auto && o.mask == none && !cvtAutoWhole d s))

/-- Reasons of `mcvt` (R208). -/
def badMcvt (t : Ty) (q : Nat) (sc : ScaleOp) (sat : Bool) : Option Nat :=
  let eight := t == .t8 || t == .i8 || t == .z8
  let two := t == .b16 || t == .f16
  firstReason false
    (!(eight || two) || (eight && 8 ≤ q) || (eight && sc == .given 0x80))
    ((two && sc != .given 0) || (sat && t != .t8))

/-- Types of `amo` and `red` minors 0 to 10 (R232, R234): the row (reason 5), then the pairing (reason 6). -/
def badAmo (fl swap : Bool) (t : Ty) : Option Nat :=
  let i := t == .i32 || t == .i64 || t == .z32 || t == .z64
  let f := t == .f32 || t == .f64
  firstReason false (!(i || f)) (if swap then false else if fl then i else f)

/-- The float operations of `amo` and `red`. -/
def amoFloat : AmoOp → Bool
  | .fadd | .fmin | .fmax => true
  | _ => false
/-- The float operations of `red`. -/
def redFloat : RedOp → Bool
  | .fadd | .fmin | .fmax => true
  | _ => false

/-- Types of the full/empty forms (R219). -/
def fullEmptyTy : Ty → Bool
  | .i32 | .z32 | .f32 | .i64 | .z64 | .f64 => true
  | _ => false

/-- Types of `mmac` and `mmacs` (R210). -/
def macTy : Ty → Bool
  | .t8 | .t6 | .i8 | .z8 | .i4 | .b16 | .f16 => true
  | _ => false

/-- The number of set bits among the low n bits of x. -/
def popLow (x : Nat) : Nat → Nat
  | 0 => 0
  | n + 1 => (if x.testBit n then 1 else 0) + popLow x n

/-- The loop end of R139 lies before the next instruction, for an instruction at slot `s`. -/
def loopEndEarly (s : Nat) (t : Target) : Bool :=
  let d := signedOf 40 t.disp.toNat
  if s == 4 then decide (d < 1) else decide (d < 0) || (d == 0 && t.tslot.val ≤ s)

/-- The control registers that may be read only (R96). -/
def csrReadOnly (n : Nat) : Bool := n ≤ 0x006 || n == 0x020 || n == 0x021 || n == 0x040 || n == 0x041 || n == 0x061

/-- The assigned control-register numbers (R96). -/
def csrAssigned (n : Nat) : Bool :=
  csrReadOnly n || (0x010 ≤ n && n ≤ 0x013) || n == 0x030 || n == 0x050 || n == 0x051 || n == 0x060

/-- The reason of R57 for which the word of this instruction, at slot `s` of its line, is illegal. Events of other
agents have no word and no such reason. -/
def illegal (s : Nat) : Instr → Option Nat
  | rgn gin lcin => firstReason (gin.toNat % 2 != 0) false (16 < popLow gin.toNat 64 + popLow lcin.toNat 3)
  | xf c1 c2 => firstReason false false (c1 == c2)
  | csrr _ n => badType (csrAssigned n.toNat)
  | csrw n _ | csrx _ n _ | csrs _ n _ | csrc _ n _ => firstReason false (!csrAssigned n.toNat) (csrReadOnly n.toNat)
  | sext t _ _ => badType (t == .i8 || t == .i16 || t == .i32)
  | zext t _ _ => badType (t == .z8 || t == .z16 || t == .z32)
  | bswp t _ _ => badType (t == .z16 || t == .z32 || t == .z64)
  | bfx t _ _ lo w => badType ((t == .z64 || t == .i64) && w.val != 0 && lo.val + w.val ≤ 64)
  | bfi _ _ lo w => badType (w.val != 0 && lo.val + w.val ≤ 64)
  | fadd t .. | fsub t .. | fmul t .. | fdiv t .. | fsqrt t .. | fmin t .. | fmax t .. | fma t .. | fcmp _ t .. =>
    badType (t == .f32 || t == .f64)
  | fcvt d t _ _ =>
    let ok (x : Ty) := x.isFloat || x == .i32 || x == .i64 || x == .z32 || x == .z64
    firstReason false (!(ok d && ok t)) ((d.isInt && t.isInt) || d == t)
  | lp _ _ _ t | lpx _ _ _ t | lpr _ _ _ t => firstReason false false (loopEndEarly s t)
  | sendv _ _ _ _ n => badType (1 ≤ n.val && n.val ≤ 16)
  | arr _ n => badType (n != 0)
  | ld t .. | ldAcq t .. | st t .. | stRel t .. | ldc t .. => badType t.isScalarMem
  | ldv t _ _ m | stv t _ _ m => firstReason false false (t == .none && m.isSome)
  | ldvs t .. | stvs t .. | ldvx t .. | stvx t .. => badType t.isByteLane
  | ldf t .. | ldfe t .. | stef t .. | stff t .. => badType (fullEmptyTy t)
  | amo op _ t .. => badAmo (amoFloat op) (op == .swap) t
  | red op _ t .. => badAmo (redFloat op) false t
  | nutick n => badType (n != 0)
  | vadd t _ _ _ o | vsub t _ _ _ o | vmul t _ _ _ o => badVec t (t.isInt || t.isFloat) t.isInt o
  | vfma t _ _ _ _ o => badVec t (t.isInt || t.isFloat) t.isInt o
  | vmacc t _ _ _ o => badVec t ((t.isInt && 8 ≤ t.width) || t.isFloat) t.isInt o
  | vmin t .. | vmax t .. => badType (t.isInt || t.isFloat)
  | vdiv t _ _ _ m r => badVec t ((t.isInt && 32 ≤ t.width) || t.isFloat) false ⟨m, r, false⟩
  | vsqrt t .. | vrcp t .. | vrsq t .. | vexp2 t .. | vlog2 t .. => badType t.isFloat
  | vabs t _ _ _ sat | vneg t _ _ _ sat => firstReason false (!(t.isI || t.isFloat)) (sat && t.isFloat)
  | vnot t .. | vand t .. | vor t .. | vxor t .. | vcnt _ t .. => badType t.isInt
  | vshl t _ _ k _ | vshr t _ _ k _ | vsar t _ _ k _ =>
    badType (t.isInt && (match k with | .reg _ => true | .imm n => n.val < t.width))
  | vcmp cc t .. => firstReason false (!(t.isInt || t.isFloat)) (cc == .un && t.isInt)
  | vsel t .. | vbcast t .. => badType (t != .none)
  | vcvt d t _ _ p sc o => badCvt d t p.val sc o
  | vsat t _ _ n _ => badType (t.isInt && 1 ≤ n.val && n.val ≤ t.width)
  | vpack t .. => badType (t.isInt && 8 ≤ t.width)
  | vunpk t .. => badType (t.isInt && t.width ≤ 32)
  | vred op t _ _ _ r | vscan op t _ _ _ r =>
    firstReason (r != 0 && (op != .add || t.isInt))
      (!(t.isInt || (t.isFloat && (op == .add || op == .min || op == .max)))) false
  | vdot t _ _ _ m r =>
    badVec t (t == .i8 || t == .z8 || t == .i16 || t == .z16 || t == .f16 || t == .b16) false ⟨m, r, false⟩
  | vperm t .. => badType (16 ≤ t.width)
  | vshuf t .. => badType t.isByteLane
  | vext t _ _ n | vins t _ _ n =>
    badType (t != .none && (match n with | .reg _ => true | .imm k => k.toNat < t.lanes))
  | mpop t .. | mfirst t .. => firstReason false false (t == .none)
  | vblkWr _ _ k => badType (k != 0)
  | mldb u _ _ _ kb sp _ => badType (1 ≤ kb.val && u.val + kb.val * (if sp then 5 else 8) ≤ 128)
  | mmac t _ _ _ _ kb | mmacs t _ _ _ _ kb => badType (macTy t && 1 ≤ kb.val && kb.val ≤ 25)
  | mrd v _ q c => badType (q.val + c.val + 1 ≤ 32 && v.val + c.val ≤ 63)
  | mwr _ v q c => badType (q.val + c.val + 1 ≤ 32 && v.val + c.val ≤ 63)
  | mcvt t _ _ q sc sat _ => badMcvt t q.val sc sat
  | cps _ _ _ _ d _ _ => firstReason false false (!descOk d.toNat)
  | gth t .. | sct t .. | cmpx t .. => badType t.isScalarMem
  | qset k .. => firstReason false false (k.val == 4 || k.val == 5 || k.val == 11 || k.val == 12)
  | qstorm k _ c => firstReason (k.val == 0 && c.val != 0) false false
  | _ => none

/-- Well formed at slot `s` of a fetch line: no reason of R57 makes its word illegal. -/
abbrev wf (s : Nat) (i : Instr) : Prop := i.illegal s = none

end Instr
end Sys2Proof
end

