-- ==== Sys2Proof/Machine/Num.lean ====
section
/-! DEFINITION. Numbers (R130 to R134, R144 to R155, R163 to R165): every arithmetic result is computed exactly as a
dyadic number and narrowed once. -/

namespace Sys2Proof.Num

/-- The flags nv, dz, of, uf, nx at bits 4 to 0 (R97). -/
abbrev Flags := BitVec 5
def nv : Flags := 16
def dz : Flags := 8
def of : Flags := 4
def uf : Flags := 2
def nx : Flags := 1

/-- Rounding modes in the coding of `frm` (R97). -/
inductive Rm where
  | rne | rtz | rup | rdn
  deriving DecidableEq, Repr

/-- The mode of `frm`. -/
def rmOf (frm : Nat) : Rm := match frm with | 0 => .rne | 1 => .rtz | 2 => .rup | _ => .rdn

/-- The mode of a rnd field (R45): 0 takes `frm`. -/
def rmOfRnd (rnd frm : Nat) : Rm := if rnd == 0 then rmOf frm else rmOf (rnd - 1)

/-- An IEEE binary format: exponent and fraction widths (R146). -/
structure Fmt where
  ew : Nat
  fw : Nat
  deriving DecidableEq, Repr

def f16 : Fmt := ⟨5, 10⟩
def b16 : Fmt := ⟨8, 7⟩
def f32 : Fmt := ⟨8, 23⟩
def f64 : Fmt := ⟨11, 52⟩

/-- The format of a float type. -/
def fmtOf : Ty → Fmt
  | .f16 => f16 | .b16 => b16 | .f32 => f32 | _ => f64

namespace Fmt
def bias (f : Fmt) : Nat := 2 ^ (f.ew - 1) - 1
def width (f : Fmt) : Nat := 1 + f.ew + f.fw
/-- The pattern of +∞. -/
def inf (f : Fmt) : Nat := (2 ^ f.ew - 1) * 2 ^ f.fw
/-- The largest finite magnitude. -/
def maxFinite (f : Fmt) : Nat := f.inf - 1
/-- The canonical quiet NaN (R146). -/
def qnan (f : Fmt) : Nat := f.inf + 2 ^ (f.fw - 1)
/-- The sign bit. -/
def signBit (f : Fmt) : Nat := 2 ^ (f.ew + f.fw)
/-- The sign bit of a sign. -/
def sgn (f : Fmt) (neg : Bool) : Nat := if neg then f.signBit else 0
end Fmt

/-- A float's value: NaN (signalling or not), infinity, or ± sig × 2^exp. -/
inductive Val where
  | nan (signalling : Bool)
  | inf (neg : Bool)
  | fin (neg : Bool) (sig : Nat) (exp : Int)
  deriving DecidableEq, Repr

/-- The value of a pattern (R146). -/
def unpack (f : Fmt) (x : Nat) : Val :=
  let neg := x / f.signBit % 2 == 1
  let e := x / 2 ^ f.fw % 2 ^ f.ew
  let m := x % 2 ^ f.fw
  if e == 2 ^ f.ew - 1 then
    if m == 0 then .inf neg else .nan (m < 2 ^ (f.fw - 1))
  else if e == 0 then .fin neg m (1 - (f.bias : Int) - f.fw)
  else .fin neg (m + 2 ^ f.fw) ((e : Int) - f.bias - f.fw)

/-- Whether a magnitude cut at a remainder rounds up: odd kept part, remainder against the half. -/
def roundsUp (rm : Rm) (neg odd : Bool) (rem half : Nat) (sticky : Bool) : Bool :=
  match rm with
  | .rne => half < rem || (rem == half && (sticky || odd))
  | .rtz => false
  | .rup => !neg && (0 < rem || sticky)
  | .rdn => neg && (0 < rem || sticky)

/-- A magnitude sig × 2^exp (a little more when `sticky`), cut to a multiple of 2^q: the kept multiple after rounding,
and whether anything was cut. -/
def cut (rm : Rm) (neg : Bool) (sig : Nat) (exp q : Int) (sticky : Bool) : Nat × Bool :=
  if q ≤ exp then (sig * 2 ^ (exp - q).toNat, sticky)
  else
    let k := (q - exp).toNat
    let m := sig / 2 ^ k
    let rem := sig % 2 ^ k
    let up := roundsUp rm neg (m % 2 == 1) (2 * rem) (2 ^ k) sticky
    (if up then m + 1 else m, rem != 0 || sticky)

/-- The pattern of overflow, by mode (R134, IEEE 754). -/
def overflow (f : Fmt) (rm : Rm) (neg : Bool) : Nat :=
  f.sgn neg + (match rm, neg with
    | .rne, _ => f.inf
    | .rtz, _ => f.maxFinite
    | .rup, false => f.inf
    | .rup, true => f.maxFinite
    | .rdn, false => f.maxFinite
    | .rdn, true => f.inf)

/-- Round ± sig × 2^exp (a little more in magnitude when `sticky`) into a format, with the flags of R130: tininess
after rounding, uf only with nx. -/
def round (f : Fmt) (rm : Rm) (neg : Bool) (sig : Nat) (exp : Int) (sticky : Bool := false) : Nat × Flags :=
  if sig == 0 then (f.sgn neg, 0)
  else
    let e := exp + (Nat.log2 sig : Int)
    let emin : Int := 1 - (f.bias : Int)
    let eb := if e < emin then emin else e
    let (m, inexact) := cut rm neg sig exp (eb - f.fw) sticky
    let mag := (eb - emin).toNat * 2 ^ f.fw + m
    if f.inf ≤ mag then (overflow f rm neg, of ||| nx)
    else
      let tiny := e < emin && (cut rm neg sig exp (e - f.fw) sticky).1 < 2 ^ (f.fw + 1) ||
        (e < emin - 1)
      (f.sgn neg + mag, (if inexact then nx else 0) ||| (if tiny && inexact then uf else 0))

/-- An integer times 2^exp, rounded; an exact zero has the sign given. -/
def roundInt (f : Fmt) (rm : Rm) (zneg : Bool) (x exp : Int) : Nat × Flags :=
  if x == 0 then (f.sgn zneg, 0) else round f rm (x < 0) x.natAbs exp

/-- nv for a signalling NaN. -/
def snan : Val → Flags
  | .nan true => nv
  | _ => 0
/-- Whether a value is a NaN. -/
def Val.isNan : Val → Bool
  | .nan _ => true
  | _ => false

/-- The signed significand. -/
def sg (neg : Bool) (sig : Nat) : Int := if neg then -(sig : Int) else sig

/-- The exact sum of two dyadic numbers: integer and exponent. -/
def dyAdd (x : Int) (ex : Int) (y : Int) (ey : Int) : Int × Int :=
  let e := if ex < ey then ex else ey
  (x * 2 ^ (ex - e).toNat + y * 2 ^ (ey - e).toNat, e)

/-- The sign of an exact zero sum of terms of the given signs (IEEE 754). -/
def zeroSign (rm : Rm) (a b : Bool) : Bool := if a == b then a else rm == .rdn

/-- The sum of two values (R131). -/
def addV (f : Fmt) (rm : Rm) (a b : Val) : Nat × Flags :=
  match a, b with
  | .nan _, _ | _, .nan _ => (f.qnan, snan a ||| snan b)
  | .inf x, .inf y => if x == y then (f.sgn x + f.inf, 0) else (f.qnan, nv)
  | .inf x, _ => (f.sgn x + f.inf, 0)
  | _, .inf y => (f.sgn y + f.inf, 0)
  | .fin na sa ea, .fin nb sb eb =>
    let (x, e) := dyAdd (sg na sa) ea (sg nb sb) eb
    roundInt f rm (zeroSign rm na nb) x e

/-- The opposite value. -/
def Val.neg : Val → Val
  | .nan s => .nan s
  | .inf n => .inf (!n)
  | .fin n s e => .fin (!n) s e

/-- The product of two values (R131). -/
def mulV (f : Fmt) (rm : Rm) (a b : Val) : Nat × Flags :=
  match a, b with
  | .nan _, _ | _, .nan _ => (f.qnan, snan a ||| snan b)
  | .inf x, .inf y => (f.sgn (x != y) + f.inf, 0)
  | .inf x, .fin n s _ => if s == 0 then (f.qnan, nv) else (f.sgn (x != n) + f.inf, 0)
  | .fin n s _, .inf y => if s == 0 then (f.qnan, nv) else (f.sgn (n != y) + f.inf, 0)
  | .fin na sa ea, .fin nb sb eb => round f rm (na != nb) (sa * sb) (ea + eb)

/-- B × C + D, rounded once (R131): 0 × ∞ sets nv whatever D is. -/
def fmaV (f : Fmt) (rm : Rm) (a b d : Val) : Nat × Flags :=
  let fl := snan a ||| snan b ||| snan d
  let zi : Bool := match a, b with
    | .inf _, .fin _ s _ => s == 0
    | .fin _ s _, .inf _ => s == 0
    | _, _ => false
  if zi then (f.qnan, nv)
  else if a.isNan || b.isNan || d.isNan then (f.qnan, fl)
  else
    match a, b, d with
    | .fin na sa ea, .fin nb sb eb, .fin nd sd ed =>
      let (x, e) := dyAdd (sg (na != nb) (sa * sb)) (ea + eb) (sg nd sd) ed
      roundInt f rm (zeroSign rm (na != nb) nd) x e
    | .fin _ _ _, .fin _ _ _, .inf y => (f.sgn y + f.inf, 0)
    | _, _, _ =>
      let neg (v : Val) : Bool := match v with | .inf n => n | .fin n _ _ => n | .nan _ => false
      let ps := neg a != neg b
      match d with
      | .inf y => if ps == y then (f.sgn y + f.inf, 0) else (f.qnan, nv)
      | _ => (f.sgn ps + f.inf, 0)

/-- B / C (R131). -/
def divV (f : Fmt) (rm : Rm) (a b : Val) : Nat × Flags :=
  match a, b with
  | .nan _, _ | _, .nan _ => (f.qnan, snan a ||| snan b)
  | .inf _, .inf _ => (f.qnan, nv)
  | .inf x, .fin n _ _ => (f.sgn (x != n) + f.inf, 0)
  | .fin n _ _, .inf y => (f.sgn (n != y), 0)
  | .fin na sa ea, .fin nb sb eb =>
    if sb == 0 then (if sa == 0 then (f.qnan, nv) else (f.sgn (na != nb) + f.inf, dz))
    else if sa == 0 then (f.sgn (na != nb), 0)
    else
      let k := f.fw + 4 + Nat.log2 sb
      let n := sa * 2 ^ k
      round f rm (na != nb) (n / sb) (ea - eb - k) (n % sb != 0)

/-- The integer square root, bit by bit: bits i − 1 down to 0 of the root are tried. -/
def isqrtFrom (n : Nat) : Nat → Nat → Nat
  | 0, r => r
  | i + 1, r =>
    let t := r + 2 ^ i
    if t * t ≤ n then isqrtFrom n i t else isqrtFrom n i r

/-- ⌊√n⌋. -/
def isqrt (n : Nat) : Nat := isqrtFrom n (Nat.log2 n / 2 + 1) 0

/-- √B (R131). -/
def sqrtV (f : Fmt) (rm : Rm) (a : Val) : Nat × Flags :=
  match a with
  | .nan _ => (f.qnan, snan a)
  | .inf false => (f.inf, 0)
  | .inf true => (f.qnan, nv)
  | .fin n s e =>
    if s == 0 then (f.sgn n, 0)
    else if n then (f.qnan, nv)
    else
      let k := 2 * (f.fw + 4) + (e % 2).toNat
      let x := s * 2 ^ k
      let r := isqrt x
      round f rm false r ((e - k) / 2) (r * r != x)

/-- 1 / √B, correctly rounded (R175). -/
def rsqrtV (f : Fmt) (rm : Rm) (a : Val) : Nat × Flags :=
  match a with
  | .nan _ => (f.qnan, snan a)
  | .inf false => (0, 0)
  | .inf true => (f.qnan, nv)
  | .fin n s e =>
    if s == 0 then (f.sgn n + f.inf, dz)
    else if n then (f.qnan, nv)
    else
      let o := (e % 2).toNat
      let sg := s * 2 ^ o
      let h := (e - o) / 2
      let k := f.fw + 6 + Nat.log2 sg
      let r := isqrt (2 ^ (2 * k) / sg)
      round f rm false r (-h - k) (r * r * sg != 2 ^ (2 * k))

/-- Σ over i < n of z^(2i+1) / (2i+1), on fixed-point numbers of p bits: `w` is z^(2i+1), `z2` is z². -/
def atanhSum (p z2 : Nat) : Nat → Nat → Nat → Nat
  | 0, _, _ => 0
  | n + 1, i, w => w / (2 * i + 1) + atanhSum p z2 n (i + 1) (w * z2 / 2 ^ p)

/-- atanh (a / b) × 2^p. -/
def atanhQ (p a b : Nat) : Nat :=
  let z := a * 2 ^ p / b
  atanhSum p (z * z / 2 ^ p) (p / 3 + 4) 0 z

/-- ln 2 × 2^p. -/
def ln2 (p : Nat) : Nat := 2 * atanhQ p 1 3

/-- Σ over i < n of y^i / i!, on fixed-point numbers of p bits: `w` is the current term. -/
def expSum (p y : Nat) : Nat → Nat → Nat → Nat
  | 0, _, _ => 0
  | n + 1, i, w => w + expSum p y n (i + 1) (w * y / 2 ^ p / (i + 1))

/-- Working precision of the correctly rounded functions (log 9). -/
def prec (f : Fmt) : Nat := 4 * f.fw + 64

/-- 2^B, correctly rounded (R175, log 9). -/
def exp2V (f : Fmt) (rm : Rm) (a : Val) : Nat × Flags :=
  match a with
  | .nan _ => (f.qnan, snan a)
  | .inf false => (f.inf, 0)
  | .inf true => (0, 0)
  | .fin n s e =>
    if s == 0 then round f rm false 1 0
    else
      let big : Int := 2 ^ (f.ew + 1)
      let lg : Int := e + Nat.log2 s
      if (f.ew : Int) + 1 ≤ lg then round f rm false (2 ^ (f.fw + 4)) (if n then -big else big) true
      else if lg < -(f.fw + 6 : Int) then
        if n then round f rm false (2 ^ (f.fw + 5) - 1) (-(f.fw + 5 : Int)) true
        else round f rm false (2 ^ (f.fw + 5)) (-(f.fw + 5 : Int)) true
      else
        let x := sg n s
        let d := (if e < 0 then (-e).toNat else 0)
        let y := if e < 0 then x else x * 2 ^ e.toNat
        let i := y / 2 ^ d
        let fr := (y % 2 ^ d).toNat
        if fr == 0 then round f rm false 1 i
        else
          let p := prec f
          let t := fr * ln2 p / 2 ^ d
          round f rm false (expSum p t (p / 3 + 8) 0 (2 ^ p)) (i - p) true

/-- log2 B, correctly rounded (R175, log 9). -/
def log2V (f : Fmt) (rm : Rm) (a : Val) : Nat × Flags :=
  match a with
  | .nan _ => (f.qnan, snan a)
  | .inf false => (f.inf, 0)
  | .inf true => (f.qnan, nv)
  | .fin n s e =>
    if s == 0 then (f.sgn true + f.inf, dz)
    else if n then (f.qnan, nv)
    else
      let l := Nat.log2 s
      let i : Int := e + l
      if s == 2 ^ l then roundInt f rm false i 0
      else
        let p := prec f
        let m := 2 * atanhQ p (s - 2 ^ l) (s + 2 ^ l) * 2 ^ p / ln2 p
        let t : Int := i * 2 ^ p + m
        if t < 0 then round f rm true (t.natAbs - 1) (-(p : Int)) true
        else round f rm false t.toNat (-(p : Int)) true

/-- Compare two values: less, equal; false on a NaN. −0 equals +0. -/
def ltV (a b : Val) : Bool :=
  match a, b with
  | .nan _, _ | _, .nan _ => false
  | .inf x, .inf y => x && !y
  | .inf x, _ => x
  | _, .inf y => !y
  | .fin na sa ea, .fin nb sb eb => (dyAdd (sg na sa) ea (-(sg nb sb)) eb).1 < 0
/-- Equality of values; −0 equals +0, a NaN equals nothing. -/
def eqV (a b : Val) : Bool := !a.isNan && !b.isNan && !ltV a b && !ltV b a

/-- Whether a value's sign is minus. -/
def Val.isNeg : Val → Bool
  | .nan _ => false
  | .inf n => n
  | .fin n _ _ => n

/-- The minimum or maximum of R132 on patterns. -/
def minmax (f : Fmt) (wantMax : Bool) (x y : Nat) : Nat × Flags :=
  let a := unpack f x
  let b := unpack f y
  let fl := snan a ||| snan b
  match a, b with
  | .nan _, .nan _ => (f.qnan, fl)
  | .nan _, _ => (y % 2 ^ f.width, fl)
  | _, .nan _ => (x % 2 ^ f.width, fl)
  | _, _ =>
    let less := ltV a b || (eqV a b && a.isNeg && !b.isNeg)
    (if less == wantMax then y % 2 ^ f.width else x % 2 ^ f.width, 0)

/-- Binary operations on patterns. -/
def add (f : Fmt) (rm : Rm) (x y : Nat) : Nat × Flags := addV f rm (unpack f x) (unpack f y)
def sub (f : Fmt) (rm : Rm) (x y : Nat) : Nat × Flags := addV f rm (unpack f x) (unpack f y).neg
def mul (f : Fmt) (rm : Rm) (x y : Nat) : Nat × Flags := mulV f rm (unpack f x) (unpack f y)
def div (f : Fmt) (rm : Rm) (x y : Nat) : Nat × Flags := divV f rm (unpack f x) (unpack f y)
def fma (f : Fmt) (rm : Rm) (x y z : Nat) : Nat × Flags := fmaV f rm (unpack f x) (unpack f y) (unpack f z)

/-- Float to float (R134). -/
def cvtFF (dst src : Fmt) (rm : Rm) (x : Nat) : Nat × Flags :=
  match unpack src x with
  | .nan s => (dst.qnan, if s then nv else 0)
  | .inf n => (dst.sgn n + dst.inf, 0)
  | .fin n s e => round dst rm n s e

/-- The range of an integer type of w bits. -/
def intMin (signed : Bool) (w : Nat) : Int := if signed then -(2 ^ (w - 1) : Nat) else 0
def intMax (signed : Bool) (w : Nat) : Int := if signed then (2 ^ (w - 1) : Nat) - 1 else (2 ^ w : Nat) - 1

/-- A value rounded to an integer of w bits (R134): NaN gives 0 and nv; beyond the range gives the bound and nv. -/
def toInt (signed : Bool) (w : Nat) (rm : Rm) (v : Val) : Int × Flags :=
  match v with
  | .nan _ => (0, nv)
  | .inf n => (if n then intMin signed w else intMax signed w, nv)
  | .fin n s e =>
    let (m, inexact) := cut rm n s e 0 false
    let x := sg n m
    if x < intMin signed w then (intMin signed w, nv)
    else if intMax signed w < x then (intMax signed w, nv)
    else (x, if inexact then nx else 0)

/-- A tapered pattern's value (R147, R148): `n` magnitude bits (7 or 5), an exponent bit or none. `none` is NaR. -/
def tapDec (n : Nat) (ebit : Bool) (x : Nat) : Option (Bool × Nat × Int) :=
  let neg := x / 2 ^ n % 2 == 1
  let m := x % 2 ^ n
  if m == 0 then (if neg then none else some (false, 0, 0))
  else
    let ones := m / 2 ^ (n - 1) == 1
    let rec run (i : Nat) : Nat := match i with
      | 0 => 0
      | i + 1 => if (m / 2 ^ i % 2 == 1) == ones then 1 + run i else 0
    let k := run n
    let rest := n - min n (k + 1)
    let r : Int := if ones then (k : Int) - 1 else -(k : Int)
    if ebit then
      let e := if rest == 0 then 0 else m / 2 ^ (rest - 1) % 2
      let fb := rest - 1
      some (neg, 2 ^ fb + m % 2 ^ fb, 2 * r + e - fb)
    else some (neg, 2 ^ rest + m % 2 ^ rest, r - rest)

/-- Rounding a nonzero magnitude sig × 2^exp into a tapered pattern (R149). -/
def tapRound (n : Nat) (ebit : Bool) (sig : Nat) (exp : Int) : Nat :=
  let fb := Nat.log2 sig
  let e := exp + fb
  let r := if ebit then e / 2 else e
  let eb : Nat := if ebit then (e % 2).toNat else 0
  let (reg, rl) : Nat × Nat := if 0 ≤ r then (2 ^ (r.toNat + 2) - 2, r.toNat + 2) else (1, (-r).toNat + 1)
  let (pre, pl) := if ebit then (reg * 2 + eb, rl + 1) else (reg, rl)
  let all := pre * 2 ^ fb + (sig - 2 ^ fb)
  let len := pl + fb
  let m :=
    if len ≤ n then all * 2 ^ (n - len)
    else
      let k := len - n
      let m := all / 2 ^ k
      let tail := all % 2 ^ k
      if 2 ^ k ≤ 2 * tail && (2 ^ k < 2 * tail || m % 2 == 1) then m + 1 else m
  if m == 0 then 1 else if 2 ^ n ≤ m then 2 ^ n - 1 else m

/-- A value times 2^(−scale), encoded into a tapered type with the flags of R150. -/
def tapEnc (n : Nat) (ebit sat : Bool) (scale : Int) (v : Val) : Nat × Flags :=
  let top : Int := if ebit then 12 else 4
  match v with
  | .nan _ => (2 ^ n, nv)
  | .inf neg => if sat then ((if neg then 2 ^ n else 0) + (2 ^ n - 1), of ||| nx) else (2 ^ n, nv)
  | .fin neg s e =>
    if s == 0 then (0, 0)
    else
      let e := e - scale
      let m := tapRound n ebit s e
      let lg := e + Nat.log2 s
      let above := top < lg || (lg == top && s != 2 ^ Nat.log2 s)
      let below := lg < -top
      let exact : Bool := match tapDec n ebit m with
        | some (_, s', e') => (dyAdd s e (-(s' : Int)) e').1 == 0
        | none => false
      ((if neg then 2 ^ n else 0) + m,
        if above then of ||| nx else if below then uf ||| nx else if exact then 0 else nx)

/-- Magnitude bits of a tapered type, and whether it has an exponent bit. -/
def tapBits (t : Ty) : Nat × Bool := if t == .t6 then (5, false) else (7, true)

/-- A 2:4 compressed group: elements of a 64-byte block's 64 positions (R155), given the byte at each offset. -/
def expand24 (byteAt : Nat → Nat) (i : Nat) : Nat :=
  let g := i / 4
  let pair := byteAt (32 + g / 2) / 2 ^ (4 * (g % 2)) % 16
  let p0 := pair % 4
  let p1 := pair / 4
  if p1 ≤ p0 then 0
  else if i % 4 == p0 then byteAt (2 * g)
  else if i % 4 == p1 then byteAt (2 * g + 1)
  else 0

end Sys2Proof.Num
end

