-- ==== Sys2Proof/Config.lean ====
section
/-! DEFINITION. What an implementation fixes, and the free values: constants without a body, applied to the
model's counter of free values or to the operands on which the open value depends. No proof can see one. -/

namespace Sys2Proof.Config

/-- FREE VALUE (log 4, R63, R11). What dead vector register `n` of a task start `epoch` reads as. -/
opaque deadVector (epoch n : Nat) : VBits

/-- FREE VALUE (log 4, R63, R11). The descriptor that block `b` of a dead vector register reads as. -/
opaque deadDescriptor (epoch n b : Nat) : BitVec 16

/-- FREE VALUE (log 4, R63, R11). What dead mask `n` reads as. -/
opaque deadMask (epoch n : Nat) : BitVec 1024

/-- FREE VALUE (log 4, R93, R11, R212). The lanes an `mrd` writes before the writers of its accumulator have retired. -/
opaque earlyRows (nonce register : Nat) : VBits

/-- FREE VALUE (log 4, R243, R11). A byte of the part of a copy's destination that overlaps its source. -/
opaque overlapByte (nonce address : Nat) : Byte

/-- FREE VALUE (log 18, R226). The index of lane `i` of an indexed vector access that has more lanes than its index
register. -/
opaque missingIndex (nonce i : Nat) : Word

/-- FREE VALUE (log 4, R304). What `qget` reads of a variable of another module, whose Larkspur this model does not hold. -/
opaque remoteVariable (nonce : Nat) : Word

/-- FREE VALUE (log 4, R422, R423). The frame that firmware takes for a copied page. -/
opaque newFrame (nonce : Nat) : Nat

/-- FREE VALUE (log 7, R96). Core cycles that one step of the model takes. -/
opaque stepCycles (nonce : Nat) : Nat

/-- FREE VALUE (log 7, R438). Nanoseconds of the disciplined clock that one step of the model takes. -/
opaque stepNanos (nonce : Nat) : Nat

/-- FREE VALUE (log 4, R257). The set of a governed cache in which a line lies: the manual gives the number of
sets and not the index function. It is used modulo the number of sets. -/
opaque cacheSet (level line : Nat) : Nat

/-- FREE VALUE (log 4). Which of a die's 64 page-table walkers serves the walks of a page of 64 KiB (R421, log 10). -/
opaque walker (page : Nat) : Nat

/-- FREE VALUE (log 4, R451). Whether an image's SLH-DSA signature verifies under the carried public key. -/
opaque signatureVerifies (image key signature : List Nat) : Bool

/-- FREE VALUE (log 4, R452). The signature of an SPDM response under the module's key, which no interface reads out. -/
opaque spdmSignature (nonce : Nat) (message : List Nat) : List Nat

/-- FREE VALUE (log 4, R453). Whether a signed configuration table keeps the limits of R453: the manual gives no format. -/
opaque tableOk (table : List Nat) : Bool

/-- FREE VALUE (log 4, R400, R453). The threshold that a configuration table sets for a structure code. -/
opaque tableThreshold (table : List Nat) (code : Nat) : Option Nat

/-- FREE VALUE (log 4, R473). Whether the host has read the entry of a trace ring that the next one overwrites. -/
opaque entryRead (nonce : Nat) : Bool

/-- FREE VALUE (log 4, R86, R431). Address of a record of a cluster's handler pool, in pinned memory that the front end
manages outside every launch's address space. -/
opaque poolRecord (pkg index : Nat) : Word

/-- FREE VALUE (log 4, R442). Physical address of the save area that the front end allocates for a pre-emption. -/
opaque saveArea (nonce : Nat) : Nat

/-- What an implementation fixes (R451): the four key digests fused into the I/O die, whether each is revoked, and the
least security version. -/
opaque fusedDigest (i : Nat) : BitVec 256
opaque fusedRevoked (i : Nat) : Bool
opaque fusedVersion : Nat

/-- Scratchpad bytes of one core (R215). -/
def scratchBytes : Nat := 0x40000

/-- Clusters of a module (R2). -/
def clusters : Nat := 768

/-- Devices that a load-store domain may hold (R467). -/
def devices : Nat := 576

end Sys2Proof.Config
end

