-- ==== Sys2Proof/Machine/Store.lean ====
section
/-! DEFINITION. Sparse storage: a list of (key, value) pairs, keys strictly rising. `set` writes a key; `put`
writes a key of a store that has a default, and keeps the list free of the default, so that equal contents are
equal lists. -/

namespace Sys2Proof.Machine

/-- A sparse store (keys strictly rising in every store that the machine makes). -/
abbrev Store (α : Type) := List (Nat × α)

/-- The value at key `k`, if listed. -/
def Store.find? {α : Type} (m : Store α) (k : Nat) : Option α :=
  match m with
  | [] => none
  | (j, v) :: t => if k = j then some v else Store.find? t k

/-- The value at key `k`, or `d` for an unlisted key. -/
def Store.get {α : Type} (d : α) (m : Store α) (k : Nat) : α := (Store.find? m k).getD d

/-- Write `v` at key `k`. -/
def Store.set {α : Type} (m : Store α) (k : Nat) (v : α) : Store α :=
  match m with
  | [] => [(k, v)]
  | (j, w) :: t => if k = j then (k, v) :: t else if k < j then (k, v) :: (j, w) :: t else (j, w) :: Store.set t k v

/-- Remove key `k`. -/
def Store.erase {α : Type} (m : Store α) (k : Nat) : Store α :=
  match m with
  | [] => []
  | (j, v) :: t => if k = j then Store.erase t k else (j, v) :: Store.erase t k

/-- Write `v` at key `k` of a store whose unlisted keys read as `d`: writing `d` removes the entry. -/
def Store.put {α : Type} [DecidableEq α] (d : α) (m : Store α) (k : Nat) (v : α) : Store α :=
  if v = d then Store.erase m k else Store.set m k v

/-- Keys strictly rising from a bound, and no entry equal to the default `d`. -/
def Store.wfFrom {α : Type} [DecidableEq α] (d : α) (lo : Nat) : Store α → Bool
  | [] => true
  | (k, v) :: t => decide (lo ≤ k) && decide (v ≠ d) && Store.wfFrom d (k + 1) t

/-- The canonical form of a store whose unlisted keys read as `d`. -/
def Store.wf {α : Type} [DecidableEq α] (d : α) (m : Store α) : Bool := Store.wfFrom d 0 m

end Sys2Proof.Machine
end

