-- ==== Sys2Proof/Machine/Types.lean ====
section
/-! DEFINITION. The pieces of the machine's state: what a task slot holds (R93 to R106), records (R60), memory
locations, words of an L1 (R385), and the messages in flight between a core and the homes (R101, R386 to R391). -/

namespace Sys2Proof.Machine

/-- The head of a continuation record (R60). -/
structure Head where
  pc       : Word := 0
  live     : Word := 0
  flags    : BitVec 32 := 0
  team     : BitVec 32 := 0
  key      : Word := 0
  tail     : Word := 0
  scratch  : BitVec 32 := 0
  dom      : BitVec 32 := 0
  wakeAddr : Word := 0
  parent   : Word := 0
  deriving DecidableEq, Repr

/-- A task's record: its launch, its address, and its index in a cluster's handler pool when it lies there (R86,
R431). Pool records lie outside every launch's address space, so no task reaches their bytes. -/
structure RecId where
  launch : Nat
  addr   : Word
  pool   : Option (Nat × Nat) := none
  deriving DecidableEq, Repr

/-- A vector register: its 4096 bits, and its eight 16-bit block descriptors, block b at bits 16b (R93). -/
structure VReg where
  lanes : VBits := 0
  desc  : BitVec 128 := 0
  deriving DecidableEq, Repr

/-- What a task slot is doing. -/
inductive RunState where
  /-- Released: no task (R66). -/
  | idle
  /-- A task runs. -/
  | running
  /-- Held by a fatal continuation-store fault or an arrival that cannot be made (R92, R82). -/
  | held
  /-- Held for an engine fault until firmware resolves it (R423). -/
  | engineHeld
  /-- Held for the debugger (R112). -/
  | debugHeld
  deriving DecidableEq, Repr

/-- One of the three hardware loop levels (R98, R106, R140). -/
structure Level where
  act    : Bool := false
  cap    : Bool := false
  rot    : Bool := false
  tick   : Bool := false
  start  : Word := 0
  stop   : Word := 0
  /-- Captured instructions: address, and the fetch line from which it issued (R106, log 13). -/
  body   : Store Nat := []
  deriving DecidableEq, Repr

/-- The outstanding-operation counters (R101), 6 bits each. -/
structure Counters where
  ld  : BitVec 6 := 0
  st  : BitVec 6 := 0
  rpe : BitVec 6 := 0
  rdi : BitVec 6 := 0
  rpk : BitVec 6 := 0
  rfa : BitVec 6 := 0
  cp  : BitVec 6 := 0
  tl  : BitVec 6 := 0
  deriving DecidableEq, Repr

/-- Names of the counters (R101). -/
inductive Ctr where
  | ld | st | rpe | rdi | rpk | rfa | cp | tl
  deriving DecidableEq, Repr

/-- The current region (R67 to R70). -/
structure Region where
  pc     : Word := 0
  gin    : Word := 0
  lcin   : BitVec 3 := 0
  /-- Values of the inputs, ascending g then lc. -/
  vals   : List Word := []
  pred   : BitVec 8 := 1
  /-- The entry names an `rgn` (R71). -/
  isRgn  : Bool := false
  sealed : Bool := false
  /-- Number of this instance of a region (R441). -/
  inst   : Nat := 0
  deriving DecidableEq, Repr

/-- The control registers that the slot itself holds (R96, R97). -/
structure Csrs where
  tvec   : Word := 0
  tcause : Word := 0
  tval   : Word := 0
  tepc   : Word := 0
  nud    : BitVec 8 := 0
  ins    : Word := 0
  fflags : BitVec 5 := 0
  frm    : BitVec 2 := 0
  vrb    : BitVec 5 := 0
  deriving DecidableEq, Repr

/-- A write that a completing operation makes to the registers of its slot. -/
inductive RegWrite where
  | g (n : Nat) (x : Word)
  | p (n : Nat) (b : Bool)
  | v (n : Nat) (x : VReg)
  | m (n : Nat) (x : BitVec 1024)
  | flags (f : BitVec 5)
  deriving DecidableEq, Repr

/-- A hold on the later memory instructions of a slot (R117, R223), or on a pair of paths (R239). -/
inductive Hold where
  | fence | fenceRel | fenceAcq | acqLoad
  | xf (c1 c2 : Path)
  deriving DecidableEq, Repr

/-- What a spinning instruction waits for: a wake kind and address (R61, R228, R279, R289); the port of a full/empty form,
whose window was open when it issued (R216). -/
structure Spin where
  kind : Nat
  addr : Word
  port : Option (Nat × Nat) := none
  deriving DecidableEq, Repr

/-- A report that waits for the next instruction of a slot: a deferred machine check (R111). -/
structure Deferred where
  tval : Word
  /-- The engine instruction's or load's address, for the continuation report. -/
  addr : Word
  deriving DecidableEq, Repr

/-- A panel in the weight buffer (R200). -/
structure Panel where
  /-- 64 columns of 64 bytes each (40 of a compressed panel), column j at byte 64 j. -/
  data  : Store Byte := []
  desc  : Store (BitVec 16) := []
  sp    : Bool := false
  deriving DecidableEq, Repr

/-- A memory location: a byte of global memory by physical address (R407), or of a core's scratchpad (R215). -/
inductive Loc where
  | glob (pa : Nat)
  | scr (core off : Nat)
  deriving DecidableEq, Repr

/-- Bytes of one block, with its descriptor, that an engine path of a slot has fetched before the access that uses them
(R213, R224, R240). -/
structure Ahead where
  path  : Path
  loc   : Loc
  bytes : List Byte
  desc  : BitVec 16
  deriving DecidableEq, Repr

/-- A matrix or port instruction that was accepted and waits (R102, R103), with what it took at its acceptance: the g
values it named, its rounding mode, the physical registers it writes, the blocks it accesses with their descriptors
(R203), the register contents it writes or takes (the dependants of a `qcross`, the image of a `pcol`), whether it found its accumulator owned (R207). -/
structure Accepted where
  i   : Instr
  pc  : Word := 0
  a   : Word := 0
  b   : Word := 0
  c   : Word := 0
  d   : Word := 0
  frm : BitVec 2 := 0
  dst : List Nat := []
  blocks : List (Loc × BitVec 16) := []
  regs : List VBits := []
  owned : Bool := true
  deriving DecidableEq, Repr

/-- State of a word in an L1 (R385); an invalid word is not listed. -/
inductive L1State where
  | valid | owned | update
  deriving DecidableEq, Repr

/-- A 32-bit word in an L1 or fused L1 (R385, R386). -/
structure L1Word where
  st   : L1State
  data : BitVec 32
  /-- Bytes of the word that the cache holds: all four, but for a store that waits for its registration. -/
  mask : BitVec 4 := 15
  /-- The ownership registration has been acknowledged (R386). -/
  reg  : Bool := true
  deriving DecidableEq, Repr

/-- One element of a load: its location, its bytes, and where it goes (lane, or block, or 0 for a scalar). -/
structure Part where
  loc  : Loc
  n    : Nat
  lane : Nat
  deriving DecidableEq, Repr

/-- What an answered part brought: its value, the block's descriptor, whether the block was poisoned. -/
structure Answer where
  lane   : Nat
  x      : Nat
  desc   : BitVec 16
  poison : Bool
  origin : Word
  deriving DecidableEq, Repr

/-- The destination of a load. -/
inductive LoadDest where
  /-- A scalar, extended by its type (R222). -/
  | g (n : Nat) (ty : Ty)
  /-- A block descriptor (R236). -/
  | desc (n : Nat)
  /-- Whole blocks of a vector register; active lanes at a lane type (R225). -/
  | vblocks (n : Nat) (ty : Ty) (mask : LaneMask) (bits : BitVec 1024)
  /-- Lanes of a vector register (R226). -/
  | vlanes (n : Nat) (ty : Ty)
  deriving DecidableEq, Repr

/-- A load in flight (R101, R387). -/
structure LoadOp where
  sid   : Nat
  pc    : Word
  va    : Word
  dest  : LoadDest
  parts : List Part
  /-- Parts not answered yet, and the answers. -/
  todo  : List Nat
  got   : List Answer := []
  acq   : Bool := false
  ro    : Bool := false
  /-- The cache has self-invalidated since the load was issued: the words that arrive are not installed (R401). -/
  bare  : Bool := false
  /-- Lines that their home slice did not hold when the load was issued: their data comes from a Dahlia die (R399). -/
  far   : List Nat := []
  deriving DecidableEq, Repr

/-- A piece of a store: consecutive bytes, and the descriptor of the block when the block is written whole or the
descriptor alone is written (R158, R225, R236). -/
structure Piece where
  loc   : Loc
  bytes : List Byte
  desc  : Option (BitVec 16) := none
  deriving DecidableEq, Repr

/-- The bytes that a piece covers: its own, or the block whose descriptor it writes (R158, R236). -/
def Piece.span (p : Piece) : Nat := if p.desc.isSome then 64 else p.bytes.length

/-- A store in flight: its pieces are registered at their homes, then it is acknowledged (R386); a release store waits
(R223, R388). The counter is `none` when the task that issued it has left the slot. -/
structure StoreOp where
  sid    : Nat
  ctr    : Option Ctr
  pieces : List Piece
  rel    : Bool := false
  /-- Pieces whose bytes are written when they reach their home; the others stand in the core's L1 already. -/
  late   : List Nat := []
  /-- Pieces that their homes have not applied yet. -/
  todo   : List Nat
  deriving DecidableEq, Repr

/-- An atomic in flight (R231 to R235). `live`: its task is still in the slot. -/
structure AtomOp where
  sid  : Nat
  pc   : Word
  op   : AmoOp
  ty   : Ty
  dest : Nat
  loc  : Loc
  s    : Nat
  cmp  : Nat
  acq  : Bool
  rel  : Bool
  va   : Word := 0
  live : Bool := true
  /-- When it issued, its home slice did not hold the line (R399). -/
  far  : Bool := false
  deriving DecidableEq, Repr

/-- A reduction in flight (R234, R390). -/
structure RedMsg where
  sid : Nat
  ctr : Option Ctr
  op  : RedOp
  ty  : Ty
  loc : Loc
  x   : Nat
  rel : Bool
  deriving DecidableEq, Repr

/-- An exact-cell arrival or conversion in flight (R235, R164, R165). -/
structure CellMsg where
  sid  : Nat
  ctr  : Option Ctr
  loc  : Loc
  /-- The arrival (m, e), or the destination register of a conversion. -/
  arg  : (BitVec 64 × BitVec 16) ⊕ Nat
  rel  : Bool
  va   : Word := 0
  far  : Bool := false
  deriving DecidableEq, Repr

/-- A spawned record, or a message with its template and payload, on its way to a cluster (R83, R86). -/
structure Placement where
  /-- The slot whose order it keeps (R88). -/
  sid     : Nat
  launch  : Nat
  /-- Target value (R85). -/
  target  : Nat
  record  : Word
  timed   : Bool
  /-- The sender is not timestamped, so a timestamped record can be late (R330). -/
  seeded  : Bool := true
  /-- Key of a timestamped record, counted by the horizon (R328). -/
  key     : Nat × Nat × Nat := (0, 0, 0)
  message : Option (Head × List Word)
  /-- A join cell is named, and its address; the parent of the record is 0 when none is (R83). -/
  cell    : Bool := false
  join    : Word
  /-- The join cell has been incremented (R77). -/
  counted : Bool := false
  deriving DecidableEq, Repr

/-- An element that a scatter or a compaction has read (R412): its address or element number, its bits, the descriptor
of its block when that is poisoned. -/
structure Item where
  at_    : Int
  x      : Nat
  poison : Option (BitVec 16)
  deriving DecidableEq, Repr

/-- A command of the copy engine (R242, R410), with the register values as issued. -/
structure Copy where
  sid    : Nat
  rid    : RecId
  /-- Its task is still in the slot: it counts on `cp`. -/
  live   : Bool := true
  i      : Instr
  pc     : Word
  a      : Word
  b      : Word
  c      : Word
  d      : Word
  dom    : Nat
  /-- Region instance that issued it (R441). -/
  inst   : Nat
  /-- The engine has begun it (R102). -/
  begun  : Bool := false
  /-- Bytes completed. -/
  done   : Nat := 0
  /-- Locations of the ends, for windows: resolved at acceptance (R243, R215). -/
  dst    : Option (Nat × Nat) := none
  src    : Option (Nat × Nat) := none
  bar    : Option (Nat × Nat) := none
  idx    : Option (Nat × Nat) := none
  /-- It stands in the range scoreboard (R241). -/
  scored : Bool := false
  /-- What `sct` and `cmpx` have read, once they have (R412). -/
  data   : Option (List Item) := none
  /-- Destination blocks that it has marked poisoned: block number of the address, and the lowest byte that came from a
  poisoned block (R157). -/
  marks  : List (Nat × Nat) := []
  /-- The continuation of its task re-runs the region instance that issued it (R441). -/
  rerun  : Bool := false
  /-- Re-issued by a resumption: it counts on `cp` of the slot that first dispatches its task (R443). -/
  adopt  : Bool := false
  /-- The virtual address at which it stopped, and whether for a write (R423). -/
  fault  : Option (Word × Bool) := none
  deriving DecidableEq, Repr

/-- A tile stream (R415, R416). -/
structure Stream where
  rid    : RecId
  sid    : Nat
  /-- Address of its `tsub` (R423). -/
  pc     : Word := 0
  /-- A store stream. -/
  out    : Bool
  base   : Word
  rowbytes : Nat
  rows   : Nat
  rowstride : Word
  tilestride : Word
  count  : Nat
  slots  : Nat
  nu     : Nat
  dom    : Nat
  /-- Scratchpad byte of the ring: core and offset. -/
  core   : Nat
  ring   : Nat
  /-- Tile transfers to be done, oldest first: tile and whether a `trel` counts on it. -/
  todo   : List (Nat × Bool) := []
  /-- The virtual address at which it stopped, and whether for a write (R423). -/
  fault  : Option (Word × Bool) := none
  deriving DecidableEq, Repr

/-- A Larkspur variable (R290, R291). -/
structure Var where
  q     : Word := 0
  x     : Word := 0
  d1    : Word := 0
  d2    : Word := 0
  tx    : Word := 0
  tn    : Word := 0xFFFFFFFFFFFFFFFF
  dq    : BitVec 32 := 0
  dtmin : BitVec 32 := 0
  fn    : BitVec 16 := 0
  mf    : BitVec 16 := 0
  dep   : BitVec 32 := 0
  /-- The crossing that this state yields has been released (R301). -/
  rel   : Bool := false
  /-- Poisoned by a soft error (R397). -/
  poison : Bool := false
  deriving DecidableEq, Repr

/-- An uncommitted version of a variable (R304): its key and the Aster entry that wrote it. -/
structure Version where
  var   : Nat
  key   : Key
  owner : Nat
  val   : Var
  deriving DecidableEq, Repr

/-- What a timestamped task is to Larkspur (R299). -/
inductive Event where
  | other
  /-- The crossing of a variable, yielded by the committed record or by the version of an entry. -/
  | crossing (var : Nat) (of : Option Nat)
  /-- A re-evaluation of a variable: requesting entries, and requests that cannot be withdrawn (R302, R303). -/
  | reeval (var : Nat) (by_ : List Nat) (firm : Nat)
  deriving DecidableEq, Repr

/-- An event that waits for a record of the handler pool (R300), or for an entry (R324). -/
structure PendingEvent where
  key : Nat × Nat × Nat
  ev  : Event
  deriving DecidableEq, Repr

/-- Where a timestamped task is (R65, R324). -/
inductive EntryState where
  | ready | running | suspended | done | aborted | spilled | committing
  deriving DecidableEq, Repr

/-- A 64-byte block of a commit buffer (R325): the bytes written, and the descriptor if one was set. -/
structure BufBlock where
  bytes : Store Byte := []
  desc  : Option (BitVec 16) := none
  /-- Domain and next-use code of the latest store (R247). -/
  dom   : Nat := 0
  nu    : Nat := 0
  deriving DecidableEq, Repr

/-- A block as a speculative task first read it (R326). -/
structure ReadBlock where
  bytes : Store Byte := []
  desc  : BitVec 16 := 0
  deriving DecidableEq, Repr

/-- An Aster entry (R324): one timestamped task accepted and not yet committed. -/
structure Entry where
  /-- Serial number: the order of arrival at this Aster. -/
  id     : Nat
  rid    : RecId
  /-- The original continuation. -/
  head   : Head
  vals   : List Word
  st     : EntryState
  /-- It became irrevocable (R336). -/
  firm   : Bool := false
  /-- It arrived late (R330). -/
  late   : Bool := false
  buf    : Store BufBlock := []
  reads  : Store ReadBlock := []
  /-- Variables read through `qget`, with the version read: none for the committed record (R304). -/
  qreads : List (Nat × Option Nat) := []
  /-- Held children and messages (R83), and event messages (variable id, time) (R303). -/
  held   : List Placement := []
  events : List (Nat × Nat) := []
  ev     : Event := .other
  restarts : Nat := 0
  /-- `abrt`: the restart waits for a lower commit or for the horizon (R339). -/
  pause  : Bool := false
  /-- Requested withdrawal: not restarted (R301). -/
  gone   : Bool := false
  deriving DecidableEq, Repr

/-- Aster's counters 1 to 5 (R340). -/
structure AsterStat where
  commits   : Word := 0
  conflicts : Word := 0
  others    : Word := 0
  promoted  : Word := 0
  waits     : Word := 0
  deriving DecidableEq, Repr

/-- Larkspur of a cluster (R290 to R318). -/
structure Lark where
  /-- Tick length; none until `qbase` has run since the grant (R309). -/
  h      : Option Word := none
  table  : Word := 0
  tmpl   : Word := 0
  /-- P, E, rows and entries (R297). -/
  deps   : Option (Word × Word × Nat × Nat) := none
  /-- 0 stopped, 1 running, 2 stopping, 3 halted (R318). -/
  run    : Nat := 0
  halt   : Nat := 0
  launch : Nat := 0
  end_   : Word := 0
  window : Word := 0
  /-- The run's join cell; it has arrived there (R317, R300). -/
  join   : Option Word := none
  arrived : Bool := true
  vars   : Store Var := []
  versions : List Version := []
  pending  : List PendingEvent := []
  stat   : Store Word := []
  deriving DecidableEq, Repr

end Sys2Proof.Machine
end

