-- ==== Sys2Proof/Machine/State.lean ====
section
/-! DEFINITION. The machine's state, its reset, and the reasons for which a step can stop. The state is plain data.
Slots, cores and clusters are sparse stores keyed by number: slot number `sid = (pkg * 8 + core) * 2 + slot`, core
number `pkg * 8 + core`, cluster number `pkg` (R2, R96). -/

namespace Sys2Proof.Machine

/-- A task slot (R93 to R106). -/
structure Slot where
  run      : RunState := .idle
  /-- The running task's launch (0 for none) and record (R59); its address is the register `tid`. -/
  rid      : RecId := ⟨0, 0, none⟩
  /-- The record's head as loaded, with the fields that the running state changes (team, scratch, parent). -/
  head     : Head := {}
  pc       : Word := 0
  g        : Store Word := []
  p        : BitVec 8 := 1
  lc       : Store Word := []
  /-- Vector registers written since the task started; the others are dead (R63). -/
  v        : Store VReg := []
  /-- Masks written since the task started; the others are dead (R63). -/
  m        : Store (BitVec 1024) := []
  /-- Elements of a0 and a1: key a * 4096 + 64 i + j (R198). -/
  acc      : Store (BitVec 32) := []
  /-- Ownership bits (R199). -/
  own      : BitVec 2 := 0
  /-- The panel table and weight buffer, by first unit (R200). -/
  panels   : Store Panel := []
  /-- Free values of dead registers are drawn for this start of a task (R63). -/
  epoch    : Nat := 0
  csr      : Csrs := {}
  tkey     : Word := 0
  /-- Loop state (R98, R140). -/
  loops    : Store Level := []
  /-- Active levels, most recently opened first (R140). -/
  order    : List Nat := []
  /-- Loop state saved by a trap (R107): the levels and the rotation base. -/
  shLoops  : Store Level := []
  shOrder  : List Nat := []
  shVrb    : BitVec 5 := 0
  cnt      : Counters := {}
  region   : Region := {}
  /-- Deferred machine checks, in the order in which they were recorded (R111, log 66). -/
  deferred : List Deferred := []
  holds    : List Hold := []
  /-- Engine queues: results of accepted vector instructions, accepted matrix and port instructions (R102). -/
  vq       : List (List RegWrite) := []
  mq       : List Accepted := []
  pq       : List Accepted := []
  spin     : Option Spin := none
  /-- The other member of the spinning instruction's packet has issued: where the slot continues (R228). -/
  after    : Option Word := none
  /-- The wait of R228 has lasted 256 cycles. -/
  expired  : Bool := false
  /-- Corrupted copies of instruction lines: line address to 512 bits (R49). -/
  icopy    : Store (BitVec 512) := []
  /-- The debug interface has armed the slot (R112). -/
  armed    : Bool := false
  /-- A pre-emption request that the slot has not yet met (R71). -/
  preReq   : Bool := false
  /-- The task resumed at a region entry that the slot has not yet checked (R73). -/
  rcheck   : Bool := false
  /-- Virtual address of an engine fault that the slot must meet (R423). -/
  engFault : Option Word := none
  /-- Poisoned masks (R397). -/
  mPoison  : BitVec 8 := 0
  /-- The debugger lets the instruction at the breakpoint issue (R380). -/
  pass     : Bool := false
  /-- The instruction waits for irrevocability and has been counted by `astat` (R340). -/
  counted  : Bool := false
  /-- What the engine paths and the read-only path have fetched ahead, newest first (R213, R224, R240). -/
  ahead    : List Ahead := []
  /-- When the slot became free: of a core's two slots the earlier is filled first, slot 0 on a tie (R282). -/
  freed    : Nat := 0
  deriving DecidableEq, Repr

/-- An entry of a TLB: launch, page base, page size in bits, the leaf entry (R421). -/
structure TlbEntry where
  launch : Nat
  base   : Nat
  bits   : Nat
  leaf   : Nat
  deriving DecidableEq, Repr

/-- A core: what its two slots share beside the memory structures. -/
structure Core where
  /-- The slot that issued last (R104). -/
  last : Nat := 0
  tlb  : List TlbEntry := []
  deriving DecidableEq, Repr

/-- A team (R268). -/
structure Team where
  id      : Nat
  members : BitVec 64 := 0
  faulted : BitVec 64 := 0
  /-- Leads, by member slot (R273). -/
  lead    : Store Nat := []
  phase   : BitVec 32 := 0
  /-- Records of the members, by member slot. -/
  recs    : Store RecId := []
  deriving DecidableEq, Repr

/-- An entry of a ready list (R281): the record, its place, its wait. -/
structure Ready where
  rid    : RecId
  level  : Nat
  timed  : Bool
  /-- Order of timestamped tasks: (key, phase, idx). -/
  key    : Nat × Nat × Nat
  /-- The core the task is bound to, with its allocation. -/
  bound  : Option Nat
  /-- The task is to receive an allocation when dispatched (R87). -/
  fresh  : Bool
  /-- Entry number: first in, first out; and the number at which it entered its level (R283). -/
  seq    : Nat
  since  : Nat
  /-- The task resumes from a continuation and keeps its team word (R269). -/
  resumed : Bool
  deriving DecidableEq, Repr

/-- A registered waiter: its record, its launch, the wake kind and the place (R61, R229, R76, R273, R287). -/
structure Waiter where
  rid    : RecId
  pkg    : Nat
  kind   : Nat
  /-- Word of a scratchpad, physical address of a cell, team id, queue number, or virtual address. -/
  key    : Nat
  deriving DecidableEq, Repr

/-- A scratch allocation: its holder, core in the module, base in 4 KiB units, size in KiB (R216). -/
structure Alloc where
  rid  : RecId
  core : Nat
  base : Nat
  size : Nat
  deriving DecidableEq, Repr

/-- What the firmware is told: a fatal continuation-store fault (R92), an arrival that cannot be made (R82), an
engine fault (R423), a malformed table entry (R420), an error threshold (R400), a discarded register write (R427). -/
inductive Report where
  | contFault (rid : RecId) (sid : Nat)
  | finFault (rid : RecId) (sid : Nat) (cell : Word)
  | engineFault (rid : RecId) (va : Word)
  | malformed (launch : Nat) (va : Word)
  | errorCount (code unit : Nat)
  | discarded (off : Nat)
  /-- A faulted task: record, cause, detail, `tcause` as it was, the address that `tepc` names (log 62), and the address of
  R111 or R221 (R107). -/
  | faulted (rid : RecId) (cause : Nat) (tval tcause tepc addr : Word)
  /-- The team table or a queue of a cluster granted to the launch has met an uncorrectable error (R397). -/
  | tables (launch pkg : Nat)
  /-- A refused spawn on another module (R85). -/
  | refused (launch device : Nat)
  deriving DecidableEq, Repr

/-- A used column of a Phlox array (R344): its cells, row n in bits 2n+1:2n. -/
structure PCol where
  cells : BitVec 1024 := 0
  fmt   : Bool := false
  deriving DecidableEq, Repr

/-- An assigned row of a Phlox array (R345). -/
structure PRow where
  val    : Bool
  level  : Nat
  reason : Nat
  nr     : Bool
  tpos   : Nat
  deriving DecidableEq, Repr

/-- The Phlox array of a cluster (R344 to R347, R367). -/
structure Phlox where
  /-- Used columns. -/
  cols   : Store PCol := []
  /-- Assigned rows. -/
  rows   : Store PRow := []
  /-- Rows of the trail, by position. -/
  trail  : List Nat := []
  level  : Nat := 0
  /-- Conflict record: column, count, level (R355). -/
  conf   : Option (Nat × Nat × Nat) := none
  fmt    : Bool := false
  /-- Counters 1 to 5 of `pstat` (R364). -/
  stat   : Store Word := []
  poison : Bool := false
  deriving DecidableEq, Repr

/-- A cluster. -/
structure Cluster where
  /-- Launch to which it is granted; 0 for none (R265). -/
  launch  : Nat := 0
  fused   : Bool := false
  teams   : List Team := []
  ready   : List Ready := []
  /-- Which sub-list was taken last, by list (0 the cluster's, k + 1 core k's) * 8 + level; true: timestamped (R282). -/
  took    : Store Bool := []
  /-- Work queues granted (bit q), and their entries (R285). -/
  queues  : BitVec 4 := 0
  fifo    : Store (List Word) := []
  /-- Handler pool: records in use, by index, as their head and live block (R86); and its size (R430). -/
  pool    : Store (Head × List Word) := []
  poolSize : Nat := 0
  /-- Records of the pool that an error has poisoned (R397, R398). -/
  poolBad : List Nat := []
  /-- Entry number of the next ready entry. -/
  seq     : Nat := 0
  tlb     : List TlbEntry := []
  /-- Aster: its entries, the serial number of the next, its counters (R324, R340). -/
  entries : List Entry := []
  serial  : Nat := 0
  aster   : AsterStat := {}
  /-- H and L as last received (R328, R329); `none` is all ones. -/
  hh      : Option Key := none
  ll      : Option Key := none
  lark    : Lark := {}
  phlox   : Phlox := {}
  /-- The debugger's commit stop (R371): commits of the kind named that may still pass, and whether only Larkspur's
  events are named. -/
  commitStop : Option Nat := none
  stopLark : Bool := false
  deriving DecidableEq, Repr

/-- A scratch allocation as saved (R442): grant index, core, the allocation, its bytes, full tags and descriptors. -/
structure SavedAlloc where
  grant : Nat
  alloc : Alloc
  bytes : Store Byte
  tags  : Store Bool
  descs : Store (BitVec 16)
  deriving DecidableEq, Repr

/-- The save area of a pre-empted launch (R442): where it lies and what it holds. -/
structure Saved where
  addr     : Nat
  clusters : List Cluster
  waiters  : List (Nat × Waiter)
  allocs   : List SavedAlloc
  copies   : List (Nat × Copy)
  streams  : List (Nat × Stream)
  /-- Records of the tasks that were pre-empted in a slot, in order, by grant index. -/
  tasks    : List (Nat × RecId)
  /-- Records and messages that still waited for their place on a cluster of the grant. -/
  mail     : List (Nat × Placement)
  deriving DecidableEq, Repr

/-- A gang that waits for placement (R432, R434): its entry, the area of its members' records, the grant index of the
cluster it names. -/
structure Gang where
  pc      : Word
  area    : Word
  grant   : Option Nat
  members : Nat
  prio    : Nat
  scr     : Nat
  dom     : Nat
  deriving DecidableEq, Repr

/-- Where a launch is (R431, R436, R440). -/
inductive LaunchState where
  /-- Read, and waits for its turn, its `after` or its resources. -/
  | waiting
  /-- Granted; its seeds are being dispatched. -/
  | dispatching
  /-- Every seed has been taken. -/
  | running
  | preempting
  | preempted
  /-- A resume command waits for a grant. -/
  | resuming
  | ended
  deriving DecidableEq, Repr

/-- Who made a launch: a command queue, or an entry of the time-triggered table. -/
inductive Origin where
  | queue (q : Nat)
  | table (e : Nat)
  | none
  deriving DecidableEq, Repr

/-- A launch on the device (R430 to R443). -/
structure Launch where
  id    : Nat
  root  : Nat := 0
  tvec  : Word := 0
  /-- Reuse domains granted, beside domain 0 (R248). -/
  domains : List Nat := []
  st      : LaunchState := .waiting
  origin  : Origin := .none
  fused   : Bool := false
  /-- Clusters asked for, and granted in grant order (R431). -/
  want    : Nat := 0
  grant   : List Nat := []
  after   : Nat := 0
  wantDom : Nat := 0
  queues  : BitVec 4 := 0
  pool    : Nat := 0
  rootCell : Word := 0
  seedTab : Word := 0
  seeds   : Nat := 0
  complete : Nat := 0
  /-- Index of the next seed, and tasks placed (R433, R429). -/
  next    : Nat := 0
  /-- A timestamped seed that the front end has sent and Aster has not accepted: its cluster and key (R328). -/
  sent    : Option (Nat × Nat × Nat × Nat) := none
  placed  : Nat := 0
  /-- Tasks left faulted. -/
  faulted : Nat := 0
  /-- Its queue was destroyed during its dispatch (R437). -/
  destroyed : Bool := false
  /-- Order in which launch commands were taken. -/
  seq     : Nat := 0
  /-- Physical address of the root join cell, once it begins. -/
  rootPa  : Nat := 0
  /-- The front end has taken its last seed and made its own arrival (R433, R437). -/
  closed  : Bool := false
  primary : List Gang := []
  backfill : List Gang := []
  /-- Grant index of the cluster that the primary head has reserved (R435). -/
  reserved : Option Nat := none
  /-- Completion address and status of the pre-emption in progress (R440, R439). -/
  preDone : Option (Nat × Nat × Origin) := none
  saved   : Option Saved := none
  /-- Tasks stopped in their slots by the pre-emption in progress, with their grant index (R440, R443). -/
  stopped : List (Nat × RecId) := []
  /-- Copies that the quiesce of the pre-emption in progress has recorded, with their grant index (R441). -/
  recorded : List (Nat × Copy) := []
  /-- Completion address and queue of the resume command (R443). -/
  resume  : Option (Nat × Origin) := none
  /-- Flush commands that wait for its end (R437). -/
  flushes : List (Nat × Nat) := []
  /-- Engine faults resolved while it was pre-empted (R443). -/
  resolved : List RecId := []
  deriving DecidableEq, Repr

/-- A command queue (R425). -/
structure Queue where
  base     : Nat := 0
  state    : Nat := 0
  vmaj     : Nat := 1
  vmin     : Nat := 0
  lsz      : Nat := 0
  producer : BitVec 32 := 0
  consumer : BitVec 32 := 0
  error    : BitVec 32 := 0
  deriving DecidableEq, Repr

/-- An entry of the time-triggered table (R438). -/
structure TtEntry where
  period   : Word := 0
  offset   : Word := 0
  template : Word := 0
  rule     : BitVec 8 := 0
  enable   : Bool := false
  overruns : BitVec 32 := 0
  /-- The next firing k, the launch id of the previous instance, and a firing that waits (R439). -/
  k        : Nat := 0
  last     : Nat := 0
  waiting  : Option Nat := none
  deriving DecidableEq, Repr

/-- An entry of a trace ring (R472). -/
structure TraceEntry where
  pa  : Nat
  src : BitVec 32
  seq : BitVec 32
  cyc : Word
  data : Word
  deriving DecidableEq, Repr

/-- A Rhojo Link port (R463 to R473). -/
structure Port where
  up      : Bool := true
  lanes   : Nat := 4
  retraining : Bool := false
  /-- Sequence of the last flit received intact (R465), and of the last one sent. -/
  rx      : BitVec 16 := 0
  tx      : BitVec 16 := 0
  /-- A flit failed its check, and flits are discarded until the replay. -/
  waitReplay : Bool := false
  /-- Failed replays in a row. -/
  failed  : Nat := 0
  /-- Sequences sent and not acknowledged, oldest first, with the message that each carries (R465). -/
  replay  : List (BitVec 16 × Nat) := []
  /-- Messages that wait for a stop bit to clear, or for the lanes (R464, R465). -/
  unsent  : List Nat := []
  /-- Free-entry accounting of the four receive buffers: flits held (R464), and the stop bits sent and received. -/
  held    : Store Nat := []
  stopOut : BitVec 4 := 0
  stopIn  : BitVec 4 := 0
  /-- Remote writes received and not yet handed over, in arrival order, with the channel whose buffer entry the last write
  of a flit frees (R470, R464). -/
  arrived : List (RemoteWrite × Option Nat) := []
  lo      : Word := 0
  hi      : Word := 0
  enable  : Bool := false
  freeze  : Bool := false
  head    : BitVec 32 := 0
  /-- Entries by index 0 to 4095. -/
  ring    : Store TraceEntry := []
  deriving DecidableEq, Repr

/-- Boot and management state (R450 to R458). -/
structure Boot where
  /-- 0 booting, 1 full, 2 minimal, 3 halted (R456). -/
  mode   : Nat := 0
  stage  : Nat := 0
  /-- Stage and reason of the last failure (R456). -/
  failStage : Nat := 0
  reason : Nat := 0
  /-- Interfaces down in this start, and at the last failure (R454, R456). -/
  down   : BitVec 5 := 0
  lastDown : BitVec 5 := 0
  /-- This start has failed: nothing more runs until a reset. -/
  failed : Bool := false
  /-- The stage's first source held no valid image, and the other is tried (R450). -/
  other  : Bool := false
  /-- Images that stage 2 has run (R452). -/
  images : Nat := 0
  /-- The signed configuration table: Crocus roles, firewall registers, thresholds, the coolant limit (R453, R457). -/
  table  : List Nat := []
  source : Nat := 0
  fails  : Nat := 0
  /-- Measurement registers and the log of every extension (R452). -/
  meas   : Store (BitVec 256) := []
  log    : List (Nat × BitVec 256) := []
  /-- Versions agreed, by interface (R454). -/
  agreed : Store (Nat × Nat) := []
  /-- The cap written, the cap in force, steps per die (R457, R458). -/
  cap    : Nat := 4800
  capNow : Nat := 4800
  steps  : Store Nat := []
  /-- SPDM responses sent, newest first, and secured sessions (R452). -/
  spdm   : List (List Nat) := []
  sessions : Nat := 0
  deriving DecidableEq, Repr

/-- What leaves the module for another: spawned records and messages, event messages (R85, R303). -/
inductive Packet where
  | place (p : Placement)
  | event (var t : Nat)
  /-- The answer to a remote load, with the descriptor of its block (R468). -/
  | data (pa : Nat) (bytes : List Byte) (desc : BitVec 16)
  /-- A spawn that this module refuses (R85): the launch, and the module that spawned. -/
  | refused (launch device : Nat)
  deriving DecidableEq, Repr

/-- A way of a set of a governed cache: its line and the metadata of R251. -/
structure Way where
  line : Nat
  dom  : Nat := 0
  due  : Nat := 0
  code : Nat := 0
  age  : Bool := false
  hit  : Bool := false
  /-- In the LLC: it holds data that HBM does not (R409). -/
  dirty : Bool := false
  deriving DecidableEq, Repr

/-- A reuse domain at its home (R248, R255, R260). -/
structure Domain where
  clock : BitVec 24 := 0
  honesty : BitVec 4 := 15
  judge : Int := 0
  indef : Nat := 2
  llc   : Nat := 24
  l2    : Nat := 16
  l1    : Nat := 8
  deriving DecidableEq, Repr

/-- A breakpoint (R380, R448): launch, address, whether it pre-empts, the slots of its condition (none: every slot). -/
structure Break where
  launch  : Nat
  pc      : Word
  preempt : Bool
  sids    : Option (List Nat)
  deriving DecidableEq, Repr

/-- A message between units, waiting for the event that performs it. -/
inductive Msg where
  | load (o : LoadOp)
  | store (o : StoreOp)
  | atom (o : AtomOp)
  | red (o : RedMsg)
  | cell (o : CellMsg)
  /-- An advance of a reuse clock (R249), posted by a slot. -/
  | clock (sid dom n : Nat)
  /-- A quota read or write (R260): slot, destination register, domain, quotas to write, and whether its task is still in
  the slot. -/
  | quota (sid dest dom : Nat) (w : Option Word) (live : Bool)
  /-- A report to a domain's home: an honest hit or a broken promise (R255). -/
  | honesty (dom : Nat) (up : Bool)
  /-- An arrival at a join cell, which waits as a release does (R79): slot, launch, physical address, amount. -/
  | arrive (sid pa n : Nat)
  /-- A spawned record or a message (R83, R86). -/
  | place (p : Placement)
  /-- A registration of the slot's task on a word or cell (R80): kind, key, wake address, the inputs of the `rgn` at
  which it resumes. -/
  | reg (sid kind key : Nat) (va : Word) (gin : Word) (lcin : BitVec 3)
  /-- A Larkspur event message to a cluster of this module (R303): the sending cluster, variable id, time. -/
  | event (src var t : Nat)
  /-- An abort on its way to an entry of a cluster's Aster (R335), on behalf of the entry that commits. -/
  | abort (pkg id : Nat) (by_ : Option (Nat × Nat))
  /-- A `qsnap` that waits for the horizon: its address, its variables, what it counts on the store counters (R307, R223). -/
  | snap (sid : Nat) (pc first n : Nat) (va : Word) (counts : List (Ctr × Nat))
  /-- An `enq` that waits for the slot's earlier writes (R287): queue, value, and the predicate that its result goes to
  while its task is in the slot. -/
  | queue (sid q : Nat) (x : Word) (dest : Option Nat)
  /-- The result of an operation of a cluster unit on its way back (R104, R286); with `acq` it acquires. -/
  | result (sid : Nat) (w : List RegWrite) (acq : Bool)
  /-- A `tleave` that waits for the slot's earlier writes (R272): the record, the team and the member slot. -/
  | leave (sid : Nat) (rid : RecId) (team m : Nat)
  deriving DecidableEq, Repr

/-- What happens in the module beside the instructions and events of the opcode table. -/
inductive Act where
  /-- The broadcast of a reuse domain reaches a cache (R249, R256, R260). -/
  | clockCopy (cache dom : Nat)
  /-- Marigold sets the quotas of domain 0 (R248). -/
  | homeQuota (w : Word)
  /-- Firmware reads and clears a counter of errors (R400). -/
  | readErrors (code unit : Nat) (uncorrected : Bool)
  /-- The acknowledgement of a record or event message from another module arrives: entry n of `unacked` (R328, R303). -/
  | accepted (n : Nat)
  /-- A path of a slot fetches bytes ahead (R213, R224, R240). -/
  | readAhead (sid : Nat) (path : Path) (l : Loc) (n : Nat)
  deriving DecidableEq, Repr

/-- Who moves next: a slot issues, an event happens, or something else does. `lag` lets the asynchronous parts of the step remain in
flight until their own events (log 3). -/
inductive Choice where
  | issue (sid : Nat) (lag : Bool)
  | event (e : Instr) (lag : Bool)
  | act (a : Act)
  deriving DecidableEq, Repr

/-- The whole module. -/
structure State where
  /-- Who moves next (log 3). -/
  agenda    : List Choice := []
  /-- The slot that issues. -/
  cur       : Nat := 0
  lag       : Bool := false
  /-- Counter of free values (log 4). -/
  nonce     : Nat := 0
  /-- Module in the load-store domain (R96). -/
  dev       : Nat := 0
  /-- Core cycles since reset (R96). -/
  cyc       : Word := 0
  slots     : Store Slot := []
  cores     : Store Core := []
  clusters  : Store Cluster := []
  launches  : Store Launch := []
  /-- Global memory at the memory side, by physical address (R407, R409). -/
  mem       : List Host.Cell := []
  /-- Dirty bytes held by the L2 slices (R384, R437). -/
  l2        : Store Byte := []
  /-- The metadata plane: descriptor of 64-byte block n (R408). -/
  memDesc   : Store (BitVec 16) := []
  /-- Scratchpads: byte core * 0x40000 + offset (R215). -/
  scr       : List Host.Cell := []
  /-- Full/empty tags: word core * 0x10000 + offset / 4; true is full (R227). -/
  tags      : Store Bool := []
  /-- Scratchpad descriptors: block core * 0x1000 + offset / 64 (R217). -/
  scrDesc   : Store (BitVec 16) := []
  /-- Words of the L1s: key cache * 2^50 + physical word; a cache is a core, or 6144 + a fused cluster (R385). -/
  l1        : Store L1Word := []
  /-- Owner registry: physical word to owning cache (R386). -/
  owners    : Store Nat := []
  /-- Lines with a registry entry, oldest registration first (R389). -/
  regLines  : List Nat := []
  /-- Contributors of a line, in the order of their registrations (R390). -/
  contrib   : Store (List Nat) := []
  /-- Operation and type of update-only lines: key cache * 2^42 + line (R390). -/
  updLines  : Store (RedOp × Ty) := []
  /-- Messages in flight, by number, and the next number. -/
  flight    : Store Msg := []
  nextMsg   : Nat := 0
  waiters   : List Waiter := []
  allocs    : List Alloc := []
  /-- Reports to firmware and to the front end, newest first. -/
  reports   : List Report := []
  /-- Entries of levels 0 to 2 that a walker keeps: die * 64 + walker to (launch, entry address, entry) (R421). -/
  walkers   : Store (List (Nat × Nat × Nat)) := []
  /-- Sets of the governed caches (R257): L1 and fused L1 by cache * 64 + set, L2 by slice * 256 + set, LLC by
  stack * 4096 + set. -/
  l1Sets    : Store (Store Way) := []
  l2Sets    : Store (Store Way) := []
  llcSets   : Store (Store Way) := []
  domains   : Store Domain := []
  /-- Broadcasts on their way (R249, R256, R260): the value of a domain that a cache still holds, by domain; and that of one
  cache, by cache * 256 + domain. An unlisted cache holds the home's. -/
  domainOld : Store Domain := []
  domainCopy : Store Domain := []
  /-- Commands of the copy engines, in issue order (R244), and the next number. -/
  copies    : Store Copy := []
  nextCopy  : Nat := 0
  streams   : Store Stream := []
  /-- Devices of the load-store domain beside this module (R467). -/
  peers     : List Nat := []
  /-- Values held by the die combiners and by the package combiner (R329). -/
  dieKeys   : Store (Option Key × Option Key) := []
  pkgKeys   : Option Key × Option Key := (none, none)
  outbox    : List Packet := []
  /-- Timestamped records and event messages sent to other modules and not yet acknowledged: the sending cluster and the key
  (R328, R303). -/
  unacked   : Store (Nat × Nat × Nat × Nat) := []
  queues    : Store Queue := []
  /-- Host register writes discarded and counted for firmware (R427, R438, R460). -/
  discards  : Nat := 0
  hostMem   : List Host.Cell := []
  /-- MSI-X vectors sent, newest first (R460). -/
  msix      : List Nat := []
  /-- The disciplined clock, and whether it is locked (R438). -/
  clock     : Word := 0
  ptp       : Bool := false
  tt        : Store TtEntry := []
  /-- Levels of errors counted: (code * 2 + uncorrected) * 2^20 + unit (R400), and the thresholds of the signed
  configuration table. -/
  errors    : Store (BitVec 32) := []
  thresholds : Store Nat := []
  /-- Failed tries of the packets of messages in flight, by message (R397). -/
  retries   : Store Nat := []
  boot      : Boot := {}
  ports     : Store Port := []
  /-- Residues of line numbers that do not lie at their own port (R469). -/
  portMap   : Store Nat := []
  /-- Breakpoints (R380, R448). -/
  breaks    : List Break := []
  /-- Data that the host and the debugger have read, newest first (R461, R380). -/
  readOut   : List (List Byte) := []
  deriving DecidableEq, Repr

/-- Why a step stops the model. -/
inductive Fault where
  /-- Raised by `step` when the agenda names, as an event of another agent, an instruction that only a task slot
  executes. Safe: no agent of the manual makes such a move. -/
  | notAnEvent
  deriving DecidableEq, Repr

/-- Why an instruction has no meaning here. -/
inductive Refusal where
  /-- Raised by an arm of `exec` for an instruction that the model does not give a meaning yet. Safe: the model stops
  where the machine goes on. -/
  | notModelled (mnemonic : String)
  deriving DecidableEq, Repr

/-- The machine right after reset: no slot runs a task, memory lists nothing (log 1), every register holds 0 where
the manual gives no reset value (log 2). -/
def State.reset : State := {}

end Sys2Proof.Machine
end

