-- ==== Sys2Proof/Machine/Mem.lean ====
section
/-! DEFINITION. Memory: bytes at the memory side, in the L2 slices and in the L1s (R384 to R391), scratchpads
(R215 to R218), descriptors (R151, R408), and translation (R419 to R421). Nothing here raises a trap: checks answer
with the cause, and the instruction that asked takes it. -/

namespace Sys2Proof.Machine

/-- A byte of a memory; a byte that nothing has written reads 0 (log 1). -/
def Memory.read (m : List Host.Cell) (a : Nat) : Byte := Store.get 0 m a

/-- Write a byte of a memory; writing what an unlisted address reads as removes the entry. -/
def Memory.write (m : List Host.Cell) (a : Nat) (b : Byte) : List Host.Cell := Store.put 0 m a b

/-- Addresses strictly rising, and no entry equal to what an unlisted address reads as. -/
def Memory.wf (m : List Host.Cell) : Bool := Store.wf 0 m

/-- A little-endian number from bytes (R7). -/
def leNat : List Byte → Nat
  | [] => 0
  | b :: t => b.toNat + 256 * leNat t

/-- The n little-endian bytes of a number (R7). -/
def leBytes (x : Nat) : Nat → List Byte
  | 0 => []
  | n + 1 => BitVec.ofNat 8 x :: leBytes (x / 256) n

/-! ### Numbers of things -/

/-- Slot number to core number. -/
def coreOf (sid : Nat) : Nat := sid / 2
/-- Slot number to cluster in the package (`pkg`, R96). -/
def pkgOf (sid : Nat) : Nat := sid / 16
/-- Core in its cluster. -/
def coreInCluster (sid : Nat) : Nat := sid / 2 % 8

namespace State

/-- A slot; a slot that nothing has touched is idle. -/
def slotAt (s : State) (sid : Nat) : Slot := Store.get {} s.slots sid
/-- Replace a slot. -/
def setSlot (s : State) (sid : Nat) (x : Slot) : State := { s with slots := Store.set s.slots sid x }
/-- Change a slot. -/
def updSlot (s : State) (sid : Nat) (f : Slot → Slot) : State := s.setSlot sid (f (s.slotAt sid))
/-- The issuing slot. -/
def slot (s : State) : Slot := s.slotAt s.cur
/-- Change the issuing slot. -/
def upd (s : State) (f : Slot → Slot) : State := s.updSlot s.cur f
/-- A core. -/
def coreAt (s : State) (c : Nat) : Core := Store.get {} s.cores c
/-- Change a core. -/
def updCore (s : State) (c : Nat) (f : Core → Core) : State :=
  { s with cores := Store.set s.cores c (f (s.coreAt c)) }
/-- A cluster. -/
def clusterAt (s : State) (pkg : Nat) : Cluster := Store.get {} s.clusters pkg
/-- Change a cluster. -/
def updCluster (s : State) (pkg : Nat) (f : Cluster → Cluster) : State :=
  { s with clusters := Store.set s.clusters pkg (f (s.clusterAt pkg)) }
/-- A launch. -/
def launchAt (s : State) (id : Nat) : Launch := Store.get { id := id } s.launches id
/-- Change a launch. -/
def updLaunch (s : State) (id : Nat) (f : Launch → Launch) : State :=
  { s with launches := Store.set s.launches id (f (s.launchAt id)) }

/-! ### The home of a word -/

/-- Physical word, line (1024 bytes) and 128-byte sector of a physical address. -/
def wordOf (pa : Nat) : Nat := pa / 4
/-- The line of a physical address (R384). -/
def lineOf (pa : Nat) : Nat := pa / 1024

/-- The home slice of a line of this module: die * 96 + slice, the die from the stack (R384, R407). -/
def sliceOf (line : Nat) : Nat := line % 16 / 2 * 96 + line % 96

/-- The device of a physical address (R407). -/
def deviceOf (pa : Nat) : Nat := pa / 2 ^ 42 % 1024

/-- The cache in which a slot's L1 words lie: its core's, or its cluster's in fused mode (R265, R385). -/
def cacheOf (s : State) (sid : Nat) : Nat :=
  if (s.clusterAt (pkgOf sid)).fused then 6144 + pkgOf sid else coreOf sid

/-- Key of a word in a cache. -/
def l1Key (cache word : Nat) : Nat := cache * 2 ^ 50 + word

/-- A word of a cache. -/
def l1At (s : State) (cache word : Nat) : Option L1Word := Store.find? s.l1 (l1Key cache word)

/-- Byte k of an L1 word. -/
def byteOf (w : L1Word) (k : Nat) : Byte := BitVec.ofNat 8 (w.data.toNat / 2 ^ (8 * k))

/-- Replace byte k of a word's data. -/
def withByte (x : BitVec 32) (k : Nat) (b : Byte) : BitVec 32 :=
  let n := x.toNat
  BitVec.ofNat 32 (n - n / 2 ^ (8 * k) % 256 * 2 ^ (8 * k) + b.toNat * 2 ^ (8 * k))

/-- The home's own value of a byte: the L2 slice's, else the memory side's. -/
def homeByte (s : State) (pa : Nat) : Byte := (Store.find? s.l2 pa).getD (Memory.read s.mem pa)

/-- The value of a byte that an access at the home is given when the line has no contributors: the owner's, else
the home's (R387). A line has owners or contributors, never both (R391). -/
def peek (s : State) (pa : Nat) : Byte :=
  match Store.find? s.owners (wordOf pa) with
  | some c => match s.l1At c (wordOf pa) with
    | some w => byteOf w (pa % 4)
    | none => s.homeByte pa
  | none => s.homeByte pa

/-- n bytes from a physical address, as the home gives them. -/
def peekBytes (s : State) (pa : Nat) : Nat → List Byte
  | 0 => []
  | n + 1 => s.peek pa :: s.peekBytes (pa + 1) n

/-- Write one byte at the home's L2 slice. -/
def l2Write (s : State) (pa : Nat) (b : Byte) : State := { s with l2 := Store.set s.l2 pa b }

/-- Write consecutive bytes at the home's L2 slice. -/
def l2WriteBytes (s : State) (pa : Nat) : List Byte → State
  | [] => s
  | b :: t => (s.l2Write pa b).l2WriteBytes (pa + 1) t

/-- The owner of a word writes it back and drops it (R386, R389). -/
def recallWord (s : State) (word : Nat) : State :=
  match Store.find? s.owners word with
  | none => s
  | some c =>
    let s1 := match s.l1At c word with
      | some w => s.l2WriteBytes (4 * word) (leBytes w.data.toNat 4)
      | none => s
    { s1 with l1 := Store.erase s1.l1 (l1Key c word), owners := Store.erase s1.owners word }

/-- Recall every owned word of a line, lowest first. -/
def recallLine (s : State) (line : Nat) : State :=
  (s.owners.filter (fun e => e.1 / 256 == line)).foldl (fun t e => t.recallWord e.1) s

/-! ### Atomics and partial values (R232, R234, R390) -/

end State

/-- The operation of `red` as one of `amo` (R234). -/
def RedOp.amo : RedOp → AmoOp
  | .add => .add | .and => .and | .or => .or | .xor => .xor | .min => .min | .max => .max | .minz => .minz
  | .maxz => .maxz | .fadd => .fadd | .fmin => .fmin | .fmax => .fmax

/-- The new memory value of an atomic, and its flags: `t` the old value, `x` the operand, `c` the comparand (R232). -/
def amoApply (op : AmoOp) (ty : Ty) (t x c : Nat) : Nat × Num.Flags :=
  let w := ty.width
  let m := 2 ^ w
  let f := Num.fmtOf ty
  match op with
  | .add => ((t + x) % m, 0)
  | .and => (t &&& x, 0)
  | .or => (t ||| x, 0)
  | .xor => (t ^^^ x, 0)
  | .min => (if signedOf w x < signedOf w t then x else t, 0)
  | .max => (if signedOf w t < signedOf w x then x else t, 0)
  | .minz => (Nat.min t x, 0)
  | .maxz => (Nat.max t x, 0)
  | .swap => (x, 0)
  | .cas => (if t == c then x else t, 0)
  | .fadd => Num.add f .rne t x
  | .fmin => Num.minmax f false t x
  | .fmax => Num.minmax f true t x

namespace State

/-- Combine a partial value into the home's value (R390). -/
def combineAt (s : State) (pa : Nat) (op : RedOp) (ty : Ty) (x : Nat) : State :=
  let n := ty.width / 8
  let old := leNat ((List.range n).map (fun i => s.homeByte (pa + i)))
  s.l2WriteBytes pa (leBytes (amoApply (RedOp.amo op) ty old x 0).1 n)

/-- Key of a line in a cache. -/
def updKey (cache line : Nat) : Nat := cache * 2 ^ 42 + line

/-- The words of a line that a cache holds as partials, lowest first. -/
def partials (s : State) (cache line : Nat) : List (Nat × BitVec 32) :=
  s.l1.filterMap (fun e =>
    if e.1 / 2 ^ 50 == cache && e.1 % 2 ^ 50 / 256 == line && e.2.st == .update then some (e.1 % 2 ^ 50, e.2.data)
    else none)

/-- Combine the partials, an element at a time: pairs of words for the 64-bit types. -/
def combineAll (op : RedOp) (ty : Ty) : List (Nat × BitVec 32) → State → State
  | [], s => s
  | [(w, x)], s => if ty.width == 64 then s else s.combineAt (4 * w) op ty x.toNat
  | (w, x) :: (v, y) :: t, s =>
    if ty.width == 64 then combineAll op ty t (s.combineAt (4 * w) op ty (x.toNat + 2 ^ 32 * y.toNat))
    else combineAll op ty ((v, y) :: t) (s.combineAt (4 * w) op ty x.toNat)

/-- A cache sends its partial of a line: the home combines it, and the cache holds the line no more (R390). A partial
whose contributor registration is still on its way finds the line with its owners, which are recalled first (R391). -/
def flushUpdate (s : State) (cache line : Nat) : State :=
  match Store.find? s.updLines (updKey cache line) with
  | none => s
  | some (op, ty) =>
    let ps := s.partials cache line
    let s0 := if (Store.get [] s.contrib line).contains cache then s else s.recallLine line
    let s1 := combineAll op ty ps s0
    { s1 with
      l1 := ps.foldl (fun l p => Store.erase l (l1Key cache p.1)) s1.l1
      updLines := Store.erase s1.updLines (updKey cache line)
      contrib := Store.put [] s1.contrib line ((Store.get [] s1.contrib line).filter (· != cache)) }

/-- Every contributor of a line sends its partial, in the order of the registrations (R391). -/
def settle (s : State) (line : Nat) : State :=
  (Store.get [] s.contrib line).foldl (fun t c => t.flushUpdate c line) s

/-- A line has an owner or a contributor, so that its registry entry is in use (R389, R391). -/
def registered (s : State) (line : Nat) : Bool :=
  s.owners.any (fun e => e.1 / 256 == line) || !(Store.get [] s.contrib line).isEmpty

/-- A registration uses a registry entry of its line: the line of a full slice whose registration is oldest gives its
entry up (R389). Entries of lines without an owner or a contributor are free. -/
def registryEntry (s : State) (line : Nat) : State :=
  let s : State := { s with regLines := s.regLines.filter s.registered }
  if s.regLines.contains line then s
  else
    let same := s.regLines.filter (fun l => sliceOf l == sliceOf line)
    let s1 :=
      if 8192 ≤ same.length then
        match same with
        | [] => s
        | old :: _ =>
          let s2 := s.recallLine old
          { s2 with regLines := s2.regLines.filter (· != old) }
      else s
    { s1 with regLines := s1.regLines ++ [line] }

/-- Fill the bytes that a store did not cover from the home's value (R386). -/
def mergeWord (s : State) (word : Nat) (x : L1Word) : BitVec 32 :=
  [0, 1, 2, 3].foldl (fun d k => if x.mask.getLsbD k then d else withByte d k (s.homeByte (4 * word + k))) x.data

/-- A cache holds a store of its core to a word that waits for its registration (R386). -/
def pendingWord (s : State) (cache word : Nat) : Bool :=
  match s.l1At cache word with
  | some x => x.st == .owned && !x.reg
  | none => false

/-- The home applies the registration of a word for a cache, and acknowledges (R386, R389, R391). When the cache no
longer waits for one, an earlier registration has carried the store. -/
def registerWord (s : State) (cache word : Nat) : State :=
  if !s.pendingWord cache word then s
  else
    let s1 := ((s.registryEntry (word / 256)).settle (word / 256)).recallWord word
    match s1.l1At cache word with
    | none => s1
    | some x =>
      { s1 with
        l1 := Store.set s1.l1 (l1Key cache word) { st := .owned, data := s1.mergeWord word x }
        owners := Store.set s1.owners word cache }

/-- The words that n bytes from an address touch, lowest first. -/
def wordsOf (pa n : Nat) : List Nat := (List.range ((pa % 4 + n + 3) / 4)).map (· + pa / 4)

/-- Every word that a range touches is owned by the cache, whole and registered. -/
def ownsAll (s : State) (c pa n : Nat) : Bool :=
  (wordsOf pa n).all (fun w => match s.l1At c w with
    | some x => x.st == .owned && x.mask == 15 && x.reg
    | none => false)

/-- A plain store of one byte writes the core's L1 and marks the word owned (R386 step 1). -/
def l1StoreByte (s : State) (cache pa : Nat) (b : Byte) : State :=
  let w := wordOf pa
  let k := pa % 4
  let x := match s.l1At cache w with
    | some x =>
      if x.st == .owned then { x with data := withByte x.data k b, mask := x.mask ||| (1 <<< k) }
      else { st := .owned, data := withByte x.data k b, mask := 1 <<< k, reg := false }
    | none => { st := .owned, data := withByte 0 k b, mask := 1 <<< k, reg := false }
  { s with l1 := Store.set s.l1 (l1Key cache w) x }

/-- A plain store of consecutive bytes to the L1. A line that the cache holds update-only is sent first (R391). -/
def l1Store (s : State) (cache pa : Nat) : List Byte → State
  | [] => s
  | b :: t => ((s.flushUpdate cache (lineOf pa)).l1StoreByte cache pa b).l1Store cache (pa + 1) t

/-- Register the words of a store (R386 step 3). -/
def registerAll (s : State) (cache : Nat) (words : List Nat) : State :=
  words.foldl (fun t w => t.registerWord cache w) s

/-- A plain store, performed at once. -/
def storeNow (s : State) (cache pa : Nat) (bs : List Byte) : State :=
  (s.l1Store cache pa bs).registerAll cache (wordsOf pa bs.length)

/-- A word that arrives is installed as valid, where the cache does not hold it already (R387). -/
def installWord (s : State) (cache w : Nat) : State :=
  if (s.l1At cache w).isSome then s
  else
    let x : L1Word := { st := .valid, data := BitVec.ofNat 32 (leNat (s.peekBytes (4 * w) 4)) }
    { s with l1 := Store.set s.l1 (l1Key cache w) x }

/-- The home's answer to a request for a word (R387): the owner's word alone, or the words of the sector that nobody
owns. -/
def installSector (s : State) (cache word : Nat) : State :=
  let t := s.settle (word / 256)
  if (Store.find? t.owners word).isSome then t.installWord cache word
  else (List.range 32).foldl (fun u i =>
    let w := word / 32 * 32 + i
    if (Store.find? u.owners w).isSome then u else u.installWord cache w) t

/-- Whether a cache holds a word that a plain load may use (R387). -/
def l1Hit (s : State) (cache word : Nat) : Bool :=
  match s.l1At cache word with
  | some x => x.st != .update && x.mask == 15
  | none => false

/-- A plain load of the words it touches: hits use the L1, misses ask the home; a line held update-only is sent
first (R387, R391). -/
def loadWords (s : State) (cache : Nat) (words : List Nat) : State :=
  words.foldl (fun t w =>
    let t := t.flushUpdate cache (w / 256)
    if t.l1Hit cache w then t else t.installSector cache w) s

/-- A byte as a cache's core sees it: its own copy, else the home's. -/
def l1Byte (s : State) (cache pa : Nat) : Byte :=
  match s.l1At cache (wordOf pa) with
  | some x => if x.mask.getLsbD (pa % 4) then byteOf x (pa % 4) else s.peek pa
  | none => s.peek pa

/-- n bytes as a cache's core sees them. -/
def l1Bytes (s : State) (cache pa : Nat) : Nat → List Byte
  | 0 => []
  | n + 1 => s.l1Byte cache pa :: s.l1Bytes cache (pa + 1) n

/-- An acquire turns every valid word of the cache to invalid (R388, R117); words that arrive from earlier misses are
not installed (R401). -/
def selfInvalidate (s : State) (cache : Nat) : State :=
  { s with
    l1 := s.l1.filter (fun e => !(e.1 / 2 ^ 50 == cache && e.2.st == .valid))
    flight := s.flight.map (fun e => match e.2 with
      | .load o => (e.1, if s.cacheOf o.sid == cache then .load { o with bare := true } else e.2)
      | _ => e) }

/-- Write bytes at the home: contributors are combined and owners recalled first (R388, R391). -/
def writeHome (s : State) (pa : Nat) : List Byte → State
  | [] => s
  | b :: t => (((s.settle (lineOf pa)).recallWord (wordOf pa)).l2Write pa b).writeHome (pa + 1) t

/-- The lines that n bytes from an address touch. -/
def linesOf (pa n : Nat) : List Nat := (List.range ((pa % 1024 + n + 1023) / 1024)).map (· + pa / 1024)

/-- Settle every line that a read of n bytes at the home touches (R391). -/
def settleRange (s : State) (pa n : Nat) : State := (linesOf pa n).foldl (fun t l => t.settle l) s

/-! ### Scratchpads and descriptors -/

/-- Key of a scratchpad byte. -/
def scrKey (core off : Nat) : Nat := core * 0x40000 + off

/-- A byte at a location, as an access at its home reads it. -/
def readLoc (s : State) : Loc → Byte
  | .glob pa => s.peek pa
  | .scr c o => Memory.read s.scr (scrKey c o)

/-- The location i bytes on. -/
def locAdd (l : Loc) (i : Nat) : Loc :=
  match l with
  | .glob pa => .glob (pa + i)
  | .scr c o => .scr c (o + i)

/-- n bytes at a location, as an access at its home reads them. -/
def readLocs (s : State) (l : Loc) (n : Nat) : List Byte := (List.range n).map (fun i => s.readLoc (locAdd l i))

/-- Write scratchpad bytes. -/
def scrWrite (s : State) (c o : Nat) : List Byte → State
  | [] => s
  | b :: t => { s with scr := Memory.write s.scr (scrKey c o) b }.scrWrite c (o + 1) t

/-- The descriptor of the block that holds a location (R151). -/
def descAt (s : State) : Loc → BitVec 16
  | .glob pa => Store.get 0 s.memDesc (pa / 64)
  | .scr c o => Store.get 0 s.scrDesc (scrKey c o / 64)

/-- Write the descriptor of the block that holds a location. -/
def setDesc (s : State) (l : Loc) (d : BitVec 16) : State :=
  match l with
  | .glob pa => { s with memDesc := Store.put 0 s.memDesc (pa / 64) d }
  | .scr c o => { s with scrDesc := Store.put 0 s.scrDesc (scrKey c o / 64) d }

/-- A descriptor marks poison: format 0xFF (R153). -/
def isPoison (d : BitVec 16) : Bool := d.toNat % 256 == 0xFF

/-- A descriptor marks a zero block: scale −128 and not poison (R153). -/
def isZeroBlock (d : BitVec 16) : Bool := d.toNat / 256 == 0x80 && !isPoison d

/-- The tag of a scratchpad word: full or empty (R227). -/
def tagAt (s : State) (c o : Nat) : Bool := Store.get false s.tags (scrKey c o / 4)

/-- Set the tag of a scratchpad word. -/
def setTag (s : State) (c o : Nat) (full : Bool) : State :=
  { s with tags := Store.put false s.tags (scrKey c o / 4) full }

/-- Write bytes at a location's home or port, on an engine path. -/
def writeLoc (s : State) (l : Loc) (bs : List Byte) : State :=
  match l with
  | .glob pa => s.writeHome pa bs
  | .scr c o => s.scrWrite c o bs

/-! ### Translation (R419 to R421) -/

end State

/-- What an access does (R220, R419). -/
inductive Access where
  | fetch | load | store
  deriving DecidableEq, Repr

/-- A trap's cause and detail (R108). -/
structure Trap where
  cause : Nat
  tval  : Word
  deriving DecidableEq, Repr

/-- The translation fault of an access (R419). -/
def Access.fault : Access → Nat
  | .fetch => 4 | .load => 5 | .store => 6

/-- A virtual address is canonical when bits 63:57 equal bit 56 (R419). -/
def canonical (va : Nat) : Bool := va / 2 ^ 56 % 256 == 0 || va / 2 ^ 56 % 256 == 255

/-- The levels of the table: lowest VA bit indexed, index bits (R419). -/
def levels : List (Nat × Nat) := [(48, 9), (39, 9), (30, 9), (21, 9), (16, 5)]

/-- A malformed entry at level `l` (R420); `dom` tells the devices of the load-store domain, outside which no leaf may
name a page (R467). -/
def malformed (dom : Nat → Bool) (l e : Nat) : Bool :=
  let leaf := bits e 1 1 == 1
  let addr := bits e 51 8 * 256
  bits e 63 52 != 0 || bits e 7 6 != 0 ||
  (leaf && l < 2) || (!leaf && l == 4) ||
  (leaf && addr % 2 ^ (levels.getD l (0, 0)).1 != 0) ||
  (!leaf && l < 3 && bits e 11 8 != 0) ||
  bits addr 41 40 != 0 || (leaf && !dom (bits addr 51 42))

/-- Outcome of a walk: a leaf with its page's bits; an entry that is not valid; a malformed entry. Beside it, the
entries read at levels 0 to 2. -/
inductive Walk where
  | leaf (e bits : Nat)
  | absent
  | bad
  deriving DecidableEq, Repr

namespace State

/-- Walk the table from a level on (R419, R420): `get` reads an entry by its physical address. -/
def walkFrom (dom : Nat → Bool) (get : Nat → Nat) (va : Nat) : List (Nat × Nat) → Nat → Nat → Walk × List (Nat × Nat)
  | [], _, _ => (.bad, [])
  | (lo, n) :: rest, l, base =>
    let a := base + va / 2 ^ lo % 2 ^ n * 8
    let e := get a
    let seen := if l < 3 then [(a, e)] else []
    if e % 2 == 0 then (.absent, seen)
    else if malformed dom l e then (.bad, seen)
    else if bits e 1 1 == 1 then (.leaf e lo, seen)
    else
      let (r, more) := walkFrom dom get va rest (l + 1) (bits e 51 8 * 256)
      (r, seen ++ more)

/-- A device of the load-store domain (R467). -/
def inDomain (s : State) (d : Nat) : Bool := d == s.dev || s.peers.contains d

/-- The walker of a die that serves the walks of an address (R421). -/
def walkerOf (die va : Nat) : Nat := die * 64 + Config.walker (va / 65536) % 64

/-- A table entry of a launch, through the recent entries that a walker keeps (R421). -/
def readEntry (s : State) (w launch a : Nat) : Nat :=
  match (Store.get [] s.walkers w).find? (fun x => x.1 == launch && x.2.1 == a) with
  | some x => x.2.2
  | none => leNat ((s.settleRange a 8).peekBytes a 8)

/-- The translation of an address for a launch on a core: the core's TLB, the cluster's, then a walk (R421). -/
def lookup (s : State) (core launch va : Nat) : Walk × List (Nat × Nat) :=
  let hit (l : List TlbEntry) := l.find? (fun e => e.launch == launch && va / 2 ^ e.bits == e.base / 2 ^ e.bits)
  match hit (s.coreAt core).tlb with
  | some e => (.leaf e.leaf e.bits, [])
  | none => match hit (s.clusterAt (core / 8)).tlb with
    | some e => (.leaf e.leaf e.bits, [])
    | none => walkFrom s.inDomain (s.readEntry (walkerOf (core / 8 / 96) va) launch) va levels 0 (s.launchAt launch).root

/-- The physical address of a virtual one in a page. -/
def pageAddr (e bits va : Nat) : Nat := Sys2Proof.bits e 51 8 * 256 + va % 2 ^ bits

/-- Translate an address for an access, and check its permission (R419, R420, R220 steps 4 and 5). -/
def translate (s : State) (core launch : Nat) (va : Word) (k : Access) : Except Trap Nat :=
  let v := va.toNat
  if v / 2 ^ 32 == 0xFFFFFF00 || !canonical v then .error ⟨k.fault, va⟩
  else match (s.lookup core launch v).1 with
    | .leaf e b =>
      let ok := match k with
        | .fetch => Sys2Proof.bits e 4 4 == 1
        | .load => true
        | .store => Sys2Proof.bits e 2 2 == 1 && Sys2Proof.bits e 3 3 == 0
      if ok then .ok (pageAddr e b v) else .error ⟨7, va⟩
    | _ => .error ⟨k.fault, va⟩

/-- Keep at most n entries, newest first. -/
def keep {α : Type} (n : Nat) (x : α) (l : List α) : List α := (x :: l).take n

/-- The TLBs and a walker keep what a translation read, also one that failed (R421, log 10). -/
def tlbFill (s : State) (core launch : Nat) (va : Word) : State :=
  let v := va.toNat
  if v / 2 ^ 32 == 0xFFFFFF00 || !canonical v then s
  else
    let (r, seen) := s.lookup core launch v
    let w := walkerOf (core / 8 / 96) v
    let s1 := if seen.isEmpty then s
      else
        let l0 := Store.get [] s.walkers w
        let l1 := seen.foldl (fun l x => keep 32 (launch, x) (l.filter (· != (launch, x)))) l0
        { s with walkers := Store.set s.walkers w l1 }
    match r with
    | .leaf e b =>
      let x : TlbEntry := ⟨launch, v / 2 ^ b * 2 ^ b, b, e⟩
      let add (n : Nat) (l : List TlbEntry) := if l.contains x then l else keep n x l
      (s1.updCore core (fun c => { c with tlb := add 64 c.tlb })).updCluster (core / 8)
        (fun c => { c with tlb := add 2048 c.tlb })
    | _ => s1

/-! ### Windows (R215, R216) -/

/-- The slot's team on its cluster, if it is a member: the team and the member slot (R269). -/
def teamOf (s : State) (sid : Nat) : Option (Team × Nat) :=
  let w := (s.slotAt sid).head.team.toNat
  if w % 65536 == 0 then none
  else ((s.clusterAt (pkgOf sid)).teams.find? (fun t => t.id == w % 65536)).map (fun t => (t, w / 65536 % 64))

/-- A task's scratch allocation (R216). -/
def allocOf (s : State) (r : RecId) : Option Alloc := s.allocs.find? (fun a => a.rid == r)

/-- The allocation that peer window k of a cluster maps to: that of the member with the lowest slot that holds one
on core k (R215). -/
def peerHolder (s : State) (pkg : Nat) (t : Team) (k : Nat) : Option Alloc :=
  (t.recs.filterMap (fun m => match s.allocOf m.2 with
    | some a => if t.members.getLsbD m.1 && a.core == pkg * 8 + k then some a else none
    | none => none)).head?

/-- The scratch allocation of a head: base in 4 KiB units, size in KiB (R61). -/
def scratchOf (h : Head) : Nat × Nat := (h.scratch.toNat % 65536, h.scratch.toNat / 65536)

/-- Where an access of n bytes lies: a scratchpad byte with `true` for a peer window, or `none` for a global
address. The window rules of R215 and R278. -/
def window (s : State) (sid : Nat) (va : Word) (n : Nat) (k : Access) : Except Trap (Option (Nat × Nat × Bool)) :=
  let v := va.toNat
  if v / 2 ^ 32 != 0xFFFFFF00 then .ok none
  else
    let lo := v % 2 ^ 32
    if lo < 0x40000 then
      let (base, size) := scratchOf (s.slotAt sid).head
      if lo + n ≤ size * 1024 then .ok (some (coreOf sid, base * 4096 + lo, false)) else .error ⟨7, va⟩
    else if 0x1000000 ≤ lo && lo < 0x1000000 + 8 * 0x40000 then
      let kx := (lo - 0x1000000) / 0x40000
      let o := (lo - 0x1000000) % 0x40000
      match (s.teamOf sid).bind (fun t => s.peerHolder (pkgOf sid) t.1 kx) with
      | none => .error ⟨8, va⟩
      | some a =>
        if o + n ≤ a.size * 1024 then .ok (some (a.core, a.base * 4096 + o, true)) else .error ⟨7, va⟩
    else .error ⟨k.fault, va⟩

/-- The location of an access of n bytes by a slot: windows, translation, permission (R220 steps 3 to 5). -/
def locate (s : State) (sid : Nat) (va : Word) (n : Nat) (k : Access) : Except Trap Loc :=
  match s.window sid va n k with
  | .error e => .error e
  | .ok (some (c, o, _)) => .ok (.scr c o)
  | .ok none => match s.translate (coreOf sid) (s.slotAt sid).rid.launch va k with
    | .error e => .error e
    | .ok pa => .ok (.glob pa)

/-- The counter of a store or reduction, by its home (R101). -/
def homeCtr (s : State) (sid : Nat) (va : Word) (l : Loc) : Ctr :=
  match l with
  | .scr _ _ => if va.toNat % 2 ^ 32 < 0x40000 then .st else .rpe
  | .glob pa =>
    if deviceOf pa != s.dev then .rfa
    else
      let h := sliceOf (lineOf pa)
      if h == pkgOf sid then .st else if h / 96 == pkgOf sid / 96 then .rdi else .rpk

/-- The origin and unit fields of a machine check for a block that a slot received (R399): `l1` from the core's own L1, `far`
from the Dahlia die of its stack, which its home slice did not hold. -/
def originOf (s : State) (sid : Nat) (l : Loc) (l1 far : Bool) : Nat :=
  let f (origin unit : Nat) := origin * 2 ^ 24 + unit * 2 ^ 8
  match l with
  | .scr c _ => if c == coreOf sid then f 0 (coreInCluster sid) else f 1 (pkgOf sid % 96)
  | .glob pa =>
    if l1 then f 0 (coreInCluster sid)
    else if deviceOf pa != s.dev then f 6 0
    else if far then f 4 (lineOf pa % 16)
    else
      let h := sliceOf (lineOf pa)
      if h == pkgOf sid then f 1 (pkgOf sid % 96)
      else if h / 96 == pkgOf sid / 96 then f 2 (h % 96)
      else f 3 (h / 96)

/-- `tval` of the machine check for the poisoned block at a location, by where its data came from (R399). -/
def tvalOf (s : State) (sid : Nat) (l : Loc) (l1 far : Bool) : Word :=
  BitVec.ofNat 64 (s.originOf sid l l1 far + (s.descAt l).toNat / 256)

/-! ### What a path of a slot has fetched ahead (R213, R224, R240) -/

/-- The place of a location in bytes that begin at another, when it lies among the n of them. -/
def placeIn (l base : Loc) (n : Nat) : Option Nat :=
  match l, base with
  | .glob x, .glob y => if y ≤ x && x < y + n then some (x - y) else none
  | .scr c x, .scr d y => if c == d && y ≤ x && x < y + n then some (x - y) else none
  | _, _ => none

/-- What a path of a slot has fetched ahead of a byte: the byte, and the descriptor of its block. -/
def aheadOf (s : State) (sid : Nat) (p : Path) (l : Loc) : Option (Byte × BitVec 16) :=
  (s.slotAt sid).ahead.findSome? (fun a =>
    if a.path == p then (placeIn l a.loc a.bytes.length).map (fun i => (a.bytes.getD i 0, a.desc)) else none)

/-- n bytes at a location as a path of a slot reads them: fetched ahead, or at the home now (R240). -/
def pathBytes (s : State) (sid : Nat) (p : Path) (l : Loc) (n : Nat) : List Byte :=
  (List.range n).map (fun i => match s.aheadOf sid p (locAdd l i) with
    | some x => x.1
    | none => s.readLoc (locAdd l i))

/-- The descriptor of a block as a path of a slot reads it. -/
def pathDesc (s : State) (sid : Nat) (p : Path) (l : Loc) : BitVec 16 :=
  match s.aheadOf sid p l with
  | some x => x.2
  | none => s.descAt l

/-- A path of a slot fetches up to n bytes ahead, of one block. -/
def readAhead (s : State) (sid : Nat) (p : Path) (l : Loc) (n : Nat) : State :=
  let (t, off) := match l with
    | .glob pa => (s.settleRange pa n, pa % 64)
    | .scr _ o => (s, o % 64)
  let a : Ahead := { path := p, loc := l, bytes := t.readLocs l (Nat.min n (64 - off)), desc := t.descAt l }
  if (t.slotAt sid).run == .idle then t else t.updSlot sid (fun x => { x with ahead := a :: x.ahead })

/-- A path of a slot writes n bytes: what it has fetched of them is of no use. -/
def dropAhead (s : State) (sid : Nat) (p : Path) (l : Loc) (n : Nat) : State :=
  if (s.slotAt sid).ahead.isEmpty then s
  else s.updSlot sid (fun x => { x with ahead := x.ahead.filter (fun a =>
    !(a.path == p && (List.range n).any (fun i => (placeIn (locAdd l i) a.loc a.bytes.length).isSome))) })

/-- An `xf` that is met: its paths read no older bytes (R224, R240). -/
def forgetAhead (s : State) (sid : Nat) (a b : Path) : State :=
  if (s.slotAt sid).ahead.isEmpty then s
  else s.updSlot sid (fun x => { x with ahead := x.ahead.filter (fun y => y.path != a && y.path != b) })

end State
end Sys2Proof.Machine
end

