-- ==== Sys2Proof/Machine/Cache.lean ====
section
/-! DEFINITION. The governed caches (R246 to R257): stamps, victims, honesty, and the messages of the reuse-clock
unit. They change residency and the point to which data has been written back, never a value (R262). -/

namespace Sys2Proof.Machine

/-- The distance of a next-use code from 1 to 62 (R246). -/
def nuDistance (k : Nat) : Nat := (4 + k % 4) * 2 ^ (k / 4)

/-- A code with a distance. -/
def nuTimed (k : Nat) : Bool := 1 ≤ k && k ≤ 62

/-- Slack of a stamp: (due − clock) mod 2^24, signed (R250). -/
def slackOf (due clock : Nat) : Int := signedOf 24 (due + 2 ^ 24 - clock % 2 ^ 24)

/-- The governed levels. -/
inductive CacheLevel where
  | l1 | l2 | llc
  deriving DecidableEq, Repr

/-- Ways of a level (R257). -/
def CacheLevel.ways : CacheLevel → Nat
  | .l1 => 8 | .l2 => 16 | .llc => 24

/-- The global addresses that a message names. -/
def Msg.addrs : Msg → List Nat
  | .load o => o.parts.filterMap (fun p => match p.loc with | .glob pa => some pa | .scr _ _ => none)
  | .store o => o.pieces.filterMap (fun p => match p.loc with | .glob pa => some pa | .scr _ _ => none)
  | .atom o => match o.loc with | .glob pa => [pa] | .scr _ _ => []
  | .red o => match o.loc with | .glob pa => [pa] | .scr _ _ => []
  | .cell o => match o.loc with | .glob pa => [pa] | .scr _ _ => []
  | _ => []

namespace State

/-- A reuse domain. -/
def domainAt (s : State) (d : Nat) : Domain := Store.get {} s.domains d
/-- Change a reuse domain at its home; the caches follow at once, or as the broadcast reaches them (R249, log 3). -/
def updDomain (s : State) (d : Nat) (f : Domain → Domain) : State :=
  { s with
    domains := Store.set s.domains d (f (s.domainAt d))
    domainOld := if !s.lag then Store.erase s.domainOld d
      else if (Store.find? s.domainOld d).isSome then s.domainOld else Store.set s.domainOld d (s.domainAt d)
    domainCopy := if s.lag then s.domainCopy else s.domainCopy.filter (fun e => e.1 % 256 != d % 256) }

/-- What a cache holds of a domain (R249, R256, R260). -/
def heldDomain (s : State) (cache d : Nat) : Domain :=
  match Store.find? s.domainCopy (cache * 256 + d) with
  | some x => x
  | none => (Store.find? s.domainOld d).getD (s.domainAt d)

/-- The broadcast of a domain reaches a cache. -/
def copyDomain (s : State) (cache d : Nat) : State :=
  { s with domainCopy := Store.set s.domainCopy (cache * 256 + d) (s.domainAt d) }

/-- Way quota of a domain at a level (R260). -/
def quotaOf (d : Domain) : CacheLevel → Nat
  | .l1 => d.l1 | .l2 => d.l2 | .llc => d.llc

/-- A Rhojo Link port. -/
def portAt (s : State) (p : Nat) : Port := Store.get {} s.ports p
/-- Change a port. -/
def updPort (s : State) (p : Nat) (f : Port → Port) : State := { s with ports := Store.set s.ports p (f (s.portAt p)) }

/-- The owning port of a line (R469). A remote access leaves by the port of that number (log 24). -/
def portOf (s : State) (pa : Nat) : Nat :=
  let r := pa % 2 ^ 40 / 1024 % 18
  Store.get r s.portMap r

/-- Send message k over a port, with the next sequence number; or keep it back while the channel is stopped, the lanes
retrain, or 128 flits wait for their acknowledgement (R464, R465). A flit whose message is done has been received. -/
def sendFlit (s : State) (p k : Nat) : State :=
  s.updPort p (fun x =>
    let open_ := x.replay.filter (fun e => (Store.find? s.flight e.2).isSome)
    if x.up && !x.retraining && !x.stopIn.getLsbD 0 && open_.length < 128
      then { x with tx := x.tx + 1, replay := open_ ++ [(x.tx + 1, k)], unsent := x.unsent.filter (· != k) }
      else { x with unsent := if x.unsent.contains k then x.unsent else x.unsent ++ [k] })

/-- A message has not left its port yet. -/
def isUnsent (s : State) (k : Nat) : Bool := s.ports.any (fun e => e.2.unsent.contains k)

/-- Put a message in flight, numbered in order; one to another module leaves by a port. -/
def enqueue (s : State) (m : Msg) : State :=
  let t : State := { s with flight := Store.set s.flight s.nextMsg m, nextMsg := s.nextMsg + 1 }
  match m.addrs.find? (fun pa => deviceOf pa != s.dev) with
  | some pa => t.sendFlit (s.portOf pa) s.nextMsg
  | none => t

/-- The home counts a report on a domain's declarations (R255). -/
def judge (s : State) (dom : Nat) (up : Bool) : State :=
  s.updDomain dom (fun d =>
    let c := if up then d.judge + 1 else d.judge - 1
    if 64 ≤ c then { d with honesty := if d.honesty == 15 then 15 else d.honesty + 1, judge := 0 }
    else if c ≤ -64 then { d with honesty := if d.honesty == 0 then 0 else d.honesty - 1, judge := 0 }
    else { d with judge := c })

/-- A cache reports to the domain's home, at once or in flight (R255). -/
def report (s : State) (dom : Nat) (up : Bool) : State :=
  if s.lag then s.enqueue (.honesty dom up) else s.judge dom up

/-- Sets of a level. -/
def setsOf (s : State) : CacheLevel → Store (Store Way)
  | .l1 => s.l1Sets | .l2 => s.l2Sets | .llc => s.llcSets

/-- Replace a set of a level. -/
def putSet (s : State) (l : CacheLevel) (k : Nat) (w : Store Way) : State :=
  match l with
  | .l1 => { s with l1Sets := Store.set s.l1Sets k w }
  | .l2 => { s with l2Sets := Store.set s.l2Sets k w }
  | .llc => { s with llcSets := Store.set s.llcSets k w }

/-- The number of the set in which a line lies at a level: which set within the cache is a free value (R257,
log 4); a fused L1 has one bank for each value of address bits 12:10 (R265). -/
def setKey (l : CacheLevel) (cache line : Nat) : Nat :=
  match l with
  | .l1 =>
    let k := Config.cacheSet 1 line % 8
    if cache < 6144 then cache * 64 + k else cache * 64 + line % 8 * 8 + k
  | .l2 => sliceOf line * 256 + Config.cacheSet 2 line % 256
  | .llc => line % 16 * 4096 + Config.cacheSet 3 line % 4096

/-- The number of the cache of a level in which a line lies: that of an L1, 8192 + slice, 16384 + stack. -/
def cacheNo (l : CacheLevel) (cache line : Nat) : Nat :=
  match l with
  | .l1 => cache | .l2 => 8192 + sliceOf line | .llc => 16384 + line % 16

/-- The LLC's copy of a line takes data that HBM does not hold yet; a line that it does not hold goes through (R409). -/
def llcDirty (s : State) (line : Nat) : State :=
  let key := setKey .llc 0 line
  { s with llcSets := s.llcSets.map (fun e =>
      if e.1 == key then (e.1, List.map (fun w => if w.2.line == line then (w.1, { w.2 with dirty := true }) else w) e.2) else e) }

/-- Every byte that the L2 slice holds dirty of a line goes to the memory side. -/
def l2Flush (s : State) (line : Nat) : State :=
  let mine := s.l2.filter (fun e => e.1 / 1024 == line)
  let t : State := { s with
    mem := mine.foldl (fun m e => Memory.write m e.1 e.2) s.mem
    l2 := s.l2.filter (fun e => e.1 / 1024 != line) }
  if mine.isEmpty then t else t.llcDirty line

/-- A cache gives up its line: owned words are written back and unregistered, a partial is sent, copies go (R389,
R257). -/
def l1Evict (s : State) (cache line : Nat) : State :=
  let s1 := s.flushUpdate cache line
  let mine := s1.owners.filter (fun e => e.1 / 256 == line && e.2 == cache)
  let s2 := mine.foldl (fun t e => t.recallWord e.1) s1
  { s2 with l1 := s2.l1.filter (fun e =>
      !(e.1 / 2 ^ 50 == cache && e.1 % 2 ^ 50 / 256 == line && e.2.reg)) }

/-- A victim leaves a level. A dirty line of the LLC is written to HBM, which nothing reads but through the LLC (R409). -/
def evict (s : State) (l : CacheLevel) (cache : Nat) (w : Way) : State :=
  match l with
  | .l1 => s.l1Evict cache w.line
  | .l2 => s.l2Flush w.line
  | .llc => s

/-- Slack below minus the grace, by the clock that cache c holds (R246, R250). -/
def overdue (s : State) (c : Nat) (w : Way) : Bool :=
  slackOf w.due (s.heldDomain c w.dom).clock.toNat < -((nuDistance w.code / 8 : Nat) : Int)

/-- A line that breaks its promise now: timed, not hit, and overdue (R255). -/
def broken (s : State) (c : Nat) (w : Way) : Bool := nuTimed w.code && !w.hit && s.overdue c w

/-- The rank of a candidate as a victim (R254 steps 2 to 5): the step, and a measure to be maximised within it. -/
def victimRank (s : State) (c : Nat) (w : Way) : Nat × Int :=
  let d := s.heldDomain c w.dom
  if w.code == 0 then (2, 0)
  else if w.code == 63 then (5, 0)
  else
    let x : Int := slackOf w.due d.clock.toNat
    let g : Int := (nuDistance w.code / 8 : Nat)
    if x < -g then (3, -(x + g))
    else (4, x + (((15 - d.honesty.toNat) * nuDistance w.code / 16 : Nat) : Int))

/-- Whether candidate `a` at way `i` goes before `b` at way `j` (R254). -/
def before (s : State) (c i : Nat) (a : Way) (j : Nat) (b : Way) : Bool :=
  let (sa, ma) := s.victimRank c a
  let (sb, mb) := s.victimRank c b
  sa < sb || (sa == sb && (mb < ma || (ma == mb &&
    ((!a.age && b.age) || (a.age == b.age && i < j)))))

/-- The victim way of a set for a fill by a domain (R253, R254). -/
def victim (s : State) (l : CacheLevel) (c : Nat) (set : Store Way) (dom : Nat) : Nat :=
  let mine := set.filter (fun e => e.2.dom == dom)
  let own := quotaOf (s.heldDomain c dom) l ≤ mine.length
  let free := (List.range l.ways).find? (fun i => (Store.find? set i).isNone)
  match if own then none else free with
  | some i => i
  | none =>
    match (if own then mine else set) with
    | [] => 0
    | h :: t => (t.foldl (fun (b : Nat × Way) e => if s.before c e.1 e.2 b.1 b.2 then e else b) h).1

/-- An access ages its way: when every valid way has age 1, the others are cleared (R252). -/
def ageSet (set : Store Way) (i : Nat) : Store Way :=
  let set := set.map (fun e => if e.1 == i then (e.1, { e.2 with age := true }) else e)
  if set.all (fun e => e.2.age) then set.map (fun e => if e.1 == i then e else (e.1, { e.2 with age := false })) else set

/-- The stamp of an access of domain `dom` with code `k` on way `w`, which it filled or hit (R252). -/
def stamp (s : State) (c dom k : Nat) (hit : Bool) (w : Way) : Way :=
  let w1 := if hit && w.dom == dom && nuTimed w.code && !s.overdue c w then { w with hit := true } else w
  if hit && w.code == 63 then w1
  else if k == 0 && hit && w.dom != dom then w1
  else { w1 with dom := dom, code := k, hit := false,
                 due := if nuTimed k then ((s.heldDomain c dom).clock.toNat + nuDistance k) % 2 ^ 24 else 0 }

/-- One access of a governed level: a hit, or a fill that takes a victim (R252 to R255). -/
def touchLevel (s : State) (l : CacheLevel) (cache line dom k : Nat) : State :=
  let key := setKey l cache line
  let c := cacheNo l cache line
  let set := Store.get [] (s.setsOf l) key
  match List.find? (fun e => e.2.line == line) set with
  | some (i, w) =>
    let w1 := s.stamp c dom k true w
    let honest := w.dom == dom && nuTimed w.code && !w.hit && !(s.overdue c w)
    let replaced := w.code != 63 && !(k == 0 && w.dom != dom)
    let s1 := if honest then s.report w.dom true else if replaced && s.broken c w then s.report w.dom false else s
    s1.putSet l key (ageSet (Store.set set i w1) i)
  | none =>
    let i := s.victim l c set dom
    let s1 := match Store.find? set i with
      | some v => (if s.broken c v then s.report v.dom false else s).evict l cache v
      | none => s
    let indef := (set.filter (fun e => e.2.dom == dom && e.2.code == 63)).length
    let d := s.heldDomain c dom
    let k1 := if k == 63 && Nat.min d.indef (quotaOf d l) ≤ indef then 62 else k
    s1.putSet l key (ageSet (Store.set set i (s1.stamp c dom k1 false { line := line })) i)

/-- A level holds a line. -/
def holdsLine (s : State) (l : CacheLevel) (cache line : Nat) : Bool :=
  (Store.get [] (s.setsOf l) (setKey l cache line)).any (fun e => e.2.line == line)

/-- Data of a location comes from its Dahlia die: its home slice does not hold the line (R399). -/
def isFar (s : State) (l : Loc) : Bool :=
  match l with
  | .glob pa => deviceOf pa == s.dev && !s.holdsLine .l2 0 (lineOf pa)
  | .scr _ _ => false

/-- `tval` of the machine check for a poisoned block that a slot receives from its home (R399). -/
def poisonTval (s : State) (sid : Nat) (l : Loc) : Word :=
  s.tvalOf sid l false (s.isFar l)

/-- An access of a line with a next-use code passes the levels of its path (R247): the L1 where `l1` names a cache, the L2
slice unless the L1 alone served the access (R386, R387), the LLC unless the L2 slice held the line. -/
def touch (s : State) (l1 : Option Nat) (served : Bool) (dom line k : Nat) : State :=
  if deviceOf (1024 * line) != s.dev then s
  else
    let s1 := match l1 with
      | some c => s.touchLevel .l1 c line dom k
      | none => s
    if served then s1
    else
      let s2 := s1.touchLevel .l2 0 line dom k
      if s1.holdsLine .l2 0 line then s2 else s2.touchLevel .llc 0 line dom k

/-- An access of global ranges updates each line once (R252): `served` tells the ranges that the L1 alone serves. -/
def passCaches (s : State) (l1 : Option Nat) (dom k : Nat) (rs : List (Nat × Nat)) (served : Nat → Nat → Bool) : State :=
  let lines := (rs.flatMap (fun r => linesOf r.1 r.2)).eraseDups
  lines.foldl (fun t line =>
    t.touch l1 ((rs.filter (fun r => (linesOf r.1 r.2).contains line)).all (fun r => served r.1 r.2)) dom line k) s

/-- `nurel` on a line in every governed cache of the module, each by its own copy of the clock (R261). -/
def release (s : State) (line dom k : Nat) : State :=
  let f (c : Nat) (w : Way) : Way :=
    if w.line == line && w.code == 63 && w.dom == dom then
      { w with code := k, hit := false
               due := if nuTimed k then ((s.heldDomain c dom).clock.toNat + nuDistance k) % 2 ^ 24 else 0 }
    else w
  let g (no : Nat → Nat) (m : Store (Store Way)) : Store (Store Way) :=
    m.map (fun e => (e.1, List.map (fun x => (x.1, f (no e.1) x.2)) e.2))
  { s with l1Sets := g (· / 64) s.l1Sets, l2Sets := g (fun n => 8192 + n / 256) s.l2Sets
           llcSets := g (fun n => 16384 + n / 4096) s.llcSets }

/-- Every indefinite line that satisfies a test becomes code 0 (R257, R422). -/
def unpin (s : State) (p : Way → Bool) : State :=
  let f (w : Way) : Way := if w.code == 63 && p w then { w with code := 0 } else w
  let g (m : Store (Store Way)) : Store (Store Way) := m.map (fun e => (e.1, List.map (fun x => (x.1, f x.2)) e.2))
  { s with l1Sets := g s.l1Sets, l2Sets := g s.l2Sets, llcSets := g s.llcSets }

/-- The home adds an advance to a clock, modulo 2^24 (R249). -/
def clockAdd (s : State) (dom n : Nat) : State :=
  s.updDomain dom (fun d => { d with clock := d.clock + BitVec.ofNat 24 n })

/-- A clock message of the slot on the domain, numbered below k, is still in flight (R249). -/
def clockBefore (s : State) (k sid dom : Nat) : Bool :=
  s.flight.any (fun e => e.1 < k && (match e.2 with
    | .clock t d _ => t == sid && d == dom
    | .quota t _ d _ _ => t == sid && d == dom
    | _ => false))

/-- A slot posts an advance of its domain's clock: at once, or in flight, as behind an earlier operation (R249, R258). -/
def postClock (s : State) (sid n : Nat) : State :=
  let dom := (s.slotAt sid).csr.nud.toNat
  if s.lag || s.clockBefore s.nextMsg sid dom then s.enqueue (.clock sid dom n) else s.clockAdd dom n

/-- The quota word of a domain, with its clock and honesty: the value of `nuq` (R260). -/
def quotaWord (s : State) (dom : Nat) : Word :=
  let d := s.domainAt dom
  BitVec.ofNat 64 (d.clock.toNat * 2 ^ 30 + d.honesty.toNat * 2 ^ 26 + d.indef * 2 ^ 22 + d.llc * 2 ^ 17 +
    d.l2 * 2 ^ 12 + d.l1 * 2 ^ 8 + dom)

/-- A field of `nuq`, taken into 1 to its level's ways (R260). -/
def clampQuota (x top : Nat) : Nat := if x < 1 then 1 else if top < x then top else x

/-- Write the quotas of a domain (R260, log 11). -/
def setQuota (s : State) (dom : Nat) (w : Word) : State :=
  let x := w.toNat
  s.updDomain dom (fun d =>
    { d with
      indef := Nat.min 8 (bits x 25 22), llc := clampQuota (bits x 21 17) 24
      l2 := clampQuota (bits x 16 12) 16, l1 := clampQuota (bits x 11 8) 8 })

end State
end Sys2Proof.Machine
end

