-- ==== Sys2Proof/Machine/Regs.lean ====
section
/-! DEFINITION. The registers of a slot (R93 to R101), each read and written in one place: g0 reads zero, p0 reads
true, v32 to v63 rotate, dead registers read free values. -/

namespace Sys2Proof.Machine

namespace Slot

/-- A general register; g0 reads zero (R93). -/
def gr (s : Slot) (n : Nat) : Word := if n = 0 then 0 else Store.get 0 s.g n
/-- Write a general register; a write to g0 is discarded (R93). -/
def setG (s : Slot) (n : Nat) (x : Word) : Slot := if n = 0 then s else { s with g := Store.set s.g n x }

/-- A predicate; p0 reads true (R93). -/
def pr (s : Slot) (n : Nat) : Bool := if n = 0 then true else s.p.getLsbD n
/-- Write a predicate; a write to p0 is discarded (R93). -/
def setP (s : Slot) (n : Nat) (b : Bool) : Slot :=
  if n = 0 then s
  else { s with p := (s.p &&& ~~~((1 : BitVec 8) <<< n)) ||| (if b then (1 : BitVec 8) <<< n else 0) }

/-- A loop counter. -/
def lcr (s : Slot) (k : Nat) : Word := Store.get 0 s.lc k
/-- Write a loop counter. -/
def setLc (s : Slot) (k : Nat) (x : Word) : Slot := { s with lc := Store.set s.lc k x }

/-- The physical register that a v field names (R95). -/
def physV (s : Slot) (n : Nat) : Nat := if n < 32 then n else 32 + (n - 32 + s.csr.vrb.toNat) % 32

/-- Eight descriptors from a function of the block number. -/
def packDesc (f : Nat → BitVec 16) : BitVec 128 :=
  BitVec.ofNat 128 ((List.range 8).foldl (fun x b => x + (f b).toNat * 2 ^ (16 * b)) 0)

/-- A physical vector register; a dead one reads a free value, which is no poison (R63, R11, log 4). -/
def vphys (s : Slot) (n : Nat) : VReg :=
  match Store.find? s.v n with
  | some x => x
  | none => { lanes := Config.deadVector s.epoch n, desc := packDesc (fun b =>
      let d := Config.deadDescriptor s.epoch n b
      if State.isPoison d then 0 else d) }

/-- A physical vector register that the task has not written: its values raise no trap (R63, R11). -/
def isDead (s : Slot) (n : Nat) : Bool := (Store.find? s.v n).isNone

/-- A vector register by its field. -/
def vr (s : Slot) (n : Nat) : VReg := s.vphys (s.physV n)
/-- Write a physical vector register. -/
def setVphys (s : Slot) (n : Nat) (x : VReg) : Slot := { s with v := Store.set s.v n x }

/-- A mask; a dead one reads a free value (R63, log 4). -/
def mr (s : Slot) (n : Nat) : BitVec 1024 := (Store.find? s.m n).getD (Config.deadMask s.epoch n)
/-- Write a mask; what it held before, poison included, is gone. -/
def setM (s : Slot) (n : Nat) (x : BitVec 1024) : Slot :=
  { s with m := Store.set s.m n x, mPoison := s.mPoison &&& ~~~((1 : BitVec 8) <<< n) }

/-- An accumulator element (R198). -/
def accEl (s : Slot) (a i j : Nat) : Nat := (Store.get 0 s.acc (a * 4096 + 64 * i + j)).toNat
/-- Replace every element of accumulator `a`: element n is 64 i + j. -/
def mapAcc (s : Slot) (a : Nat) (f : Nat → Nat) : Slot :=
  let new : Store (BitVec 32) := (List.range 4096).filterMap (fun n =>
    let x := BitVec.ofNat 32 (f n)
    if x == 0 then none else some (a * 4096 + n, x))
  { s with acc := s.acc.filter (fun e => e.1 < a * 4096) ++ new ++ s.acc.filter (fun e => a * 4096 + 4096 ≤ e.1) }

/-- OR flags into `fflags` (R97). -/
def orFlags (s : Slot) (f : BitVec 5) : Slot := { s with csr := { s.csr with fflags := s.csr.fflags ||| f } }

/-- A completing operation's write. -/
def applyWrite (s : Slot) : RegWrite → Slot
  | .g n x => s.setG n x
  | .p n b => s.setP n b
  | .v n x => s.setVphys n x
  | .m n x => s.setM n x
  | .flags f => s.orFlags f

/-- All the writes of a completing operation. -/
def applyWrites (s : Slot) (l : List RegWrite) : Slot := l.foldl applyWrite s

/-- Record a deferred machine check: it is reported after those recorded before it (R111, log 66). -/
def defer (s : Slot) (d : Deferred) : Slot := { s with deferred := s.deferred ++ [d] }

/-- Take off one hold of an acquire in flight (R223, R287). -/
def unhold (s : Slot) : Slot := { s with holds := s.holds.erase .acqLoad }

/-- A counter (R101). -/
def ctr (s : Slot) : Ctr → BitVec 6
  | .ld => s.cnt.ld | .st => s.cnt.st | .rpe => s.cnt.rpe | .rdi => s.cnt.rdi | .rpk => s.cnt.rpk
  | .rfa => s.cnt.rfa | .cp => s.cnt.cp | .tl => s.cnt.tl

/-- Change a counter. -/
def updCtr (s : Slot) (c : Ctr) (f : BitVec 6 → BitVec 6) : Slot :=
  { s with cnt := match c with
    | .ld => { s.cnt with ld := f s.cnt.ld } | .st => { s.cnt with st := f s.cnt.st }
    | .rpe => { s.cnt with rpe := f s.cnt.rpe } | .rdi => { s.cnt with rdi := f s.cnt.rdi }
    | .rpk => { s.cnt with rpk := f s.cnt.rpk } | .rfa => { s.cnt with rfa := f s.cnt.rfa }
    | .cp => { s.cnt with cp := f s.cnt.cp } | .tl => { s.cnt with tl := f s.cnt.tl } }

/-- Raise a counter at issue. -/
def inc (s : Slot) (c : Ctr) : Slot := s.updCtr c (· + 1)
/-- Lower a counter when the operation is performed. -/
def dec (s : Slot) (c : Ctr) : Slot := s.updCtr c (fun x => if x == 0 then 0 else x - 1)

/-- A counter at 63 holds the issue of what would raise it (R101). -/
def full (s : Slot) (c : Ctr) : Bool := s.ctr c == 63

/-- S of R116: the store counters together. -/
def stores (s : Slot) : Nat :=
  s.cnt.st.toNat + s.cnt.rpe.toNat + s.cnt.rdi.toNat + s.cnt.rpk.toNat + s.cnt.rfa.toNat

/-- Every counter is 0. -/
def quiet (s : Slot) : Bool := s.cnt == {}

/-- Loop level k. -/
def level (s : Slot) (k : Nat) : Level := Store.get {} s.loops k
/-- Replace loop level k. -/
def setLevel (s : Slot) (k : Nat) (l : Level) : Slot := { s with loops := Store.set s.loops k l }
/-- Close level k: its entries are freed and its bits cleared (R140). -/
def closeLevel (s : Slot) (k : Nat) : Slot :=
  { s with loops := Store.set s.loops k {}, order := s.order.filter (· != k) }
/-- Close level k and every level opened after it (R140, R143). -/
def closeFrom (s : Slot) (k : Nat) : Slot :=
  if s.order.contains k then
    ((s.order.takeWhile (· != k)) ++ [k]).foldl closeLevel s
  else s

/-- The slots of a body, from its start to its end (R140). -/
def Level.size (l : Level) : Nat :=
  (l.stop.toNat / 64 - l.start.toNat / 64) * 5 + l.stop.toNat % 8 + 1 - l.start.toNat % 8

/-- Loop-buffer entries of a captured level (R140). -/
def Level.entries (l : Level) : Nat := if l.body.isEmpty then 0 else Level.size l

/-- Loop-buffer entries that are free for level j: what closed levels still hold and what the levels opened before it
fill is taken (R106, log 13). -/
def room (s : Slot) (j : Nat) : Nat :=
  let held := (([0, 1, 2] : List Nat).filter (fun k => k != j && !s.order.contains k)).foldl
    (fun x k => x + Level.entries (s.level k)) 0
  ((s.order.dropWhile (· != j)).drop 1).reverse.foldl
    (fun r k => if Level.size (s.level k) ≤ r then r - Level.size (s.level k) else r) (256 - held)

/-- `lpst` (R98). -/
def lpst (s : Slot) : Word :=
  let b (f : Level → Bool) (at_ : Nat) : Nat :=
    (List.range 3).foldl (fun x k => x + if f (s.level k) then 2 ^ (at_ + k) else 0) 0
  let used := (List.range 3).foldl (fun x k => x + Level.entries (s.level k)) 0
  BitVec.ofNat 64 (used * 2 ^ 16 + b (·.tick) 9 + b (·.rot) 6 + b (·.cap) 3 + b (·.act) 0)

end Slot

/-- The address of the next instruction: the next slot, or slot 0 of the next line after slot 4 (R107). -/
def nextPc (pc : Word) : Word :=
  if pc.toNat % 8 == 4 then BitVec.ofNat 64 (pc.toNat / 64 * 64 + 64) else pc + 1

/-- The line of a code address (R22). -/
def lineOfPc (pc : Word) : Word := BitVec.ofNat 64 (pc.toNat / 64 * 64)
/-- The slot of a code address (R22). -/
def slotOfPc (pc : Word) : Nat := pc.toNat % 8

/-- A code address: bits 5:3 zero, slot 0 to 4 (R54). -/
def codeAddr (a : Word) : Bool := a.toNat / 8 % 8 == 0 && a.toNat % 8 ≤ 4

namespace State

/-- A general register of the issuing slot. -/
def g (s : State) (n : Nat) : Word := s.slot.gr n
/-- Write a general register of the issuing slot. -/
def setG (s : State) (n : Nat) (x : Word) : State := s.upd (fun t => t.setG n x)
/-- A predicate of the issuing slot. -/
def p (s : State) (n : Nat) : Bool := s.slot.pr n
/-- Write a predicate of the issuing slot. -/
def setP (s : State) (n : Nat) (b : Bool) : State := s.upd (fun t => t.setP n b)
/-- OR flags into the issuing slot's `fflags`. -/
def orFlags (s : State) (f : BitVec 5) : State := s.upd (fun t => t.orFlags f)
/-- The address of the issuing slot's instruction. -/
def pc (s : State) : Word := s.slot.pc

/-- Record a deferred machine check of the task in a slot (R111). -/
def deferAt (s : State) (sid : Nat) (tval addr : Word) : State :=
  if (s.slotAt sid).run == .idle then s else s.updSlot sid (fun t => t.defer { tval := tval, addr := addr })

/-- The core's cache of the issuing slot. -/
def cache (s : State) : Nat := s.cacheOf s.cur

/-- A general register awaits a result in flight (R104). -/
def gBusy (s : State) (sid n : Nat) : Bool :=
  let sl := s.slotAt sid
  n != 0 && (
    s.flight.any (fun e => match e.2 with
      | .load o => o.sid == sid && (match o.dest with | .g m _ => m == n | .desc m => m == n | _ => false)
      | .atom o => o.sid == sid && o.dest == n
      | .cell o => o.sid == sid && (match o.arg with | .inr m => m == n | .inl _ => false)
      | .quota t d _ _ l => l && t == sid && d == n
      | .result t w _ => t == sid && w.any (fun x => match x with | .g m _ => m == n | _ => false)
      | _ => false) ||
    sl.vq.any (fun l => l.any (fun w => match w with | .g m _ => m == n | _ => false)) ||
    sl.pq.any (fun a => match a.i with
      | .qget _ m _ | .qnext m | .qstop m | .qstat m _ | .pcol m _ | .pcolAt m _ _ | .pcolrFr m _ | .pdec m _
      | .pprop m | .pbt m _ | .prow m _ | .ptrl m _ | .pconf m | .plvl m | .pset m _ | .pstat m _ => m.val == n
      | _ => false))

/-- A physical vector register awaits a result in flight (R104). -/
def vBusy (s : State) (sid n : Nat) : Bool :=
  let sl := s.slotAt sid
  s.flight.any (fun e => match e.2 with
    | .load o => o.sid == sid && (match o.dest with | .vblocks m _ _ _ => m == n | .vlanes m _ => m == n | _ => false)
    | _ => false) ||
  sl.vq.any (fun l => l.any (fun w => match w with | .v m _ => m == n | _ => false)) ||
  sl.mq.any (fun a => a.dst.contains n) || sl.pq.any (fun a => a.dst.contains n)

/-- A predicate awaits a result in flight (R104, R286). -/
def pBusy (s : State) (sid n : Nat) : Bool :=
  n != 0 && (
    s.flight.any (fun e => match e.2 with
      | .queue t _ _ d => t == sid && d == some n
      | .result t w _ => t == sid && w.any (fun x => match x with | .p m _ => m == n | _ => false)
      | _ => false) ||
    (s.slotAt sid).vq.any (fun l => l.any (fun w => match w with | .p m _ => m == n | _ => false)))

/-- A mask awaits a vector result (R104). -/
def mBusy (s : State) (sid n : Nat) : Bool :=
  (s.slotAt sid).vq.any (fun l => l.any (fun w => match w with | .m k _ => k == n | _ => false))

end State
end Sys2Proof.Machine
end

