-- ==== Sys2Proof/Machine/Tasks.lean ====
section
/-! DEFINITION. Tasks: records and continuations (R59 to R66), ready lists (R281 to R284), waiters and wakes (R76,
R229, R273, R287), join cells (R75 to R79), teams (R268 to R277), allocations (R216, R217, R87). -/

namespace Sys2Proof.Machine

/-- Replace bits hi down to lo of a number. -/
def putBits (x hi lo v : Nat) : Nat :=
  x - bits x hi lo * 2 ^ lo + v % 2 ^ (hi + 1 - lo) * 2 ^ lo

namespace Head

/-- Flags fields of a head (R61). -/
def state (h : Head) : Nat := bits h.flags.toNat 3 0
def kind (h : Head) : Nat := bits h.flags.toNat 5 4
def prio (h : Head) : Nat := bits h.flags.toNat 8 6
def pinned (h : Head) : Bool := h.flags.getLsbD 9
def rentry (h : Head) : Bool := h.flags.getLsbD 10
def spec (h : Head) : Bool := h.flags.getLsbD 11
def lclive (h : Head) : Nat := bits h.flags.toNat 14 12
def pred (h : Head) : Nat := bits h.flags.toNat 23 17
def version (h : Head) : Nat := bits h.flags.toNat 31 28
def wake (h : Head) : Nat := bits h.dom.toNat 15 8
def domain (h : Head) : Nat := bits h.dom.toNat 7 0
def phase (h : Head) : Nat := bits h.tail.toNat 63 56
def idx (h : Head) : Nat := bits h.tail.toNat 39 0

/-- Change a flags field. -/
def setFlags (h : Head) (hi lo v : Nat) : Head := { h with flags := BitVec.ofNat 32 (putBits h.flags.toNat hi lo v) }
/-- Change the state field. -/
def setState (h : Head) (n : Nat) : Head := h.setFlags 3 0 n
/-- Change the wake kind and address. -/
def setWake (h : Head) (k : Nat) (a : Word) : Head :=
  { h with dom := BitVec.ofNat 32 (putBits h.dom.toNat 15 8 k), wakeAddr := a }

/-- The 64 bytes of a head (R60). -/
def bytes (h : Head) : List Byte :=
  leBytes h.pc.toNat 8 ++ leBytes h.live.toNat 8 ++ leBytes h.flags.toNat 4 ++ leBytes h.team.toNat 4 ++
  leBytes h.key.toNat 8 ++ leBytes h.tail.toNat 8 ++ leBytes h.scratch.toNat 4 ++ leBytes h.dom.toNat 4 ++
  leBytes h.wakeAddr.toNat 8 ++ leBytes h.parent.toNat 8

/-- The head of 64 bytes (R60). -/
def ofBytes (b : List Byte) : Head :=
  let f (o n : Nat) : Nat := leNat ((b.drop o).take n)
  { pc := BitVec.ofNat 64 (f 0 8), live := BitVec.ofNat 64 (f 8 8), flags := BitVec.ofNat 32 (f 16 4)
    team := BitVec.ofNat 32 (f 20 4), key := BitVec.ofNat 64 (f 24 8), tail := BitVec.ofNat 64 (f 32 8)
    scratch := BitVec.ofNat 32 (f 40 4), dom := BitVec.ofNat 32 (f 44 4)
    wakeAddr := BitVec.ofNat 64 (f 48 8), parent := BitVec.ofNat 64 (f 56 8) }

/-- Registers of the live set (R62). -/
def liveCount (h : Head) : Nat := Instr.popLow h.live.toNat 64 + Instr.popLow h.lclive 3

/-- The live set is legal and reserved fields are zero (R61, R62, R84). -/
def reservedOk (h : Head) : Bool :=
  h.live.toNat % 2 == 0 && h.liveCount ≤ 16 &&
  bits h.flags.toNat 27 24 == 0 && bits h.flags.toNat 16 15 == 0 && bits h.team.toNat 31 22 == 0 &&
  bits h.tail.toNat 55 40 == 0 && bits h.dom.toNat 31 16 == 0

/-- The scratch allocation obeys R61. -/
def scratchOk (h : Head) : Bool :=
  let base := h.scratch.toNat % 65536
  let size := h.scratch.toNat / 65536
  base * 4 + size ≤ 256 && (size != 0 || base == 0)

end Head

namespace Slot

/-- Registers that a live set names, ascending g then lc, with their values now (R62). -/
def liveVals (s : Slot) (gin : Word) (lcin : Nat) : List Word :=
  ((List.range 64).filter (fun n => n != 0 && gin.getLsbD n)).map s.gr ++
  ((List.range 3).filter (fun k => lcin.testBit k)).map s.lcr

/-- Load a live block into the registers (R62, R63). -/
def loadLive (s : Slot) (live : Word) (lclive : Nat) (vals : List Word) : Slot :=
  let gs := (List.range 64).filter (fun n => n != 0 && live.getLsbD n)
  let ls := (List.range 3).filter (fun k => lclive.testBit k)
  let s1 := (gs.zip vals).foldl (fun t x => t.setG x.1 x.2) s
  (ls.zip (vals.drop gs.length)).foldl (fun t x => t.setLc x.1 x.2) s1

/-- A released slot: only the count of instructions, the free-value epoch and the debugger's arming stay. While a matrix
or port instruction that was accepted has still to complete (R103, R365), the slot keeps what these instructions use. -/
def released (s : Slot) : Slot :=
  if s.mq.isEmpty && s.pq.isEmpty then
    { csr := { ins := s.csr.ins }, epoch := s.epoch, armed := s.armed, icopy := s.icopy }
  else { s with
    run := .idle, head := { s.head with team := 0 }, vq := [], spin := none, after := none, expired := false, deferred := [], holds := []
    preReq := false, rcheck := false, engFault := none, pass := false, counted := false, cnt := {} }

end Slot

namespace State

/-- Physical address of an aligned record part. -/
def recordPa (s : State) (core launch : Nat) (a : Word) (k : Access) : Option Nat :=
  match s.translate core launch a k with
  | .ok pa => some pa
  | .error _ => none

/-- A record's head and live block, as read at its home (R60, R62). -/
def readRecord (s : State) (core : Nat) (r : RecId) : Option (Head × List Word) :=
  match r.pool with
  | some (pkg, i) => Store.find? (s.clusterAt pkg).pool i
  | none =>
    match s.recordPa core r.launch r.addr .load with
    | none => none
    | some pa =>
      let h := Head.ofBytes ((s.settleRange pa 64).peekBytes pa 64)
      if h.live.toNat / 2 == 0 && h.lclive == 0 then some (h, [])
      else
        let w (i : Nat) : Option Word :=
          (s.recordPa core r.launch (r.addr + BitVec.ofNat 64 (64 + 8 * i)) .load).map
            (fun p => BitVec.ofNat 64 (leNat ((s.settleRange p 8).peekBytes p 8)))
        ((List.range 16).mapM w).map (fun l => (h, l))

/-- Write a record: its head, and its live block when there is one (R59, R62). `none` when a part cannot be written
(R92). -/
def writeRecord (s : State) (core : Nat) (r : RecId) (h : Head) (vals : List Word) : Option State :=
  match r.pool with
  | some (pkg, i) => some (s.updCluster pkg (fun c => { c with pool := Store.set c.pool i (h, vals) }))
  | none =>
    match s.recordPa core r.launch r.addr .store with
    | none => none
    | some pa =>
      if vals.isEmpty then some (s.writeHome pa h.bytes)
      else
        match s.recordPa core r.launch (r.addr + 64) .store, s.recordPa core r.launch (r.addr + 128) .store with
        | some p1, some p2 =>
          let b := ((vals ++ List.replicate 16 0).take 16).flatMap (fun (x : Word) => leBytes x.toNat 8)
          some (((s.writeHome pa h.bytes).writeHome p1 (b.take 64)).writeHome p2 (b.drop 64))
        | _, _ => none

/-- Tell the firmware or the front end. -/
def tell (s : State) (r : Report) : State := { s with reports := r :: s.reports }

/-- A walk that met a malformed entry is reported to firmware (R420). -/
def noteMalformed (s : State) (core launch : Nat) (va : Word) : State :=
  if va.toNat / 2 ^ 32 != 0xFFFFFF00 && canonical va.toNat && (s.lookup core launch va.toNat).1 == .bad
    then s.tell (.malformed launch va) else s

/-- An address that cannot be used: its walker keeps what the walk read, and a malformed entry is reported (R420, R421). -/
def failedWalk (s : State) (core launch : Nat) (va : Word) : State :=
  (s.tlbFill core launch va).noteMalformed core launch va

/-- A record that cannot be read or written (R92): its address is walked again for the report of R420. -/
def failedRecord (s : State) (core : Nat) (r : RecId) : State :=
  if r.pool.isSome then s
  else ([0, 64, 128] : List Nat).foldl (fun t o => t.failedWalk core r.launch (r.addr + BitVec.ofNat 64 o)) s

/-- Firmware is told of a record that cannot be read or written (R92). -/
def lostRecord (s : State) (core : Nat) (r : RecId) (sid : Nat) : State := (s.failedRecord core r).tell (.contFault r sid)

/-- Hold a slot for firmware (R92). -/
def hold (s : State) (sid : Nat) (r : Report) : State := (s.updSlot sid (fun t => { t with run := .held })).tell r

/-- A fatal continuation-store fault holds the slot (R92). -/
def holdRecord (s : State) (sid : Nat) (r : RecId) : State := (s.failedRecord (coreOf sid) r).hold sid (.contFault r sid)

/-- A message in flight of a task that leaves its slot: loads and registrations are abandoned, the others go on and
no longer report to the slot (R103, R71). -/
def orphanMsg (sid : Nat) : Msg → Option Msg
  | .load o => if o.sid == sid then none else some (.load o)
  | .store o => some (.store (if o.sid == sid then { o with ctr := none } else o))
  | .atom o => some (.atom (if o.sid == sid then { o with dest := 0, live := false } else o))
  | .red o => some (.red (if o.sid == sid then { o with ctr := none } else o))
  | .cell o => match o.arg with
    | .inl _ => some (.cell (if o.sid == sid then { o with ctr := none } else o))
    | .inr _ => if o.sid == sid then none else some (.cell o)
  | .quota t d m w l => some (.quota t d m w (l && t != sid))
  | .reg t k x va g l => if t == sid then none else some (.reg t k x va g l)
  | .snap t b f n va c => if t == sid then none else some (.snap t b f n va c)
  | .queue t q x d => some (.queue t q x (if t == sid then none else d))
  | .result t w a => if t == sid then none else some (.result t w a)
  | m => some m

/-- Release a slot, which stands free from now on (R282): what its task has under way counts there no more. -/
def releaseSlot (s : State) (sid : Nat) : State :=
  let r := (s.slotAt sid).rid
  let s1 := s.updSlot sid (fun t => { t.released with freed := s.nonce })
  { s1 with
    flight := s1.flight.filterMap (fun e => (orphanMsg sid e.2).map (fun m => (e.1, m)))
    streams := s1.streams.map (fun e =>
      if e.2.rid == r then (e.1, { e.2 with todo := e.2.todo.map (fun x => (x.1, false)) }) else e)
    copies := s1.copies.map (fun e => if e.2.sid == sid then (e.1, { e.2 with live := false }) else e) }

/-- Release the slot of an aborted task: what its engines had accepted is abandoned (R334, R71). -/
def dropSlot (s : State) (sid : Nat) : State := (s.updSlot sid (fun t => { t with mq := [], pq := [] })).releaseSlot sid

/-- The head of a continuation of the slot's task (R61): where it resumes, its live set, predicates, state, wake. -/
def contHead (sl : Slot) (pc gin : Word) (lcin pred : Nat) (rentry : Bool) (state wk : Nat) (wa : Word) : Head :=
  let h := sl.head
  let live : Nat := if gin.toNat % 2 == 0 then gin.toNat else gin.toNat - 1
  let fl := putBits (putBits (putBits (putBits h.flags.toNat 3 0 state) 10 10 (if rentry then 1 else 0)) 14 12 lcin)
    23 17 pred
  { h with
    pc := pc, live := BitVec.ofNat 64 live
    flags := BitVec.ofNat 32 fl
    dom := BitVec.ofNat 32 (wk % 256 * 256 + sl.csr.nud.toNat)
    wakeAddr := wa }

/-- Write a continuation of the slot's task; a failure holds the slot (R92). The flag says whether it was written. -/
def writeCont (s : State) (sid : Nat) (h : Head) (vals : List Word) : State × Bool :=
  match s.writeRecord (coreOf sid) (s.slotAt sid).rid h vals with
  | some t => (t, true)
  | none => (s.holdRecord sid (s.slotAt sid).rid, false)

/-! ### Ready lists -/

/-- The core to which a task is bound: that of its allocation (R281). -/
def boundTo (s : State) (r : RecId) : Option Nat := (s.allocOf r).map (·.core)

/-- A task enters the ready lists of a cluster at a level (R281, R283). -/
def enterReady (s : State) (pkg : Nat) (r : RecId) (h : Head) (resumed : Bool) : State :=
  let c := s.clusterAt pkg
  let e : Ready := {
    rid := r, level := h.prio, timed := h.kind == 2
    key := (h.key.toNat, h.phase, h.idx), bound := s.boundTo r
    fresh := h.scratch.toNat / 65536 != 0 && (s.allocOf r).isNone
    seq := c.seq, since := c.seq, resumed := resumed }
  s.updCluster pkg (fun c => { c with ready := c.ready ++ [e], seq := c.seq + 1 })

/-- A waiting task becomes ready: wake kind and address are cleared, state 1 (R61, R65). One whose record cannot be reached is
dropped (log 72). -/
def makeReady (s : State) (w : Waiter) : State :=
  let core := w.pkg * 8
  match s.readRecord core w.rid with
  | none => s.failedRecord core w.rid
  | some (h, vals) =>
    let h1 := (h.setState 1).setWake 0 0
    match s.writeRecord core w.rid h1 (if w.rid.pool.isSome then vals else []) with
    | none => s.failedRecord core w.rid
    | some t => t.enterReady w.pkg w.rid h1 true

/-- Wake every waiter that satisfies a test; its registration is cleared (R76, R229). -/
def wake (s : State) (p : Waiter → Bool) : State :=
  (s.waiters.filter p).foldl makeReady { s with waiters := s.waiters.filter (fun w => !p w) }

/-- Register a waiter. -/
def register (s : State) (w : Waiter) : State := { s with waiters := s.waiters ++ [w] }

/-! ### Full/empty tags -/

/-- Set a word's tag full and wake those who wait for it (R229). -/
def fillWord (s : State) (c o : Nat) : State :=
  (s.setTag c o true).wake (fun w => w.kind == 1 && w.key == scrKey c o / 4)

/-- Set a word's tag empty and wake those who wait for it (R229). -/
def drainWord (s : State) (c o : Nat) : State :=
  (s.setTag c o false).wake (fun w => w.kind == 2 && w.key == scrKey c o / 4)

/-! ### Join cells (R75, R76) -/

/-- The doubleword of a cell at its home. -/
def cellAt (s : State) (pa : Nat) : Nat := leNat ((s.settle (lineOf pa)).peekBytes pa 8)

/-- Write the doubleword of a cell at its home. -/
def setCell (s : State) (pa x : Nat) : State := s.writeHome pa (leBytes x 8)

/-- The cell after an increment (R76). -/
def cellInc (x : Nat) : Nat :=
  if x % 2 ^ 40 == 2 ^ 40 - 1 then putBits x 62 62 1 else x + 1

/-- The cell after an arrival of amount n (R76). -/
def cellArr (x n : Nat) : Nat :=
  if x % 2 ^ 40 < n then putBits (x - x % 2 ^ 40) 63 63 1 else x - n

/-- An increment at the home. -/
def incCell (s : State) (pa : Nat) : State := s.setCell pa (cellInc (s.cellAt pa))

/-- An arrival at the home; at count 0 every registered task becomes ready (R76). -/
def arriveCell (s : State) (pa n : Nat) : State :=
  let x := cellArr (s.cellAt pa) n
  let t := s.setCell pa x
  if x % 2 ^ 40 == 0 then t.wake (fun w => w.kind == 3 && w.key == pa) else t

/-! ### Allocations (R216, R217, R87) -/

/-- A range of 4 KiB units on a core holds no allocation. -/
def rangeFree (s : State) (core base size : Nat) : Bool :=
  base * 4 + size ≤ 256 &&
  s.allocs.all (fun a => a.core != core || a.base * 4 + a.size ≤ base * 4 || base * 4 + size ≤ a.base * 4)

/-- The lowest free range that holds a size (R87). -/
def lowestFree (s : State) (core size : Nat) : Option Nat :=
  (List.range 64).find? (fun b => s.rangeFree core b size)

/-- An allocation is assigned: its bytes read zero, its tags empty, its descriptors 0x0000 (R217). -/
def assign (s : State) (r : RecId) (core base size : Nat) : State :=
  let lo := scrKey core (base * 4096)
  let hi := lo + size * 1024
  { s with
    allocs := s.allocs ++ [⟨r, core, base, size⟩]
    scr := s.scr.filter (fun e => e.1 < lo || hi ≤ e.1)
    tags := s.tags.filter (fun e => e.1 < lo / 4 || hi / 4 ≤ e.1)
    scrDesc := s.scrDesc.filter (fun e => e.1 < lo / 64 || hi / 64 ≤ e.1) }

/-- Wake the waiters that other tasks parked on the words of an allocation whose window closes (R216, R278). -/
def closeWindow (s : State) (r : RecId) : State :=
  match s.allocOf r with
  | none => s
  | some a =>
    let lo := scrKey a.core (a.base * 4096) / 4
    s.wake (fun w => (w.kind == 1 || w.kind == 2) && lo ≤ w.key && w.key < lo + a.size * 256 && w.rid != r)

/-- An allocation is released; the streams whose rings it holds are cancelled (R416). -/
def freeAlloc (s : State) (r : RecId) : State :=
  let t := s.closeWindow r
  { t with allocs := t.allocs.filter (fun a => a.rid != r), streams := t.streams.filter (fun e => e.2.rid != r) }

/-! ### Teams (R268 to R277) -/

/-- A member is live: in the members mask and not faulted (R273). -/
def liveMember (t : Team) (m : Nat) : Bool := t.members.getLsbD m && !t.faulted.getLsbD m

/-- Live member slots. -/
def liveMembers (t : Team) : List Nat := (List.range 64).filter (liveMember t)

/-- Lead of a member. -/
def leadOf (t : Team) (m : Nat) : Nat := Store.get 0 t.lead m

/-- Phases complete while every live member has a lead (R273). -/
def advance : Nat → Team → Team × Bool
  | 0, t => (t, false)
  | n + 1, t =>
    let l := liveMembers t
    if !l.isEmpty && l.all (fun m => 1 ≤ leadOf t m) then
      let t1 := { t with phase := t.phase + 1, lead := l.foldl (fun x m => Store.set x m (leadOf t m - 1)) t.lead }
      ((advance n t1).1, true)
    else (t, false)

/-- Change a team of a cluster, then apply R273; a team without members is dissolved (R268). -/
def updTeam (s : State) (pkg id : Nat) (f : Team → Team) : State :=
  match (s.clusterAt pkg).teams.find? (fun t => t.id == id) with
  | none => s
  | some t =>
    let t0 := f t
    let (t1, done) := advance (t0.lead.foldl (fun n e => n + e.2) 1) t0
    let keep := if t1.members == 0 then [] else [t1]
    let s1 := s.updCluster pkg (fun c => { c with teams := c.teams.flatMap (fun x => if x.id == id then keep else [x]) })
    if done then s1.wake (fun w => w.kind == 4 && w.pkg == pkg && w.key == id) else s1

/-- The table drops member m of a team, whose record is r (R272). -/
def dropMember (s : State) (pkg id m : Nat) (r : RecId) : State :=
  let bit : BitVec 64 := (1 : BitVec 64) <<< m
  (s.closeWindow r).updTeam pkg id (fun x =>
    { x with members := x.members &&& ~~~bit, faulted := x.faulted &&& ~~~bit
             lead := Store.erase x.lead m, recs := Store.erase x.recs m })

/-- The slot's task leaves its team (R272). -/
def leaveTeam (s : State) (sid : Nat) : State :=
  match s.teamOf sid with
  | none => s
  | some (t, m) =>
    (s.dropMember (pkgOf sid) t.id m (s.slotAt sid).rid).updSlot sid (fun x => { x with head := { x.head with team := 0 } })

/-- Member m of a team is faulted (R277). -/
def faultSlotOf (s : State) (pkg id m : Nat) : State :=
  s.updTeam pkg id (fun x => { x with faulted := x.faulted ||| ((1 : BitVec 64) <<< m) })

/-- The member that runs in a slot is faulted (R277). -/
def faultMember (s : State) (sid : Nat) : State :=
  match s.teamOf sid with
  | none => s
  | some (t, m) => s.faultSlotOf (pkgOf sid) t.id m

/-- The places of a record in the team tables: cluster, team, member slot. -/
def memberships (s : State) (r : RecId) : List (Nat × Nat × Nat) :=
  s.clusters.flatMap (fun c => c.2.teams.flatMap (fun t => t.recs.filterMap (fun m =>
    if m.2 == r && t.members.getLsbD m.1 then some (c.1, t.id, m.1) else none)))

/-- The member with a record is faulted, wherever it waits (R277). -/
def faultRecord (s : State) (r : RecId) : State :=
  (s.memberships r).foldl (fun t x => t.faultSlotOf x.1 x.2.1 x.2.2) s

/-! ### Starting a task (R63, R68, R73, R87, R100) -/

/-- A slot starts or resumes the task of a record. The record's state becomes 2; a record that cannot be
reached holds the slot (log 72). -/
def startTask (s : State) (sid : Nat) (r : RecId) (resumed fresh : Bool) : State :=
  let core := coreOf sid
  match s.readRecord core r with
  | none => s.holdRecord sid r
  | some (h0, vals) =>
    let size := h0.scratch.toNat / 65536
    let base := if fresh then (s.lowestFree core size).getD 0 else h0.scratch.toNat % 65536
    let s1 := if fresh then s.assign r core base size else s
    let team : BitVec 32 := if resumed then h0.team else 0
    let h : Head := { (h0.setState 2) with team := team, scratch := BitVec.ofNat 32 (size * 65536 + base) }
    match s1.writeRecord core r { h0.setState 2 with scratch := h.scratch } (if r.pool.isSome then vals else []) with
    | none => s1.holdRecord sid r
    | some s2 =>
      let old := s2.slotAt sid
      let pred := BitVec.ofNat 8 (h.pred * 2 + 1)
      let sl0 : Slot := {
        run := .running, rid := r, head := h, pc := h.pc, p := pred
        epoch := s2.nonce, armed := old.armed, icopy := old.icopy, tkey := h.key
        csr := { tvec := (s2.launchAt r.launch).tvec, nud := BitVec.ofNat 8 h.domain, ins := old.csr.ins }
        region := { pc := h.pc, gin := h.live, lcin := BitVec.ofNat 3 h.lclive
                    vals := vals.take h.liveCount, pred := pred, isRgn := h.rentry, inst := s2.nonce }
        rcheck := h.rentry }
      let sl := sl0.loadLive h.live h.lclive vals
      let s3 := s2.setSlot sid sl
      ({ s3 with nonce := s3.nonce + 1 }).selfInvalidate (s3.cacheOf sid)

/-- The ready entries that a core may take now: its bound list and the cluster's queue, without those whose fresh
allocation does not fit (R282, R87). -/
def takeable (s : State) (core : Nat) : List Ready :=
  (s.clusterAt (core / 8)).ready.filter (fun e => match e.bound with
    | some k => k == core
    | none => !e.fresh || match s.readRecord core e.rid with
      | some (h, _) => (s.lowestFree core (h.scratch.toNat / 65536)).isSome
      | none => true)

/-- Order within a sub-list: timestamped by key, others by entry (R281). -/
def goesBefore (a b : Ready) : Bool :=
  if a.timed then
    a.key.1 < b.key.1 || (a.key.1 == b.key.1 && (a.key.2.1 < b.key.2.1 ||
      (a.key.2.1 == b.key.2.1 && (a.key.2.2 < b.key.2.2 || (a.key.2.2 == b.key.2.2 && a.seq < b.seq)))))
  else a.seq < b.seq

/-- The head of a sub-list. -/
def headOf : List Ready → Option Ready
  | [] => none
  | e :: t => some (t.foldl (fun b x => if goesBefore x b then x else b) e)

/-- The entry a free slot of a core takes (R282), with the key of its list and level and its sub-list. -/
def choose (s : State) (core : Nat) : Option (Ready × Nat) :=
  let l := s.takeable core
  match (List.range 8).reverse.find? (fun p => l.any (fun e => e.level == p)) with
  | none => none
  | some p =>
    let here := l.filter (fun e => e.level == p)
    let mine := here.filter (fun e => e.bound.isSome)
    let (list, key) := if mine.isEmpty then (here, p) else (mine, (core % 8 + 1) * 8 + p)
    let plain := list.filter (fun e => !e.timed)
    let timed := list.filter (fun e => e.timed)
    let tookTimed := Store.get true (s.clusterAt (core / 8)).took key
    let sub := if plain.isEmpty then timed else if timed.isEmpty then plain
      else if tookTimed then plain else timed
    (headOf sub).map (fun e => (e, key))

end State
end Sys2Proof.Machine
end

