-- ==== Sys2Proof/Machine/Lark.lean ====
section
/-! DEFINITION. Larkspur's records and times (R290 to R296), the versions of a variable and its due crossings (R301,
R304). Every formula is computed as an exact dyadic number or quotient and rounded where the manual says. -/

namespace Sys2Proof.Machine

/-! ### Keys (R322) -/

/-- Lexicographic order on the first three parts of a key. -/
def lt3 (a b : Nat × Nat × Nat) : Bool :=
  a.1 < b.1 || (a.1 == b.1 && (a.2.1 < b.2.1 || (a.2.1 == b.2.1 && a.2.2 < b.2.2)))

/-- The first three parts of a key. -/
def key3 (k : Key) : Nat × Nat × Nat := (k.t, k.phase, k.idx)

/-- The order on full keys (R322). -/
def keyLt (a b : Key) : Bool :=
  lt3 (key3 a) (key3 b) || (key3 a == key3 b &&
    (a.tie.1 < b.tie.1 || (a.tie.1 == b.tie.1 && a.tie.2 < b.tie.2)))

/-- The order on held keys, where `none` is all ones. -/
def keyLtO (a b : Option Key) : Bool :=
  match a, b with
  | none, _ => false
  | some _, none => true
  | some x, some y => keyLt x y

/-- The lesser of two held keys. -/
def keyMin (a b : Option Key) : Option Key := if keyLtO b a then b else a

/-! ### Exact numbers -/

/-- A dyadic number: integer times a power of two. -/
abbrev Dy := Int × Int

namespace Dy
def add (a b : Dy) : Dy := Num.dyAdd a.1 a.2 b.1 b.2
def neg (a : Dy) : Dy := (-a.1, a.2)
def sub (a b : Dy) : Dy := add a (neg b)
def mul (a b : Dy) : Dy := (a.1 * b.1, a.2 + b.2)
/-- Round to the nearest f64, ties to even (R293). -/
def rn64 (a : Dy) : Nat := (Num.roundInt Num.f64 .rne false a.1 a.2).1
/-- The quotient of two dyadic numbers, the second nonzero, rounded to f64 (R293). -/
def div64 (rm : Num.Rm) (a b : Dy) : Nat :=
  if a.1 == 0 then 0
  else
    let k := 70 + Nat.log2 b.1.natAbs
    let n := a.1.natAbs * 2 ^ k
    (Num.round Num.f64 rm ((a.1 < 0) != (b.1 < 0)) (n / b.1.natAbs) (a.2 - b.2 - k) (n % b.1.natAbs != 0)).1
/-- The ceiling of a quotient of positive dyadic numbers. -/
def ceilDiv (a b : Dy) : Nat :=
  let e := a.2 - b.2
  let n := if 0 ≤ e then a.1.natAbs * 2 ^ e.toNat else a.1.natAbs
  let d := if 0 ≤ e then b.1.natAbs else b.1.natAbs * 2 ^ (-e).toNat
  (n + d - 1) / d
end Dy

/-- The value of an f64 pattern when it is finite. -/
def f64Dy (x : Nat) : Option Dy :=
  match Num.unpack Num.f64 x with
  | .fin n s e => some (Num.sg n s, e)
  | _ => none

/-- The value of an f32 pattern when it is finite. -/
def f32Dy (x : Nat) : Option Dy :=
  match Num.unpack Num.f32 x with
  | .fin n s e => some (Num.sg n s, e)
  | _ => none

/-- The value, or 0 where it is none. -/
def dyOr0 (x : Option Dy) : Dy := x.getD (0, 0)

/-! ### Records (R290, R291) -/

namespace Var

def method (v : Var) : Nat := v.mf.toNat % 16
def defined (v : Var) : Bool := v.mf.getLsbD 4
def nan (v : Var) : Bool := v.mf.getLsbD 5
def isHeld (v : Var) : Bool := v.mf.getLsbD 6
def storm (v : Var) : Nat := v.mf.toNat / 256

/-- Set the fields storm, held, nan of the method-and-flags word. -/
def setFlags (v : Var) (storm : Nat) (held nan : Bool) : Var :=
  let m := v.mf.toNat % 32
  { v with mf := BitVec.ofNat 16 (m + (if nan then 32 else 0) + (if held then 64 else 0) + storm % 256 * 256) }

/-- The time that means never. -/
def never : Word := 0xFFFFFFFFFFFFFFFF

/-- Elapsed model time (R293). -/
def elapsed (h : Word) (v : Var) (t : Nat) : Dy := Dy.mul ((t : Int) - v.tx.toNat, 0) (dyOr0 (f64Dy h.toNat))

/-- The sum of terms some of which are not finite, under IEEE 754 (R294). -/
def ieeeSum (l : List Nat) : Nat :=
  let vs := l.map (Num.unpack Num.f64)
  let inf (n : Bool) : Bool := vs.any (fun v => v == .inf n)
  if vs.any Num.Val.isNan || (inf true && inf false) then Num.f64.qnan
  else Num.f64.sgn (inf true) + Num.f64.inf

/-- A polynomial in the elapsed time: the first coefficient, then the others in order (R294). -/
def poly (h : Word) (v : Var) (t : Nat) (c0 : Word) (cs : List Word) : Word :=
  if t == v.tx.toNat then c0
  else
    let l := c0 :: cs
    if l.all (fun c => (f64Dy c.toNat).isSome) then
      let d := elapsed h v t
      let (sum, _) := cs.foldl (fun (acc : Dy × Dy) c =>
        (Dy.add acc.1 (Dy.mul (dyOr0 (f64Dy c.toNat)) acc.2), Dy.mul acc.2 d)) (dyOr0 (f64Dy c0.toNat), d)
      BitVec.ofNat 64 (Dy.rn64 sum)
    else BitVec.ofNat 64 (ieeeSum (l.map (·.toNat)))

/-- x(t) (R294). -/
def xAt (h : Word) (v : Var) (t : Nat) : Word :=
  poly h v t v.x (if v.method == 1 then [v.d1, v.d2] else [v.d1])

/-- q(t) (R294). -/
def qAt (h : Word) (v : Var) (t : Nat) : Word :=
  if v.method == 1 then poly h v t v.q [v.d1] else v.q

/-- The time to the crossing, as an f64 pattern; `none` for a slope that never crosses (R296). -/
def crossTime (v : Var) (q x d1 d2 dq : Dy) : Option Nat :=
  if v.method == 1 then
    if d2.1 == 0 then none
    else
      let e := Dy.sub x q
      let c := if 0 < d2.1 then Dy.sub dq e else Dy.sub (Dy.neg dq) e
      if (0 < c.1) == (0 < d2.1) && c.1 != 0 then
        some (Num.sqrtV Num.f64 .rup (Num.unpack Num.f64 (Dy.div64 .rup c d2))).1
      else some 0
  else if d1.1 == 0 then none
  else
    let out := if 0 < d1.1 then Dy.add q dq else Dy.sub q dq
    let gap := Dy.sub q x
    let b := if v.method == 2 && gap.1 != 0 && ((0 < gap.1) == (0 < d1.1)) then q else out
    some (Dy.div64 .rup (Dy.sub b x) d1)

/-- NEXT(v) (R296): the record with its next crossing, its storm count and its flags. The new state's crossing is not
released. -/
def next (h : Word) (v : Var) : Var :=
  let v := { v with rel := false }
  match f64Dy v.q.toNat, f64Dy v.x.toNat, f64Dy v.d1.toNat, f64Dy v.d2.toNat with
  | some q, some x, some d1, d2? =>
    if v.method != 0 && d2?.isNone then { (v.setFlags v.storm v.isHeld true) with tn := never }
    else
      match crossTime v q x d1 (dyOr0 d2?) (dyOr0 (f32Dy v.dq.toNat)) with
      | none => { (v.setFlags 0 v.isHeld false) with tn := never }
      | some dt =>
        let n := match Num.unpack Num.f64 dt with
          | .fin neg s e => if neg || s == 0 then 0 else Dy.ceilDiv (s, e) (dyOr0 (f64Dy h.toNat))
          | .inf neg => if neg then 0 else 2 ^ 64
          | .nan _ => 0
        let lo := Nat.max v.dtmin.toNat 1
        let storm := if n < lo then v.storm + 1 else 0
        let n := if n < lo then lo else n
        if storm == 255 then { (v.setFlags 255 true false) with tn := never }
        else { (v.setFlags storm v.isHeld false) with tn := BitVec.ofNat 64 (Nat.min (v.tx.toNat + n) (2 ^ 64 - 1)) }
  | _, _, _, _ => { (v.setFlags v.storm v.isHeld true) with tn := never }

/-- The advance of `qslope`, `qset` and `qstorm` to t (R314). -/
def advance (h : Word) (v : Var) (t : Nat) : Var :=
  { v with x := v.xAt h t, q := v.qAt h t, tx := BitVec.ofNat 64 t }

/-- q after a LIQSS1 crossing (R295). -/
def liqss (v : Var) (xc : Word) : Word :=
  match f64Dy v.q.toNat, f64Dy xc.toNat, f64Dy v.d1.toNat, f64Dy v.d2.toNat with
  | some q, some x, some d1, some a =>
    let dq := dyOr0 (f32Dy v.dq.toNat)
    let sp := Dy.add d1 (Dy.mul a (Dy.sub (Dy.add x dq) q))
    let sm := Dy.add d1 (Dy.mul a (Dy.sub (Dy.sub x dq) q))
    BitVec.ofNat 64 (
      if 0 ≤ sp.1 then Dy.rn64 (Dy.add x dq)
      else if sm.1 ≤ 0 then Dy.rn64 (Dy.sub x dq)
      else Dy.div64 .rne (Dy.sub (Dy.mul q a) d1) a)
  | _, _, _, _ => if (Num.unpack Num.f64 xc.toNat).isNan then BitVec.ofNat 64 Num.f64.qnan else xc

/-- A crossing at t (R295). -/
def cross (h : Word) (v : Var) (t : Nat) : Var :=
  let xc := v.xAt h t
  let q := if v.method == 2 then v.liqss xc else xc
  Var.next h { v with q := q, x := xc, tx := BitVec.ofNat 64 t }

/-- The 64 bytes of a record, read into fields (R290). -/
def ofBytes (b : List Byte) : Var :=
  let f (o n : Nat) : Nat := leNat ((b.drop o).take n)
  { q := BitVec.ofNat 64 (f 0 8), x := BitVec.ofNat 64 (f 8 8), d1 := BitVec.ofNat 64 (f 16 8)
    d2 := BitVec.ofNat 64 (f 24 8), tx := BitVec.ofNat 64 (f 32 8), tn := BitVec.ofNat 64 (f 40 8)
    dq := BitVec.ofNat 32 (f 48 4), dtmin := BitVec.ofNat 32 (f 52 4), fn := BitVec.ofNat 16 (f 56 2)
    mf := BitVec.ofNat 16 (f 58 2), dep := BitVec.ofNat 32 (f 60 4) }

end Var

/-- A positive normal finite f32 (R312). -/
def dqOk (x : Nat) : Bool := 0x00800000 ≤ x && x < 0x7F800000

/-- A positive, finite, normal f64 (R310). -/
def tickOk (x : Nat) : Bool := 0x0010000000000000 ≤ x && x < 0x7FF0000000000000

/-! ### Versions and due crossings (R301, R304) -/

namespace Lark

/-- The committed record of a variable. -/
def var (l : Lark) (v : Nat) : Var := Store.get {} l.vars v

/-- Insert a version in key order. -/
def insertVersion (x : Version) : List Version → List Version
  | [] => [x]
  | y :: t => if keyLt x.key y.key then x :: y :: t else y :: insertVersion x t

/-- The versions of a variable, lowest key first. -/
def versionsOf (l : Lark) (v : Nat) : List Version := l.versions.filter (fun x => x.var == v)

/-- The newest state below a key, or the writer's own (R304): the version's owner, and the record. -/
def readVersion (l : Lark) (v : Nat) (k : Key) (own : Option Nat) : Option Nat × Var :=
  match ((l.versionsOf v).filter (fun x => keyLt x.key k || some x.owner == own)).getLast? with
  | some x => (some x.owner, x.val)
  | none => (none, l.var v)

/-- The surviving states of a variable, oldest first: the owner of each version, and the record. -/
def states (l : Lark) (v : Nat) : List (Option Nat × Var × Option Key) :=
  (none, l.var v, none) :: (l.versionsOf v).map (fun x => (some x.owner, x.val, some x.key))

/-- Due crossings of a list of states of one variable: the state that yields each, and its time (R301). `byCrossing`
says that a version's owner is the crossing task of a state. -/
def dueOf (id : Nat) (byCrossing : Nat → Option Nat → Bool) :
    List (Option Nat × Var × Option Key) → List (Option Nat × Nat × Bool)
  | [] => []
  | (o, v, _) :: t =>
    let cand : List (Option Nat × Nat × Bool) := if v.tn == Var.never then [] else [(o, v.tn.toNat, v.rel)]
    let due := match t with
      | [] => cand
      | (some w, _, some k) :: _ =>
        if lt3 (v.tn.toNat, 0, id) (key3 k) || ((v.tn.toNat, 0, id) == key3 k && byCrossing w o) then cand else []
      | _ => cand
    due ++ dueOf id byCrossing t

/-- Mark the crossing of a state released or not. -/
def markReleased (l : Lark) (v : Nat) (of : Option Nat) (b : Bool) : Lark :=
  match of with
  | none => { l with vars := Store.set l.vars v { l.var v with rel := b } }
  | some w => { l with versions := l.versions.map (fun x =>
      if x.var == v && x.owner == w then { x with val := { x.val with rel := b } } else x) }

/-- A counter of `qstat` (R318). -/
def bump (l : Lark) (n : Nat) : Lark := { l with stat := Store.set l.stat n (Store.get 0 l.stat n + 1) }

end Lark

/-- The id of a local variable (R292). -/
def varId (dev pkg l : Nat) : Nat := (dev * 1024 + pkg) * 2 ^ 14 + l

end Sys2Proof.Machine
end

