-- ==== Sys2Proof/Machine/Aster.lean ====
section
/-! DEFINITION. Aster (R322 to R336): entries, commit buffers and read sets, aborts and their cascades, commits, the
horizon. -/

namespace Sys2Proof.Machine

/-- Bytes of a number from lowest bit set. -/
def blockOf (pa : Nat) : Nat := pa / 64

/-- The first three parts of the key of a head (R322). -/
def Head.key3 (h : Head) : Nat × Nat × Nat := (h.key.toNat, h.phase, h.idx)

namespace State

/-- The target value of a cluster of this module (R85). -/
def targetOf (s : State) (pkg : Nat) : Nat := s.dev * 1024 + pkg

/-- The full key of an entry (R322). -/
def entryKey (s : State) (pkg : Nat) (e : Entry) : Key :=
  ⟨e.head.key.toNat, e.head.phase, e.head.idx, (s.targetOf pkg, e.id)⟩

/-- An entry by its serial number. -/
def entryAt (s : State) (pkg id : Nat) : Option Entry := (s.clusterAt pkg).entries.find? (fun e => e.id == id)

/-- Change an entry. -/
def updEntry (s : State) (pkg id : Nat) (f : Entry → Entry) : State :=
  s.updCluster pkg (fun c => { c with entries := c.entries.map (fun e => if e.id == id then f e else e) })

/-- The entry of the task that runs in a slot. -/
def entryOf (s : State) (sid : Nat) : Option Entry :=
  let r := (s.slotAt sid).rid
  if (s.slotAt sid).run == .idle then none
  else (s.clusterAt (pkgOf sid)).entries.find? (fun e => e.rid == r && e.st == .running)

/-- The task of a slot runs speculatively (R61, R336). -/
def specAt (s : State) (sid : Nat) : Bool := (s.slotAt sid).head.spec

/-- The task of a slot is timestamped (R64). -/
def timedAt (s : State) (sid : Nat) : Bool := (s.slotAt sid).head.kind == 2

/-- Every entry of the module, with its cluster. -/
def allEntries (s : State) : List (Nat × Entry) := s.clusters.flatMap (fun c => c.2.entries.map (fun e => (c.1, e)))

/-- Higher-key readers of a block (R333). -/
def readersOf (s : State) (block : Nat) (k : Key) : List (Nat × Nat) :=
  (s.allEntries.filter (fun x =>
    !x.2.firm && (Store.find? x.2.reads block).isSome && keyLt k (s.entryKey x.1 x.2))).map (fun x => (x.1, x.2.id))

/-- The debugger holds a cluster's Aster before its next commit (R371). -/
def commitHeld (c : Cluster) : Bool := c.commitStop == some 0

/-- Change a cluster's Larkspur. -/
def updLark (s : State) (pkg : Nat) (f : Lark → Lark) : State := s.updCluster pkg (fun c => { c with lark := f c.lark })

/-- A version's owner is the crossing task of a state of the variable. -/
def byCrossing (c : Cluster) (v w : Nat) (of : Option Nat) : Bool :=
  c.entries.any (fun e => e.id == w && e.ev == .crossing v of)

/-- The due crossings of a variable of a cluster (R301). -/
def dueOf (s : State) (pkg v : Nat) : List (Option Nat × Nat × Bool) :=
  let c := s.clusterAt pkg
  Lark.dueOf (varId s.dev pkg v) (byCrossing c v) (c.lark.states v)

/-- A released crossing is still due (R301). -/
def stillDue (s : State) (pkg : Nat) (e : Entry) : Bool :=
  match e.ev with
  | .crossing v of => (s.dueOf pkg v).any (fun d => d.1 == of && d.2.1 == e.head.key.toNat)
  | _ => true

/-- Released crossings that ceased to be due, to be withdrawn (R301). -/
def undue (s : State) (pkg : Nat) : List (Nat × Nat × Bool) :=
  ((s.clusterAt pkg).entries.filter (fun e => !e.firm && !s.stillDue pkg e)).map (fun e => (pkg, e.id, true))

/-- A record returns to its handler pool. -/
def freePool (s : State) (r : RecId) : State :=
  match r.pool with
  | some (pkg, i) => s.updCluster pkg (fun c => { c with pool := Store.erase c.pool i, poolBad := c.poolBad.filter (· != i) })
  | none => s

/-- Remove an entry. -/
def dropEntry (s : State) (pkg id : Nat) : State :=
  s.updCluster pkg (fun c => { c with entries := c.entries.filter (fun e => e.id != id) })

/-- The slot that runs a record. -/
def slotRunning (s : State) (r : RecId) : Option Nat :=
  (List.find? (fun (e : Nat × Slot) => e.2.run != .idle && e.2.rid == r) s.slots).map (·.1)

/-- Write the state field of a record, leaving its live block (R65); a record that cannot be reached stays as it is (log 72). -/
def writeState (s : State) (pkg : Nat) (r : RecId) (n : Nat) : State :=
  match s.readRecord (pkg * 8) r with
  | some (h, vals) => (s.writeRecord (pkg * 8) r (h.setState n) (if r.pool.isSome then vals else [])).getD s
  | none => s

/-- A task that nothing aborts (R336, R343): it is irrevocable, or it runs at the key L. -/
def isFirm (s : State) (pkg : Nat) (e : Entry) : Bool :=
  e.firm || (e.st == .running && (s.clusterAt pkg).ll == some (s.entryKey pkg e))

/-- Requests of a list of entries no longer hold the re-evaluations that wait for a record; those that lose their last one
are gone (R305). -/
def withdrawPending (l : List PendingEvent) (id : Nat) : List PendingEvent :=
  l.filterMap (fun p => match p.ev with
    | .reeval v by_ firm =>
      let left := by_.filter (· != id)
      if left.isEmpty && firm == 0 && by_.contains id then none else some { p with ev := .reeval v left firm }
    | _ => some p)

/-- Abort one task (R334 steps 1 to 6, up to its restart), with the aborts that follow from it. An irrevocable task
is never aborted (R336); a spilled one has nothing to undo. -/
def abortOne (s : State) (pkg id : Nat) (withdraw : Bool) : State × List (Nat × Nat × Bool) :=
  match s.entryAt pkg id with
  | none => (s, [])
  | some e =>
    if s.isFirm pkg e || (e.st == .aborted && !withdraw) then (s, [])
    else if e.st == .spilled && !withdraw then
      (s.updEntry pkg id (fun e => { e with restarts := Nat.min 65535 (e.restarts + 1) }), [])
    else
      let k := s.entryKey pkg e
      let s1 := match (if e.st == .running then s.slotRunning e.rid else none) with
        | some sid => s.dropSlot sid
        | none => s
      let pend := if e.st == .done || e.st == .committing
        then e.buf.flatMap (fun b => (s.readersOf b.1 k).map (fun r => (r.1, r.2, false))) else []
      let c := s1.clusterAt pkg
      let vread := (c.entries.filter (fun x => !x.firm && x.qreads.any (fun q => q.2 == some id))).map
        (fun x => (pkg, x.id, false))
      let lost := (c.entries.filter (fun x => !x.firm && (match x.ev with
        | .reeval _ by_ firm => by_ == [id] && firm == 0
        | _ => false))).map (fun x => (pkg, x.id, true))
      let s2 := (s1.freeAlloc e.rid).updCluster pkg (fun c =>
        { c with
          ready := c.ready.filter (fun r => r.rid != e.rid)
          lark := { c.lark with versions := c.lark.versions.filter (fun v => v.owner != id)
                                pending := withdrawPending c.lark.pending id }
          entries := c.entries.map (fun x => match x.ev with
            | .reeval v by_ firm => { x with ev := .reeval v (by_.filter (· != id)) firm }
            | _ => x) })
      let s3 := if e.ev == .other || e.st == .aborted then s2 else s2.updLark pkg (fun l => l.bump 3)
      let gone := withdraw || e.gone
      let s4 := s3.updEntry pkg id (fun e =>
        { e with st := .aborted, buf := [], reads := [], qreads := [], held := [], events := [], gone := gone,
                 restarts := Nat.min 65535 (e.restarts + 1) })
      let s5 := s4.writeState pkg e.rid 7
      let s6 := if gone then
          let t := (s5.dropEntry pkg id).freePool e.rid
          match e.ev with
          | .crossing v of => t.updLark pkg (fun l => l.markReleased v of false)
          | _ => t
        else s5
      (s6, pend ++ vread ++ lost ++ s6.undue pkg)

/-- Abort tasks and everything that follows (R333, R334). -/
def abortAll : Nat → List (Nat × Nat × Bool) → State → State
  | 0, _, s => s
  | _, [], s => s
  | n + 1, (p, i, w) :: t, s =>
    let (s1, more) := s.abortOne p i w
    abortAll n (t ++ more) s1

/-- A timestamped task enters the ready queue; a late one only when every late task that arrived before it has committed
(R330). -/
def enterTimed (s : State) (pkg : Nat) (e : Entry) : State :=
  if e.late && (s.clusterAt pkg).entries.any (fun x => x.late && x.id < e.id) then s
  else s.enterReady pkg e.rid e.head false

/-- The restart of an aborted task: its original continuation with state 1, in the ready queue at its key (R334). -/
def restart (s : State) (pkg id : Nat) : State :=
  match s.entryAt pkg id with
  | none => s
  | some e =>
    if e.st == .aborted && (!e.pause || (s.clusterAt pkg).ll == some (s.entryKey pkg e)) then
      match s.writeRecord (pkg * 8) e.rid e.head e.vals with
      | none => s.lostRecord (pkg * 8) e.rid (pkg * 16)
      | some s1 => (s1.updEntry pkg id (fun e => { e with st := .ready, pause := false })).enterTimed pkg e
    else s

/-- The held H falls at once to the key of a task that this Aster aborts (R329). -/
def lowerH (s : State) (pkg : Nat) (k : Key) : State :=
  s.updCluster pkg (fun c => { c with hh := keyMin c.hh (some k) })

/-- Entries in use (R324, R340): spilled tasks hold none. -/
def entriesUsed (c : Cluster) : Nat := (c.entries.filter (fun e => e.st != .spilled)).length

/-- A spilled task re-enters when an entry frees, lowest key first (R324). -/
def unspill (s : State) (pkg : Nat) : State :=
  let c := s.clusterAt pkg
  if entriesUsed c < 512 then
    match (c.entries.filter (fun e => e.st == .spilled)).foldl (fun (b : Option Entry) e => match b with
        | none => some e
        | some x => if keyLt (s.entryKey pkg e) (s.entryKey pkg x) then some e else b) none with
    | some e => (s.updEntry pkg e.id (fun e => { e with st := .ready })).enterTimed pkg e
    | none => s
  else s

/-- Abort a list of tasks, count them, and restart them at once unless the step leaves that to its events. The tasks
named are counted as `conflict` says, what follows from them as cascades (R340). -/
def abortList (s : State) (l : List (Nat × Nat × Bool)) (conflict : Bool) : State :=
  let total := s.allEntries.length + 1
  let s1 := abortAll (total * total + l.length) l s
  let hit := s.allEntries.filter (fun x => x.2.st != .aborted && match s1.entryAt x.1 x.2.id with
    | none => true
    | some y => y.st == .aborted)
  let s2 := hit.foldl (fun t x =>
    (t.updCluster x.1 (fun c => { c with aster :=
      if (conflict || !(l.any (fun y => y.1 == x.1 && y.2.1 == x.2.id))) then { c.aster with conflicts := c.aster.conflicts + 1 }
      else { c.aster with others := c.aster.others + 1 } })).lowerH x.1 (s.entryKey x.1 x.2)) s1
  let s3 := hit.foldl (fun t x => t.unspill x.1) s2
  if s.lag then s3 else hit.foldl (fun t x => t.restart x.1 x.2.id) s3

/-- Before a write to a block by a task of key `k` is performed, every higher-key reader of the block is aborted
(R332, R336). -/
def abortReaders (s : State) (block : Nat) (k : Key) : State :=
  let l := s.readersOf block k
  if l.isEmpty then s else s.abortList (l.map (fun r => (r.1, r.2, false))) true

/-- The highest key held in an entry, with its serial number. -/
def highest (s : State) (pkg : Nat) : Option (Key × Nat) :=
  ((s.clusterAt pkg).entries.filter (fun e => e.st != .spilled && !e.firm)).foldl (fun b e =>
    let k := s.entryKey pkg e
    match b with
    | none => some (k, e.id)
    | some (m, i) => if keyLt m k then some (k, e.id) else some (m, i)) none

/-! ### Least keys (R328) -/

/-- The combination of two reports (R329). -/
def minReport (a b : Option Key × Option Key) : Option Key × Option Key := (keyMin a.1 b.1, keyMin a.2 b.2)

/-- Least key of a list. -/
def leastKey (l : List Key) : Option Key := l.foldl (fun b k => keyMin b (some k)) none

/-- A key in flight, with the least tie (R328). -/
def flightKey (k : Nat × Nat × Nat) : Key := ⟨k.1, k.2.1, k.2.2, (0, 0)⟩

/-- The least unreleased crossing of a running Larkspur at or below the end (R301, R328). -/
def leastCrossing (s : State) (pkg : Nat) : Option (Nat × Nat × Option Nat) :=
  let l := (s.clusterAt pkg).lark
  if l.run != 1 then none
  else
    let cands := l.vars.flatMap (fun v =>
      if v.2.defined then
        ((s.dueOf pkg v.1).filter (fun d => !d.2.2 && d.2.1 ≤ l.end_.toNat)).map (fun d => (d.2.1, v.1, d.1))
      else [])
    cands.foldl (fun (b : Option (Nat × Nat × Option Nat)) x => match b with
      | none => some x
      | some y => if x.1 < y.1 || (x.1 == y.1 && x.2.1 < y.2.1) then some x else b) none

/-- The least keys that a cluster reports: of work not yet speculative-done, and of work not yet committed (R328). A held
child stands behind every task that has arrived. -/
def clusterLeast (s : State) (pkg : Nat) : Option Key × Option Key :=
  let c := s.clusterAt pkg
  let es := c.entries.filter (fun e => !e.late)
  let open_ := (es.filter (fun e => e.st != .done && e.st != .committing)).map (s.entryKey pkg)
  let children := es.flatMap (fun e => (e.held.filter (·.timed)).map (fun p =>
    ⟨p.key.1, p.key.2.1, p.key.2.2, (s.targetOf pkg, c.serial)⟩))
  let msgs := s.flight.filterMap (fun m => match m.2 with
    | .place p => if p.timed && pkgOf p.sid == pkg then some (flightKey p.key) else none
    | .event src v t => if src == pkg then some (flightKey (t, 1, v)) else none
    | _ => none)
  let away := s.unacked.filterMap (fun e => if e.2.1 == pkg then some (flightKey e.2.2) else none)
  let seeds := s.launches.filterMap (fun l => match l.2.sent with
    | some (p, k) => if p == pkg && l.2.st == .dispatching then some (flightKey k) else none
    | none => none)
  let pend := c.lark.pending.map (fun p => flightKey p.key)
  let cross := match s.leastCrossing pkg with
    | some (t, v, _) => [flightKey (t, 0, varId s.dev pkg v)]
    | none => []
  let h := leastKey (open_ ++ children ++ msgs ++ away ++ seeds ++ pend ++ cross)
  let done := (es.filter (fun e => e.st == .done || e.st == .committing)).map (s.entryKey pkg)
  (h, keyMin h (leastKey done))

/-- The least key of the module's work that is not speculative-done as it stands, whatever the clusters have received, with
the event messages that uncommitted tasks hold (R323, R328). -/
def openLeast (s : State) : Option Key :=
  s.clusters.foldl (fun a c => keyMin (keyMin a (s.clusterLeast c.1).1)
    (leastKey (c.2.entries.flatMap (fun e => e.events.map (fun m => flightKey (m.2, 1, m.1)))))) none

/-- Work that arrives at a cluster joins the values that the combiners have already taken, so that no sample loses what
moves between two dies (R329). -/
def sampleArrival (s : State) (pkg : Nat) (k : Key) : State :=
  let d := pkg / 96
  { s with
    dieKeys := if (Store.find? s.dieKeys d).isSome
      then Store.set s.dieKeys d (minReport (Store.get (none, none) s.dieKeys d) (some k, some k)) else s.dieKeys
    pkgKeys := minReport s.pkgKeys (some k, some k) }

/-- The task with the highest key gives up its entry (R324): it is aborted, and its original continuation is restored in
the spill ring. -/
def evictEntry (s : State) (pkg id : Nat) : State :=
  let s1 := s.abortList [(pkg, id, false)] false
  match s1.entryAt pkg id with
  | none => s1
  | some e =>
    let s2 := (s1.writeRecord (pkg * 8) e.rid e.head e.vals).getD s1
    s2.updCluster pkg (fun c =>
      { c with entries := c.entries.map (fun x => if x.id == id then { x with st := .spilled } else x)
               ready := c.ready.filter (fun x => x.rid != e.rid) })

/-- Aster accepts a record (R324, R330): a copy of it is kept, and it becomes ready. A record of a sender that is not
timestamped is late when its key lies below the H held. While that H lies above open work of a lower key, it is out of
date, and the record waits (log 64). `none` when it must wait. -/
def accept (s : State) (pkg : Nat) (r : RecId) (ev : Event) (seeded : Bool) : Option State :=
  match s.readRecord (pkg * 8) r with
  | none => some (s.lostRecord (pkg * 8) r (pkg * 16))
  | some (h0, vals) =>
    let h : Head := { h0 with team := 0, scratch := BitVec.ofNat 32 (h0.scratch.toNat / 65536 * 65536) }
    let c := s.clusterAt pkg
    let k : Key := ⟨h.key.toNat, h.phase, h.idx, (s.targetOf pkg, c.serial)⟩
    let late := c.hh.isSome && seeded && keyLtO (some k) c.hh
    let e : Entry := { id := c.serial, rid := r, head := h.setState 1, vals := vals, st := .ready, late := late, ev := ev }
    let add (s : State) : State :=
      let t := (s.updCluster pkg (fun c => { c with entries := c.entries ++ [e], serial := c.serial + 1 })).enterTimed pkg e
      if late then t else t.sampleArrival pkg k
    if late && !keyLtO (some k) s.openLeast then none
    else if entriesUsed c < 512 then some (add s)
    else match s.highest pkg with
      | some (m, i) =>
        if keyLt k m then some (add (s.evictEntry pkg i)) else none
      | none => none

/-! ### Commit (R331, R332) -/

/-- An arrival of amount 1 at a join cell of a launch (R76): `none` when it cannot be made. -/
def arriveOne (s : State) (core launch : Nat) (va : Word) : Option State :=
  if va.toNat / 2 ^ 32 == 0xFFFFFF00 || va.toNat % 8 != 0 then none
  else match s.translate core launch va .store with
    | .ok pa => some (s.arriveCell pa 1)
    | .error _ => none

/-- An arrival of a finished task at its parent join cell (R82, R332): `none` when it cannot be made. -/
def arriveParent (s : State) (core launch : Nat) (va : Word) : Option State :=
  if va == 0 then some s else s.arriveOne core launch va

/-- Write one buffered block at its home (R332 step 1): bytes under the mask, and the descriptor when one is held. -/
def writeBlock (s : State) (b : Nat) (x : BufBlock) : State :=
  let s1 := x.bytes.foldl (fun t e => t.writeHome (64 * b + e.1) [e.2]) (s.touch none false x.dom (b / 16) x.nu)
  match x.desc with
  | some d => { s1 with memDesc := Store.put 0 s1.memDesc b d }
  | none => s1

/-- Versions of a task become the committed records (R332 step 2, R304). -/
def commitVersions (s : State) (pkg id : Nat) : State :=
  s.updCluster pkg (fun c =>
    let mine := c.lark.versions.filter (fun v => v.owner == id)
    { c with
      lark := { c.lark with
        vars := mine.foldl (fun m v => Store.set m v.var v.val) c.lark.vars
        versions := c.lark.versions.filter (fun v => v.owner != id) }
      entries := c.entries.map (fun e =>
        { e with
          qreads := e.qreads.map (fun q => if q.2 == some id then (q.1, none) else q)
          ev := match e.ev with
            | .crossing v of => .crossing v (if of == some id then none else of)
            | .reeval v by_ firm =>
              if by_.contains id then .reeval v (by_.filter (· != id)) (firm + 1) else .reeval v by_ firm
            | .other => .other }) })

/-- The increment of a join cell is applied at its home (R77). -/
def countJoin (s : State) (p : Placement) : State :=
  if !p.cell then s
  else match s.translate (coreOf p.sid) p.launch p.join .store with
    | .ok pa => s.incCell pa
    | .error _ => s

/-- Held children and messages are released (R83): their increments are counted before the releasing task's arrival. -/
def releaseHeld (s : State) (l : List Placement) : State :=
  l.foldl (fun t p => (t.countJoin p).enqueue (.place { p with counted := true })) s

/-- A packet leaves a cluster for another module; one with a key counts there until it is acknowledged (R328, R303). -/
def sendAway (s : State) (pkg : Nat) (key : Option (Nat × Nat × Nat)) (p : Packet) : State :=
  let t : State := { s with outbox := s.outbox ++ [p] }
  match key with
  | some k => { t with unacked := Store.set t.unacked t.nextMsg (pkg, k), nextMsg := t.nextMsg + 1 }
  | none => t

/-- The event messages of a task of a cluster leave (R303): to a cluster of this module, or to another module. -/
def sendEvents (s : State) (pkg : Nat) (l : List (Nat × Nat)) : State :=
  l.foldl (fun t m =>
    if m.1 / 2 ^ 24 == t.dev then t.enqueue (.event pkg m.1 m.2)
    else t.sendAway pkg (some (m.2, 1, m.1)) (.event m.1 m.2)) s

/-- The next late task of a cluster, in arrival order, enters the ready queue (R330). -/
def nextLate (s : State) (pkg : Nat) : State :=
  match (s.clusterAt pkg).entries.find? (fun x => x.late) with
  | some x => if x.st == .ready then s.enterTimed pkg x else s
  | none => s

/-- A timestamped task that has committed, or finished irrevocably, leaves Aster: its counters, its record, the arrival
at its parent (R332 step 4, R82). `none` when the arrival cannot be made. -/
def finishEntry (s : State) (pkg : Nat) (e : Entry) (parent : Word) : Option State :=
  let k := s.entryKey pkg e
  let s1 := (s.dropEntry pkg e.id).updCluster pkg (fun c =>
    { c with
      aster := { c.aster with commits := c.aster.commits + 1 }
      commitStop := if c.stopLark && e.ev == .other then c.commitStop else c.commitStop.map (· - 1)
      entries := c.entries.map (fun x => if keyLt k (s.entryKey pkg x) then { x with pause := false } else x)
      lark := match e.ev with
        | .crossing _ _ => c.lark.bump 1
        | .reeval _ _ _ => c.lark.bump 2
        | .other => c.lark })
  let s2 := ((s1.freeAlloc e.rid).writeState pkg e.rid 0).freePool e.rid
  ((if e.late then s2.nextLate pkg else s2).arriveParent (pkg * 8) e.rid.launch parent).map (fun t => t.unspill pkg)

/-- A speculative-done task may commit (R331): its key below the H held, the least of its cluster, and no lower
uncommitted task holds a block of its read set or buffer. While the H held lies above open work of a lower key, the
commit waits: R323 does not let it come first (log 64). -/
def mayCommit (s : State) (pkg : Nat) (e : Entry) : Bool :=
  let k := s.entryKey pkg e
  !e.firm && (e.st == .done || e.st == .committing) && keyLtO (some k) (s.clusterAt pkg).hh && keyLtO (some k) s.openLeast &&
  !commitHeld (s.clusterAt pkg) &&
  (s.clusterAt pkg).entries.all (fun x => x.id == e.id || x.late || keyLt k (s.entryKey pkg x)) &&
  s.allEntries.all (fun x => !(keyLt (s.entryKey x.1 x.2) k) ||
    x.2.buf.all (fun b => (Store.find? e.reads b.1).isNone && (Store.find? e.buf b.1).isNone))

/-- The aborts that the writes of a buffer cause. -/
def bufferReaders (s : State) (pkg : Nat) (e : Entry) : List (Nat × Nat) :=
  e.buf.flatMap (fun b => s.readersOf b.1 (s.entryKey pkg e))

/-- Write a buffer at its homes, each block after the aborts it causes (R332 step 1, R336). -/
def drainBuffer (s : State) (pkg : Nat) (e : Entry) : State :=
  e.buf.foldl (fun t b => (t.abortReaders b.1 (s.entryKey pkg e)).writeBlock b.1 b.2) s

/-- Steps 2 and 3 of R332: versions become committed records, registrations are released, and what was held for the task
leaves. -/
def releaseWork (s : State) (pkg : Nat) (e : Entry) : State :=
  let s1 := (s.commitVersions pkg e.id).updEntry pkg e.id (fun e =>
    { e with buf := [], reads := [], qreads := [], held := [], events := [] })
  ((s1.abortList (s1.undue pkg) true).releaseHeld e.held).sendEvents pkg e.events

/-- The commit itself, once its aborts are acknowledged (R332, R335): from then on nothing aborts the task. When its
arrival cannot be made, the entry stays as it is (R82). -/
def commit (s : State) (pkg : Nat) (e : Entry) : State :=
  let s0 := s.updEntry pkg e.id (fun e => { e with firm := true })
  let s3 := (s0.drainBuffer pkg e).releaseWork pkg e
  match s3.finishEntry pkg e e.head.parent with
  | some t => t
  | none => s3.tell (.finFault e.rid (pkg * 16) e.head.parent)

/-! ### The horizon's combination (R329) -/

/-- A cluster receives a horizon (R329). -/
def receive (s : State) (hl : Option Key × Option Key) : State :=
  { s with clusters := s.clusters.map (fun c => (c.1, { c.2 with hh := hl.1, ll := hl.2 })) }

/-! ### Running speculatively (R325, R326, R336) -/

/-- Buffer entries in use on a cluster, and the reserve for the task at L (R325). -/
def poolUsed (c : Cluster) : Nat := c.entries.foldl (fun n e => n + e.buf.length) 0

/-- A task may take n new buffer entries (R325). -/
def bufferRoom (s : State) (pkg : Nat) (e : Entry) (n : Nat) : Bool :=
  let c := s.clusterAt pkg
  let atL := c.ll == some (s.entryKey pkg e)
  n == 0 || (e.buf.length + n ≤ 64 && poolUsed c + n ≤ (if atL then 8192 else 8192 - 64))

/-- A block of the buffer after a write of one byte. -/
def bufByte (m : Store BufBlock) (pa : Nat) (b : Byte) : Store BufBlock :=
  let x := Store.get {} m (blockOf pa)
  Store.set m (blockOf pa) { x with bytes := Store.set x.bytes (pa % 64) b }

/-- A speculative store of a piece, which lies in one block: bytes, descriptor and code enter the buffer (R325). -/
def bufWrite (m : Store BufBlock) (pa : Nat) (bs : List Byte) (d : Option (BitVec 16)) (code : Nat × Nat) : Store BufBlock :=
  let m1 := (bs.zipIdx).foldl (fun m b => bufByte m (pa + b.2) b.1) m
  let x := Store.get {} m1 (blockOf pa)
  Store.set m1 (blockOf pa) { x with desc := d.or x.desc, dom := code.1, nu := code.2 }

/-- Register a block as read, with its committed contents (R326). -/
def readBlock (s : State) (pkg id b : Nat) : State :=
  match s.entryAt pkg id with
  | some e =>
    if (Store.find? e.reads b).isSome then s
    else
      let s1 := s.settle (64 * b / 1024)
      let bytes := (List.range 64).foldl (fun m i => Store.put 0 m i (s1.peek (64 * b + i))) []
      s1.updEntry pkg id (fun e => { e with reads := Store.set e.reads b ⟨bytes, Store.get 0 s1.memDesc b⟩ })
  | none => s

/-- A byte as a speculative task sees it: its own buffered byte, else the committed contents (R325, R326). -/
def specByte (s : State) (e : Entry) (pa : Nat) : Byte :=
  match (Store.find? e.buf (blockOf pa)).bind (fun x => Store.find? x.bytes (pa % 64)) with
  | some b => b
  | none => match Store.find? e.reads (blockOf pa) with
    | some r => Store.get 0 r.bytes (pa % 64)
    | none => s.peek pa

/-- The descriptor that a speculative task sees. -/
def specDesc (s : State) (e : Entry) (b : Nat) : BitVec 16 :=
  match (Store.find? e.buf b).bind (·.desc) with
  | some d => d
  | none => match Store.find? e.reads b with
    | some r => r.desc
    | none => Store.get 0 s.memDesc b

/-- A running task becomes irrevocable (R336): its spec bit is cleared and its buffer drained; its reads are no longer
registered. Its versions, children and event messages wait for its commit (R304, R83, R303). -/
def promote (s : State) (pkg id : Nat) : State :=
  match s.entryAt pkg id with
  | none => s
  | some e =>
    let s1 := (s.updEntry pkg id (fun e => { e with firm := true })).drainBuffer pkg e
    let s2 := s1.updEntry pkg id (fun e => { e with buf := [], reads := [], qreads := [] })
    let s4 := s2.updCluster pkg (fun c => { c with aster := { c.aster with promoted := c.aster.promoted + 1 } })
    match s4.slotRunning e.rid with
    | some sid => s4.updSlot sid (fun t => { t with head := t.head.setFlags 11 11 0, counted := false })
    | none => s4

end State
end Sys2Proof.Machine
end

