-- ==== Sys2Proof/Machine/Operands.lean ====
section
/-! DEFINITION. Operand forms: addresses (R45), lanes and blocks of vector registers (R166, R151), lane masks (R94,
R169), types of descriptors (R171), the extension of loaded values (R222), rounding modes (R45). -/

namespace Sys2Proof.Machine

/-! ### Lanes (R166) -/

/-- Lowest bit of lane i of a vector register. -/
def lanePos (t : Ty) (i : Nat) : Nat := if t == .t6 then 512 * (i / 80) + 6 * (i % 80) else t.width * i

/-- The block that holds lane i. -/
def laneBlock (t : Ty) (i : Nat) : Nat := i / Nat.max 1 t.perBlock

/-- The bits of lane i, whatever the block's descriptor. -/
def rawLane (x : VBits) (t : Ty) (i : Nat) : Nat := x.toNat / 2 ^ lanePos t i % 2 ^ t.width

namespace VReg

/-- The 512 bits of a block. -/
def block (v : VReg) (b : Nat) : Nat := v.lanes.toNat / 2 ^ (512 * b) % 2 ^ 512
/-- The descriptor of a block (R93). -/
def descOf (v : VReg) (b : Nat) : BitVec 16 := BitVec.ofNat 16 (v.desc.toNat / 2 ^ (16 * b))

/-- Lane i as a source: a zero block reads as zero bits (R170). -/
def lane (v : VReg) (t : Ty) (i : Nat) : Nat :=
  if State.isZeroBlock (v.descOf (laneBlock t i)) then 0 else rawLane v.lanes t i

/-- A register of eight blocks, each given by its payload and descriptor. -/
def ofBlocks (f : Nat → Nat × BitVec 16) : VReg :=
  { lanes := BitVec.ofNat 4096 ((List.range 8).foldl (fun x b => x + (f b).1 % 2 ^ 512 * 2 ^ (512 * b)) 0)
    desc := Slot.packDesc (fun b => (f b).2) }

/-- The payload of block b of type t, from its lanes (R166: bits 511:480 of a t6 block are zero). -/
def payload (t : Ty) (b : Nat) (f : Nat → Nat) : Nat :=
  (List.range t.perBlock).foldl (fun x j => x + f (b * t.perBlock + j) % 2 ^ t.width * 2 ^ (t.width * j)) 0

/-- Write the active lanes of a register: blocks with an active lane receive the descriptor given, and their inactive
lanes keep their bits (R169, R171). -/
def write (old : VReg) (t : Ty) (active : Nat → Bool) (f : Nat → Nat) (d : Nat → BitVec 16) : VReg :=
  ofBlocks (fun b =>
    if (List.range t.perBlock).any (fun j => active (b * t.perBlock + j)) then
      (payload t b (fun i => if active i then f i else rawLane old.lanes t i), d b)
    else (old.block b, old.descOf b))

end VReg

/-- D(type) (R171). -/
def descFor : Ty → BitVec 16
  | .t8 => 1 | .t6 => 2 | .i8 => 3 | .z8 => 4 | .i4 => 5 | .b16 => 6 | .f16 => 7 | .f32 => 8 | .f64 => 9 | _ => 0

/-- Lane i is active: no mask, or bit i exclusive-ored with msense (R169). -/
def laneActive (mask : LaneMask) (bits : BitVec 1024) (i : Nat) : Bool :=
  match mask with
  | none => true
  | some (_, ms) => bits.getLsbD i != ms

/-- Lanes of a type that are active, in ascending order. -/
def activeLanes (t : Ty) (mask : LaneMask) (bits : BitVec 1024) : List Nat :=
  (List.range t.lanes).filter (laneActive mask bits)

/-! ### Scalars -/

/-- A value loaded into a g register (R222): sign-extended for i types, else zero-extended. -/
def extend (t : Ty) (x : Nat) : Word :=
  if t.isI then BitVec.ofInt 64 (signedOf t.width x) else BitVec.ofNat 64 (x % 2 ^ t.width)

/-- The sign extension of a 32-bit immediate (R122, R45). -/
def sext32 (x : BitVec 32) : Word := x.signExtend 64

namespace State

/-- The address of a memory operand (R45, R222). -/
def addrOf (s : State) (m : Addr) : Word := s.g m.base.val + s.g m.idx.val + sext32 m.off

/-- The base address of the strided and indexed forms (R226). -/
def baseOf (s : State) (m : BaseAddr) : Word := s.g m.base.val + sext32 m.off

/-- The bits of a lane mask operand. -/
def maskBits (s : State) (m : LaneMask) : BitVec 1024 :=
  match m with
  | none => 0
  | some (k, _) => s.slot.mr k.val

/-- The rounding mode of a rnd field (R45, R172). -/
def rmode (s : State) (rnd : Nat) : Num.Rm := Num.rmOfRnd rnd s.slot.csr.frm.toNat

/-- The rounding mode of the scalar float instructions (R130). -/
def frm (s : State) : Num.Rm := Num.rmOf s.slot.csr.frm.toNat

end State
end Sys2Proof.Machine
end

