-- ==== Sys2Proof/Machine/Flags.lean ====
section
/-! DEFINITION. Conditions and flags: the comparisons of `cmp`, `fcmp` and `vcmp` (R127, R133, R180), the bounds of
`wait` (R116). Every other flag comes with its result from `Num`. -/

namespace Sys2Proof

/-- A condition of `cmp` on two words (R127): lt and ge signed, ltz and gez unsigned. -/
def Cc.holds (c : Cc) (x y : Word) : Bool :=
  match c with
  | .eq => x == y
  | .ne => x != y
  | .lt => x.slt y
  | .ge => !x.slt y
  | .ltz => x.ult y
  | .gez => !x.ult y

/-- A condition of `fcmp` on two patterns, with its flags (R133): a signalling NaN sets nv, and lt and le set it for
every NaN. -/
def FCc.holds (c : FCc) (f : Num.Fmt) (x y : Nat) : Bool × Num.Flags :=
  let a := Num.unpack f x
  let b := Num.unpack f y
  let sn := Num.snan a ||| Num.snan b
  let n := a.isNan || b.isNan
  match c with
  | .eq => (Num.eqV a b, sn)
  | .lt => (Num.ltV a b, if n then Num.nv else 0)
  | .le => (Num.ltV a b || Num.eqV a b, if n then Num.nv else 0)
  | .un => (n, sn)

end Sys2Proof

namespace Sys2Proof.Machine

/-- A bound of `wait` (R116): 15 is no bound. -/
def waitMet (bound n : Nat) : Bool := bound == 15 || n ≤ bound

end Sys2Proof.Machine
end

