-- ==== Sys2Proof/Decode.lean ====
section
/-! DEFINITION. Decoding a slot's word (R41 to R58) and encoding an instruction back. Fields are natural numbers;
`Raw` is the finest common split of the eight operand formats, so that every format is a reading of its fields. -/

namespace Sys2Proof

/-- A word of 96 bits, cut at the bounds of all the fields of R44 and R45: major, gsense, gpred, minor, A, B, C, D,
type (bits 55:51), bits 50:32, bits 31:0. -/
structure Raw where
  maj : Nat
  gs  : Nat
  gp  : Nat
  mn  : Nat
  A   : Nat
  B   : Nat
  C   : Nat
  D   : Nat
  T   : Nat
  X   : Nat
  I   : Nat
  deriving DecidableEq, Repr

/-- The word of the fields (R42, R44). -/
def Raw.pack (r : Raw) : Nat :=
  r.maj * 2 ^ 88 + r.gs * 2 ^ 87 + r.gp * 2 ^ 84 + r.mn * 2 ^ 80 + r.A * 2 ^ 74 + r.B * 2 ^ 68 + r.C * 2 ^ 62 +
    r.D * 2 ^ 56 + r.T * 2 ^ 51 + r.X * 2 ^ 32 + r.I

/-- The fields of a word (R42, R44). -/
def Raw.unpack (w : Nat) : Raw where
  maj := w / 2 ^ 88 % 256
  gs := w / 2 ^ 87 % 2
  gp := w / 2 ^ 84 % 8
  mn := w / 2 ^ 80 % 16
  A := w / 2 ^ 74 % 64
  B := w / 2 ^ 68 % 64
  C := w / 2 ^ 62 % 64
  D := w / 2 ^ 56 % 64
  T := w / 2 ^ 51 % 32
  X := w / 2 ^ 32 % 2 ^ 19
  I := w % 2 ^ 32

/-- Every field within its width. -/
def Raw.inRange (r : Raw) : Prop :=
  r.maj < 256 ∧ r.gs < 2 ∧ r.gp < 8 ∧ r.mn < 16 ∧ r.A < 64 ∧ r.B < 64 ∧ r.C < 64 ∧ r.D < 64 ∧ r.T < 32 ∧
    r.X < 2 ^ 19 ∧ r.I < 2 ^ 32

/-- Fields within their widths are read back from the word. -/
theorem Raw.unpack_pack {r : Raw} (h : r.inRange) : Raw.unpack r.pack = r := by
  obtain ⟨h1, h2, h3, h4, h5, h6, h7, h8, h9, h10, h11⟩ := h
  cases r
  simp only [unpack, pack, mk.injEq] at *
  refine ⟨?_, ?_, ?_, ?_, ?_, ?_, ?_, ?_, ?_, ?_, ?_⟩ <;> omega

/-- A word, read as its instruction before the checks of R57: whether the bits that must be zero are, whether
every field lies in its range, whether no forbidden combination is carried by a bit that the instruction does not
keep, and the instruction. -/
structure Skel where
  zero  : Bool
  range : Bool
  combo : Bool
  i     : Instr
  deriving DecidableEq, Repr

namespace Decode

/-- A skeleton: the fields that must be zero, the ranges, the combinations, the instruction. -/
def mk (zeros : List Nat) (range : Bool) (combo : Bool) (i : Instr) : Except Nat Skel :=
  .ok ⟨zeros.all (· == 0), range, combo, i⟩

/-- A 6-bit register field. -/
def g (x : Nat) : Fin 64 := Fin.ofNat 64 x
/-- A predicate or mask field. -/
def p (x : Nat) : Fin 8 := Fin.ofNat 8 x
/-- An accumulator field. -/
def ac (x : Nat) : Fin 2 := Fin.ofNat 2 x
/-- A loop-level field. -/
def lc (x : Nat) : Fin 3 := Fin.ofNat 3 x
/-- A type code. -/
def ty (x : Nat) : Ty := (Ty.ofCode x).getD .none

/-- imm64 of format W: bits 63:0. -/
def imm64 (r : Raw) : Nat := r.C % 4 * 2 ^ 62 + r.D * 2 ^ 56 + r.T * 2 ^ 51 + r.X * 2 ^ 32 + r.I
/-- The address operand of format M. -/
def addr (r : Raw) : Addr := ⟨g r.B, g r.C, BitVec.ofNat 32 r.I, g r.D, Fin.ofNat 4 (r.T / 8)⟩
/-- The address operand of the strided and indexed forms. -/
def baseAddr (r : Raw) : BaseAddr := ⟨g r.B, BitVec.ofNat 32 r.I, g r.D, Fin.ofNat 4 (r.T / 8)⟩
/-- The type code of format M: bits 53:49. -/
def tyM (r : Raw) : Nat := r.T % 8 * 4 + r.X / 2 ^ 17
/-- aux of format M: bits 48:32. -/
def auxM (r : Raw) : Nat := r.X % 2 ^ 17
/-- The lane mask of fields mk, mask and msense (R169). -/
def laneMask (mk mask ms : Nat) : LaneMask := if mk == 0 then none else some (p mask, ms != 0)
/-- The lane mask of the vector memory forms: aux 48, 47:45, 44 (R219). -/
def maskM (r : Raw) : LaneMask := laneMask (bits r.X 16 16) (bits r.X 15 13) (bits r.X 12 12)
/-- The bits of mask and msense that must be zero when mk is (R167). -/
def maskMz (r : Raw) : Nat := if bits r.X 16 16 == 0 then bits r.X 15 12 else 0
/-- The target of a direct transfer: tslot 42:40, disp 39:0. -/
def target (r : Raw) : Target := ⟨Fin.ofNat 5 (bits r.X 10 8), BitVec.ofNat 40 (r.X % 256 * 2 ^ 32 + r.I)⟩
/-- tslot holds 0 to 4 (R54). -/
def tslotOk (r : Raw) : Bool := bits r.X 10 8 < 5
/-- aux of format B below bit 64, that must be zero when a transfer does not use it. -/
def auxB (r : Raw) : Nat := r.D + r.T + r.X / 2 ^ 11

/-- Format E: mk of a vector instruction (R167). -/
def vmk (r : Raw) : Nat := bits r.X 11 11
/-- The lane mask of a vector instruction. -/
def vmask (r : Raw) : LaneMask := laneMask (vmk r) (bits r.X 18 16) (bits r.X 15 15)
/-- rnd. -/
def vrnd (r : Raw) : Fin 5 := Fin.ofNat 5 (bits r.X 14 12)
/-- rnd lies in 0 to 4 (R45). -/
def rndOk (r : Raw) : Bool := bits r.X 14 12 < 5
/-- sat. -/
def vsatBit (r : Raw) : Bool := bits r.X 9 9 != 0
/-- The options of a vector instruction. -/
def vopt (r : Raw) : VOpt := ⟨vmask r, vrnd r, vsatBit r⟩
/-- ix. -/
def vix (r : Raw) : Bool := bits r.X 10 10 != 0

/-- The aux and option bits that must be zero for a vector instruction that uses a mask, rnd, ix, sub, or the
conversion fields as stated (R167). sat is not among them: its misuse is reason 6 (R175). -/
def vz (r : Raw) (mask rnd ix sub cvt : Bool) : Nat :=
  (if mask && vmk r != 0 then 0 else vmk r + bits r.X 18 15) + (if rnd then 0 else bits r.X 14 12) +
    (if ix then 0 else bits r.X 10 10) + bits r.X 8 8 + (if sub then 0 else bits r.X 7 6) +
    (if cvt then 0 else bits r.X 5 0)

/-- An unassigned minor. -/
def un : Except Nat Skel := .error 3

/-- The second operand of a vector shift. -/
def shiftCount (r : Raw) : ShiftCount := if vix r then .imm (g r.I) else .reg (g r.C)
/-- A lane index. -/
def laneIndex (r : Raw) : LaneIndex := if vix r then .imm (BitVec.ofNat 32 r.I) else .reg (g r.C)
/-- The scale operand of `vcvt` and `mcvt`. -/
def scaleOp (r : Raw) : ScaleOp := if bits r.X 5 5 != 0 then .auto else .given (BitVec.ofNat 8 (bits r.I 15 8))
/-- A scale field beside auto (R184). -/
def scalez (r : Raw) : Nat := if bits r.X 5 5 != 0 then bits r.I 15 8 else 0

/-- Majors of a single minor; a reserved major stays one. -/
def one (r : Raw) (k : Except Nat Skel) : Except Nat Skel :=
  if r.mn == 0 then k
  else match k with
    | .error e => .error e
    | .ok _ => un

/-- xf path classes (R239). -/
def path : Nat → Path
  | 0 => .core | 1 => .ro | 2 => .copy | 3 => .mop | 4 => .gather | _ => .stream

/-- The system majors 0x01 to 0x0D (R58, R67, R80 to R82, R115 to R119, R239). -/
def system (r : Raw) : Except Nat Skel :=
  let nz := [r.A, r.B, r.C, r.D, r.T, r.X, r.I]
  let kz := [r.A, r.B, r.C, r.D, r.T, r.X, r.I / 2 ^ 16]
  let n := BitVec.ofNat 16 r.I
  let cz := [r.C, r.D, r.T, r.X, r.I / 2 ^ 12]
  let csr := BitVec.ofNat 12 r.I
  match r.maj with
  | 0x01 => one r (mk nz true true .nop)
  | 0x02 => one r (mk kz true true (.brk n))
  | 0x03 => one r (mk kz true true (.trap n))
  | 0x04 => one r (mk nz true true .sret)
  | 0x05 => one r (mk kz true true (.sys n))
  | 0x06 => one r (mk [r.A / 8, r.B, r.C / 4, r.I % 2] true (r.gs == 0 && r.gp == 0)
      (.rgn (BitVec.ofNat 64 (imm64 r)) (BitVec.ofNat 3 r.A)))
  | 0x07 => match r.mn with
    | 0 => mk nz true true .fence
    | 1 => mk nz true true .fenceAcq
    | 2 => mk nz true true .fenceRel
    | 3 => mk nz true true .fenceAr
    | _ => un
  | 0x08 => one r (mk [r.A, r.B, r.C, r.D, r.T, r.X, r.I / 2 ^ 6] (bits r.I 2 0 < 6 && bits r.I 5 3 < 6) true
      (.xf (path (bits r.I 2 0)) (path (bits r.I 5 3))))
  | 0x09 => one r (mk kz true true (.wait (Fin.ofNat 16 (bits r.I 3 0)) (Fin.ofNat 16 (bits r.I 7 4))
      (Fin.ofNat 16 (bits r.I 11 8)) (Fin.ofNat 16 (bits r.I 15 12))))
  | 0x0A => one r (
    let z := [r.A, r.C, r.D, r.T, r.X, r.I / 2 ^ 8]
    match r.I % 256 with
    | 1 => mk z true true (.susFull (g r.B))
    | 2 => mk z true true (.susEmpty (g r.B))
    | 3 => mk z true true (.susJoin (g r.B))
    | _ => mk z false true .nop)
  | 0x0B => one r (mk nz true true .fin)
  | 0x0C => one r (mk nz true true .yld)
  | 0x0D => match r.mn with
    | 0 => mk (r.B :: cz) true true (.csrr (g r.A) csr)
    | 1 => mk (r.A :: cz) true true (.csrw csr (g r.B))
    | 2 => mk cz true true (.csrx (g r.A) csr (g r.B))
    | 3 => mk cz true true (.csrs (g r.A) csr (g r.B))
    | 4 => mk cz true true (.csrc (g r.A) csr (g r.B))
    | _ => un
  | _ => .error 2

/-- Conditions of `cmp` (R127). -/
def cc : Nat → Cc
  | 0 => .eq | 1 => .ne | 2 => .lt | 3 => .ge | 4 => .ltz | _ => .gez
/-- Conditions of `fcmp` (R133). -/
def fcc : Nat → FCc
  | 0 => .eq | 1 => .lt | 2 => .le | _ => .un

/-- The scalar majors 0x10 to 0x23 (R58, R121 to R134). -/
def scalar (r : Raw) : Except Nat Skel :=
  let a := g r.A; let b := g r.B; let c := g r.C; let d := g r.D
  let gz := [r.D, r.T, r.X, r.I]
  let iz := [r.C, r.D, r.T, r.X]
  let imm := BitVec.ofNat 32 r.I
  let k := g r.I
  let kOk : Bool := r.I < 64
  let t := ty r.T
  let tOk : Bool := r.T ≤ 16
  match r.maj with
  | 0x10 => match r.mn with
    | 0 => mk gz true true (.add a b c)
    | 1 => mk gz true true (.sub a b c)
    | 2 => mk gz true true (.mul a b c)
    | 3 => mk gz true true (.mulh a b c)
    | 4 => mk gz true true (.mulhz a b c)
    | 5 => mk gz true true (.div a b c)
    | 6 => mk gz true true (.divz a b c)
    | 7 => mk gz true true (.rem a b c)
    | 8 => mk gz true true (.remz a b c)
    | 9 => mk gz true true (.min a b c)
    | 10 => mk gz true true (.max a b c)
    | 11 => mk gz true true (.minz a b c)
    | 12 => mk gz true true (.maxz a b c)
    | _ => un
  | 0x11 => one r (mk iz true true (.addi a b imm))
  | 0x12 => match r.mn with
    | 0 => mk gz true true (.and a b c)
    | 1 => mk gz true true (.or a b c)
    | 2 => mk gz true true (.xor a b c)
    | 3 => mk gz true true (.andn a b c)
    | 4 => mk gz true true (.orn a b c)
    | 5 => mk gz true true (.shl a b c)
    | 6 => mk gz true true (.shr a b c)
    | 7 => mk gz true true (.sar a b c)
    | 8 => mk gz true true (.rot a b c)
    | _ => un
  | 0x13 => match r.mn with
    | 0 => mk iz true true (.andi a b imm)
    | 1 => mk iz true true (.ori a b imm)
    | 2 => mk iz true true (.xori a b imm)
    | 3 => mk iz true true (.andni a b imm)
    | 4 => mk iz true true (.orni a b imm)
    | 5 => mk iz kOk true (.shli a b k)
    | 6 => mk iz kOk true (.shri a b k)
    | 7 => mk iz kOk true (.sari a b k)
    | 8 => mk iz kOk true (.roti a b k)
    | _ => un
  | 0x14 =>
    let z := [r.C, r.D, r.X, r.I]
    match r.mn with
    | 0 => mk z (r.T == 0) true (.clz a b)
    | 1 => mk z (r.T == 0) true (.ctz a b)
    | 2 => mk z (r.T == 0) true (.pop a b)
    | 3 => mk z tOk true (.sext t a b)
    | 4 => mk z tOk true (.zext t a b)
    | 5 => mk z tOk true (.bswp t a b)
    | _ => un
  | 0x15 => one r (mk [r.C, r.D, r.X, bits r.I 7 6, r.I / 2 ^ 15] tOk true
      (.bfx t a b k (Fin.ofNat 128 (bits r.I 14 8))))
  | 0x16 => one r (mk [r.C, r.D, r.T, r.X, bits r.I 7 6, r.I / 2 ^ 15] true true
      (.bfi a b k (Fin.ofNat 128 (bits r.I 14 8))))
  | 0x17 => if r.mn < 6 then mk gz (r.A < 8) true (.cmp (cc r.mn) (p r.A) b c) else un
  | 0x18 => if r.mn < 6 then mk iz (r.A < 8) true (.cmpi (cc r.mn) (p r.A) b imm) else un
  | 0x19 => one r (mk [r.T, r.X, r.I] (r.B < 8) true (.sel a (p r.B) c d))
  | 0x1A => one r (mk [r.B, r.C / 4] true true (.li a (BitVec.ofNat 64 (imm64 r))))
  | 0x1B => one r (
    let z := [r.C, r.D, r.T, r.X % 2 ^ 17, r.I]
    match r.X / 2 ^ 17 with
    | 0 => mk z true true (.mov (.gg a b))
    | 1 => mk z (r.A < 3) true (.mov (.lcg (lc r.A) b))
    | 2 => mk z (r.B < 3) true (.mov (.glc a (lc r.B)))
    | _ => mk z false true .nop)
  | 0x1C => one r (mk [r.D, r.T, r.X] true true (.lea a b c imm))
  | 0x1D => match r.mn with
    | 0 => mk gz (r.A < 8 && r.B < 8 && r.C < 8) true (.pand (p r.A) (p r.B) (p r.C))
    | 1 => mk gz (r.A < 8 && r.B < 8 && r.C < 8) true (.por (p r.A) (p r.B) (p r.C))
    | 2 => mk gz (r.A < 8 && r.B < 8 && r.C < 8) true (.pxor (p r.A) (p r.B) (p r.C))
    | 3 => mk (r.C :: gz) (r.A < 8 && r.B < 8) true (.pnot (p r.A) (p r.B))
    | _ => un
  | 0x20 =>
    let z := [r.D, r.X, r.I]
    match r.mn with
    | 0 => mk z tOk true (.fadd t a b c)
    | 1 => mk z tOk true (.fsub t a b c)
    | 2 => mk z tOk true (.fmul t a b c)
    | 3 => mk z tOk true (.fdiv t a b c)
    | 4 => mk (r.C :: z) tOk true (.fsqrt t a b)
    | 5 => mk z tOk true (.fmin t a b c)
    | 6 => mk z tOk true (.fmax t a b c)
    | _ => un
  | 0x21 => one r (mk [r.X, r.I] tOk true (.fma t a b c d))
  | 0x22 => if r.mn < 4 then mk [r.D, r.X, r.I] (tOk && r.A < 8) true (.fcmp (fcc r.mn) t (p r.A) b c) else un
  | 0x23 => one r (mk [r.C, r.D, r.X % 2 ^ 14, r.I] (tOk && r.X / 2 ^ 14 ≤ 16) true (.fcvt t (ty (r.X / 2 ^ 14)) a b))
  | _ => .error 2

/-- The control transfers 0x30 to 0x38 (R58, R135 to R139). -/
def control (r : Raw) : Except Nat Skel :=
  let a := g r.A; let b := g r.B
  let tz := [bits r.X 10 8, r.X % 256, r.I]
  let tick := r.C / 32 != 0
  let n21 := r.C % 4 * 2 ^ 19 + r.D * 2 ^ 13 + r.T * 2 ^ 8 + r.X / 2 ^ 11
  match r.maj with
  | 0x30 => one r (mk [r.A, r.B, r.C, auxB r] (tslotOk r) true (.br (target r)))
  | 0x31 => one r (mk (r.A :: r.C :: auxB r :: tz) true true (.bri b))
  | 0x32 => one r (mk [r.B, r.C, auxB r] (tslotOk r) true (.call a (target r)))
  | 0x33 => one r (mk (r.C :: auxB r :: tz) true true (.calli a b))
  | 0x34 => one r (mk (r.A :: r.C :: auxB r :: tz) true true (.ret b))
  | 0x35 => one r (mk [r.C % 32, auxB r] (tslotOk r && r.A < 3) true (.lp (lc r.A) b tick (target r)))
  | 0x36 => one r (mk [r.B, r.C % 32 / 4] (tslotOk r && r.A < 3) true
      (.lpx (lc r.A) (BitVec.ofNat 21 n21) tick (target r)))
  | 0x37 => one r (mk [r.C % 32, auxB r] (tslotOk r && r.A < 3) true (.lpr (lc r.A) b tick (target r)))
  | 0x38 => one r (mk (r.T % 2 :: r.X / 2 ^ 11 :: tz) true true
      (.jt a b (BitVec.ofNat 16 (r.C * 2 ^ 10 + r.D * 2 ^ 4 + r.T / 2))))
  | _ => .error 2

/-- Operations of `amo` (R232). -/
def amoOp : Nat → AmoOp
  | 0 => .add | 1 => .and | 2 => .or | 3 => .xor | 4 => .min | 5 => .max | 6 => .minz | 7 => .maxz | 8 => .swap
  | 9 => .cas | 10 => .fadd | 11 => .fmin | _ => .fmax
/-- Operations of `red` (R234). -/
def redOp : Nat → RedOp
  | 0 => .add | 1 => .and | 2 => .or | 3 => .xor | 4 => .min | 5 => .max | 6 => .minz | 7 => .maxz | 8 => .fadd
  | 9 => .fmin | _ => .fmax
/-- The ord field (R231). -/
def ord4 : Nat → Ord4
  | 0 => .relaxed | 1 => .acq | 2 => .rel | _ => .ar

/-- The memory majors 0x40 to 0x4E and 0xE0 to 0xE5 (R58, R219, R258 to R261, R337). -/
def memory (r : Raw) : Except Nat Skel :=
  let a := g r.A
  let m := addr r
  let n := baseAddr r
  let t := ty (tyM r)
  let tOk : Bool := tyM r ≤ 16
  let x := auxM r
  let vz := [maskMz r, x % 2 ^ 12]
  let xz := [maskMz r, x % 2 ^ 11]
  let ix64 := bits x 11 11 != 0
  let s := g (bits x 11 6)
  let ord := bits x 5 4
  match r.maj with
  | 0x40 => match r.mn with
    | 0 => mk [x] tOk true (.ld t a m)
    | 1 => mk [x] tOk true (.ldAcq t a m)
    | _ => un
  | 0x41 => match r.mn with
    | 0 => mk [x] tOk true (.st t a m)
    | 1 => mk [x] tOk true (.stRel t a m)
    | _ => un
  | 0x42 => one r (mk [x] tOk true (.ldc t a m))
  | 0x43 => one r (mk vz tOk true (.ldv t a m (maskM r)))
  | 0x44 => one r (mk vz tOk true (.stv t a m (maskM r)))
  | 0x45 => one r (mk vz tOk true (.ldvs t a n (g r.C) (maskM r)))
  | 0x46 => one r (mk vz tOk true (.stvs t a n (g r.C) (maskM r)))
  | 0x47 => one r (mk xz tOk true (.ldvx t a n (g r.C) ix64 (maskM r)))
  | 0x48 => one r (mk xz tOk true (.stvx t a n (g r.C) ix64 (maskM r)))
  | 0x49 => match r.mn with
    | 0 => mk [x] tOk true (.ldf t a m)
    | 1 => mk [x] tOk true (.ldfe t a m)
    | 2 => mk [x] tOk true (.stef t a m)
    | 3 => mk [x] tOk true (.stff t a m)
    | _ => un
  | 0x4A => match r.mn with
    | 0 => mk [r.A, x] (tyM r == 0) true (.pf m)
    | 1 => mk [r.A, x] (tyM r == 0) true (.cln m)
    | 2 => mk [r.A, x] (tyM r == 0) true (.inv m)
    | _ => un
  | 0x4B => if r.mn < 13 then mk [x / 2 ^ 12, x % 16] tOk true (.amo (amoOp r.mn) (ord4 ord) t a m s) else un
  | 0x4C =>
    let rel := ord / 2 != 0
    let ordOk := ord % 2 == 0
    if r.mn < 11 then mk [x / 2 ^ 6, x % 16] tOk ordOk (.red (redOp r.mn) rel t a m)
    else if r.mn == 11 then mk [x / 2 ^ 12, x % 16] (tyM r == 5) ordOk (.redXs rel a m s)
    else if r.mn == 12 then mk [x / 2 ^ 6, x % 16] (tyM r == 13) ordOk (.redXcvt rel a m)
    else un
  | 0x4D => match r.mn with
    | 0 => mk [x] (tyM r == 0) true (.ldbd a m)
    | 1 => mk [x] (tyM r == 0) true (.stbd a m)
    | _ => un
  | 0x4E => one r (mk [x] (tyM r == 0) true (.bbar a m))
  | 0xE0 => one r (mk [r.A, r.B, r.C, r.D, r.T, r.X, r.I / 2 ^ 16] true true (.nutick (BitVec.ofNat 16 r.I)))
  | 0xE1 => one r (mk [r.A, r.B, r.C, r.D, r.T, r.X, r.I / 2 ^ 8] true true (.nudom (BitVec.ofNat 8 r.I)))
  | 0xE2 => one r (mk [r.C, r.D, r.T, r.X, r.I / 2] true true (.nuq a (g r.B) (r.I % 2 != 0)))
  | 0xE3 => one r (mk [tyM r, x] true true (.nurel a m))
  | 0xE4 => one r (
    if r.I % 2 == 0 then mk [r.A, r.B, r.C, r.D, r.T, r.X, r.I / 2] true true .abrt
    else mk [r.C, r.D, r.T, r.X, r.I / 2] true true (.abrtRec a (g r.B)))
  | 0xE5 => one r (mk [r.B, r.C, r.D, r.T, r.X, r.I / 8] true true (.astat a (p r.I)))
  | _ => .error 2

/-- The task and cluster majors 0x60 to 0x66 (R58, R78 to R86, R270, R286, R337). -/
def task (r : Raw) : Except Nat Skel :=
  let a := g r.A; let b := g r.B; let c := g r.C; let d := g r.D
  let q := Fin.ofNat 4 r.I
  match r.maj with
  | 0x60 => match r.mn with
    | 0 => mk [r.D, r.T, r.X, r.I] true true (.spawn a b c)
    | 1 => mk [r.D, r.T, r.X, r.I] true true (.spawnt a b c)
    | _ => un
  | 0x61 => match r.mn with
    | 0 => mk [r.T, r.X, r.I] true true (.send a b c d)
    | 1 => mk [r.T, r.X, r.I / 32] true true (.sendv a b c d (Fin.ofNat 32 r.I))
    | _ => un
  | 0x62 => one r (mk [r.A, r.D, r.T, r.X] true true (.jinit b c (BitVec.ofNat 32 r.I)))
  | 0x63 => one r (mk [r.A, r.C, r.D, r.T, r.X] true true (.arr b (BitVec.ofNat 32 r.I)))
  | 0x64 => match r.mn with
    | 0 => mk [r.C, r.D, r.T, r.X, r.I] true true (.tjoin a b)
    | 1 => mk [r.A, r.B, r.C, r.D, r.T, r.X, r.I] true true .tleave
    | 2 => mk [r.A, r.B, r.C, r.D, r.T, r.X, r.I] true true .tarr
    | 3 => mk [r.B, r.C, r.D, r.T, r.X, r.I] true true (.twait a)
    | 4 => mk [r.B, r.C, r.D, r.T, r.X, r.I / 4] true true (.tinfo a q)
    | _ => un
  | 0x65 => match r.mn with
    | 0 => mk [r.C, r.D, r.T, r.X, r.I / 4] (r.A < 8) true (.enq (p r.A) b q)
    | 1 => mk [r.C, r.D, r.T, r.X, r.I / 4] (r.B < 8) true (.deq a (p r.B) q)
    | 2 => mk [r.B, r.C, r.D, r.T, r.X, r.I / 4] true true (.deqw a q)
    | 3 => mk [r.B, r.C, r.D, r.T, r.X, r.I / 4] true true (.qinfo a q)
    | _ => un
  | 0x66 => one r (mk [r.C, r.D, r.T, r.X, r.I / 4] true true (.gvt a b q))
  | _ => .error 2

/-- Conditions of `vcmp` (R180). -/
def vcc : Nat → VCc
  | 0 => .eq | 1 => .ne | 2 => .lt | 3 => .le | 4 => .gt | 5 => .ge | _ => .un
/-- Operations of `vred` and `vscan` (R190). -/
def vcomb : Nat → VComb
  | 0 => .add | 1 => .min | 2 => .max | 3 => .and | 4 => .or | _ => .xor
/-- Operations of `vcnt` (R179). -/
def cntOp : Nat → CntOp
  | 0 => .pop | 1 => .clz | _ => .ctz

/-- The vector majors 0x70 to 0x86 (R58, R167 to R196). -/
def vector (r : Raw) : Except Nat Skel :=
  let a := g r.A; let b := g r.B; let c := g r.C; let d := g r.D
  let t := ty r.T
  let tOk : Bool := r.T ≤ 16
  let fl := !t.isInt
  let m := vmask r
  let rd := vrnd r
  let o := vopt r
  let sat := vsatBit r
  let nosat := !sat
  let tr := tOk && rndOk r
  let plain := vz r true false false false false
  let rnds := vz r true fl false false false
  let bare := vz r false false false false false
  match r.maj with
  | 0x70 => match r.mn with
    | 0 => mk [rnds, r.D, r.I] tr true (.vadd t a b c o)
    | 1 => mk [rnds, r.D, r.I] tr true (.vsub t a b c o)
    | 2 => mk [rnds, r.D, r.I] tr true (.vmul t a b c o)
    | 3 => mk [plain, r.D, r.I] tOk nosat (.vmin t a b c m)
    | 4 => mk [plain, r.D, r.I] tOk nosat (.vmax t a b c m)
    | 5 => mk [rnds, r.D, r.I] tr nosat (.vdiv t a b c m rd)
    | _ => un
  | 0x71 => one r (mk [rnds, r.I] tr true (.vfma t a b c d o))
  | 0x72 =>
    let z := [r.C, r.D, r.I]
    match r.mn with
    | 0 => mk (rnds :: z) tr nosat (.vsqrt t a b m rd)
    | 1 => mk (rnds :: z) tr nosat (.vrcp t a b m rd)
    | 2 => mk (rnds :: z) tr nosat (.vrsq t a b m rd)
    | 3 => mk (rnds :: z) tr nosat (.vexp2 t a b m rd)
    | 4 => mk (rnds :: z) tr nosat (.vlog2 t a b m rd)
    | 5 => mk (plain :: z) tOk true (.vabs t a b m sat)
    | 6 => mk (plain :: z) tOk true (.vneg t a b m sat)
    | 7 => mk (plain :: z) tOk nosat (.vnot t a b m)
    | _ => un
  | 0x73 =>
    let ixz := vz r true false true false false
    let sz := [ixz, r.D, if vix r then r.C else r.I, r.I / 64]
    match r.mn with
    | 0 => mk [plain, r.D, r.I] tOk nosat (.vand t a b c m)
    | 1 => mk [plain, r.D, r.I] tOk nosat (.vor t a b c m)
    | 2 => mk [plain, r.D, r.I] tOk nosat (.vxor t a b c m)
    | 3 => mk sz tOk nosat (.vshl t a b (shiftCount r) m)
    | 4 => mk sz tOk nosat (.vshr t a b (shiftCount r) m)
    | 5 => mk sz tOk nosat (.vsar t a b (shiftCount r) m)
    | _ => un
  | 0x74 => if r.mn < 7 then mk [plain, r.D, r.I] (tOk && r.A < 8) nosat (.vcmp (vcc r.mn) t (p r.A) b c m) else un
  | 0x75 => one r (mk [bare, r.I] (tOk && r.B < 8) nosat (.vsel t a (p r.B) c d))
  | 0x76 =>
    let s := bits r.X 4 0
    let st := ty s
    let ii := t.isInt && st.isInt
    one r (mk [vz r true (!ii) false false true, r.C, r.D, bits r.I 7 4, r.I / 2 ^ 16, scalez r]
      (tr && s ≤ 16) true (.vcvt t st a b (Fin.ofNat 16 r.I) (scaleOp r) o))
  | 0x77 => one r (mk [plain, r.C, r.D, r.I / 128] tOk nosat (.vsat t a b (Fin.ofNat 128 r.I) m))
  | 0x78 => one r (mk [plain, r.D, r.I] tOk true (.vpack t a b c m sat))
  | 0x79 => one r (mk [plain, r.C, r.D, r.I / 2] tOk nosat (.vunpk t a b (r.I % 2 != 0) m))
  | 0x7A => if r.mn < 6 then
      mk [vz r true (r.mn == 0 && fl) false false false, r.C, r.D, r.I] tr nosat (.vred (vcomb r.mn) t a b m rd)
    else un
  | 0x7B => if r.mn < 6 then
      mk [vz r true (r.mn == 0 && fl) false false false, r.C, r.D, r.I] tr nosat (.vscan (vcomb r.mn) t a b m rd)
    else un
  | 0x7C => one r (mk [rnds, r.D, r.I] tr nosat (.vdot t a b c m rd))
  | 0x7D => one r (mk [rnds, r.D, r.I] tr true (.vmacc t a b c o))
  | 0x7E => one r (mk [plain, r.D, r.I] tOk nosat (.vperm t a b c m))
  | 0x7F => one r (mk [plain, r.D, r.I] tOk nosat (.vshuf t a b c m))
  | 0x80 => one r (mk [plain, r.C, r.D, r.I] tOk nosat (.vbcast t a b m))
  | 0x81 => one r (mk [vz r false false true false false, r.D, if vix r then r.C else r.I] tOk nosat
      (.vext t a b (laneIndex r)))
  | 0x82 => one r (mk [vz r false false true false false, r.D, if vix r then r.C else r.I] tOk nosat
      (.vins t a b (laneIndex r)))
  | 0x83 => one r (mk [bare, r.C, r.D, r.I] (r.T == 0) nosat (.vmov a b))
  | 0x84 =>
    let sub := bits r.X 7 6
    one r (mk [vz r true false false true false, r.C, r.D, r.I] (tOk && sub < 3) nosat (.vcnt (cntOp sub) t a b m))
  | 0x85 => match r.mn with
    | 0 => mk [bare, r.D, r.I] (tOk && r.A < 8 && r.B < 8 && r.C < 8) nosat (.mand t (p r.A) (p r.B) (p r.C))
    | 1 => mk [bare, r.D, r.I] (tOk && r.A < 8 && r.B < 8 && r.C < 8) nosat (.mor t (p r.A) (p r.B) (p r.C))
    | 2 => mk [bare, r.C, r.D, r.I] (tOk && r.A < 8 && r.B < 8) nosat (.mnot t (p r.A) (p r.B))
    | 3 => mk [bare, r.C, r.D, r.I] (tOk && r.B < 8) nosat (.mpop t a (p r.B))
    | 4 => mk [bare, r.C, r.D, r.I] (tOk && r.B < 8) nosat (.mfirst t a (p r.B))
    | _ => un
  | 0x86 =>
    let z := [vz r false false false true false, r.C, r.D]
    one r (match bits r.X 7 6 with
    | 0 => mk (r.I / 8 :: z) (r.T == 0) nosat (.vblkRd a b (p r.I))
    | 1 => mk (r.I / 256 :: z) (r.T == 0) nosat (.vblkWr a b (BitVec.ofNat 8 r.I))
    | _ => mk z false nosat .nop)
  | _ => .error 2

/-- The matrix, copy, gather and stream majors (R58, R210, R242, R410, R417). -/
def engine (r : Raw) : Except Nat Skel :=
  let a := g r.A; let b := g r.B; let c := g r.C; let d := g r.D
  let t := ty r.T
  let tOk : Bool := r.T ≤ 16
  let accOk : Bool := r.A < 2
  let u := Fin.ofNat 128 (bits r.I 14 8)
  let kb := g r.I
  let kz := [bits r.I 7 6, r.I / 2 ^ 15]
  let q := Fin.ofNat 32 r.I
  let c1 := Fin.ofNat 32 (bits r.I 12 8)
  let qz := [r.C, r.D, r.T, r.X, bits r.I 7 5, r.I / 2 ^ 13]
  let dnu := g (bits r.X 11 6)
  let snu := g r.X
  let xz := r.X / 2 ^ 12
  let n1 := BitVec.ofNat 12 r.I
  let gz := [xz, bits r.I 15 12, r.I / 2 ^ 18]
  one r (match r.maj with
  | 0xA0 => mk [r.B, r.C, r.D, r.T, r.X, r.I] accOk true (.mclr (ac r.A))
  | 0xA1 => mk (r.A :: r.T :: xz :: bits r.X 10 6 :: kz) true true (.mldb u b c d kb (bits r.X 11 11 != 0) snu)
  | 0xA2 => mk (r.D :: r.X :: kz) (tOk && accOk) true (.mmac t (ac r.A) b c u kb)
  | 0xA3 => mk (r.D :: r.X :: kz) (tOk && accOk) true (.mmacs t (ac r.A) b c u kb)
  | 0xA4 => mk qz (r.B < 2) true (.mrd a (ac r.B) q c1)
  | 0xA5 => mk qz accOk true (.mwr (ac r.A) b q c1)
  | 0xA6 => mk [r.C, r.D, r.X / 2 ^ 15, bits r.X 11 10, bits r.X 8 6, bits r.X 4 0, bits r.I 7 4, r.I / 2 ^ 16,
        scalez r] (tOk && r.B < 2 && rndOk r) true
      (.mcvt t a (ac r.B) (Fin.ofNat 16 r.I) (scaleOp r) (vsatBit r) (vrnd r))
  | 0xA7 => mk [r.D, r.T, r.X, r.I] accOk true (.msum (ac r.A) b c)
  | 0xA8 => mk [r.D, r.T, r.X / 2, r.I] accOk true (.mtr (ac r.A) b c (r.X % 2 != 0))
  | 0xA9 => mk [r.B, r.C, r.D, r.T, r.X, r.I] accOk true (.mfree (ac r.A))
  | 0xB0 => mk [r.T, xz, r.I] true true (.cp a b c d dnu snu)
  | 0xB1 => mk [r.T, xz] true true
      (.cp2d a b c d (BitVec.ofNat 16 (r.I / 2 ^ 16)) (BitVec.ofNat 16 r.I) dnu snu)
  | 0xB2 => mk [r.T, xz, r.X % 64, r.I] true true (.cpl a b c d dnu)
  | 0xB3 => mk [r.T, xz, r.I] true true (.cpc a b c d dnu snu)
  | 0xB4 => mk [r.T, xz, r.I / 2 ^ 16] true true (.cps a b c d (BitVec.ofNat 16 r.I) dnu snu)
  | 0xB5 => mk (bits r.I 17 17 :: gz) tOk true (.gth t a b c d n1 (bits r.I 16 16 != 0) dnu snu)
  | 0xB6 => mk (bits r.I 17 17 :: gz) tOk true (.sct t a b c d n1 (bits r.I 16 16 != 0) dnu snu)
  | 0xB7 => mk (bits r.I 16 16 :: gz) tOk true (.cmpx t a b c d n1 (bits r.I 17 17 != 0) dnu snu)
  | 0xB8 =>
    if r.I % 2 == 0 then mk [r.D, r.T, r.X, r.I / 2] true true (.tsubLd a b c)
    else mk [r.D, r.T, r.X, r.I / 2] true true (.tsubSt a b c)
  | 0xB9 => mk [r.A, r.D, r.T, r.X, r.I] true true (.trel b c)
  | _ => .error 2)

/-- The Larkspur and Phlox majors (R58, R309, R356). -/
def port (r : Raw) : Except Nat Skel :=
  let a := g r.A; let b := g r.B; let c := g r.C; let d := g r.D
  let n := BitVec.ofNat 15 r.I
  let x := [r.T, r.X]
  let sel := Fin.ofNat 13 r.I
  one r (match r.maj with
  | 0xC0 => mk (r.A :: r.I :: x) true true (.qbase b c d)
  | 0xC1 => mk (r.D :: r.I / 2 ^ 15 :: x) true true (.qdef a b c n)
  | 0xC2 => mk (r.C :: r.D :: r.I / 16 :: x) (r.I % 16 < 13) true (.qget sel a b)
  | 0xC3 => mk (r.A :: r.D :: r.I / 16 :: x) (r.I % 16 < 13) true (.qset sel b c)
  | 0xC4 => mk (r.A :: r.I :: x) true true (.qslope b c d)
  | 0xC5 => mk (r.A :: r.C :: r.D :: r.I :: x) true true (.qcross b)
  | 0xC6 => mk (r.A :: r.I :: x) true true (.qdeps b c d)
  | 0xC7 => mk (r.B :: r.C :: r.D :: r.I :: x) true true (.qnext a)
  | 0xC8 => mk (r.A :: r.I :: x) true true (.qrun b c d)
  | 0xC9 => mk (r.B :: r.C :: r.D :: r.I :: x) true true (.qstop a)
  | 0xCA => mk (r.A :: r.D :: r.I / 2 ^ 15 :: x) true true (.qsnap b c n)
  | 0xCB => mk (r.B :: r.C :: r.D :: r.I / 8 :: x) true true (.qstat a (p r.I))
  | 0xCC => mk (r.A :: r.D :: r.I / 4 :: x) true true (.qstorm (Fin.ofNat 4 r.I) b c)
  | 0xD0 => mk (r.A :: r.B :: r.C :: r.D :: r.I :: x) true true .pclr
  | 0xD1 =>
    if r.I % 2 == 0 then mk (r.C :: r.D :: r.I / 2 :: x) true true (.pcol a b)
    else mk (r.D :: r.I / 2 :: x) true true (.pcolAt a b c)
  | 0xD2 =>
    if r.I % 2 == 0 then mk (r.C :: r.D :: r.I / 2 :: x) true true (.pcolrRd a b)
    else mk (r.C :: r.D :: r.I / 2 :: x) true true (.pcolrFr a b)
  | 0xD3 => mk (r.C :: r.D :: r.I :: x) true true (.pdec a b)
  | 0xD4 => mk (r.B :: r.C :: r.D :: r.I :: x) true true (.pprop a)
  | 0xD5 => mk (r.C :: r.D :: r.I :: x) true true (.pbt a b)
  | 0xD6 => mk (r.C :: r.D :: r.I :: x) true true (.prow a b)
  | 0xD7 => mk (r.C :: r.D :: r.I :: x) true true (.ptrl a b)
  | 0xD8 => mk (r.B :: r.C :: r.D :: r.I :: x) true true (.pconf a)
  | 0xD9 => mk (r.B :: r.C :: r.D :: r.I :: x) true true (.plvl a)
  | 0xDA => mk (r.C :: r.D :: r.I :: x) true true (.pset a b)
  | 0xDB => mk (r.B :: r.C :: r.D :: r.I / 8 :: x) (r.I % 8 < 7) true (.pstat a (Fin.ofNat 7 r.I))
  | _ => .error 2)

/-- The skeleton of a word: reason 2 for a reserved major, reason 3 for an unassigned minor (R57, R58). -/
def skel (r : Raw) : Except Nat Skel :=
  if r.maj < 0x10 then system r
  else if r.maj < 0x30 then scalar r
  else if r.maj < 0x40 then control r
  else if r.maj < 0x60 then memory r
  else if r.maj < 0x70 then task r
  else if r.maj < 0xA0 then vector r
  else if r.maj < 0xC0 then engine r
  else if r.maj < 0xE0 then port r
  else memory r

end Decode

/-- A word at slot `s` of its line, decoded: the guard and the instruction, or the reason of R57 why the word is
illegal. Where several reasons hold, the lowest-numbered one is given (log 5). -/
def decode (s w : Nat) : Except Nat (Guard × Instr) :=
  if w == 0 || w == 2 ^ 96 - 1 then .error 1
  else
    let r := Raw.unpack w
    match Decode.skel r with
    | .error e => .error e
    | .ok k =>
      let bad := k.i.illegal s
      if !k.zero || bad == some 4 then .error 4
      else if !k.range || (r.gs == 1 && r.gp == 0) || bad == some 5 then .error 5
      else if !k.combo || bad.isSome then .error 6
      else .ok (⟨r.gs != 0, Decode.p r.gp⟩, k.i)

/-- The code of a path class (R239). -/
def Path.code : Path → Nat
  | .core => 0 | .ro => 1 | .copy => 2 | .mop => 3 | .gather => 4 | .stream => 5
/-- The minor of a condition of `cmp` (R127). -/
def Cc.code : Cc → Nat
  | .eq => 0 | .ne => 1 | .lt => 2 | .ge => 3 | .ltz => 4 | .gez => 5
/-- The minor of a condition of `fcmp` (R133). -/
def FCc.code : FCc → Nat
  | .eq => 0 | .lt => 1 | .le => 2 | .un => 3
/-- The minor of a condition of `vcmp` (R180). -/
def VCc.code : VCc → Nat
  | .eq => 0 | .ne => 1 | .lt => 2 | .le => 3 | .gt => 4 | .ge => 5 | .un => 6
/-- The minor of a combining operation (R190). -/
def VComb.code : VComb → Nat
  | .add => 0 | .min => 1 | .max => 2 | .and => 3 | .or => 4 | .xor => 5
/-- The sub code of `vcnt` (R179). -/
def CntOp.code : CntOp → Nat
  | .pop => 0 | .clz => 1 | .ctz => 2
/-- The minor of an operation of `amo` (R232). -/
def AmoOp.code : AmoOp → Nat
  | .add => 0 | .and => 1 | .or => 2 | .xor => 3 | .min => 4 | .max => 5 | .minz => 6 | .maxz => 7 | .swap => 8
  | .cas => 9 | .fadd => 10 | .fmin => 11 | .fmax => 12
/-- The minor of an operation of `red` (R234). -/
def RedOp.code : RedOp → Nat
  | .add => 0 | .and => 1 | .or => 2 | .xor => 3 | .min => 4 | .max => 5 | .minz => 6 | .maxz => 7 | .fadd => 8
  | .fmin => 9 | .fmax => 10
/-- The code of an ordering (R231). -/
def Ord4.code : Ord4 → Nat
  | .relaxed => 0 | .acq => 1 | .rel => 2 | .ar => 3

namespace Encode

/-- 1 for true. -/
def b1 (b : Bool) : Nat := if b then 1 else 0

/-- The mask, msense and mk bits of format E: 18:16, 15 and 11 of bits 50:32 (R167). -/
def vm : LaneMask → Nat
  | none => 0
  | some (m, s) => m.val * 2 ^ 16 + b1 s * 2 ^ 15 + 2 ^ 11

/-- Options of a vector instruction. -/
def vo (o : VOpt) : Nat := vm o.mask + o.rnd.val * 2 ^ 12 + b1 o.sat * 2 ^ 9

/-- The mask of the vector memory forms: aux 48, 47:45, 44 (R219). -/
def mm : LaneMask → Nat
  | none => 0
  | some (m, s) => 2 ^ 16 + m.val * 2 ^ 13 + b1 s * 2 ^ 12

/-- auto and the scale field (R167, R184): bits of 50:32 and of 31:0. -/
def scX : ScaleOp → Nat
  | .auto => 2 ^ 5
  | .given _ => 0
/-- The scale field of imm. -/
def scI : ScaleOp → Nat
  | .auto => 0
  | .given s => s.toNat * 2 ^ 8

/-- A blank word of a major and minor. -/
def z (maj mn : Nat) : Raw := ⟨maj, 0, 0, mn, 0, 0, 0, 0, 0, 0, 0⟩

/-- Format G. -/
def fG (maj mn : Nat) (a b c d t : Nat) : Raw := ⟨maj, 0, 0, mn, a, b, c, d, t, 0, 0⟩
/-- Format I. -/
def fI (maj mn : Nat) (a b t i : Nat) : Raw := ⟨maj, 0, 0, mn, a, b, 0, 0, t, 0, i⟩
/-- Format K. -/
def fK (maj i : Nat) : Raw := ⟨maj, 0, 0, 0, 0, 0, 0, 0, 0, 0, i⟩
/-- Format W: the low 64 bits of the word, cut at the bounds of `Raw`. -/
def fW (maj a x : Nat) : Raw :=
  ⟨maj, 0, 0, 0, a, 0, x / 2 ^ 62, x / 2 ^ 56 % 64, x / 2 ^ 51 % 32, x / 2 ^ 32 % 2 ^ 19, x % 2 ^ 32⟩
/-- Format M. -/
def fM (maj mn a : Nat) (m : Addr) (t aux : Nat) : Raw :=
  ⟨maj, 0, 0, mn, a, m.base.val, m.idx.val, m.nu.val, m.gate.val * 8 + t / 4, t % 4 * 2 ^ 17 + aux, m.off.toNat⟩
/-- Format M, strided and indexed. -/
def fMb (maj a c : Nat) (m : BaseAddr) (t aux : Nat) : Raw :=
  ⟨maj, 0, 0, 0, a, m.base.val, c, m.nu.val, m.gate.val * 8 + t / 4, t % 4 * 2 ^ 17 + aux, m.off.toNat⟩
/-- Format B with a direct target; `hi` is aux 67:43 as fields C, D, T and bits 50:43. -/
def fB (maj a b c d t hi : Nat) (g : Target) : Raw :=
  ⟨maj, 0, 0, 0, a, b, c, d, t, hi * 2 ^ 11 + g.tslot.val * 2 ^ 8 + g.disp.toNat / 2 ^ 32, g.disp.toNat % 2 ^ 32⟩
/-- Format E. -/
def fE (maj mn a b c d t x i : Nat) : Raw := ⟨maj, 0, 0, mn, a, b, c, d, t, x, i⟩

/-- The fields of an unguarded instruction's word, from the encodings of R58 and of each description; `none` for
the steps of other agents, which have no word. -/
def raw : Instr → Option Raw
  | .nop => some (z 0x01 0)
  | .brk n => some (fK 0x02 n.toNat)
  | .trap n => some (fK 0x03 n.toNat)
  | .sret => some (z 0x04 0)
  | .sys n => some (fK 0x05 n.toNat)
  | .rgn gin lcin => some (fW 0x06 lcin.toNat gin.toNat)
  | .fence => some (z 0x07 0)
  | .fenceAcq => some (z 0x07 1)
  | .fenceRel => some (z 0x07 2)
  | .fenceAr => some (z 0x07 3)
  | .xf c1 c2 => some (fK 0x08 (c2.code * 8 + c1.code))
  | .wait l s c t => some (fK 0x09 (t.val * 2 ^ 12 + c.val * 2 ^ 8 + s.val * 2 ^ 4 + l.val))
  | .susFull b => some (fI 0x0A 0 0 b.val 0 1)
  | .susEmpty b => some (fI 0x0A 0 0 b.val 0 2)
  | .susJoin b => some (fI 0x0A 0 0 b.val 0 3)
  | .fin => some (z 0x0B 0)
  | .yld => some (z 0x0C 0)
  | .csrr a n => some (fI 0x0D 0 a.val 0 0 n.toNat)
  | .csrw n b => some (fI 0x0D 1 0 b.val 0 n.toNat)
  | .csrx a n b => some (fI 0x0D 2 a.val b.val 0 n.toNat)
  | .csrs a n b => some (fI 0x0D 3 a.val b.val 0 n.toNat)
  | .csrc a n b => some (fI 0x0D 4 a.val b.val 0 n.toNat)
  | .add a b c => some (fG 0x10 0 a.val b.val c.val 0 0)
  | .sub a b c => some (fG 0x10 1 a.val b.val c.val 0 0)
  | .mul a b c => some (fG 0x10 2 a.val b.val c.val 0 0)
  | .mulh a b c => some (fG 0x10 3 a.val b.val c.val 0 0)
  | .mulhz a b c => some (fG 0x10 4 a.val b.val c.val 0 0)
  | .div a b c => some (fG 0x10 5 a.val b.val c.val 0 0)
  | .divz a b c => some (fG 0x10 6 a.val b.val c.val 0 0)
  | .rem a b c => some (fG 0x10 7 a.val b.val c.val 0 0)
  | .remz a b c => some (fG 0x10 8 a.val b.val c.val 0 0)
  | .min a b c => some (fG 0x10 9 a.val b.val c.val 0 0)
  | .max a b c => some (fG 0x10 10 a.val b.val c.val 0 0)
  | .minz a b c => some (fG 0x10 11 a.val b.val c.val 0 0)
  | .maxz a b c => some (fG 0x10 12 a.val b.val c.val 0 0)
  | .addi a b i => some (fI 0x11 0 a.val b.val 0 i.toNat)
  | .and a b c => some (fG 0x12 0 a.val b.val c.val 0 0)
  | .or a b c => some (fG 0x12 1 a.val b.val c.val 0 0)
  | .xor a b c => some (fG 0x12 2 a.val b.val c.val 0 0)
  | .andn a b c => some (fG 0x12 3 a.val b.val c.val 0 0)
  | .orn a b c => some (fG 0x12 4 a.val b.val c.val 0 0)
  | .shl a b c => some (fG 0x12 5 a.val b.val c.val 0 0)
  | .shr a b c => some (fG 0x12 6 a.val b.val c.val 0 0)
  | .sar a b c => some (fG 0x12 7 a.val b.val c.val 0 0)
  | .rot a b c => some (fG 0x12 8 a.val b.val c.val 0 0)
  | .andi a b i => some (fI 0x13 0 a.val b.val 0 i.toNat)
  | .ori a b i => some (fI 0x13 1 a.val b.val 0 i.toNat)
  | .xori a b i => some (fI 0x13 2 a.val b.val 0 i.toNat)
  | .andni a b i => some (fI 0x13 3 a.val b.val 0 i.toNat)
  | .orni a b i => some (fI 0x13 4 a.val b.val 0 i.toNat)
  | .shli a b k => some (fI 0x13 5 a.val b.val 0 k.val)
  | .shri a b k => some (fI 0x13 6 a.val b.val 0 k.val)
  | .sari a b k => some (fI 0x13 7 a.val b.val 0 k.val)
  | .roti a b k => some (fI 0x13 8 a.val b.val 0 k.val)
  | .clz a b => some (fG 0x14 0 a.val b.val 0 0 0)
  | .ctz a b => some (fG 0x14 1 a.val b.val 0 0 0)
  | .pop a b => some (fG 0x14 2 a.val b.val 0 0 0)
  | .sext t a b => some (fG 0x14 3 a.val b.val 0 0 t.code)
  | .zext t a b => some (fG 0x14 4 a.val b.val 0 0 t.code)
  | .bswp t a b => some (fG 0x14 5 a.val b.val 0 0 t.code)
  | .bfx t a b lo w => some (fI 0x15 0 a.val b.val t.code (w.val * 2 ^ 8 + lo.val))
  | .bfi a b lo w => some (fI 0x16 0 a.val b.val 0 (w.val * 2 ^ 8 + lo.val))
  | .cmp cc q b c => some (fG 0x17 cc.code q.val b.val c.val 0 0)
  | .cmpi cc q b i => some (fI 0x18 cc.code q.val b.val 0 i.toNat)
  | .sel a q c d => some (fG 0x19 0 a.val q.val c.val d.val 0)
  | .li a i => some (fW 0x1A a.val i.toNat)
  | .mov (.gg a b) => some (fE 0x1B 0 a.val b.val 0 0 0 0 0)
  | .mov (.lcg a b) => some (fE 0x1B 0 a.val b.val 0 0 0 (2 ^ 17) 0)
  | .mov (.glc a b) => some (fE 0x1B 0 a.val b.val 0 0 0 (2 * 2 ^ 17) 0)
  | .lea a b x i => some (fE 0x1C 0 a.val b.val x.val 0 0 0 i.toNat)
  | .pand a b c => some (fG 0x1D 0 a.val b.val c.val 0 0)
  | .por a b c => some (fG 0x1D 1 a.val b.val c.val 0 0)
  | .pxor a b c => some (fG 0x1D 2 a.val b.val c.val 0 0)
  | .pnot a b => some (fG 0x1D 3 a.val b.val 0 0 0)
  | .fadd t a b c => some (fG 0x20 0 a.val b.val c.val 0 t.code)
  | .fsub t a b c => some (fG 0x20 1 a.val b.val c.val 0 t.code)
  | .fmul t a b c => some (fG 0x20 2 a.val b.val c.val 0 t.code)
  | .fdiv t a b c => some (fG 0x20 3 a.val b.val c.val 0 t.code)
  | .fsqrt t a b => some (fG 0x20 4 a.val b.val 0 0 t.code)
  | .fmin t a b c => some (fG 0x20 5 a.val b.val c.val 0 t.code)
  | .fmax t a b c => some (fG 0x20 6 a.val b.val c.val 0 t.code)
  | .fma t a b c d => some (fG 0x21 0 a.val b.val c.val d.val t.code)
  | .fcmp cc t q b c => some (fG 0x22 cc.code q.val b.val c.val 0 t.code)
  | .fcvt d t a b => some (fE 0x23 0 a.val b.val 0 0 d.code (t.code * 2 ^ 14) 0)
  | .br t => some (fB 0x30 0 0 0 0 0 0 t)
  | .bri b => some (fI 0x31 0 0 b.val 0 0)
  | .call a t => some (fB 0x32 a.val 0 0 0 0 0 t)
  | .calli a b => some (fI 0x33 0 a.val b.val 0 0)
  | .ret b => some (fI 0x34 0 0 b.val 0 0)
  | .lp k b tk t => some (fB 0x35 k.val b.val (b1 tk * 32) 0 0 0 t)
  | .lpx k n tk t => some (fB 0x36 k.val 0 (b1 tk * 32 + n.toNat / 2 ^ 19) (n.toNat / 2 ^ 13 % 64)
      (n.toNat / 2 ^ 8 % 32) (n.toNat % 256) t)
  | .lpr k b tk t => some (fB 0x37 k.val b.val (b1 tk * 32) 0 0 0 t)
  | .jt a b n => some (fE 0x38 0 a.val b.val (n.toNat / 2 ^ 10) (n.toNat / 2 ^ 4 % 64) (n.toNat % 16 * 2) 0 0)
  | .spawn a b c => some (fE 0x60 0 a.val b.val c.val 0 0 0 0)
  | .spawnt a b c => some (fE 0x60 1 a.val b.val c.val 0 0 0 0)
  | .send a b c d => some (fE 0x61 0 a.val b.val c.val d.val 0 0 0)
  | .sendv a b c d n => some (fE 0x61 1 a.val b.val c.val d.val 0 0 n.val)
  | .jinit b c n => some (fE 0x62 0 0 b.val c.val 0 0 0 n.toNat)
  | .arr b n => some (fE 0x63 0 0 b.val 0 0 0 0 n.toNat)
  | .tjoin a b => some (fE 0x64 0 a.val b.val 0 0 0 0 0)
  | .tleave => some (z 0x64 1)
  | .tarr => some (z 0x64 2)
  | .twait a => some (fE 0x64 3 a.val 0 0 0 0 0 0)
  | .tinfo a n => some (fE 0x64 4 a.val 0 0 0 0 0 n.val)
  | .enq a b q => some (fE 0x65 0 a.val b.val 0 0 0 0 q.val)
  | .deq a b q => some (fE 0x65 1 a.val b.val 0 0 0 0 q.val)
  | .deqw a q => some (fE 0x65 2 a.val 0 0 0 0 0 q.val)
  | .qinfo a q => some (fE 0x65 3 a.val 0 0 0 0 0 q.val)
  | .gvt a b n => some (fE 0x66 0 a.val b.val 0 0 0 0 n.val)
  | .ld t a m => some (fM 0x40 0 a.val m t.code 0)
  | .ldAcq t a m => some (fM 0x40 1 a.val m t.code 0)
  | .st t a m => some (fM 0x41 0 a.val m t.code 0)
  | .stRel t a m => some (fM 0x41 1 a.val m t.code 0)
  | .ldc t a m => some (fM 0x42 0 a.val m t.code 0)
  | .ldv t a m k => some (fM 0x43 0 a.val m t.code (mm k))
  | .stv t a m k => some (fM 0x44 0 a.val m t.code (mm k))
  | .ldvs t a m c k => some (fMb 0x45 a.val c.val m t.code (mm k))
  | .stvs t a m c k => some (fMb 0x46 a.val c.val m t.code (mm k))
  | .ldvx t a m c x k => some (fMb 0x47 a.val c.val m t.code (mm k + b1 x * 2 ^ 11))
  | .stvx t a m c x k => some (fMb 0x48 a.val c.val m t.code (mm k + b1 x * 2 ^ 11))
  | .ldf t a m => some (fM 0x49 0 a.val m t.code 0)
  | .ldfe t a m => some (fM 0x49 1 a.val m t.code 0)
  | .stef t a m => some (fM 0x49 2 a.val m t.code 0)
  | .stff t a m => some (fM 0x49 3 a.val m t.code 0)
  | .pf m => some (fM 0x4A 0 0 m 0 0)
  | .cln m => some (fM 0x4A 1 0 m 0 0)
  | .inv m => some (fM 0x4A 2 0 m 0 0)
  | .amo op o t a m s => some (fM 0x4B op.code a.val m t.code (s.val * 2 ^ 6 + o.code * 2 ^ 4))
  | .red op rel t a m => some (fM 0x4C op.code a.val m t.code (b1 rel * 2 ^ 5))
  | .redXs rel a m s => some (fM 0x4C 11 a.val m 5 (s.val * 2 ^ 6 + b1 rel * 2 ^ 5))
  | .redXcvt rel a m => some (fM 0x4C 12 a.val m 13 (b1 rel * 2 ^ 5))
  | .ldbd a m => some (fM 0x4D 0 a.val m 0 0)
  | .stbd a m => some (fM 0x4D 1 a.val m 0 0)
  | .bbar a m => some (fM 0x4E 0 a.val m 0 0)
  | .nutick n => some (fK 0xE0 n.toNat)
  | .nudom n => some (fK 0xE1 n.toNat)
  | .nuq a b w => some (fI 0xE2 0 a.val b.val 0 (b1 w))
  | .nurel a m => some (fM 0xE3 0 a.val m 0 0)
  | .abrt => some (z 0xE4 0)
  | .abrtRec a b => some (fI 0xE4 0 a.val b.val 0 1)
  | .astat a n => some (fI 0xE5 0 a.val 0 0 n.val)
  | .vadd t a b c o => some (fE 0x70 0 a.val b.val c.val 0 t.code (vo o) 0)
  | .vsub t a b c o => some (fE 0x70 1 a.val b.val c.val 0 t.code (vo o) 0)
  | .vmul t a b c o => some (fE 0x70 2 a.val b.val c.val 0 t.code (vo o) 0)
  | .vmin t a b c k => some (fE 0x70 3 a.val b.val c.val 0 t.code (vm k) 0)
  | .vmax t a b c k => some (fE 0x70 4 a.val b.val c.val 0 t.code (vm k) 0)
  | .vdiv t a b c k r => some (fE 0x70 5 a.val b.val c.val 0 t.code (vo ⟨k, r, false⟩) 0)
  | .vfma t a b c d o => some (fE 0x71 0 a.val b.val c.val d.val t.code (vo o) 0)
  | .vsqrt t a b k r => some (fE 0x72 0 a.val b.val 0 0 t.code (vo ⟨k, r, false⟩) 0)
  | .vrcp t a b k r => some (fE 0x72 1 a.val b.val 0 0 t.code (vo ⟨k, r, false⟩) 0)
  | .vrsq t a b k r => some (fE 0x72 2 a.val b.val 0 0 t.code (vo ⟨k, r, false⟩) 0)
  | .vexp2 t a b k r => some (fE 0x72 3 a.val b.val 0 0 t.code (vo ⟨k, r, false⟩) 0)
  | .vlog2 t a b k r => some (fE 0x72 4 a.val b.val 0 0 t.code (vo ⟨k, r, false⟩) 0)
  | .vabs t a b k s => some (fE 0x72 5 a.val b.val 0 0 t.code (vm k + b1 s * 2 ^ 9) 0)
  | .vneg t a b k s => some (fE 0x72 6 a.val b.val 0 0 t.code (vm k + b1 s * 2 ^ 9) 0)
  | .vnot t a b k => some (fE 0x72 7 a.val b.val 0 0 t.code (vm k) 0)
  | .vand t a b c k => some (fE 0x73 0 a.val b.val c.val 0 t.code (vm k) 0)
  | .vor t a b c k => some (fE 0x73 1 a.val b.val c.val 0 t.code (vm k) 0)
  | .vxor t a b c k => some (fE 0x73 2 a.val b.val c.val 0 t.code (vm k) 0)
  | .vshl t a b (.reg c) k => some (fE 0x73 3 a.val b.val c.val 0 t.code (vm k) 0)
  | .vshl t a b (.imm n) k => some (fE 0x73 3 a.val b.val 0 0 t.code (vm k + 2 ^ 10) n.val)
  | .vshr t a b (.reg c) k => some (fE 0x73 4 a.val b.val c.val 0 t.code (vm k) 0)
  | .vshr t a b (.imm n) k => some (fE 0x73 4 a.val b.val 0 0 t.code (vm k + 2 ^ 10) n.val)
  | .vsar t a b (.reg c) k => some (fE 0x73 5 a.val b.val c.val 0 t.code (vm k) 0)
  | .vsar t a b (.imm n) k => some (fE 0x73 5 a.val b.val 0 0 t.code (vm k + 2 ^ 10) n.val)
  | .vcmp cc t m b c k => some (fE 0x74 cc.code m.val b.val c.val 0 t.code (vm k) 0)
  | .vsel t a m c d => some (fE 0x75 0 a.val m.val c.val d.val t.code 0 0)
  | .vcvt d s a b q sc o => some (fE 0x76 0 a.val b.val 0 0 d.code (vo o + scX sc + s.code) (scI sc + q.val))
  | .vsat t a b n k => some (fE 0x77 0 a.val b.val 0 0 t.code (vm k) n.val)
  | .vpack t a b c k s => some (fE 0x78 0 a.val b.val c.val 0 t.code (vm k + b1 s * 2 ^ 9) 0)
  | .vunpk t a b q k => some (fE 0x79 0 a.val b.val 0 0 t.code (vm k) (b1 q))
  | .vred op t a b k r => some (fE 0x7A op.code a.val b.val 0 0 t.code (vo ⟨k, r, false⟩) 0)
  | .vscan op t a b k r => some (fE 0x7B op.code a.val b.val 0 0 t.code (vo ⟨k, r, false⟩) 0)
  | .vdot t a b c k r => some (fE 0x7C 0 a.val b.val c.val 0 t.code (vo ⟨k, r, false⟩) 0)
  | .vmacc t a b c o => some (fE 0x7D 0 a.val b.val c.val 0 t.code (vo o) 0)
  | .vperm t a b c k => some (fE 0x7E 0 a.val b.val c.val 0 t.code (vm k) 0)
  | .vshuf t a b c k => some (fE 0x7F 0 a.val b.val c.val 0 t.code (vm k) 0)
  | .vbcast t a b k => some (fE 0x80 0 a.val b.val 0 0 t.code (vm k) 0)
  | .vext t a b (.reg c) => some (fE 0x81 0 a.val b.val c.val 0 t.code 0 0)
  | .vext t a b (.imm n) => some (fE 0x81 0 a.val b.val 0 0 t.code (2 ^ 10) n.toNat)
  | .vins t a b (.reg c) => some (fE 0x82 0 a.val b.val c.val 0 t.code 0 0)
  | .vins t a b (.imm n) => some (fE 0x82 0 a.val b.val 0 0 t.code (2 ^ 10) n.toNat)
  | .vmov a b => some (fE 0x83 0 a.val b.val 0 0 0 0 0)
  | .vcnt op t a b k => some (fE 0x84 0 a.val b.val 0 0 t.code (vm k + op.code * 2 ^ 6) 0)
  | .mand t a b c => some (fE 0x85 0 a.val b.val c.val 0 t.code 0 0)
  | .mor t a b c => some (fE 0x85 1 a.val b.val c.val 0 t.code 0 0)
  | .mnot t a b => some (fE 0x85 2 a.val b.val 0 0 t.code 0 0)
  | .mpop t a b => some (fE 0x85 3 a.val b.val 0 0 t.code 0 0)
  | .mfirst t a b => some (fE 0x85 4 a.val b.val 0 0 t.code 0 0)
  | .vblkRd a b n => some (fE 0x86 0 a.val b.val 0 0 0 0 n.val)
  | .vblkWr a b n => some (fE 0x86 0 a.val b.val 0 0 0 (2 ^ 6) n.toNat)
  | .mclr a => some (fE 0xA0 0 a.val 0 0 0 0 0 0)
  | .mldb u b c d kb sp nu => some (fE 0xA1 0 0 b.val c.val d.val 0 (b1 sp * 2 ^ 11 + nu.val) (u.val * 2 ^ 8 + kb.val))
  | .mmac t a b c u kb => some (fE 0xA2 0 a.val b.val c.val 0 t.code 0 (u.val * 2 ^ 8 + kb.val))
  | .mmacs t a b c u kb => some (fE 0xA3 0 a.val b.val c.val 0 t.code 0 (u.val * 2 ^ 8 + kb.val))
  | .mrd a b q c => some (fE 0xA4 0 a.val b.val 0 0 0 0 (c.val * 2 ^ 8 + q.val))
  | .mwr a b q c => some (fE 0xA5 0 a.val b.val 0 0 0 0 (c.val * 2 ^ 8 + q.val))
  | .mcvt t a b q sc sat r => some (fE 0xA6 0 a.val b.val 0 0 t.code (r.val * 2 ^ 12 + b1 sat * 2 ^ 9 + scX sc)
      (scI sc + q.val))
  | .msum a b c => some (fE 0xA7 0 a.val b.val c.val 0 0 0 0)
  | .mtr a b c tr => some (fE 0xA8 0 a.val b.val c.val 0 0 (b1 tr) 0)
  | .mfree a => some (fE 0xA9 0 a.val 0 0 0 0 0 0)
  | .cp a b c d dn sn => some (fE 0xB0 0 a.val b.val c.val d.val 0 (dn.val * 64 + sn.val) 0)
  | .cp2d a b c d r q dn sn => some (fE 0xB1 0 a.val b.val c.val d.val 0 (dn.val * 64 + sn.val)
      (r.toNat * 2 ^ 16 + q.toNat))
  | .cpl a b c d dn => some (fE 0xB2 0 a.val b.val c.val d.val 0 (dn.val * 64) 0)
  | .cpc a b c d dn sn => some (fE 0xB3 0 a.val b.val c.val d.val 0 (dn.val * 64 + sn.val) 0)
  | .cps a b c d ds dn sn => some (fE 0xB4 0 a.val b.val c.val d.val 0 (dn.val * 64 + sn.val) ds.toNat)
  | .gth t a b c d n x dn sn => some (fE 0xB5 0 a.val b.val c.val d.val t.code (dn.val * 64 + sn.val)
      (b1 x * 2 ^ 16 + n.toNat))
  | .sct t a b c d n x dn sn => some (fE 0xB6 0 a.val b.val c.val d.val t.code (dn.val * 64 + sn.val)
      (b1 x * 2 ^ 16 + n.toNat))
  | .cmpx t a b c d n x dn sn => some (fE 0xB7 0 a.val b.val c.val d.val t.code (dn.val * 64 + sn.val)
      (b1 x * 2 ^ 17 + n.toNat))
  | .tsubLd a b c => some (fE 0xB8 0 a.val b.val c.val 0 0 0 0)
  | .tsubSt a b c => some (fE 0xB8 0 a.val b.val c.val 0 0 0 1)
  | .trel b c => some (fE 0xB9 0 0 b.val c.val 0 0 0 0)
  | .qbase b c d => some (fE 0xC0 0 0 b.val c.val d.val 0 0 0)
  | .qdef a b c n => some (fE 0xC1 0 a.val b.val c.val 0 0 0 n.toNat)
  | .qget s a b => some (fE 0xC2 0 a.val b.val 0 0 0 0 s.val)
  | .qset s b c => some (fE 0xC3 0 0 b.val c.val 0 0 0 s.val)
  | .qslope b c d => some (fE 0xC4 0 0 b.val c.val d.val 0 0 0)
  | .qcross b => some (fE 0xC5 0 0 b.val 0 0 0 0 0)
  | .qdeps b c d => some (fE 0xC6 0 0 b.val c.val d.val 0 0 0)
  | .qnext a => some (fE 0xC7 0 a.val 0 0 0 0 0 0)
  | .qrun b c d => some (fE 0xC8 0 0 b.val c.val d.val 0 0 0)
  | .qstop a => some (fE 0xC9 0 a.val 0 0 0 0 0 0)
  | .qsnap b c n => some (fE 0xCA 0 0 b.val c.val 0 0 0 n.toNat)
  | .qstat a s => some (fE 0xCB 0 a.val 0 0 0 0 0 s.val)
  | .qstorm s b c => some (fE 0xCC 0 0 b.val c.val 0 0 0 s.val)
  | .pclr => some (z 0xD0 0)
  | .pcol a b => some (fE 0xD1 0 a.val b.val 0 0 0 0 0)
  | .pcolAt a b c => some (fE 0xD1 0 a.val b.val c.val 0 0 0 1)
  | .pcolrRd a b => some (fE 0xD2 0 a.val b.val 0 0 0 0 0)
  | .pcolrFr a b => some (fE 0xD2 0 a.val b.val 0 0 0 0 1)
  | .pdec a b => some (fE 0xD3 0 a.val b.val 0 0 0 0 0)
  | .pprop a => some (fE 0xD4 0 a.val 0 0 0 0 0 0)
  | .pbt a b => some (fE 0xD5 0 a.val b.val 0 0 0 0 0)
  | .prow a b => some (fE 0xD6 0 a.val b.val 0 0 0 0 0)
  | .ptrl a b => some (fE 0xD7 0 a.val b.val 0 0 0 0 0)
  | .pconf a => some (fE 0xD8 0 a.val 0 0 0 0 0 0)
  | .plvl a => some (fE 0xD9 0 a.val 0 0 0 0 0 0)
  | .pset a b => some (fE 0xDA 0 a.val b.val 0 0 0 0 0)
  | .pstat a s => some (fE 0xDB 0 a.val 0 0 0 0 0 s.val)
  | _ => none

end Encode

/-- The word of an instruction under a guard (R42); 0, which is no instruction, for a step of another agent. -/
def encode (q : Guard) (i : Instr) : Nat :=
  match Encode.raw i with
  | some r => { r with gs := Encode.b1 q.sense, gp := q.pred.val }.pack
  | none => 0

/-- A guard that a word can carry: `(!p0)` is illegal (R43). -/
def Guard.ok (q : Guard) : Bool := !(q.sense && q.pred == 0)

/-- No guard: p0, sense 0 (R42). -/
def Guard.none : Guard := ⟨false, 0⟩

/-- An instruction that has a word (R58): not a step of another agent. -/
def Instr.hasWord (i : Instr) : Bool := (Encode.raw i).isSome

/-- What the decoder reads from an instruction whose bits are `w`, at slot 0 of its line: bit 0 is the least
significant bit of the word, since the word is little-endian (R41). The bits from `nbits` up to the 96 are 0. -/
def decodeTableWord (nbits w : Nat) : Option Instr :=
  match decode 0 (w % 2 ^ nbits % 2 ^ 96) with
  | .ok (_, i) => some i
  | .error _ => Option.none

end Sys2Proof
end

