-- ==== Sys2Proof/Machine/Release.lean ====
section
/-! DEFINITION. Events of Larkspur on their way to Aster (R300 to R303): templates, pool records, requests. -/

namespace Sys2Proof.Machine

/-- The record checks of R84 that need only the head: version, state, kind, live set, reserved fields, PC, scratch. -/
def headOk (h : Head) (kinds : List Nat) : Bool :=
  h.version == 1 && h.state == 1 && kinds.contains h.kind && h.reservedOk && codeAddr h.pc && h.scratchOk

/-- A template must have an empty live set (R86, R300). -/
def templateOk (h : Head) (kind : Nat) : Bool := headOk h [kind] && h.live == 0 && h.lclive == 0

namespace State

/-- The head at a virtual address of a launch, as a cluster's unit reads it. -/
def headAt (s : State) (pkg launch : Nat) (a : Word) : Option Head :=
  match s.translate (pkg * 8) launch a .load with
  | .ok pa => some (Head.ofBytes ((s.settleRange pa 64).peekBytes pa 64))
  | .error _ => none

/-- The lowest free record of a cluster's handler pool (R86). -/
def poolFree (c : Cluster) : Option Nat := (List.range c.poolSize).find? (fun i => (Store.find? c.pool i).isNone)

/-- Larkspur arrives at the join cell of its run, once (R317, R300). -/
def arriveRun (s : State) (pkg : Nat) : State :=
  let l := (s.clusterAt pkg).lark
  let s1 := s.updLark pkg (fun l => { l with arrived := true })
  match l.join with
  | some va => if l.arrived then s1 else (s1.arriveOne (pkg * 8) l.launch va).getD s1
  | none => s1

/-- Larkspur halts on a template that fails its checks, and arrives at the run's join cell (R300). -/
def haltLark (s : State) (pkg : Nat) : State :=
  (s.updLark pkg (fun l => { l with run := 3, halt := 1 })).arriveRun pkg

/-- The template of an event (R299, R310). -/
def templateOf (l : Lark) : Event → Word
  | .reeval v _ _ => l.table + BitVec.ofNat 64 (64 * (l.var v).fn.toNat)
  | _ => l.tmpl

/-- Start an event: a pool record filled from its template, handed to Aster (R300). `none` when it waits. -/
def startEvent (s : State) (pkg : Nat) (p : PendingEvent) : Option State :=
  let c := s.clusterAt pkg
  let l := c.lark
  match s.headAt pkg l.launch (templateOf l p.ev) with
  | none => some ((s.failedWalk (pkg * 8) l.launch (templateOf l p.ev)).haltLark pkg)
  | some h =>
    if !templateOk h 2 then some (s.haltLark pkg)
    else match poolFree c with
      | none => none
      | some i =>
        let h1 : Head := { h with
          key := BitVec.ofNat 64 p.key.1, live := 6, parent := 0
          tail := BitVec.ofNat 64 (p.key.2.1 % 256 * 2 ^ 56 + p.key.2.2 % 2 ^ 40) }
        let r : RecId := { launch := l.launch, addr := Config.poolRecord pkg i, pool := some (pkg, i) }
        let vals : List Word := [BitVec.ofNat 64 p.key.2.2, BitVec.ofNat 64 p.key.1]
        (s.updCluster pkg (fun c => { c with pool := Store.set c.pool i (h1, vals) })).accept pkg r p.ev false

/-- Events that wait start as records and entries free, lowest key first. -/
def servePending (s : State) (pkg : Nat) : State :=
  match (s.clusterAt pkg).lark.pending.foldl (fun (b : Option PendingEvent) p => match b with
      | none => some p
      | some q => if lt3 p.key q.key then some p else b) none with
  | none => s
  | some p => match s.startEvent pkg p with
    | none => s
    | some t => t.updLark pkg (fun l => { l with pending := l.pending.filter (· != p) })

/-- Add a requester: an entry, or one that cannot be withdrawn (R302, R303). -/
def addRequester (by_ : Option Nat) : Event → Event
  | .reeval v l firm => match by_ with
    | some i => if l.contains i then .reeval v l firm else .reeval v (l ++ [i]) firm
    | none => .reeval v l (firm + 1)
  | e => e

/-- The variable of a re-evaluation. -/
def evalOf : Event → Option Nat
  | .reeval v _ _ => some v
  | _ => none

/-- A request for the re-evaluation (t, 1, j) of a local variable (R302). -/
def requestEval (s : State) (pkg v t : Nat) (by_ : Option Nat) : State :=
  let c := s.clusterAt pkg
  let l := c.lark
  if !(l.var v).defined then s.updLark pkg (fun l => l.bump 5)
  else
    let mine (e : Entry) : Bool := evalOf e.ev == some v && e.head.key.toNat == t
    match c.entries.find? mine with
    | some e =>
      let s1 := (s.updLark pkg (fun l => l.bump 4)).updEntry pkg e.id (fun e => { e with ev := addRequester by_ e.ev })
      if e.st == .running || e.st == .done || e.st == .committing || e.st == .suspended then
        s1.abortList [(pkg, e.id, false)] true
      else s1
    | none =>
      if l.pending.any (fun p => evalOf p.ev == some v && p.key.1 == t) then
        s.updLark pkg (fun l => { l.bump 4 with pending := l.pending.map (fun p =>
          if evalOf p.ev == some v && p.key.1 == t then { p with ev := addRequester by_ p.ev } else p) })
      else
        let p : PendingEvent := ⟨(t, 1, varId s.dev pkg v), addRequester by_ (.reeval v [] 0)⟩
        match s.startEvent pkg p with
        | some u => u
        | none => s.updLark pkg (fun l => { l with pending := l.pending ++ [p] })

/-- Larkspur's run ends when nothing remains to release or to commit (R317). -/
def runOver (s : State) (pkg : Nat) : Bool :=
  let c := s.clusterAt pkg
  (c.lark.run == 1 || c.lark.run == 2) && (s.leastCrossing pkg).isNone && c.lark.pending.isEmpty &&
  c.entries.all (fun e => e.ev == .other)

end State
end Sys2Proof.Machine
end

