-- ==== Sys2Proof/Machine/Ops.lean ====
section
/-! DEFINITION. The operations that every instruction shares: the bytes of an instruction (R41, R49, R106),
retirement and the loop step (R141), transfers of control (R54, R143), taking a trap and returning from it (R107 to
R111), the continuations of R71, R80 and R81. They act on the issuing slot, `s.cur`. -/

namespace Sys2Proof.Machine

/-- The word of a slot of a line (R41). -/
def slotWord (line k : Nat) : Nat := line / 2 ^ (96 * k) % 2 ^ 96

/-- The line word (R48). -/
def lineWord (line : Nat) : Nat := line / 2 ^ 480

/-- The slot is a legal branch target (R48). -/
def targetBit (line k : Nat) : Bool := (lineWord line).testBit (27 + k)

/-- Even parity over a slot and its parity bit (R48). -/
def parityOk (line k : Nat) : Bool :=
  (Instr.popLow (slotWord line k) 96 + (if (lineWord line).testBit (8 + k) then 1 else 0)) % 2 == 0

namespace State

/-! ### Fetching -/

/-- The fetch line that holds an address, as the home or its owners hold it now, as a little-endian number (R41, R419,
log 70). -/
def memLine (s : State) (sid : Nat) (pc : Word) : Except Trap Nat :=
  match s.translate (coreOf sid) (s.slotAt sid).rid.launch (lineOfPc pc) .fetch with
  | .ok pa => .ok (leNat ((s.settleRange pa 64).peekBytes pa 64))
  | .error t => .error t

/-- The captured line of an active loop level whose body holds the address (R106). -/
def loopLine (sl : Slot) (pc : Word) : Option Nat :=
  sl.order.findSome? (fun k =>
    let l := sl.level k
    if l.act && l.start.toNat ≤ pc.toNat && pc.toNat ≤ l.stop.toNat then Store.find? l.body pc.toNat else none)

/-- The line from which an address issues: the loop buffer, a corrupted copy that a soft error left (R397), memory. -/
def fetchLine (s : State) (sid : Nat) (pc : Word) : Except Trap Nat :=
  match loopLine (s.slotAt sid) pc with
  | some x => .ok x
  | none => match Store.find? (s.slotAt sid).icopy (lineOfPc pc).toNat with
    | some x => .ok x.toNat
    | none => s.memLine sid pc

/-- The word of the issuing slot's instruction; 0 when it cannot be fetched. -/
def wordHere (s : State) : Nat :=
  match s.fetchLine s.cur s.pc with
  | .ok l => slotWord l (slotOfPc s.pc)
  | .error _ => 0

/-- The destination is a marked target; a line that cannot be fetched is not consulted (R105, log 14). -/
def marked (s : State) (d : Word) : Bool :=
  match s.fetchLine s.cur d with
  | .ok l => targetBit l (slotOfPc d)
  | .error _ => true

/-- The inputs of the `rgn` that stands next in program order (R73, R80). -/
def nextRgn (s : State) : Option (Word × BitVec 3) :=
  let a := nextPc s.pc
  match s.fetchLine s.cur a with
  | .ok l => match decode (slotOfPc a) (slotWord l (slotOfPc a)) with
    | .ok (_, .rgn gin lcin) => some (gin, lcin)
    | _ => none
  | .error _ => none

/-! ### Retirement (R141 to R143) -/

/-- The instruction that issues is captured by the active levels whose bodies hold it and fit in the free entries, as its
line was fetched (R106, log 13). -/
def captureHere (s : State) (line : Nat) : State :=
  let pc := s.pc
  let sl := s.slot
  let due (j : Nat) : Bool :=
    let l := sl.level j
    l.act && l.start.toNat ≤ pc.toNat && pc.toNat ≤ l.stop.toNat && (Store.find? l.body pc.toNat).isNone &&
    Slot.Level.size l ≤ sl.room j
  match sl.order.filter due with
  | [] => s
  | js => s.upd (fun t => js.foldl (fun t j => let l := t.level j
                                               t.setLevel j { l with body := Store.set l.body pc.toNat line }) t)

/-- A level whose first iteration has ended issues from the loop buffer when its body was captured (R98, R106). -/
def capture (s : State) (j : Nat) : State :=
  let l := s.slot.level j
  if l.cap || l.body.isEmpty then s else s.upd (fun t => t.setLevel j { l with cap := true })

/-- Seal the region (R70). -/
def markSealed (s : State) : State := s.upd (fun t => { t with region := { t.region with sealed := true } })

/-- The iteration step over the active levels, most recently opened first (R141, R142): where it continues, if it
does. -/
def iterate (pc : Word) : List Nat → State → Option Word × State
  | [], s => (none, s)
  | j :: rest, s =>
    let l := s.slot.level j
    if !l.act || l.stop != pc then iterate pc rest s
    else
      let s1 := if l.tick then (s.postClock s.cur 1).markSealed else s
      let s2 := if l.rot then s1.upd (fun t => { t with csr := { t.csr with vrb := t.csr.vrb + 31 } }) else s1
      let n := s2.slot.lcr j
      if n.toNat ≤ 1 then iterate pc rest (s2.upd (fun t => (t.setLc j 0).closeLevel j))
      else (some l.start, (s2.upd (fun t => t.setLc j (n - 1))).capture j)

/-- One more instruction has retired (R96); what its waiting left behind is cleared. -/
def countIns (s : State) : State :=
  s.upd (fun t => { t with csr := { t.csr with ins := t.csr.ins + 1 }, spin := none, expired := false, pass := false,
                           counted := false, after := none })

/-- Retire the issuing slot's instruction: `ins`, the loop step, the next address; past the other member of its packet when
that has issued (R228). -/
def retire (s : State) : State :=
  let s1 := s.countIns
  let (d, s2) := iterate s1.pc s1.slot.order s1
  s2.upd (fun t => { t with pc := (d.or s.slot.after).getD (nextPc s1.pc) })

/-- Retire an instruction that seals (R70). -/
def retireSeal (s : State) : State := s.markSealed.retire

/-- A transfer of control takes effect (R143): it takes no step; it closes the levels whose end it stands at and,
when `leaves`, those whose bodies do not hold the destination, each with every level opened after it. -/
def transfer (s : State) (d : Word) (leaves : Bool) : State :=
  let s1 := s.countIns
  let pc := s1.pc
  let sl := s1.slot
  let out (k : Nat) : Bool :=
    let l := sl.level k
    l.act && (l.stop == pc || (leaves && !(l.start.toNat ≤ d.toNat && d.toNat ≤ l.stop.toNat)))
  let s2 := match (sl.order.filter out).getLast? with
    | some k => s1.upd (fun t => t.closeFrom k)
    | none => s1
  s2.upd (fun t => { t with pc := d })

/-! ### Continuations -/

/-- The Aster entry of the issuing slot's task follows it out of the slot. -/
def entryState (s : State) (sid : Nat) (st : EntryState) : State :=
  match s.entryOf sid with
  | some e => s.updEntry (pkgOf sid) e.id (fun e => { e with st := st })
  | none => s

/-- Write a continuation and release the slot (R66). State 1 returns the task to its ready queue (R81, R90). -/
def leaveWith (s : State) (sid : Nat) (h : Head) (vals : List Word) : State :=
  let (s1, ok) := s.writeCont sid h vals
  if ok then
    let r := (s1.slotAt sid).rid
    let st : EntryState := if h.state == 1 then .ready else .suspended
    let s2 := (s1.entryState sid st).releaseSlot sid
    if h.state == 1 then s2.enterReady (pkgOf sid) r h true else s2
  else s1

/-- The continuation at the `rgn` that follows (R80, R81): its inputs with their values now. -/
def contNext (s : State) (sid : Nat) (gin : Word) (lcin : BitVec 3) (state wk : Nat) (wa : Word) : State :=
  let sl := s.slotAt sid
  s.leaveWith sid (contHead sl (nextPc sl.pc) gin lcin.toNat (sl.p.toNat / 2) true state wk wa)
    (sl.liveVals gin lcin.toNat)

/-- What the engines of a slot that has been released had still to do is abandoned (R71). -/
def abandon (s : State) (sid : Nat) : State :=
  s.updSlot sid (fun t => if t.run == .idle then { ({ t with mq := [], pq := [] } : Slot).released with freed := t.freed } else t)

/-- The continuation of a discarded unsealed region (R71): the region's entry and its inputs. Its engine operations are
abandoned. -/
def contRegion (s : State) (sid : Nat) (state wk : Nat) (wa : Word) : State :=
  let sl := s.slotAt sid
  let r := sl.region
  (s.leaveWith sid (contHead sl r.pc r.gin r.lcin.toNat (r.pred.toNat / 2) r.isRgn state wk wa) r.vals).abandon sid

/-! ### Traps (R107 to R111) -/

/-- The tcause word of a trap (R109). -/
def causeWord (c : Nat) (deferred : Bool) : Word :=
  BitVec.ofNat 64 (2 ^ 63 + (if deferred then 2 ^ 62 else 0) + c)

/-- A trap finds no handler: the faulted continuation, the report, the release of the slot (R107, R277). -/
def faultTask (s : State) (t : Trap) (e addr : Word) : State :=
  let sl := s.slot
  let h := contHead sl e sl.region.gin sl.region.lcin.toNat (sl.p.toNat / 2) false 4 0 0
  let (s1, ok) := s.writeCont s.cur h (sl.liveVals sl.region.gin sl.region.lcin.toNat)
  if ok then
    let s2 := (s1.faultMember s.cur).tell (.faulted sl.rid t.cause t.tval sl.csr.tcause e addr)
    ((s2.updLaunch sl.rid.launch (fun l => { l with faulted := l.faulted + 1 })).entryState s.cur .suspended).releaseSlot s.cur
  else s1

/-- Taking a trap in the issuing slot (R107): `e` is what `tepc` receives, `addr` the further address of the report. -/
def trapTo (s : State) (t : Trap) (e : Word) (deferred : Bool) (addr : Word) : State :=
  let s := if 4 ≤ t.cause && t.cause ≤ 6 then s.failedWalk (coreOf s.cur) s.slot.rid.launch t.tval else s
  let sl := s.slot
  if sl.csr.tcause.getLsbD 63 || sl.csr.tvec == 0 then s.faultTask t e addr
  else s.upd (fun x =>
    { x with
      shLoops := x.loops, shOrder := x.order, shVrb := x.csr.vrb
      loops := x.loops.map (fun l => (l.1, { l.2 with act := false, cap := false })), order := []
      csr := { x.csr with tepc := e, tval := t.tval, tcause := causeWord t.cause deferred }
      pc := x.csr.tvec, spin := none, expired := false, pass := false, counted := false, after := none })

/-- A trap at the issuing slot's own instruction. -/
def trap (s : State) (c : Nat) (v : Word) : State := s.trapTo ⟨c, v⟩ s.pc false 0

/-- The `tval` of an illegal instruction (R57). -/
def illegalTval (reason word : Nat) : Word := BitVec.ofNat 64 (reason * 65536 + word / 2 ^ 80)

/-- The illegal-instruction trap with a reason (R57). -/
def illegal (s : State) (reason : Nat) : State := s.trap 1 (illegalTval reason s.wordHere)

/-- The `tval` of a line-format trap (R56). -/
def lineTval (a : Word) (reason : Nat) : Word :=
  BitVec.ofNat 64 (a.toNat / 64 * 64 + a.toNat % 8 * 8 + reason)

/-- What a transfer to a destination raises (R54): misalignment of a register or table destination, then the target
mask when it is consulted. -/
def destTrap (s : State) (d : Word) (register mask : Bool) : Option Trap :=
  if register && !codeAddr d then some ⟨3, d⟩
  else if mask && !s.marked d then some ⟨2, lineTval d 4⟩
  else none

/-- Return from a trap (R110): loops and `vrb` from the shadow, bit 63 cleared, at `tepc`. The shadow keeps what it holds
(log 67). -/
def trapReturn (s : State) : State :=
  let sl := s.slot
  if !sl.csr.tcause.getLsbD 63 then s.illegal 6
  else if !codeAddr sl.csr.tepc then s.trap 3 sl.csr.tepc
  else s.countIns.upd (fun x =>
    { x with
      loops := x.shLoops, order := x.shOrder
      csr := { x.csr with vrb := x.shVrb, tcause := x.csr.tcause &&& ~~~((1 : Word) <<< 63) }
      pc := x.csr.tepc })

/-! ### Acquire, release, waiting -/

/-- An acquire at the core path (R388, R117). -/
def acquire (s : State) (sid : Nat) : State := s.selfInvalidate (s.cacheOf sid)

/-- The slot stays where it is: the instruction is tried again at a later step (R104). -/
def stall (s : State) : State := s

/-- Count a wait for irrevocability once (R340 sel 5). -/
def countWait (s : State) : State :=
  if s.slot.counted then s
  else (s.upd (fun t => { t with counted := true })).updCluster (pkgOf s.cur)
    (fun c => { c with aster := { c.aster with waits := c.aster.waits + 1 } })

/-- An instruction of R327 in a speculative task waits until the task is irrevocable. -/
def waitFirm (s : State) : State := s.countWait

end State
end Sys2Proof.Machine
end

