-- ==== Sys2Proof/Machine/Flight.lean ====
section
/-! DEFINITION. Messages in flight (log 3): when each may be performed, and what happens when it is (R223, R228 to
R235, R386 to R391, R76 to R89, R303). A message that may not yet be performed stays where it is. -/

namespace Sys2Proof.Machine

/-- Two ranges of locations share a byte. -/
def overlaps (a : Loc) (n : Nat) (b : Loc) (m : Nat) : Bool :=
  match a, b with
  | .glob x, .glob y => x < y + m && y < x + n
  | .scr c x, .scr d y => c == d && x < y + m && y < x + n
  | _, _ => false

/-- The slot whose access on the core path or the read-only path a message is. -/
def Msg.slotOf : Msg → Option Nat
  | .load o => some o.sid
  | .store o => some o.sid
  | .atom o => some o.sid
  | .red o => some o.sid
  | .cell o => some o.sid
  | _ => none

/-- What an access in flight has still to reach. With `plain`, the pieces of stores whose bytes stand in the core's L1
are left out. -/
def Msg.open_ (plain : Bool) : Msg → List (Loc × Nat)
  | .load o => o.todo.filterMap (fun i => o.parts[i]?.map (fun p => (p.loc, p.n)))
  | .store o => (o.todo.filter (fun i => !plain || o.late.contains i)).filterMap (fun i =>
      o.pieces[i]?.map (fun p => (p.loc, p.span)))
  | .atom o => [(o.loc, o.ty.width / 8)]
  | .red o => [(o.loc, o.ty.width / 8)]
  | .cell o => [(o.loc, 32)]
  | _ => []

/-- A message waits in its core's network interface before it is sent (R223, R235). -/
def Msg.held : Msg → Bool
  | .store o => o.rel
  | .atom o => o.rel
  | .red o => o.rel
  | .cell o => o.rel || o.arg.isRight
  | _ => false

/-- A message is a write of a slot on the core load/store path, which a later release covers (R223). -/
def writesBy (sid : Nat) : Msg → Bool
  | .store o => o.sid == sid
  | .atom o => o.sid == sid
  | .red o => o.sid == sid
  | .cell o => o.sid == sid && (match o.arg with | .inl _ => true | .inr _ => false)
  | .snap t _ _ _ _ _ => t == sid
  | _ => false

namespace State

/-- Take a message out of flight. -/
def removeMsg (s : State) (k : Nat) : State := { s with flight := Store.erase s.flight k }

/-- Replace a message. -/
def putMsg (s : State) (k : Nat) (m : Msg) : State := { s with flight := Store.set s.flight k m }

/-- A release with number k may be performed: every earlier write of the slot has been (R223, log 15). -/
def released (s : State) (k sid : Nat) : Bool := s.flight.all (fun e => !(e.1 < k && writesBy sid e.2))

/-- The increments of the spawns and messages of a slot, numbered below k, have been applied (R77, R89, log 63). -/
def joined (s : State) (k sid : Nat) : Bool := s.flight.all (fun e => match e.2 with
  | .place p => p.counted || p.sid != sid || k ≤ e.1
  | _ => true)

/-- The slot waits for a `tleave`, an `enq` or a result of a unit of its cluster. -/
def unitPending (s : State) (sid : Nat) : Bool := s.flight.any (fun e => match e.2 with
  | .queue t _ _ _ => t == sid
  | .result t _ _ => t == sid
  | .leave t _ _ _ => t == sid
  | _ => false)

/-- Everything that the slot has sent to join cells and units has arrived (R77, R272, R287). -/
def delivered (s : State) (sid : Nat) : Bool := s.joined s.nextMsg sid && !s.unitPending sid

/-- A `qsnap` of the slot waits for the horizon: later instructions of its port follow it (R308). -/
def snapping (s : State) (sid : Nat) : Bool := s.flight.any (fun e => match e.2 with
  | .snap t _ _ _ _ _ => t == sid
  | _ => false)

/-- Lower a counter of a slot, when the task that raised it is still there. -/
def uncount (s : State) (sid : Nat) (c : Option Ctr) : State :=
  match c with
  | some c => s.updSlot sid (fun t => t.dec c)
  | none => s

/-- Before an irrevocable timestamped task's write is performed, higher-key readers are aborted (R336, R330). -/
def preWrite (s : State) (sid pa n : Nat) : State :=
  match s.entryOf sid with
  | some e =>
    if e.firm then
      (List.range ((pa % 64 + n + 63) / 64)).foldl (fun t i => t.abortReaders (pa / 64 + i) (t.entryKey (pkgOf sid) e)) s
    else s
  | none => s

/-- An address of this module's memory. -/
def isLocal (s : State) (pa : Nat) : Bool := deviceOf pa == s.dev

/-! ### Order of arrival (R218, R222, R382, R392) -/

/-- An earlier message of the slot, numbered below k, has still to reach a byte of the range (R392). With `plain`, the
stores whose bytes stand in the core's L1 already are not counted. -/
def byteBefore (s : State) (k sid : Nat) (l : Loc) (n : Nat) (plain : Bool) : Bool :=
  s.flight.any (fun e => e.1 < k && e.2.slotOf == some sid && (e.2.open_ plain).any (fun x => overlaps x.1 x.2 l n))

/-- An earlier packet of the request network from the same tile to the same home slice has not arrived (R382). What
waits in a network interface has not been sent. -/
def netBefore (s : State) (k sid pa : Nat) : Bool :=
  let h := sliceOf (lineOf pa)
  s.isLocal pa && h / 96 == pkgOf sid / 96 && s.flight.any (fun e =>
    e.1 < k && !e.2.held && e.2.slotOf.any (fun t => pkgOf t == pkgOf sid) &&
    (e.2.open_ false).any (fun x => match x.1 with
      | .glob q => s.isLocal q && sliceOf (lineOf q) == h
      | .scr _ _ => false))

/-- A message numbered k of a slot may not reach a range yet. -/
def arrivesLate (s : State) (k sid : Nat) (l : Loc) (n : Nat) : Bool :=
  s.byteBefore k sid l n false || (match l with
    | .glob pa => s.netBefore k sid pa
    | .scr _ _ => false)

/-! ### Loads (R222, R387, R388) -/

/-- Drop a cache's valid copies of the words of a block: a whole block is read together with its descriptor (R158). -/
def dropValid (s : State) (c pa n : Nat) : State :=
  { s with l1 := s.l1.filter (fun e =>
      !(e.1 / 2 ^ 50 == c && (wordsOf pa n).contains (e.1 % 2 ^ 50) && e.2.st == .valid)) }

/-- The core's L1 serves the part: it holds every word (R387). A block is fetched with its descriptor (R158). -/
def servedByL1 (s : State) (o : LoadOp) (p : Part) : Bool :=
  match p.loc with
  | .glob pa => !o.acq && !o.ro && s.isLocal pa && p.n != 64 && (wordsOf pa p.n).all (s.l1Hit (s.cacheOf o.sid))
  | .scr _ _ => false

/-- A part of load k may not be answered yet: an earlier access of the slot has not reached its bytes, or an earlier
packet its home (R218, R222, R382, R392). The read-only path keeps the second order alone (R224). -/
def partWaits (s : State) (k : Nat) (o : LoadOp) (p : Part) : Bool :=
  (!o.ro && s.byteBefore k o.sid p.loc p.n (!o.acq)) || (match p.loc with
    | .glob pa => !s.servedByL1 o p && s.netBefore k o.sid pa
    | .scr _ _ => false)

/-- Answer one part of a load: its value at this instant. -/
def readPart (s : State) (o : LoadOp) (p : Part) : State × Answer :=
  let c := s.cacheOf o.sid
  let (s1, bs) : State × List Byte := match p.loc with
    | .scr _ _ => (s, s.readLocs p.loc p.n)
    | .glob pa =>
      if o.acq || o.ro || !s.isLocal pa then
        let t := if s.isLocal pa then (s.flushUpdate c (lineOf pa)).settleRange pa p.n else s
        (t, if o.ro then t.pathBytes o.sid .ro p.loc p.n else t.peekBytes pa p.n)
      else
        let u := if p.n == 64 then s.dropValid c pa 64 else s
        let t := if o.bare then (u.flushUpdate c (lineOf pa)).settleRange pa p.n else u.loadWords c (wordsOf pa p.n)
        (t, t.l1Bytes c pa p.n)
  let d := s1.descAt p.loc
  let far := match p.loc with
    | .glob pa => o.far.contains (lineOf pa)
    | .scr _ _ => false
  (s1, { lane := p.lane, x := leNat bs, desc := d, poison := isPoison d
         origin := s1.tvalOf o.sid p.loc (s.servedByL1 o p) far })

/-- The home answers part i of the load, and what is left of it (R387). -/
def answerPart (s : State) (k : Nat) (o : LoadOp) (i : Nat) : State × LoadOp :=
  match o.parts[i]? with
  | some p =>
    if o.todo.contains i && !s.partWaits k o p then
      let (s1, a) := s.readPart o p
      (s1, { o with todo := o.todo.filter (· != i), got := o.got ++ [a] })
    else (s, o)
  | none => (s, o)

/-- The home answers part i of load k (R387). -/
def requestPart (s : State) (k : Nat) (o : LoadOp) (i : Nat) : State :=
  let (s1, o1) := s.answerPart k o i
  s1.putMsg k (.load o1)

/-- Write the destination of a load. -/
def writeDest (t : Slot) (o : LoadOp) : Slot :=
  let at_ (i : Nat) : Option Answer := o.got.find? (fun a => a.lane == i)
  match o.dest with
  | .g n ty => t.setG n (extend ty ((at_ 0).map (·.x) |>.getD 0))
  | .desc n => t.setG n (BitVec.ofNat 64 ((at_ 0).map (·.desc.toNat) |>.getD 0))
  | .vblocks n ty mask bits =>
    let old := t.vphys n
    match mask with
    | none => t.setVphys n (VReg.ofBlocks (fun b => match at_ b with
        | some a => (a.x, a.desc)
        | none => (old.block b, old.descOf b)))
    | some _ => t.setVphys n (VReg.ofBlocks (fun b => match at_ b with
        | some a => (VReg.payload ty b (fun i =>
            if laneActive mask bits i then a.x / 2 ^ (ty.width * (i % Nat.max 1 ty.perBlock)) else rawLane old.lanes ty i), a.desc)
        | none => (old.block b, old.descOf b)))
  | .vlanes n ty =>
    t.setVphys n (VReg.write (t.vphys n) ty (fun i => (at_ i).isSome) (fun i => (at_ i).map (·.x) |>.getD 0)
      (fun _ => descFor ty))

/-- The data of a load returns (R101, R221, R223): poisoned data is not written, and is reported at the slot's next
instruction; a descriptor read does not consume. -/
def finishLoad (s : State) (o : LoadOp) : State :=
  let consumes := match o.dest with | .desc _ => false | _ => true
  let s1 := match (if consumes then o.got.find? (·.poison) else none) with
    | some a => s.updSlot o.sid (fun t => t.defer { tval := a.origin, addr := o.va })
    | none => s.updSlot o.sid (fun t => writeDest t o)
  let s2 := s1.updSlot o.sid (fun t => t.dec .ld)
  if o.acq then
    (s2.updSlot o.sid Slot.unhold).acquire o.sid
  else s2

/-- Answer every part that is left and may be answered, and return the data when none is left. -/
def loadNow (s : State) (k : Nat) (o : LoadOp) : State :=
  let (s1, o1) := o.todo.foldl (fun (x : State × LoadOp) i => x.1.answerPart k x.2 i) (s, o)
  if o1.todo.isEmpty then (s1.removeMsg k).finishLoad o1 else s1.putMsg k (.load o1)

/-! ### Stores (R386, R388) -/

/-- The words of a location of which the cache of a slot holds a copy that it did not write since. -/
def copiesOf (s : State) (sid : Nat) (l : Loc) (n : Nat) : List Nat :=
  match l with
  | .scr _ _ => []
  | .glob pa => (wordsOf pa n).filter (fun w => match s.l1At (s.cacheOf sid) w with
      | some x => x.st == .valid || (x.st == .owned && x.reg)
      | none => false)

/-- A write at the home leaves the writer's own copies valid, not owned, with what the home holds (R388, log 29). -/
def renew (s : State) (sid : Nat) (ws : List Nat) : State :=
  let c := s.cacheOf sid
  let one (w : Nat) : L1Word := { st := .valid, data := BitVec.ofNat 32 (leNat (s.peekBytes (4 * w) 4)) }
  { s with l1 := ws.foldl (fun l w => Store.set l (l1Key c w) (one w)) s.l1 }

/-- The home applies one piece of a store; a `late` piece is written to the L1 with it, so that a block and its
descriptor change together (R158). -/
def applyPiece (s : State) (sid : Nat) (rel late : Bool) (p : Piece) : State :=
  let s1 := match p.loc with
    | .scr c o => s.scrWrite c o p.bytes
    | .glob pa =>
      let t := s.preWrite sid pa p.span
      if rel || !t.isLocal pa then (t.writeHome pa p.bytes).renew sid (t.copiesOf sid p.loc p.bytes.length)
      else (if late then t.l1Store (t.cacheOf sid) pa p.bytes else t).registerAll (t.cacheOf sid) (wordsOf pa p.bytes.length)
  match p.desc with
  | some d => s1.setDesc p.loc d
  | none => s1

/-- A piece may not reach its home yet: a release waits for what it covers, and every piece for its turn (R223, R382,
R392). -/
def pieceWaits (s : State) (k : Nat) (o : StoreOp) (i : Nat) (p : Piece) : Bool :=
  (o.rel && !s.released k o.sid) || s.arrivesLate k o.sid p.loc p.span ||
  o.todo.any (fun j => j < i && o.pieces[j]?.any (fun q => overlaps q.loc q.span p.loc p.span))

/-- The home applies piece i of a store when its turn has come, and what is left of the store (R386 step 3, R388). -/
def registerPiece (s : State) (k : Nat) (o : StoreOp) (i : Nat) : State × StoreOp :=
  match o.pieces[i]? with
  | some p =>
    if o.todo.contains i && !s.pieceWaits k o i p then
      (s.applyPiece o.sid o.rel (o.late.contains i) p, { o with todo := o.todo.filter (· != i) })
    else (s, o)
  | none => (s, o)

/-- Piece i of store k reaches its home. -/
def registerStore (s : State) (k : Nat) (o : StoreOp) (i : Nat) : State :=
  let (s1, o1) := s.registerPiece k o i
  s1.putMsg k (.store o1)

/-- The acknowledgement of the last piece arrives: the store is performed (R386 step 4). -/
def ackStore (s : State) (k : Nat) (o : StoreOp) : State :=
  if o.todo.isEmpty then (s.removeMsg k).uncount o.sid o.ctr else s

/-- Every piece whose turn has come, and the acknowledgement when none is left. -/
def storeAll (s : State) (k : Nat) (o : StoreOp) : State :=
  let (s1, o1) := o.todo.foldl (fun (x : State × StoreOp) i => x.1.registerPiece k x.2 i) (s, o)
  (s1.putMsg k (.store o1)).ackStore k o1

/-! ### Atomics and reductions (R231 to R235) -/

/-- The bytes of a location as an atomic at its home finds them. -/
def atHome (s : State) (sid : Nat) (l : Loc) (n : Nat) : State :=
  match l with
  | .scr _ _ => s
  | .glob pa =>
    let t := (s.preWrite sid pa n).settleRange pa n
    (wordsOf pa n).foldl (fun u w => u.recallWord w) t

/-- An atomic at its home, and the return of the old value (R231, R232, R388). -/
def performAtom (s : State) (k : Nat) (o : AtomOp) : State :=
  if (o.rel && !s.released k o.sid) || s.arrivesLate k o.sid o.loc (o.ty.width / 8) then s
  else
    let n := o.ty.width / 8
    let s1 := s.atHome o.sid o.loc n
    let t := leNat (s1.readLocs o.loc n)
    let (x, fl) := amoApply o.op o.ty t o.s o.cmp
    let s2 := ((s1.writeLoc o.loc (leBytes x n)).renew o.sid (s.copiesOf o.sid o.loc n)).removeMsg k
    if !o.live then s2
    else
      let d := s2.descAt o.loc
      let s3 := if isPoison d
        then s2.updSlot o.sid (fun t => t.defer { tval := s2.tvalOf o.sid o.loc false o.far, addr := o.va })
        else s2.updSlot o.sid (fun u => (u.setG o.dest (extend o.ty t)).orFlags fl)
      let s4 := s3.updSlot o.sid (fun u => u.dec .ld)
      if o.acq then (s4.updSlot o.sid Slot.unhold).acquire o.sid
      else s4

/-- Combine into a word that the cache owns (R391). -/
def redOwned (s : State) (c pa : Nat) (op : RedOp) (ty : Ty) (x : Nat) : State :=
  let n := ty.width / 8
  let t := leNat (s.l1Bytes c pa n)
  s.l1Store c pa (leBytes (amoApply (RedOp.amo op) ty t x 0).1 n)


/-- The identity of an operation (R390). -/
def redIdentity (op : RedOp) (ty : Ty) : Nat :=
  let w := ty.width
  let f := Num.fmtOf ty
  match op with
  | .add | .or | .xor => 0
  | .and => 2 ^ w - 1
  | .min => 2 ^ (w - 1) - 1
  | .max => 2 ^ (w - 1)
  | .minz => 2 ^ w - 1
  | .maxz => 0
  | .fadd => f.signBit
  | .fmin | .fmax => f.qnan

/-- Combine an element into the cache's partial of its line (R390): an element that holds none starts from the
identity. -/
def redPartial (s : State) (c pa : Nat) (op : RedOp) (ty : Ty) (x : Nat) : State :=
  let n := ty.width / 8
  let held := (wordsOf pa n).all (fun w => match s.l1At c w with | some y => y.st == .update | none => false)
  let t := if held then leNat (s.l1Bytes c pa n) else redIdentity op ty
  let y := (amoApply (RedOp.amo op) ty t x 0).1
  let ws := wordsOf pa n
  { s with l1 := (ws.zipIdx).foldl (fun l e =>
      Store.set l (l1Key c e.1) { st := .update, data := BitVec.ofNat 32 (y / 2 ^ (32 * e.2)) }) s.l1 }

/-- A store of the cache to a word of a line waits for its registration. -/
def unregistered (s : State) (c line : Nat) : Bool :=
  s.l1.any (fun e => e.1 / 2 ^ 50 == c && e.1 % 2 ^ 50 / 256 == line && !e.2.reg)

/-- A cache writes back the words of a line that it owns, and drops them (R389). -/
def dropOwned (s : State) (c line : Nat) : State :=
  (s.owners.filter (fun e => e.1 / 256 == line && e.2 == c)).foldl (fun t e => t.recallWord e.1) s

/-- The first update of a line makes it update-only: its own words are written back, and valid copies go (R390,
R391). -/
def makeUpdate (s : State) (c line : Nat) (op : RedOp) (ty : Ty) : State :=
  let t := (s.flushUpdate c line).dropOwned c line
  { t with
    l1 := t.l1.filter (fun e => !(e.1 / 2 ^ 50 == c && e.1 % 2 ^ 50 / 256 == line && e.2.st == .valid))
    updLines := Store.set t.updLines (updKey c line) (op, ty) }

/-- The home registers a contributor: every owner of the line is recalled first (R391). A line whose partial has been
sent meanwhile is no contributor's. -/
def registerContributor (s : State) (c line : Nat) : State :=
  if (Store.find? s.updLines (updKey c line)).isNone || (Store.get [] s.contrib line).contains c then s
  else
    let u := (s.registryEntry line).recallLine line
    { u with contrib := Store.set u.contrib line (Store.get [] u.contrib line ++ [c]) }

/-- A reduction applied at its home or port, without an update-only line (R390, R468). -/
def redAtHome (s : State) (o : RedMsg) : State :=
  let n := o.ty.width / 8
  let t := s.atHome o.sid o.loc n
  let x := leNat (t.readLocs o.loc n)
  (t.writeLoc o.loc (leBytes (amoApply (RedOp.amo o.op) o.ty x o.x 0).1 n)).renew o.sid (s.copiesOf o.sid o.loc n)

/-- A reduction that uses an update-only line: global, of this module, not a release. -/
def usesLine (s : State) (o : RedMsg) : Bool :=
  match o.loc with
  | .glob pa => s.isLocal pa && !o.rel
  | .scr _ _ => false

/-- A reduction in flight is applied: its contributor registration, or the update at its home (R390, R234). -/
def performRed (s : State) (k : Nat) (o : RedMsg) : State :=
  if (o.rel && !s.released k o.sid) || s.arrivesLate k o.sid o.loc (o.ty.width / 8) then s
  else
    let s1 := match o.loc with
      | .glob pa =>
        if s.usesLine o then (s.preWrite o.sid pa (o.ty.width / 8)).registerContributor (s.cacheOf o.sid) (lineOf pa)
        else s.redAtHome o
      | .scr _ _ => s.redAtHome o
    (s1.removeMsg k).uncount o.sid o.ctr

/-- The cell's fields after an arrival (R164). -/
def cellArrive (x : Nat) (m : BitVec 64) (e : BitVec 16) : Nat :=
  let sig := signedOf 128 x
  let exp := signedOf 16 (x / 2 ^ 128)
  let fl := x / 2 ^ 144 % 65536
  let pack (sig : Int) (exp : Int) (fl : Nat) : Nat :=
    patternOf 128 sig + patternOf 16 exp * 2 ^ 128 + fl * 2 ^ 144 + x / 2 ^ 160 * 2 ^ 160
  if fl / 2 % 2 == 1 then x
  else if fl % 2 == 0 then pack m.toInt e.toInt (fl + 1)
  else
    let lo := if exp < e.toInt then exp else e.toInt
    let t := sig * 2 ^ (exp - lo).toNat + m.toInt * 2 ^ (e.toInt - lo).toNat
    let top : Int := 2 ^ 127 - 1
    if top < t then pack top lo (fl + 2)
    else if t < -top then pack (-top) lo (fl + 2)
    else pack t lo fl

/-- The f64 of a cell, with its flags (R165). -/
def cellValue (x : Nat) : Nat × Num.Flags :=
  let sig := signedOf 128 x
  let exp := signedOf 16 (x / 2 ^ 128)
  let fl := x / 2 ^ 144 % 65536
  if fl / 2 % 2 == 1 then (Num.f64.sgn (sig < 0) + Num.f64.inf, Num.of ||| Num.nx)
  else Num.roundInt Num.f64 .rne false sig exp

/-- An arrival at an exact cell, or its conversion (R235). A conversion follows every reduction of its slot. -/
def performCell (s : State) (k : Nat) (o : CellMsg) : State :=
  if ((o.rel || o.arg.isRight) && !s.released k o.sid) || s.arrivesLate k o.sid o.loc 32 then s
  else
    let s1 := s.atHome o.sid o.loc 32
    let x := leNat (s1.readLocs o.loc 32)
    match o.arg with
    | .inl (m, e) =>
      (((s1.writeLoc o.loc (leBytes (cellArrive x m e) 32)).renew o.sid (s.copiesOf o.sid o.loc 32)).removeMsg k).uncount
        o.sid o.ctr
    | .inr d =>
      let s2 := (s1.removeMsg k).uncount o.sid o.ctr
      let ds := s2.descAt o.loc
      if isPoison ds then
        s2.updSlot o.sid (fun t => t.defer { tval := s2.tvalOf o.sid o.loc false o.far, addr := o.va })
      else
        let (v, fl) := cellValue x
        s2.updSlot o.sid (fun t => (t.setG d (BitVec.ofNat 64 v)).orFlags fl)

/-! ### Reuse clock (R249, R255, R260) -/

/-- A quota operation at the home: it follows every earlier advance and quota operation of its slot on the domain. -/
def quotaNow (s : State) (k sid dest dom : Nat) (w : Option Word) (live : Bool) : State :=
  let s1 := match w with
    | some w => s.setQuota dom w
    | none => s
  let s2 := s1.removeMsg k
  if live then s2.updSlot sid (fun t => (t.setG dest (s.quotaWord dom)).dec .ld) else s2

/-! ### Tasks on their way (R76 to R88, R303) -/

/-- An earlier spawn or message of the same slot to the same cluster is still in flight (R88). -/
def placedBefore (s : State) (k : Nat) (p : Placement) : Bool :=
  s.flight.any (fun e => e.1 < k && (match e.2 with
    | .place q => q.sid == p.sid && q.target == p.target
    | _ => false))

/-- Slot numbers from this one on stand for the other modules, whose records arrive over the fabric. -/
def remoteSid : Nat := 12288

/-- A message becomes a handler's record in the pool of the cluster (R86); `none` when the pool is empty. -/
def deliver (s : State) (pkg : Nat) (p : Placement) (t : Head) (pay : List Word) : Option State :=
  match poolFree (s.clusterAt pkg) with
  | none => none
  | some i =>
    let h0 := (t.setState 1).setFlags 5 4 1
    let h : Head := { h0 with
      live := BitVec.ofNat 64 (2 ^ (pay.length + 1) - 2), parent := p.join, team := 0
      scratch := BitVec.ofNat 32 (t.scratch.toNat / 65536 * 65536) }
    let r : RecId := { launch := p.launch, addr := Config.poolRecord pkg i, pool := some (pkg, i) }
    some ((s.updCluster pkg (fun c => { c with pool := Store.set c.pool i (h, pay) })).enterReady pkg r h false)

/-- A record is placed at its target (R83, R85, R87): its parent is written, its base is ignored, and it enters the
ready queue or Aster. `none` when it must wait. A record that cannot be reached is reported and lost (log 72). -/
def placeNow (s : State) (p : Placement) : Option State :=
  let dev := p.target / 1024
  let pkg := p.target % 1024
  if dev != s.dev then
    let t := match (if p.message.isSome then .error ⟨0, 0⟩ else s.translate (coreOf p.sid) p.launch p.record .store) with
      | .ok pa => s.writeHome (pa + 56) (leBytes p.join.toNat 8)
      | .error _ => s
    some (t.sendAway (pkgOf p.sid) (if p.timed then some p.key else none) (.place p))
  else if (s.clusterAt pkg).launch != p.launch then
    some (if remoteSid ≤ p.sid then { s with outbox := s.outbox ++ [.refused p.launch (p.sid - remoteSid)] }
      else s.tell (.refused p.launch dev))
  else match p.message with
    | some (t, pay) => s.deliver pkg p t pay
    | none =>
      let r : RecId := { launch := p.launch, addr := p.record }
      match s.readRecord (pkg * 8) r with
      | none => some (s.lostRecord (pkg * 8) r (pkg * 16))
      | some (h, _) =>
        let h1 : Head := { h with parent := p.join, scratch := BitVec.ofNat 32 (h.scratch.toNat / 65536 * 65536) }
        match s.writeRecord (pkg * 8) r h1 [] with
        | none => some (s.lostRecord (pkg * 8) r (pkg * 16))
        | some s1 => if p.timed then s1.accept pkg r .other p.seeded else some (s1.enterReady pkg r h1 false)

/-- The increment of a placement, once its release may leave (R77, R83). -/
def stepJoin (s : State) (k : Nat) (p : Placement) : State :=
  if p.counted || !s.released k p.sid then s
  else (s.countJoin p).putMsg k (.place { p with counted := true })

/-- The placement itself, after its increment and every earlier one of its slot to the cluster. -/
def stepPlace (s : State) (k : Nat) (p : Placement) : State :=
  if !p.counted || s.placedBefore k p then s
  else match (s.removeMsg k).placeNow p with
    | some t => t
    | none => s

/-- An arrival at a join cell leaves after the slot's earlier writes (R79) and the increments of its earlier spawns and
messages (R77). -/
def stepArrive (s : State) (k sid pa n : Nat) : State :=
  if s.released k sid && s.joined k sid then (s.arriveCell pa n).removeMsg k else s

/-- The condition of a registration (R80): word full, word empty, count zero. -/
def condition (s : State) (kind key : Nat) : Bool :=
  if kind == 1 then Store.get false s.tags key
  else if kind == 2 then !Store.get false s.tags key
  else s.cellAt key % 2 ^ 40 == 0

/-- Do something as the slot `sid`, then return to the slot that issues. -/
def asSlot (s : State) (sid : Nat) (f : State → State) : State := { f { s with cur := sid } with cur := s.cur }

/-- A registration reaches its port or home (R76, R80): when its condition holds it is dropped, the task acquires and
goes on; otherwise the task suspends. -/
def stepReg (s : State) (k sid kind key : Nat) (va gin : Word) (lcin : BitVec 3) : State :=
  let s1 := s.removeMsg k
  if s1.condition kind key then (s1.acquire sid).asSlot sid State.retire
  else
    let r := (s1.slotAt sid).rid
    let s2 := (s1.asSlot sid State.countIns).contNext sid gin lcin 3 kind va
    if (s2.slotAt sid).run == .held then s2 else s2.register { rid := r, pkg := pkgOf sid, kind := kind, key := key }

/-- An event message arrives: a request that cannot be withdrawn (R303). -/
def stepEvent (s : State) (k v t : Nat) : State :=
  (s.removeMsg k).requestEval (v / 2 ^ 14 % 1024) (v % 2 ^ 14) t none

/-- An abort reaches its Aster (R335). -/
def stepAbort (s : State) (k pkg id : Nat) : State := (s.removeMsg k).abortList [(pkg, id, false)] true

/-- A write on the core load/store path, made at once. -/
def writeCore (s : State) (sid : Nat) (l : Loc) (bs : List Byte) : State :=
  match l with
  | .scr c o => s.scrWrite c o bs
  | .glob pa =>
    let w := s.preWrite sid pa bs.length
    if w.isLocal pa then w.storeNow (w.cacheOf sid) pa bs else w.writeHome pa bs

/-- The value that a `qsnap` at time t writes for a variable (R307). -/
def snapValue (l : Lark) (v t : Nat) : Word :=
  let x := l.var v
  if x.defined then x.xAt (l.h.getD 0) t else 0x7FF8000000000000

/-- A `qsnap` writes the value of variable v at va. A record that an error has poisoned since the acceptance poisons the block
written (R111, R397). -/
def snapWrite (s : State) (sid : Nat) (l : Lark) (v t : Nat) (va : Word) : State :=
  match s.locate sid va 8 .store with
  | .ok d =>
    let s1 := s.writeCore sid d (leBytes (snapValue l v t).toNat 8)
    if (l.var v).poison then s1.setDesc d 0x0BFF else s1
  | .error _ => s

/-- A `qsnap` writes when the horizon has reached its task's key, which is irrevocable from then on (R307, R336). -/
def stepSnap (s : State) (k sid pc first n : Nat) (va : Word) (counts : List (Ctr × Nat)) : State :=
  let pkg := pkgOf sid
  match s.entryOf sid with
  | some e =>
    if (s.clusterAt pkg).ll != some (s.entryKey pkg e) || (!e.firm && commitHeld (s.clusterAt pkg)) then s
    else
      let s0 := if e.firm then s else s.promote pkg e.id
      let l := (s.clusterAt pkg).lark
      let s1 := (List.range n).foldl (fun u i =>
        u.snapWrite sid l (first + i) e.head.key.toNat (va + BitVec.ofNat 64 (8 * i))) s0
      let s2 := if (List.range n).any (fun i => (l.var (first + i)).poison)
        then s1.deferAt sid (BitVec.ofNat 64 (2 ^ 24 + pkg % 96 * 2 ^ 8 + 0x0B)) (BitVec.ofNat 64 pc) else s1
      counts.foldl (fun u c => (List.range c.2).foldl (fun w _ => w.uncount sid (some c.1)) u) (s2.removeMsg k)
  | none => s

/-! ### Teams and queues (R272, R287) -/

/-- A `tleave` reaches the table after the slot's earlier writes (R272). -/
def stepLeave (s : State) (k sid : Nat) (r : RecId) (team m : Nat) : State :=
  if !s.released k sid then s
  else
    let s1 := (s.removeMsg k).dropMember (pkgOf sid) team m r
    if (s1.slotAt sid).rid == r then s1.updSlot sid (fun t => { t with head := { t.head with team := 0 } }) else s1

/-- A kind-5 registration of a queue of a cluster. -/
def waitsForQueue (pkg q : Nat) (w : Waiter) : Bool := w.kind == 5 && w.pkg == pkg && w.key == q

/-- Replace the entries of a queue of a cluster. -/
def setQueue (s : State) (pkg q : Nat) (l : List Word) : State :=
  s.updCluster pkg (fun c => { c with fifo := Store.put [] c.fifo q l })

/-- An earlier `enq` of the slot has not reached its queue (R288). -/
def enqBefore (s : State) (k sid q : Nat) : Bool :=
  s.flight.any (fun e => e.1 < k && (match e.2 with
    | .queue t p _ _ => t == sid && p == q
    | _ => false))

/-- An `enq` reaches its queue, after the slot's earlier writes and queue operations (R287, R288). -/
def stepQueue (s : State) (k sid q : Nat) (x : Word) (dest : Option Nat) : State :=
  if !s.released k sid || s.enqBefore k sid q then s
  else
    let pkg := pkgOf sid
    let l := Store.get [] (s.clusterAt pkg).fifo q
    let fits := l.length < 512
    let s1 := s.removeMsg k
    let s2 := if fits then (s1.setQueue pkg q (l ++ [x])).wake (waitsForQueue pkg q) else s1
    match dest with
    | some a => s2.updSlot sid (fun t => t.setP a fits)
    | none => s2

/-- A result returns from a unit of the cluster (R104, R286); that of a removal acquires (R287). -/
def stepResult (s : State) (k sid : Nat) (w : List RegWrite) (acq : Bool) : State :=
  let s1 := (s.removeMsg k).updSlot sid (fun t => t.applyWrites w)
  if acq then (s1.updSlot sid Slot.unhold).acquire sid else s1

/-- A message in flight that has left its port. -/
def msg (s : State) (k : Nat) : Option Msg := if s.isUnsent k then none else Store.find? s.flight k

/-- Perform a message, as far as it may be performed now. -/
def perform (s : State) (k : Nat) : State :=
  match s.msg k with
  | none => s
  | some (.load o) => s.loadNow k o
  | some (.store o) => s.storeAll k o
  | some (.atom o) => s.performAtom k o
  | some (.red o) => s.performRed k o
  | some (.cell o) => s.performCell k o
  | some (.clock sid d n) => if s.clockBefore k sid d then s else (s.clockAdd d n).removeMsg k
  | some (.quota sid dest d w live) => if s.clockBefore k sid d then s else s.quotaNow k sid dest d w live
  | some (.honesty d up) => (s.judge d up).removeMsg k
  | some (.arrive sid pa n) => s.stepArrive k sid pa n
  | some (.place p) =>
    let t := s.stepJoin k p
    match Store.find? t.flight k with
    | some (.place p') => t.stepPlace k p'
    | _ => t
  | some (.reg sid kind key va gin lcin) => s.stepReg k sid kind key va gin lcin
  | some (.event _ v t) => s.stepEvent k v t
  | some (.abort pkg id _) => s.stepAbort k pkg id
  | some (.snap sid pc first n va c) => s.stepSnap k sid pc first n va c
  | some (.queue sid q x d) => s.stepQueue k sid q x d
  | some (.result sid w acq) => s.stepResult k sid w acq
  | some (.leave sid r team m) => s.stepLeave k sid r team m

/-- Send a message: performed in the issuing step when nothing delays it, unless the step leaves it to its events
(log 3). -/
def post (s : State) (m : Msg) : State :=
  let t := s.enqueue m
  if s.lag then t else t.perform s.nextMsg

/-- Perform, in order, the messages numbered from k that a step has made, unless it leaves them to their events. -/
def settleFrom (s : State) (k : Nat) : State :=
  if s.lag then s
  else (List.range (s.nextMsg - k)).foldl (fun t i => t.perform (k + i)) s

end State
end Sys2Proof.Machine
end

