-- ==== Sys2Proof/Machine/Issue.lean ====
section
/-! DEFINITION. Issuing an instruction of a slot: what holds it back (R27, R101 to R104, R117, R223, R239), what
happens before it (R71, R111, R380, R423), the checks of R55 in their order, the guard (R43). `prepare` answers the
state in which the instruction is executed and the instruction, or only a state when none is executed. -/

namespace Sys2Proof.Machine

/-- Later memory instructions of R117: majors 0x40 to 0x4E, and `jt`. -/
def memMajor (maj : Nat) : Bool := (0x40 ≤ maj && maj ≤ 0x4E) || maj == 0x38

/-- The path class of a major (R239). -/
def pathOf (maj : Nat) : Option Path :=
  if maj == 0x42 then some .ro
  else if memMajor maj then some .core
  else if 0xB0 ≤ maj && maj ≤ 0xB4 then some .copy
  else if maj == 0xA1 || maj == 0xA2 || maj == 0xA3 || maj == 0xA7 || maj == 0xA8 then some .mop
  else if 0xB5 ≤ maj && maj ≤ 0xB7 then some .gather
  else if maj == 0xB8 || maj == 0xB9 then some .stream
  else none

/-- A copy command of the gather path. -/
def gathers : Instr → Bool
  | .gth .. | .sct .. | .cmpx .. => true
  | _ => false

/-! ### Shapes of copies (R242, R410) -/

namespace Copy

/-- Bytes of a row; of the whole length for the forms that have none. -/
def rowBytes (c : Copy) : Nat :=
  match c.i with
  | .cp2d _ _ _ _ _ q _ _ => 4 * (q.toNat + 1)
  | _ => c.c.toNat % 2 ^ 32

/-- Rows. -/
def rows (c : Copy) : Nat :=
  match c.i with
  | .cp2d _ _ _ _ r _ _ _ => r.toNat + 1
  | _ => 1

/-- Byte strides from row to row, destination and source. -/
def strides (c : Copy) : Int × Int :=
  match c.i with
  | .cp2d .. => (signedOf 32 c.c.toNat, signedOf 32 (c.c.toNat / 2 ^ 32))
  | _ => (0, 0)

/-- Lowest and one past the highest byte that the command writes, from its destination (R241). -/
def extent (c : Copy) : Int × Int :=
  let last := ((c.rows - 1 : Nat) : Int) * c.strides.1
  (if last < 0 then last else 0, (if last < 0 then 0 else last) + c.rowBytes)

/-- Scratchpad bytes that the command writes: core and range. -/
def scratchRange (c : Copy) : Option (Nat × Int × Int) :=
  c.dst.map (fun d => (d.1, d.2 + c.extent.1, d.2 + c.extent.2))

end Copy

/-- The unit class of a major (R51). -/
def unitClass (maj : Nat) : Nat :=
  if maj < 0x10 || 0xF0 ≤ maj then 0
  else if maj < 0x30 then 1
  else if maj < 0x40 || (0x60 ≤ maj && maj < 0x70) then 2
  else if maj < 0x60 || 0xE0 ≤ maj then 3
  else 4

/-- A pair of words is malformed (R52). -/
def badPair (a b : Nat) (target : Bool) : Bool :=
  let x := a / 2 ^ 88 % 256
  let y := b / 2 ^ 88 % 256
  unitClass x == unitClass y || unitClass x == 0 || unitClass y == 0 || target || (0x30 ≤ x && x ≤ 0x38)

/-- First members of the pairs of a template (R50). -/
def pairsOf : Nat → List Nat
  | 1 => [0] | 2 => [1] | 3 => [2] | 4 => [3] | 5 => [0, 2] | 6 => [0, 3] | 7 => [1, 3] | _ => []

/-- Reserved bits of the line word are zero (R48). -/
def lineReserved (line : Nat) : Bool := bits (lineWord line) 23 13 == 0 && bits (lineWord line) 7 0 == 0

/-- No pair of the line is malformed (R52, R55). -/
def linePairs (line : Nat) : Bool :=
  (pairsOf (bits (lineWord line) 26 24)).all (fun k =>
    !badPair (slotWord line k) (slotWord line (k + 1)) (targetBit line (k + 1)))

/-- What a matrix instruction uses (R205, R211, R212): its unit (0 array, 1 panel loader, 2 accumulator port), the
accumulator it reads or writes, whether it writes it, the units of the weight buffer it reads or writes. -/
def matrixUse : Instr → Nat × Option Nat × Bool × Nat × Nat
  | .mldb u _ _ _ kb sp _ => (1, none, false, u.val, u.val + kb.val * (if sp then 5 else 8))
  | .mmac _ a _ _ u kb | .mmacs _ a _ _ u kb => (0, some a.val, true, u.val, u.val + 8 * kb.val)
  | .mclr a | .mwr a .. | .msum a .. => (2, some a.val, true, 0, 0)
  | .mrd _ a .. | .mcvt _ _ a .. | .mtr a .. | .mfree a => (2, some a.val, false, 0, 0)
  | _ => (2, none, false, 0, 0)

/-- The instruction has read its accumulator when it is accepted (R212). -/
def isMrd : Instr → Bool
  | .mrd .. => true
  | _ => false

/-- A later matrix instruction cannot begin before an earlier one has retired: the same unit, an accumulator of which
one is a writer, panels that the later one loads (R205, R211, R212). `mrd` waits for none, and none waits for it. -/
def matrixWaits (x y : Instr) : Bool :=
  let (ux, ax, wx, lx, hx) := matrixUse x
  let (uy, ay, wy, ly, hy) := matrixUse y
  !isMrd x && !isMrd y && (ux == uy || (ax.isSome && ax == ay && (wx || wy)) || (uy == 1 && lx < hy && ly < hx))

/-- Instructions at the head of a matrix queue that have begun; `e` are the earlier ones. -/
def begunFrom (e : List Instr) : List Accepted → Nat
  | [] => 0
  | x :: t => if e.any (fun y => matrixWaits y x.i) then 0 else 1 + begunFrom (x.i :: e) t

/-- The mask registers that an instruction reads (R169, R180, R195). -/
def masksRead (r : Raw) (i : Instr) : List Nat :=
  (if 0x43 ≤ r.maj && r.maj ≤ 0x48 && bits r.X 16 16 == 1 then [bits r.X 15 13]
   else if 0x70 ≤ r.maj && r.maj ≤ 0x86 && bits r.X 11 11 == 1 then [bits r.X 18 16] else []) ++
  (match i with
    | .vsel _ _ m _ _ => [m.val]
    | .mand _ _ b c | .mor _ _ b c => [b.val, c.val]
    | .mnot _ _ b | .mpop _ _ b | .mfirst _ _ b => [b.val]
    | _ => [])

namespace State

/-! ### Stalls -/

/-- The slot has an access of a class still to be performed (R239). -/
def pathBusy (s : State) (sid : Nat) : Path → Bool
  | .core => s.flight.any (fun e => match e.2 with
      | .load o => o.sid == sid && !o.ro
      | .atom o => o.sid == sid
      | .cell o => o.sid == sid
      | m => writesBy sid m)
  | .ro => s.flight.any (fun e => match e.2 with
      | .load o => o.sid == sid && o.ro
      | _ => false)
  | .copy => s.copies.any (fun e => e.2.sid == sid && e.2.live && !gathers e.2.i)
  | .gather => s.copies.any (fun e => e.2.sid == sid && e.2.live && gathers e.2.i)
  | .mop => (s.slotAt sid).mq.any (fun a => match a.i with
      | .mldb .. | .mmac .. | .mmacs .. | .msum .. | .mtr .. => true
      | _ => false)
  | .stream => s.streams.any (fun e => e.2.sid == sid && e.2.rid == (s.slotAt sid).rid && !e.2.todo.isEmpty)

/-- An `xf` that is met: its paths read nothing older, and the core no copies of what an engine path has written since (R213,
R240). -/
def crossed (s : State) (sid : Nat) (a b : Path) : State :=
  let t := s.forgetAhead sid a b
  if a == .core || b == .core then t.selfInvalidate (t.cacheOf sid) else t

/-- The holds of a slot that still stand; a `fence.acq` that is met self-invalidates (R117). -/
def settleHolds (s : State) (sid : Nat) : List Hold → State × List Hold
  | [] => (s, [])
  | h :: t =>
    let sl := s.slotAt sid
    match h with
    | .fence =>
      if sl.cnt.ld == 0 && sl.stores == 0 then s.settleHolds sid t else (s, h :: t)
    | .fenceRel => if sl.stores == 0 then s.settleHolds sid t else (s, h :: t)
    | .fenceAcq => if sl.cnt.ld == 0 then (s.acquire sid).settleHolds sid t else (s, h :: t)
    | .acqLoad =>
      let (s1, r) := s.settleHolds sid t
      (s1, h :: r)
    | .xf a b =>
      let (s1, r) := s.settleHolds sid t
      if s.pathBusy sid a || s.pathBusy sid b then (s1, h :: r) else (s1.crossed sid a b, r)

/-- Drop the holds of the issuing slot that are met. -/
def dropHolds (s : State) : State :=
  match s.slot.holds with
  | [] => s
  | h :: t =>
    let (s1, l) := s.settleHolds s.cur (h :: t)
    s1.upd (fun x => { x with holds := l })

/-- A hold keeps an instruction of a major back. -/
def heldBack (s : State) (maj : Nat) : Bool :=
  s.slot.holds.any (fun h => match h with
    | .xf a b => pathOf maj == some a || pathOf maj == some b
    | _ => memMajor maj)

/-- The gate of a memory instruction is met (R27). -/
def gateOpen (s : State) (r : Raw) : Bool :=
  let c := s.slot.cnt
  if !((0x40 ≤ r.maj && r.maj ≤ 0x4E) || r.maj == 0xE3) then true
  else match r.T / 8 with
    | 0 => true
    | 1 => c.st == 0
    | 2 => c.rpe == 0 && c.rdi == 0 && c.rpk == 0 && c.rfa == 0
    | _ => c.cp == 0

/-- The instructions with vector registers or masks among their operands. -/
def vecMajor (maj : Nat) : Bool :=
  (0x43 ≤ maj && maj ≤ 0x48) || maj == 0x61 || (0x70 ≤ maj && maj ≤ 0x86) || (0xA4 ≤ maj && maj ≤ 0xA6) ||
  maj == 0xD1 || maj == 0xD2

/-- An operand field may name a register whose result is in flight (R104, log 12). -/
def dependent (s : State) (r : Raw) : Bool :=
  let sid := s.cur
  let sl := s.slot
  let run := if r.maj == 0xA4 || r.maj == 0xA5 then bits r.I 12 8 + 1 else 1
  let gs := [r.A, r.B, r.C, r.D, bits r.X 11 6]
  let gin : List Nat := if r.maj == 0x06 then (List.range 64).filter (fun n => (Decode.imm64 r).testBit n) else []
  gs.any (s.gBusy sid) || gin.any (s.gBusy sid) ||
  (if r.maj == 0x06 then List.range 8 else ([r.A, r.B, r.C, r.D].filter (· < 8))).any (s.pBusy sid) ||
  (vecMajor r.maj && (
    [r.A, r.B, r.C, r.D].any (fun n => (List.range run).any (fun i => s.vBusy sid (sl.physV (n + i)))) ||
    [r.A, r.B, r.C, bits r.X 18 16, bits r.X 15 13].any (s.mBusy sid)))

/-- A message that returns to a slot: a load, an atomic, a conversion, a quota read, a result of a cluster unit. -/
def returnsTo (sid : Nat) : Msg → Bool
  | .load o => o.sid == sid
  | .atom o => o.sid == sid && o.live
  | .cell o => o.sid == sid && o.arg.isRight
  | .quota t _ _ _ l => l && t == sid
  | .queue t _ _ d => t == sid && d.isSome
  | .result t _ _ => t == sid
  | _ => false

/-- A result of the slot is still in flight, whatever its destination (R99). -/
def resultsDue (s : State) : Bool :=
  !s.slot.vq.isEmpty || !s.slot.mq.isEmpty || s.flight.any (fun e => returnsTo s.cur e.2) ||
  (List.range 64).any (s.gBusy s.cur) || (List.range 64).any (s.vBusy s.cur)

/-- A counter that the instruction raises whatever its address stands at 63 (R101). -/
def ctrFull (s : State) (r : Raw) : Bool :=
  let c := s.slot.cnt
  let loads := [0x40, 0x42, 0x43, 0x45, 0x47, 0x4B].contains r.maj || (r.maj == 0x49 && r.mn < 2) ||
    r.maj == 0xE2 || (r.maj == 0x4C && r.mn == 12) || (r.maj == 0x4D && r.mn == 0)
  let tiles := (0xA0 ≤ r.maj && r.maj ≤ 0xA9) || r.maj == 0xB8 || r.maj == 0xB9
  (loads && c.ld == 63) || (tiles && c.tl == 63) || (0xB0 ≤ r.maj && r.maj ≤ 0xB7 && c.cp == 63)

/-- Commands of a slot that the copy engine has not begun (R102). -/
def unbegun (s : State) (sid : Nat) : Nat := (s.copies.filter (fun e => e.2.sid == sid && e.2.live && !e.2.begun)).length

/-- The engine queue of the instruction is full (R102): an entry is free when its instruction has begun, as the oldest
vector instruction always has. -/
def queueFull (s : State) (r : Raw) : Bool :=
  let sl := s.slot
  (0x70 ≤ r.maj && r.maj ≤ 0x86 && 2 < sl.vq.length) ||
  (0xA0 ≤ r.maj && r.maj ≤ 0xA9 && 2 ≤ sl.mq.length - begunFrom [] sl.mq) ||
  (0xB0 ≤ r.maj && r.maj ≤ 0xB9 && 2 ≤ s.unbegun s.cur) ||
  (0xC0 ≤ r.maj && r.maj ≤ 0xDB && 2 ≤ sl.pq.length)

/-- A stall condition of R104, R99 or R117 keeps the instruction of a word back. -/
def stalled (s : State) (r : Raw) : Bool :=
  s.queueFull r || s.ctrFull r || !s.gateOpen r || s.heldBack r.maj || s.dependent r ||
  (r.maj == 0x0D && s.resultsDue)

/-! ### Before an instruction -/

/-- Begin the pre-emption of a launch (R440 steps 1 and 2): every running slot of it is asked to stop. -/
def beginPreempt (s : State) (id : Nat) (done : Option (Nat × Nat × Origin)) : State :=
  let s1 := s.updLaunch id (fun l => { l with st := .preempting, preDone := done })
  { s1 with slots := s1.slots.map (fun e =>
      if e.2.run != .idle && e.2.rid.launch == id then (e.1, { e.2 with preReq := true }) else e) }

/-- A copy of the slot that its region instance in progress has issued: a re-run of the region issues it again (R441). -/
def rerunBy (sl : Slot) (sid : Nat) (c : Copy) : Bool := c.sid == sid && c.live && c.inst == sl.region.inst

/-- The `tsub` and `trel` of the slot that have not retired are abandoned with its region (R71, R424): a load stream whose first
tiles were on their way is no more, and a tile whose slot was given back stays as its flag says. -/
def abandonStreams (s : State) (sid : Nat) : State :=
  let r := (s.slotAt sid).rid
  let young (x : Stream) : Bool := x.rid == r && !x.out && x.todo.any (fun t => t.2 && t.1 < x.slots)
  { s with streams := (s.streams.filter (fun e => !young e.2)).map (fun e =>
      if e.2.rid == r then (e.1, { e.2 with todo := e.2.todo.filter (fun t => !t.2) }) else e) }

/-- A slot stops for the pre-emption of its launch (R71): a speculative task is aborted, but that one at the key L becomes
irrevocable; an unsealed region is discarded once its stores have been drained, a sealed one goes on. -/
def preemptSlot (s : State) (sid : Nat) : State :=
  let sl := s.slotAt sid
  if sl.run == .idle || sl.run == .held then s
  else if sl.head.spec then
    match s.entryOf sid with
    | some e => if s.isFirm (pkgOf sid) e then s.promote (pkgOf sid) e.id else s.abortList [(pkgOf sid, e.id, false)] false
    | none => s
  else if sl.region.sealed || sl.run == .engineHeld || sl.stores != 0 then s
  else
    let r := sl.rid
    let s0 : State := { s with copies := s.copies.map (fun e => (e.1, { e.2 with rerun := e.2.rerun || rerunBy sl sid e.2 })) }
    ((s0.abandonStreams sid).contRegion sid 5 0 0).updLaunch r.launch (fun l =>
      { l with stopped := l.stopped ++ [((l.grant.findIdx? (· == pkgOf sid)).getD 0, r)] })

/-- The slot reaches the `rgn` that ends its sealed region with a pre-emption request pending: it stops there, with
the inputs that the `rgn` names, once these are settled, its stores are drained and its engines have completed (R71, R367). -/
def preemptAt (s : State) (raw : Raw) (gin : Word) (lcin : BitVec 3) : State :=
  let sl := s.slot
  let r := sl.rid
  if s.stalled raw || sl.stores != 0 || !s.delivered s.cur || !sl.vq.isEmpty || !sl.mq.isEmpty || !sl.pq.isEmpty then s
  else (s.leaveWith s.cur (contHead sl sl.pc gin lcin.toNat (sl.p.toNat / 2) true 5 0 0) (sl.liveVals gin lcin.toNat)).updLaunch
    r.launch (fun l => { l with stopped := l.stopped ++ [((l.grant.findIdx? (· == pkgOf s.cur)).getD 0, r)] })

/-- Every counter of the slot but one is 0 (R228, R423). -/
def othersQuiet (sl : Slot) (c : Ctr) : Bool := (sl.updCtr c (fun _ => 0)).quiet

/-- An unsealed region met an engine fault: the task parks with wake kind 6 once the slot's other counters have
drained (R423); the copies that the re-run issues again are dropped. -/
def parkEngine (s : State) (va : Word) : State :=
  let sl := s.slot
  if !othersQuiet sl .cp || !s.delivered s.cur then s
  else
    let kept := s.copies.filter (fun e => !(rerunBy sl s.cur e.2 && e.2.fault.isNone))
    let s0 : State := { s with copies := kept.map (fun e => (e.1, { e.2 with rerun := e.2.rerun || rerunBy sl s.cur e.2 })) }
    let s1 := s0.contRegion s.cur 3 6 va
    if (s1.slotAt s.cur).run == .held then s1
    else s1.register { rid := sl.rid, pkg := pkgOf s.cur, kind := 6, key := va.toNat }

/-- The issuing slot stops at a breakpoint (R380, R448). -/
def atBreak (s : State) (preempt : Bool) : State :=
  if preempt then (s.beginPreempt s.slot.rid.launch none).upd (fun t => { t with pass := true })
  else s.upd (fun t => { t with run := .debugHeld, pass := true })

/-- A line whose slot fails its parity is fetched once more, and its copy discarded (R49). -/
def refetch (s : State) (pc : Word) (line : Nat) : State × Nat :=
  if parityOk line (slotOfPc pc) then (s, line)
  else match s.memLine s.cur pc with
    | .error _ => (s, line)
    | .ok x =>
      let a := (lineOfPc pc).toNat
      (s.upd (fun t => { t with
        icopy := Store.erase t.icopy a
        loops := t.loops.map (fun l => (l.1, { l.2 with body := l.2.body.map (fun b =>
          if b.1 / 64 * 64 == a then (b.1, x) else b) })) }), x)

/-- What R55 checks of a line and a slot before the guard: the trap, or the guard, the fields and the instruction. -/
def lineCheck (pc : Word) (line : Nat) : Except Trap (Guard × Instr) :=
  let w := slotWord line (slotOfPc pc)
  if !parityOk line (slotOfPc pc) then .error ⟨2, lineTval pc 1⟩
  else if !lineReserved line then .error ⟨2, lineTval pc 2⟩
  else if !linePairs line then .error ⟨2, lineTval pc 3⟩
  else match decode (slotOfPc pc) w with
    | .error r => .error ⟨1, illegalTval r w⟩
    | .ok x => .ok x

/-- The resumption check of R73. -/
def resumeOk (sl : Slot) : Instr → Bool
  | .rgn gin lcin => gin.toNat / 2 == sl.region.gin.toNat / 2 && lcin == sl.region.lcin
  | _ => false

/-- The inputs that an `rgn` names. -/
def rgnInputs : Instr → Option (Word × BitVec 3)
  | .rgn gin lcin => some (gin, lcin)
  | _ => none

/-- The decoded instruction of the issuing slot: the resumption check, the guard, the pre-emption at a region's end, the
stalls. An `rgn` within an open hardware loop traps as it does without a request (R106). -/
def prepareInstr (s : State) (q : Guard) (r : Raw) (i : Instr) : State × Option Instr :=
  if s.slot.rcheck && !resumeOk s.slot i then
    ((s.upd (fun t => { t with rcheck := false })).trap 10 s.slot.rid.addr, none)
  else
    let s1 := s.upd (fun t => { t with rcheck := false })
    if s1.pBusy s1.cur q.pred.val then (s1, none)
    else if s1.p q.pred.val == q.sense then (s1.retire, none)
    else match (if s.slot.preReq && s.slot.order.isEmpty then rgnInputs i else none) with
    | some (gin, lcin) => (s1.preemptAt r gin lcin, none)
    | none =>
      if s1.stalled r then (s1, none)
      else if (masksRead r i).any (fun n => s.slot.mPoison.getLsbD n) then
        (s1.trap 14 (BitVec.ofNat 64 (coreInCluster s.cur * 2 ^ 8 + 5)), none)
      else (s1, some i)

/-- The issuing slot's next instruction, from its line. -/
def prepareLine (s : State) (line : Nat) : State × Option Instr :=
  let (s0, l) := s.refetch s.pc line
  let s1 := s0.captureHere l
  match lineCheck s.pc l with
  | .error t => (s1.trap t.cause t.tval, none)
  | .ok (q, i) => s1.prepareInstr q (Raw.unpack (slotWord l (slotOfPc s.pc))) i

/-- The issuing slot's turn: the state in which an instruction is executed, and the instruction if one is. -/
def prepare (s : State) : State × Option Instr :=
  let sl := s.slot
  if sl.run != .running || s.boot.mode == 3 then (s, none)
  else match sl.engFault with
    | some va => (s.parkEngine va, none)
    | none =>
      match (if sl.after.isSome then [] else sl.deferred) with
      | d :: l => ((s.upd (fun t => { t with deferred := l })).trapTo ⟨14, d.tval⟩ sl.pc true d.addr, none)
      | [] =>
        if sl.preReq && (!sl.region.sealed || sl.head.spec) then (s.preemptSlot s.cur, none)
        else match (if sl.pass then none else s.breaks.find? (fun b =>
            b.pc == sl.pc && b.launch == sl.rid.launch && (b.sids.all (fun l => l.contains s.cur)))) with
          | some b => (s.atBreak b.preempt, none)
          | none =>
            let s1 := (s.dropHolds).updCore (coreOf s.cur) (fun c => { c with last := s.cur % 2 })
            match s1.fetchLine s.cur sl.pc with
            | .error t => (s1.trap t.cause t.tval, none)
            | .ok l => (s1.tlbFill (coreOf s.cur) sl.rid.launch (lineOfPc sl.pc)).prepareLine l

/-! ### The other member of a packet (R50, R53, R228) -/

/-- The register that an instruction writes which may have to wait at a port or unit. -/
def waitDest : Instr → Nat
  | .ldf _ a _ | .ldfe _ a _ | .deqw a _ | .twait a => a.val
  | _ => 0

/-- General registers that an instruction names: its fields, and for an instruction with vector operands those that are
general registers. -/
def gNames (r : Raw) : Instr → List Nat
  | .vred _ _ a _ _ _ | .vext _ a _ _ | .mpop _ a _ | .mfirst _ a _ | .vblkRd a _ _ => [a.val]
  | .vbcast _ _ b _ | .vins _ _ b _ | .vblkWr _ b _ => [b.val]
  | .vmacc _ _ _ c _ => [c.val]
  | _ => (if vecMajor r.maj && 0x70 ≤ r.maj && r.maj < 0xC0 then [] else [r.A, r.B, r.C, r.D]) ++ [bits r.X 11 6]

/-- A wait that acquires (R275, R287): a later memory instruction stays behind it. -/
def acquires : Instr → Bool
  | .twait .. | .deqw .. => true
  | _ => false

/-- The issuing slot's instruction and the next one are a packet that issues together: no iteration step falls between them,
the second names no register that the first writes, and it is no memory instruction that an acquire holds back (R50, R53, R143,
R223). -/
def paired (s : State) (line : Nat) : Bool :=
  let sl := s.slot
  let k := slotOfPc sl.pc
  (pairsOf (bits (lineWord line) 26 24)).contains k && !sl.order.any (fun j => (sl.level j).stop == sl.pc) &&
  (match decode k (slotWord line k), decode (k + 1) (slotWord line (k + 1)) with
    | .ok (_, i), .ok (_, j) =>
      let r := Raw.unpack (slotWord line (k + 1))
      (waitDest i == 0 || !(gNames r j).contains (waitDest i)) && !(acquires i && unitClass r.maj == 3)
    | _, _ => false)

/-- The issuing slot at the second member of its spinning instruction's packet, with that instruction, when it has still to
issue and nothing keeps it back (R228). -/
def prepareMate (s : State) : Option (State × Instr) :=
  let sl := s.slot
  if sl.spin.isNone || sl.after.isSome then none
  else match s.fetchLine s.cur sl.pc with
    | .error _ => none
    | .ok l =>
      if !s.paired l then none
      else match (s.upd (fun t => { t with pc := t.pc + 1, spin := none })).prepare with
        | (t, some i) => some (t, i)
        | (_, none) => none

/-- The second member has taken effect: the slot waits on at the first, and continues where the second left it. `none` when
the second has not retired: it then issues by itself once the first has (R53). -/
def rejoin (s u : State) : Option State :=
  let old := s.slot
  let t := u.slotAt s.cur
  if t.run == .running && t.epoch == old.epoch && t.pc != old.pc + 1 &&
      t.csr.tcause.getLsbD 63 == old.csr.tcause.getLsbD 63 then
    some (u.updSlot s.cur (fun t =>
      { t with pc := old.pc, after := some t.pc, spin := old.spin, expired := old.expired, counted := old.counted }))
  else none

/-! ### Time, and everything in flight -/

/-- A step takes some core cycles, and some time of the disciplined clock (R96, R438, log 7). -/
def tick (s : State) : State :=
  { s with cyc := s.cyc + BitVec.ofNat 64 (Config.stepCycles s.nonce)
           clock := s.clock + BitVec.ofNat 64 (Config.stepNanos s.nonce), nonce := s.nonce + 1 }

end State
end Sys2Proof.Machine
end

