-- ==== Sys2Proof/Machine/Access.lean ====
section
/-! DEFINITION. Accesses on the core load/store path (R220 to R226): the checks in their order, what an earlier
operation of the slot holds back, loads and stores of a plain task and of a speculative one (R325 to R327). -/

namespace Sys2Proof.Machine

/-- The location lies in a scratchpad. -/
def Loc.isScr : Loc → Bool
  | .scr _ _ => true
  | .glob _ => false

namespace State

/-! ### Checks -/

/-- Alignment, then the window rules, translation and permission (R220 steps 2 to 5). -/
def checkAt (s : State) (va : Word) (n align : Nat) (k : Access) : Except Trap Loc :=
  if va.toNat % align != 0 then .error ⟨3, va⟩ else s.locate s.cur va n k

/-- Take a trap of a check. -/
def trapWith (s : State) (t : Trap) : State := s.trap t.cause t.tval

/-- The TLBs keep the translation of an access (R421). -/
def filled (s : State) (va : Word) : State := s.tlbFill (coreOf s.cur) s.slot.rid.launch va

/-- The global ranges among locations. -/
def globRanges (l : List (Loc × Nat)) : List (Nat × Nat) :=
  l.filterMap (fun x => match x.1 with
    | .glob pa => some (pa, x.2)
    | .scr _ _ => none)

/-- An access with a next-use code passes the caches of its path (R247): `ro` without the L1. -/
def useCode (s : State) (l : List (Loc × Nat)) (nu : Nat) (ro : Bool) (served : Nat → Nat → Bool) : State :=
  s.passCaches (if ro then none else some s.cache) s.slot.csr.nud.toNat nu (globRanges l) served

/-- The core's L1 serves a load of n bytes: a block is fetched with its descriptor from its home (R387, R158). -/
def hitsL1 (s : State) (pa n : Nat) : Bool := n != 64 && (wordsOf pa n).all (s.l1Hit s.cache)

/-- No access of the core ends in its L1: it acts at the home. -/
def atHomeOnly (_ _ : Nat) : Bool := false

/-! ### What earlier operations hold back -/

/-- An earlier access of the slot to the same bytes is still on its way (R392). With `plain`, stores whose bytes stand in
the core's L1 are not counted. -/
def conflict (s : State) (l : Loc) (n : Nat) (plain : Bool) : Bool := s.byteBefore s.nextMsg s.cur l n plain

/-- An earlier access of the slot to the same scratchpad waits in flight (R218). -/
def scrWaits (s : State) (l : Loc) : Bool :=
  match l with
  | .glob _ => false
  | .scr c _ =>
    let here (x : Loc) : Bool := match x with | .scr d _ => c == d | .glob _ => false
    s.flight.any (fun e => match e.2 with
      | .store o => o.sid == s.cur && o.pieces.any (fun p => here p.loc)
      | .atom o => o.sid == s.cur && here o.loc
      | .red o => o.sid == s.cur && here o.loc
      | .cell o => o.sid == s.cur && here o.loc
      | _ => false)

/-- The range scoreboard holds a range that the access touches (R241). -/
def scored (s : State) (l : Loc) (n : Nat) : Bool :=
  match l with
  | .glob _ => false
  | .scr c o => s.copies.any (fun e => e.2.scored && (match e.2.scratchRange with
      | some (d, lo, hi) => d == c && lo < o + n && (o : Int) < hi
      | none => false))

/-- An access of a scratchpad keeps its place behind the slot's earlier ones (R218, R241). -/
def mustWait (s : State) (l : Loc) (n : Nat) : Bool := s.scrWaits l || s.scored l n

/-! ### Reads of a speculative task (R326) -/

/-- The blocks of a range. -/
def blocksOf (pa n : Nat) : List Nat := (List.range ((pa % 64 + n + 63) / 64)).map (· + pa / 64)

/-- Reader registrations at a slice. -/
def readersAt (s : State) (slice : Nat) : Nat :=
  s.allEntries.foldl (fun n x => n + (x.2.reads.filter (fun r => sliceOf (r.1 / 16) == slice)).length) 0

/-- The task may register the blocks it has not read yet: at its read set, and at each slice. -/
def readRoom (s : State) (e : Entry) (blocks : List Nat) : Bool :=
  let new := (blocks.filter (fun b => (Store.find? e.reads b).isNone)).eraseDups
  let slice (b : Nat) : Nat := sliceOf (b / 16)
  e.reads.length + new.length ≤ 256 &&
  new.all (fun b => s.readersAt (slice b) + (new.filter (fun c => slice c == slice b)).length ≤ 32768)

/-- A speculative read of n bytes: its blocks are registered, and what the task sees is answered. -/
def specRead (s : State) (id pa n : Nat) : State × List Byte :=
  let s1 := (blocksOf pa n).foldl (fun t b => t.readBlock (pkgOf s.cur) id b) s
  match s1.entryAt (pkgOf s.cur) id with
  | some e => (s1, (List.range n).map (fun i => s1.specByte e (pa + i)))
  | none => (s1, [])

/-- The descriptor that goes with a speculative read. -/
def specDescOf (s : State) (id pa : Nat) : BitVec 16 :=
  match s.entryAt (pkgOf s.cur) id with
  | some e => s.specDesc e (pa / 64)
  | none => 0

/-- The global addresses of the parts of a load. -/
def globs (l : List Part) : List (Nat × Part) :=
  l.filterMap (fun p => match p.loc with
    | .glob pa => some (pa, p)
    | .scr _ _ => none)

/-- A load of a speculative task, answered at once. -/
def specLoad (s : State) (e : Entry) (o : LoadOp) : State :=
  let (s1, o1) := (globs o.parts).foldl (fun (x : State × LoadOp) y =>
    let (t, bs) := x.1.specRead e.id y.1 y.2.n
    let d := t.specDescOf e.id y.1
    (t, { x.2 with got := x.2.got ++ [{
      lane := y.2.lane, x := leNat bs, desc := d, poison := isPoison d
      origin := BitVec.ofNat 64 (t.originOf s.cur y.2.loc false (o.far.contains (lineOf y.1)) + d.toNat / 256) }] })) (s, o)
  (s1.upd (fun t => t.inc .ld)).finishLoad o1

/-! ### Issue -/

/-- Issue a load whose parts passed their checks (R222 to R226). -/
def issueLoad (s : State) (va : Word) (dest : LoadDest) (parts : List Part) (acq ro : Bool) (nu : Nat) : State :=
  let o : LoadOp := { sid := s.cur, pc := s.pc, va := va, dest := dest, parts := parts
                      todo := List.range parts.length, acq := acq, ro := ro
                      far := ((globs parts).map (fun x => lineOf x.1)).filter (fun n => s.isFar (.glob (1024 * n))) }
  match (if s.slot.head.spec then s.entryOf s.cur else none) with
  | some e =>
    if parts.any (fun p => p.loc.isScr) then s.waitFirm
    else if !s.readRoom e ((globs parts).flatMap (fun x => blocksOf x.1 x.2.n)) then s.waitFirm
    else ((s.useCode (parts.map (fun p => (p.loc, p.n))) nu true atHomeOnly).specLoad e o).retire
  | none =>
    if parts.any (fun p => s.mustWait p.loc p.n) then s.stall
    else
      let s1 := s.useCode (parts.map (fun p => (p.loc, p.n))) nu ro (fun pa n => !acq && !ro && s.hitsL1 pa n)
      let s2 := s1.upd (fun t => { (t.inc .ld) with holds := if acq then t.holds ++ [.acqLoad] else t.holds })
      let k := s2.nextMsg
      let s3 := s2.enqueue (.load o)
      (if s3.lag && !parts.any (fun p => p.loc.isScr) then s3 else s3.perform k).retire

/-- The counters that a store raises: one for each class of home among its pieces (R101). -/
def storeCtrs (s : State) (pieces : List (Word × Piece)) : List Ctr :=
  (pieces.map (fun p => s.homeCtr s.cur p.1 p.2.loc)).eraseDups

/-- A store of a speculative task enters its commit buffer (R325). -/
def specStore (s : State) (e : Entry) (pieces : List (Word × Piece)) (nu : Nat) : State :=
  let buf := pieces.foldl (fun m p => match p.2.loc with
    | .glob pa => bufWrite m pa p.2.bytes p.2.desc (s.slot.csr.nud.toNat, nu)
    | .scr _ _ => m) e.buf
  if !s.bufferRoom (pkgOf s.cur) e (buf.length - e.buf.length) then s.waitFirm
  else
    let s1 := s.updEntry (pkgOf s.cur) e.id (fun e => { e with buf := buf })
    if s.storeCtrs pieces == [.st] then s1.retire else s1.retireSeal

/-- The class with which a piece is sent: its home's, but that every scratchpad piece goes with the first, so that
lanes that meet through two windows are written in their order (R226). -/
def sendClass (s : State) (pieces : List (Word × Piece)) (p : Word × Piece) : Ctr :=
  match (if p.2.loc.isScr then pieces.find? (fun q => q.2.loc.isScr) else none) with
  | some q => s.homeCtr s.cur q.1 q.2.loc
  | none => s.homeCtr s.cur p.1 p.2.loc

/-- How a piece of a store begins (R386): `none` when the core holds its words registered and it is performed at once;
otherwise whether its bytes wait for its home: those of a release, of a remote store, of a block with its descriptor
(R158), or of a store that would overtake an earlier access of the slot (R392). -/
def storeBegins (s : State) (rel : Bool) (p : Piece) : Option Bool :=
  match p.loc with
  | .scr _ _ => some true
  | .glob pa =>
    if rel || !s.isLocal pa || p.bytes.isEmpty || s.conflict p.loc p.span true then some true
    else if s.ownsAll s.cache pa p.bytes.length then none
    else some p.desc.isSome

/-- Begin piece i: what has been done to it, and the lists of pieces that wait with their bytes, and that wait. -/
def beginPiece (rel : Bool) (acc : State × List Nat × List Nat) (x : Piece × Nat) : State × List Nat × List Nat :=
  let (s, late, todo) := acc
  match s.storeBegins rel x.1, x.1.loc with
  | none, .glob _ => (s.applyPiece s.cur false true x.1, late, todo)
  | some false, .glob pa => (s.l1Store s.cache pa x.1.bytes, late, todo ++ [x.2])
  | _, _ => (s, late ++ [x.2], todo ++ [x.2])

/-- Send the pieces of a store that go to one class of home. A store that needs no registration is performed when it
writes the L1 (R386). -/
def sendStore (s : State) (pieces : List (Word × Piece)) (rel : Bool) (c : Ctr) : State :=
  let mine := (pieces.filter (fun p => s.sendClass pieces p == c)).map (·.2)
  let (s1, late, todo) := mine.zipIdx.foldl (beginPiece rel) (s, [], [])
  if todo.isEmpty then s1
  else
    let s2 := s1.upd (fun t => t.inc c)
    let k := s2.nextMsg
    let s3 := s2.enqueue (.store { sid := s.cur, ctr := some c, pieces := mine, rel := rel, late := late, todo := todo })
    if s3.lag && (rel || !mine.any (fun p => p.loc.isScr)) then s3 else s3.perform k

/-- Issue a store whose pieces, each with its address, passed their checks (R222, R225, R226, R386). -/
def issueStore (s : State) (pieces : List (Word × Piece)) (rel : Bool) (nu : Nat) : State :=
  match (if s.slot.head.spec then s.entryOf s.cur else none) with
  | some e => if pieces.any (fun p => p.2.loc.isScr) then s.waitFirm else s.specStore e pieces nu
  | none =>
    let cs := s.storeCtrs pieces
    if cs.any (fun c => s.slot.full c) ||
        pieces.any (fun p => s.mustWait p.2.loc p.2.span) then s.stall
    else
      let s1 := s.useCode (pieces.map (fun p => (p.2.loc, p.2.span))) nu false (fun pa n =>
        !rel && pieces.all (fun p => p.2.desc.isNone) && s.ownsAll s.cache pa n)
      let s2 := cs.foldl (fun t c => t.sendStore pieces rel c) s1
      if cs.all (· == .st) then s2.retire else s2.retireSeal

/-- An instruction that acts at a home outside the commit buffer waits until its task is irrevocable (R327). -/
def firmly (s : State) (f : State → State) : State := if s.slot.head.spec then s.waitFirm else f s

end State
end Sys2Proof.Machine
end

