-- ==== Sys2Proof/Machine/System.lean ====
section
/-! DEFINITION. The system instructions (R67, R80 to R82, R99, R110, R115 to R119, R239). -/

namespace Sys2Proof.Machine

namespace State

/-- A trap whose `tepc` is the next instruction: `brk`, `sys`, `trap` (R107, R115). The instruction retires (log 16). -/
def trapNext (s : State) (c : Nat) (v : Word) : State :=
  let s1 := s.countIns
  s1.trapTo ⟨c, v⟩ (nextPc s1.pc) false 0

/-- A fence holds later memory instructions; what is already met holds nothing (R117). -/
def fenceWith (s : State) (l : List Hold) : State :=
  ((s.upd (fun t => { t with holds := t.holds ++ l })).dropHolds).retire

/-! ### Suspension points -/

/-- What `sus` and `yld` check of the place they stand at: no handler runs (R110), and an `rgn` follows (R73). -/
def restTrap (s : State) : Option Trap :=
  if s.slot.csr.tcause.getLsbD 63 then some ⟨1, illegalTval 6 s.wordHere⟩
  else if s.nextRgn.isNone then some ⟨10, nextPc s.pc⟩
  else none

/-- A registration of the slot is on its way. -/
def regPending (s : State) : Bool :=
  s.flight.any (fun e => match e.2 with
    | .reg t .. => t == s.cur
    | _ => false)

/-- Where `sus` registers: a tag's word or a cell, translated as a load (R80, R75, log 71). -/
def susKey (s : State) (kind : Nat) (a : Word) : Except Trap Nat :=
  if kind == 3 then
    if a.toNat % 8 != 0 then .error ⟨3, a⟩
    else if a.toNat / 2 ^ 32 == 0xFFFFFF00 then .error ⟨7, a⟩
    else s.translate (coreOf s.cur) s.slot.rid.launch a .load
  else if a.toNat % 4 != 0 then .error ⟨3, a⟩
  else match s.window s.cur a 4 .load with
    | .error t => .error t
    | .ok none => .error ⟨7, a⟩
    | .ok (some (c, o, _)) => .ok (scrKey c o / 4)

/-- `sus` on a condition (R80). -/
def suspend (s : State) (kind : Nat) (a : Word) : State :=
  if s.slot.csr.tcause.getLsbD 63 then s.illegal 6
  else match s.susKey kind a with
    | .error t => s.trapWith t
    | .ok key => match s.nextRgn with
      | none => s.trap 10 (nextPc s.pc)
      | some (gin, lcin) =>
        if s.slot.head.spec then s.waitFirm
        else if !s.slot.quiet || s.resultsDue || !s.slot.pq.isEmpty || s.regPending || !s.delivered s.cur then s.stall
        else (if kind == 3 then s.filled a else s).post (.reg s.cur kind key a gin lcin)

/-- The parent join cell in the slot's record now (R82). -/
def parentNow (s : State) : Word :=
  match s.readRecord (coreOf s.cur) s.slot.rid with
  | some (h, _) => h.parent
  | none => s.slot.head.parent

/-- A task that is not speculative finishes: the arrival at its parent, the record free, its allocation released
(R82). A task under Aster commits what it held, and leaves it (R332 steps 2 and 3). -/
def finish (s : State) : State :=
  let r := s.slot.rid
  let sid := s.cur
  match s.entryOf sid with
  | some e =>
    let s1 := s.releaseWork (pkgOf sid) e
    match s1.finishEntry (pkgOf sid) e s.parentNow with
    | some t => t.releaseSlot sid
    | none => s1.hold sid (.finFault r sid s.parentNow)
  | none => match s.arriveParent (coreOf sid) r.launch s.parentNow with
    | none => s.hold sid (.finFault r sid s.parentNow)
    | some t => match t.readRecord (coreOf sid) r with
      | none => t.holdRecord sid r
      | some (h, vals) =>
        match t.writeRecord (coreOf sid) r (h.setState 0) (if r.pool.isSome then vals else []) with
        | none => t.holdRecord sid r
        | some u => ((u.freeAlloc r).releaseSlot sid).freePool r

/-- Every engine queue of the slot is empty. -/
def enginesIdle (s : State) : Bool := s.slot.vq.isEmpty && s.slot.mq.isEmpty && s.slot.pq.isEmpty

/-! ### Control registers (R96 to R99) -/

/-- A control register; `none` for an unassigned number. -/
def csrRead (s : State) (n : Nat) : Option Word :=
  let sl := s.slot
  let w (x : Nat) : Option Word := some (BitVec.ofNat 64 x)
  match n with
  | 0x000 => some sl.rid.addr
  | 0x001 => w (s.cur % 2)
  | 0x002 => w (coreInCluster s.cur)
  | 0x003 => w (pkgOf s.cur % 96)
  | 0x004 => w (pkgOf s.cur / 96)
  | 0x005 => w (pkgOf s.cur)
  | 0x006 => w s.dev
  | 0x010 => some sl.csr.tvec
  | 0x011 => some sl.csr.tcause
  | 0x012 => some sl.csr.tval
  | 0x013 => some sl.csr.tepc
  | 0x020 => some sl.tkey
  | 0x021 => match (s.clusterAt (pkgOf s.cur)).ll with
    | some k => w k.t
    | none => w (2 ^ 64 - 1)
  | 0x030 => w sl.csr.nud.toNat
  | 0x040 => some s.cyc
  | 0x041 => some sl.csr.ins
  | 0x050 => w sl.csr.fflags.toNat
  | 0x051 => w sl.csr.frm.toNat
  | 0x060 => w sl.csr.vrb.toNat
  | 0x061 => some sl.lpst
  | _ => none

/-- A value may be left in a control register: no reserved bit, and a `tvec` that is a code address (R99). -/
def csrFits (n : Nat) (x : Word) : Bool :=
  let v := x.toNat
  match n with
  | 0x010 => codeAddr x
  | 0x011 => v / 256 % 2 ^ 54 == 0
  | 0x030 => v < 256
  | 0x050 => v < 32
  | 0x051 => v < 4
  | 0x060 => v < 32
  | _ => true

/-- Write a control register. -/
def csrSet (c : Csrs) (n : Nat) (x : Word) : Csrs :=
  match n with
  | 0x010 => { c with tvec := x }
  | 0x011 => { c with tcause := x }
  | 0x012 => { c with tval := x }
  | 0x013 => { c with tepc := x }
  | 0x030 => { c with nud := x.truncate 8 }
  | 0x050 => { c with fflags := x.truncate 5 }
  | 0x051 => { c with frm := x.truncate 2 }
  | 0x060 => { c with vrb := x.truncate 5 }
  | _ => c

/-- A reuse domain granted to the issuing task's launch (R248): domain 0 to every launch. -/
def grantedDomain (s : State) (d : Nat) : Bool := d == 0 || (s.launchAt s.slot.rid.launch).domains.contains d

/-- A control-register instruction that writes (R119, R259): `f` gives the new value from the old one, `a` receives the
old one. -/
def csrWrite (s : State) (a n : Nat) (f : Word → Word) : State :=
  match s.csrRead n with
  | none => s.illegal 5
  | some old =>
    if Instr.csrReadOnly n || !csrFits n (f old) then s.illegal 6
    else if n == 0x030 && !s.grantedDomain (f old).toNat then s.trap 7 (f old)
    else (s.upd (fun t => ({ t with csr := csrSet t.csr n (f old) }).setG a old)).retire

end State

open State

/-- The outcome of every meaning: a next state. -/
abbrev Next := Host.Outcome State Fault Refusal

/-- `nop` (R115). -/
def execNop (s : State) : Next := .next s.retire
/-- `brk n` (R115, R112): an armed slot is held for the debugger instead. -/
def execBrk (n : BitVec 16) (s : State) : Next :=
  .next (if s.slot.armed then s.retire.upd (fun t => { t with run := .debugHeld }) else s.trapNext 15 (n.setWidth 64))
/-- `trap n` (R115). -/
def execTrap (n : BitVec 16) (s : State) : Next := .next (s.trapNext 17 (n.setWidth 64))
/-- `sret` (R110). -/
def execSret (s : State) : Next := .next s.trapReturn
/-- `sys n` (R115): it seals. -/
def execSys (n : BitVec 16) (s : State) : Next := .next (s.markSealed.trapNext 16 (n.setWidth 64))
/-- `rgn` (R67, R106): a new region, unsealed, with its inputs as they are. -/
def execRgn (gin : BitVec 64) (lcin : BitVec 3) (s : State) : Next :=
  .next (
    if s.slot.order.isEmpty then
      (s.upd (fun t => { t with region := {
        pc := t.pc, gin := gin, lcin := lcin, vals := t.liveVals gin lcin.toNat, pred := t.p, isRgn := true
        sealed := false, inst := s.nonce } })).retire
    else s.trap 10 s.pc)
/-- `fence` (R117). -/
def execFence (s : State) : Next := .next (s.fenceWith [.fence])
/-- `fence.acq` (R117). -/
def execFenceAcq (s : State) : Next := .next (s.fenceWith [.fenceAcq])
/-- `fence.rel` (R117). -/
def execFenceRel (s : State) : Next := .next (s.fenceWith [.fenceRel])
/-- `fence.ar` (R117): `fence.rel`, then `fence.acq`. -/
def execFenceAr (s : State) : Next := .next (s.fenceWith [.fenceRel, .fenceAcq])
/-- `xf c1, c2` (R239). -/
def execXf (c1 c2 : Path) (s : State) : Next := .next (s.fenceWith [.xf c1 c2])
/-- `wait l, s, c, t` (R116). -/
def execWait (l n c t : Fin 16) (s : State) : Next :=
  let x := s.slot.cnt
  .next (
    if waitMet l.val x.ld.toNat && waitMet n.val s.slot.stores && waitMet c.val x.cp.toNat && waitMet t.val x.tl.toNat
    then s.retire else s.stall)
/-- `sus.full` (R80). -/
def execSusFull (b : GReg) (s : State) : Next := .next (s.suspend 1 (s.g b.val))
/-- `sus.empty` (R80). -/
def execSusEmpty (b : GReg) (s : State) : Next := .next (s.suspend 2 (s.g b.val))
/-- `sus.join` (R80). -/
def execSusJoin (b : GReg) (s : State) : Next := .next (s.suspend 3 (s.g b.val))
/-- The end of an irrevocable timestamped task is its commit, which the debugger may hold (R371). -/
def finHeld (s : State) : Bool :=
  !s.slot.head.spec && (s.entryOf s.cur).isSome && commitHeld (s.clusterAt (pkgOf s.cur))
/-- `fin` (R82): a speculative task is done and waits for its commit, any other finishes. -/
def execFin (s : State) : Next :=
  .next (
    if !s.slot.quiet || !s.enginesIdle || !s.delivered s.cur || finHeld s then s.stall
    else
      let s1 := (s.markSealed.countIns).leaveTeam s.cur
      if s1.slot.head.spec then
        let r := s1.slot.rid
        ((s1.writeState (pkgOf s1.cur) r 6).entryState s1.cur .done).releaseSlot s1.cur
      else s1.finish)
/-- `yld` (R81). -/
def execYld (s : State) : Next :=
  .next (match s.restTrap with
    | some t => s.trapWith t
    | none => match s.nextRgn with
      | none => s.trap 10 (nextPc s.pc)
      | some (gin, lcin) =>
        if s.slot.head.spec then s.waitFirm
        else if !s.slot.quiet || s.resultsDue || !s.slot.pq.isEmpty || !s.delivered s.cur then s.stall
        else s.countIns.contNext s.cur gin lcin 1 0 0)
/-- `csrr` (R119). -/
def execCsrr (a : GReg) (n : BitVec 12) (s : State) : Next :=
  .next (match s.csrRead n.toNat with
    | none => s.illegal 5
    | some x => (s.setG a.val x).retire)
/-- `csrw` (R119). -/
def execCsrw (n : BitVec 12) (b : GReg) (s : State) : Next := .next (s.csrWrite 0 n.toNat (fun _ => s.g b.val))
/-- `csrx` (R119). -/
def execCsrx (a : GReg) (n : BitVec 12) (b : GReg) (s : State) : Next :=
  .next (s.csrWrite a.val n.toNat (fun _ => s.g b.val))
/-- `csrs` (R119). -/
def execCsrs (a : GReg) (n : BitVec 12) (b : GReg) (s : State) : Next :=
  .next (s.csrWrite a.val n.toNat (fun x => x ||| s.g b.val))
/-- `csrc` (R119). -/
def execCsrc (a : GReg) (n : BitVec 12) (b : GReg) (s : State) : Next :=
  .next (s.csrWrite a.val n.toNat (fun x => x &&& ~~~(s.g b.val)))

end Sys2Proof.Machine
end

