-- ==== Sys2Proof/Machine/Task.lean ====
section
/-! DEFINITION. Spawns, messages and join cells (R75 to R89), teams (R270 to R279), work queues (R285 to R289), the
horizon and Aster's instructions (R337 to R340). -/

namespace Sys2Proof.Machine

namespace State

/-- Whether lanes of a vector register may be read (R170): the machine check of the first poisoned block among those
that hold one of the lanes. -/
def poisonedBlock (s : State) (v : VReg) (blocks : List Nat) : Option Trap :=
  match blocks.find? (fun b => isPoison (v.descOf b)) with
  | some b => some ⟨14, BitVec.ofNat 64 (coreInCluster s.cur * 2 ^ 8 + (v.descOf b).toNat / 256)⟩
  | none => none

/-! ### Join cells (R75, R78, R79) -/

/-- The checks of an instruction that names a join cell (R78, R75, R84). -/
def cellCheck (s : State) (a : Word) : Except Trap Nat :=
  if a.toNat % 8 != 0 then .error ⟨3, a⟩
  else if a.toNat / 2 ^ 32 == 0xFFFFFF00 then .error ⟨7, a⟩
  else s.translate (coreOf s.cur) s.slot.rid.launch a .store

/-- `jinit` (R78). -/
def initCell (s : State) (a : Word) (x : Nat) : State :=
  match s.cellCheck a with
  | .error t => s.trapWith t
  | .ok pa =>
    if s.slot.head.spec then s.waitFirm
    else if s.conflict (.glob pa) 8 false then s.stall
    else ((((s.filled a).preWrite s.cur pa 8).setCell pa (x % 2 ^ 40)).renew s.cur (s.copiesOf s.cur (.glob pa) 8)).retireSeal

/-- `arr` (R79): the arrival waits for the slot's earlier writes, not the slot. -/
def arriveAt (s : State) (a : Word) (n : Nat) : State :=
  match s.cellCheck a with
  | .error t => s.trapWith t
  | .ok pa =>
    if s.slot.head.spec then s.waitFirm else ((s.filled a).post (.arrive s.cur pa n)).retireSeal

/-! ### Spawns and messages (R83 to R86) -/

/-- The target of a spawn or message (R85): field 0 names the own cluster. `none` when it is invalid. -/
def targetCheck (s : State) (field : Nat) (x : Word) : Option Nat :=
  if field == 0 then some (s.targetOf (pkgOf s.cur))
  else
    let v := x.toNat
    let dev := v / 1024
    let pkg := v % 1024
    if 2 ^ 20 ≤ v || 767 < pkg then none
    else if dev == s.dev then (if (s.clusterAt pkg).launch == s.slot.rid.launch then some v else none)
    else if s.peers.contains dev then some v else none

/-- Where the record's head lies, when its address is right (R84): the first two checks. -/
def recordCheck (s : State) (b : Word) : Except Trap Nat :=
  if b.toNat % 64 != 0 then .error ⟨3, b⟩ else s.translate (coreOf s.cur) s.slot.rid.launch b .store

/-- A byte as the core's own stores and the home give it: valid copies are not consulted (log 20). -/
def ownByte (s : State) (pa : Nat) : Byte :=
  match s.l1At s.cache (wordOf pa) with
  | some x => if x.st == .owned && x.mask.getLsbD (pa % 4) then byteOf x (pa % 4) else s.peek pa
  | none => s.peek pa

/-- The head at a physical address as the issuing task sees it: through its commit buffer, with its block registered, when
it is speculative (R325, R326). -/
def headHere (s : State) (pa : Nat) : State × Head :=
  match (if s.slot.head.spec then s.entryOf s.cur else none) with
  | some e =>
    let (t, bs) := s.specRead e.id pa 64
    (t, Head.ofBytes bs)
  | none => (s, Head.ofBytes ((List.range 64).map (fun i => (s.settleRange pa 64).ownByte (pa + i))))

/-- The block of a record may enter the read set of a speculative task (R326). -/
def headRoom (s : State) (pa : Nat) : Bool :=
  match (if s.slot.head.spec then s.entryOf s.cur else none) with
  | some e => s.readRoom e [pa / 64]
  | none => true

/-- The record at b, with its head, once its address is right (R84) and the slot's own stores to it show (log 20). -/
def withHead (s : State) (b : Word) (f : Head → State → State) : State :=
  match s.recordCheck b with
  | .error t => s.trapWith t
  | .ok pa =>
    if s.conflict (.glob pa) 64 true then s.stall
    else if !s.headRoom pa then s.waitFirm
    else f (s.headHere pa).2 (s.headHere pa).1

/-- The further checks of R84, in their order, and the target. `ok` are the checks of the head itself. -/
def spawnCheck (s : State) (fa : Nat) (ga b : Word) (fc : Nat) (gc : Word) (ok : Bool) : Except Trap Nat :=
  if !ok then .error ⟨18, b⟩
  else match (if fc == 0 then .ok 0 else s.cellCheck gc) with
    | .error t => .error t
    | .ok _ => match s.targetCheck fa ga with
      | none => .error ⟨7, ga⟩
      | some v => .ok v

/-- The Aster entry that holds what its task sends: a speculative task's, and one that holds earlier children still (R83,
R88). -/
def holdsSent (s : State) : Option Entry :=
  match s.entryOf s.cur with
  | some e => if s.slot.head.spec || !e.held.isEmpty then some e else none
  | none => none

/-- A child or message leaves the core: Aster holds it until its issuer commits (R83), or it is on its way, and waits for the
slot's earlier writes in the network interface. -/
def sendPlacement (s : State) (p : Placement) : State :=
  match s.holdsSent with
  | some e => (s.updEntry (pkgOf s.cur) e.id (fun e => { e with held := e.held ++ [p] })).retireSeal
  | none => (s.post (.place p)).retireSeal

/-- The key of a child is below its timestamped issuer's own, with the issuer's tie (R327). -/
def childBelow (s : State) (h : Head) : Bool := s.timedAt s.cur && lt3 (Head.key3 h) (Head.key3 s.slot.head)

/-- `spawn` and `spawnt` (R83). -/
def spawnTask (s : State) (a b c : GReg) (timed : Bool) : State :=
  s.withHead (s.g b.val) (fun h s =>
    match s.spawnCheck a.val (s.g a.val) (s.g b.val) c.val (s.g c.val) (headOk h (if timed then [2] else [0, 1])) with
    | .error t => s.trapWith t
    | .ok v =>
      if timed && s.childBelow h then s.trap 7 (s.g b.val)
      else (s.filled (s.g b.val)).sendPlacement {
        sid := s.cur, launch := s.slot.rid.launch, target := v, record := s.g b.val, timed := timed, seeded := !s.timedAt s.cur
        key := if timed then Head.key3 h else (0, 0, 0), message := none, cell := c.val != 0, join := if c.val == 0 then 0 else s.g c.val })

/-- `send` and `sendv` (R86). -/
def sendMessage (s : State) (a b c : GReg) (pay : List Word) : State :=
  s.withHead (s.g b.val) (fun h s =>
    match s.spawnCheck a.val (s.g a.val) (s.g b.val) c.val (s.g c.val) (templateOk h 1) with
    | .error t => s.trapWith t
    | .ok v =>
      (s.filled (s.g b.val)).sendPlacement {
        sid := s.cur, launch := s.slot.rid.launch, target := v, record := s.g b.val, timed := false
        message := some (h, pay), cell := c.val != 0, join := if c.val == 0 then 0 else s.g c.val })

/-! ### Waiting at a team or queue (R274, R287) -/

/-- A waiting form spins; in an unsealed region it parks after 256 cycles, once the slot's counters are 0. -/
def spinOrPark (s : State) (kind : Nat) (wa : Word) (key : Nat) : State :=
  if s.slot.expired && !s.slot.region.sealed && s.slot.quiet && s.delivered s.cur then
    let r := s.slot.rid
    let t := s.contRegion s.cur 3 kind wa
    if (t.slotAt s.cur).run == .held then t else t.register { rid := r, pkg := pkgOf s.cur, kind := kind, key := key }
  else s.upd (fun t => { t with spin := some ⟨kind, wa, none⟩ })

/-- A result of a unit of the cluster: written now, or on its way (R104, R286, R337); with `acq` it acquires as `ld.acq`
does (R287). -/
def giveResult (s : State) (w : List RegWrite) (acq : Bool) : State :=
  if s.lag then
    (if acq then s.upd (fun t => { t with holds := t.holds ++ [.acqLoad] }) else s).enqueue (.result s.cur w acq)
  else
    let t := s.upd (fun t => t.applyWrites w)
    if acq then t.acquire s.cur else t

/-- A `tleave` of the slot has not reached the table: its later team operations wait (R279). -/
def leaving (s : State) : Bool := s.flight.any (fun e => match e.2 with
  | .leave t _ _ _ => t == s.cur
  | _ => false)

/-- What a team instruction of R270 needs of its task: not speculative, and a member when `member`. -/
def teamIllegal (s : State) (member : Bool) : Bool := s.slot.head.spec || (member && (s.teamOf s.cur).isNone)

/-- The wake address of a parked barrier instruction (R275). -/
def teamAddr (id m : Nat) : Word := BitVec.ofNat 64 (m * 65536 + id)

/-- `tjoin` at the team table (R271). -/
def joinTeam (s : State) (a : GReg) (id : Nat) : State :=
  let pkg := pkgOf s.cur
  let c := s.clusterAt pkg
  let full := (s.setG a.val (BitVec.allOnes 64)).retireSeal
  let add (m created : Nat) (s1 : State) : State :=
    let s2 := s1.updCluster pkg (fun c => { c with teams := c.teams.map (fun t => if t.id == id then
      { t with members := t.members ||| ((1 : BitVec 64) <<< m), lead := Store.set t.lead m 0
               recs := Store.set t.recs m s.slot.rid } else t) })
    let s3 := s2.upd (fun t => { t with head := { t.head with team := BitVec.ofNat 32 (m * 65536 + id) } })
    (s3.setG a.val (BitVec.ofNat 64 (created * 256 + m))).retireSeal
  match c.teams.find? (fun t => t.id == id) with
  | some t => match (List.range 64).find? (fun m => !t.members.getLsbD m) with
    | none => full
    | some m => add m 0 s
  | none =>
    if 64 ≤ c.teams.length then full
    else add 0 1 (s.updCluster pkg (fun c => { c with teams := c.teams ++ [{ id := id }] }))

/-- Open peer windows of a member (R216, R276). -/
def openWindows (s : State) (t : Team) : Nat :=
  (List.range 8).foldl (fun x k => x + if (s.peerHolder (pkgOf s.cur) t k).isSome then 2 ^ k else 0) 0

/-- `tinfo` (R276). -/
def teamInfo (s : State) (sel : Nat) : Word :=
  match s.teamOf s.cur with
  | none => 0
  | some (t, m) => BitVec.ofNat 64 (match sel with
    | 0 => t.phase.toNat * 2 ^ 32 + leadOf t m * 2 ^ 30 + (liveMembers t).length * 2 ^ 16 + t.id
    | 1 => t.members.toNat
    | 2 => t.faulted.toNat
    | _ => m * 2 ^ 8 + s.openWindows t)

/-! ### Work queues (R285 to R287) -/

/-- A queue instruction's checks (R285, R286). -/
def queueTrap (s : State) (q : Nat) : Option Trap :=
  let c := s.clusterAt (pkgOf s.cur)
  if s.slot.head.spec then some ⟨1, illegalTval 6 s.wordHere⟩
  else if c.launch != s.slot.rid.launch || !c.queues.getLsbD q then some ⟨7, BitVec.ofNat 64 q⟩
  else none

/-- Entries of a queue of the issuing slot's cluster. -/
def queueOf (s : State) (q : Nat) : List Word := Store.get [] (s.clusterAt (pkgOf s.cur)).fifo q

/-- Use a queue whose checks are met, once the slot's earlier `enq` to it have been applied (R285, R288). -/
def withQueue (s : State) (q : Nat) (f : List Word → State) : State :=
  match s.queueTrap q with
  | some t => s.trapWith t
  | none => if s.enqBefore s.nextMsg s.cur q then s.stall else f (s.queueOf q)

/-! ### Horizon and Aster (R338 to R340) -/

/-- The time of a held key; all ones for none. -/
def timeOf (k : Option Key) : Nat := match k with | some k => k.t | none => 2 ^ 64 - 1

/-- The result of `gvt` (R338). -/
def horizonField (c : Cluster) (sel : Nat) : Word :=
  BitVec.ofNat 64 (match sel with
    | 0 => timeOf c.ll
    | 1 => match c.ll with
      | some k => k.phase * 2 ^ 56 + k.idx
      | none => 0xFF0000FFFFFFFFFF
    | 2 => match c.ll with
      | some k => k.tie.1
      | none => 0xFFFFF
    | _ => timeOf c.hh)

/-- `abrt` on an entry (R339). -/
def abortEntry (s : State) (pkg id : Nat) : State :=
  (s.updEntry pkg id (fun e => { e with pause := true })).abortList [(pkg, id, false)] false

/-- The issuing task aborts itself (R339). -/
def abortSelf (s : State) : State :=
  if !s.slot.head.spec then s.illegal 6
  else match s.entryOf s.cur with
    | some e =>
      if s.isFirm (pkgOf s.cur) e then s.promote (pkgOf s.cur) e.id
      else (s.markSealed.countIns).abortEntry (pkgOf s.cur) e.id
    | none => s.illegal 6

/-- The uncommitted task of the launch with a record address, unless it is irrevocable or holds key L (R339). -/
def abortable (s : State) (a : Word) : Option (Nat × Entry) :=
  s.allEntries.find? (fun x =>
    x.2.rid.launch == s.slot.rid.launch && x.2.rid.addr == a && !x.2.firm &&
    (s.clusterAt x.1).ll != some (s.entryKey x.1 x.2))

/-- `abrt.rec` (R339). -/
def abortRecord (s : State) (a : GReg) (r : Word) : State :=
  if r.toNat % 64 != 0 then s.trap 3 r
  else if s.slot.rid.addr == r then s.abortSelf
  else match s.abortable r with
    | none => (s.giveResult [.g a.val 0] false).retireSeal
    | some (pkg, e) =>
      let t := s.abortList [(pkg, e.id, false)] false
      if t.slot.run == .running && t.slot.epoch == s.slot.epoch then (t.giveResult [.g a.val 1] false).retireSeal else t

/-- `astat` (R340). -/
def asterStat (s : State) (sel : Nat) : Word :=
  let pkg := pkgOf s.cur
  let c := s.clusterAt pkg
  match sel with
  | 0 => BitVec.ofNat 64 (entriesUsed c * 65536 + poolUsed c)
  | 1 => c.aster.commits
  | 2 => c.aster.conflicts
  | 3 => c.aster.others
  | 4 => c.aster.promoted
  | 5 => c.aster.waits
  | 6 => match (if s.timedAt s.cur then s.entryOf s.cur else none) with
    | some e => BitVec.ofNat 64 (e.restarts * 65536 + e.reads.length * 128 + e.buf.length)
    | none => 0
  | _ => BitVec.ofNat 64 ((c.entries.filter (fun e => e.st != .spilled)).foldl
      (fun t e => Nat.min t e.head.key.toNat) (2 ^ 64 - 1))

end State

open State

/-- `jinit` (R78). -/
def execJinit (b c : GReg) (n : BitVec 32) (s : State) : Host.Outcome State Fault Refusal :=
  .next (s.initCell (s.g b.val) ((s.g c.val).toNat + n.toNat))
/-- `arr` (R79). -/
def execArr (b : GReg) (n : BitVec 32) (s : State) : Host.Outcome State Fault Refusal :=
  .next (s.arriveAt (s.g b.val) n.toNat)
/-- `spawn` (R83). -/
def execSpawn (a b c : GReg) (s : State) : Host.Outcome State Fault Refusal := .next (s.spawnTask a b c false)
/-- `spawnt` (R83, R327). -/
def execSpawnt (a b c : GReg) (s : State) : Host.Outcome State Fault Refusal := .next (s.spawnTask a b c true)
/-- `send` (R86): one payload entry. -/
def execSend (a b c d : GReg) (s : State) : Host.Outcome State Fault Refusal :=
  .next (s.sendMessage a b c [s.g d.val])
/-- `sendv` (R86): lanes 0 to n − 1 at 64-bit width, under the rules of R170, whose machine check comes first (log 73). -/
def execSendv (a b c : GReg) (d : Sys2Proof.VReg) (n : Fin 32) (s : State) : Host.Outcome State Fault Refusal :=
  let v := s.slot.vr d.val
  .next (match s.poisonedBlock v (List.range ((n.val + 7) / 8)) with
    | some t => s.trapWith t
    | none => s.sendMessage a b c ((List.range n.val).map (fun i => BitVec.ofNat 64 (v.lane .z64 i))))
/-- `tjoin` (R271). -/
def execTjoin (a b : GReg) (s : State) : Host.Outcome State Fault Refusal :=
  let id := (s.g b.val).toNat
  .next (
    if s.leaving then s.stall
    else if s.teamIllegal false || (s.teamOf s.cur).isSome then s.illegal 6
    else if id == 0 || 65535 < id then s.trap 7 (s.g b.val)
    else s.joinTeam a id)
/-- `tleave` (R272): it waits for the slot's earlier writes in the network interface. -/
def execTleave (s : State) : Host.Outcome State Fault Refusal :=
  .next (
    if s.leaving then s.stall
    else if s.teamIllegal true then s.illegal 6
    else match s.teamOf s.cur with
      | none => s.illegal 6
      | some (t, m) => (s.post (.leave s.cur s.slot.rid t.id m)).retireSeal)
/-- `tarr` (R274): it retires when its arrival has been applied, after the slot's earlier writes; the fourth arrival ahead
waits. -/
def execTarr (s : State) : Host.Outcome State Fault Refusal :=
  .next (
    if s.leaving then s.stall
    else if s.teamIllegal true then s.illegal 6
    else if !s.released s.nextMsg s.cur then s.stall
    else match s.teamOf s.cur with
      | none => s.illegal 6
      | some (t, m) =>
        if leadOf t m == 3 then s.spinOrPark 4 (teamAddr t.id m) t.id
        else (s.updTeam (pkgOf s.cur) t.id (fun t => { t with lead := Store.set t.lead m (leadOf t m + 1) })).retireSeal)
/-- `twait` (R275). -/
def execTwait (a : GReg) (s : State) : Host.Outcome State Fault Refusal :=
  .next (
    if s.leaving then s.stall
    else if s.teamIllegal true then s.illegal 6
    else match s.teamOf s.cur with
      | none => s.illegal 6
      | some (t, m) =>
        if leadOf t m != 0 then s.spinOrPark 4 (teamAddr t.id m) t.id
        else (s.giveResult [.g a.val t.faulted] true).retire)
/-- `tinfo` (R276). -/
def execTinfo (a : GReg) (sel : Fin 4) (s : State) : Host.Outcome State Fault Refusal :=
  .next (
    if s.leaving then s.stall
    else if s.teamIllegal false then s.illegal 6 else (s.setG a.val (s.teamInfo sel.val)).retire)
/-- `enq` (R287): it waits for the slot's earlier writes in the network interface. -/
def execEnq (a : PReg) (b : GReg) (q : Fin 4) (s : State) : Host.Outcome State Fault Refusal :=
  .next (match s.queueTrap q.val with
    | some t => s.trapWith t
    | none => (s.post (.queue s.cur q.val (s.g b.val) (some a.val))).retireSeal)
/-- `deq` (R287). -/
def execDeq (a : GReg) (b : PReg) (q : Fin 4) (s : State) : Host.Outcome State Fault Refusal :=
  .next (s.withQueue q.val (fun l => match l with
    | [] => (s.giveResult [.g a.val 0, .p b.val false] false).retireSeal
    | x :: l => ((s.setQueue (pkgOf s.cur) q.val l).giveResult [.g a.val x, .p b.val true] true).retireSeal))
/-- `deqw` (R287). -/
def execDeqw (a : GReg) (q : Fin 4) (s : State) : Host.Outcome State Fault Refusal :=
  .next (s.withQueue q.val (fun l => match l with
    | [] => s.spinOrPark 5 (BitVec.ofNat 64 q.val) q.val
    | x :: l => ((s.setQueue (pkgOf s.cur) q.val l).giveResult [.g a.val x] true).retireSeal))
/-- `qinfo` (R287). -/
def execQinfo (a : GReg) (q : Fin 4) (s : State) : Host.Outcome State Fault Refusal :=
  .next (s.withQueue q.val (fun l =>
    let w := (s.waiters.filter (waitsForQueue (pkgOf s.cur) q.val)).length
    (s.giveResult [.g a.val (BitVec.ofNat 64 (w * 2 ^ 32 + 512 * 2 ^ 16 + l.length))] false).retire))
/-- `gvt` (R338): it spins until the held L has reached the bound, and never parks. -/
def execGvt (a b : GReg) (sel : Fin 4) (s : State) : Host.Outcome State Fault Refusal :=
  let c := s.clusterAt (pkgOf s.cur)
  let x := (s.g b.val).toNat
  let bound := if s.timedAt s.cur then Nat.min x s.slot.tkey.toNat else x
  .next (if timeOf c.ll < bound then s.stall else (s.giveResult [.g a.val (horizonField c sel.val)] false).retire)
/-- `abrt` (R339). -/
def execAbrt (s : State) : Host.Outcome State Fault Refusal := .next s.abortSelf
/-- `abrt.rec` (R339). -/
def execAbrtRec (a b : GReg) (s : State) : Host.Outcome State Fault Refusal := .next (s.abortRecord a (s.g b.val))
/-- `astat` (R340). -/
def execAstat (a : GReg) (sel : Fin 8) (s : State) : Host.Outcome State Fault Refusal :=
  .next (s.giveResult [.g a.val (s.asterStat sel.val)] false).retire

end Sys2Proof.Machine
end

