-- ==== Sys2Proof/Machine/Larkspur.lean ====
section
/-! DEFINITION. The Larkspur instructions (R308 to R318) and the events of a run (R301 to R303, R317). An instruction
makes its checks when it is accepted; Larkspur applies it through the cluster-engine port, in issue order (R308). -/

namespace Sys2Proof.Machine

namespace State

/-! ### The port (R102, R308) -/

/-- Larkspur of the issuing slot's cluster. -/
def lark (s : State) : Lark := (s.clusterAt (pkgOf s.cur)).lark

/-- The Aster entry of the issuing slot's task, also when the task has left the slot and its port instructions have still
to be applied (R308). -/
def portEntry (s : State) : Option Entry :=
  match s.entryOf s.cur with
  | some e => some e
  | none => (s.clusterAt (pkgOf s.cur)).entries.find? (fun e => e.rid == s.slot.rid && e.st == .suspended)

/-- The issuing task's entry and key, when it is timestamped (R64). -/
def myKey (s : State) : Option (Entry × Key) :=
  if s.timedAt s.cur then s.portEntry.map (fun e => (e, s.entryKey (pkgOf s.cur) e)) else none

/-- The phase of the issuing task, when it is timestamped. -/
def myPhase (s : State) : Option Nat := if s.timedAt s.cur then some s.slot.head.phase else none

/-- Run state "stopped" (R309). -/
def larkStopped (s : State) : Bool := s.lark.run == 0

/-- The context W of R309. -/
def mayWrite (s : State) : Bool := s.larkStopped || s.myPhase == some 0 || s.myPhase == some 1

/-- `qbase` has run on the cluster since it was granted (R309). -/
def larkBased (s : State) : Bool := s.lark.h.isSome

/-- An id as R292 reads it, when its form is right and its device is in the domain. -/
def idForm (s : State) (x : Word) : Bool :=
  let v := x.toNat
  v < 2 ^ 34 && v / 2 ^ 24 < 576 && v / 2 ^ 14 % 1024 < 768 && (v / 2 ^ 24 == s.dev || s.peers.contains (v / 2 ^ 24))

/-- An id names a variable of the issuing cluster. -/
def idLocal (s : State) (x : Word) : Bool := x.toNat / 2 ^ 14 == s.dev * 1024 + pkgOf s.cur

/-- The record of a local variable that the issuing task sees (R304): the version's owner, and the record. -/
def seenVar (s : State) (v : Nat) : Option Nat × Var :=
  match s.myKey with
  | some (e, k) => s.lark.readVersion v k (some e.id)
  | none => (none, s.lark.var v)

/-- The time at which the issuing task acts on a record (R309). -/
def actTime (s : State) (x : Var) : Nat := if s.timedAt s.cur then s.slot.head.key.toNat else x.tx.toNat

/-- A read of a local variable enters the read set of a speculative task (R304, R326). -/
def noteRead (s : State) (v : Nat) : State :=
  match s.myKey with
  | some (e, _) =>
    if e.firm then s
    else
      let r := (v, (s.seenVar v).1)
      s.updEntry (pkgOf s.cur) e.id (fun e => { e with qreads := if e.qreads.contains r then e.qreads else e.qreads ++ [r] })
  | none => s

/-- A speculative task may read one more record (R326). -/
def readSlotFree (s : State) (v : Nat) : Bool :=
  match s.myKey with
  | some (e, _) => e.firm || e.qreads.any (fun r => r.1 == v) || ((e.qreads.map (·.1)).eraseDups).length < 64
  | none => true

/-- Readers of a variable that a write at key k makes stale (R304): a version at k stands between what they read and
their keys. -/
def staleReaders (s : State) (pkg v : Nat) (id : Nat) (k : Key) : List (Nat × Nat × Bool) :=
  let older (o : Option Nat) : Bool := match o with
    | none => true
    | some w => w == id || match s.entryAt pkg w with
      | some x => keyLt (s.entryKey pkg x) k
      | none => true
  ((s.clusterAt pkg).entries.filter (fun x =>
    !x.firm && x.id != id && keyLt k (s.entryKey pkg x) && x.qreads.any (fun q => q.1 == v && older q.2))).map
    (fun x => (pkg, x.id, false))

/-- Write a local variable's record (R304): a version of a timestamped task, which its commit makes the committed record, else
the committed record; the aborts and withdrawals that follow. -/
def writeVar (s : State) (v : Nat) (x : Var) : State :=
  let pkg := pkgOf s.cur
  match s.myKey with
  | none =>
    let t := s.updLark pkg (fun l => { l with vars := Store.set l.vars v x })
    t.abortList (t.undue pkg) true
  | some (e, k) =>
    let t := s.updLark pkg (fun l =>
      { l with versions := Lark.insertVersion ⟨v, k, e.id, x⟩ (l.versions.filter (fun y => !(y.var == v && y.owner == e.id))) })
    let u := t.abortList (t.staleReaders pkg v e.id k) true
    u.abortList (u.undue pkg) true

/-- A free version for a write of the issuing task (R304): 64 are kept for the lowest uncommitted key. -/
def versionFree (s : State) (v : Nat) : Bool :=
  match s.myKey with
  | none => true
  | some (e, k) =>
    let l := s.lark
    e.firm || l.versions.any (fun y => y.var == v && y.owner == e.id) ||
    l.versions.length < (if (s.clusterAt (pkgOf s.cur)).ll == some k then 2048 else 2048 - 64)

/-- An instruction goes on when its task is still in the slot. -/
def goOn (s t : State) (seals : Bool) : State :=
  if t.slot.run == .running && t.slot.epoch == s.slot.epoch then (if seals then t.retireSeal else t.retire) else t

/-! ### Checks -/

/-- The checks of an id that names a local variable (R292, R309). -/
def localId (s : State) (x : Word) : Option Nat :=
  let v := x.toNat % 2 ^ 14
  if s.idForm x && s.idLocal x && (s.lark.var v).defined then some v else none

/-- A poisoned record raises the machine check at its use (R397, R398). -/
def recordTrap (s : State) (x : Var) : Option Trap :=
  if x.poison then some ⟨14, BitVec.ofNat 64 (2 ^ 24 + pkgOf s.cur % 96 * 2 ^ 8 + 0x0B)⟩ else none

/-- The template of handler slot fn passes R300. -/
def handlerOk (s : State) (fn : Nat) : Bool :=
  match s.headAt (pkgOf s.cur) s.slot.rid.launch (s.lark.table + BitVec.ofNat 64 (64 * fn)) with
  | some h => templateOk h 2
  | none => false

/-- Fields of a record that a value sets (R314): the value is checked as `qdef` checks it. -/
def fieldOk (s : State) (sel : Nat) (x : Word) : Bool :=
  let v := x.toNat
  match sel with
  | 6 => dqOk (v % 2 ^ 32)
  | 7 => 1 ≤ v && v < 2 ^ 32
  | 8 => v < 65536 && s.handlerOk v
  | 9 => v ≤ 2
  | 10 => v < 2 ^ 32
  | _ => true

/-- Set a field (R314). -/
def setField (x : Var) (sel : Nat) (w : Word) : Var :=
  let v := w.toNat
  match sel with
  | 0 => { x with q := w }
  | 1 => { x with x := w }
  | 2 => { x with d1 := w }
  | 3 => { x with d2 := w }
  | 6 => { x with dq := BitVec.ofNat 32 v }
  | 7 => { x with dtmin := BitVec.ofNat 32 v }
  | 8 => { x with fn := BitVec.ofNat 16 v }
  | 9 => { x with mf := BitVec.ofNat 16 (putBits x.mf.toNat 3 0 v) }
  | 10 => { x with dep := BitVec.ofNat 32 v }
  | _ => x

/-- What an instruction that writes a variable checks (R309, R306, R304): a trap, a wait (`none`), or the variable. -/
def writeCheck (s : State) (id : Word) (storm : Bool) : Except Trap (Option Nat) :=
  match s.localId id with
  | none => .error ⟨7, id⟩
  | some v =>
    let x := (s.seenVar v).2
    if s.timedAt s.cur && s.slot.head.key.toNat < x.tx.toNat then .error ⟨7, id⟩
    else match s.recordTrap x with
      | some t => .error t
      | none =>
        if x.isHeld && !storm then .error ⟨12, BitVec.ofNat 64 (255 * 2 ^ 40 + id.toNat % 2 ^ 40)⟩
        else if s.versionFree v && s.readSlotFree v then .ok (some v) else .ok none

/-- Take a trap of a Larkspur instruction; storm traps are counted (R318). -/
def larkTrap (s : State) (t : Trap) : State :=
  (if t.cause == 12 then s.updLark (pkgOf s.cur) (fun l => l.bump 6) else s).trapWith t

/-! ### What Larkspur does (R314 to R318) -/

/-- A change of a variable at the task's time: advance, change, NEXT (R314, R316). -/
def changeVar (s : State) (v : Nat) (f : Var → Var) : State :=
  let x := (s.seenVar v).2
  let h := s.lark.h.getD 0
  (s.noteRead v).writeVar v (Var.next h (f (x.advance h (s.actTime x))))

/-- `qcross` on a variable with its row (R315, R302, R303, R306). -/
def crossVar (s : State) (v : Nat) (row : List Nat) : State :=
  let pkg := pkgOf s.cur
  let h := s.lark.h.getD 0
  let x := (s.seenVar v).2
  let t := s.actTime x
  let y := x.cross h t
  let me := varId s.dev pkg v
  let all := row ++ (if y.isHeld && !x.isHeld && !row.contains me then [me] else [])
  let s1 := (s.noteRead v).writeVar v y
  match s1.myKey with
  | none => s1
  | some (e, _) => all.foldl (fun u id =>
      if id / 2 ^ 14 == s.dev * 1024 + pkg then u.requestEval pkg (id % 2 ^ 14) t (some e.id)
      else u.updEntry pkg e.id (fun e => { e with events := e.events ++ [(id, t)] })) s1

/-- A field of a record as `qget` gives it (R313). -/
def getField (h : Word) (x : Var) (t sel : Nat) : Word :=
  match sel with
  | 0 => x.q
  | 1 => x.x
  | 2 => x.d1
  | 3 => x.d2
  | 4 => x.tx
  | 5 => x.tn
  | 6 => x.dq.setWidth 64
  | 7 => x.dtmin.setWidth 64
  | 8 => x.fn.setWidth 64
  | 9 => x.mf.setWidth 64
  | 10 => x.dep.setWidth 64
  | 11 => x.xAt h t
  | _ => x.qAt h t

/-- A value as wide as a field of a record (R313). -/
def fieldOf (x : Word) (sel : Nat) : Word :=
  match sel with
  | 6 | 7 | 10 => (x.truncate 32).setWidth 64
  | 8 | 9 => (x.truncate 16).setWidth 64
  | _ => x

/-- Earliest crossing in the tree: time and variable (R301, R318). -/
def treeMin (s : State) : Option (Nat × Nat) :=
  let pkg := pkgOf s.cur
  let cands := s.lark.vars.flatMap (fun v =>
    if v.2.defined then ((s.dueOf pkg v.1).filter (fun d => !d.2.2)).map (fun d => (d.2.1, v.1)) else [])
  cands.foldl (fun (b : Option (Nat × Nat)) x => match b with
    | none => some x
    | some y => if x.1 < y.1 || (x.1 == y.1 && x.2 < y.2) then some x else b) none

/-- Released tasks that are uncommitted. -/
def larkTasks (c : Cluster) : Nat := (c.entries.filter (fun e => e.ev != .other)).length

/-- The run ends when nothing is left to release or to commit (R317): stopped, and the arrival at the join cell. -/
def endRun (s : State) (pkg : Nat) : State :=
  if s.runOver pkg then (s.updLark pkg (fun l => { l with run := 0 })).arriveRun pkg else s

/-- `qstop` (R317, R300). -/
def stopRun (s : State) : State :=
  let pkg := pkgOf s.cur
  match s.lark.run with
  | 1 => (s.updLark pkg (fun l => { l with run := 2 })).endRun pkg
  | 3 => if (s.clusterAt pkg).entries.all (fun e => e.ev == .other) then s.updLark pkg (fun l => { l with run := 0 })
    else s.updLark pkg (fun l => { l with run := 2 })
  | _ => s

/-- A `qstat` value (R318). -/
def larkStat (s : State) (sel : Nat) : Word :=
  let l := s.lark
  match sel with
  | 0 => BitVec.ofNat 64 (l.halt * 256 + l.run)
  | 7 => match s.treeMin with
    | some (_, v) => BitVec.ofNat 64 (varId s.dev (pkgOf s.cur) v)
    | none => BitVec.allOnes 64
  | n => Store.get 0 l.stat n

/-- Larkspur applies an accepted instruction of the issuing slot; `x.regs` holds the dependants of a `qcross`. -/
def runLark (s : State) (x : Accepted) : State :=
  let pkg := pkgOf s.cur
  let v := x.b.toNat % 2 ^ 14
  match x.i with
  | .qbase _ _ _ => s.updLark pkg (fun l => { l with h := some x.b, table := x.c, tmpl := x.d, launch := s.slot.rid.launch })
  | .qdeps _ _ _ => s.updLark pkg (fun l => { l with deps := some (x.b, x.c, x.d.toNat % 2 ^ 32, x.d.toNat / 2 ^ 32) })
  | .qget sel a _ =>
    if !s.idLocal x.b then
      if x.b.toNat / 2 ^ 24 == s.dev then
        let l := (s.clusterAt (x.b.toNat / 2 ^ 14 % 1024)).lark
        s.setG a.val (getField (l.h.getD 0) (l.var v) (s.actTime (l.var v)) sel.val)
      else s.setG a.val (fieldOf (Config.remoteVariable s.nonce) sel.val)
    else
      let y := (s.seenVar v).2
      (s.noteRead v).setG a.val (getField (s.lark.h.getD 0) y (s.actTime y) sel.val)
  | .qset sel _ _ => s.changeVar v (fun y => setField y sel.val x.c)
  | .qslope _ _ d => s.changeVar v (fun y => { y with d1 := x.c, d2 := if d.val == 0 then y.d2 else x.d })
  | .qstorm sel _ _ =>
    let f : Nat := match sel.val with | 1 => 6 | 2 => 9 | 3 => 7 | _ => 4
    s.changeVar v (fun y => (setField y f x.c).setFlags 0 false y.nan)
  | .qcross _ => s.crossVar v (x.regs.map (·.toNat))
  | .qnext a => s.setG a.val (match s.treeMin with | some (t, _) => BitVec.ofNat 64 t | none => BitVec.allOnes 64)
  | .qstop a => (s.setG a.val (BitVec.ofNat 64 (if s.lark.run == 0 then 0 else larkTasks (s.clusterAt pkg)))).stopRun
  | .qstat a sel => s.setG a.val (s.larkStat sel.val)
  | _ => s

/-! ### Instructions -/

/-- Alignment of a list of values with their units. -/
def alignTrap (l : List (Word × Nat)) : Option Trap := (l.find? (fun x => x.1.toNat % x.2 != 0)).map (fun x => ⟨3, x.1⟩)

/-- Larkspur or Phlox has not yet applied an earlier instruction of the slot (R308, R350): a check that depends on what it
leaves waits (log 68). -/
def portBusy (s : State) : Bool := !s.slot.pq.isEmpty || s.snapping s.cur

/-- Context "stopped": a speculative task waits until it is irrevocable (R309, R327). -/
def whenStopped (s : State) (based : Bool) (f : State → State) : State :=
  if s.portBusy then s.stall
  else if s.slot.head.spec then s.waitFirm
  else if !s.larkStopped || (based && !s.larkBased) then s.illegal 6
  else f s

/-- A run of local indices (R309): n is positive and the last index below 16,384. -/
def indexTrap (first n : Nat) : Bool := n == 0 || 16384 < first + n

/-- The id of the first variable of a range that a `qsnap` reads and whose committed record is later than the task's time
(R307, R309). -/
def snapLate (s : State) (first n : Nat) : Option Word :=
  ((List.range n).find? (fun i =>
    let x := s.lark.var (first + i)
    x.defined && s.slot.head.key.toNat < x.tx.toNat)).map
    (fun i => BitVec.ofNat 64 (varId s.dev (pkgOf s.cur) (first + i)))

/-- What the n writes of a `qsnap` count on the store counters, by the classes of their homes, as far as these hold it; or
the trap of the first address that fails (R101, R307). -/
def snapCounts (s : State) (va : Word) (n : Nat) : Except Trap (List (Ctr × Nat)) :=
  match (List.range n).mapM (fun i => let a := va + BitVec.ofNat 64 (8 * i)
                                      (s.locate s.cur a 8 .store).map (fun l => s.homeCtr s.cur a l)) with
  | .error t => .error t
  | .ok l => .ok (l.eraseDups.map (fun c => (c, Nat.min (l.filter (· == c)).length (63 - (s.slot.ctr c).toNat))))

/-- Raise counters. -/
def countUp (t : Slot) (counts : List (Ctr × Nat)) : Slot :=
  counts.foldl (fun t c => t.updCtr c.1 (· + BitVec.ofNat 6 c.2)) t

/-- The records of `qdef` at the issuing slot's core loads (R312), or the first trap. -/
def readRecords (s : State) (base : Word) (n : Nat) : Except Trap (List Var) :=
  (List.range n).mapM (fun i =>
    let va := base + BitVec.ofNat 64 (64 * i)
    match s.locate s.cur va 64 .load with
    | .error t => .error t
    | .ok l =>
      let bs := match l with
        | .glob pa => if s.isLocal pa then (s.settleRange pa 64).l1Bytes s.cache pa 64 else s.peekBytes pa 64
        | .scr _ _ => s.readLocs l 64
      let v := Var.ofBytes bs
      if isPoison (s.descAt l) then .error ⟨14, s.poisonTval s.cur l⟩
      else if v.method ≤ 2 && dqOk v.dq.toNat && v.dtmin != 0 && s.handlerOk v.fn.toNat then .ok v else .error ⟨7, va⟩)

/-- A record that `qdef` reads is still to be reached by an earlier access of the slot (R312, R222). -/
def recordsWait (s : State) (base : Word) (n : Nat) : Bool :=
  (List.range n).any (fun i => match s.locate s.cur (base + BitVec.ofNat 64 (64 * i)) 64 .load with
    | .ok l => s.conflict l 64 true || s.mustWait l 64
    | .error _ => false)

/-- The dependants of a row (R297, R298): a trap, or the ids in order. -/
def readRow (s : State) (dep : Nat) (id : Word) : Except Trap (List Nat) :=
  let bad (reason : Nat) : Trap := ⟨11, BitVec.ofNat 64 (reason * 2 ^ 60 + id.toNat % 2 ^ 40)⟩
  match s.lark.deps with
  | none => .error (bad 1)
  | some (p, e, rows, count) =>
    let read (a : Word) (n : Nat) : Except Trap Nat := match s.translate (coreOf s.cur) s.slot.rid.launch a .load with
      | .ok pa => .ok (leNat ((s.settleRange pa n).peekBytes pa n))
      | .error t => .error t
    if rows ≤ dep then .error (bad 1)
    else match read (p + BitVec.ofNat 64 (4 * dep)) 4, read (p + BitVec.ofNat 64 (4 * dep + 4)) 4 with
      | .error t, _ => .error t
      | _, .error t => .error t
      | .ok lo, .ok hi =>
        if hi < lo then .error (bad 2)
        else if count < hi then .error (bad 3)
        else (List.range (hi - lo)).mapM (fun i => match read (e + BitVec.ofNat 64 (8 * (lo + i))) 8 with
          | .error t => .error t
          | .ok x => if s.idForm (BitVec.ofNat 64 x) then .ok x else .error (bad 4))

/-- Accept a port instruction (R308): applied at once, or left to ENGINE_INSTRUCTION_COMPLETE (log 3), as when earlier ones wait. -/
def acceptLark (s : State) (x : Accepted) (seals : Bool) : State :=
  if s.lag || s.portBusy then s.goOn (s.upd (fun t => { t with pq := t.pq ++ [{ x with pc := t.pc }] })) seals
  else
    let t := s.runLark x
    s.goOn (t.settleFrom s.nextMsg) seals

/-- An instruction that writes a variable (R309, R314). -/
def writingInstr (s : State) (id : Word) (storm seals : Bool) (x : Accepted) (more : Nat → State → Except Trap Accepted) : State :=
  if s.portBusy then s.stall
  else if !s.mayWrite || !s.larkBased then s.illegal 6
  else match s.writeCheck id storm with
    | .error t => s.larkTrap t
    | .ok none => s.waitFirm
    | .ok (some v) => match more v s with
      | .error t => s.larkTrap t
      | .ok y => s.acceptLark { y with i := x.i } seals

end State

open State

/-- `qbase` (R310). -/
def execQbase (b c d : GReg) (s : State) : Host.Outcome State Fault Refusal :=
  .next (s.whenStopped false (fun s =>
    if !tickOk (s.g b.val).toNat then s.trap 7 (s.g b.val)
    else match alignTrap [(s.g c.val, 64), (s.g d.val, 64)] with
      | some t => s.trapWith t
      | none => match s.translate (coreOf s.cur) s.slot.rid.launch (s.g d.val) .load with
        | .error t => s.trapWith t
        | .ok _ => match s.headAt (pkgOf s.cur) s.slot.rid.launch (s.g d.val) with
          | some h =>
            if templateOk h 2 then
              s.acceptLark { i := .qbase b c d, b := s.g b.val, c := s.g c.val, d := s.g d.val } false
            else s.trap 18 (s.g d.val)
          | none => s.trap 18 (s.g d.val)))
/-- `qdef` (R312): applied in the step that accepts it, with the loads it makes. -/
def execQdef (a b c : GReg) (n : BitVec 15) (s : State) : Host.Outcome State Fault Refusal :=
  .next (s.whenStopped true (fun s =>
    let first := (s.g c.val).toNat
    if (s.g b.val).toNat % 64 != 0 then s.trap 3 (s.g b.val)
    else if indexTrap first n.toNat then s.trap 7 (s.g c.val)
    else if s.recordsWait (s.g b.val) n.toNat then s.stall
    else match s.readRecords (s.g b.val) n.toNat with
      | .error t => s.trapWith t
      | .ok l =>
        let h := s.lark.h.getD 0
        let new := l.map (fun v => Var.next h { v with mf := BitVec.ofNat 16 (v.method + 16) })
        let s1 := new.zipIdx.foldl (fun t x => t.updLark (pkgOf s.cur) (fun l =>
          { l with vars := Store.set l.vars (first + x.2) x.1 })) (s.filled (s.g b.val))
        (s1.setG a.val (BitVec.ofNat 64 n.toNat)).retire))
/-- `qget` (R313, R304). -/
def execQget (sel : Fin 13) (a b : GReg) (s : State) : Host.Outcome State Fault Refusal :=
  let id := s.g b.val
  let v := id.toNat % 2 ^ 14
  .next (
    if s.portBusy then s.stall
    else if 11 ≤ sel.val && !s.larkBased then s.illegal 6
    else if !s.idForm id then s.trap 7 id
    else if id.toNat / 2 ^ 24 == s.dev && !((s.clusterAt (id.toNat / 2 ^ 14 % 1024)).lark.var v).defined then s.trap 7 id
    else
      let x := if s.idLocal id then (s.seenVar v).2 else (s.clusterAt (id.toNat / 2 ^ 14 % 1024)).lark.var v
      if !s.idLocal id && (match s.myKey with
          | some (e, k) => !e.firm && (s.clusterAt (pkgOf s.cur)).ll != some k
          | none => false) then s.stall
      else if 11 ≤ sel.val && s.timedAt s.cur && s.slot.head.key.toNat < x.tx.toNat then s.trap 7 id
      else match s.recordTrap x with
        | some t => s.trapWith t
        | none =>
          if s.idLocal id && !s.readSlotFree v then s.waitFirm
          else s.acceptLark { i := .qget sel a b, b := id } false)
/-- `qset` (R314). -/
def execQset (sel : Fin 13) (b c : GReg) (s : State) : Host.Outcome State Fault Refusal :=
  .next (
    if [4, 5, 11, 12].contains sel.val then s.illegal 6
    else s.writingInstr (s.g b.val) false true { i := .qset sel b c } (fun _ s =>
      if s.fieldOk sel.val (s.g c.val) then .ok { i := .nop, b := s.g b.val, c := s.g c.val } else .error ⟨7, s.g c.val⟩))
/-- `qslope` (R314). -/
def execQslope (b c d : GReg) (s : State) : Host.Outcome State Fault Refusal :=
  .next (s.writingInstr (s.g b.val) false false { i := .qslope b c d } (fun _ s =>
    .ok { i := .nop, b := s.g b.val, c := s.g c.val, d := s.g d.val }))
/-- `qcross` (R315, R298). -/
def execQcross (b : GReg) (s : State) : Host.Outcome State Fault Refusal :=
  .next (
    if s.portBusy then s.stall
    else if s.myPhase != some 0 || !s.larkBased then s.illegal 6
    else s.writingInstr (s.g b.val) false true { i := .qcross b } (fun v s =>
      match s.readRow (s.seenVar v).2.dep.toNat (s.g b.val) with
      | .error t => .error t
      | .ok row => .ok { i := .nop, b := s.g b.val, regs := row.map (BitVec.ofNat 4096) }))
/-- `qdeps` (R311). -/
def execQdeps (b c d : GReg) (s : State) : Host.Outcome State Fault Refusal :=
  .next (s.whenStopped false (fun s => match alignTrap [(s.g b.val, 4), (s.g c.val, 8)] with
    | some t => s.trapWith t
    | none => s.acceptLark { i := .qdeps b c d, b := s.g b.val, c := s.g c.val, d := s.g d.val } false))
/-- `qnext` (R318). -/
def execQnext (a : GReg) (s : State) : Host.Outcome State Fault Refusal := .next (s.acceptLark { i := .qnext a } false)
/-- `qrun` (R317): it releases; the join cell is incremented first (log 20). -/
def execQrun (b c d : GReg) (s : State) : Host.Outcome State Fault Refusal :=
  .next (s.whenStopped true (fun s =>
    if s.lark.deps.isNone then s.illegal 6
    else
      let pkg := pkgOf s.cur
      let start (s : State) : State := (s.updLark pkg (fun l =>
        { l with run := 1, halt := 0, end_ := s.g b.val, window := s.g c.val, stat := [], launch := s.slot.rid.launch
                 join := if d.val == 0 then none else some (s.g d.val), arrived := false })).retireSeal
      match (if d.val == 0 then .ok none else (s.cellCheck (s.g d.val)).map some) with
      | .error t => s.trapWith t
      | .ok cell =>
        if !s.released s.nextMsg s.cur then s.stall
        else match cell with
          | some pa => start ((s.filled (s.g d.val)).incCell pa)
          | none => start s))
/-- `qstop` (R317). -/
def execQstop (a : GReg) (s : State) : Host.Outcome State Fault Refusal :=
  .next (if s.slot.head.spec then s.illegal 6 else s.acceptLark { i := .qstop a } true)
/-- `qsnap` (R307): its writes are counted as stores until they are performed; a record later than the task's time raises
the permission trap (R309). -/
def execQsnap (b c : GReg) (n : BitVec 15) (s : State) : Host.Outcome State Fault Refusal :=
  .next (
    let first := (s.g c.val).toNat
    let va := s.g b.val
    if s.portBusy then s.stall
    else if s.myPhase != some 2 || !s.larkBased then s.illegal 6
    else if va.toNat % 8 != 0 then s.trap 3 va
    else if indexTrap first n.toNat then s.trap 7 (s.g c.val)
    else match s.snapLate first n.toNat with
      | some id => s.trap 7 id
      | none => match (List.range n.toNat).findSome? (fun i => s.recordTrap (s.lark.var (first + i))) with
        | some t => s.trapWith t
        | none => match s.snapCounts va n.toNat with
          | .error t => s.trapWith t
          | .ok counts =>
            if counts.any (fun x => s.slot.full x.1) then s.stall
            else
              let s1 := (s.filled va).upd (fun t => countUp t counts)
              (s1.post (.snap s1.cur s.pc.toNat first n.toNat va counts)).retire)
/-- `qstat` (R318). -/
def execQstat (a : GReg) (sel : Fin 8) (s : State) : Host.Outcome State Fault Refusal :=
  .next (s.acceptLark { i := .qstat a sel } false)
/-- `qstorm` (R316). -/
def execQstorm (sel : Fin 4) (b c : GReg) (s : State) : Host.Outcome State Fault Refusal :=
  let f : Nat := match sel.val with | 1 => 6 | 2 => 9 | 3 => 7 | _ => 4
  .next (s.writingInstr (s.g b.val) true true { i := .qstorm sel b c } (fun _ s =>
    if s.fieldOk f (s.g c.val) then .ok { i := .nop, b := s.g b.val, c := s.g c.val } else .error ⟨7, s.g c.val⟩))

/-! ### Events of a run -/

/-- LARKSPUR_RUN_END: the run of a cluster ends when nothing is left (R317). -/
def execLarkspurRunEnd (pkg : Nat) (s : State) : Host.Outcome State Fault Refusal := .next (s.endRun pkg)

/-- EVENT_MESSAGE_ARRIVAL: an event message reaches its Larkspur (R303). -/
def execEventMessageArrival (k : Nat) (s : State) : Host.Outcome State Fault Refusal :=
  .next (match s.msg k with
    | some (.event _ v t) => s.stepEvent k v t
    | _ => s)

end Sys2Proof.Machine
end

