-- ==== Sys2Proof/Machine/Phlox.lean ====
section
/-! DEFINITION. The Phlox array and its instructions (R344 to R367). An instruction makes its checks at acceptance; Phlox
applies it through the cluster-engine port, in issue order (R350). -/

namespace Sys2Proof.Machine

/-- The class of a used column (R349); a UNIT column forces a row to a value. -/
inductive ColClass where
  | sat | conflict | open_
  | unit (row : Nat) (val : Bool)
  deriving DecidableEq, Repr

/-- The cell of row n: 1 positive, 2 negative; 0b11 counts as absent (R344). -/
def PCol.cell (c : PCol) (n : Nat) : Nat := if c.cells.toNat / 4 ^ n % 4 == 3 then 0 else c.cells.toNat / 4 ^ n % 4

/-- The rows of the column's literals. -/
def PCol.lits (c : PCol) : List Nat := (List.range 512).filter (fun n => c.cell n != 0)

/-- The image that a column reads back as: 0b11 cells as 0b00 (R348, R360). -/
def PCol.image (c : PCol) : Nat := (List.range 512).foldl (fun x n => x + c.cell n * 4 ^ n) 0

namespace Phlox

/-- Value of a row; `none` for U (R345). -/
def value (x : Phlox) (n : Nat) : Option Bool := (Store.find? x.rows n).map (·.val)

/-- Class of a used column (R349). -/
def classOf (x : Phlox) (c : PCol) : ColClass :=
  if c.lits.any (fun n => x.value n == some (c.cell n == 1)) then .sat
  else match c.lits.filter (fun n => (x.value n).isNone) with
    | [] => .conflict
    | [n] => .unit n (c.cell n == 1)
    | _ => .open_

/-- Lowest-index used column of class CONFLICT. -/
def conflictCol (x : Phlox) : Option Nat := (List.find? (fun (e : Nat × PCol) => x.classOf e.2 == .conflict) x.cols).map (·.1)

/-- The columns of class UNIT, ascending: column, row, value. -/
def units (x : Phlox) : List (Nat × Nat × Bool) :=
  x.cols.filterMap (fun e => match x.classOf e.2 with
    | .unit n v => some (e.1, n, v)
    | _ => none)

/-- Assign a row that is U at the current level, and push it (R347). -/
def assign (x : Phlox) (n : Nat) (v : Bool) (reason : Option Nat) : Phlox :=
  { x with
    rows := Store.set x.rows n { val := v, level := x.level, reason := reason.getD 0, nr := reason.isNone, tpos := x.trail.length }
    trail := x.trail ++ [n] }

/-- Add to a counter of `pstat` (R364). -/
def count (x : Phlox) (sel n : Nat) : Phlox :=
  { x with stat := Store.set x.stat sel (Store.get 0 x.stat sel + BitVec.ofNat 64 n) }

/-- Record a conflict (R353, R355). -/
def record (x : Phlox) (c : Nat) : Phlox :=
  let lits := (Store.get {} x.cols c).lits
  let at_ := (lits.filter (fun n => (Store.find? x.rows n).map (·.level) == some x.level)).length
  ({ x with conf := some (c, at_, x.level) }).count 3 1

/-- The assignments of one wave, in ascending row order, each by the lowest-index column that forces its row (R353). -/
def forced (u : List (Nat × Nat × Bool)) : List (Nat × Nat × Bool) :=
  (List.range 512).filterMap (fun n => u.find? (fun e => e.2.1 == n))

/-- One wave's assignments. -/
def wave (x : Phlox) (f : List (Nat × Nat × Bool)) : Phlox := f.foldl (fun y e => y.assign e.2.1 e.2.2 (some e.1)) x

/-- The result of `pprop` (R354). -/
def propWord (status waves forced column : Nat) : Word :=
  BitVec.ofNat 64 (status * 2 ^ 62 + waves * 2 ^ 32 + forced * 2 ^ 16 + column)

/-- The waves of `pprop` (R353): `w` waves and `n` assignments so far. A wave assigns a row at least, so 513 rounds are
enough. -/
def waves : Nat → Phlox → Nat → Nat → Phlox × Word
  | 0, x, w, n => (x, propWord 0 w n 0)
  | k + 1, x, w, n =>
    match x.units with
    | [] => (x, propWord (if x.cols.all (fun e => x.classOf e.2 == .sat) then 2 else 0) w n 0)
    | u =>
      let f := forced u
      let y := ((x.wave f).count 1 1).count 2 f.length
      match y.conflictCol with
      | some c => (y.record c, propWord 1 (w + 1) (n + f.length) c)
      | none => waves k y (w + 1) (n + f.length)

/-- `pprop` (R353). -/
def propagate (x : Phlox) : Phlox × Word :=
  match x.conflictCol with
  | some c => (x.record c, propWord 1 0 0 c)
  | none => waves 513 x 0 0

/-- A column is the reason of an assigned row. -/
def isReason (x : Phlox) (c : Nat) : Bool := x.rows.any (fun e => !e.2.nr && e.2.reason == c)

/-- Lowest-index free column; 4096 when there is none. -/
def freeCol (x : Phlox) : Nat := ((List.range 4096).find? (fun k => (Store.find? x.cols k).isNone)).getD 4096

/-- `pcol` and `pcol.at` (R359): the result, all ones when refused. -/
def writeCol (x : Phlox) (img : Nat) (at_ : Option Nat) : Phlox × Word :=
  let k := at_.getD x.freeCol
  if k == 4096 || (at_.isSome && x.isReason k) then (x, BitVec.allOnes 64)
  else
    let bad := (List.range 512).any (fun n => img / 4 ^ n % 4 == 3)
    ({ x with cols := Store.set x.cols k { cells := BitVec.ofNat 1024 img, fmt := bad }, fmt := x.fmt || bad }, BitVec.ofNat 64 k)

/-- `pcolr.fr` (R360). -/
def freeColumn (x : Phlox) (k : Nat) : Phlox × Word :=
  if (Store.find? x.cols k).isNone then (x, 1)
  else if x.isReason k then (x, 2)
  else ({ x with cols := Store.erase x.cols k }, 0)

/-- `pdec` on a literal (R361). -/
def decide_ (x : Phlox) (n : Nat) (v : Bool) : Phlox × Word :=
  if (x.value n).isSome then (x, BitVec.allOnes 64)
  else
    let y := ({ x with level := x.level + 1 }).assign n v none
    (y.count 4 1, BitVec.ofNat 64 y.level)

/-- `pset` on a literal (R361). -/
def state_ (x : Phlox) (n : Nat) (v : Bool) : Phlox × Word :=
  match x.value n with
  | some w => (x, if w == v then 1 else 2)
  | none => (x.assign n v none, 0)

/-- `pbt` to level b (R362); the level never rises (R347). -/
def backjump (x : Phlox) (b : Nat) : Phlox × Word :=
  let above (n : Nat) : Bool := b < ((Store.find? x.rows n).map (·.level)).getD 0
  let y := { x with
    rows := x.rows.filter (fun e => !above e.1), trail := x.trail.filter (fun n => !above n), level := Nat.min b x.level, conf := none }
  (if b < x.level then y.count 5 1 else y, BitVec.ofNat 64 (x.trail.filter above).length)

/-- The word of a row (R345). -/
def rowWord (x : Phlox) (n : Nat) : Word :=
  match Store.find? x.rows n with
  | none => BitVec.ofNat 64 (n * 2 ^ 34)
  | some r => BitVec.ofNat 64 (n * 2 ^ 34 + (if r.nr then 2 ^ 33 else 0) + r.tpos * 2 ^ 24 + r.reason * 2 ^ 12 +
      r.level * 2 ^ 2 + (if r.val then 1 else 2))

/-- The conflict record's word (R355). -/
def confWord (x : Phlox) : Word :=
  match x.conf with
  | none => 0
  | some (c, n, l) => BitVec.ofNat 64 (2 ^ 63 + n * 2 ^ 32 + l * 2 ^ 12 + c)

/-- `pstat` (R364). -/
def statWord (x : Phlox) (sel : Nat) : Word :=
  match sel with
  | 0 => BitVec.ofNat 64 (x.freeCol * 2 ^ 32 + (if x.fmt then 2 ^ 16 else 0) + x.cols.length)
  | 6 => BitVec.ofNat 64 (((List.find? (fun (e : Nat × PCol) => e.2.fmt) x.cols).map (·.1)).getD 4096)
  | n => Store.get 0 x.stat n

end Phlox

/-- A literal's row and the value that it names (R346). -/
def litOf (x : Word) : Nat × Bool := (x.toNat % 512, x.toNat / 512 % 2 == 0)

/-- `tval` of the Phlox format trap (R357). -/
def phloxTval (reason : Nat) (x : Word) : Word := BitVec.ofNat 64 (reason * 2 ^ 60 + x.toNat % 2 ^ 32)

namespace State

/-- The Phlox array of the issuing slot's cluster. -/
def phlox (s : State) : Phlox := (s.clusterAt (pkgOf s.cur)).phlox

/-- Replace it, and write a result. -/
def phloxG (s : State) (a : GReg) (r : Phlox × Word) : State :=
  (s.updCluster (pkgOf s.cur) (fun c => { c with phlox := r.1 })).setG a.val r.2

/-- Phlox applies an accepted instruction of the issuing slot: `x.b` and `x.c` hold G[B] and G[C], `x.regs` the image of
a `pcol`, `x.dst` the destination of a `pcolr.rd`. -/
def runPhlox (s : State) (x : Accepted) : State :=
  let ph := s.phlox
  let img := (x.regs.headD 0).toNat
  match x.i with
  | .pclr => s.updCluster (pkgOf s.cur) (fun c => { c with phlox := {} })
  | .pcol a _ => s.phloxG a (ph.writeCol img none)
  | .pcolAt a _ _ => s.phloxG a (ph.writeCol img (some x.c.toNat))
  | .pcolrRd _ _ => s.upd (fun t => t.setVphys (x.dst.headD 0)
      { lanes := BitVec.ofNat 4096 (Store.get {} ph.cols x.b.toNat).image, desc := 0 })
  | .pcolrFr a _ => s.phloxG a (ph.freeColumn x.b.toNat)
  | .pdec a _ => s.phloxG a (ph.decide_ (litOf x.b).1 (litOf x.b).2)
  | .pprop a => s.phloxG a ph.propagate
  | .pbt a _ => s.phloxG a (ph.backjump x.b.toNat)
  | .prow a _ => s.phloxG a (ph, ph.rowWord x.b.toNat)
  | .ptrl a _ => s.phloxG a (ph, match ph.trail[x.b.toNat]? with | some n => ph.rowWord n | none => 0)
  | .pconf a => s.phloxG a (ph, ph.confWord)
  | .plvl a => s.phloxG a (ph, BitVec.ofNat 64 (ph.trail.length * 2 ^ 16 + ph.level))
  | .pset a _ => s.phloxG a (ph.state_ (litOf x.b).1 (litOf x.b).2)
  | .pstat a sel => s.phloxG a (ph, ph.statWord sel.val)
  | _ => s

/-- An accepted port instruction is applied by the engine that it names (R102). -/
def runPort (s : State) (x : Accepted) : State := (s.runLark x).runPhlox x

/-- Accept an instruction for Phlox: applied at once, or left to ENGINE_INSTRUCTION_COMPLETE (log 3), as when earlier ones wait. -/
def acceptPhlox (s : State) (x : Accepted) (seals : Bool) : State :=
  if s.lag || s.portBusy then s.goOn (s.upd (fun t => { t with pq := t.pq ++ [{ x with pc := t.pc }] })) seals
  else s.goOn (s.runPhlox x) seals

/-- The context of R351, the mark of R367, then the operand values: each a condition with the trap it raises. -/
def phloxInstr (s : State) (clear seals : Bool) (checks : List (Bool × Trap)) (x : Accepted) : State :=
  if s.slot.head.spec then s.waitFirm
  else if s.phlox.poison && !clear then s.trap 14 (BitVec.ofNat 64 (2 ^ 24 + pkgOf s.cur % 96 * 2 ^ 8 + 0x0D))
  else match checks.find? (fun c => c.1) with
    | some (_, t) => s.trapWith t
    | none => s.acceptPhlox x seals

/-- A column, row, position or literal out of range (R357). -/
def phloxCheck (bad : Bool) (reason : Nat) (x : Word) : Bool × Trap := (bad, ⟨13, phloxTval reason x⟩)

/-- The image in v register B (R359): two blocks, a zero block as absent cells. -/
def imageOf (s : State) (b : Sys2Proof.VReg) : Nat :=
  let v := s.slot.vr b.val
  (List.range 2).foldl (fun x k => x + (if isZeroBlock (v.descOf k) then 0 else v.block k) * 2 ^ (512 * k)) 0

/-- The checks of `pcol`'s image (R359): poison (R170), then a literal. -/
def imageChecks (s : State) (b : Sys2Proof.VReg) : List (Bool × Trap) :=
  (match s.poisonedBlock (s.slot.vr b.val) [0, 1] with
    | some t => [(true, t)]
    | none => []) ++
  [phloxCheck (PCol.lits { cells := BitVec.ofNat 1024 (s.imageOf b) }).isEmpty 1 0]

end State

open State

/-- `pclr` (R358). -/
def execPclr (s : State) : Host.Outcome State Fault Refusal := .next (s.phloxInstr true true [] { i := .pclr })
/-- `pcol` (R359). -/
def execPcol (a : GReg) (b : Sys2Proof.VReg) (s : State) : Host.Outcome State Fault Refusal :=
  .next (s.phloxInstr false true (s.imageChecks b) { i := .pcol a b, regs := [BitVec.ofNat 4096 (s.imageOf b)] })
/-- `pcol.at` (R359). -/
def execPcolAt (a : GReg) (b : Sys2Proof.VReg) (c : GReg) (s : State) : Host.Outcome State Fault Refusal :=
  .next (s.phloxInstr false true (s.imageChecks b ++ [phloxCheck (4095 < (s.g c.val).toNat) 3 (s.g c.val)])
    { i := .pcolAt a b c, c := s.g c.val, regs := [BitVec.ofNat 4096 (s.imageOf b)] })
/-- `pcolr.rd` (R360). -/
def execPcolrRd (a : Sys2Proof.VReg) (b : GReg) (s : State) : Host.Outcome State Fault Refusal :=
  .next (s.phloxInstr false true [phloxCheck (4095 < (s.g b.val).toNat) 3 (s.g b.val)]
    { i := .pcolrRd a b, b := s.g b.val, dst := [s.slot.physV a.val] })
/-- `pcolr.fr` (R360). -/
def execPcolrFr (a b : GReg) (s : State) : Host.Outcome State Fault Refusal :=
  .next (s.phloxInstr false true [phloxCheck (4095 < (s.g b.val).toNat) 3 (s.g b.val)] { i := .pcolrFr a b, b := s.g b.val })
/-- `pdec` (R361). -/
def execPdec (a b : GReg) (s : State) : Host.Outcome State Fault Refusal :=
  .next (s.phloxInstr false true [phloxCheck (1023 < (s.g b.val).toNat) 2 (s.g b.val)] { i := .pdec a b, b := s.g b.val })
/-- `pprop` (R353). -/
def execPprop (a : GReg) (s : State) : Host.Outcome State Fault Refusal :=
  .next (s.phloxInstr false true [] { i := .pprop a })
/-- `pbt` (R362): the level is compared with that which the slot's earlier instructions leave. -/
def execPbt (a b : GReg) (s : State) : Host.Outcome State Fault Refusal :=
  .next (
    if !s.slot.pq.isEmpty then s.stall
    else s.phloxInstr false true [phloxCheck (s.phlox.level < (s.g b.val).toNat) 4 (s.g b.val)] { i := .pbt a b, b := s.g b.val })
/-- `prow` (R363). -/
def execProw (a b : GReg) (s : State) : Host.Outcome State Fault Refusal :=
  .next (s.phloxInstr false false [phloxCheck (511 < (s.g b.val).toNat) 2 (s.g b.val)] { i := .prow a b, b := s.g b.val })
/-- `ptrl` (R363). -/
def execPtrl (a b : GReg) (s : State) : Host.Outcome State Fault Refusal :=
  .next (s.phloxInstr false false [phloxCheck (511 < (s.g b.val).toNat) 5 (s.g b.val)] { i := .ptrl a b, b := s.g b.val })
/-- `pconf` (R355). -/
def execPconf (a : GReg) (s : State) : Host.Outcome State Fault Refusal :=
  .next (s.phloxInstr false false [] { i := .pconf a })
/-- `plvl` (R363). -/
def execPlvl (a : GReg) (s : State) : Host.Outcome State Fault Refusal :=
  .next (s.phloxInstr false false [] { i := .plvl a })
/-- `pset` (R361). -/
def execPset (a b : GReg) (s : State) : Host.Outcome State Fault Refusal :=
  .next (s.phloxInstr false true [phloxCheck (1023 < (s.g b.val).toNat) 2 (s.g b.val)] { i := .pset a b, b := s.g b.val })
/-- `pstat` (R364). -/
def execPstat (a : GReg) (sel : Fin 7) (s : State) : Host.Outcome State Fault Refusal :=
  .next (s.phloxInstr false false [] { i := .pstat a sel })

end Sys2Proof.Machine
end

