-- ==== Sys2Proof/Machine/ScalarInt.lean ====
section
/-! DEFINITION. The scalar integer, move and predicate instructions (R121 to R129). -/

namespace Sys2Proof.Machine

/-! ### Arithmetic -/

/-- The high half of a signed product (R121). -/
def mulHigh (x y : Word) : Word := BitVec.ofInt 64 (x.toInt * y.toInt / 2 ^ 64)
/-- The high half of an unsigned product (R121). -/
def mulHighU (x y : Word) : Word := BitVec.ofNat 64 (x.toNat * y.toNat / 2 ^ 64)
/-- Signed quotient, truncated; all ones for a zero divisor (R121). -/
def divS (x y : Word) : Word := if y == 0 then BitVec.allOnes 64 else BitVec.ofInt 64 (x.toInt.tdiv y.toInt)
/-- Unsigned quotient; all ones for a zero divisor (R121). -/
def divU (x y : Word) : Word := if y == 0 then BitVec.allOnes 64 else BitVec.ofNat 64 (x.toNat / y.toNat)
/-- Signed remainder; the dividend for a zero divisor (R121). -/
def remS (x y : Word) : Word := if y == 0 then x else BitVec.ofInt 64 (x.toInt.tmod y.toInt)
/-- Unsigned remainder; the dividend for a zero divisor (R121). -/
def remU (x y : Word) : Word := if y == 0 then x else BitVec.ofNat 64 (x.toNat % y.toNat)

/-- The shift amount of a register form (R123). -/
def shiftOf (x : Word) : Nat := x.toNat % 64

/-- Zeros above the highest one bit (R124). -/
def clz64 (x : Word) : Nat := if x == 0 then 64 else 63 - Nat.log2 x.toNat
/-- Zeros among the low bits before the first one bit; n when all n are zero. -/
def ctzFrom (x : Nat) : Nat → Nat
  | 0 => 0
  | n + 1 => if x % 2 == 1 then 0 else 1 + ctzFrom (x / 2) n
/-- Zeros below the lowest one bit (R124). -/
def ctz64 (x : Word) : Nat := ctzFrom x.toNat 64
/-- Number of one bits (R124). -/
def pop64 (x : Word) : Nat := Instr.popLow x.toNat 64

/-- The low w bits, sign-extended. -/
def signExt (w : Nat) (x : Word) : Word := BitVec.ofInt 64 (signedOf w x.toNat)
/-- The low w bits, zero-extended. -/
def zeroExt (w : Nat) (x : Word) : Word := BitVec.ofNat 64 (x.toNat % 2 ^ w)
/-- The low w/8 bytes in reverse order, zero-extended (R124). -/
def byteSwap (w : Nat) (x : Word) : Word := BitVec.ofNat 64 (leNat (leBytes x.toNat (w / 8)).reverse)

/-- A bit field of w bits from lo (R125). -/
def bitField (ty : Ty) (x : Word) (lo w : Nat) : Word :=
  let f : Word := BitVec.ofNat 64 (x.toNat / 2 ^ lo % 2 ^ w)
  if ty == .i64 then signExt w f else f
/-- Bits lo + w − 1 down to lo of `x`, replaced by the low w bits of `y` (R125). -/
def bitInsert (x y : Word) (lo w : Nat) : Word :=
  let m : Word := BitVec.ofNat 64 ((2 ^ w - 1) * 2 ^ lo)
  (x &&& ~~~m) ||| ((y <<< lo) &&& m)

/-- The signed lesser and greater, and the unsigned ones (R121). -/
def minS (x y : Word) : Word := if y.slt x then y else x
def maxS (x y : Word) : Word := if x.slt y then y else x
def minU (x y : Word) : Word := if y.ult x then y else x
def maxU (x y : Word) : Word := if x.ult y then y else x

namespace State

/-- Write a general register and retire. -/
def putG (s : State) (a : GReg) (x : Word) : Host.Outcome State Fault Refusal := .next (s.setG a.val x).retire
/-- Write a predicate and retire. -/
def putP (s : State) (a : PReg) (b : Bool) : Host.Outcome State Fault Refusal := .next (s.setP a.val b).retire

end State

/-! ### Major 0x10 and 0x11 -/

/-- `add` (R121). -/
def execAdd (a b c : GReg) (s : State) : Host.Outcome State Fault Refusal :=
  s.putG a (s.g b.val + s.g c.val)
/-- `sub` (R121). -/
def execSub (a b c : GReg) (s : State) : Host.Outcome State Fault Refusal :=
  s.putG a (s.g b.val - s.g c.val)
/-- `mul` (R121). -/
def execMul (a b c : GReg) (s : State) : Host.Outcome State Fault Refusal :=
  s.putG a (s.g b.val * s.g c.val)
/-- `mulh` (R121). -/
def execMulh (a b c : GReg) (s : State) : Host.Outcome State Fault Refusal :=
  s.putG a (mulHigh (s.g b.val) (s.g c.val))
/-- `mulhz` (R121). -/
def execMulhz (a b c : GReg) (s : State) : Host.Outcome State Fault Refusal :=
  s.putG a (mulHighU (s.g b.val) (s.g c.val))
/-- `div` (R121). -/
def execDiv (a b c : GReg) (s : State) : Host.Outcome State Fault Refusal :=
  s.putG a (divS (s.g b.val) (s.g c.val))
/-- `divz` (R121). -/
def execDivz (a b c : GReg) (s : State) : Host.Outcome State Fault Refusal :=
  s.putG a (divU (s.g b.val) (s.g c.val))
/-- `rem` (R121). -/
def execRem (a b c : GReg) (s : State) : Host.Outcome State Fault Refusal :=
  s.putG a (remS (s.g b.val) (s.g c.val))
/-- `remz` (R121). -/
def execRemz (a b c : GReg) (s : State) : Host.Outcome State Fault Refusal :=
  s.putG a (remU (s.g b.val) (s.g c.val))
/-- `min` (R121). -/
def execMin (a b c : GReg) (s : State) : Host.Outcome State Fault Refusal :=
  s.putG a (minS (s.g b.val) (s.g c.val))
/-- `max` (R121). -/
def execMax (a b c : GReg) (s : State) : Host.Outcome State Fault Refusal :=
  s.putG a (maxS (s.g b.val) (s.g c.val))
/-- `minz` (R121). -/
def execMinz (a b c : GReg) (s : State) : Host.Outcome State Fault Refusal :=
  s.putG a (minU (s.g b.val) (s.g c.val))
/-- `maxz` (R121). -/
def execMaxz (a b c : GReg) (s : State) : Host.Outcome State Fault Refusal :=
  s.putG a (maxU (s.g b.val) (s.g c.val))
/-- `addi` (R122). -/
def execAddi (a b : GReg) (imm : BitVec 32) (s : State) : Host.Outcome State Fault Refusal :=
  s.putG a (s.g b.val + sext32 imm)

/-! ### Majors 0x12 and 0x13 (R123) -/

/-- `and` (R123). -/
def execAnd (a b c : GReg) (s : State) : Host.Outcome State Fault Refusal :=
  s.putG a (s.g b.val &&& s.g c.val)
/-- `or` (R123). -/
def execOr (a b c : GReg) (s : State) : Host.Outcome State Fault Refusal :=
  s.putG a (s.g b.val ||| s.g c.val)
/-- `xor` (R123). -/
def execXor (a b c : GReg) (s : State) : Host.Outcome State Fault Refusal :=
  s.putG a (s.g b.val ^^^ s.g c.val)
/-- `andn` (R123). -/
def execAndn (a b c : GReg) (s : State) : Host.Outcome State Fault Refusal :=
  s.putG a (s.g b.val &&& ~~~(s.g c.val))
/-- `orn` (R123). -/
def execOrn (a b c : GReg) (s : State) : Host.Outcome State Fault Refusal :=
  s.putG a (s.g b.val ||| ~~~(s.g c.val))
/-- `shl` (R123). -/
def execShl (a b c : GReg) (s : State) : Host.Outcome State Fault Refusal :=
  s.putG a (s.g b.val <<< shiftOf (s.g c.val))
/-- `shr` (R123). -/
def execShr (a b c : GReg) (s : State) : Host.Outcome State Fault Refusal :=
  s.putG a (s.g b.val >>> shiftOf (s.g c.val))
/-- `sar` (R123). -/
def execSar (a b c : GReg) (s : State) : Host.Outcome State Fault Refusal :=
  s.putG a ((s.g b.val).sshiftRight (shiftOf (s.g c.val)))
/-- `rot` (R123). -/
def execRot (a b c : GReg) (s : State) : Host.Outcome State Fault Refusal :=
  s.putG a ((s.g b.val).rotateLeft (shiftOf (s.g c.val)))
/-- `andi` (R123). -/
def execAndi (a b : GReg) (imm : BitVec 32) (s : State) : Host.Outcome State Fault Refusal :=
  s.putG a (s.g b.val &&& sext32 imm)
/-- `ori` (R123). -/
def execOri (a b : GReg) (imm : BitVec 32) (s : State) : Host.Outcome State Fault Refusal :=
  s.putG a (s.g b.val ||| sext32 imm)
/-- `xori` (R123). -/
def execXori (a b : GReg) (imm : BitVec 32) (s : State) : Host.Outcome State Fault Refusal :=
  s.putG a (s.g b.val ^^^ sext32 imm)
/-- `andni` (R123). -/
def execAndni (a b : GReg) (imm : BitVec 32) (s : State) : Host.Outcome State Fault Refusal :=
  s.putG a (s.g b.val &&& ~~~(sext32 imm))
/-- `orni` (R123). -/
def execOrni (a b : GReg) (imm : BitVec 32) (s : State) : Host.Outcome State Fault Refusal :=
  s.putG a (s.g b.val ||| ~~~(sext32 imm))
/-- `shli` (R123). -/
def execShli (a b : GReg) (k : Fin 64) (s : State) : Host.Outcome State Fault Refusal :=
  s.putG a (s.g b.val <<< k.val)
/-- `shri` (R123). -/
def execShri (a b : GReg) (k : Fin 64) (s : State) : Host.Outcome State Fault Refusal :=
  s.putG a (s.g b.val >>> k.val)
/-- `sari` (R123). -/
def execSari (a b : GReg) (k : Fin 64) (s : State) : Host.Outcome State Fault Refusal :=
  s.putG a ((s.g b.val).sshiftRight (k.val))
/-- `roti` (R123). -/
def execRoti (a b : GReg) (k : Fin 64) (s : State) : Host.Outcome State Fault Refusal :=
  s.putG a ((s.g b.val).rotateLeft (k.val))

/-! ### Majors 0x14 to 0x16 (R124, R125) -/

/-- `clz` (R124). -/
def execClz (a b : GReg) (s : State) : Host.Outcome State Fault Refusal :=
  s.putG a (BitVec.ofNat 64 (clz64 (s.g b.val)))
/-- `ctz` (R124). -/
def execCtz (a b : GReg) (s : State) : Host.Outcome State Fault Refusal :=
  s.putG a (BitVec.ofNat 64 (ctz64 (s.g b.val)))
/-- `pop` (R124). -/
def execPop (a b : GReg) (s : State) : Host.Outcome State Fault Refusal :=
  s.putG a (BitVec.ofNat 64 (pop64 (s.g b.val)))
/-- `sext` (R124). -/
def execSext (ty : Ty) (a b : GReg) (s : State) : Host.Outcome State Fault Refusal :=
  s.putG a (signExt ty.width (s.g b.val))
/-- `zext` (R124). -/
def execZext (ty : Ty) (a b : GReg) (s : State) : Host.Outcome State Fault Refusal :=
  s.putG a (zeroExt ty.width (s.g b.val))
/-- `bswp` (R124). -/
def execBswp (ty : Ty) (a b : GReg) (s : State) : Host.Outcome State Fault Refusal :=
  s.putG a (byteSwap ty.width (s.g b.val))
/-- `bfx` (R125). -/
def execBfx (ty : Ty) (a b : GReg) (lo : Fin 64) (w : Fin 128) (s : State) : Host.Outcome State Fault Refusal :=
  s.putG a (bitField ty (s.g b.val) lo.val w.val)
/-- `bfi` (R125). -/
def execBfi (a b : GReg) (lo : Fin 64) (w : Fin 128) (s : State) : Host.Outcome State Fault Refusal :=
  s.putG a (bitInsert (s.g a.val) (s.g b.val) lo.val w.val)

/-! ### Compares, moves, predicates (R126 to R129) -/

/-- `cmp` (R127). -/
def execCmp (cc : Cc) (p : PReg) (b c : GReg) (s : State) : Host.Outcome State Fault Refusal :=
  s.putP p (cc.holds (s.g b.val) (s.g c.val))
/-- `cmpi` (R127). -/
def execCmpi (cc : Cc) (p : PReg) (b : GReg) (imm : BitVec 32) (s : State) : Host.Outcome State Fault Refusal :=
  s.putP p (cc.holds (s.g b.val) (sext32 imm))
/-- `sel` (R128). -/
def execSel (a : GReg) (p : PReg) (c d : GReg) (s : State) : Host.Outcome State Fault Refusal :=
  s.putG a (if s.p p.val then s.g c.val else s.g d.val)
/-- `li` (R126). -/
def execLi (a : GReg) (imm : Word) (s : State) : Host.Outcome State Fault Refusal :=
  s.putG a imm
/-- `mov` (R126): g from g, lc from g, g from lc. -/
def execMov (m : MovOp) (s : State) : Host.Outcome State Fault Refusal :=
  match m with
  | .gg a b => s.putG a (s.g b.val)
  | .lcg a b => .next (s.upd (fun t => t.setLc a.val (s.g b.val))).retire
  | .glc a b => s.putG a (s.slot.lcr b.val)
/-- `lea` (R126). -/
def execLea (a base idx : GReg) (off : BitVec 32) (s : State) : Host.Outcome State Fault Refusal :=
  s.putG a (s.g base.val + s.g idx.val + sext32 off)
/-- `pand` (R129). -/
def execPand (a b c : PReg) (s : State) : Host.Outcome State Fault Refusal :=
  s.putP a (s.p b.val && s.p c.val)
/-- `por` (R129). -/
def execPor (a b c : PReg) (s : State) : Host.Outcome State Fault Refusal :=
  s.putP a (s.p b.val || s.p c.val)
/-- `pxor` (R129). -/
def execPxor (a b c : PReg) (s : State) : Host.Outcome State Fault Refusal :=
  s.putP a (s.p b.val != s.p c.val)
/-- `pnot` (R129). -/
def execPnot (a b : PReg) (s : State) : Host.Outcome State Fault Refusal :=
  s.putP a (!s.p b.val)

end Sys2Proof.Machine
end

