-- ==== Sys2Proof/Machine/ScalarFloat.lean ====
section
/-! DEFINITION. The scalar float instructions (R130 to R134): results round once under `frm`, and raise the sticky
flags of `fflags`. -/

namespace Sys2Proof.Machine

/-- A float operand: the low bits of its register (R130). -/
def floatOf (f : Num.Fmt) (x : Word) : Nat := x.toNat % 2 ^ f.width

namespace State

/-- The operand of a register in a type's format. -/
def fg (s : State) (ty : Ty) (n : GReg) : Nat := floatOf (Num.fmtOf ty) (s.g n.val)

/-- Write a result with its flags and retire; the bits above the format are zero (R130). -/
def putF (s : State) (a : GReg) (x : Nat × Num.Flags) : Host.Outcome State Fault Refusal :=
  .next ((s.setG a.val (BitVec.ofNat 64 x.1)).orFlags x.2).retire

end State

/-- The value of a source of `fcvt`, as a pattern becomes a number (R134). -/
def intSource (ty : Ty) (x : Word) : Int := if ty.isI then signedOf ty.width x.toNat else (x.toNat % 2 ^ ty.width : Nat)

/-- `fcvt` on a register's value (R134). -/
def convert (dst src : Ty) (rm : Num.Rm) (x : Word) : Nat × Num.Flags :=
  if src.isInt then Num.roundInt (Num.fmtOf dst) rm false (intSource src x) 0
  else
    let f := Num.fmtOf src
    if dst.isInt then
      let (v, fl) := Num.toInt dst.isI dst.width rm (Num.unpack f (floatOf f x))
      ((BitVec.ofInt 64 v).toNat, fl)
    else Num.cvtFF (Num.fmtOf dst) f rm (floatOf f x)

/-- `fadd` (R131). -/
def execFadd (ty : Ty) (a b c : GReg) (s : State) : Host.Outcome State Fault Refusal :=
  s.putF a (Num.add (Num.fmtOf ty) s.frm (s.fg ty b) (s.fg ty c))
/-- `fsub` (R131). -/
def execFsub (ty : Ty) (a b c : GReg) (s : State) : Host.Outcome State Fault Refusal :=
  s.putF a (Num.sub (Num.fmtOf ty) s.frm (s.fg ty b) (s.fg ty c))
/-- `fmul` (R131). -/
def execFmul (ty : Ty) (a b c : GReg) (s : State) : Host.Outcome State Fault Refusal :=
  s.putF a (Num.mul (Num.fmtOf ty) s.frm (s.fg ty b) (s.fg ty c))
/-- `fdiv` (R131). -/
def execFdiv (ty : Ty) (a b c : GReg) (s : State) : Host.Outcome State Fault Refusal :=
  s.putF a (Num.div (Num.fmtOf ty) s.frm (s.fg ty b) (s.fg ty c))
/-- `fsqrt` (R131). -/
def execFsqrt (ty : Ty) (a b : GReg) (s : State) : Host.Outcome State Fault Refusal :=
  s.putF a (Num.sqrtV (Num.fmtOf ty) s.frm (Num.unpack (Num.fmtOf ty) (s.fg ty b)))
/-- `fmin` (R132). -/
def execFmin (ty : Ty) (a b c : GReg) (s : State) : Host.Outcome State Fault Refusal :=
  s.putF a (Num.minmax (Num.fmtOf ty) false (s.fg ty b) (s.fg ty c))
/-- `fmax` (R132). -/
def execFmax (ty : Ty) (a b c : GReg) (s : State) : Host.Outcome State Fault Refusal :=
  s.putF a (Num.minmax (Num.fmtOf ty) true (s.fg ty b) (s.fg ty c))
/-- `fma` (R131). -/
def execFma (ty : Ty) (a b c d : GReg) (s : State) : Host.Outcome State Fault Refusal :=
  s.putF a (Num.fma (Num.fmtOf ty) s.frm (s.fg ty b) (s.fg ty c) (s.fg ty d))
/-- `fcmp` (R133). -/
def execFcmp (cc : FCc) (ty : Ty) (p : PReg) (b c : GReg) (s : State) : Host.Outcome State Fault Refusal :=
  let (r, fl) := cc.holds (Num.fmtOf ty) (s.fg ty b) (s.fg ty c)
  .next ((s.setP p.val r).orFlags fl).retire
/-- `fcvt` (R134). -/
def execFcvt (dst src : Ty) (a b : GReg) (s : State) : Host.Outcome State Fault Refusal :=
  s.putF a (convert dst src s.frm (s.g b.val))

end Sys2Proof.Machine
end

