-- ==== Sys2Proof/Machine/VecMem.lean ====
section
/-! DEFINITION. The vector memory instructions (R225, R226): each active lane is checked in ascending order before
any lane takes effect (R220). -/

namespace Sys2Proof.Machine

/-- The first lane of block b that is active; for the type `none` the block's first byte stands for its lanes. -/
def firstActive (ty : Ty) (mask : LaneMask) (bits : BitVec 1024) (b : Nat) : Option Nat :=
  if ty == .none then some 0
  else (List.range ty.perBlock).find? (fun j => laneActive mask bits (b * ty.perBlock + j))

/-- Blocks of a register with an active lane, each with the byte of its first active lane (R225). -/
def activeBlocks (ty : Ty) (mask : LaneMask) (bits : BitVec 1024) : List (Nat × Nat) :=
  (List.range 8).filterMap (fun b => (firstActive ty mask bits b).map (fun j => (b, ty.width * j / 8)))

/-- Every lane of a block is active. -/
def wholeBlock (ty : Ty) (mask : LaneMask) (bits : BitVec 1024) (b : Nat) : Bool :=
  mask.isNone || (List.range ty.perBlock).all (fun j => laneActive mask bits (b * ty.perBlock + j))

namespace State

/-- The physical register of a v operand now (R95). -/
def vphysOf (s : State) (n : Sys2Proof.VReg) : Nat := s.slot.physV n.val

/-! ### Whole registers (R225) -/

/-- The locations of the active blocks from an address, or the first trap. -/
def blockLocs (s : State) (va : Word) (l : List (Nat × Nat)) (k : Access) : Except Trap (List (Nat × Loc)) :=
  l.mapM (fun x =>
    match s.locate s.cur (va + BitVec.ofNat 64 (64 * x.1)) 64 k with
    | .ok y => .ok (x.1, y)
    | .error t => .error ⟨t.cause, va + BitVec.ofNat 64 (64 * x.1 + x.2)⟩)

/-- `ldv` (R225). -/
def loadBlocks (s : State) (ty : Ty) (a : Sys2Proof.VReg) (m : Addr) (mask : LaneMask) : State :=
  let va := s.addrOf m
  let bits := s.maskBits mask
  if va.toNat % 64 != 0 then s.trap 3 va
  else match s.blockLocs va (activeBlocks ty mask bits) .load with
    | .error t => s.trapWith t
    | .ok [] => s.retire
    | .ok l => (s.filled va).issueLoad va (.vblocks (s.vphysOf a) ty mask bits) (l.map (fun x => ⟨x.2, 64, x.1⟩)) false false m.nu.val

/-- A byte as the issuing slot sees it: a speculative task's reads are registered. -/
def seenByte (s : State) (l : Loc) : State × Byte :=
  match (if s.slot.head.spec then s.entryOf s.cur else none), l with
  | some e, .glob pa =>
    let (t, bs) := s.specRead e.id pa 1
    (t, bs.headD 0)
  | _, .glob pa => if s.isLocal pa then (s, s.l1Byte s.cache pa) else (s, s.peek pa)
  | _, .scr _ _ => (s, s.readLoc l)

/-- The bits of byte k of a block that active lanes cover. -/
def laneBitsOf (ty : Ty) (mask : LaneMask) (bits : BitVec 1024) (b k : Nat) : Nat :=
  (List.range 8).foldl (fun x i =>
    let p := 8 * k + i
    let j := p / Nat.max 1 ty.width
    x + if j < ty.perBlock && laneActive mask bits (b * ty.perBlock + j) then 2 ^ i else 0) 0

/-- The bytes of a block that active lanes cover in part, so that a store of the lanes reads them. -/
def partReads (ty : Ty) (mask : LaneMask) (bits : BitVec 1024) (b : Nat) (l : Loc) : List Loc :=
  ((List.range 64).filter (fun k => let c := laneBitsOf ty mask bits b k
                                    c != 0 && c != 255)).map (locAdd l)

/-- What a store that reads bytes waits for: earlier accesses of the slot to them, room in the read set of a speculative task
(R392, R326). -/
def readsWait (s : State) (ls : List Loc) : Option State :=
  match (if s.slot.head.spec then s.entryOf s.cur else none) with
  | some e => if s.readRoom e ((globRanges (ls.map (fun l => (l, 1)))).map (fun x => x.1 / 64)) then none else some s.waitFirm
  | none => if ls.any (fun l => s.conflict l 1 true) then some s.stall else none

/-- A block stored in part (R225): the bytes of its active lanes. A byte that an inactive lane shares keeps that lane's
bits (log 17). -/
def partPieces (s : State) (ty : Ty) (mask : LaneMask) (bits : BitVec 1024) (v : VReg) (b : Nat) (l : Loc) :
    State × List (Nat × Piece) :=
  let x := if isZeroBlock (v.descOf b) then 0 else v.block b
  (List.range 64).foldl (fun (acc : State × List (Nat × Piece)) k =>
    let c := laneBitsOf ty mask bits b k
    if c == 0 then acc
    else
      let new := x / 2 ^ (8 * k) % 256
      if c == 255 then (acc.1, acc.2 ++ [(k, { loc := locAdd l k, bytes := [BitVec.ofNat 8 new] })])
      else
        let (t, old) := acc.1.seenByte (locAdd l k)
        (t, acc.2 ++ [(k, { loc := locAdd l k, bytes := [BitVec.ofNat 8 ((new &&& c) ||| (old.toNat &&& (255 - c)))] })]))
    (s, [])

/-- `stv` (R225): whole blocks go with their descriptors, other blocks byte by byte. -/
def storeBlocks (s : State) (ty : Ty) (a : Sys2Proof.VReg) (m : Addr) (mask : LaneMask) : State :=
  let va := s.addrOf m
  let bits := s.maskBits mask
  let v := s.slot.vr a.val
  let act := activeBlocks ty mask bits
  if va.toNat % 64 != 0 then s.trap 3 va
  else match s.blockLocs va act .store with
    | .error t => s.trapWith t
    | .ok [] => s.retire
    | .ok l =>
      match s.poisonedBlock v ((act.map (·.1)).filter (fun b => !wholeBlock ty mask bits b)) with
      | some t => s.trapWith t
      | none => match s.readsWait (l.flatMap (fun x => partReads ty mask bits x.1 x.2)) with
        | some t => t
        | none =>
          let (s1, ps) := l.foldl (fun (acc : State × List (Word × Piece)) x =>
            let at_ (k : Nat) : Word := va + BitVec.ofNat 64 (64 * x.1 + k)
            if wholeBlock ty mask bits x.1 then
              (acc.1, acc.2 ++ [(at_ 0, { loc := x.2, bytes := leBytes (v.block x.1) 64, desc := some (v.descOf x.1) })])
            else
              let (t, p) := acc.1.partPieces ty mask bits v x.1 x.2
              (t, acc.2 ++ p.map (fun y => (at_ y.1, y.2)))) (s.filled va, [])
          s1.issueStore ps false m.nu.val

/-! ### Strided and indexed forms (R226) -/

/-- The locations of elements at their addresses, or the first trap, in ascending lane order. -/
def elementLocs (s : State) (ty : Ty) (l : List (Nat × Word)) (k : Access) : Except Trap (List (Nat × Word × Loc)) :=
  l.mapM (fun x =>
    match s.checkAt x.2 (ty.width / 8) (ty.width / 8) k with
    | .ok y => .ok (x.1, x.2, y)
    | .error t => .error t)

/-- Keep the translations of elements. -/
def fillAll (s : State) (l : List (Nat × Word × Loc)) : State := l.foldl (fun t x => t.filled x.2.1) s

/-- A load of elements (R226). -/
def loadElements (s : State) (ty : Ty) (a : Sys2Proof.VReg) (addrs : List (Nat × Word)) (nu : Nat) : State :=
  match s.elementLocs ty addrs .load with
  | .error t => s.trapWith t
  | .ok [] => s.retire
  | .ok l => (s.fillAll l).issueLoad ((l.head?.map (·.2.1)).getD 0) (.vlanes (s.vphysOf a) ty)
      (l.map (fun x => ⟨x.2.2, ty.width / 8, x.1⟩)) false false nu

/-- A store of elements in ascending lane order (R226). -/
def storeElements (s : State) (ty : Ty) (a : Sys2Proof.VReg) (addrs : List (Nat × Word)) (nu : Nat) : State :=
  let v := s.slot.vr a.val
  match s.poisonedBlock v ((addrs.map (fun x => laneBlock ty x.1)).eraseDups) with
  | some t => s.trapWith t
  | none => match s.elementLocs ty addrs .store with
    | .error t => s.trapWith t
    | .ok [] => s.retire
    | .ok l => (s.fillAll l).issueStore (l.map (fun x =>
        (x.2.1, { loc := x.2.2, bytes := leBytes (v.lane ty x.1) (ty.width / 8) }))) false nu

/-- Addresses of the strided forms: a signed byte stride. -/
def strided (s : State) (ty : Ty) (m : BaseAddr) (c : GReg) (mask : LaneMask) : List (Nat × Word) :=
  (activeLanes ty mask (s.maskBits mask)).map (fun i => (i, s.baseOf m + BitVec.ofNat 64 i * s.g c.val))

/-- The index of lane i: lane i of the index register, signed; a free value for a lane that it does not have (log
18). -/
def indexLane (s : State) (v : VReg) (ix64 : Bool) (i : Nat) : Word :=
  let t : Ty := if ix64 then .i64 else .i32
  if i < t.lanes then extend t (v.lane t i) else Config.missingIndex s.nonce i

/-- Addresses of the indexed forms. -/
def indexed (s : State) (ty : Ty) (m : BaseAddr) (c : Sys2Proof.VReg) (ix64 : Bool) (mask : LaneMask) : List (Nat × Word) :=
  let v := s.slot.vr c.val
  (activeLanes ty mask (s.maskBits mask)).map (fun i =>
    (i, s.baseOf m + s.indexLane v ix64 i * BitVec.ofNat 64 (ty.width / 8)))

/-- The index register's poison, among the lanes that are read (R170). -/
def indexPoison (s : State) (ty : Ty) (c : Sys2Proof.VReg) (ix64 : Bool) (mask : LaneMask) : Option Trap :=
  let t : Ty := if ix64 then .i64 else .i32
  s.poisonedBlock (s.slot.vr c.val)
    ((((activeLanes ty mask (s.maskBits mask)).filter (· < t.lanes)).map (laneBlock t)).eraseDups)

end State

open State

/-- `ldv` (R225). -/
def execLdv (ty : Ty) (a : Sys2Proof.VReg) (m : Addr) (mask : LaneMask) (s : State) : Host.Outcome State Fault Refusal :=
  .next (s.loadBlocks ty a m mask)
/-- `stv` (R225). -/
def execStv (ty : Ty) (a : Sys2Proof.VReg) (m : Addr) (mask : LaneMask) (s : State) : Host.Outcome State Fault Refusal :=
  .next (s.storeBlocks ty a m mask)
/-- `ldvs` (R226). -/
def execLdvs (ty : Ty) (a : Sys2Proof.VReg) (m : BaseAddr) (c : GReg) (mask : LaneMask) (s : State) :
    Host.Outcome State Fault Refusal := .next (s.loadElements ty a (s.strided ty m c mask) m.nu.val)
/-- `stvs` (R226). -/
def execStvs (ty : Ty) (a : Sys2Proof.VReg) (m : BaseAddr) (c : GReg) (mask : LaneMask) (s : State) :
    Host.Outcome State Fault Refusal := .next (s.storeElements ty a (s.strided ty m c mask) m.nu.val)
/-- `ldvx` (R226). -/
def execLdvx (ty : Ty) (a : Sys2Proof.VReg) (m : BaseAddr) (c : Sys2Proof.VReg) (ix64 : Bool) (mask : LaneMask) (s : State) :
    Host.Outcome State Fault Refusal :=
  .next (match s.indexPoison ty c ix64 mask with
    | some t => s.trapWith t
    | none => s.loadElements ty a (s.indexed ty m c ix64 mask) m.nu.val)
/-- `stvx` (R226). -/
def execStvx (ty : Ty) (a : Sys2Proof.VReg) (m : BaseAddr) (c : Sys2Proof.VReg) (ix64 : Bool) (mask : LaneMask) (s : State) :
    Host.Outcome State Fault Refusal :=
  .next (match s.indexPoison ty c ix64 mask with
    | some t => s.trapWith t
    | none => s.storeElements ty a (s.indexed ty m c ix64 mask) m.nu.val)

end Sys2Proof.Machine
end

