-- ==== Sys2Proof/Machine/Vector.lean ====
section
/-! DEFINITION. The vector instructions (R166 to R196). An instruction makes its checks when it is accepted; its result
is computed from the operands as accepted, and written when the engine completes it, in order (R103, R173, R174). -/

namespace Sys2Proof.Machine

/-! ### Lanes as numbers -/

/-- A lane as an integer of its type. -/
def intLane (ty : Ty) (x : Nat) : Int := if ty.isI then signedOf ty.width x else (x % 2 ^ ty.width : Nat)

/-- An integer result, wrapped, or clamped to the type's range (R175). -/
def intResult (ty : Ty) (sat : Bool) (x : Int) : Nat :=
  let lo := Num.intMin ty.isI ty.width
  let hi := Num.intMax ty.isI ty.width
  patternOf ty.width (if sat then (if x < lo then lo else if hi < x then hi else x) else x)

/-- Clamp to n bits of the lane's signedness (R187). -/
def clampBits (ty : Ty) (n : Nat) (x : Nat) : Nat :=
  let lo := Num.intMin ty.isI n
  let hi := Num.intMax ty.isI n
  let v := intLane ty x
  patternOf ty.width (if v < lo then lo else if hi < v then hi else v)

/-- The type of half, of double width (R188, R189). -/
def narrower : Ty → Ty
  | .i8 => .i4 | .i16 => .i8 | .i32 => .i16 | .i64 => .i32 | .z8 => .z4 | .z16 => .z8 | .z32 => .z16 | .z64 => .z32
  | t => t
def wider : Ty → Ty
  | .i4 => .i8 | .i8 => .i16 | .i16 => .i32 | .i32 => .i64 | .z4 => .z8 | .z8 => .z16 | .z16 => .z32 | .z32 => .z64
  | t => t

/-- Integer division of a lane (R175, R121). -/
def intDiv (ty : Ty) (x y : Int) : Nat := if y == 0 then 2 ^ ty.width - 1 else patternOf ty.width (x.tdiv y)

/-- An operation on an integer type, or on a float type, by lane. -/
def byKind (ty : Ty) (f : Unit → Nat) (g : Num.Fmt → Nat × Num.Flags) : Nat × Num.Flags :=
  if ty.isInt then (f (), 0) else g (Num.fmtOf ty)

/-- The lesser or greater of two lanes (R175). -/
def laneMinMax (ty : Ty) (wantMax : Bool) (x y : Nat) : Nat × Num.Flags :=
  byKind ty (fun _ => if (intLane ty x < intLane ty y) == wantMax then y else x) (fun f => Num.minmax f wantMax x y)

/-- A condition of `vcmp` on two lanes (R180). -/
def vcmpLane (cc : VCc) (ty : Ty) (x y : Nat) : Bool × Num.Flags :=
  if ty.isInt then
    let a := intLane ty x
    let b := intLane ty y
    (match cc with
      | .eq => a == b | .ne => a != b | .lt => a < b | .le => a ≤ b | .gt => b < a | .ge => b ≤ a | .un => false, 0)
  else
    let f := Num.fmtOf ty
    match cc with
    | .eq => FCc.holds .eq f x y
    | .ne =>
      let (r, fl) := FCc.holds .eq f x y
      (!r, fl)
    | .lt => FCc.holds .lt f x y
    | .le => FCc.holds .le f x y
    | .gt => FCc.holds .lt f y x
    | .ge => FCc.holds .le f y x
    | .un => FCc.holds .un f x y

/-- A shift of a lane by k (R178). -/
inductive ShiftOp where
  | shl | shr | sar
  deriving DecidableEq, Repr

/-- The shifted lane (R178): a count of the width or more gives 0, or copies of the sign bit. -/
def shiftLane (op : ShiftOp) (ty : Ty) (x k : Nat) : Nat :=
  let w := ty.width
  match op with
  | .shl => if w ≤ k then 0 else x * 2 ^ k % 2 ^ w
  | .shr => if w ≤ k then 0 else x / 2 ^ k
  | .sar => patternOf w (signedOf w x / (2 ^ (Nat.min k w) : Nat))

/-- Zeros above the highest one bit of a w-bit value. -/
def clzBits (w x : Nat) : Nat := if x == 0 then w else w - 1 - Nat.log2 x

/-- A count of a lane (R179). -/
def countLane (op : CntOp) (ty : Ty) (x : Nat) : Nat :=
  match op with
  | .pop => Instr.popLow x ty.width
  | .clz => clzBits ty.width x
  | .ctz => ctzFrom x ty.width

/-- The exact sum of a list of values, rounded once (R177): NaN operands, 0 × ∞ and opposite infinities give NaN. -/
def dotSum (f : Num.Fmt) (rm : Num.Rm) (terms : List (Num.Val × Num.Val)) (acc : Num.Val) : Nat × Num.Flags :=
  let zi (p : Num.Val × Num.Val) : Bool := match p with
    | (.inf _, .fin _ s _) => s == 0
    | (.fin _ s _, .inf _) => s == 0
    | _ => false
  let neg (p : Num.Val × Num.Val) : Bool := p.1.isNeg != p.2.isNeg
  let isInf (p : Num.Val × Num.Val) : Bool := !p.1.isNan && !p.2.isNan && (match p with
    | (.inf _, _) => true
    | (_, .inf _) => true
    | _ => false)
  let infs := (terms.filter isInf).map neg ++ (match acc with | .inf n => [n] | _ => [])
  if terms.any zi || (infs.any id && infs.any (!·)) then (f.qnan, Num.nv)
  else if terms.any (fun p => p.1.isNan || p.2.isNan) || acc.isNan then (f.qnan, 0)
  else match infs with
    | n :: _ => (f.sgn n + f.inf, 0)
    | [] =>
      let parts : List (Bool × Nat × Int) := (terms.map (fun p => match p with
        | (.fin a s e, .fin b t d) => (a != b, s * t, e + d)
        | _ => (false, 0, 0))) ++ (match acc with | .fin n s e => [(n, s, e)] | _ => [])
      let (x, e) := parts.foldl (fun (a : Int × Int) p => Num.dyAdd a.1 a.2 (Num.sg p.1 p.2.1) p.2.2) (0, 0)
      let zn := if parts.all (fun p => p.1) then true else if parts.all (fun p => !p.1) then false else rm == .rdn
      Num.roundInt f rm zn x e

/-- The destination type and the number of source lanes of `vdot` (R177). -/
def dotShape : Ty → Ty × Nat
  | .i8 => (.i32, 4) | .z8 => (.z32, 4) | .i16 => (.i64, 4) | .z16 => (.z64, 4) | t => (if t.isFloat then .f32 else t, 2)

/-! ### Combining (R190 to R192) -/

/-- Combine two lanes; integer additions are exact. -/
def combLane (op : VComb) (ty : Ty) (rm : Num.Rm) (x y : Int) : Int × Num.Flags :=
  let f := Num.fmtOf ty
  let w := ty.width
  let fl (r : Nat × Num.Flags) : Int × Num.Flags := ((r.1 : Int), r.2)
  match op with
  | .add => if ty.isInt then (x + y, 0) else fl (Num.add f rm x.toNat y.toNat)
  | .min => if ty.isInt then (if y < x then y else x, 0) else fl (Num.minmax f false x.toNat y.toNat)
  | .max => if ty.isInt then (if x < y then y else x, 0) else fl (Num.minmax f true x.toNat y.toNat)
  | .and => (((patternOf w x) &&& (patternOf w y) : Nat), 0)
  | .or => (((patternOf w x) ||| (patternOf w y) : Nat), 0)
  | .xor => (((patternOf w x) ^^^ (patternOf w y) : Nat), 0)

/-- One level of the tree of R191. -/
def combPairs (op : VComb) (ty : Ty) (rm : Num.Rm) : List (Option Int) → List (Option Int) × Num.Flags
  | x :: y :: t =>
    let (r, fl) := combPairs op ty rm t
    match x, y with
    | some a, some b =>
      let (c, g) := combLane op ty rm a b
      (some c :: r, g ||| fl)
    | none, z => (z :: r, fl)
    | z, none => (z :: r, fl)
  | l => (l, 0)

/-- The tree: `n` levels over 2^n elements. -/
def combTree (op : VComb) (ty : Ty) (rm : Num.Rm) : Nat → List (Option Int) → Option Int × Num.Flags
  | 0, l => ((l.head?).getD none, 0)
  | n + 1, l =>
    let (l1, fl) := combPairs op ty rm l
    let (r, g) := combTree op ty rm n l1
    (r, fl ||| g)

/-- What `vred` writes when no lane is active (R191). -/
def emptyResult (op : VComb) (ty : Ty) : Int :=
  match op with
  | .add | .or | .xor => 0
  | .and => 2 ^ ty.width - 1
  | .min => if ty.isInt then Num.intMax ty.isI ty.width else (Num.fmtOf ty).qnan
  | .max => if ty.isInt then Num.intMin ty.isI ty.width else (Num.fmtOf ty).qnan

/-- A result of `vred` in a g register (R191). -/
def redWord (op : VComb) (ty : Ty) (x : Int) : Word :=
  match op with
  | .and | .or | .xor => BitVec.ofNat 64 (patternOf ty.width x)
  | _ => BitVec.ofInt 64 x

/-- A lane as an operand of `combLane`: an integer by its signedness, a float by its pattern. -/
def combOperand (op : VComb) (ty : Ty) (x : Nat) : Int :=
  match op with
  | .add | .min | .max => if ty.isInt then intLane ty x else (x : Int)
  | _ => (x : Int)

/-- A running combination as a lane. -/
def combPattern (ty : Ty) (x : Int) : Nat := patternOf ty.width x

/-- `vscan` (R192): the values of the active lanes, and the flags. An integer addition wraps into the lane. -/
def scanLanes (op : VComb) (ty : Ty) (rm : Num.Rm) : List (Nat × Nat) → Option Int → List (Nat × Nat) × Num.Flags
  | [], _ => ([], 0)
  | (i, x) :: t, run =>
    let (r, fl) := match run with
      | none => (combOperand op ty x, (0 : Num.Flags))
      | some y => combLane op ty rm y (combOperand op ty x)
    let (l, g) := scanLanes op ty rm t (some r)
    ((i, combPattern ty r) :: l, fl ||| g)

/-! ### Conversions (R182 to R186) -/

/-- The source lane of a destination lane in part p; `none` for a lane that is not written (R183). -/
def partLane (d s : Ty) (p i : Nat) : Option Nat :=
  if d.lanes ≤ s.lanes then some (p * d.lanes + i)
  else if p * s.lanes ≤ i && i < (p + 1) * s.lanes then some (i - p * s.lanes) else none

/-- The format code of a type (R152, R156). -/
def formatOf (t : Ty) : Nat := (descFor t).toNat

/-- A block is accepted for an operand of a type (R156). -/
def formatAccepted (t : Ty) (d : BitVec 16) : Bool :=
  (State.isZeroBlock d && formatOk (d.toNat % 256)) || (formatOf t != 0 && d.toNat % 256 == formatOf t && scaleOk d.toNat)

/-- The scale of a descriptor, signed. -/
def scaleOf (d : BitVec 16) : Int := signedOf 8 (d.toNat / 256)

/-- A descriptor of a format and scale. -/
def mkDesc (format : Nat) (scale : Int) : BitVec 16 := BitVec.ofNat 16 (patternOf 8 scale * 256 + format)

/-- An element of a scaled block as a value: dec × 2^scale; `none` is NaR (R153). -/
def decodeElement (t : Ty) (scale : Int) (x : Nat) : Option (Bool × Nat × Int) :=
  if t.isTapered then
    let (n, e) := Num.tapBits t
    (Num.tapDec n e x).map (fun v => (v.1, v.2.1, v.2.2 + scale))
  else
    let v := intLane t x
    some (v < 0, v.natAbs, scale)

/-- A scaled element rounded into a float format (R185). -/
def decodeTo (f : Num.Fmt) (rm : Num.Rm) (t : Ty) (scale : Int) (x : Nat) : Nat × Num.Flags :=
  match decodeElement t scale x with
  | none => (f.qnan, 0)
  | some (n, s, e) => if s == 0 then (0, 0) else Num.round f rm n s e

/-- A value encoded into a scaled type with a scale (R184). -/
def encodeElement (t : Ty) (sat : Bool) (rm : Num.Rm) (scale : Int) (v : Num.Val) : Nat × Num.Flags :=
  if t.isTapered then
    let (n, e) := Num.tapBits t
    Num.tapEnc n e sat scale v
  else
    let v := match v with
      | .fin n s e => Num.Val.fin n s (e - scale)
      | v => v
    let (x, fl) := Num.toInt t.isI t.width rm v
    (patternOf t.width x, fl)

/-- Clamp a scale. -/
def clampScale (s : Int) : Int := if s < -127 then -127 else if 127 < s then 127 else s

/-- The greatest of two magnitudes. -/
def maxMag (a b : Nat × Int) : Nat × Int := if (Num.dyAdd a.1 a.2 (-(b.1 : Int)) b.2).1 < 0 then b else a

/-- The automatic scale of a block (R184): `none` for a zero block. -/
def autoScale (t : Ty) (vals : List Num.Val) : Option Int :=
  let mags := vals.filterMap (fun v => match v with
    | .fin _ s e => if s == 0 then none else some (s, e)
    | _ => none)
  match mags with
  | [] => if vals.any (fun v => match v with | .fin _ _ _ => false | _ => true) then some 0 else none
  | m :: t' =>
    let (s, e) := t'.foldl maxMag m
    let lg : Int := e + Nat.log2 s
    if t.isTapered then some (clampScale lg)
    else
      let top : Int := Num.intMax t.isI t.width
      let fits (c : Int) : Bool := (Num.dyAdd s (e - c) (-top) 0).1 ≤ 0
      let c := ((List.range 16).map (fun (i : Nat) => lg - 10 + (i : Int))).find? fits
      some (clampScale (c.getD lg))

namespace State

/-! ### Acceptance -/

/-- The engine accepts an instruction with its writes: they take place in order, at once unless the step leaves them to
their event (R102, R103, log 3). -/
def acceptVector (s : State) (ws : List RegWrite) : State :=
  (if s.lag then s.upd (fun t => { t with vq := t.vq ++ [ws] })
   else s.upd (fun t => { (t.vq ++ [ws]).foldl Slot.applyWrites t with vq := [] })).retire

/-- The machine check of the lanes that are read (R170): operands in order, each with the blocks that are read. -/
def sourceTrap (s : State) : List (VReg × List Nat) → Option Trap
  | [] => none
  | (v, bs) :: t => match s.poisonedBlock v bs with
    | some x => some x
    | none => s.sourceTrap t

/-- Blocks that hold lanes of a type. -/
def blocksFor (ty : Ty) (lanes : List Nat) : List Nat := (lanes.map (laneBlock ty)).eraseDups

/-- A vector register operand. -/
def v (s : State) (n : Sys2Proof.VReg) : VReg := s.slot.vr n.val

/-- A lane by lane operation: the active lanes of `a`, of type `dty`, receive `f`; `srcs` are the operands read, each
with its type (R169, R171). -/
def laneOp (s : State) (dty : Ty) (a : Sys2Proof.VReg) (mask : LaneMask) (srcs : List (VReg × List Nat))
    (f : Nat → Nat × Num.Flags) : State :=
  let bits := s.maskBits mask
  match s.sourceTrap srcs with
  | some t => s.trapWith t
  | none =>
    let act := activeLanes dty mask bits
    let fl := act.foldl (fun x i => x ||| (f i).2) 0
    s.acceptVector [
      .v (s.vphysOf a) (VReg.write (s.v a) dty (fun i => i < dty.lanes && laneActive mask bits i) (fun i => (f i).1)
        (fun _ => descFor dty)),
      .flags fl]

/-- Operands read in the active lanes of one type. -/
def reads (s : State) (ty : Ty) (mask : LaneMask) (l : List Sys2Proof.VReg) : List (VReg × List Nat) :=
  let bs := blocksFor ty (activeLanes ty mask (s.maskBits mask))
  l.map (fun n => (s.v n, bs))

/-- A unary operation. -/
def vop1 (s : State) (ty : Ty) (a b : Sys2Proof.VReg) (mask : LaneMask) (f : Nat → Nat × Num.Flags) : State :=
  s.laneOp ty a mask (s.reads ty mask [b]) (fun i => f ((s.v b).lane ty i))

/-- A binary operation. -/
def vop2 (s : State) (ty : Ty) (a b c : Sys2Proof.VReg) (mask : LaneMask) (f : Nat → Nat → Nat × Num.Flags) : State :=
  s.laneOp ty a mask (s.reads ty mask [b, c]) (fun i => f ((s.v b).lane ty i) ((s.v c).lane ty i))

/-- A float function of one operand, correctly rounded. -/
def vfloat1 (s : State) (ty : Ty) (a b : Sys2Proof.VReg) (mask : LaneMask) (rnd : Fin 5)
    (f : Num.Fmt → Num.Rm → Num.Val → Nat × Num.Flags) : State :=
  s.vop1 ty a b mask (fun x => f (Num.fmtOf ty) (s.rmode rnd.val) (Num.unpack (Num.fmtOf ty) x))

/-- B × C + D by lane (R175, R176). -/
def mulAdd (s : State) (ty : Ty) (o : VOpt) (x y z : Nat) : Nat × Num.Flags :=
  byKind ty (fun _ => intResult ty o.sat (intLane ty x * intLane ty y + intLane ty z))
    (fun f => Num.fma f (s.rmode o.rnd.val) x y z)

/-- A vector shift (R178). -/
def vshift (s : State) (op : ShiftOp) (ty : Ty) (a b : Sys2Proof.VReg) (k : ShiftCount) (mask : LaneMask) : State :=
  match k with
  | .imm n => s.vop1 ty a b mask (fun x => (shiftLane op ty x n.val, 0))
  | .reg c => s.vop2 ty a b c mask (fun x y => (shiftLane op ty x y, 0))

/-! ### Moves of scaled lanes (R193) -/

/-- A block that supplies lanes of a move: its operand position, its register field, its number. -/
abbrev Supply := Nat × Sys2Proof.VReg × Nat

/-- The descriptor of a supplying block. -/
def supplyDesc (s : State) (x : Supply) : BitVec 16 := (s.v x.2.1).descOf x.2.2

/-- Whether the register of a supplying block is dead: its values raise no trap (R11). -/
def supplyDead (s : State) (x : Supply) : Bool := s.slot.isDead (s.slot.physV x.2.1.val)

/-- A format-mismatch trap (R108). -/
def formatTrap (d : BitVec 16) (pos : Nat) : Trap := ⟨9, BitVec.ofNat 64 (pos * 65536 + d.toNat)⟩

/-- Order of supplying blocks: operand position, then block. -/
def supplyBefore (a b : Supply) : Bool := a.1 < b.1 || (a.1 == b.1 && a.2.2 < b.2.2)

/-- Insert in order. -/
def supplyInsert (x : Supply) : List Supply → List Supply
  | [] => [x]
  | y :: t => if supplyBefore x y then x :: y :: t else y :: supplyInsert x t

/-- The blocks that supply the lanes of a list, without repeats, in order. -/
def supplies (ty : Ty) (src : Nat → Nat × Sys2Proof.VReg × Nat) (lanes : List Nat) : List Supply :=
  ((lanes.map (fun i => ((src i).1, (src i).2.1, laneBlock ty (src i).2.2))).eraseDups).foldr supplyInsert []

/-- The format checks of R193: every supplying block of the type, then one scale for each destination block. -/
def moveTrap (s : State) (ty : Ty) (src : Nat → Nat × Sys2Proof.VReg × Nat) (active : List Nat) : Option Trap :=
  if !ty.isScaled then none
  else
    let live (l : List Supply) := l.filter (fun x => !s.supplyDead x)
    match (live (supplies ty src active)).find? (fun x => !formatAccepted ty (s.supplyDesc x)) with
    | some x => some (formatTrap (s.supplyDesc x) x.1)
    | none => (List.range 8).findSome? (fun b =>
        let l := (live (supplies ty src (active.filter (fun i => laneBlock ty i == b)))).filter
          (fun x => !isZeroBlock (s.supplyDesc x))
        match l with
        | [] => none
        | h :: t => (t.find? (fun x => scaleOf (s.supplyDesc x) != scaleOf (s.supplyDesc h))).map
            (fun x => formatTrap (s.supplyDesc x) x.1))

/-- The descriptor of destination block b of a move (R193, R171). -/
def moveDesc (s : State) (ty : Ty) (src : Nat → Nat × Sys2Proof.VReg × Nat) (active : List Nat) (b : Nat) : BitVec 16 :=
  if !ty.isScaled then descFor ty
  else match (supplies ty src (active.filter (fun i => laneBlock ty i == b))).find?
      (fun x => !isZeroBlock (s.supplyDesc x)) with
    | some x => mkDesc (formatOf ty) (scaleOf (s.supplyDesc x))
    | none => mkDesc (formatOf ty) 0

/-- A move of lanes: `src i` is the operand position, register and lane that supply lane i; `index` are operands read
beside them (R181, R194). -/
def moveOp (s : State) (ty : Ty) (a : Sys2Proof.VReg) (mask : LaneMask) (index : List (VReg × List Nat))
    (src : Nat → Nat × Sys2Proof.VReg × Nat) : State :=
  let bits := s.maskBits mask
  let act := activeLanes ty mask bits
  let sup := supplies ty src act
  match s.sourceTrap (index ++ sup.map (fun x => (s.v x.2.1, [x.2.2]))) with
  | some t => s.trapWith t
  | none => match s.moveTrap ty src act with
    | some t => s.trapWith t
    | none => s.acceptVector [
        .v (s.vphysOf a) (VReg.write (s.v a) ty (fun i => i < ty.lanes && laneActive mask bits i)
          (fun i => (s.v (src i).2.1).lane ty (src i).2.2) (s.moveDesc ty src act))]

/-! ### Conversions -/

/-- The lanes that a conversion writes: destination lane and source lane (R183). -/
def cvtLanes (s : State) (d src : Ty) (p : Nat) (mask : LaneMask) : List (Nat × Nat) :=
  (activeLanes d mask (s.maskBits mask)).filterMap (fun i => (partLane d src p i).map (fun j => (i, j)))

/-- The format checks of a conversion from a scaled type (R185, R156). -/
def cvtTrap (s : State) (src : Ty) (b : Sys2Proof.VReg) (lanes : List (Nat × Nat)) (decodes : Bool) : Option Trap :=
  let bs := blocksFor src (lanes.map (·.2))
  match s.poisonedBlock (s.v b) bs with
  | some t => some t
  | none =>
    if decodes && !s.slot.isDead (s.vphysOf b) then
      (bs.find? (fun k => !formatAccepted src ((s.v b).descOf k))).map (fun k => formatTrap ((s.v b).descOf k) 1)
    else none

/-- One lane of a conversion that does not encode with a scale (R182, R185, R186). -/
def cvtLane (s : State) (d src : Ty) (b : Sys2Proof.VReg) (o : VOpt) (j : Nat) : Nat × Num.Flags :=
  let x := (s.v b).lane src j
  let rm := s.rmode o.rnd.val
  if d.isInt && src.isInt then (intResult d o.sat (intLane src x), 0)
  else if d.isInt then
    let (y, fl) := Num.toInt d.isI d.width rm (Num.unpack (Num.fmtOf src) x)
    (patternOf d.width y, fl)
  else if src.isScaled then decodeTo (Num.fmtOf d) rm src (scaleOf ((s.v b).descOf (laneBlock src j))) x
  else if src.isInt then Num.roundInt (Num.fmtOf d) rm false (intLane src x) 0
  else Num.cvtFF (Num.fmtOf d) (Num.fmtOf src) rm x

/-- The scale of destination block k of an encoding conversion: `none` for a zero block (R184). -/
def cvtScale (s : State) (d src : Ty) (b : Sys2Proof.VReg) (sc : ScaleOp) (lanes : List (Nat × Nat)) (k : Nat) : Option Int :=
  match sc with
  | .given x => some x.toInt
  | .auto => autoScale d ((lanes.filter (fun y => laneBlock d y.1 == k)).map
      (fun y => Num.unpack (Num.fmtOf src) ((s.v b).lane src y.2)))

/-- Every destination block that holds a written lane is written whole (R184). -/
def cvtWhole (d : Ty) (lanes : List (Nat × Nat)) : Bool :=
  (blocksFor d (lanes.map (·.1))).all (fun k => (lanes.filter (fun y => laneBlock d y.1 == k)).length == d.perBlock)

/-- `vcvt` (R182 to R186). -/
def convertVector (s : State) (d src : Ty) (a b : Sys2Proof.VReg) (p : Nat) (sc : ScaleOp) (o : VOpt) : State :=
  let lanes := s.cvtLanes d src p o.mask
  let enc := d.isScaled && src.isFloat
  let dec := d.isFloat && src.isScaled
  if enc && sc == .auto && !cvtWhole d lanes then s.illegal 6
  else match s.cvtTrap src b lanes dec with
    | some t => s.trapWith t
    | none =>
      let scales : List (Option Int) := (List.range 8).map (s.cvtScale d src b sc lanes)
      let scaleAt (k : Nat) : Option Int := scales.getD k none
      let f (i j : Nat) : Nat × Num.Flags :=
        if enc then
          match scaleAt (laneBlock d i) with
          | none => (0, 0)
          | some e => encodeElement d o.sat (s.rmode o.rnd.val) e (Num.unpack (Num.fmtOf src) ((s.v b).lane src j))
        else s.cvtLane d src b o j
      let res := lanes.map (fun y => (y.1, f y.1 y.2))
      let fl := res.foldl (fun x y => x ||| y.2.2) 0
      let at_ (i : Nat) : Option (Nat × Num.Flags) := Store.find? res i
      s.acceptVector [
        .v (s.vphysOf a) (VReg.write (s.v a) d (fun i => (at_ i).isSome) (fun i => ((at_ i).map (·.1)).getD 0)
          (fun k => if enc then mkDesc (formatOf d) ((scaleAt k).getD (-128)) else descFor d)),
        .flags fl]

/-! ### Masks -/

/-- The low n bits of a mask. -/
def maskLow (n : Nat) (x : BitVec 1024) : BitVec 1024 := BitVec.ofNat 1024 (x.toNat % 2 ^ n)

/-- A mask result of a type: bits at and above its lanes are zero; all bits for the type 0 (R195). -/
def maskResult (ty : Ty) (x : BitVec 1024) : BitVec 1024 := if ty == .none then x else maskLow ty.lanes x

end State

open State

/-! ### Majors 0x70 to 0x73, 0x7C, 0x7D, 0x84 -/

/-- `vadd` (R175). -/
def execVadd (ty : Ty) (a b c : Sys2Proof.VReg) (o : VOpt) (s : State) : Host.Outcome State Fault Refusal :=
  let rm := s.rmode o.rnd.val
  .next (s.vop2 ty a b c o.mask (fun x y => byKind ty (fun _ => intResult ty o.sat (intLane ty x + intLane ty y)) (fun f => Num.add f rm x y)))
/-- `vsub` (R175). -/
def execVsub (ty : Ty) (a b c : Sys2Proof.VReg) (o : VOpt) (s : State) : Host.Outcome State Fault Refusal :=
  let rm := s.rmode o.rnd.val
  .next (s.vop2 ty a b c o.mask (fun x y => byKind ty (fun _ => intResult ty o.sat (intLane ty x - intLane ty y)) (fun f => Num.sub f rm x y)))
/-- `vmul` (R175). -/
def execVmul (ty : Ty) (a b c : Sys2Proof.VReg) (o : VOpt) (s : State) : Host.Outcome State Fault Refusal :=
  let rm := s.rmode o.rnd.val
  .next (s.vop2 ty a b c o.mask (fun x y => byKind ty (fun _ => intResult ty o.sat (intLane ty x * intLane ty y)) (fun f => Num.mul f rm x y)))
/-- `vmin` (R175, R132). -/
def execVmin (ty : Ty) (a b c : Sys2Proof.VReg) (mask : LaneMask) (s : State) : Host.Outcome State Fault Refusal :=
  .next (s.vop2 ty a b c mask (laneMinMax ty false))
/-- `vmax` (R175, R132). -/
def execVmax (ty : Ty) (a b c : Sys2Proof.VReg) (mask : LaneMask) (s : State) : Host.Outcome State Fault Refusal :=
  .next (s.vop2 ty a b c mask (laneMinMax ty true))
/-- `vdiv` (R175, R121). -/
def execVdiv (ty : Ty) (a b c : Sys2Proof.VReg) (mask : LaneMask) (rnd : Fin 5) (s : State) : Host.Outcome State Fault Refusal :=
  .next (s.vop2 ty a b c mask (fun x y =>
    byKind ty (fun _ => intDiv ty (intLane ty x) (intLane ty y)) (fun f => Num.div f (s.rmode rnd.val) x y)))
/-- `vfma` (R175). -/
def execVfma (ty : Ty) (a b c d : Sys2Proof.VReg) (o : VOpt) (s : State) : Host.Outcome State Fault Refusal :=
  .next (s.laneOp ty a o.mask (s.reads ty o.mask [b, c, d])
    (fun i => s.mulAdd ty o ((s.v b).lane ty i) ((s.v c).lane ty i) ((s.v d).lane ty i)))
/-- `vsqrt` (R175). -/
def execVsqrt (ty : Ty) (a b : Sys2Proof.VReg) (mask : LaneMask) (rnd : Fin 5) (s : State) : Host.Outcome State Fault Refusal :=
  .next (s.vfloat1 ty a b mask rnd (Num.sqrtV))
/-- `vrcp` (R175). -/
def execVrcp (ty : Ty) (a b : Sys2Proof.VReg) (mask : LaneMask) (rnd : Fin 5) (s : State) : Host.Outcome State Fault Refusal :=
  .next (s.vfloat1 ty a b mask rnd (fun f rm x => Num.divV f rm (.fin false 1 0) x))
/-- `vrsq` (R175). -/
def execVrsq (ty : Ty) (a b : Sys2Proof.VReg) (mask : LaneMask) (rnd : Fin 5) (s : State) : Host.Outcome State Fault Refusal :=
  .next (s.vfloat1 ty a b mask rnd (Num.rsqrtV))
/-- `vexp2` (R175). -/
def execVexp2 (ty : Ty) (a b : Sys2Proof.VReg) (mask : LaneMask) (rnd : Fin 5) (s : State) : Host.Outcome State Fault Refusal :=
  .next (s.vfloat1 ty a b mask rnd (Num.exp2V))
/-- `vlog2` (R175). -/
def execVlog2 (ty : Ty) (a b : Sys2Proof.VReg) (mask : LaneMask) (rnd : Fin 5) (s : State) : Host.Outcome State Fault Refusal :=
  .next (s.vfloat1 ty a b mask rnd (Num.log2V))
/-- `vabs` (R175): floats only clear the sign bit. -/
def execVabs (ty : Ty) (a b : Sys2Proof.VReg) (mask : LaneMask) (sat : Bool) (s : State) : Host.Outcome State Fault Refusal :=
  .next (s.vop1 ty a b mask (fun x =>
    byKind ty (fun _ => intResult ty sat (intLane ty x).natAbs) (fun f => (x % f.signBit, 0))))
/-- `vneg` (R175): floats only flip the sign bit. -/
def execVneg (ty : Ty) (a b : Sys2Proof.VReg) (mask : LaneMask) (sat : Bool) (s : State) : Host.Outcome State Fault Refusal :=
  .next (s.vop1 ty a b mask (fun x =>
    byKind ty (fun _ => intResult ty sat (-(intLane ty x))) (fun f => (x ^^^ f.signBit, 0))))
/-- `vnot` (R175). -/
def execVnot (ty : Ty) (a b : Sys2Proof.VReg) (mask : LaneMask) (s : State) : Host.Outcome State Fault Refusal :=
  .next (s.vop1 ty a b mask (fun x => (2 ^ ty.width - 1 - x, 0)))
/-- `vand` (R178). -/
def execVand (ty : Ty) (a b c : Sys2Proof.VReg) (mask : LaneMask) (s : State) : Host.Outcome State Fault Refusal :=
  .next (s.vop2 ty a b c mask (fun x y => (x &&& y, 0)))
/-- `vor` (R178). -/
def execVor (ty : Ty) (a b c : Sys2Proof.VReg) (mask : LaneMask) (s : State) : Host.Outcome State Fault Refusal :=
  .next (s.vop2 ty a b c mask (fun x y => (x ||| y, 0)))
/-- `vxor` (R178). -/
def execVxor (ty : Ty) (a b c : Sys2Proof.VReg) (mask : LaneMask) (s : State) : Host.Outcome State Fault Refusal :=
  .next (s.vop2 ty a b c mask (fun x y => (x ^^^ y, 0)))
/-- `vshl` (R178). -/
def execVshl (ty : Ty) (a b : Sys2Proof.VReg) (k : ShiftCount) (mask : LaneMask) (s : State) : Host.Outcome State Fault Refusal :=
  .next (s.vshift .shl ty a b k mask)
/-- `vshr` (R178). -/
def execVshr (ty : Ty) (a b : Sys2Proof.VReg) (k : ShiftCount) (mask : LaneMask) (s : State) : Host.Outcome State Fault Refusal :=
  .next (s.vshift .shr ty a b k mask)
/-- `vsar` (R178). -/
def execVsar (ty : Ty) (a b : Sys2Proof.VReg) (k : ShiftCount) (mask : LaneMask) (s : State) : Host.Outcome State Fault Refusal :=
  .next (s.vshift .sar ty a b k mask)
/-- `vdot` (R177). -/
def execVdot (ty : Ty) (a b c : Sys2Proof.VReg) (mask : LaneMask) (rnd : Fin 5) (s : State) : Host.Outcome State Fault Refusal :=
  let (dty, r) := dotShape ty
  let act := activeLanes dty mask (s.maskBits mask)
  let src := blocksFor ty (act.flatMap (fun j => (List.range r).map (fun k => r * j + k)))
  let bl (i : Nat) := (s.v b).lane ty i
  let cl (i : Nat) := (s.v c).lane ty i
  let al (j : Nat) := (s.v a).lane dty j
  let f := Num.fmtOf ty
  .next (s.laneOp dty a mask [(s.v a, blocksFor dty act), (s.v b, src), (s.v c, src)] (fun j =>
    if ty.isInt then
      (patternOf dty.width ((List.range r).foldl (fun x k => x + intLane ty (bl (r * j + k)) * intLane ty (cl (r * j + k)))
        (intLane dty (al j))), 0)
    else dotSum Num.f32 (s.rmode rnd.val)
      ((List.range r).map (fun k => (Num.unpack f (bl (r * j + k)), Num.unpack f (cl (r * j + k)))))
      (Num.unpack Num.f32 (al j))))
/-- `vmacc` (R176). -/
def execVmacc (ty : Ty) (a b : Sys2Proof.VReg) (c : GReg) (o : VOpt) (s : State) : Host.Outcome State Fault Refusal :=
  .next (s.laneOp ty a o.mask (s.reads ty o.mask [a, b])
    (fun i => s.mulAdd ty o ((s.v b).lane ty i) ((s.g c.val).toNat % 2 ^ ty.width) ((s.v a).lane ty i)))
/-- `vcnt` (R179). -/
def execVcnt (op : CntOp) (ty : Ty) (a b : Sys2Proof.VReg) (mask : LaneMask) (s : State) : Host.Outcome State Fault Refusal :=
  .next (s.vop1 ty a b mask (fun x => (countLane op ty x % 2 ^ ty.width, 0)))

/-! ### Compares, selections, conversions -/

/-- `vcmp` (R180): inactive bits are kept, bits at and above the lanes are zero. -/
def execVcmp (cc : VCc) (ty : Ty) (m : MReg) (b c : Sys2Proof.VReg) (mask : LaneMask) (s : State) : Host.Outcome State Fault Refusal :=
  let bits := s.maskBits mask
  let r (i : Nat) := vcmpLane cc ty ((s.v b).lane ty i) ((s.v c).lane ty i)
  .next (match s.sourceTrap (s.reads ty mask [b, c]) with
    | some t => s.trapWith t
    | none =>
      let old := s.slot.mr m.val
      let new := (List.range ty.lanes).foldl (fun x i =>
        x + if (if laneActive mask bits i then (r i).1 else old.getLsbD i) then 2 ^ i else 0) 0
      s.acceptVector [.m m.val (BitVec.ofNat 1024 new), .flags ((activeLanes ty mask bits).foldl (fun x i => x ||| (r i).2) 0)])
/-- `vsel` (R181, R193). -/
def execVsel (ty : Ty) (a : Sys2Proof.VReg) (m : MReg) (c d : Sys2Proof.VReg) (s : State) : Host.Outcome State Fault Refusal :=
  let bits := s.slot.mr m.val
  .next (s.moveOp ty a none [] (fun i => if bits.getLsbD i then (2, c, i) else (3, d, i)))
/-- `vcvt` (R182 to R186). -/
def execVcvt (dst src : Ty) (a b : Sys2Proof.VReg) (p : Fin 16) (scale : ScaleOp) (o : VOpt) (s : State) : Host.Outcome State Fault Refusal :=
  .next (s.convertVector dst src a b p.val scale o)
/-- `vsat` (R187). -/
def execVsat (ty : Ty) (a b : Sys2Proof.VReg) (n : Fin 128) (mask : LaneMask) (s : State) : Host.Outcome State Fault Refusal :=
  .next (s.vop1 ty a b mask (fun x => (clampBits ty n.val x, 0)))
/-- `vpack` (R188): masks govern the lanes of the narrow type. -/
def execVpack (ty : Ty) (a b c : Sys2Proof.VReg) (mask : LaneMask) (sat : Bool) (s : State) : Host.Outcome State Fault Refusal :=
  let d := narrower ty
  let l := ty.lanes
  let act := activeLanes d mask (s.maskBits mask)
  .next (s.laneOp d a mask [(s.v b, blocksFor ty (act.filter (· < l))),
      (s.v c, blocksFor ty ((act.filter (l ≤ ·)).map (· - l)))]
    (fun i => (intResult d sat (intLane ty (if i < l then (s.v b).lane ty i else (s.v c).lane ty (i - l))), 0)))
/-- `vunpk` (R189). -/
def execVunpk (ty : Ty) (a b : Sys2Proof.VReg) (p : Bool) (mask : LaneMask) (s : State) : Host.Outcome State Fault Refusal :=
  let d := wider ty
  let src (i : Nat) := (if p then d.lanes else 0) + i
  let act := activeLanes d mask (s.maskBits mask)
  .next (s.laneOp d a mask [(s.v b, blocksFor ty (act.map src))]
    (fun i => (intResult d false (intLane ty ((s.v b).lane ty (src i))), 0)))

/-! ### Reductions (R190 to R192) -/

/-- `vred` (R191). -/
def execVred (op : VComb) (ty : Ty) (a : GReg) (b : Sys2Proof.VReg) (mask : LaneMask) (rnd : Fin 5) (s : State) : Host.Outcome State Fault Refusal :=
  let bits := s.maskBits mask
  .next (match s.sourceTrap (s.reads ty mask [b]) with
    | some t => s.trapWith t
    | none =>
      let xs := (List.range ty.lanes).map (fun i =>
        if laneActive mask bits i then some (combOperand op ty ((s.v b).lane ty i)) else none)
      let (r, fl) := combTree op ty (s.rmode rnd.val) (Nat.log2 ty.lanes) xs
      s.acceptVector [.g a.val (redWord op ty (r.getD (emptyResult op ty))), .flags fl])
/-- `vscan` (R192). -/
def execVscan (op : VComb) (ty : Ty) (a b : Sys2Proof.VReg) (mask : LaneMask) (rnd : Fin 5) (s : State) : Host.Outcome State Fault Refusal :=
  let act := activeLanes ty mask (s.maskBits mask)
  .next (match s.sourceTrap (s.reads ty mask [b]) with
    | some t => s.trapWith t
    | none =>
      let (res, fl) := scanLanes op ty (s.rmode rnd.val) (act.map (fun i => (i, (s.v b).lane ty i))) none
      s.acceptVector [
        .v (s.vphysOf a) (VReg.write (s.v a) ty (fun i => (Store.find? res i).isSome) (fun i => (Store.find? res i).getD 0)
          (fun _ => descFor ty)), .flags fl])

/-! ### Lane moves (R194) -/

/-- `vperm` (R194). -/
def execVperm (ty : Ty) (a b c : Sys2Proof.VReg) (mask : LaneMask) (s : State) : Host.Outcome State Fault Refusal :=
  .next (s.moveOp ty a mask (s.reads ty mask [c]) (fun i => (1, b, (s.v c).lane ty i % Nat.max 1 ty.lanes)))
/-- `vshuf` (R194, R193): within each block. -/
def execVshuf (ty : Ty) (a b c : Sys2Proof.VReg) (mask : LaneMask) (s : State) : Host.Outcome State Fault Refusal :=
  let n := Nat.max 1 ty.perBlock
  .next (s.moveOp ty a mask (s.reads ty mask [c]) (fun i => (1, b, i / n * n + (s.v c).lane ty i % n)))
/-- `vbcast` (R194). -/
def execVbcast (ty : Ty) (a : Sys2Proof.VReg) (b : GReg) (mask : LaneMask) (s : State) : Host.Outcome State Fault Refusal :=
  .next (s.laneOp ty a mask [] (fun _ => ((s.g b.val).toNat % 2 ^ ty.width, 0)))
/-- `vext` (R194): an index beyond the lanes gives 0. -/
def execVext (ty : Ty) (a : GReg) (b : Sys2Proof.VReg) (n : LaneIndex) (s : State) : Host.Outcome State Fault Refusal :=
  let i := match n with | .reg c => (s.g c.val).toNat | .imm k => k.toNat
  .next (
    if ty.lanes ≤ i then s.acceptVector [.g a.val 0]
    else match s.poisonedBlock (s.v b) [laneBlock ty i] with
      | some t => s.trapWith t
      | none => s.acceptVector [.g a.val (extend ty ((s.v b).lane ty i))])
/-- `vins` (R194): an index beyond the lanes has no effect; descriptors are unchanged. -/
def execVins (ty : Ty) (a : Sys2Proof.VReg) (b : GReg) (n : LaneIndex) (s : State) : Host.Outcome State Fault Refusal :=
  let i := match n with | .reg c => (s.g c.val).toNat | .imm k => k.toNat
  .next (
    if ty.lanes ≤ i then s.acceptVector []
    else
      let old := s.v a
      let lo := lanePos ty i
      let x := old.lanes.toNat
      let w := 2 ^ ty.width
      let new := x - x / 2 ^ lo % w * 2 ^ lo + (s.g b.val).toNat % w * 2 ^ lo
      s.acceptVector [.v (s.vphysOf a) { old with lanes := BitVec.ofNat 4096 new }])
/-- `vmov` (R194): bits and descriptors, without consuming. -/
def execVmov (a b : Sys2Proof.VReg) (s : State) : Host.Outcome State Fault Refusal :=
  .next (s.acceptVector [.v (s.vphysOf a) (s.v b)])

/-! ### Masks and descriptors (R195, R196) -/

/-- `mand` (R195). -/
def execMand (ty : Ty) (a b c : MReg) (s : State) : Host.Outcome State Fault Refusal :=
  .next (s.acceptVector [.m a.val (maskResult ty (s.slot.mr b.val &&& s.slot.mr c.val))])
/-- `mor` (R195). -/
def execMor (ty : Ty) (a b c : MReg) (s : State) : Host.Outcome State Fault Refusal :=
  .next (s.acceptVector [.m a.val (maskResult ty (s.slot.mr b.val ||| s.slot.mr c.val))])
/-- `mnot` (R195). -/
def execMnot (ty : Ty) (a b : MReg) (s : State) : Host.Outcome State Fault Refusal :=
  .next (s.acceptVector [.m a.val (maskResult ty (~~~(s.slot.mr b.val)))])
/-- `mpop` (R195). -/
def execMpop (ty : Ty) (a : GReg) (b : MReg) (s : State) : Host.Outcome State Fault Refusal :=
  .next (s.acceptVector [.g a.val (BitVec.ofNat 64 (Instr.popLow (s.slot.mr b.val).toNat ty.lanes))])
/-- `mfirst` (R195): L when no bit is set. -/
def execMfirst (ty : Ty) (a : GReg) (b : MReg) (s : State) : Host.Outcome State Fault Refusal :=
  .next (s.acceptVector [.g a.val (BitVec.ofNat 64 (ctzFrom (s.slot.mr b.val).toNat ty.lanes))])
/-- `vblk.rd` (R196). -/
def execVblkRd (a : GReg) (b : Sys2Proof.VReg) (blk : Fin 8) (s : State) : Host.Outcome State Fault Refusal :=
  .next (s.acceptVector [.g a.val (((s.v b).descOf blk.val).setWidth 64)])
/-- `vblk.wr` (R196). -/
def execVblkWr (a : Sys2Proof.VReg) (b : GReg) (sel : BitVec 8) (s : State) : Host.Outcome State Fault Refusal :=
  let x := (s.g b.val).toNat
  let d := BitVec.ofNat 16 x
  let old := s.v a
  .next (
    if 65536 ≤ x || !descOk x then s.trapWith (formatTrap d 1)
    else s.acceptVector [.v (s.vphysOf a) { old with
      desc := Slot.packDesc (fun k => if sel.getLsbD k then d else old.descOf k) }])

end Sys2Proof.Machine
end

