-- ==== Sys2Proof/Machine/Matrix.lean ====
section
/-! DEFINITION. The matrix engine (R197 to R214): accumulators, the weight buffer, the K-block sum. An instruction makes
its checks when it is accepted and takes effect when it retires, in program order (R103, R205, R212). -/

namespace Sys2Proof.Machine

/-! ### The sum of a K-block (R159 to R161) -/

/-- What a K-block adds. -/
inductive KSum where
  | invalid
  | inf (neg : Bool)
  | exact (x e : Int)
  deriving DecidableEq, Repr

/-- The elements of a block's 64 bytes (R152). -/
def blockElements (t : Ty) (x : Nat) : List Nat := (List.range t.perBlock).map (fun i => x / 2 ^ (t.width * i) % 2 ^ t.width)

/-- A value as an infinity. -/
def infSign : Num.Val → Option Bool
  | .inf n => some n
  | _ => none

/-- The value of an element: its decoding, or a float's own value; `none` for NaR (R153, R161). -/
def elementVal (t : Ty) (x : Nat) : Option Num.Val :=
  if t.isScaled then (decodeElement t 0 x).map (fun v => .fin v.1 v.2.1 v.2.2) else some (Num.unpack (Num.fmtOf t) x)

/-- The product of two elements; `none` when it is invalid. -/
def productVal (t : Ty) (x y : Nat) : Option Num.Val :=
  match elementVal t x, elementVal t y with
  | some (.fin a s e), some (.fin b u d) => some (.fin (a != b) (s * u) (e + d))
  | some (.inf a), some (.inf b) => some (.inf (a != b))
  | some (.inf a), some (.fin b u _) => if u == 0 then none else some (.inf (a != b))
  | some (.fin a s _), some (.inf b) => if s == 0 then none else some (.inf (a != b))
  | _, _ => none

/-- The exact sum of the products of a K-block, times 2^scale. -/
def kSum (t : Ty) (scale : Int) (l : List (Nat × Nat)) : KSum :=
  match l.mapM (fun p => productVal t p.1 p.2) with
  | none => .invalid
  | some ps =>
    let infs := ps.filterMap infSign
    if infs.any id && infs.any (!·) then .invalid
    else match infs with
      | n :: _ => .inf n
      | [] =>
        let (x, e) := ps.foldl (fun (a : Int × Int) p => match p with
          | .fin n s e => Num.dyAdd a.1 a.2 (Num.sg n s) e
          | _ => a) (0, 0)
        .exact x (e + scale)

/-- A block with its descriptor. -/
abbrev KBlock := BitVec 16 × List Nat

/-- One K-block applied to an element (R159, R204): `sub` subtracts. -/
def macBlock (t : Ty) (sub : Bool) (acc : Nat) (a b : KBlock) : Nat :=
  if State.isZeroBlock a.1 || State.isZeroBlock b.1 then acc
  else
    let v := Num.unpack Num.f32 acc
    if v.isNan then Num.f32.qnan
    else match kSum t (scaleOf a.1 + scaleOf b.1) (a.2.zip b.2) with
      | .invalid => Num.f32.qnan
      | .inf n => (Num.addV Num.f32 .rne v (.inf (n != sub))).1
      | .exact x e =>
        if x == 0 then acc
        else match v with
          | .fin n s d =>
            let (y, f) := Num.dyAdd (if sub then -x else x) e (Num.sg n s) d
            (Num.roundInt Num.f32 .rne false y f).1
          | _ => acc

/-! ### Panels (R200) -/

namespace Panel

/-- Units of a panel. -/
def size (p : Panel) : Nat := if p.sp then 5 else 8

/-- A column block's descriptor. -/
def descOf (p : Panel) (n : Nat) : BitVec 16 := Store.get 0 p.desc n

/-- The elements of column n: of the 64 bytes, or expanded from the 2:4 block (R155). -/
def column (p : Panel) (t : Ty) (n : Nat) : List Nat :=
  let byteAt (o : Nat) : Nat := (Store.get 0 p.data (64 * n + o)).toNat
  if p.sp then (List.range 64).map (Num.expand24 byteAt)
  else blockElements t (leNat ((List.range 64).map (fun o => BitVec.ofNat 8 (byteAt o))))

end Panel

/-- A panel of 64 column blocks: payloads and descriptors. -/
def makePanel (sp : Bool) (l : List (List Byte × BitVec 16)) : Panel :=
  let keep := if sp then 40 else 64
  { sp := sp
    data := (l.zipIdx.flatMap (fun x => (x.1.1.take keep).zipIdx.map (fun b => (64 * x.2 + b.2, b.1)))).filter (fun e => e.2 != 0)
    desc := (l.zipIdx.map (fun x => (x.2, x.1.2))).filter (fun e => e.2 != 0) }

/-- The panels of `n` K-blocks from a unit, each with its kind's length (R202); `none` ends the walk (R203). -/
def walkPanels (m : Store Panel) : Nat → Nat → List (Option Panel)
  | 0, _ => []
  | n + 1, u =>
    match (if u ≤ 127 then Store.find? m u else none) with
    | none => [none]
    | some p => some p :: walkPanels m n (u + p.size)

/-- A panel is written: every panel that shares a unit with it becomes absent (R200). -/
def placePanel (m : Store Panel) (u : Nat) (p : Panel) : Store Panel :=
  Store.set (m.filter (fun e => !(e.1 < u + p.size && u < e.1 + e.2.size))) u p

namespace State

/-! ### Acceptance -/

/-- The first of three values that is not a multiple of 64 (R201, R203, R209). -/
def unaligned64 (l : List Word) : Option Trap := (l.find? (fun x => x.toNat % 64 != 0)).map (fun x => ⟨3, x⟩)

/-- The Aster entry of the task of a slot, while it is speculative. -/
def specEntry (s : State) (sid : Nat) : Option Entry := if s.specAt sid then s.entryOf sid else none

/-- The descriptor of a block as an engine path of a slot reads it: through the commit buffer of a speculative task, what
the path has fetched ahead, or the home's (R323, R213). `r` is the slot and the path; none when its task has left. -/
def engineDesc (s : State) (r : Option (Nat × Path)) (l : Loc) : BitVec 16 :=
  match r with
  | none => s.descAt l
  | some (sid, p) => match s.specEntry sid, l with
    | some e, .glob pa => s.specDesc e (pa / 64)
    | _, _ => s.pathDesc sid p l

/-- Where blocks lie, with their descriptors now, or the first trap. -/
def blocksAt (s : State) (l : List Word) (k : Access) : Except Trap (List (Loc × BitVec 16)) :=
  l.mapM (fun va => match s.locate s.cur va 64 k with
    | .ok x => .ok (x, s.engineDesc (some (s.cur, .mop)) x)
    | .error t => .error t)

/-- The machine check or the format mismatch of a source block (R203 step 5, R209). -/
def blockTrap (s : State) (t : Ty) (x : Loc × BitVec 16) : Option Trap :=
  if isPoison x.2 then some ⟨14, BitVec.ofNat 64 (s.originOf s.cur x.1 false (s.isFar x.1) + x.2.toNat / 256)⟩
  else if formatAccepted t x.2 then none else some (formatTrap x.2 1)

/-- The checks of a panel (R203 step 6). -/
def panelTrap (s : State) (t : Ty) : Option Panel → Option Trap
  | none => some (formatTrap 0 2)
  | some p =>
    let cols := (List.range 64).map p.descOf
    match cols.find? isPoison with
    | some d => some ⟨14, BitVec.ofNat 64 (coreInCluster s.cur * 2 ^ 8 + d.toNat / 256)⟩
    | none =>
      let want : Nat := if t == .t8 then 0x0A else 0x0B
      let good (d : BitVec 16) : Bool :=
        if p.sp then (t == .t8 || t == .i8) && (d.toNat % 256 == want || (isZeroBlock d && formatOk (d.toNat % 256)))
        else formatAccepted t d
      (cols.find? (fun d => !good d)).map (fun d => formatTrap d 2)

/-- The translations that a list of blocks used are kept, and the accesses pass the caches of the path (R421, R247). -/
def passBlocks (s : State) (vas : List Word) (l : List (Loc × BitVec 16)) (nu : Nat) : State :=
  (vas.foldl (fun t va => t.filled va) s).useCode (l.map (fun x => (x.1, 64))) nu true atHomeOnly

/-- Change the ownership of an accumulator (R199). -/
def setOwn (s : State) (a : Nat) (b : Bool) : State :=
  s.upd (fun t => { t with own := if b then t.own ||| ((1 : BitVec 2) <<< a) else t.own &&& ~~~((1 : BitVec 2) <<< a) })

/-- An accumulator is owned. -/
def owns (s : State) (a : AReg) : Bool := s.slot.own.getLsbD a.val

/-- The slot has a matrix instruction that satisfies a test, accepted and not retired. -/
def mqAny (s : State) (p : Instr → Bool) : Bool := s.slot.mq.any (fun x => p x.i)

/-- The instruction loads panels. -/
def isMldb : Instr → Bool
  | .mldb .. => true
  | _ => false

/-- The instruction writes accumulator a (R212). -/
def writesAcc (a : Nat) : Instr → Bool
  | .mclr b | .mwr b .. | .msum b .. | .mmac _ b .. | .mmacs _ b .. => b.val == a
  | _ => false

/-! ### Retirement -/

/-- The bytes of a block on an engine path: contributors are combined first (R391); a speculative task's blocks are
registered and read through its commit buffer (R325, R326); else what the path has fetched ahead counts (R213, R240). -/
def engineBlock (s : State) (r : Option (Nat × Path)) (l : Loc) (n : Nat) : State × List Byte :=
  match r.bind (fun x => s.specEntry x.1), l with
  | some e, .glob pa =>
    let pkg := pkgOf ((r.map (·.1)).getD 0)
    let t := (blocksOf pa n).foldl (fun t b => t.readBlock pkg e.id b) s
    match t.entryAt pkg e.id with
    | some e => (t, (List.range n).map (fun i => t.specByte e (pa + i)))
    | none => (t, t.readLocs l n)
  | _, _ =>
    let t := match l with
      | .glob pa => s.settleRange pa n
      | .scr _ _ => s
    (t, match r with
      | some (sid, p) => t.pathBytes sid p l n
      | none => t.readLocs l n)

/-- The bytes of a list of blocks that the matrix-operand path of a slot reads. -/
def engineBlocks (s : State) (sid : Nat) (l : List Loc) : State × List (List Byte) :=
  l.foldl (fun (x : State × List (List Byte)) y =>
    let (t, b) := x.1.engineBlock (some (sid, .mop)) y 64
    (t, x.2 ++ [b])) (s, [])

/-- Places in a list of blocks of those found poisoned since the instruction was accepted (R111, R398). -/
def lostBlocks (s : State) (sid : Nat) (bs : List (Loc × BitVec 16)) : List Nat :=
  bs.zipIdx.filterMap (fun x => if isPoison (s.engineDesc (some (sid, .mop)) x.1.1) then some x.2 else none)

/-- The deferred machine check of the first of them (R111, R399). -/
def lostCheck (s : State) (sid : Nat) (pc : Word) (bs : List (Loc × BitVec 16)) : List Nat → State
  | [] => s
  | n :: _ =>
    let l := (bs.getD n (.glob 0, 0)).1
    s.deferAt sid (BitVec.ofNat 64 (s.originOf sid l false (s.isFar l) + (s.engineDesc (some (sid, .mop)) l).toNat / 256)) pc

/-- A panel's worth of `mldb` (R201). -/
def loadPanels (s : State) (sid u kb : Nat) (sp : Bool) (bs : List (Loc × BitVec 16)) : State :=
  let (t, data) := s.engineBlocks sid (bs.map (·.1))
  let all := data.zip (bs.map (fun x => t.engineDesc (some (sid, .mop)) x.1))
  (List.range kb).foldl (fun t p =>
    t.updSlot sid (fun x => { x with
      panels := placePanel x.panels (u + p * (if sp then 5 else 8)) (makePanel sp ((all.drop (64 * p)).take 64)) })) t

/-- The K-blocks of `mmac` and `mmacs` in ascending order (R204): blocks of A by 64 k + m. A row of A or a column of B that an
error has spoilt since the acceptance spoils the elements it takes part in (R214, R111). -/
def multiply (s : State) (sid : Nat) (pc : Word) (ty : Ty) (a u kb : Nat) (sub : Bool) (bs : List (Loc × BitVec 16)) : State :=
  let (t, data) := s.engineBlocks sid (bs.map (·.1))
  let lost := t.lostBlocks sid bs
  let rows : List KBlock := (bs.zip data).map (fun x => (x.1.2, blockElements ty (leNat x.2)))
  let ps := (walkPanels (t.slotAt sid).panels kb u).filterMap id
  let cols : List (List KBlock) := ps.map (fun p => (List.range 64).map (fun j => (p.descOf j, p.column ty j)))
  let badRow (i : Nat) : Bool := lost.any (fun n => n % 64 == i)
  let badCol (j : Nat) : Bool := ps.any (fun p => isPoison (p.descOf j))
  (t.updSlot sid (fun x => x.mapAcc a (fun n =>
    if badRow (n / 64) || badCol (n % 64) then Num.f32.qnan
    else (List.range kb).foldl (fun acc k =>
      macBlock ty sub acc (rows.getD (64 * k + n / 64) (0x8000, [])) ((cols.getD k []).getD (n % 64) (0x8000, [])))
      (x.accEl a (n / 64) (n % 64))))).lostCheck sid pc bs lost

/-- The tile of `msum` is added (R209). -/
def addTile (s : State) (sid : Nat) (pc : Word) (a : Nat) (bs : List (Loc × BitVec 16)) : State :=
  let (t, data) := s.engineBlocks sid (bs.map (·.1))
  let lost := t.lostBlocks sid bs
  let rows : List (List Nat) := (bs.zip data).map (fun x =>
    if isZeroBlock x.1.2 then [] else blockElements .f32 (leNat x.2))
  (t.updSlot sid (fun x => x.mapAcc a (fun n =>
    if lost.contains (n / 16) then Num.f32.qnan
    else (Num.add Num.f32 .rne (x.accEl a (n / 64) (n % 64)) ((rows.getD (n / 16) []).getD (n % 16) 0)).1))).lostCheck
    sid pc bs lost

/-- A whole block that the matrix-operand path of a slot writes, after the aborts that it causes (R209, R158, R336). -/
def writeTileBlock (s : State) (sid : Nat) (l : Loc) (bs : List Byte) : State :=
  let t := match l with
    | .glob pa => s.preWrite sid pa 64
    | .scr _ _ => s
  ((t.writeLoc l bs).setDesc l 0x0008).dropAhead sid .mop l 64

/-- The tile of `mtr` is written, rows in ascending order, whole blocks with their descriptors (R209, R158). -/
def writeTile (s : State) (sid a : Nat) (tr : Bool) (bs : List (Loc × BitVec 16)) : State :=
  let x := s.slotAt sid
  let el (n j : Nat) : Nat :=
    let i := n / 4
    let k := n % 4 * 16 + j
    if tr then x.accEl a k i else x.accEl a i k
  bs.zipIdx.foldl (fun t b => t.writeTileBlock sid b.1.1 ((List.range 16).flatMap (fun j => leBytes (el b.2 j) 4))) s

/-- The lanes of register r of `mrd` (R207). -/
def rowLanes (t : Slot) (a q : Nat) : VBits :=
  BitVec.ofNat 4096 ((List.range 128).foldl (fun x l => x + t.accEl a (2 * q + l / 64) (l % 64) * 2 ^ (32 * l)) 0)

/-- Rows written by `mwr` (R207): into an accumulator that was not owned, over zeros. -/
def writeRows (t : Slot) (a q : Nat) (owned : Bool) (regs : List VBits) : Slot :=
  t.mapAcc a (fun n =>
    let r := n / 128
    if q ≤ r && r < q + regs.length then (regs.getD (r - q) 0).toNat / 2 ^ (32 * (n % 128)) % 2 ^ 32
    else if owned then t.accEl a (n / 64) (n % 64) else 0)

/-- The result of `mcvt` (R208): its register and its flags. -/
def convertRows (t : Slot) (ty : Ty) (a q : Nat) (sc : ScaleOp) (sat : Bool) (rm : Num.Rm) : VReg × Num.Flags :=
  let r := ty.lanes / 64
  let val (l : Nat) : Nat := t.accEl a (r * q + l / 64) (l % 64)
  let scale (b : Nat) : Option Int := match sc with
    | .given x => some x.toInt
    | .auto => autoScale ty ((List.range 64).map (fun j => Num.unpack Num.f32 (val (64 * b + j))))
  let f (l : Nat) : Nat × Num.Flags :=
    if ty.isScaled then match scale (l / 64) with
      | none => (0, 0)
      | some e => encodeElement ty sat rm e (Num.unpack Num.f32 (val l))
    else Num.cvtFF (Num.fmtOf ty) Num.f32 rm (val l)
  let res := (List.range ty.lanes).map f
  (VReg.ofBlocks (fun b => (VReg.payload ty b (fun l => (res.getD l (0, 0)).1),
      if ty.isScaled then mkDesc (formatOf ty) ((scale b).getD (-128)) else descFor ty)),
    res.foldl (fun x y => x ||| y.2) 0)

/-- An accepted matrix instruction takes effect. -/
def runMatrix (s : State) (sid : Nat) (x : Accepted) : State :=
  let t := s.slotAt sid
  match x.i with
  | .mclr a => s.updSlot sid (fun t => t.mapAcc a.val (fun _ => 0))
  | .mldb u _ _ _ kb sp _ => s.loadPanels sid u.val kb.val sp x.blocks
  | .mmac ty a _ _ u kb => s.multiply sid x.pc ty a.val u.val kb.val false x.blocks
  | .mmacs ty a _ _ u kb => s.multiply sid x.pc ty a.val u.val kb.val true x.blocks
  | .mrd .. => s.updSlot sid (fun t => (x.dst.zip x.regs).foldl (fun t y =>
      t.setVphys y.1 { lanes := y.2, desc := Slot.packDesc (fun _ => 0x0008) }) t)
  | .mwr a _ q _ => s.updSlot sid (fun t => writeRows t a.val q.val x.owned x.regs)
  | .mcvt ty _ a q sc sat rnd =>
    let (v, fl) := convertRows t ty a.val q.val sc sat (Num.rmOfRnd rnd.val x.frm.toNat)
    s.updSlot sid (fun t => (x.dst.foldl (fun t n => t.setVphys n v) t).orFlags fl)
  | .msum a _ _ => s.addTile sid x.pc a.val x.blocks
  | .mtr a _ _ tr => s.writeTile sid a.val tr x.blocks
  | _ => s

/-- The oldest accepted matrix instruction of a slot retires. -/
def retireMatrix (s : State) (sid : Nat) : State :=
  match (s.slotAt sid).mq with
  | [] => s
  | x :: rest => (s.runMatrix sid x).updSlot sid (fun t => ({ t with mq := rest }).dec .tl)

/-- Every accepted matrix instruction of a slot retires, `n` at most. -/
def retireAll (sid : Nat) : Nat → State → State
  | 0, s => s
  | n + 1, s => if (s.slotAt sid).mq.isEmpty then s else retireAll sid n (s.retireMatrix sid)

/-- The engine accepts an instruction: it counts on `tl` until it retires (R211). -/
def acceptMatrix (s : State) (x : Accepted) : State :=
  let s1 := s.upd (fun t => ({ t with mq := t.mq ++ [{ x with pc := t.pc, frm := t.csr.frm }] }).inc .tl)
  (if s1.lag then s1 else retireAll s1.cur s1.slot.mq.length s1).retire

/-- A speculative task makes an access to a scratchpad only once it is irrevocable, and registers the blocks that it reads
(R327, R326). -/
def specBlocks (s : State) (l : List (Loc × BitVec 16)) (f : State → State) : State :=
  if s.specAt s.cur && l.any (fun x => x.1.isScr) then s.waitFirm
  else match s.specEntry s.cur with
    | none => f s
    | some e =>
      let bs := l.filterMap (fun x => match x.1 with
        | .glob pa => some (pa / 64)
        | .scr _ _ => none)
      if s.readRoom e bs then f (bs.foldl (fun t b => t.readBlock (pkgOf t.cur) e.id b) s) else s.waitFirm

/-! ### Instructions -/

/-- `mmac` and `mmacs` (R202 to R205). -/
def multiplyAccumulate (s : State) (i : Instr) (ty : Ty) (a : AReg) (b c : GReg) (u : Fin 128) (kb : Fin 64) : State :=
  if s.mqAny isMldb then s.stall
  else if !s.owns a then s.illegal 6
  else match unaligned64 [s.g b.val, s.g c.val] with
    | some t => s.trapWith t
    | none =>
      let vas := (List.range kb.val).flatMap (fun k => (List.range 64).map (fun m =>
        s.g b.val + BitVec.ofNat 64 m * s.g c.val + BitVec.ofNat 64 (64 * k)))
      match s.blocksAt vas .load with
      | .error t => s.trapWith t
      | .ok bs => match bs.findSome? (s.blockTrap ty) with
        | some t => s.trapWith t
        | none => match (walkPanels s.slot.panels kb.val u.val).findSome? (s.panelTrap ty) with
          | some t => s.trapWith t
          | none => s.specBlocks bs (fun s => (s.passBlocks vas bs 0).acceptMatrix { i := i, blocks := bs })

/-- The addresses of a tile's blocks, row by row (R209). -/
def tileBlocks (b c : Word) : List Word :=
  (List.range 256).map (fun n => b + BitVec.ofNat 64 (n / 4) * c + BitVec.ofNat 64 (64 * (n % 4)))

/-- The first source block of `mwr` that is poisoned or is no f32 block; a dead register raises no format mismatch. -/
def rowTrap (s : State) (n : Nat) : Option Trap :=
  let v := s.slot.vphys n
  (List.range 8).findSome? (fun b => match s.poisonedBlock v [b] with
    | some t => some t
    | none => if s.slot.isDead n || formatAccepted .f32 (v.descOf b) then none else some (formatTrap (v.descOf b) 1))

end State

open State

/-- `mclr` (R206). -/
def execMclr (a : AReg) (s : State) : Host.Outcome State Fault Refusal :=
  .next ((s.setOwn a.val true).acceptMatrix { i := .mclr a })
/-- `mldb` (R201, R205). -/
def execMldb (u : Fin 128) (b c d : GReg) (kb : Fin 64) (sp : Bool) (nu : NuCode) (s : State) : Host.Outcome State Fault Refusal :=
  let vas := (List.range kb.val).flatMap (fun p => (List.range 64).map (fun n =>
    s.g b.val + BitVec.ofNat 64 p * s.g c.val + BitVec.ofNat 64 n * s.g d.val))
  .next (match unaligned64 [s.g b.val, s.g c.val, s.g d.val] with
    | some t => s.trapWith t
    | none => match s.blocksAt vas .load with
      | .error t => s.trapWith t
      | .ok bs => s.specBlocks bs (fun s =>
          (s.passBlocks vas bs nu.val).acceptMatrix { i := .mldb u b c d kb sp nu, blocks := bs }))
/-- `mmac` (R204). -/
def execMmac (ty : Ty) (a : AReg) (b c : GReg) (u : Fin 128) (kb : Fin 64) (s : State) : Host.Outcome State Fault Refusal :=
  .next (s.multiplyAccumulate (.mmac ty a b c u kb) ty a b c u kb)
/-- `mmacs` (R204). -/
def execMmacs (ty : Ty) (a : AReg) (b c : GReg) (u : Fin 128) (kb : Fin 64) (s : State) : Host.Outcome State Fault Refusal :=
  .next (s.multiplyAccumulate (.mmacs ty a b c u kb) ty a b c u kb)
/-- `mrd` (R207, R212): it reads its rows now; a writer that has not retired makes them unpredictable. -/
def execMrd (a : Sys2Proof.VReg) (b : AReg) (q c1 : Fin 32) (s : State) : Host.Outcome State Fault Refusal :=
  .next (
    if !s.owns b then s.illegal 6
    else
      let rs := (List.range (c1.val + 1)).map (fun r => s.slot.physV (a.val + r))
      let early := s.mqAny (writesAcc b.val)
      s.acceptMatrix {
        i := .mrd a b q c1, dst := rs
        regs := rs.zipIdx.map (fun x =>
          if early then Config.earlyRows s.nonce x.1 else rowLanes s.slot b.val (q.val + x.2)) })
/-- `mwr` (R207). -/
def execMwr (a : AReg) (b : Sys2Proof.VReg) (q c1 : Fin 32) (s : State) : Host.Outcome State Fault Refusal :=
  .next (
    let rs := (List.range (c1.val + 1)).map (fun r => s.slot.physV (b.val + r))
    match rs.findSome? s.rowTrap with
    | some t => s.trapWith t
    | none => (s.setOwn a.val true).acceptMatrix {
        i := .mwr a b q c1, owned := s.owns a
        regs := rs.map (fun n =>
          let v := s.slot.vphys n
          (VReg.ofBlocks (fun k => (if isZeroBlock (v.descOf k) then 0 else v.block k, 0))).lanes) })
/-- `mcvt` (R208). -/
def execMcvt (ty : Ty) (a : Sys2Proof.VReg) (b : AReg) (q : Fin 16) (scale : ScaleOp) (sat : Bool) (rnd : Fin 5) (s : State) :
    Host.Outcome State Fault Refusal :=
  .next (
    if !s.owns b then s.illegal 6
    else s.acceptMatrix { i := .mcvt ty a b q scale sat rnd, dst := [s.vphysOf a] })
/-- `msum` (R209). -/
def execMsum (a : AReg) (b c : GReg) (s : State) : Host.Outcome State Fault Refusal :=
  .next (
    if !s.owns a then s.illegal 6
    else match unaligned64 [s.g b.val, s.g c.val] with
      | some t => s.trapWith t
      | none =>
        let vas := tileBlocks (s.g b.val) (s.g c.val)
        match s.blocksAt vas .load with
        | .error t => s.trapWith t
        | .ok bs => match bs.findSome? (s.blockTrap .f32) with
          | some t => s.trapWith t
          | none => s.specBlocks bs (fun s => (s.passBlocks vas bs 0).acceptMatrix { i := .msum a b c, blocks := bs }))
/-- `mtr` (R209): in a speculative task it waits (R327). -/
def execMtr (a : AReg) (b c : GReg) (tr : Bool) (s : State) : Host.Outcome State Fault Refusal :=
  .next (
    if !s.owns a then s.illegal 6
    else match unaligned64 [s.g b.val, s.g c.val] with
      | some t => s.trapWith t
      | none =>
        let vas := tileBlocks (s.g b.val) (s.g c.val)
        match s.blocksAt vas .store with
        | .error t => s.trapWith t
        | .ok bs => s.firmly (fun s => (s.passBlocks vas bs 0).acceptMatrix { i := .mtr a b c tr, blocks := bs }))
/-- `mfree` (R206, R199). -/
def execMfree (a : AReg) (s : State) : Host.Outcome State Fault Refusal :=
  .next ((s.setOwn a.val false).acceptMatrix { i := .mfree a })

/-- MATRIX_RETIRE: the oldest accepted matrix instruction of a slot retires (R211, R212). -/
def execMatrixRetire (sid : Nat) (s : State) : Host.Outcome State Fault Refusal := .next (s.retireMatrix sid)

end Sys2Proof.Machine
end

