-- ==== Sys2Proof/Machine/Memory.lean ====
section
/-! DEFINITION. The scalar memory instructions (R222 to R224, R227 to R238). -/

namespace Sys2Proof.Machine

namespace State

/-! ### Scalar loads and stores (R222 to R224) -/

/-- A scalar load (R222): plain, acquire, or on the read-only path, which at a scratchpad is a plain one (R224). -/
def scalarLoad (s : State) (ty : Ty) (a : GReg) (m : Addr) (acq ro : Bool) : State :=
  let va := s.addrOf m
  let n := ty.width / 8
  match s.checkAt va n n .load with
  | .error t => s.trapWith t
  | .ok l => (s.filled va).issueLoad va (.g a.val ty) [⟨l, n, 0⟩] acq (ro && !l.isScr) m.nu.val

/-- A scalar store (R222): plain or release. -/
def scalarStore (s : State) (ty : Ty) (a : GReg) (m : Addr) (rel : Bool) : State :=
  let va := s.addrOf m
  let n := ty.width / 8
  match s.checkAt va n n .store with
  | .error t => s.trapWith t
  | .ok l => (s.filled va).issueStore [(va, { loc := l, bytes := leBytes (s.g a.val).toNat n })] rel m.nu.val

/-! ### Full/empty forms (R227 to R229) -/

/-- A full/empty form. -/
inductive FullEmpty where
  | ldf | ldfe | stef | stff
  deriving DecidableEq, Repr

/-- The form writes. -/
def feStores : FullEmpty → Bool
  | .stef | .stff => true
  | _ => false

/-- The tag for which the form waits, on every word: true is full; `none` waits for nothing. -/
def feNeeds : FullEmpty → Option Bool
  | .ldf | .ldfe => some true
  | .stef => some false
  | .stff => none

/-- The first word whose tag keeps the form waiting: core and offset. -/
def feWaits (s : State) (f : FullEmpty) (c o n : Nat) : Option Nat :=
  match feNeeds f with
  | none => none
  | some b => ((List.range (n / 4)).map (fun i => o + 4 * i)).find? (fun x => s.tagAt c x != b)

/-- The tags of n bytes become full or empty, and wake their waiters (R229). -/
def setTags (s : State) (c o n : Nat) (full : Bool) : State :=
  ((List.range (n / 4)).map (fun i => o + 4 * i)).foldl (fun t x => if full then t.fillWord c x else t.drainWord c x) s

/-- The form's indivisible step at the port (R227). -/
def feApply (s : State) (f : FullEmpty) (ty : Ty) (a : GReg) (va : Word) (c o : Nat) : State :=
  let n := ty.width / 8
  match f with
  | .stef | .stff => (s.scrWrite c o (leBytes (s.g a.val).toNat n)).setTags c o n true
  | _ =>
    let d := s.descAt (.scr c o)
    let s1 := if isPoison d
      then s.upd (fun t => t.defer { tval := s.poisonTval s.cur (.scr c o), addr := va })
      else s.setG a.val (extend ty (leNat (s.readLocs (.scr c o) n)))
    if f == .ldfe then s1.setTags c o n false else s1

/-- Counter of a form. -/
def feCtr (s : State) (f : FullEmpty) (va : Word) (l : Loc) : Ctr := if feStores f then s.homeCtr s.cur va l else .ld

/-- A form that must wait spins; in an unsealed region it parks after 256 cycles, once the slot's other counters are 0
(R228, R72). -/
def feSpin (s : State) (f : FullEmpty) (va : Word) (c o word : Nat) (ctr : Ctr) : State :=
  let kind := if f == .stef then 2 else 1
  if s.slot.expired && !s.slot.region.sealed && othersQuiet s.slot ctr && s.delivered s.cur then
    let r := s.slot.rid
    let t := s.contRegion s.cur 3 kind va
    if (t.slotAt s.cur).run == .held then t
    else t.register { rid := r, pkg := pkgOf s.cur, kind := kind, key := scrKey c word / 4 }
  else s.upd (fun t => { t with spin := some ⟨kind, va, some (c, o)⟩ })

/-- Where a full/empty form lies: a form that spins stays at the port that it reached when it issued (R216, R278). -/
def feWindow (s : State) (f : FullEmpty) (va : Word) (n : Nat) : Except Trap (Option (Nat × Nat × Bool)) :=
  match s.slot.spin.bind (fun p => if p.addr == va then p.port else none) with
  | some (c, o) => .ok (some (c, o, true))
  | none => s.window s.cur va n (if feStores f then .store else .load)

/-- A full/empty form (R227). -/
def fullEmpty (s : State) (f : FullEmpty) (ty : Ty) (a : GReg) (m : Addr) : State :=
  let va := s.addrOf m
  let n := ty.width / 8
  if va.toNat % n != 0 then s.trap 3 va
  else match s.feWindow f va n with
    | .error t => s.trapWith t
    | .ok none => s.trap 7 va
    | .ok (some (c, o, _)) =>
      let l : Loc := .scr c o
      let ctr := s.feCtr f va l
      if s.slot.head.spec then s.waitFirm
      else if s.slot.full ctr || s.scrWaits l || s.scored l n then s.stall
      else match s.feWaits f c o n with
        | some w => s.feSpin f va c o w ctr
        | none =>
          let t := s.feApply f ty a va c o
          if f == .ldf then t.retire else t.retireSeal

/-! ### Lines: prefetch, clean, invalidate (R237) -/

/-- The core's cache writes the dirty words of a line back, through to the memory side; it keeps the line. -/
def cleanLine (s : State) (cache line : Nat) : State :=
  let s1 := s.flushUpdate cache line
  let mine := s1.owners.filter (fun e => e.1 / 256 == line && e.2 == cache)
  let s2 := mine.foldl (fun t e => match t.l1At cache e.1 with
    | some w => t.l2WriteBytes (4 * e.1) (leBytes w.data.toNat 4)
    | none => t) s1
  s2.l2Flush line

/-- The core's cache drops a line; one that breaks its promise is reported (R255). -/
def dropLine (s : State) (cache line : Nat) : State :=
  let key := setKey .l1 cache line
  let s0 := match List.find? (fun e => e.2.line == line) (Store.get [] s.l1Sets key) with
    | some (_, w) => if s.broken cache w then s.report w.dom false else s
    | none => s
  let s1 := s0.l1Evict cache line
  s1.putSet .l1 key ((Store.get [] s1.l1Sets key).filter (fun e => e.2.line != line))

/-- `cln` and `inv`: as a store by home, with the load checks of an address (R237). -/
def lineOp (s : State) (m : Addr) (drop : Bool) : State :=
  let va := s.addrOf m
  if va.toNat / 2 ^ 32 == 0xFFFFFF00 then s.retire
  else match s.translate (coreOf s.cur) s.slot.rid.launch va .load with
    | .error t => s.trapWith t
    | .ok pa =>
      let l : Loc := .glob pa
      if s.slot.head.spec then s.waitFirm
      else if s.slot.full (s.homeCtr s.cur va l) || s.conflict (.glob (pa / 1024 * 1024)) 1024 false then s.stall
      else
        let s1 := s.filled va
        let s2 := s1.cleanLine s1.cache (lineOf pa)
        (if drop then s2.dropLine s2.cache (lineOf pa) else s2).retire

/-- `pf`: the line comes toward the L1 (R237). -/
def prefetch (s : State) (m : Addr) : State :=
  let va := s.addrOf m
  if va.toNat / 2 ^ 32 == 0xFFFFFF00 then s.retire
  else match s.translate (coreOf s.cur) s.slot.rid.launch va .load with
    | .error _ => (s.failedWalk (coreOf s.cur) s.slot.rid.launch va).retire
    | .ok pa =>
      let s1 := (s.filled va).useCode [(.glob (pa / 1024 * 1024), 1024)] m.nu.val false s.hitsL1
      (if s1.isLocal pa then
        s1.loadWords s1.cache ((List.range 8).map (fun i => lineOf pa * 256 + 32 * i)) else s1).retire

/-! ### Descriptors and barriers (R236, R238) -/

/-- `stbd` may write the descriptor (R236): poison, or a legal one. -/
def stbdOk (x : Word) : Bool :=
  x.toNat < 65536 && (x.toNat % 256 == 0xFF || descOk x.toNat)

/-- `bbar` at a doubleword of the own scratchpad (R238). -/
def setBarrier (s : State) (c o : Nat) (count : Nat) : State :=
  (s.scrWrite c o (leBytes (count % 2 ^ 63) 8)).setTags c o 8 (count % 2 ^ 63 == 0)

/-- `bbar` (R238): the own window only. -/
def barrier (s : State) (a : GReg) (m : Addr) : State :=
  let va := s.addrOf m
  let lo := va.toNat % 2 ^ 32
  if va.toNat % 8 != 0 then s.trap 3 va
  else if va.toNat / 2 ^ 32 != 0xFFFFFF00 || (0x1000000 ≤ lo && lo < 0x1200000) then s.trap 7 va
  else match s.window s.cur va 8 .store with
    | .error t => s.trapWith t
    | .ok none => s.trap 7 va
    | .ok (some (c, o, _)) =>
      if s.slot.head.spec then s.waitFirm
      else if s.slot.full .st || s.scrWaits (.scr c o) || s.scored (.scr c o) 8 then s.stall
      else (s.setBarrier c o (s.g a.val).toNat).retire

end State

open State

/-- `ld` (R222). -/
def execLd (ty : Ty) (a : GReg) (m : Addr) (s : State) : Host.Outcome State Fault Refusal :=
  .next (s.scalarLoad ty a m false false)
/-- `ld.acq` (R223). -/
def execLdAcq (ty : Ty) (a : GReg) (m : Addr) (s : State) : Host.Outcome State Fault Refusal :=
  .next (s.scalarLoad ty a m true false)
/-- `ldc` (R224). -/
def execLdc (ty : Ty) (a : GReg) (m : Addr) (s : State) : Host.Outcome State Fault Refusal :=
  .next (s.scalarLoad ty a m false true)
/-- `st` (R222). -/
def execSt (ty : Ty) (a : GReg) (m : Addr) (s : State) : Host.Outcome State Fault Refusal :=
  .next (s.scalarStore ty a m false)
/-- `st.rel` (R223). -/
def execStRel (ty : Ty) (a : GReg) (m : Addr) (s : State) : Host.Outcome State Fault Refusal :=
  .next (s.scalarStore ty a m true)
/-- `ldf` (R227). -/
def execLdf (ty : Ty) (a : GReg) (m : Addr) (s : State) : Host.Outcome State Fault Refusal :=
  .next (s.fullEmpty .ldf ty a m)
/-- `ldfe` (R227). -/
def execLdfe (ty : Ty) (a : GReg) (m : Addr) (s : State) : Host.Outcome State Fault Refusal :=
  .next (s.fullEmpty .ldfe ty a m)
/-- `stef` (R227). -/
def execStef (ty : Ty) (a : GReg) (m : Addr) (s : State) : Host.Outcome State Fault Refusal :=
  .next (s.fullEmpty .stef ty a m)
/-- `stff` (R227). -/
def execStff (ty : Ty) (a : GReg) (m : Addr) (s : State) : Host.Outcome State Fault Refusal :=
  .next (s.fullEmpty .stff ty a m)
/-- `pf` (R237). -/
def execPf (m : Addr) (s : State) : Host.Outcome State Fault Refusal := .next (s.prefetch m)
/-- `cln` (R237). -/
def execCln (m : Addr) (s : State) : Host.Outcome State Fault Refusal := .next (s.lineOp m false)
/-- `inv` (R237). -/
def execInv (m : Addr) (s : State) : Host.Outcome State Fault Refusal := .next (s.lineOp m true)
/-- `ldbd` (R236): a read of the descriptor, which does not consume. -/
def execLdbd (a : GReg) (m : Addr) (s : State) : Host.Outcome State Fault Refusal :=
  .next (
    let va := s.addrOf m
    match s.checkAt va 64 64 .load with
    | .error t => s.trapWith t
    | .ok l => (s.filled va).issueLoad va (.desc a.val) [⟨l, 64, 0⟩] false false m.nu.val)
/-- `stbd` (R236): the descriptor alone. -/
def execStbd (a : GReg) (m : Addr) (s : State) : Host.Outcome State Fault Refusal :=
  .next (
    let va := s.addrOf m
    match s.checkAt va 64 64 .store with
    | .error t => s.trapWith t
    | .ok l =>
      let x := s.g a.val
      if !stbdOk x then s.trap 9 (BitVec.ofNat 64 (x.toNat % 65536))
      else (s.filled va).issueStore [(va, { loc := l, bytes := [], desc := some (x.truncate 16) })] false m.nu.val)
/-- `bbar` (R238). -/
def execBbar (a : GReg) (m : Addr) (s : State) : Host.Outcome State Fault Refusal := .next (s.barrier a m)

end Sys2Proof.Machine
end

