-- ==== Sys2Proof/Machine/Copy.lean ====
section
/-! DEFINITION. The copy engine: copies (R242 to R244), gather, scatter and compaction (R410 to R414). A command is
checked when it is accepted; its pieces are written one at a time (COPY_PIECE_WRITE), or all at once where the step
leaves nothing in flight (log 3). -/

namespace Sys2Proof.Machine

/-- Next-use codes of a command: destination and source. -/
def copyNu : Instr → Nat × Nat
  | .cp _ _ _ _ d s | .cp2d _ _ _ _ _ _ d s | .cpc _ _ _ _ d s | .cps _ _ _ _ _ d s => (d.val, s.val)
  | .cpl _ _ _ _ d => (d.val, 0)
  | .gth _ _ _ _ _ _ _ d s | .sct _ _ _ _ _ _ _ d s | .cmpx _ _ _ _ _ _ _ d s => (d.val, s.val)
  | _ => (0, 0)

/-- Elements, element type and the option bit of a gather-path command. -/
def gatherShape : Instr → Nat × Ty × Bool
  | .gth t _ _ _ _ n x _ _ | .sct t _ _ _ _ n x _ _ | .cmpx t _ _ _ _ n x _ _ => (n.toNat + 1, t, x)
  | _ => (0, .none, false)

/-- A part of a piece in one destination block: addresses and bytes. -/
structure Chunk where
  dva : Word
  sva : Word
  n   : Nat
  deriving DecidableEq, Repr

namespace Copy

/-- Bytes that a byte copy moves. -/
def bytes (c : Copy) : Nat := c.rows * c.rowBytes

/-- The next piece of a byte copy: at most one 128-byte sector of its row, by destination block (R244). -/
def chunks (c : Copy) : List Chunk :=
  let rb := Nat.max 1 c.rowBytes
  let row := c.done / rb
  let off := c.done % rb
  let dva := c.a + BitVec.ofInt 64 (row * c.strides.1 + off)
  let sva := c.b + BitVec.ofInt 64 (row * c.strides.2 + off)
  let n := Nat.min (rb - off) (128 - dva.toNat % 128)
  let n1 := Nat.min n (64 - dva.toNat % 64)
  ⟨dva, sva, n1⟩ :: (if n1 < n then [⟨dva + BitVec.ofNat 64 n1, sva + BitVec.ofNat 64 n1, n - n1⟩] else [])

/-- A byte copy that reads memory. -/
def reads (c : Copy) : Bool := match c.i with | .cpl .. => false | _ => true

/-- A destination byte that lies in the source of the command (R243). -/
def selfOverlap (c : Copy) (dva : Word) : Bool :=
  c.reads && (List.range c.rows).any (fun r =>
    let lo : Int := (match c.dst, c.src with
      | some (x, p), some (y, q) => if x == y then (c.a.toNat : Int) + q - p else -(2 ^ 64)
      | none, none => c.b.toNat
      | _, _ => -(2 ^ 64)) + r * c.strides.2
    lo ≤ dva.toNat && (dva.toNat : Int) < lo + c.rowBytes)

/-- The slot and the path on which a command reads, while its task is in the slot. -/
def reader (c : Copy) : Option (Nat × Path) := if c.live then some (c.sid, if gathers c.i then .gather else .copy) else none

/-- The poison of a destination block is that of the lowest byte that came from a poisoned block: no lower byte of the block
that holds `va` has brought any (R157). -/
def lowest (c : Copy) (va : Nat) : Bool := c.marks.all (fun m => m.1 != va / 64 || va ≤ m.2)

/-- Note that the byte at `va` came from a poisoned block. -/
def mark (c : Copy) (va : Nat) : Copy :=
  if c.lowest va then { c with marks := (va / 64, va) :: c.marks.filter (fun m => m.1 != va / 64) } else c

end Copy

namespace State

/-! ### Where the ends lie -/

/-- The location of an address of an end of a command: a window as resolved when it was accepted, or a translation
(R215, R423). The error is the address. -/
def endLoc (s : State) (c : Copy) (win : Option (Nat × Nat)) (base va : Word) (k : Access) : Except Word Loc :=
  if va.toNat / 2 ^ 32 == 0xFFFFFF00 then
    match win with
    | some (core, off) => .ok (.scr core ((off : Int) + (va - base).toInt).toNat)
    | none => match s.window c.sid va 4 k with
      | .ok (some (core, o, _)) => .ok (.scr core o)
      | _ => .error va
  else match s.translate (coreOf c.sid) c.rid.launch va k with
    | .ok pa => .ok (.glob pa)
    | .error _ => .error va

/-- An element address of a gather or scatter: an unbounded integer (R411). -/
def elementLoc (s : State) (c : Copy) (va : Int) (k : Access) : Except Word Loc :=
  let w := BitVec.ofInt 64 va
  if va < 0 || 2 ^ 64 ≤ va then .error w
  else match s.translate (coreOf c.sid) c.rid.launch w k with
    | .ok pa => .ok (.glob pa)
    | .error _ => .error w

/-- A page that a command uses: the translation is kept (R421). -/
def walked (s : State) (c : Copy) (va : Word) : State := s.tlbFill (coreOf c.sid) c.rid.launch va

/-- A read of n bytes of one block: the bytes and the block's descriptor when it is poisoned. A zero block reads as
zero bits where `zero` says so (R412). -/
def engineRead (s : State) (c : Copy) (l : Loc) (n : Nat) (zero : Bool) : State × List Byte × Option (BitVec 16) :=
  let (t, b) := s.engineBlock c.reader l n
  let d := t.engineDesc c.reader l
  (t, if zero && isZeroBlock d then List.replicate n 0 else b, if isPoison d then some d else none)

/-- A write of part of one block with the descriptor it carries, if any; an irrevocable task's conflicts come first. -/
def engineWrite (s : State) (c : Copy) (l : Loc) (bs : List Byte) (d : Option (BitVec 16)) : State :=
  let s1 := match l with
    | .glob pa => if c.live then s.preWrite c.sid pa bs.length else s
    | .scr _ _ => s
  let s2 := s1.writeLoc l bs
  let s3 := match d with
    | some d => s2.setDesc l d
    | none => s2
  match c.reader with
  | some (sid, p) => s3.dropAhead sid p l bs.length
  | none => s3

/-- An end of a piece passes the caches of its path: each line once (R247, R252). -/
def engineTouch (s : State) (c : Copy) (l : List (Loc × Nat)) (nu : Nat) : State :=
  s.passCaches none c.dom nu (globRanges l) atHomeOnly

/-! ### Barriers (R238) -/

/-- Subtract n bytes from a barrier; the tags become full when the count reaches 0. -/
def subBarrier (s : State) (core off n : Nat) : State :=
  let v := leNat (s.readLocs (.scr core off) 8)
  let c := v % 2 ^ 63
  let under := v / 2 ^ 63 == 1 || c < n
  let s1 := s.scrWrite core off (leBytes (c - n + (if under then 2 ^ 63 else 0)) 8)
  if c != 0 && c ≤ n then (s1.fillWord core off).fillWord core (off + 4) else s1

/-- A piece of a command has been written: its bytes count against the barrier (R244 step 2). -/
def pieceDone (s : State) (c : Copy) (n : Nat) : State :=
  match c.bar with
  | some (core, off) => s.subBarrier core off n
  | none => s

/-- A command has written its last byte (R244 step 3): `cp` falls, its scoreboard range is free. -/
def endCopy (s : State) (k : Nat) (c : Copy) : State :=
  let s1 := { s with copies := Store.erase s.copies k }
  if c.live then s1.updSlot c.sid (fun t => t.dec .cp) else s1

/-! ### Byte copies (R242 to R244) -/

/-- The source words of a chunk. -/
def chunkSource (s : State) (c : Copy) (x : Chunk) : Except Word (List Loc) :=
  if !c.reads then .ok []
  else (List.range (x.n / 4)).mapM (fun i => s.endLoc c c.src c.b (x.sva + BitVec.ofNat 64 (4 * i)) .load)

/-- The descriptor that a block written whole receives: the source block's when that is whole too, the one the
command names. -/
def chunkDesc (s : State) (c : Copy) (x : Chunk) (src : List Loc) : Option (BitVec 16) :=
  if x.n != 64 then none
  else match c.i with
    | .cpl .. => some 0
    | .cps _ _ _ _ d _ _ => some d
    | _ => if x.sva.toNat % 64 == 0 then src.head?.map (s.engineDesc c.reader) else none

/-- The first byte of a chunk that comes from a poisoned block: its place, and that block's descriptor. -/
def chunkBad (s : State) (c : Copy) (src : List Loc) : Option (Nat × BitVec 16) :=
  src.zipIdx.findSome? (fun x =>
    let d := s.engineDesc c.reader x.1
    if isPoison d then some (4 * x.2, d) else none)

/-- The descriptor that a chunk writes (R157): a block written whole takes one; part of a block only poison, and that of its
lowest poisoned byte. -/
def chunkMark (s : State) (c : Copy) (x : Chunk) (src : List Loc) : Option (BitVec 16) :=
  match s.chunkBad c src with
  | some (o, d) => if x.n == 64 || c.lowest (x.dva.toNat + o) then some d else none
  | none => s.chunkDesc c x src

/-- Write one chunk. -/
def writeChunk (s : State) (c : Copy) (x : Chunk) (dst : Loc) (src : List Loc) : State :=
  let (s1, bs) : State × List Byte :=
    if c.reads then src.foldl (fun (acc : State × List Byte) l =>
      let (t, b) := acc.1.engineBlock c.reader l 4
      (t, acc.2 ++ b)) (s, [])
    else (s, (List.range x.n).map (fun i => BitVec.ofNat 8 (c.b.toNat / 2 ^ (8 * ((x.dva.toNat + i) % 8)))))
  let out := bs.zipIdx.map (fun b =>
    let va := x.dva + BitVec.ofNat 64 b.2
    if c.selfOverlap va then Config.overlapByte s.nonce va.toNat else b.1)
  let s2 := (s1.walked c x.dva).engineWrite c dst out (s.chunkMark c x src)
  match c.i, dst with
  | .cpc .., .glob pa => if s2.isLocal pa then s2.cleanLine (s2.cacheOf c.sid) (lineOf pa) else s2
  | _, _ => s2

/-- A chunk with its locations. -/
def resolveChunk (s : State) (c : Copy) (x : Chunk) : Except (Word × Bool) (Chunk × Loc × List Loc) :=
  match s.chunkSource c x with
  | .error va => .error (va, false)
  | .ok src => match s.endLoc c c.dst c.a x.dva .store with
    | .error va => .error (va, true)
    | .ok d => .ok (x, d, src)

/-- The next piece of a byte copy. -/
def bytePiece (s : State) (k : Nat) (c : Copy) : Except (Word × Bool) State :=
  match c.chunks.mapM (s.resolveChunk c) with
  | .error e => .error e
  | .ok l =>
    let n := l.foldl (fun m x => m + x.1.n) 0
    let (dnu, snu) := copyNu c.i
    let s0 := (s.engineTouch c (l.flatMap (fun x => x.2.2.map (fun y => (y, 4)))) snu).engineTouch c
      (l.map (fun x => (x.2.1, x.1.n))) dnu
    let s1 := l.foldl (fun t x => (t.walked c x.1.sva).writeChunk c x.1 x.2.1 x.2.2) s0
    let s2 := s1.pieceDone c n
    let c1 := l.foldl (fun y x => (s.chunkBad c x.2.2).elim y (fun p => y.mark (x.1.dva.toNat + p.1)))
      { c with done := c.done + n }
    .ok (if c.bytes ≤ c1.done then s2.endCopy k c else { s2 with copies := Store.set s2.copies k c1 })

/-! ### Gather, scatter, compaction (R412) -/

/-- Index i of an index list, signed. -/
def readIndex (s : State) (c : Copy) (ix64 : Bool) (i : Nat) : Except (Word × Bool) (State × Int) :=
  let w := if ix64 then 8 else 4
  let va := c.c + BitVec.ofNat 64 (w * i)
  match s.endLoc c c.idx c.c va .load with
  | .error va => .error (va, false)
  | .ok l =>
    let (t, b, _) := (s.walked c va).engineRead c l w true
    .ok (t, signedOf (8 * w) (leNat b))

/-- An element at a location. -/
def readItem (s : State) (c : Copy) (l : Loc) (w : Nat) (at_ : Int) : State × Item :=
  let (t, b, p) := (s.engineTouch c [(l, w)] (copyNu c.i).2).engineRead c l w true
  (t, ⟨at_, leNat b, p⟩)

/-- Gather the elements of a list (R412). -/
def gatherItems (s : State) (c : Copy) (w : Nat) (ix64 : Bool) : List Nat → Except (Word × Bool) (State × List Item)
  | [] => .ok (s, [])
  | i :: rest =>
    match s.readIndex c ix64 i with
    | .error e => .error e
    | .ok (t, x) => match t.elementLoc c (c.b.toNat + x * w) .load with
      | .error va => .error (va, false)
      | .ok l =>
        let (u, y) := (t.walked c (BitVec.ofInt 64 (c.b.toNat + x * w))).readItem c l w i
        match gatherItems u c w ix64 rest with
        | .error e => .error e
        | .ok (v, ys) => .ok (v, y :: ys)

/-- Read packed elements; a scatter reads their indices too (R412). -/
def packedItems (s : State) (c : Copy) (w : Nat) (scatter ix64 : Bool) : List Nat → Except (Word × Bool) (State × List Item)
  | [] => .ok (s, [])
  | i :: rest =>
    match (if scatter then s.readIndex c ix64 i else .ok (s, 0)) with
    | .error e => .error e
    | .ok (t, x) => match t.endLoc c c.src c.b (c.b + BitVec.ofNat 64 (w * i)) .load with
      | .error va => .error (va, false)
      | .ok l =>
        let (u, y) := (t.walked c (c.b + BitVec.ofNat 64 (w * i))).readItem c l w (if scatter then c.a.toNat + x * w else i)
        match packedItems u c w scatter ix64 rest with
        | .error e => .error e
        | .ok (v, ys) => .ok (v, y :: ys)

/-- The elements of one block of a packed destination: their location, bytes and descriptor. -/
def packedBlock (s : State) (c : Copy) (ty : Ty) (va : Word) (l : List Item) : Except (Word × Bool) (Loc × List Byte × Option (BitVec 16)) :=
  match s.endLoc c c.dst c.a va .store with
  | .error v => .error (v, true)
  | .ok d =>
    let bs := l.flatMap (fun x => leBytes x.x (ty.width / 8))
    .ok (d, bs, (l.findSome? (·.poison)).or (if bs.length == 64 then some (descFor ty) else none))

/-- Elements of a packed destination from element `e` that the next piece writes: at most one sector. -/
def sectorCount (c : Copy) (w e left : Nat) : Nat :=
  Nat.min left ((128 - (c.a.toNat + e * w) % 128) / Nat.max 1 w)

/-- The blocks of a piece of packed elements, from element e. -/
def packedPiece (s : State) (c : Copy) (ty : Ty) (e : Nat) (l : List Item) :
    Except (Word × Bool) (List (Loc × List Byte × Option (BitVec 16))) :=
  let w := ty.width / 8
  let va := c.a + BitVec.ofNat 64 (e * w)
  let n := (64 - va.toNat % 64) / Nat.max 1 w
  match s.packedBlock c ty va (l.take n) with
  | .error x => .error x
  | .ok b =>
    if l.length ≤ n then .ok [b]
    else match s.packedBlock c ty (va + BitVec.ofNat 64 (n * w)) (l.drop n) with
      | .error x => .error x
      | .ok b2 => .ok [b, b2]

/-- Write resolved blocks. -/
def writeParts (s : State) (c : Copy) (l : List (Loc × List Byte × Option (BitVec 16))) : State :=
  l.foldl (fun t x => t.engineWrite c x.1 x.2.1 x.2.2) (s.engineTouch c (l.map (fun x => (x.1, x.2.1.length))) (copyNu c.i).1)

/-- Bytes of resolved blocks. -/
def partBytes (l : List (Loc × List Byte × Option (BitVec 16))) : Nat := l.foldl (fun n x => n + x.2.1.length) 0

/-- A command goes on, or ends. -/
def proceed (s : State) (k : Nat) (c : Copy) (done : Nat) (last : Bool) : State :=
  if last then s.endCopy k c else { s with copies := Store.set s.copies k { c with done := done } }

/-- The next piece of a gather. -/
def gatherPiece (s : State) (k : Nat) (c : Copy) (n : Nat) (ty : Ty) (ix64 : Bool) : Except (Word × Bool) State :=
  let w := ty.width / 8
  let m := sectorCount c w c.done (n - c.done)
  match s.gatherItems c w ix64 ((List.range m).map (· + c.done)) with
  | .error e => .error e
  | .ok (t, l) => match t.packedPiece c ty c.done l with
    | .error e => .error e
    | .ok ps => .ok ((((t.walked c (c.a + BitVec.ofNat 64 (c.done * w))).writeParts c ps).pieceDone c (partBytes ps)).proceed k c
        (c.done + m) (n ≤ c.done + m))

/-- The next element of a scatter, after everything has been read. -/
def scatterPiece (s : State) (k : Nat) (c : Copy) (ty : Ty) (l : List Item) : Except (Word × Bool) State :=
  match l[c.done]? with
  | none => .ok (s.endCopy k c)
  | some x => match s.elementLoc c x.at_ .store with
    | .error va => .error (va, true)
    | .ok d =>
      let w := ty.width / 8
      let p := if c.lowest x.at_.toNat then x.poison else none
      let c1 := if x.poison.isSome then c.mark x.at_.toNat else c
      .ok ((((s.walked c (BitVec.ofInt 64 x.at_)).writeParts c [(d, leBytes x.x w, p)]).pieceDone c w).proceed k c1 (c.done + 1)
        (l.length ≤ c.done + 1))

/-- The element numbers that go with the elements of a piece of a compaction. -/
def numberParts (s : State) (c : Copy) (e : Nat) (l : List Item) : Except (Word × Bool) (List (Loc × List Byte × Option (BitVec 16))) :=
  l.zipIdx.mapM (fun x => match s.endLoc c c.idx c.c (c.c + BitVec.ofNat 64 (8 + 4 * (e + x.2))) .store with
    | .error va => .error (va, true)
    | .ok d => .ok (d, leBytes x.1.at_.toNat 4, none))

/-- The next piece of a compaction, after everything has been read: kept elements with their numbers, then the count. -/
def compactPiece (s : State) (k : Nat) (c : Copy) (ty : Ty) (idx : Bool) (l : List Item) : Except (Word × Bool) State :=
  let w := ty.width / 8
  if l.length ≤ c.done then
    match s.endLoc c c.idx c.c c.c .store with
    | .error va => .error (va, true)
    | .ok d => .ok ((((s.walked c c.c).writeParts c [(d, leBytes l.length 8, none)]).pieceDone c 8).endCopy k c)
  else
    let m := sectorCount c w c.done (l.length - c.done)
    let mine := (l.drop c.done).take m
    match s.packedPiece c ty c.done mine with
    | .error e => .error e
    | .ok ps => match (if idx then s.numberParts c c.done mine else .ok []) with
      | .error e => .error e
      | .ok qs =>
        let t := (s.walked c (c.a + BitVec.ofNat 64 (c.done * w))).walked c (c.c + BitVec.ofNat 64 (8 + 4 * c.done))
        .ok (((t.writeParts c (ps ++ qs)).pieceDone c (partBytes (ps ++ qs))).proceed k c (c.done + m) false)

/-- The next piece of a command: the state after it, or the address at which it stops, and whether for a write. -/
def nextPiece (s : State) (k : Nat) (c : Copy) : Except (Word × Bool) State :=
  let (n, ty, x) := gatherShape c.i
  match c.i, c.data with
  | .gth .., _ => s.gatherPiece k c n ty x
  | .sct .., some l => s.scatterPiece k c ty l
  | .cmpx .., some l => s.compactPiece k c ty x l
  | .sct .., none => match s.packedItems c (ty.width / 8) true x (List.range n) with
    | .error e => .error e
    | .ok (t, l) => .ok { t with copies := Store.set t.copies k { c with data := some l } }
  | .cmpx .., none => match s.packedItems c (ty.width / 8) false false (List.range n) with
    | .error e => .error e
    | .ok (t, l) => .ok { t with copies := Store.set t.copies k { c with data := some (l.filter (fun y => y.x != 0)) } }
  | _, _ => s.bytePiece k c

/-- The element at which a gather or a scatter stops has no 64-bit address: its address is an unbounded integer (R411, R423). -/
def farElement (s : State) (c : Copy) : Bool :=
  let far (x : Int) : Bool := x < 0 || 2 ^ 64 ≤ x
  let (n, ty, ix) := gatherShape c.i
  let w := ty.width / 8
  match c.i, c.data with
  | .sct .., some l => (l[c.done]?).any (fun x => far x.at_)
  | .gth .., _ =>
    (((List.range (sectorCount c w c.done (n - c.done))).map (· + c.done)).findSome? (fun i =>
      match s.readIndex c ix i with
      | .error _ => some false
      | .ok (t, x) => match t.elementLoc c (c.b.toNat + x * w) .load with
        | .error _ => some (far (c.b.toNat + x * w))
        | .ok _ => none)).getD false
  | _, _ => false

/-! ### Order of commands (R244) -/

/-- Two commands may be in flight together: byte copies whose destinations lie apart in scratchpads, or one in a
scratchpad and one in global memory. -/
def apart (a b : Copy) : Bool :=
  !gathers a.i && !gathers b.i && (match a.scratchRange, b.scratchRange with
    | some (x, lo, hi), some (y, lo', hi') => x != y || hi ≤ lo' || hi' ≤ lo
    | none, none => false
    | _, _ => true)

/-- The next piece of a command may be written: no earlier command of its task must come first. -/
def mayMove (s : State) (k : Nat) (c : Copy) : Bool :=
  c.fault.isNone && s.copies.all (fun e => k ≤ e.1 || e.2.sid != c.sid || e.2.rid != c.rid || apart e.2 c)

/-- The engine begins command k, after the earlier ones of its slot (R102). -/
def beginCopy (s : State) (k : Nat) (c : Copy) : State :=
  if s.copies.any (fun e => e.1 < k && e.2.sid == c.sid && e.2.live && !e.2.begun) then s
  else { s with copies := Store.set s.copies k { c with begun := true } }

/-- One piece of command k, when one may be written; else the engine only begins it. -/
def movePiece (s : State) (k : Nat) : State :=
  match Store.find? s.copies k with
  | none => s
  | some c =>
    if s.mayMove k c then match s.nextPiece k { c with begun := true } with
      | .ok t => t
      | .error _ => s
    else s.beginCopy k c

/-- What an engine fault does to the slot of its task (R423): an unsealed region parks once its counters have drained;
a sealed one, or a handler, is held. -/
def meetFault (s : State) (sid : Nat) (va : Word) : State :=
  s.updSlot sid (fun t =>
    if t.region.sealed || t.csr.tcause.getLsbD 63 then { t with run := .engineHeld } else { t with engFault := some va })

/-- An engine fault is recorded for firmware; that of an entry with V = 0 goes to system software as an error report
(R423, R460). -/
def tellFault (s : State) (core : Nat) (r : RecId) (va : Word) : State :=
  let t := s.tell (.engineFault r va)
  let absent := va.toNat / 2 ^ 32 != 0xFFFFFF00 && canonical va.toNat && (s.lookup core r.launch va.toNat).1 == .absent
  if absent then { t with msix := 64 :: t.msix } else t

/-- The next piece of command k meets a page that it cannot use: the command stops at its last whole piece (R423). -/
def faultCopy (s : State) (k : Nat) : State :=
  match Store.find? s.copies k with
  | none => s
  | some c =>
    if s.mayMove k c then match s.nextPiece k c with
      | .ok _ => s
      | .error e =>
        let s0 := (s.failedWalk (coreOf c.sid) c.rid.launch e.1).tellFault (coreOf c.sid) c.rid e.1
        let s1 : State := { s0 with copies := Store.set s0.copies k { c with fault := some e } }
        if c.live then s1.meetFault c.sid e.1 else s1
    else s

/-- Run a command to its end, or to the fault that stops it; `n` pieces at most. -/
def runCopy (k : Nat) : Nat → State → State
  | 0, s => s
  | n + 1, s =>
    match Store.find? s.copies k with
    | none => s
    | some c =>
      if !s.mayMove k c then s
      else match s.nextPiece k { c with begun := true } with
        | .ok t => runCopy k n t
        | .error _ => s.faultCopy k

/-- Pieces that a command can still have. -/
def pieceBound (c : Copy) : Nat := if gathers c.i then (gatherShape c.i).1 + 4 else c.bytes / 4 + 1

/-- Every command moves as far as it can, oldest first. -/
def runCopies (s : State) : State :=
  s.copies.foldl (fun t e => runCopy e.1 (pieceBound e.2) t) s

/-! ### Acceptance (R243, R411) -/

/-- The first of a list of values that is not a multiple of its unit. -/
def unaligned (l : List (Word × Nat)) : Option Trap := (l.find? (fun x => x.1.toNat % Nat.max 1 x.2 != 0)).map (fun x => ⟨3, x.1⟩)

/-- The window rules for one row, with its last byte when it begins outside the windows. -/
def rowWindow (s : State) (k : Access) (x : Word × Nat) : Except Trap (Option (Nat × Nat × Bool)) :=
  match s.window s.cur x.1 x.2 k with
  | .error t => .error t
  | .ok (some w) => .ok (some w)
  | .ok none => match s.window s.cur (x.1 + BitVec.ofNat 64 (x.2 - 1)) 1 k with
    | .error t => .error t
    | .ok _ => .ok none

/-- A range in a window: its rows obey R215 for their whole length. Answers where its base lies. -/
def rangeWindow (s : State) (l : List (Word × Nat)) (k : Access) : Except Trap (Option (Nat × Nat × Bool)) :=
  match l.mapM (s.rowWindow k) with
  | .error t => .error t
  | .ok ws =>
    let base : Word := (l.head?.map (fun x => x.1)).getD 0
    let same := l.all (fun x => x.1.toNat / 2 ^ 18 == base.toNat / 2 ^ 18)
    .ok (if same then (ws.head?).getD none else none)

/-- A barrier lies in the own window (R238, R243). -/
def barrierAt (s : State) (va : Word) : Except Trap (Nat × Nat) :=
  if va.toNat / 2 ^ 32 != 0xFFFFFF00 || 0x40000 ≤ va.toNat % 2 ^ 32 then .error ⟨7, va⟩
  else match s.window s.cur va 8 .store with
    | .ok (some (c, o, _)) => .ok (c, o)
    | .ok none => .error ⟨7, va⟩
    | .error t => .error t

/-- Translation and permission of the first byte of a range. -/
def firstByte (s : State) (l : List (Word × Nat)) (k : Access) : Option Trap :=
  match l with
  | [] => none
  | x :: _ =>
    if x.1.toNat / 2 ^ 32 == 0xFFFFFF00 then none
    else match s.translate (coreOf s.cur) s.slot.rid.launch x.1 k with
      | .ok _ => none
      | .error t => some t

/-- One range of a command: its rows, the access, whether it must be global (R411 step 3). -/
structure EndRange where
  rows   : List (Word × Nat)
  access : Access
  global : Bool := false
  deriving DecidableEq, Repr

/-- Where a range lies, after the window rules. -/
def endWindow (s : State) (r : EndRange) : Except Trap (Option (Nat × Nat × Bool)) :=
  if r.global then match r.rows with
    | x :: _ => if x.1.toNat / 2 ^ 32 == 0xFFFFFF00 then .error ⟨7, x.1⟩ else .ok none
    | [] => .ok none
  else s.rangeWindow r.rows r.access

/-- Accept a command whose encoding is right: alignment, windows, translation; then it waits for irrevocability or a
free scoreboard range, or it is queued (R243, R411, R241, R327). The ranges are destination, source, index list or
count area. -/
def acceptCopy (s : State) (i : Instr) (a b c d : GReg) (align : List (Word × Nat)) (dst src idx : Option EndRange) : State :=
  let bar := if d.val == 0 then none else some (s.g d.val)
  match unaligned (align ++ (bar.map (fun v => (v, 8))).toList) with
  | some t => s.trapWith t
  | none =>
    let win (r : Option EndRange) : Except Trap (Option (Nat × Nat × Bool)) := match r with
      | some r => s.endWindow r
      | none => .ok none
    match win dst, win src, win idx, (match bar with
        | some v => (s.barrierAt v).map some
        | none => .ok none) with
    | .error t, _, _, _ | .ok _, .error t, _, _ | .ok _, .ok _, .error t, _ | .ok _, .ok _, .ok _, .error t => s.trapWith t
    | .ok wd, .ok ws, .ok wi, .ok wb =>
      let first (r : Option EndRange) : Option Trap := r.bind (fun r => s.firstByte r.rows r.access)
      match (first dst).or ((first src).or (first idx)) with
      | some t => s.trapWith t
      | none =>
        let core := coreOf s.cur
        let scored := !gathers i && (match wd with
          | some (_, _, peer) => !peer
          | none => false)
        let held := (s.copies.filter (fun e => e.2.scored && e.2.dst.map (·.1) == some core)).length
        if s.slot.head.spec then s.waitFirm
        else if scored && 16 ≤ held then s.stall
        else
          let o (w : Option (Nat × Nat × Bool)) : Option (Nat × Nat) := w.map (fun x => (x.1, x.2.1))
          let x : Copy := {
            sid := s.cur, rid := s.slot.rid, i := i, pc := s.pc, a := s.g a.val, b := s.g b.val, c := s.g c.val
            d := s.g d.val, dom := s.slot.csr.nud.toNat, inst := s.slot.region.inst, dst := o wd, src := o ws
            idx := o wi, bar := wb, scored := scored }
          let k := s.nextCopy
          let fill (t : State) (r : Option EndRange) : State := (r.bind (fun r => r.rows.head?)).elim t (fun x => t.filled x.1)
          let s1 := fill (fill (fill s dst) src) idx
          let s2 := ({ s1 with copies := Store.set s1.copies k x, nextCopy := k + 1 }).upd (fun t => t.inc .cp)
          let s3 := if !gathers i && x.bytes == 0 then s2.endCopy k x else s2
          (if s3.lag then s3 else runCopy k (pieceBound x) s3).retire

/-- A byte copy of one row (R242): `unit` is 64 for `cps`, `reads` is false for `cpl`. -/
def byteCopy (s : State) (i : Instr) (a b c d : GReg) (unit : Nat) (reads : Bool) : State :=
  let n := (s.g c.val).toNat % 2 ^ 32
  let rows (v : Word) : List (Word × Nat) := if n == 0 then [] else [(v, n)]
  s.acceptCopy i a b c d
    ((s.g a.val, unit) :: (if reads then [(s.g b.val, unit)] else []) ++ [(BitVec.ofNat 64 n, unit)])
    (some ⟨rows (s.g a.val), .store, false⟩) (if reads then some ⟨rows (s.g b.val), .load, false⟩ else none) none

/-- A gather-path range of n elements. -/
def packed (va : Word) (n : Nat) (k : Access) : Option EndRange := some ⟨[(va, n)], k, false⟩

end State

open State

/-- `cp` (R242, R244). -/
def execCp (a b c d : GReg) (dnu snu : NuCode) (s : State) : Host.Outcome State Fault Refusal :=
  .next (s.byteCopy (.cp a b c d dnu snu) a b c d 4 true)
/-- `cp2d` (R242): strides are the halves of G[C], signed. -/
def execCp2d (a b c d : GReg) (rows1 rowq1 : BitVec 16) (dnu snu : NuCode) (s : State) : Host.Outcome State Fault Refusal :=
  let ds : Int := signedOf 32 (s.g c.val).toNat
  let ss : Int := signedOf 32 ((s.g c.val).toNat / 2 ^ 32)
  let n := 4 * (rowq1.toNat + 1)
  let rows (v : Word) (st : Int) : List (Word × Nat) :=
    (List.range (rows1.toNat + 1)).map (fun (r : Nat) => (v + BitVec.ofInt 64 (r * st), n))
  .next (s.acceptCopy (.cp2d a b c d rows1 rowq1 dnu snu) a b c d
    [(s.g a.val, 4), (s.g b.val, 4), (BitVec.ofInt 64 ds, 4), (BitVec.ofInt 64 ss, 4)]
    (some ⟨rows (s.g a.val) ds, .store, false⟩) (some ⟨rows (s.g b.val) ss, .load, false⟩) none)
/-- `cpl` (R242, R244). -/
def execCpl (a b c d : GReg) (dnu : NuCode) (s : State) : Host.Outcome State Fault Refusal :=
  .next (s.byteCopy (.cpl a b c d dnu) a b c d 4 false)
/-- `cpc` (R242, R244). -/
def execCpc (a b c d : GReg) (dnu snu : NuCode) (s : State) : Host.Outcome State Fault Refusal :=
  .next (s.byteCopy (.cpc a b c d dnu snu) a b c d 4 true)
/-- `cps` (R242, R243, R244). -/
def execCps (a b c d : GReg) (desc : BitVec 16) (dnu snu : NuCode) (s : State) : Host.Outcome State Fault Refusal :=
  .next (s.byteCopy (.cps a b c d desc dnu snu) a b c d 64 true)
/-- `gth` (R410 to R412). -/
def execGth (ty : Ty) (a b c d : GReg) (n1 : BitVec 12) (ix64 : Bool) (dnu snu : NuCode) (s : State) :
    Host.Outcome State Fault Refusal :=
  let n := n1.toNat + 1
  let w := ty.width / 8
  let iw := if ix64 then 8 else 4
  .next (s.acceptCopy (.gth ty a b c d n1 ix64 dnu snu) a b c d [(s.g a.val, w), (s.g b.val, w), (s.g c.val, iw)]
    (packed (s.g a.val) (n * w) .store) (some ⟨[(s.g b.val, w)], .load, true⟩) (packed (s.g c.val) (n * iw) .load))
/-- `sct` (R410 to R412). -/
def execSct (ty : Ty) (a b c d : GReg) (n1 : BitVec 12) (ix64 : Bool) (dnu snu : NuCode) (s : State) :
    Host.Outcome State Fault Refusal :=
  let n := n1.toNat + 1
  let w := ty.width / 8
  let iw := if ix64 then 8 else 4
  .next (s.acceptCopy (.sct ty a b c d n1 ix64 dnu snu) a b c d [(s.g a.val, w), (s.g b.val, w), (s.g c.val, iw)]
    (some ⟨[(s.g a.val, w)], .store, true⟩) (packed (s.g b.val) (n * w) .load) (packed (s.g c.val) (n * iw) .load))
/-- `cmpx` (R410 to R412). -/
def execCmpx (ty : Ty) (a b c d : GReg) (n1 : BitVec 12) (idx : Bool) (dnu snu : NuCode) (s : State) :
    Host.Outcome State Fault Refusal :=
  let n := n1.toNat + 1
  let w := ty.width / 8
  .next (s.acceptCopy (.cmpx ty a b c d n1 idx dnu snu) a b c d [(s.g a.val, w), (s.g b.val, w), (s.g c.val, 8)]
    (packed (s.g a.val) (n * w) .store) (packed (s.g b.val) (n * w) .load)
    (packed (s.g c.val) (if idx then 8 + 4 * n else 8) .store))

/-- COPY_PIECE_WRITE: the next piece of command k (R244). -/
def execCopyPieceWrite (k : Nat) (s : State) : Host.Outcome State Fault Refusal := .next (s.movePiece k)

end Sys2Proof.Machine
end

