-- ==== Sys2Proof/Machine/Stream.lean ====
section
/-! DEFINITION. Tile streams (R415 to R418): `tsub`, `trel`, and the transfers of a streamer. -/

namespace Sys2Proof.Machine

/-- The value of a flag whose slot has no tile (R416). -/
def noTile : Nat := 2 ^ 64 - 1

/-- A stream descriptor of 64 bytes, read into a stream (R415); `none` when a field breaks R415. -/
def readStream (b : List Byte) : Option Stream :=
  let f (o n : Nat) : Nat := leNat ((b.drop o).take n)
  let base := f 0 8
  let rowbytes := f 8 4
  let rows := f 12 4
  let count := f 32 4
  let slots := f 36 1
  let nu := f 37 1
  if base % 64 == 0 && base / 2 ^ 32 != 0xFFFFFF00 && 64 ≤ rowbytes && rowbytes ≤ 32768 && rowbytes % 64 == 0 &&
      1 ≤ rows && rows ≤ 4096 && f 16 8 % 64 == 0 && f 24 8 % 64 == 0 && 1 ≤ count && 2 ≤ slots && slots ≤ 16 &&
      nu < 64 && f 38 26 == 0 then
    some { rid := ⟨0, 0, none⟩, sid := 0, out := false, base := BitVec.ofNat 64 base, rowbytes := rowbytes, rows := rows
           rowstride := BitVec.ofNat 64 (f 16 8), tilestride := BitVec.ofNat 64 (f 24 8), count := count
           slots := slots, nu := nu, dom := 0, core := 0, ring := 0 }
  else none

namespace Stream

/-- Bytes of a tile. -/
def tile (x : Stream) : Nat := x.rows * x.rowbytes

/-- Scratchpad bytes of a ring from its base. -/
def length (x : Stream) : Nat := 128 + x.slots * x.tile

/-- The blocks of a tile, row by row: its place in the slot, its address (R415, R416). -/
def blocks (x : Stream) (t : Nat) : List (Nat × Word) :=
  (List.range (x.tile / 64)).map (fun n =>
    let o := 64 * n
    (o, x.base + BitVec.ofNat 64 t * x.tilestride + BitVec.ofNat 64 (o / x.rowbytes) * x.rowstride +
      BitVec.ofNat 64 (o % x.rowbytes)))

/-- Scratchpad offset of slot j, and of flag j. -/
def slotAt (x : Stream) (j : Nat) : Nat := x.ring + 128 + j * x.tile
def flagAt (x : Stream) (j : Nat) : Nat := x.ring + 8 * j

end Stream

namespace State

/-- A flag becomes full with a value, and wakes those who wait for it (R416, R229). -/
def setFlag (s : State) (x : Stream) (j v : Nat) : State :=
  ((s.scrWrite x.core (x.flagAt j) (leBytes v 8)).fillWord x.core (x.flagAt j)).fillWord x.core (x.flagAt j + 4)

/-- A flag becomes empty. -/
def clearFlag (s : State) (x : Stream) (j : Nat) : State :=
  (s.drainWord x.core (x.flagAt j)).drainWord x.core (x.flagAt j + 4)

/-- A flag is full: both its tags are. -/
def flagFull (s : State) (x : Stream) (j : Nat) : Bool := s.tagAt x.core (x.flagAt j) && s.tagAt x.core (x.flagAt j + 4)

/-- Replace or end a stream: it ends when every flag holds all ones and nothing is left to move (R416). -/
def putStream (s : State) (k : Nat) (x : Stream) : State :=
  let finished := x.todo.isEmpty && (List.range x.slots).all (fun j =>
    s.flagFull x j && leNat (s.readLocs (.scr x.core (x.flagAt j)) 8) == noTile)
  { s with streams := if finished then Store.erase s.streams k else Store.set s.streams k x }

/-- The locations of a tile's blocks in memory, or the address that cannot be used. -/
def tileLocs (s : State) (x : Stream) (t : Nat) : Except (Word × Bool) (List (Nat × Loc)) :=
  (x.blocks t).mapM (fun b => match s.translate (coreOf x.sid) x.rid.launch b.2 (if x.out then .store else .load) with
    | .ok pa => .ok (b.1, .glob pa)
    | .error _ => .error (b.2, x.out))

/-- The path on which a stream reads: what it has fetched of memory for the task that opened it counts, while that is in its
slot (R213, R240); a tile that it stores is read from the scratchpad itself (R417). -/
def streamReader (s : State) (x : Stream) : Loc → Option (Nat × Path)
  | .glob _ => if (s.slotAt x.sid).rid == x.rid && (s.slotAt x.sid).run != .idle then some (x.sid, .stream) else none
  | .scr _ _ => none

/-- Move one block with its descriptor (R158). -/
def moveBlock (s : State) (x : Stream) (src dst : Loc) : State :=
  let r := s.streamReader x src
  let (t, b) := s.engineBlock r src 64
  let d := t.engineDesc r src
  let pa := match (if x.out then dst else src) with
    | .glob pa => some pa
    | .scr _ _ => none
  let u := pa.elim t (fun pa => (if x.out && (t.slotAt x.sid).rid == x.rid then t.preWrite x.sid pa 64 else t).touch none false x.dom (lineOf pa) x.nu)
  ((u.writeLoc dst b).setDesc dst d).dropAhead x.sid .stream dst 64

/-- Move a tile between its slot and memory. -/
def moveTile (s : State) (x : Stream) (t : Nat) (l : List (Nat × Loc)) : State :=
  let at_ (o : Nat) : Loc := .scr x.core (x.slotAt (t % x.slots) + o)
  l.foldl (fun u b => if x.out then u.moveBlock x (at_ b.1) b.2 else u.moveBlock x b.2 (at_ b.1)) s

/-- The command that counted on `tl` retires. -/
def streamRetires (s : State) (x : Stream) : State :=
  if (s.slotAt x.sid).rid == x.rid && (s.slotAt x.sid).run != .idle then s.updSlot x.sid (fun t => t.dec .tl) else s

/-- An earlier store of the slot to a tile's bytes is still to be performed (R417). -/
def tileBusy (s : State) (x : Stream) (t : Nat) : Bool :=
  x.out && s.flight.any (fun e => match e.2 with
    | .store o => o.sid == x.sid && o.pieces.any (fun p => overlaps p.loc p.bytes.length (.scr x.core (x.slotAt (t % x.slots))) x.tile)
    | _ => false)

/-- The oldest transfer of stream k finishes (R416): its bytes first, then its flag; the command retires with it. -/
def finishTile (s : State) (k : Nat) (x : Stream) : Except (Word × Bool) State :=
  match x.todo with
  | [] => .ok s
  | (t, counts) :: rest =>
    if s.tileBusy x t then .ok s
    else match s.tileLocs x t with
      | .error e => .error e
      | .ok l =>
        let s0 := (x.blocks t).foldl (fun u b => u.tlbFill (coreOf x.sid) x.rid.launch b.2) s
        let s1 := s0.moveTile x t l
        let next := if x.out then (if t + x.slots < x.count then t + x.slots else noTile) else t
        let s2 := s1.setFlag x (t % x.slots) next
        let s3 := if counts then s2.streamRetires x else s2
        .ok (s3.putStream k { x with todo := rest })

/-- The next transfer of stream k, if it can be made. -/
def moveStream (s : State) (k : Nat) : State :=
  match Store.find? s.streams k with
  | none => s
  | some x => if x.fault.isSome then s else match s.finishTile k x with
    | .ok t => t
    | .error _ => s

/-- The next transfer of stream k meets a page that it cannot use: only the stream is held (R423), and the slot of its task
while a handler runs there (R110, log 74). -/
def faultStream (s : State) (k : Nat) : State :=
  match Store.find? s.streams k with
  | none => s
  | some x => if x.fault.isSome then s else match s.finishTile k x with
    | .ok _ => s
    | .error e =>
      let s0 := (s.failedWalk (coreOf x.sid) x.rid.launch e.1).tellFault (coreOf x.sid) x.rid e.1
      let s1 : State := { s0 with streams := Store.set s0.streams k { x with fault := some e } }
      s1.updSlot x.sid (fun t =>
        if t.run == .running && t.rid == x.rid && t.csr.tcause.getLsbD 63 then { t with run := .engineHeld } else t)

/-- Every transfer of stream k, `n` at most. -/
def runStream (k : Nat) : Nat → State → State
  | 0, s => s
  | n + 1, s =>
    match Store.find? s.streams k with
    | none => s
    | some x =>
      if x.todo.isEmpty || x.fault.isSome then s
      else match s.finishTile k x with
        | .ok t => runStream k n t
        | .error _ => s.faultStream k

/-- Every stream moves as far as it can. -/
def runStreams (s : State) : State := s.streams.foldl (fun t e => runStream e.1 e.2.todo.length t) s

/-- The stream ids of a core: keys of its eight streams. -/
def streamKey (core id : Nat) : Nat := core * 8 + id

/-! ### `tsub` and `trel` (R417) -/

/-- Start a stream that passed its checks under id `id`: its flags and its first transfers (R416). -/
def startStream (s : State) (id : Nat) (x : Stream) : State :=
  let k := streamKey x.core id
  let n := Nat.min x.slots x.count
  let s1 := (List.range x.slots).foldl (fun t j =>
    if x.out then t.setFlag x j (if j < n then j else noTile)
    else if j < n then t.clearFlag x j else t.setFlag x j noTile) s
  let y := { x with todo := if x.out then [] else (List.range n).map (fun t => (t, t + 1 == n)) }
  let s2 := { s1 with streams := Store.set s1.streams k y }
  if x.out then s2
  else
    let s3 := s2.upd (fun t => t.inc .tl)
    if s3.lag then s3 else runStream k n s3

/-- `tsub` (R417). -/
def submit (s : State) (a b c : GReg) (out : Bool) : State :=
  let r := s.g b.val
  let d := s.g c.val
  let core := coreOf s.cur
  match unaligned [(r, 64), (d, 8)] with
  | some t => s.trapWith t
  | none => match (List.range 8).mapM (fun i => s.locate s.cur (d + BitVec.ofNat 64 (8 * i)) 8 .load) with
    | .error t => s.trapWith t
    | .ok ls => s.firmly (fun s =>
      let path : Option (Nat × Path) := some (s.cur, .stream)
      let (s1, bs) := ls.foldl (fun (x : State × List Byte) l =>
        let (t, b) := x.1.engineBlock path l 8
        (t, x.2 ++ b)) (s.filled d, [])
      let (base, size) := scratchOf s.slot.head
      let o := r.toNat % 2 ^ 32
      match ls.find? (fun l => isPoison (s.engineDesc path l)), readStream bs with
      | some l, _ =>
        s.trapTo ⟨14, BitVec.ofNat 64 (s.originOf s.cur l false (s.isFar l) + (s.engineDesc path l).toNat / 256)⟩ s.pc false d
      | none, none => s.trap 7 d
      | none, some x =>
        if r.toNat / 2 ^ 32 != 0xFFFFFF00 || size * 1024 < o + x.length then s.trap 7 d
        else match s.translate core s.slot.rid.launch x.base (if out then .store else .load) with
          | .error t => s.trapWith t
          | .ok _ => match (List.range 8).find? (fun i => (Store.find? s.streams (streamKey core i)).isNone) with
            | none => (s1.setG a.val (BitVec.allOnes 64)).retire
            | some id =>
              ((s1.setG a.val (BitVec.ofNat 64 id)).startStream id { x with
                rid := s.slot.rid, sid := s.cur, pc := s.pc, out := out, dom := s.slot.csr.nud.toNat, core := core
                ring := base * 4096 + o }).retire)

/-- The tile that a released slot takes next, or writes: what is left to do, and the flag's value when nothing is. -/
def afterRelease (x : Stream) (v : Nat) : Option Nat :=
  if v == noTile then none
  else if x.out then some v
  else if v + x.slots < x.count then some (v + x.slots) else none

/-- `trel` (R416, R417). -/
def releaseTile (s : State) (b c : GReg) : State :=
  let j := (s.g c.val).toNat
  match (if (s.g b.val).toNat < 8 then Store.find? s.streams (streamKey (coreOf s.cur) (s.g b.val).toNat) else none) with
  | none => s.trap 7 (s.g c.val)
  | some x =>
    if x.rid != s.slot.rid || x.slots ≤ j || !s.flagFull x j then s.trap 7 (s.g c.val)
    else if s.slot.head.spec then s.waitFirm
    else
      let k := streamKey (coreOf s.cur) (s.g b.val).toNat
      let v := leNat (s.readLocs (.scr x.core (x.flagAt j)) 8)
      let x := { x with sid := s.cur }
      match afterRelease x v with
      | none => ((s.setFlag x j noTile).putStream k x).retire
      | some t =>
        let s1 := ((s.clearFlag x j).putStream k { x with todo := x.todo ++ [(t, true)] }).upd (fun u => u.inc .tl)
        (if s1.lag then s1 else runStream k (x.todo.length + 1) s1).retire

end State

open State

/-- `tsub.ld` (R417). -/
def execTsubLd (a b c : GReg) (s : State) : Host.Outcome State Fault Refusal := .next (s.submit a b c false)
/-- `tsub.st` (R417). -/
def execTsubSt (a b c : GReg) (s : State) : Host.Outcome State Fault Refusal := .next (s.submit a b c true)
/-- `trel` (R417). -/
def execTrel (b c : GReg) (s : State) : Host.Outcome State Fault Refusal := .next (s.releaseTile b c)

/-- STREAM_TILE_DONE: a streamer finishes the oldest transfer of stream k (R416). -/
def execStreamTileDone (k : Nat) (s : State) : Host.Outcome State Fault Refusal := .next (s.moveStream k)

/-- ENGINE_TRANSFER_FAULT: the next piece of command j (k = 2 j) or the next transfer of stream j (k = 2 j + 1) meets an
unusable page (R423). -/
def execEngineTransferFault (k : Nat) (s : State) : Host.Outcome State Fault Refusal :=
  .next (if k % 2 == 0 then s.faultCopy (k / 2) else s.faultStream (k / 2))

end Sys2Proof.Machine
end

