-- ==== Sys2Proof/Machine/Home.lean ====
section
/-! DEFINITION. Events of the engines of a slot, of the core path and of homes (R101, R228, R231 to R235, R249, R255,
R386 to R391, R76): each performs one message in flight or one queued result, when its turn has come (log 3). An event
whose message is not there, or may not be performed yet, changes nothing. -/

namespace Sys2Proof.Machine

namespace State

/-- The oldest result of a slot's vector queue is written (R172). -/
def retireVector (s : State) (sid : Nat) : State :=
  match (s.slotAt sid).vq with
  | [] => s
  | l :: t => s.updSlot sid (fun x => ({ x with vq := t }).applyWrites l)

/-- The oldest instruction in a slot's cluster-engine port is applied (R102, R308, R350), once an earlier `qsnap` has written. -/
def retirePort (s : State) (sid : Nat) : State :=
  match (if s.snapping sid then [] else (s.slotAt sid).pq) with
  | [] => s
  | x :: t =>
    let k := s.nextMsg
    ((s.updSlot sid (fun u => { u with pq := t })).asSlot sid (fun u => u.runPort x)).settleFrom k

/-- Everything that the engine queues of a slot hold is applied. -/
def retireQueues (s : State) (sid : Nat) : State :=
  let v := (List.range (s.slotAt sid).vq.length).foldl (fun t _ => t.retireVector sid) s
  let m := retireAll sid (v.slotAt sid).mq.length v
  (List.range (m.slotAt sid).pq.length).foldl (fun t _ => t.retirePort sid) m

end State

open State

/-- FULL_EMPTY_SPIN_EXPIRY: a waiting instruction has spun for 256 cycles (R228, R274, R287). -/
def execFullEmptySpinExpiry (sid : Nat) (s : State) : Host.Outcome State Fault Refusal :=
  .next (if (s.slotAt sid).spin.isSome then s.updSlot sid (fun t => { t with expired := true }) else s)
/-- ENGINE_INSTRUCTION_COMPLETE: the vector engine (R172) or the cluster-engine port (R102) completes the oldest
accepted instruction of a slot. -/
def execEngineInstructionComplete (sid : Nat) (port : Bool) (s : State) : Host.Outcome State Fault Refusal :=
  .next (if port then s.retirePort sid else s.retireVector sid)

/-- EXACT_CELL_ARRIVAL (R235, R164). -/
def execExactCellArrival (k : Nat) (s : State) : Host.Outcome State Fault Refusal :=
  .next (match s.msg k with
    | some (.cell o) => s.performCell k o
    | _ => s)
/-- STORE_REGISTRATION (R386) of a piece of a store; a `qsnap`'s stores too (R307). -/
def execStoreRegistration (k : Nat × Nat) (s : State) : Host.Outcome State Fault Refusal :=
  .next (match s.msg k.1 with
    | some (.store o) => s.registerStore k.1 o k.2
    | some (.snap sid pc first n va c) => s.stepSnap k.1 sid pc first n va c
    | _ => s)
/-- STORE_ACK (R386). -/
def execStoreAck (k : Nat) (s : State) : Host.Outcome State Fault Refusal :=
  .next (match s.msg k with
    | some (.store o) => s.ackStore k o
    | _ => s)
/-- LOAD_REQUEST (R387): the home answers a part of a load. -/
def execLoadRequest (k part : Nat) (s : State) : Host.Outcome State Fault Refusal :=
  .next (match s.msg k with
    | some (.load o) => s.requestPart k o part
    | _ => s)
/-- LOAD_RETURN (R101): the data of a load whose parts have all been answered arrives, or a result of a cluster unit (R286). -/
def execLoadReturn (k : Nat) (s : State) : Host.Outcome State Fault Refusal :=
  .next (match s.msg k with
    | some (.load o) => if o.todo.isEmpty then (s.removeMsg k).finishLoad o else s
    | some (.result sid w acq) => s.stepResult k sid w acq
    | _ => s)
/-- POSTED_UPDATE_APPLIED (R101, R234): a reduction that uses no update-only line is applied at its home; an `enq` at its
queue and a `tleave` at the team table (R287, R272). -/
def execPostedUpdateApplied (k : Nat) (s : State) : Host.Outcome State Fault Refusal :=
  .next (match s.msg k with
    | some (.red o) => if s.usesLine o then s else s.performRed k o
    | some (.queue sid q x d) => s.stepQueue k sid q x d
    | some (.leave sid r team m) => s.stepLeave k sid r team m
    | _ => s)
/-- CONTRIBUTOR_REGISTRATION (R390, R391). -/
def execContributorRegistration (k : Nat) (s : State) : Host.Outcome State Fault Refusal :=
  .next (match s.msg k with
    | some (.red o) => if s.usesLine o then s.performRed k o else s
    | _ => s)
/-- PARTIAL_COMBINE (R390): a contributor's partial of a line is combined at its home. -/
def execPartialCombine (cache line : Nat) (s : State) : Host.Outcome State Fault Refusal := .next (s.flushUpdate cache line)
/-- ATOMIC_AT_HOME (R231). -/
def execAtomicAtHome (k : Nat) (s : State) : Host.Outcome State Fault Refusal :=
  .next (match s.msg k with
    | some (.atom o) => s.performAtom k o
    | _ => s)
/-- JOIN_INCREMENT (R76, R77). -/
def execJoinIncrement (k : Nat) (s : State) : Host.Outcome State Fault Refusal :=
  .next (match s.msg k with
    | some (.place p) => s.stepJoin k p
    | _ => s)
/-- JOIN_ARRIVAL (R76, R79). -/
def execJoinArrival (k : Nat) (s : State) : Host.Outcome State Fault Refusal :=
  .next (match s.msg k with
    | some (.arrive sid pa n) => s.stepArrive k sid pa n
    | _ => s)
/-- WAKE_REGISTRATION (R76, R80). -/
def execWakeRegistration (k : Nat) (s : State) : Host.Outcome State Fault Refusal :=
  .next (match s.msg k with
    | some (.reg sid kind key va gin lcin) => s.stepReg k sid kind key va gin lcin
    | _ => s)
/-- REUSE_CLOCK_ADVANCE (R249), and the quota operations: those of a slot on a domain in their order (R260). -/
def execReuseClockAdvance (k : Nat) (s : State) : Host.Outcome State Fault Refusal :=
  .next (match s.msg k with
    | some (.clock sid d n) => if s.clockBefore k sid d then s else (s.clockAdd d n).removeMsg k
    | some (.quota sid dest d w live) => if s.clockBefore k sid d then s else s.quotaNow k sid dest d w live
    | _ => s)
/-- HONESTY_REPORT (R255). -/
def execHonestyReport (k : Nat) (s : State) : Host.Outcome State Fault Refusal :=
  .next (match s.msg k with
    | some (.honesty d up) => (s.judge d up).removeMsg k
    | _ => s)

end Sys2Proof.Machine
end

