-- ==== Sys2Proof/Machine/Schedule.lean ====
section
/-! DEFINITION. Events of a cluster (R281 to R283, R85, R86, R71), of Larkspur and Aster (R301, R324, R331 to R336) and of
the horizon (R329). An event whose condition does not hold changes nothing. -/

namespace Sys2Proof.Machine

namespace State

/-! ### Dispatch (R282, R63, R435, R440, R443) -/

/-- A core is free: no slot of it runs a task, and it holds no scratch allocation (R434). -/
def coreFree (s : State) (core : Nat) : Bool :=
  (s.slotAt (2 * core)).run == .idle && (s.slotAt (2 * core + 1)).run == .idle && s.allocs.all (fun a => a.core != core)

/-- A gang reservation keeps the free cores of a cluster (R435). -/
def coreReserved (s : State) (core : Nat) : Bool :=
  let l := s.launchAt (s.clusterAt (core / 8)).launch
  (l.reserved.bind (fun i => l.grant[i]?)) == some (core / 8) && s.coreFree core

/-- Copies that a resumption re-issued count on the slot that takes their task (R443). -/
def adoptCopies (s : State) (sid : Nat) (r : RecId) : State :=
  let mine := (s.copies.filter (fun e => e.2.adopt && e.2.rid == r)).length
  if mine == 0 then s
  else
    let s1 := s.updSlot sid (fun t => t.updCtr .cp (fun _ => BitVec.ofNat 6 mine))
    { s1 with copies := s1.copies.map (fun e =>
        if e.2.adopt && e.2.rid == r then (e.1, { e.2 with adopt := false, live := true, sid := sid }) else e) }

/-- A timestamped task that a slot has taken runs, speculatively unless its key is L or it is late (R64, R330, R336). -/
def dispatchTimed (s : State) (sid : Nat) (r : RecId) : State :=
  let pkg := pkgOf sid
  match (s.clusterAt pkg).entries.find? (fun e => e.rid == r) with
  | none => s
  | some e =>
    let firm := e.firm || e.late || (!commitHeld (s.clusterAt pkg) && (s.clusterAt pkg).ll == some (s.entryKey pkg e))
    let s1 := s.updEntry pkg e.id (fun e => { e with st := .running, firm := firm })
    let s2 := if firm && !e.firm
      then s1.updCluster pkg (fun c => { c with aster := { c.aster with promoted := c.aster.promoted + 1 } }) else s1
    s2.updSlot sid (fun t => { t with head := t.head.setFlags 11 11 (if firm then 0 else 1) })

/-- The first poisoned block of a record's head and live block. -/
def recordPoison (s : State) (sid : Nat) (r : RecId) : Option Word :=
  match r.pool with
  | some (pkg, i) =>
    if (s.clusterAt pkg).poolBad.contains i then some (BitVec.ofNat 64 (2 ^ 24 + pkg % 96 * 2 ^ 8 + 0x0C)) else none
  | none => ([0, 64, 128] : List Nat).findSome? (fun o =>
    if o != 0 && (s.slotAt sid).region.vals.isEmpty then none
    else match s.translate (coreOf sid) r.launch (r.addr + BitVec.ofNat 64 o) .load with
      | .ok pa => if isPoison (s.descAt (.glob pa)) then some (s.poisonTval sid (.glob pa)) else none
      | .error _ => none)

/-- A poisoned continuation raises the machine check when a slot starts from it (R398). -/
def checkRecord (s : State) (sid : Nat) (r : RecId) : State :=
  match s.recordPoison sid r with
  | some v => s.asSlot sid (fun t => t.trap 14 v)
  | none => s

/-- The slot is free, and of its core's free slots the one that became free first, slot 0 on a tie (R282). What its last task
left in the engine queues has been done (R103). -/
def firstFree (s : State) (sid : Nat) : Bool :=
  let free (t : Slot) : Bool := t.run == .idle && t.mq.isEmpty && t.pq.isEmpty
  let a := s.slotAt sid
  let b := s.slotAt (sid / 2 * 2 + (sid + 1) % 2)
  free a && !(free b && (b.freed < a.freed || (b.freed == a.freed && sid % 2 == 1)))

/-- A free slot takes a task (R282). -/
def dispatch (s : State) (sid : Nat) : State :=
  let core := coreOf sid
  let pkg := pkgOf sid
  let c := s.clusterAt pkg
  if !s.firstFree sid || c.launch == 0 || (s.launchAt c.launch).st == .preempting || s.coreReserved core then s
  else match s.choose core with
    | none => s
    | some (e, key) =>
      let s1 := s.updCluster pkg (fun c => { c with
        ready := c.ready.filter (fun x => x.seq != e.seq), took := Store.set c.took key e.timed })
      let s2 := s1.startTask sid e.rid e.resumed e.fresh
      if (s2.slotAt sid).run != .running then s2
      else
        let s3 := s2.adoptCopies sid e.rid
        (if e.timed then s3.dispatchTimed sid e.rid else s3).checkRecord sid e.rid

/-- An entry has waited longest at its level, of its list and sub-list (R283, R284). -/
def waitsLongest (l : List Ready) (e : Ready) : Bool :=
  l.all (fun x => x.bound != e.bound || x.level != e.level || x.timed != e.timed || e.since ≤ x.since)

/-- A task moves one level up in its list (R283): to the tail, or to its place by key. -/
def ageReady (s : State) (pkg k : Nat) : State :=
  s.updCluster pkg (fun c => { c with
    seq := c.seq + 1
    ready := c.ready.map (fun e =>
      if e.seq == k && e.level < 7 && waitsLongest c.ready e
      then { e with level := e.level + 1, since := c.seq, seq := if e.timed then e.seq else c.seq } else e) })

/-! ### Larkspur and Aster -/

/-- Larkspur releases its earliest due crossing, within the run's end and window, while Aster has a free entry and the
pool a record (R301, R300). -/
def releaseCrossing (s : State) (pkg : Nat) : State :=
  let c := s.clusterAt pkg
  match s.leastCrossing pkg with
  | none => s
  | some (t, v, of) =>
    if (c.lark.window == 0 || t ≤ timeOf c.ll + c.lark.window.toNat) && entriesUsed c < 512 then
      match s.startEvent pkg ⟨(t, 0, varId s.dev pkg v), .crossing v of⟩ with
      | none => s
      | some u => if (u.clusterAt pkg).lark.run == 3 then u else u.updLark pkg (fun l => l.markReleased v of true)
    else s

/-- An abort for an entry is on its way (R335). -/
def abortSent (s : State) (pkg id : Nat) : Bool :=
  s.flight.any (fun m => match m.2 with
    | .abort p i _ => p == pkg && i == id
    | _ => false)

/-- Commit an entry when R331 lets it: the aborts that its writes cause come first, and are acknowledged (R335). -/
def commitEntry (s : State) (pkg id : Nat) : State :=
  match s.entryAt pkg id with
  | none => s
  | some e =>
    if !s.mayCommit pkg e then s
    else
      let rs := s.bufferReaders pkg e
      if s.lag && !rs.isEmpty then
        let s1 := rs.foldl (fun t r => if t.abortSent r.1 r.2 then t else t.enqueue (.abort r.1 r.2 (some (pkg, id)))) s
        s1.updEntry pkg id (fun e => { e with st := .committing })
      else (s.commit pkg e).settleFrom s.nextMsg

/-- The horizon has reached a running task (R336). -/
def promoteEntry (s : State) (pkg id : Nat) : State :=
  match s.entryAt pkg id with
  | none => s
  | some e =>
    if e.st == .running && !e.firm && !commitHeld (s.clusterAt pkg) && (s.clusterAt pkg).ll == some (s.entryKey pkg e) then
      (s.promote pkg id).settleFrom s.nextMsg
    else s

/-! ### The horizon (R329) -/

/-- The die combiner takes its clusters' reports. -/
def combineDie (s : State) (die : Nat) : State :=
  let r := (List.range 96).foldl (fun a i => minReport a (s.clusterLeast (die * 96 + i))) ((none, none) : Option Key × Option Key)
  { s with dieKeys := Store.set s.dieKeys die r }

/-- The package combiner takes the die values; in a one-module domain every cluster receives the result. -/
def combinePackage (s : State) : State :=
  let r := (List.range 8).foldl (fun a d => minReport a (Store.get (none, none) s.dieKeys d)) ((none, none) : Option Key × Option Key)
  let t : State := { s with pkgKeys := r }
  if s.peers.isEmpty then t.receive r else t

/-- The fabric combines this module's package value with the others', H and L of each that has work. -/
def combineFabric (s : State) (others : List (Key × Key)) : State :=
  s.receive (others.foldl (fun a k => minReport a (some k.1, some k.2)) s.pkgKeys)

end State

open State

/-- SLOT_DISPATCH (R282). -/
def execSlotDispatch (sid : Nat) (s : State) : Host.Outcome State Fault Refusal := .next (s.dispatch sid)
/-- READY_QUEUE_AGEING (R283): ready entry number k of a cluster. -/
def execReadyQueueAgeing (pkg k : Nat) (s : State) : Host.Outcome State Fault Refusal := .next (s.ageReady pkg k)
/-- RECORD_PLACEMENT (R85): a spawned record that is not timestamped reaches its target. -/
def execRecordPlacement (k : Nat) (s : State) : Host.Outcome State Fault Refusal :=
  .next (match s.msg k with
    | some (.place p) => if p.timed || p.message.isSome then s else s.stepPlace k p
    | _ => s)
/-- MESSAGE_DELIVERY (R86). -/
def execMessageDelivery (k : Nat) (s : State) : Host.Outcome State Fault Refusal :=
  .next (match s.msg k with
    | some (.place p) => if p.message.isSome then s.stepPlace k p else s
    | _ => s)
/-- CROSSING_RELEASE (R301). -/
def execCrossingRelease (pkg : Nat) (s : State) : Host.Outcome State Fault Refusal := .next (s.releaseCrossing pkg)
/-- ASTER_ACCEPT (R324): Aster takes the timestamped record of message k / 2 (k even), or Larkspur's earliest waiting
event of cluster k / 2 (k odd). -/
def execAsterAccept (k : Nat) (s : State) : Host.Outcome State Fault Refusal :=
  .next (
    if k % 2 == 1 then s.servePending (k / 2)
    else match s.msg (k / 2) with
      | some (.place p) => if p.timed then s.stepPlace (k / 2) p else s
      | _ => s)
/-- ASTER_COMMIT (R331, R332): entry k of a cluster. -/
def execAsterCommit (pkg k : Nat) (s : State) : Host.Outcome State Fault Refusal := .next (s.commitEntry pkg k)
/-- CONFLICT_ABORT (R334, R335): an abort reaches its Aster. -/
def execConflictAbort (k : Nat) (s : State) : Host.Outcome State Fault Refusal :=
  .next (match s.msg k with
    | some (.abort pkg id _) => s.stepAbort k pkg id
    | _ => s)
/-- TASK_RESTART_READY (R335): entry k of a cluster. -/
def execTaskRestartReady (pkg k : Nat) (s : State) : Host.Outcome State Fault Refusal := .next (s.restart pkg k)
/-- IRREVOCABLE_PROMOTION (R336): entry k of a cluster. -/
def execIrrevocablePromotion (pkg k : Nat) (s : State) : Host.Outcome State Fault Refusal := .next (s.promoteEntry pkg k)
/-- HORIZON_DIE_COMBINE (R329). -/
def execHorizonDieCombine (die : Nat) (s : State) : Host.Outcome State Fault Refusal := .next (s.combineDie die)
/-- HORIZON_PACKAGE_COMBINE (R329). -/
def execHorizonPackageCombine (s : State) : Host.Outcome State Fault Refusal := .next s.combinePackage
/-- HORIZON_FABRIC_COMBINE (R329): with the package values of the other modules that have timestamped work. -/
def execHorizonFabricCombine (others : List (Key × Key)) (s : State) : Host.Outcome State Fault Refusal :=
  .next (s.combineFabric others)

end Sys2Proof.Machine
end

