-- ==== Sys2Proof/Machine/Firmware.lean ====
section
/-! DEFINITION. Soft errors and their counters (R397 to R400), patrol scrubbing (R398), and what firmware does to pages
and engine faults (R422, R423). -/

namespace Sys2Proof.Machine

/-- The descriptor that marks poison found in a structure (R157). -/
def poisonDesc (code : Nat) : BitVec 16 := BitVec.ofNat 16 (code * 256 + 0xFF)

/-- Keys of a sparse store that lie in a range are dropped, and those of another range are copied there. -/
def moveRange {α : Type} (m : Store α) (src dst n : Nat) : Store α :=
  let new : Store α := m.filterMap (fun e => if src ≤ e.1 && e.1 < src + n then some (e.1 - src + dst, e.2) else none)
  m.filter (fun e => e.1 < dst) ++ new ++ m.filter (fun e => dst + n ≤ e.1)

namespace State

/-! ### Counters (R400) -/

/-- Key of an error counter. -/
def errorKey (code unit : Nat) (uncorrected : Bool) : Nat := (code * 2 + if uncorrected then 1 else 0) * 2 ^ 20 + unit

/-- Count an error: the counter saturates, and a rise or a passed threshold interrupts the die's Crocus column. -/
def countError (s : State) (code unit : Nat) (uncorrected : Bool) : State :=
  let k := errorKey code unit uncorrected
  let old := Store.get 0 s.errors k
  let new := if old == BitVec.allOnes 32 then old else old + 1
  let t : State := { s with errors := Store.set s.errors k new }
  let told := old != new && (uncorrected || Store.find? s.thresholds code == some old.toNat)
  if told then { t.tell (.errorCount code unit) with msix := 64 :: t.msix } else t

/-! ### Soft errors (R397) -/

/-- Mark a block of global memory poisoned. -/
def poisonBlock (s : State) (code block : Nat) : State := { s with memDesc := Store.put 0 s.memDesc block (poisonDesc code) }

/-- An error after acceptance is reported at the slot's next instruction (R111). -/
def deferCheck (s : State) (sid : Nat) (origin unit code : Nat) (addr : Word) : State :=
  s.deferAt sid (BitVec.ofNat 64 (origin * 2 ^ 24 + unit * 2 ^ 8 + code)) addr

/-- The address of the oldest instruction that a queue of the slot holds, else the slot's own. -/
def acceptedPc (t : Slot) (q : List Accepted) : Word := (q.head?.map (·.pc)).getD t.pc

/-- A poisoned vector register or mask (R397): physical vector registers 0 to 63, masks 64 to 71. -/
def poisonReg (s : State) (sid reg : Nat) : State :=
  s.updSlot sid (fun t =>
    if reg < 64 then t.setVphys reg { lanes := (t.vphys reg).lanes, desc := Slot.packDesc (fun _ => poisonDesc 5) }
    else if reg < 72 then { t with mPoison := t.mPoison ||| ((1 : BitVec 8) <<< (reg - 64)) }
    else t)

/-- Every block of a line is marked poisoned (R397, R401). -/
def poisonLine (s : State) (code line : Nat) : State := (List.range 16).foldl (fun t i => t.poisonBlock code (16 * line + i)) s

/-- The data of the packet of a message is poisoned (R397): an answer consumes poison, a write marks the blocks that it has
still to reach. -/
def poisonPacket (s : State) (k : Nat) : State :=
  let d := poisonDesc 0x13
  match Store.find? s.flight k with
  | some (.load o) =>
    let l := (o.parts.head?.map (·.loc)).getD (.glob 0)
    let a : Answer := ⟨o.parts.length + 1024, 0, d, true, BitVec.ofNat 64 (s.originOf o.sid l false false + 0x13)⟩
    s.putMsg k (.load { o with got := o.got ++ [a] })
  | some (.store o) => s.putMsg k (.store { o with pieces := o.pieces.zipIdx.map (fun p =>
      if o.todo.contains p.2 then { p.1 with desc := some d } else p.1) })
  | some (.atom o) => s.setDesc o.loc d
  | some (.red o) => s.setDesc o.loc d
  | some (.cell o) => s.setDesc o.loc d
  | _ => s

/-- A try of a packet fails: after 8 failed retries its data is poisoned (R397). -/
def failPacket (s : State) (k : Nat) : State :=
  let n := Store.get 0 s.retries k + 1
  let t : State := { s with retries := Store.set s.retries k n }
  if n == 9 then t.poisonPacket k else t

/-- What an uncorrectable error does (R397, R214, R367). -/
def softError (s : State) : ErrPlace → State
  | .scratch core off => s.setDesc (.scr core off) (poisonDesc 1)
  | .l1 cache word => match s.l1At cache word with
    | some w => if w.st == .valid then { s with l1 := Store.erase s.l1 (l1Key cache word) } else s.poisonBlock 3 (word / 16)
    | none => s
  | .icache sid line contents => s.updSlot sid (fun t => { t with icopy := Store.set t.icopy (line.toNat / 64 * 64) contents })
  | .vector sid reg => s.poisonReg sid reg
  | .accumulator sid acc elem =>
    (s.updSlot sid (fun t => t.mapAcc (acc % 2) (fun n =>
      if n == elem then 0x7FC00000 else t.accEl (acc % 2) (n / 64) (n % 64)))).deferCheck sid 0 (coreInCluster sid) 6
      (acceptedPc (s.slotAt sid) (s.slotAt sid).mq)
  | .weights sid unit column =>
    (s.updSlot sid (fun t => { t with panels := t.panels.map (fun e =>
      if e.1 == unit then (e.1, { e.2 with desc := Store.set e.2.desc column (poisonDesc 7) }) else e) })).deferCheck sid 0
      (coreInCluster sid) 7 (acceptedPc (s.slotAt sid) (s.slotAt sid).mq)
  | .recall cache line => (s.l1Evict cache line).poisonLine 3 line
  | .memory code block => s.poisonBlock code block
  | .packet k => s.failPacket k
  | .registry line => s.poisonLine 0x0A line
  | .larkspur pkg v => s.updLark pkg (fun l => { l with vars := Store.set l.vars v { l.var v with poison := true } })
  | .version pkg index => s.updLark pkg (fun l =>
    let bad := fun (x : Version × Nat) =>
      if x.2 == index then { x.1 with val := { x.1.val with poison := true } } else x.1
    { l with versions := l.versions.zipIdx.map bad })
  | .aster pkg index => match (s.clusterAt pkg).entries[index]? with
    | some e =>
      if !e.firm then s.abortList [(pkg, e.id, false)] false
      else match e.rid.pool with
        | some (p, i) => s.updCluster p (fun c => { c with poolBad := i :: c.poolBad })
        | none => match s.recordPa (pkg * 8) e.rid.launch e.rid.addr .load with
          | some pa => s.poisonBlock 0x0C (pa / 64)
          | none => s
    | none => s
  | .phlox pkg sid =>
    (s.updCluster pkg (fun c => { c with phlox := { c.phlox with poison := true } })).deferCheck sid 1 (pkg % 96) 0x0D
      (acceptedPc (s.slotAt sid) (s.slotAt sid).pq)
  | .tables pkg => s.tell (.tables (s.clusterAt pkg).launch pkg)
  | .clean _ _ => s

/-- Structure code and unit of a place (R397, R400). -/
def errorUnit (s : State) : ErrPlace → Nat × Nat
  | .scratch core _ => (1, core)
  | .l1 cache word => (match s.l1At cache word with
    | some w => if w.st == .valid then 2 else 3
    | none => 2, cache)
  | .icache sid _ _ => (4, coreOf sid)
  | .vector sid _ => (5, coreOf sid)
  | .accumulator sid _ _ => (6, coreOf sid)
  | .weights sid _ _ => (7, coreOf sid)
  | .recall cache _ => (3, cache)
  | .packet _ => (0x13, 0)
  | .version pkg _ => (0x0B, pkg)
  | .memory code block => (code, if code == 9 then sliceOf (block / 16) else block / 16 % 16)
  | .registry line => (0x0A, sliceOf line)
  | .larkspur pkg _ => (0x0B, pkg)
  | .aster pkg _ => (0x0C, pkg)
  | .phlox pkg _ => (0x0D, pkg)
  | .tables pkg => (0x0E, pkg)
  | .clean code unit => (code, unit)

/-- A structure that is refetched loses nothing: its error counts as corrected (R397). -/
def refetched (code : Nat) : Bool := code == 2 || code == 4 || code == 8 || code == 0x0F

/-- The LLC's copy of a line, if it holds one: whether it is dirty (R409). -/
def llcCopy (s : State) (line : Nat) : Option Bool :=
  ((Store.get [] s.llcSets (setKey .llc 0 line)).find? (fun e => e.2.line == line)).map (·.2.dirty)

/-- A word of a stack or of its LLC is scrubbed (R398): one error of the list, in block n / 2, in the LLC's copy when n is
odd. What the LLC holds clean is fetched again. -/
def scrubBlock (s : State) (stack n : Nat) (uncorrected : Bool) : State :=
  let block := n / 2
  if block / 16 % 16 != stack then s
  else match (if n % 2 == 0 then some 0x11 else (s.llcCopy (block / 16)).map (fun d => if d then 0x10 else 0x0F)) with
    | none => s
    | some code =>
      let lost := uncorrected && code != 0x0F
      (if lost then s.poisonBlock code block else s).countError code stack lost

/-! ### Pages (R422) -/

/-- Walk a table in memory, as firmware does: the address of the entry at which the walk ends, and how it ends. -/
def walkEntry (dom : Nat → Bool) (get : Nat → Nat) (va : Nat) : List (Nat × Nat) → Nat → Nat → Nat × Walk
  | [], _, base => (base, .bad)
  | (lo, n) :: rest, l, base =>
    let a := base + va / 2 ^ lo % 2 ^ n * 8
    let e := get a
    if e % 2 == 0 then (a, .absent)
    else if malformed dom l e then (a, .bad)
    else if Sys2Proof.bits e 1 1 == 1 then (a, .leaf e lo)
    else walkEntry dom get va rest (l + 1) (Sys2Proof.bits e 51 8 * 256)

/-- The entry of an address in a launch's table. -/
def pageEntry (s : State) (launch va : Nat) : Nat × Walk :=
  walkEntry s.inDomain (fun a => leNat ((s.settleRange a 8).peekBytes a 8)) va levels 0 (s.launchAt launch).root

/-- The frame of a leaf. -/
def frameOf (e bits : Nat) : Nat := Sys2Proof.bits e 51 8 * 256 / 2 ^ bits * 2 ^ bits

/-- A location lies in a frame. -/
def inFrame (frame n : Nat) : Loc → Bool
  | .glob pa => frame ≤ pa && pa < frame + n
  | .scr _ _ => false

/-- An access in flight touches a frame (R422 step 2). -/
def frameBusy (s : State) (frame n : Nat) : Bool :=
  s.flight.any (fun m => match m.2 with
    | .load o => o.parts.any (fun p => inFrame frame n p.loc)
    | .store o => o.pieces.any (fun p => inFrame frame n p.loc)
    | .atom o => inFrame frame n o.loc
    | .red o => inFrame frame n o.loc
    | .cell o => inFrame frame n o.loc
    | .arrive _ pa _ => inFrame frame n (.glob pa)
    | .reg _ kind key _ _ _ => kind == 3 && inFrame frame n (.glob key)
    | _ => false) ||
  s.slots.any (fun e => e.2.mq.any (fun x => x.blocks.any (fun b => inFrame frame n b.1)))

/-- Every cache writes back what it holds of a frame, and drops its copies; indefinite lines become code 0 (R422 step 3). -/
def quiesceFrame (s : State) (frame n : Nat) : State :=
  let inW (w : Nat) : Bool := frame ≤ 4 * w && 4 * w < frame + n
  let s1 := (s.contrib.filter (fun e => inFrame frame n (.glob (1024 * e.1)))).foldl (fun t e => t.settle e.1) s
  let s2 := (s1.owners.filter (fun e => inW e.1)).foldl (fun t e => t.recallWord e.1) s1
  let s3 : State := { s2 with l1 := s2.l1.filter (fun e => !(e.2.st == .valid && inW (e.1 % 2 ^ 50))) }
  let mine := s3.l2.filter (fun e => inFrame frame n (.glob e.1))
  let s4 : State := { s3 with
    mem := mine.foldl (fun m e => Memory.write m e.1 e.2) s3.mem
    l2 := s3.l2.filter (fun e => !inFrame frame n (.glob e.1)) }
  s4.unpin (fun w => inFrame frame n (.glob (1024 * w.line)))

/-- Data and descriptors of a frame are copied to another, poison with them (R422 step 4). -/
def copyFrame (s : State) (src dst n : Nat) : State :=
  { s with mem := moveRange s.mem src dst n, memDesc := moveRange s.memDesc (src / 64) (dst / 64) (n / 64) }

/-- TLBs and walkers of a launch drop a page and the entry that names it (R422 step 1). -/
def dropPage (s : State) (launch base : Nat) : State :=
  let f (l : List TlbEntry) : List TlbEntry := l.filter (fun e => !(e.launch == launch && e.base == base))
  { s with
    cores := s.cores.map (fun c => (c.1, { c.2 with tlb := f c.2.tlb }))
    clusters := s.clusters.map (fun c => (c.1, { c.2 with tlb := f c.2.tlb }))
    walkers := s.walkers.map (fun w => (w.1, List.filter (fun x => x.1 != launch) w.2)) }

/-- Write a table entry. -/
def setEntry (s : State) (a e : Nat) : State := s.writeHome a (leBytes e 8)

/-- Unmap a page (R422). It waits while an access on the page is in flight. -/
def unmapPage (s : State) (launch : Nat) (va : Word) : State :=
  match s.pageEntry launch va.toNat with
  | (a, .leaf e b) =>
    if s.frameBusy (frameOf e b) (2 ^ b) then s
    else ((s.setEntry a (e - 1)).dropPage launch (va.toNat / 2 ^ b * 2 ^ b)).quiesceFrame (frameOf e b) (2 ^ b)
  | _ => s

/-- What is held by physical address in a frame moves with it: the root cells of launches and the registrations on join cells
(R422). -/
def moveCells (s : State) (src dst n : Nat) : State :=
  let f (pa : Nat) : Nat := if inFrame src n (.glob pa) then pa - src + dst else pa
  { s with
    launches := s.launches.map (fun l => (l.1, { l.2 with rootPa := f l.2.rootPa }))
    waiters := s.waiters.map (fun w => if w.kind == 3 then { w with key := f w.key } else w) }

/-- The level of a page by its bits. -/
def levelOf (b : Nat) : Nat := (levels.findIdx? (fun l => l.1 == b)).getD 4

/-- Migrate a page to a frame (R422). A pinned page is never migrated; a frame that would make the entry malformed is
not taken. -/
def migratePage (s : State) (launch : Nat) (va : Word) (frame : Nat) : State :=
  match s.pageEntry launch va.toNat with
  | (a, .leaf e b) =>
    let new := putBits e 51 8 (frame / 256)
    if Sys2Proof.bits e 5 5 == 1 || frame % 2 ^ b != 0 || malformed s.inDomain (levelOf b) new || frame == frameOf e b ||
        s.frameBusy (frameOf e b) (2 ^ b) || s.frameBusy frame (2 ^ b) then s
    else
      let s1 := ((s.setEntry a (e - 1)).dropPage launch (va.toNat / 2 ^ b * 2 ^ b)).quiesceFrame (frameOf e b) (2 ^ b)
      (((s1.quiesceFrame frame (2 ^ b)).copyFrame (frameOf e b) frame (2 ^ b)).moveCells (frameOf e b) frame (2 ^ b)).setEntry a new
  | _ => s

/-! ### Engine faults (R423) -/

/-- What firmware makes of an engine fault. -/
inductive Resolution where
  /-- The page can be used now. -/
  | usable
  /-- Copy-on-write: the entry's address, the leaf, its bits. -/
  | cow (a e bits : Nat)
  /-- Not resident: system software has not made the entry valid. -/
  | waits
  /-- It cannot be resolved: the cause that is reported. -/
  | never (cause : Nat)
  deriving DecidableEq, Repr

/-- Firmware looks at the page of a fault (R423). -/
def resolution (s : State) (launch : Nat) (va : Word) (write : Bool) : Resolution :=
  let lost := if write then 6 else 5
  if !canonical va.toNat || va.toNat / 2 ^ 32 == 0xFFFFFF00 then .never lost
  else match s.pageEntry launch va.toNat with
    | (_, .absent) => .waits
    | (_, .bad) => .never lost
    | (a, .leaf e b) =>
      if !write then .usable
      else if Sys2Proof.bits e 3 3 == 1 then .cow a e b
      else if Sys2Proof.bits e 2 2 == 1 then .usable
      else .never 7

/-- Firmware copies a frame for a copy-on-write page, sets W and clears C (R423). -/
def copyOnWrite (s : State) (launch : Nat) (va : Word) (a e b : Nat) : State :=
  let frame := s.dev * 2 ^ 42 + Config.newFrame s.nonce * 2 ^ b % 2 ^ 40
  let s0 := (({ s with nonce := s.nonce + 1 }).quiesceFrame (frameOf e b) (2 ^ b)).quiesceFrame frame (2 ^ b)
  let s1 := s0.copyFrame (frameOf e b) frame (2 ^ b)
  (s1.setEntry a (putBits (putBits (putBits e 51 8 (frame / 256)) 3 3 0) 2 2 1)).dropPage launch (va.toNat / 2 ^ b * 2 ^ b)

/-- A task is left faulted by firmware (R423): its slot is released or its waiting record marked, and the front end is
told. -/
def faultByFirmware (s : State) (r : RecId) (sid cause : Nat) (va pc : Word) : State :=
  let s1 : State := { s with waiters := s.waiters.filter (fun w => w.rid != r) }
  let s2 := s1.updCluster (pkgOf sid) (fun c => { c with ready := c.ready.filter (fun e => e.rid != r) })
  let s3 := match s2.slotRunning r with
    | some t =>
      let sl := s2.slotAt t
      let h := contHead sl sl.pc sl.region.gin sl.region.lcin.toNat (sl.p.toNat / 2) false 4 0 0
      let (u, ok) := s2.writeCont t h (sl.liveVals sl.region.gin sl.region.lcin.toNat)
      if ok then ((u.faultRecord r).entryState t .suspended).releaseSlot t else u
    | none => (s2.writeState (pkgOf sid) r 4).faultRecord r
  let old := ((s2.slotRunning r).map (fun t => (s2.slotAt t).csr.tcause)).getD 0
  (s3.updLaunch r.launch (fun l => { l with faulted := l.faulted + 1 })).tell (.faulted r cause va old pc 0)

/-- An engine fault still holds a slot: of a command of its task, or, while a handler runs, of a stream (R110, R423). -/
def faultHolds (s : State) (sid : Nat) : Bool :=
  let t := s.slotAt sid
  s.copies.any (fun e => e.2.live && e.2.sid == sid && e.2.fault.isSome) ||
  (t.csr.tcause.getLsbD 63 && s.streams.any (fun e => e.2.sid == sid && e.2.rid == t.rid && e.2.fault.isSome))

/-- A slot that no engine fault holds any longer continues. -/
def freeSlot (s : State) (sid : Nat) : State :=
  if (s.slotAt sid).run == .engineHeld && !s.faultHolds sid then s.updSlot sid (fun t => { t with run := .running }) else s

/-- A command that a resolved fault lets go on: a parked task becomes ready and re-runs its region, which issues the
command again; a held slot continues, and the command with it. -/
def freeCopy (s : State) (k : Nat) (c : Copy) (va : Word) : State :=
  let s1 : State := if c.rerun then { s with copies := Store.erase s.copies k }
    else { s with copies := Store.set s.copies k { c with fault := none } }
  let s2 := s1.wake (fun w => w.kind == 6 && w.rid == c.rid)
  if c.live then (s2.updSlot c.sid (fun t =>
    { t with engFault := if t.engFault == some va then none else t.engFault })).freeSlot c.sid
  else s2

/-- A page that can be used makes the TLBs' older entries of it stale: they are dropped. -/
def dropVa (s : State) (launch : Nat) (va : Word) : State :=
  match s.pageEntry launch va.toNat with
  | (_, .leaf _ b) => s.dropPage launch (va.toNat / 2 ^ b * 2 ^ b)
  | _ => s

/-- Firmware resolves the fault of copy k, as far as R423 lets it. -/
def resolveCopy (s : State) (k : Nat) : State :=
  match Store.find? s.copies k with
  | none => s
  | some c => match c.fault with
    | none => s
    | some (va, write) =>
      let lost (cause : Nat) : State :=
        ({ s with copies := Store.erase s.copies k }).faultByFirmware c.rid c.sid cause va c.pc
      match (if s.farElement c then .never (if write then 6 else 5) else s.resolution c.rid.launch va write) with
      | .waits => s
      | .never cause => lost cause
      | .cow a e b => (s.copyOnWrite c.rid.launch va a e b).freeCopy k c va
      | .usable =>
        let t := s.dropVa c.rid.launch va
        match t.nextPiece k { c with fault := none } with
        | .ok _ => t.freeCopy k c va
        | .error x => if x.1 == va then lost (if write then 6 else 5) else t.freeCopy k c va

/-- Firmware resolves the fault of stream k. -/
def resolveStream (s : State) (k : Nat) : State :=
  match Store.find? s.streams k with
  | none => s
  | some x => match x.fault with
    | none => s
    | some (va, write) =>
      let free (t : State) : State :=
        ({ t with streams := Store.set t.streams k { x with fault := none } } : State).freeSlot x.sid
      match s.resolution x.rid.launch va write with
      | .waits => s
      | .never cause => ({ s with streams := Store.erase s.streams k }).faultByFirmware x.rid x.sid cause va x.pc
      | .cow a e b => free (s.copyOnWrite x.rid.launch va a e b)
      | .usable => free (s.dropVa x.rid.launch va)

/-- The engine fault of a task whose command a quiesce has dropped no longer waits for system software: the re-run issues the
command again, and meets what is left of the fault. -/
def faultOver (s : State) (launch : Nat) (w : Waiter) : Bool :=
  w.kind == 6 && w.rid.launch == launch && s.resolution launch (BitVec.ofNat 64 w.key) false != .waits

/-- Firmware resolves the engine fault of a parked task that has no command any more (R441): of one that waits in a save area,
where it records it (R443), or of one that waits on the module. Waiter n of the launch's saved registrations, or of all. -/
def resolveSaved (s : State) (launch n : Nat) : State :=
  match (s.launchAt launch).saved with
  | some v => match v.waiters[n]? with
    | some (_, w) =>
      if s.faultOver launch w then
        s.updLaunch launch (fun l => { l with resolved := if l.resolved.contains w.rid then l.resolved else l.resolved ++ [w.rid] })
      else s
    | none => s
  | none => match s.waiters[n]? with
    | some w =>
      if s.faultOver launch w && s.copies.all (fun e => e.2.rid != w.rid || e.2.fault.isNone) then s.wake (fun x => x == w) else s
    | none => s

end State

open State

/-- SOFT_ERROR_DETECTED (R397): corrected and counted, or what R397 says of an uncorrectable one. -/
def execSoftErrorDetected (place : ErrPlace) (corrected : Bool) (s : State) : Host.Outcome State Fault Refusal :=
  let (code, unit) := s.errorUnit place
  .next (
    if corrected then s.countError code unit false
    else (s.softError place).countError code unit (match place with
      | .clean _ _ => true
      | .packet k => 8 ≤ Store.get 0 s.retries k
      | _ => !refetched code))
/-- PATROL_SCRUB (R398): a pass over a stack, with the blocks in which it finds errors. -/
def execPatrolScrub (stack : Nat) (corrected uncorrected : List Nat) (s : State) : Host.Outcome State Fault Refusal :=
  .next (uncorrected.foldl (fun t b => t.scrubBlock stack b true)
    (corrected.foldl (fun t b => t.scrubBlock stack b false) s))
/-- PAGE_UNMAP (R422). -/
def execPageUnmap (launch : Nat) (va : Word) (s : State) : Host.Outcome State Fault Refusal := .next (s.unmapPage launch va)
/-- PAGE_MIGRATE (R422). -/
def execPageMigrate (launch : Nat) (va : Word) (frame : Nat) (s : State) : Host.Outcome State Fault Refusal :=
  .next (s.migratePage launch va frame)
/-- ENGINE_FAULT_RESOLVED (R423, R443): of copy k / 3, of stream k / 3, or of waiter k / 3 mod 2^20, saved with launch
k / 3 / 2^20 or waiting for it. -/
def execEngineFaultResolved (k : Nat) (s : State) : Host.Outcome State Fault Refusal :=
  .next (match k % 3 with
    | 0 => s.resolveCopy (k / 3)
    | 1 => s.resolveStream (k / 3)
    | _ => s.resolveSaved (k / 3 / 2 ^ 20) (k / 3 % 2 ^ 20))

end Sys2Proof.Machine
end

