-- ==== Sys2Proof/Machine/FrontEnd.lean ====
section
/-! DEFINITION. The front end (R425 to R437): command queues, launches and their grants, seeds, gangs, the end of a
launch, the release flush. An event whose condition does not hold changes nothing. -/

namespace Sys2Proof.Machine

/-- A field of a command or table entry: n bytes from offset o. -/
def fieldAt (b : List Byte) (o n : Nat) : Nat := leNat ((b.drop o).take n)

/-- The space of a physical address (R407). -/
def spaceOf (pa : Nat) : Nat := pa / 2 ^ 40 % 4

/-- A host write discarded and counted for firmware (R427, R438, R460). -/
def State.discard (s : State) : State := { s with discards := s.discards + 1 }

namespace State

/-! ### Queues (R425 to R427) -/

/-- A command queue. -/
def queueAt (s : State) (q : Nat) : Queue := Store.get {} s.queues q

/-- Change a command queue. -/
def updQueue (s : State) (q : Nat) (f : Queue → Queue) : State := { s with queues := Store.set s.queues q (f (s.queueAt q)) }

/-- The front end runs: the start has reached stage 5 (R450, R455). -/
def running (s : State) : Bool := s.boot.mode == 1

/-- Entries that a ring holds (R425). -/
def ringSize (q : Queue) : Nat := 2 ^ (q.lsz + 4)

/-- A queue in state 0 or 1 that breaks R425 enters state 3. -/
def checkQueue (x : Queue) : Queue :=
  if (x.state == 0 || x.state == 1) && (12 ≤ x.lsz || ringSize x < (x.producer - x.consumer).toNat) then { x with state := 3 } else x

/-- A host write of producer (R425). -/
def doorbell (s : State) (q : Nat) (p : BitVec 32) : State :=
  if q < 64 then s.updQueue q (fun x => checkQueue { x with producer := p }) else s.discard

/-- A queue enters state 0 from state 2 or 3: its indices are cleared (R427). -/
def queueOff (x : Queue) : Queue := { x with state := 0, producer := 0, consumer := 0, error := 0 }

/-- A launch has finished dispatch (R431). -/
def dispatched (l : Launch) : Bool := l.closed || l.st == .ended

/-- A launch of a queue is in dispatch: begun and not finished (R437). -/
def inDispatch (l : Launch) : Bool := !(dispatched l) && l.st != .waiting

/-! ### Physical reads and completions (R429) -/

/-- 64 bytes at a physical address of this module's memory; `none` when it is unmapped or poisoned (R426). -/
def physBlock (s : State) (pa : Nat) : Option (List Byte) :=
  if pa < 2 ^ 52 && deviceOf pa == s.dev && spaceOf pa == 0 && !isPoison (s.descAt (.glob pa)) then
    some ((s.settleRange pa 64).peekBytes pa 64)
  else none

/-- A completion address has a form of R429. -/
def completionOk (s : State) (a : Nat) : Bool :=
  a % 32 == 0 && a < 2 ^ 52 && deviceOf a == s.dev && (spaceOf a == 0 || spaceOf a == 2)

/-- Write host memory. -/
def hostWrite (s : State) (a : Nat) : List Byte → State
  | [] => s
  | b :: t => { s with hostMem := Memory.write s.hostMem a b }.hostWrite (a + 1) t

/-- Write a completion record, then the vector that announces it (R429, R460, R462). -/
def completion (s : State) (o : Origin) (a id status placed extra : Nat) : State :=
  let b := leBytes id 4 ++ leBytes status 4 ++ leBytes placed 8 ++ leBytes s.clock.toNat 8 ++ leBytes extra 8
  let t := if spaceOf a == 2 then s.hostWrite (a % 2 ^ 40) b else s.writeHome a b
  match o with
  | .queue q => { t with msix := q :: t.msix }
  | _ => t

/-! ### Reading commands (R426, R428) -/

/-- The next entry of a running queue: none, one that cannot be read, or its bytes. -/
def nextCommand (s : State) (q : Nat) : Option (Option (List Byte)) :=
  let x := s.queueAt q
  if !(s.running && q < 64 && x.state == 1 && x.consumer != x.producer) then none
  else
    let off := x.base + 64 * (x.consumer.toNat % ringSize x)
    some (if off < 2 ^ 40 then (s.physBlock (s.dev * 2 ^ 42 + off)).filter (fun b => s.completionOk (fieldAt b 56 8)) else none)

/-- A command of R428 other than a launch names no byte that it does not use. -/
def plainCommand (b : List Byte) : Bool :=
  2 ≤ fieldAt b 0 1 && fieldAt b 0 1 ≤ 5 && fieldAt b 1 3 == 0 && ((b.drop 8).take 48).all (· == 0)

/-- A launch command keeps the limits of R430 and R431. -/
def launchLimits (b : List Byte) : Bool :=
  fieldAt b 0 1 == 1 && fieldAt b 1 1 < 2 && 1 ≤ fieldAt b 2 2 && fieldAt b 2 2 ≤ 768 && fieldAt b 4 4 != 0 &&
  fieldAt b 13 1 < 16 && fieldAt b 14 2 ≤ 4096 && fieldAt b 16 8 % 4096 == 0 &&
  (fieldAt b 24 8 == 0 || codeAddr (BitVec.ofNat 64 (fieldAt b 24 8))) && fieldAt b 32 8 % 8 == 0 &&
  fieldAt b 40 8 % 32 == 0 && 1 ≤ fieldAt b 48 4 && fieldAt b 48 4 ≤ 2 ^ 24 && fieldAt b 52 4 == 0

/-- A launch id is in use (R430). -/
def liveLaunch (s : State) (id : Nat) : Bool :=
  match Store.find? s.launches id with
  | some l => l.st != .ended
  | none => false

/-- Read the next entry of a queue: an entry that cannot be read stops the queue; one that `want` accepts is taken. -/
def takeCommand (s : State) (q : Nat) (want : List Byte → Bool) (f : State → List Byte → State) : State :=
  match s.nextCommand q with
  | none => s
  | some none => s.updQueue q (fun x => { x with state := 3, error := x.consumer })
  | some (some b) => if want b then f (s.updQueue q (fun x => { x with consumer := x.consumer + 1 })) b else s

/-- A command is rejected (R426). -/
def reject (s : State) (o : Origin) (b : List Byte) : State := s.completion o (fieldAt b 56 8) (fieldAt b 4 4) 3 0 0

/-- The launch that a command describes (R430). -/
def launchOf (o : Origin) (b : List Byte) (seq : Nat) : Launch :=
  { id := fieldAt b 4 4, origin := o, seq := seq, fused := fieldAt b 1 1 == 1, want := fieldAt b 2 2, after := fieldAt b 8 4
    wantDom := fieldAt b 12 1, queues := BitVec.ofNat 4 (fieldAt b 13 1), pool := fieldAt b 14 2, root := fieldAt b 16 8
    tvec := BitVec.ofNat 64 (fieldAt b 24 8), rootCell := BitVec.ofNat 64 (fieldAt b 32 8)
    seedTab := BitVec.ofNat 64 (fieldAt b 40 8), seeds := fieldAt b 48 4, complete := fieldAt b 56 8 }

/-- Take a launch command: it waits for its turn, or is rejected. -/
def queueLaunch (s : State) (o : Origin) (b : List Byte) : State :=
  if launchLimits b && !s.liveLaunch (fieldAt b 4 4) then
    { s with launches := Store.set s.launches (fieldAt b 4 4) (launchOf o b s.nonce) }
  else s.reject o b

/-! ### Seeds (R432) -/

end State

/-- An entry of a seed table (R432). -/
structure Seed where
  addr    : Word
  area    : Word
  grant   : Option Nat
  gang    : Bool
  members : Nat
  back    : Bool
  prio    : Nat
  scr     : Nat
  dom     : Nat
  deriving DecidableEq, Repr

/-- Read a seed entry; `none` when a reserved bit is set. -/
def Seed.ofBytes (b : List Byte) : Option Seed :=
  if 1 < fieldAt b 18 1 || 1 < fieldAt b 20 1 || fieldAt b 25 7 != 0 then none
  else some {
    addr := BitVec.ofNat 64 (fieldAt b 0 8), area := BitVec.ofNat 64 (fieldAt b 8 8)
    grant := if fieldAt b 16 2 == 0xFFFF then none else some (fieldAt b 16 2), gang := fieldAt b 18 1 == 1
    members := fieldAt b 19 1, back := fieldAt b 20 1 == 1, prio := fieldAt b 21 1, scr := fieldAt b 22 2
    dom := fieldAt b 24 1 }

namespace State

/-- The record of a kind 0 seed passes R84. -/
def seedRecordOk (s : State) (core launch : Nat) (a : Word) : Bool :=
  a.toNat % 64 == 0 && (match s.translate core launch a .store with
    | .ok pa => headOk (Head.ofBytes ((s.settleRange pa 64).peekBytes pa 64)) [0, 1, 2]
    | .error _ => false)

/-- A seed passes R432 for a grant of n clusters and the domains granted beside 0. -/
def seedOk (s : State) (core launch n : Nat) (doms : List Nat) (x : Seed) : Bool :=
  (x.grant.all (· < n)) &&
  (if x.gang then
    1 ≤ x.members && x.members ≤ 8 && x.prio ≤ 7 && x.scr ≤ 256 && (x.dom == 0 || doms.contains x.dom) && codeAddr x.addr &&
    x.area.toNat % 64 == 0 && (List.range (3 * x.members)).all (fun i =>
      match s.translate core launch (x.area + BitVec.ofNat 64 (64 * i)) .store with
      | .ok _ => true
      | .error _ => false)
  else
    x.members == 1 && x.area == 0 && !x.back && x.prio == 0 && x.scr == 0 && x.dom == 0 && s.seedRecordOk core launch x.addr)

/-- Entry i of a launch's seed table, read on a core. -/
def readSeed (s : State) (core : Nat) (l : Launch) (i : Nat) : Option Seed :=
  match s.translate core l.id (l.seedTab + BitVec.ofNat 64 (32 * i)) .load with
  | .ok pa => if isPoison (s.descAt (.glob pa)) then none else Seed.ofBytes ((s.settleRange pa 32).peekBytes pa 32)
  | .error _ => none

/-! ### Grants (R431) -/

/-- The lowest free clusters from a number on, when there are n. -/
def freeClusters (s : State) (first n : Nat) : Option (List Nat) :=
  let l := ((List.range Config.clusters).filter (fun p => first ≤ p && (s.clusterAt p).launch == 0)).take n
  if l.length == n then some l else none

/-- The lowest free reuse domains, when there are n: a pre-empted launch keeps its own (R248). A domain that the debugger
names comes first (R405). -/
def freeDomains (s : State) (n : Nat) (named : Option Nat) : Option (List Nat) :=
  let n := Nat.max n named.toList.length
  let free := (List.range 256).filter (fun d => d != 0 &&
    !s.launches.any (fun x => x.2.st != .ended && x.2.domains.contains d))
  let l := (named.toList ++ free.filter (fun d => named != some d)).take n
  if l.length == n && l.all free.contains then some l else none

/-- A cluster as it is granted to a launch, or to none: what a grant does not touch stays (R285, R265, R350, R340). -/
def freshCluster (c : Cluster) (l : Option Launch) : Cluster :=
  let k : Cluster := { tlb := c.tlb, hh := c.hh, ll := c.ll, commitStop := c.commitStop, stopLark := c.stopLark }
  match l with
  | none => k
  | some l => { k with launch := l.id, fused := l.fused, queues := l.queues, poolSize := l.pool }

/-- Launches of one queue begin in order: every earlier one has finished dispatch (R431). -/
def turnOf (s : State) (l : Launch) : Bool :=
  match l.origin with
  | .queue q => s.launches.all (fun x => x.2.origin != .queue q || l.seq ≤ x.2.seq || dispatched x.2)
  | _ => true

/-- The launch that `after` names has ended. -/
def afterEnded (s : State) (l : Launch) : Bool :=
  l.after == 0 || (match Store.find? s.launches l.after with
    | some x => x.st == .ended
    | none => false)

/-- The checks of the root cell and of the seed table before anything is placed (R432). -/
def beginChecks (s : State) (l : Launch) (cl : List Nat) (doms : List Nat) : Option Nat :=
  let core := cl.headD 0 * 8
  match s.translate core l.id l.rootCell .store with
  | .error _ => none
  | .ok pa =>
    if l.rootCell.toNat / 2 ^ 32 != 0xFFFFFF00 && (List.range l.seeds).all (fun i => match s.readSeed core l i with
        | some x => s.seedOk core l.id cl.length doms x
        | none => false) then some pa else none

/-- What the walks of a launch that is turned away have met is kept and reported (R420, R421): of its root cell, its seed table
and the records and areas that it names. -/
def beginWalks (s : State) (l : Launch) (cl : List Nat) : State :=
  let core := cl.headD 0 * 8
  (List.range l.seeds).foldl (fun t i =>
    let u := t.failedWalk core l.id (l.seedTab + BitVec.ofNat 64 (32 * i))
    match u.readSeed core l i with
    | none => u
    | some x =>
      if x.gang then (List.range (3 * x.members)).foldl (fun v j => v.failedWalk core l.id (x.area + BitVec.ofNat 64 (64 * j))) u
      else u.failedWalk core l.id x.addr) (s.failedWalk core l.id l.rootCell)

/-- A launch receives its grant and its root cell is written (R431, R433). -/
def grantLaunch (s : State) (l : Launch) (cl doms : List Nat) (pa : Nat) : State :=
  let s1 := cl.foldl (fun t p => t.updCluster p (fun c => freshCluster c (some l))) s
  let s2 := doms.foldl (fun t d => t.updDomain d (fun _ => {})) s1
  (s2.updLaunch l.id (fun l => { l with st := .dispatching, grant := cl, domains := doms, rootPa := pa })).setCell pa 1

/-- Begin a launch whose turn has come and whose resources are free, from cluster `first` on (R431). -/
def beginLaunch (s : State) (id first : Nat) (dom : Option Nat) : State :=
  match Store.find? s.launches id with
  | none => s
  | some l =>
    if !(s.running && l.st == .waiting && s.turnOf l && s.afterEnded l) then s
    else match s.freeClusters first l.want, s.freeDomains l.wantDom dom with
      | some cl, some doms => match s.beginChecks l cl doms with
        | some pa => s.grantLaunch l cl doms pa
        | none => ((s.beginWalks l cl).updLaunch id (fun l => { l with st := .ended })).completion l.origin l.complete id 3 0 0
      | _, _ => s

/-! ### Gangs (R434, R435) -/

/-- Free cores of a cluster, lowest first (R434). -/
def freeCores (s : State) (p : Nat) : List Nat := ((List.range 8).map (· + p * 8)).filter s.coreFree

/-- Where a gang fits: the cluster and its cores. A team needs a place in the team table (R268). -/
def gangFit (s : State) (l : Launch) (g : Gang) : Option (Nat × List Nat) :=
  let places := match g.grant with
    | some i => (l.grant[i]?).toList
    | none => l.grant
  places.findSome? (fun p =>
    let f := s.freeCores p
    if g.members ≤ f.length && (s.clusterAt p).teams.length < 64 then some (p, f.take g.members) else none)

/-- The head of member j of a gang (R377). -/
def gangHead (l : Launch) (g : Gang) (team j : Nat) : Head :=
  { pc := g.pc, flags := BitVec.ofNat 32 (2 ^ 28 + g.prio * 64 + 1), team := BitVec.ofNat 32 (j * 65536 + team)
    scratch := BitVec.ofNat 32 (g.scr * 65536), dom := BitVec.ofNat 32 g.dom, parent := l.rootCell }

/-- The lowest team id that is free on a cluster. -/
def freeTeam (c : Cluster) : Nat := ((List.range 65).find? (fun i => i != 0 && c.teams.all (fun t => t.id != i))).getD 1

/-- Start member j of a gang on a core: its record, its membership, its allocation at base 0, slot 0 (R434). -/
def startMember (l : Launch) (g : Gang) (p team : Nat) (s : State) (m : Nat × Nat) : State :=
  let (core, j) := m
  let r : RecId := { launch := l.id, addr := g.area + BitVec.ofNat 64 (192 * j) }
  match s.writeRecord core r (gangHead l g team j) (List.replicate 16 0) with
  | none => s.lostRecord core r (2 * core)
  | some s1 =>
    let s2 := s1.updCluster p (fun c => { c with teams := c.teams.map (fun t => if t.id == team then
      { t with members := t.members ||| ((1 : BitVec 64) <<< j), recs := Store.set t.recs j r } else t) })
    let s3 := if g.scr == 0 then s2 else s2.assign r core 0 g.scr
    s3.startTask (2 * core) r true false

/-- Place a gang on a cluster. -/
def placeGang (s : State) (id : Nat) (l : Launch) (g : Gang) (p : Nat) (cores : List Nat) : State :=
  let team := freeTeam (s.clusterAt p)
  let s1 := s.updCluster p (fun c => { c with teams := c.teams ++ [{ id := team }] })
  let s2 := cores.zipIdx.foldl (startMember l g p team) s1
  s2.updLaunch id (fun l => { l with placed := l.placed + g.members })

/-- One placement of R435: the primary head, or, when no reservation stands, the earliest back-fill gang that fits. -/
def placeOne (s : State) (id : Nat) : Option State :=
  let l := s.launchAt id
  if !(l.st == .dispatching || l.st == .running) then none
  else match l.primary.head?.bind (fun g => (s.gangFit l g).map (fun f => (g, f))) with
    | some (g, p, cores) => some ((s.updLaunch id (fun l => { l with primary := l.primary.tail, reserved := none })).placeGang id l g p cores)
    | none =>
      if l.reserved.isSome then none
      else match l.backfill.findSome? (fun g => (s.gangFit l g).map (fun f => (g, f))) with
        | some (g, p, cores) => some ((s.updLaunch id (fun l => { l with backfill := l.backfill.erase g })).placeGang id l g p cores)
        | none => none

/-- Place what fits, n gangs at most. -/
def placeGangs (id : Nat) : Nat → State → State
  | 0, s => s
  | n + 1, s => match s.placeOne id with
    | some t => placeGangs id n t
    | none => s

/-- The primary head reserves a cluster (R435): the named one, or the one with the most free cores. -/
def reserveGang (s : State) (id : Nat) : State :=
  let l := s.launchAt id
  match l.primary with
  | [] => s
  | g :: _ =>
    if !(l.st == .dispatching || l.st == .running) || l.reserved.isSome || (s.gangFit l g).isSome then s
    else
      let best := l.grant.zipIdx.foldl (fun (b : Nat × Nat) x =>
        if b.1 < (s.freeCores x.1).length then ((s.freeCores x.1).length, x.2) else b) (0, 0)
      s.updLaunch id (fun l => { l with reserved := some (g.grant.getD best.2) })

/-! ### Dispatch of seeds (R433) -/

/-- A kind 0 seed is placed: its parent is the root cell; it enters the ready queue or Aster. `none` when it waits. -/
def placeSeed (s : State) (l : Launch) (p : Nat) (a : Word) : Option State :=
  let r : RecId := { launch := l.id, addr := a }
  match s.readRecord (p * 8) r with
  | none => some (s.lostRecord (p * 8) r (p * 16))
  | some (h, _) =>
    let h1 : Head := { h with parent := l.rootCell, scratch := BitVec.ofNat 32 (h.scratch.toNat / 65536 * 65536) }
    match (s.incCell l.rootPa).writeRecord (p * 8) r h1 [] with
    | none => some (s.lostRecord (p * 8) r (p * 16))
    | some t =>
      (if h.kind == 2 then t.accept p r .other true else some (t.enterReady p r h1 false)).map (fun u =>
        u.updLaunch l.id (fun l => { l with placed := l.placed + 1 }))

/-- The front end makes its own arrival at the root cell (R433, R437). -/
def closeLaunch (s : State) (id : Nat) : State :=
  (s.updLaunch id (fun l => { l with closed := true, st := if l.st == .dispatching then .running else l.st })).arriveCell
    (s.launchAt id).rootPa 1

/-- The cluster of a kind 0 seed: the one it names, or the next in turn (R433). -/
def seedCluster (l : Launch) (x : Seed) : Nat := l.grant.getD (x.grant.getD (l.next % Nat.max 1 l.grant.length)) 0

/-- One seed of a launch is taken (R433). -/
def takeSeed (s : State) (l : Launch) (x : Seed) : Option State :=
  if x.gang then
    let s1 := (List.range x.members).foldl (fun t _ => t.incCell l.rootPa) s
    let g : Gang := { pc := x.addr, area := x.area, grant := x.grant, members := x.members, prio := x.prio, scr := x.scr, dom := x.dom }
    let s2 := s1.updLaunch l.id (fun l => if x.back then { l with backfill := l.backfill ++ [g] } else { l with primary := l.primary ++ [g] })
    some (if s2.lag then s2 else placeGangs l.id (l.primary.length + l.backfill.length + 1) s2)
  else s.placeSeed l (seedCluster l x) x.addr

/-- Where a seed that Aster has not accepted counts, and its key (R328). -/
def seedKey (s : State) (l : Launch) (x : Seed) : Option (Nat × Nat × Nat × Nat) :=
  (s.readRecord (seedCluster l x * 8) { launch := l.id, addr := x.addr }).map (fun r => (seedCluster l x, Head.key3 r.1))

/-- The front end takes the next seed entry of a launch in dispatch; after the last it makes its own arrival. -/
def seedStep (s : State) (id : Nat) : State :=
  match Store.find? s.launches id with
  | none => s
  | some l =>
    if l.st != .dispatching || l.closed then s
    else
      let done (t : State) : State :=
        let u := t.updLaunch id (fun l => { l with next := l.next + 1, sent := none })
        if l.seeds ≤ l.next + 1 then u.closeLaunch id else u
      match s.readSeed (l.grant.headD 0 * 8) l l.next with
      | none => done (s.failedWalk (l.grant.headD 0 * 8) id (l.seedTab + BitVec.ofNat 64 (32 * l.next)))
      | some x => match s.takeSeed l x with
        | some t => done t
        | none => s.updLaunch id (fun l => { l with sent := s.seedKey l x })

/-! ### The end of a launch (R436, R437) -/

/-- Caches of a cluster (R265). -/
def cachesOf (p : Nat) : List Nat := (List.range 8).map (· + p * 8) ++ [6144 + p]

/-- The release flush of a launch (R437): owned words and partials of its L1s go home, dirty L2 sectors to the memory
side. -/
def releaseFlush (s : State) (l : Launch) : State :=
  let cs := l.grant.flatMap cachesOf
  let s1 := (s.updLines.filter (fun e => cs.contains (e.1 / 2 ^ 42))).foldl (fun t e => t.flushUpdate (e.1 / 2 ^ 42) (e.1 % 2 ^ 42)) s
  let s2 := (s1.owners.filter (fun e => cs.contains e.2)).foldl (fun t e => t.recallWord e.1) s1
  { s2 with mem := s2.l2.foldl (fun m e => Memory.write m e.1 e.2) s2.mem, l2 := [] }

/-- What the engines had accepted of the tasks of a launch that have left their slots completes (R103, R107). -/
def drainIdle (s : State) (id : Nat) : State :=
  (s.slots.filter (fun e => e.2.run == .idle && e.2.rid.launch == id)).foldl (fun t e => t.retireQueues e.1) s

/-- A message belongs to a launch, whose slots a test knows. -/
def msgOf (id : Nat) (mine : Nat → Bool) : Msg → Bool
  | .place p => p.launch == id
  | .queue sid _ _ _ | .result sid _ _ | .snap sid _ _ _ _ _ | .reg sid _ _ _ _ _ => mine sid
  | .leave _ r _ _ => r.launch == id
  | _ => false

/-- Everything of a launch leaves the machine: its slots stop, and nothing of it is saved (R436). -/
def stopLaunch (s : State) (id : Nat) : State :=
  let mine (sid : Nat) : Bool := (s.slotAt sid).rid.launch == id
  let s0 := (s.slots.filter (fun e => e.2.run != .idle && e.2.rid.launch == id)).foldl (fun t e => t.releaseSlot e.1) s
  let s1 := s0.drainIdle id
  { s1 with
    waiters := s1.waiters.filter (fun w => w.rid.launch != id)
    allocs := s1.allocs.filter (fun a => a.rid.launch != id)
    copies := s1.copies.filter (fun e => e.2.rid.launch != id)
    streams := s1.streams.filter (fun e => e.2.rid.launch != id)
    flight := s1.flight.filter (fun e => !msgOf id mine e.2) }

/-- The grant of a launch is freed. -/
def freeGrant (s : State) (l : Launch) : State :=
  l.grant.foldl (fun t p => if (t.clusterAt p).launch == l.id then t.updCluster p (fun c => freshCluster c none) else t) s

/-- Translations of a launch that has ended are dropped: another launch may bear its id. -/
def dropLaunchPages (s : State) (id : Nat) : State :=
  { s with
    cores := s.cores.map (fun c => (c.1, { c.2 with tlb := c.2.tlb.filter (fun e => e.launch != id) }))
    clusters := s.clusters.map (fun c => (c.1, { c.2 with tlb := c.2.tlb.filter (fun e => e.launch != id) }))
    walkers := s.walkers.map (fun w => (w.1, List.filter (fun x => x.1 != id) w.2)) }

/-- A queue that is being destroyed goes off when no launch of it is in dispatch or destroyed in dispatch (R427, R437). -/
def settleQueue (s : State) (q : Nat) : State :=
  if (s.queueAt q).state == 2 && !s.launches.any (fun x =>
      x.2.origin == .queue q && x.2.st != .ended && (inDispatch x.2 || x.2.destroyed)) then s.updQueue q queueOff else s

/-- Settle the queue of an origin. -/
def settleOrigin (s : State) : Origin → State
  | .queue q => s.settleQueue q
  | _ => s

/-- Flush commands that waited for a launch's end (R437). -/
def waitingFlushes (s : State) (l : Launch) : State :=
  l.flushes.foldl (fun t f => (t.releaseFlush l).completion (.queue f.2) f.1 l.id 7 l.placed 0) s

/-- A launch ends with a status: the grant and the domains are freed, the record is written (R436, R437, R429). A
pre-emption in progress is rejected (R444), and so is a resumption that waits. -/
def finishLaunch (s : State) (id status : Nat) : State :=
  let l := s.launchAt id
  let s1 := ((s.stopLaunch id).freeGrant l).dropLaunchPages id
  let s2 := s1.unpin (fun w => l.domains.contains w.dom)
  let s3 := s2.updLaunch id (fun l => { l with
    st := .ended, sent := none, domains := [], primary := [], backfill := [], reserved := none, preDone := none, saved := none
    stopped := [], recorded := [], resume := none, flushes := [], resolved := [] })
  let s4 := if spaceOf l.complete == 2 then s3.releaseFlush l else s3
  let s5 := s4.completion l.origin l.complete id status l.placed (if status == 0 then 0 else l.faulted)
  let s6 := match l.preDone with
    | some (a, _, o) => s5.completion o a id 3 0 0
    | none => s5
  let s7 := match l.resume with
    | some (a, o) => s6.completion o a id 3 0 0
    | none => s6
  (s7.waitingFlushes l).settleOrigin l.origin

/-- The root cell of a launch has reached zero (R436). -/
def rootZero (s : State) (l : Launch) : Bool :=
  l.closed && (l.st == .running || l.st == .dispatching || l.st == .preempting) && s.cellAt l.rootPa % 2 ^ 40 == 0

/-- A launch whose root cell is zero ends: status 0, or 2 when its queue was destroyed during its dispatch. -/
def endIfZero (s : State) (id : Nat) : State :=
  match Store.find? s.launches id with
  | none => s
  | some l => if s.rootZero l then s.finishLaunch id (if l.destroyed then 2 else 0) else s

/-- Command 0x04 (R436): the launch's own record and the command's carry status 1. -/
def endByCommand (s : State) (o : Origin) (b : List Byte) : State :=
  let id := fieldAt b 4 4
  if s.liveLaunch id then
    let l := s.launchAt id
    let t := s.finishLaunch id 1
    let u := if spaceOf (fieldAt b 56 8) == 2 && spaceOf l.complete != 2 then t.releaseFlush l else t
    u.completion o (fieldAt b 56 8) id 1 l.placed l.faulted
  else s.reject o b

/-- Command 0x05 (R437). -/
def flushByCommand (s : State) (q : Nat) (b : List Byte) : State :=
  match Store.find? s.launches (fieldAt b 4 4) with
  | none => s.reject (.queue q) b
  | some l =>
    if l.st == .ended then (s.releaseFlush l).completion (.queue q) (fieldAt b 56 8) l.id 7 l.placed 0
    else s.updLaunch l.id (fun l => { l with flushes := l.flushes ++ [(fieldAt b 56 8, q)] })

/-- The host writes state 2 (R437): entries not read are discarded, launches that have not begun are dropped, the one in
dispatch takes no further seed. -/
def destroyQueue (s : State) (q : Nat) : State :=
  if !(q < 64 && (s.queueAt q).state == 1) then s.discard
  else
    let s1 := s.updQueue q (fun x => { x with state := 2, consumer := x.producer })
    let mine := s1.launches.filter (fun x => x.2.origin == .queue q)
    let s2 := (mine.filter (fun x => x.2.st == .waiting)).foldl (fun t x =>
      (t.updLaunch x.1 (fun l => { l with st := .ended })).completion (.queue q) x.2.complete x.1 2 0 0) s1
    let s3 := (mine.filter (fun x => inDispatch x.2)).foldl (fun t x =>
      (t.updLaunch x.1 (fun l => { l with destroyed := true })).closeLaunch x.1) s2
    s3.settleQueue q

end State

open State

/-- QUEUE_DOORBELL (R425). -/
def execQueueDoorbell (q : Nat) (producer : BitVec 32) (s : State) : Host.Outcome State Fault Refusal :=
  .next (s.doorbell q producer)
/-- QUEUE_START (R427): only from state 0, and only when queues accept commands (R455). -/
def execQueueStart (q : Nat) (s : State) : Host.Outcome State Fault Refusal :=
  .next (if q < 64 && (s.queueAt q).state == 0 && s.running then s.updQueue q (fun x => checkQueue { x with state := 1 }) else s.discard)
/-- QUEUE_DESTROY (R427, R437). -/
def execQueueDestroy (q : Nat) (s : State) : Host.Outcome State Fault Refusal := .next (s.destroyQueue q)
/-- QUEUE_RESET (R427): from state 3; in state 0 nothing changes. -/
def execQueueReset (q : Nat) (s : State) : Host.Outcome State Fault Refusal :=
  .next (if q < 64 && (s.queueAt q).state == 3 then s.updQueue q queueOff else if q < 64 && (s.queueAt q).state == 0 then s else s.discard)
/-- LAUNCH (R430): the next entry of a queue, when it is a launch command. -/
def execLaunch (q : Nat) (s : State) : Host.Outcome State Fault Refusal :=
  .next (s.takeCommand q (fun b => fieldAt b 0 1 == 1) (fun t b => t.queueLaunch (.queue q) b))
/-- SEED_DISPATCH (R433). -/
def execSeedDispatch (id : Nat) (s : State) : Host.Outcome State Fault Refusal := .next (s.seedStep id)
/-- GANG_PLACEMENT (R435). -/
def execGangPlacement (id : Nat) (s : State) : Host.Outcome State Fault Refusal := .next ((s.placeOne id).getD s)
/-- GANG_RESERVATION (R435): the primary head has waited 65,536 cycles. -/
def execGangReservation (id : Nat) (s : State) : Host.Outcome State Fault Refusal := .next (s.reserveGang id)
/-- LAUNCH_END (R436). -/
def execLaunchEnd (id : Nat) (s : State) : Host.Outcome State Fault Refusal := .next (s.endIfZero id)
/-- END_LAUNCH: command 0x04 (R436). -/
def execEndLaunch (q : Nat) (s : State) : Host.Outcome State Fault Refusal :=
  .next (s.takeCommand q (fun b => plainCommand b && fieldAt b 0 1 == 4) (fun t b => t.endByCommand (.queue q) b))
/-- FLUSH_LAUNCH: command 0x05 (R437). -/
def execFlushLaunch (q : Nat) (s : State) : Host.Outcome State Fault Refusal :=
  .next (s.takeCommand q (fun b => plainCommand b && fieldAt b 0 1 == 5) (fun t b => t.flushByCommand q b))
/-- UNKNOWN_OPCODE_COMMAND (R426): an unknown opcode, or a command that breaks a limit. -/
def execUnknownOpcodeCommand (q : Nat) (s : State) : Host.Outcome State Fault Refusal :=
  .next (s.takeCommand q (fun b => !plainCommand b && !launchLimits b) (fun t b => t.reject (.queue q) b))

end Sys2Proof.Machine
end

