-- ==== Sys2Proof/Machine/Preempt.lean ====
section
/-! DEFINITION. Pre-emption and resumption of launches (R440 to R444), and the time-triggered table (R438, R439). -/

namespace Sys2Proof.Machine

/-- Round up to a multiple. -/
def roundUp (x n : Nat) : Nat := (x + n - 1) / n * n

namespace State

/-! ### Stopping (R440, R441) -/

/-- A slot still runs a task of a launch; a slot held by a fatal fault does not count (R92). -/
def runsFor (id : Nat) (t : Slot) : Bool := t.run != .idle && t.run != .held && t.rid.launch == id

/-- Speculative-done tasks of a launch's clusters are aborted (R440, R343). -/
def abortDone (s : State) (l : Launch) : State :=
  s.abortList (l.grant.flatMap (fun p => ((s.clusterAt p).entries.filter (fun e =>
    !e.firm && (e.st == .done || e.st == .committing))).map (fun e => (p, e.id, false)))) false

/-- A gather-path command that has begun to write (R414). -/
def begunGather (c : Copy) : Bool := gathers c.i && c.done != 0

/-- A command at the end of the quiesce (R441): finished, dropped, or recorded. -/
def quiesceCopy (id gi : Nat) (s : State) (k : Nat) : State :=
  match Store.find? s.copies k with
  | none => s
  | some c0 =>
    let s1 := if begunGather c0 then runCopy k (pieceBound c0) s else s
    match Store.find? s1.copies k with
    | none => s1
    | some c =>
      let s2 : State := { s1 with copies := Store.erase s1.copies k }
      if c.rerun then s2
      else s2.updLaunch id (fun l => { l with recorded := l.recorded ++ [(gi,
        { c with live := false, done := if gathers c.i then 0 else c.done, data := none, fault := none })] })

/-- The quiesce of a core's copy engine ends, once both of its slots have stopped (R441). -/
def quiesceCore (s : State) (core : Nat) : State :=
  let id := (s.clusterAt (core / 8)).launch
  let l := s.launchAt id
  if l.st != .preempting || runsFor id (s.slotAt (2 * core)) || runsFor id (s.slotAt (2 * core + 1)) then s
  else
    let gi := (l.grant.findIdx? (· == core / 8)).getD 0
    (s.copies.filter (fun e => e.2.rid.launch == id && coreOf e.2.sid == core)).foldl (fun t e => quiesceCopy id gi t e.1) s

/-- Every slot of a launch has stopped, every copy engine of its grant is quiet, and every increment of its spawns has
been applied. -/
def allStopped (s : State) (id : Nat) : Bool :=
  s.slots.all (fun e => !runsFor id e.2) && s.copies.all (fun e => e.2.rid.launch != id) &&
  s.flight.all (fun e => match e.2 with
    | .place p => p.counted || p.launch != id
    | _ => true)

/-! ### The save area (R442) -/

/-- A scratch allocation whose holder is pinned (R61). -/
def pinnedAlloc (s : State) (a : Alloc) : Bool :=
  match s.readRecord a.core a.rid with
  | some (h, _) => h.pinned
  | none => false

/-- The part of a sparse store in a range, with keys from 0. -/
def cutRange {α : Type} (m : Store α) (lo n : Nat) : Store α :=
  m.filterMap (fun e => if lo ≤ e.1 && e.1 < lo + n then some (e.1 - lo, e.2) else none)

/-- An allocation as it is saved. -/
def saveAlloc (s : State) (gi : Nat) (a : Alloc) : SavedAlloc :=
  let lo := scrKey a.core (a.base * 4096)
  let n := a.size * 1024
  { grant := gi, alloc := a
    bytes := cutRange s.scr lo n
    tags := cutRange s.tags (lo / 4) (n / 4)
    descs := cutRange s.scrDesc (lo / 64) (n / 64) }

/-- The images of an allocation: data, tags, descriptors. -/
def allocImage (a : SavedAlloc) : List Byte :=
  (List.range (a.alloc.size * 1024)).map (fun i => Store.get 0 a.bytes i) ++
  (List.range (a.alloc.size * 32)).map (fun i => BitVec.ofNat 8 ((List.range 8).foldl (fun x j =>
    x + if Store.get false a.tags (8 * i + j) then 2 ^ j else 0) 0)) ++
  (List.range (a.alloc.size * 16)).flatMap (fun i => leBytes (Store.get 0 a.descs i).toNat 2)

/-- Bytes of an allocation's images. -/
def imageSize (a : SavedAlloc) : Nat := a.alloc.size * 1088

/-- The record of an allocation, whose images lie at offset `img`. -/
def allocRecord (a : SavedAlloc) (img : Nat) : List Byte :=
  leBytes a.alloc.rid.addr.toNat 8 ++ leBytes a.grant 2 ++ leBytes (a.alloc.core % 8) 1 ++ leBytes 0 1 ++
  leBytes a.alloc.base 2 ++ leBytes a.alloc.size 2 ++ leBytes img 8 ++ leBytes (img + a.alloc.size * 1024) 8

/-- The record of a copy. -/
def copyRecord (c : Copy) : List Byte :=
  let (maj, imm) := match Encode.raw c.i with
    | some r => (r.maj, r.I)
    | none => (0, 0)
  leBytes c.rid.addr.toNat 8 ++ leBytes maj 1 ++ leBytes (copyNu c.i).1 1 ++ leBytes (copyNu c.i).2 1 ++ leBytes 0 1 ++
  leBytes imm 4 ++ leBytes c.a.toNat 8 ++ leBytes c.b.toNat 8 ++ leBytes c.c.toNat 8 ++ leBytes c.d.toNat 8 ++
  leBytes (if gathers c.i then 0 else c.done) 8 ++ leBytes 0 8

/-- Offsets at which the images of a list of allocations begin. -/
def imageOffsets : Nat → List SavedAlloc → List (SavedAlloc × Nat)
  | _, [] => []
  | o, a :: t => (a, o) :: imageOffsets (o + imageSize a) t

/-- Write the save area of a launch at a physical address (R442, log 21). -/
def writeSave (s : State) (l : Launch) (at_ : Nat) (allocs : List SavedAlloc) (copies : List Copy) : State :=
  let aoff := 64
  let coff := aoff + 32 * allocs.length
  let img := roundUp (coff + 64 * copies.length) 512
  let placed := imageOffsets img allocs
  let soff := roundUp (allocs.foldl (fun n a => n + imageSize a) img) 4096
  let header := leBytes l.id 4 ++ leBytes 1 1 ++ leBytes 0 1 ++ leBytes l.grant.length 2 ++ leBytes s.clock.toNat 8 ++
    leBytes allocs.length 4 ++ leBytes copies.length 4 ++ leBytes aoff 8 ++ leBytes coff 8 ++ leBytes soff 8 ++ leBytes 0 16
  let s1 := s.writeHome at_ (header ++ placed.flatMap (fun a => allocRecord a.1 a.2) ++ copies.flatMap copyRecord)
  placed.foldl (fun t a => t.writeHome (at_ + a.2) (allocImage a.1)) s1

/-- Grant index of the cluster of a launch. -/
def grantIndex (l : Launch) (p : Nat) : Nat := (l.grant.findIdx? (· == p)).getD 0

/-- A placement of the launch still waits for a place on this module. -/
def waitingMail (dev id : Nat) : Msg → Option Placement
  | .place p => if p.launch == id && p.target / 1024 == dev then some p else none
  | _ => none

/-- The save area is written, the grant is freed, and the record of the pre-emption is written (R440 steps 4 and 5). A stream
whose ring lies in an allocation that is not saved ends with it (R416). -/
def saveLaunch (s0 : State) (id : Nat) : State :=
  let s := s0.drainIdle id
  let l := s.launchAt id
  let at_ := s.dev * 2 ^ 42 + Config.saveArea s.nonce * 4096 % 2 ^ 40
  let mine := s.allocs.filter (fun a => a.rid.launch == id)
  let allocs := (mine.filter s.pinnedAlloc).map (fun a => s.saveAlloc (grantIndex l (a.core / 8)) a)
  let sv : Saved := {
    addr := at_, clusters := l.grant.map s.clusterAt
    waiters := (s.waiters.filter (fun w => w.rid.launch == id)).map (fun w => (grantIndex l w.pkg, w))
    allocs := allocs, copies := l.recorded
    streams := (s.streams.filter (fun e => e.2.rid.launch == id && allocs.any (fun a => a.alloc.rid == e.2.rid))).map
      (fun e => (e.1, e.2))
    tasks := l.stopped
    mail := s.flight.filterMap (fun e => (waitingMail s.dev id e.2).map (fun p => (grantIndex l (p.target % 1024), p))) }
  let s1 := ({ s with nonce := s.nonce + 1 }).writeSave l at_ allocs (l.recorded.map (fun (x : Nat × Copy) => x.2))
  let s2 : State := { s1 with
    waiters := s1.waiters.filter (fun w => w.rid.launch != id), allocs := s1.allocs.filter (fun a => a.rid.launch != id)
    streams := s1.streams.filter (fun e => e.2.rid.launch != id)
    flight := s1.flight.filter (fun e => (waitingMail s.dev id e.2).isNone) }
  let s3 := (s2.freeGrant l).unpin (fun w => l.domains.contains w.dom)
  let s4 := s3.updLaunch id (fun l => { l with
    st := .preempted, saved := some sv, stopped := [], recorded := [], preDone := none, resolved := [] })
  match l.preDone with
  | some (a, st, o) => s4.completion o a id st l.placed at_
  | none => s4

/-- The pre-emption of a launch goes on: what is speculative-done is aborted; when everything has stopped, it is saved. -/
def preemptStep (s : State) (id : Nat) : State :=
  let l := s.launchAt id
  if l.st != .preempting then s
  else
    let t := s.abortDone l
    if t.allStopped id then t.saveLaunch id else t

/-- A launch is pre-empted (R440): every slot is asked to stop, and stops at once where it can unless the step leaves that
to its events. -/
def preemptLaunch (s : State) (id : Nat) (done : Option (Nat × Nat × Origin)) : State :=
  let t := (s.beginPreempt id done).abortDone (s.launchAt id)
  let u := if t.lag then t else (t.slots.filter (fun e => runsFor id e.2)).foldl (fun x e => x.preemptSlot e.1) t
  u.preemptStep id

/-- A launch can be pre-empted: it has begun, and has not ended (R444). -/
def mayPreempt (s : State) (id : Nat) : Bool :=
  match Store.find? s.launches id with
  | some l => (l.st == .dispatching || l.st == .running) && !s.rootZero l
  | none => false

/-- Command 0x02 (R440). -/
def preemptByCommand (s : State) (q : Nat) (b : List Byte) : State :=
  let id := fieldAt b 4 4
  if s.mayPreempt id then s.preemptLaunch id (some (fieldAt b 56 8, 4, .queue q)) else s.reject (.queue q) b

/-! ### Resumption (R443) -/

/-- The cluster that takes a place of the grant. -/
def moveTo (old new : List Nat) (p : Nat) : Nat := (old.findIdx? (· == p)).elim p (fun i => new.getD i p)

/-- A core of the grant: the same number in the new cluster. -/
def moveCore (old new : List Nat) (c : Nat) : Nat := moveTo old new (c / 8) * 8 + c % 8

/-- A record of the launch: a pool record moves with its pool. -/
def moveRid (id : Nat) (old new : List Nat) (r : RecId) : RecId :=
  if r.launch == id then { r with pool := r.pool.map (fun x => (moveTo old new x.1, x.2)) } else r

/-- A window of a copy: a core and an offset. -/
def moveWin (old new : List Nat) (w : Option (Nat × Nat)) : Option (Nat × Nat) := w.map (fun x => (moveCore old new x.1, x.2))

/-- A saved cluster as it stands on another one. -/
def moveCluster (id : Nat) (old new : List Nat) (now c : Cluster) : Cluster :=
  let f := moveRid id old new
  { c with
    tlb := now.tlb, hh := now.hh, ll := now.ll, commitStop := now.commitStop, stopLark := now.stopLark
    teams := c.teams.map (fun t => { t with recs := t.recs.map (fun r => (r.1, f r.2)) })
    ready := c.ready.map (fun e => { e with rid := f e.rid })
    entries := c.entries.map (fun e => { e with rid := f e.rid }) }

/-- Restore an allocation on the core with the same number (R443 step 2). -/
def restoreAlloc (s : State) (id : Nat) (old new : List Nat) (a : SavedAlloc) : State :=
  let core := moveCore old new a.alloc.core
  let lo := scrKey core (a.alloc.base * 4096)
  let s1 := s.assign (moveRid id old new a.alloc.rid) core a.alloc.base a.alloc.size
  { s1 with
    scr := a.bytes.foldl (fun m e => Memory.write m (lo + e.1) e.2) s1.scr
    tags := a.tags.foldl (fun m e => Store.put false m (lo / 4 + e.1) e.2) s1.tags
    scrDesc := a.descs.foldl (fun m e => Store.put 0 m (lo / 64 + e.1) e.2) s1.scrDesc }

/-- Re-issue a recorded copy on the core with the same number (R443 step 3). -/
def reissueCopy (s : State) (id : Nat) (old new : List Nat) (c : Copy) : State :=
  let x : Copy := { c with
    sid := moveCore old new (coreOf c.sid) * 2, rid := moveRid id old new c.rid, adopt := true, live := false
    dst := moveWin old new c.dst, src := moveWin old new c.src, bar := moveWin old new c.bar, idx := moveWin old new c.idx }
  { s with copies := Store.set s.copies s.nextCopy x, nextCopy := s.nextCopy + 1 }

/-- A ready entry is bound, or is to receive an allocation, by the allocations that were restored (R281, R87). -/
def rebindReady (s : State) (p : Nat) : State :=
  s.updCluster p (fun c => { c with ready := c.ready.map (fun e =>
    let size := match s.readRecord (p * 8) e.rid with
      | some (h, _) => h.scratch.toNat / 65536
      | none => 0
    { e with bound := s.boundTo e.rid, fresh := size != 0 && (s.allocOf e.rid).isNone }) })

/-- A registration as it stands on the new grant. -/
def moveWaiter (id : Nat) (old new : List Nat) (w : Waiter) : Waiter :=
  { w with
    rid := moveRid id old new w.rid, pkg := moveTo old new w.pkg
    key := if w.kind == 1 || w.kind == 2 then moveCore old new (w.key / 0x10000) * 0x10000 + w.key % 0x10000 else w.key }

/-- A word lies in a scratch allocation. -/
def allocated (s : State) (word : Nat) : Bool :=
  s.allocs.any (fun a => scrKey a.core (a.base * 4096) / 4 ≤ word && word < scrKey a.core (a.base * 4096) / 4 + a.size * 256)

/-- The condition of a saved registration holds now, its engine fault was resolved, or its word is gone (R443, log 22). -/
def waitOver (s : State) (resolved : List RecId) (r : RecId) (w : Waiter) : Bool :=
  match w.kind with
  | 1 => !s.allocated w.key || s.condition 1 w.key
  | 2 => !s.allocated w.key || s.condition 2 w.key
  | 3 => s.condition 3 w.key
  | 5 => !(Store.get [] (s.clusterAt w.pkg).fifo w.key).isEmpty
  | 6 => resolved.contains r
  | _ => false

/-- Re-register a saved registration, or make its task ready (R443). -/
def restoreWaiter (s : State) (id : Nat) (old new : List Nat) (resolved : List RecId) (w : Waiter) : State :=
  let x := moveWaiter id old new w
  if s.waitOver resolved w.rid x then s.makeReady x else s.register x

/-- A task that was pre-empted in its slot becomes ready (R65, R443). -/
def restoreTask (s : State) (r : RecId) (p : Nat) : State := s.makeReady { rid := r, pkg := p, kind := 0, key := 0 }

/-- A saved stream goes on (R442). -/
def restoreStream (s : State) (id : Nat) (old new : List Nat) (k : Nat) (x : Stream) : State :=
  let core := moveCore old new x.core
  { s with streams := Store.set s.streams (streamKey core (k % 8)) { x with
      rid := moveRid id old new x.rid, sid := core * 2 + x.sid % 2, core := core } }

/-- A record or message that waited for its place waits again. -/
def restoreMail (s : State) (old new : List Nat) (p : Placement) : State :=
  s.enqueue (.place { p with
    sid := moveCore old new (coreOf p.sid) * 2 + p.sid % 2
    target := p.target / 1024 * 1024 + moveTo old new (p.target % 1024) })

/-- Resume a launch when a grant of its size is free (R443), from cluster `first` on. -/
def tryResume (s : State) (id first : Nat) : State :=
  let l := s.launchAt id
  match (if s.running && l.st == .resuming then l.saved else none), s.freeClusters first l.grant.length with
  | some sv, some new =>
    let old := l.grant
    let s1 := (sv.clusters.zip new).foldl (fun t x => t.updCluster x.2 (fun now => moveCluster id old new now x.1)) s
    let s2 := sv.allocs.foldl (fun t a => t.restoreAlloc id old new a) s1
    let s3 := sv.copies.foldl (fun t c => t.reissueCopy id old new c.2) s2
    let s4 := new.foldl rebindReady s3
    let s5 := s4.updLaunch id (fun l => { l with
      st := if l.closed then .running else .dispatching, grant := new, saved := none, resume := none, resolved := [] })
    let s6 := sv.streams.foldl (fun t x => t.restoreStream id old new x.1 x.2) s5
    let s7 := sv.tasks.foldl (fun t x => t.restoreTask (moveRid id old new x.2) (new.getD x.1 0)) s6
    let s8 := sv.waiters.foldl (fun t x => t.restoreWaiter id old new l.resolved x.2) s7
    let s9 := sv.mail.foldl (fun t x => t.restoreMail old new x.2) s8
    match l.resume with
    | some (a, o) => s9.completion o a id 5 l.placed 0
    | none => s9
  | _, _ => s

/-- Command 0x03 (R443): it waits for a grant. -/
def resumeByCommand (s : State) (q : Nat) (b : List Byte) : State :=
  let id := fieldAt b 4 4
  match Store.find? s.launches id with
  | some l =>
    if l.st == .preempted then
      (s.updLaunch id (fun l => { l with st := .resuming, resume := some (fieldAt b 56 8, .queue q) })).tryResume id 0
    else s.reject (.queue q) b
  | none => s.reject (.queue q) b

/-! ### The time-triggered table (R438, R439) -/

/-- An entry of the table. -/
def ttAt (s : State) (e : Nat) : TtEntry := Store.get {} s.tt e

/-- Change an entry. -/
def updTt (s : State) (e : Nat) (f : TtEntry → TtEntry) : State := { s with tt := Store.set s.tt e (f (s.ttAt e)) }

/-- A firing that is not launched (R439). -/
def overrun (s : State) (e : Nat) : State :=
  s.updTt e (fun x => { x with overruns := if x.overruns == BitVec.allOnes 32 then x.overruns else x.overruns + 1 })

/-- The command bytes with bits 15:0 of the launch id replaced (R438). -/
def withFiring (b : List Byte) (k : Nat) : List Byte := b.take 4 ++ leBytes (k % 65536) 2 ++ b.drop 6

/-- Firing k of an entry issues a copy of its template (R438). A template that cannot be read, or is no launch command
with a right completion address, issues nothing and is counted (log 23). -/
def issueTemplate (s : State) (e k : Nat) : State :=
  match (s.physBlock (s.ttAt e).template.toNat).filter (fun b => fieldAt b 0 1 == 1 && s.completionOk (fieldAt b 56 8)) with
  | none => s.discard
  | some b =>
    let c := withFiring b k
    (s.queueLaunch (.table e) c).updTt e (fun x => { x with last := fieldAt c 4 4 })

/-- Where the previous instance of an entry is. -/
def previousState (s : State) (e : Nat) : LaunchState :=
  if (s.ttAt e).last == 0 then .ended else (Store.find? s.launches (s.ttAt e).last).elim .ended (·.st)

/-- A firing waits, when none does; otherwise it is skipped and counted. -/
def waitFiring (s : State) (e k : Nat) : State :=
  if (s.ttAt e).waiting.isSome then s.overrun e else s.updTt e (fun x => { x with waiting := some k })

/-- The next firing of an enabled entry (R438, R439). -/
def fire (s : State) (e : Nat) : State :=
  let x := s.ttAt e
  if !(e < 64 && x.enable && s.running) then s
  else
    let due := x.offset + BitVec.ofNat 64 x.k * x.period
    let t : State := { s.updTt e (fun x => { x with k := x.k + 1 }) with clock := if s.clock < due then due else s.clock }
    match t.previousState e, x.rule.toNat with
    | .ended, _ => t.issueTemplate e x.k
    | .preempted, 2 | .resuming, 2 => t.issueTemplate e x.k
    | .dispatching, 2 | .running, 2 =>
      let l := t.launchAt x.last
      let u := t.preemptLaunch x.last (some (l.complete, 6, l.origin))
      if u.previousState e == .preempted then u.issueTemplate e x.k else u.waitFiring e x.k
    | _, 2 | _, 1 => t.waitFiring e x.k
    | _, _ => t.overrun e

/-- Entry e is armed: it fires from the next of its firing times (R438). -/
def armEntry (x : TtEntry) (now : Word) : TtEntry :=
  { x with
    enable := true, waiting := none
    k := if now.toNat ≤ x.offset.toNat then 0 else (now.toNat - x.offset.toNat + x.period.toNat - 1) / Nat.max 1 x.period.toNat }

/-- A host write of 1 to enable (R438); a period outside its range is not armed. -/
def enableEntry (s : State) (e : Nat) : State :=
  let x := s.ttAt e
  if x.enable then s
  else if 1000 ≤ x.period.toNat && x.period.toNat ≤ 2 ^ 40 then s.updTt e (fun x => armEntry x s.clock)
  else s.discard

/-- A firing that waits begins when the previous instance has ended, or, under rule 2, has been pre-empted (R439). -/
def beginQueued (s : State) (e : Nat) : State :=
  let x := s.ttAt e
  match x.waiting with
  | none => s
  | some k =>
    let p := s.previousState e
    if p == .ended || (x.rule == 2 && (p == .preempted || p == .resuming)) then
      (s.updTt e (fun x => { x with waiting := none })).issueTemplate e k
    else if x.rule == 2 && (p == .dispatching || p == .running) then
      s.preemptLaunch x.last (some ((s.launchAt x.last).complete, 6, (s.launchAt x.last).origin))
    else s

end State

open State

/-- PREEMPT_LAUNCH: command 0x02 (R440). -/
def execPreemptLaunch (q : Nat) (s : State) : Host.Outcome State Fault Refusal :=
  .next (s.takeCommand q (fun b => plainCommand b && fieldAt b 0 1 == 2) (fun t b => t.preemptByCommand q b))
/-- SLOT_PREEMPT (R71): a pre-emption request reaches a slot; when every slot of the launch has stopped it is saved. -/
def execSlotPreempt (sid : Nat) (s : State) : Host.Outcome State Fault Refusal :=
  .next (if (s.slotAt sid).preReq then (s.preemptSlot sid).preemptStep (s.slotAt sid).rid.launch else s)
/-- COPY_QUIESCE_EXPIRY (R441): the quiesce of a core ends; when nothing of the launch is left running it is saved. -/
def execCopyQuiesceExpiry (core : Nat) (s : State) : Host.Outcome State Fault Refusal :=
  .next ((s.quiesceCore core).preemptStep (s.clusterAt (core / 8)).launch)
/-- RESUME_LAUNCH: command 0x03 (R443). -/
def execResumeLaunch (q : Nat) (s : State) : Host.Outcome State Fault Refusal :=
  .next (s.takeCommand q (fun b => plainCommand b && fieldAt b 0 1 == 3) (fun t b => t.resumeByCommand q b))
/-- LAUNCH_BEGIN (R431): a launch that waits begins, or one that waits for its resumption resumes (R443). -/
def execLaunchBegin (id : Nat) (s : State) : Host.Outcome State Fault Refusal :=
  .next (if (s.launchAt id).st == .resuming then s.tryResume id 0 else s.beginLaunch id 0 none)
/-- TT_FIRE (R439): the next firing time of an entry. -/
def execTtFire (e : Nat) (s : State) : Host.Outcome State Fault Refusal := .next (s.fire e)
/-- TT_ENTRY_ENABLE (R438). -/
def execTtEntryEnable (e : Nat) (s : State) : Host.Outcome State Fault Refusal :=
  .next (if e < 64 then s.enableEntry e else s.discard)
/-- TT_QUEUED_BEGIN (R439). -/
def execTtQueuedBegin (e : Nat) (s : State) : Host.Outcome State Fault Refusal := .next (s.beginQueued e)

end Sys2Proof.Machine
end

