-- ==== Sys2Proof/Machine/Boot.lean ====
section
/-! DEFINITION. Boot, measurement, versions, management and power (R450 to R458), and the clock's lock (R438). -/

namespace Sys2Proof.Machine

/-! ### SHA-256 (R451, R452: the digest that they name, FIPS 180-4; log 25) -/

namespace Sha

/-- Rotate a 32-bit word right. -/
def rotr (n x : Nat) : Nat := (x / 2 ^ n + x * 2 ^ (32 - n)) % 2 ^ 32

/-- The first 64 primes. -/
def primes : List Nat :=
  (List.range 312).filter (fun n => 2 ≤ n && (List.range 18).all (fun d => d < 2 || n ≤ d || n % d != 0))

/-- The first 32 bits of the fraction of the k-th root of p, for roots below 16. -/
def rootFraction (k p : Nat) : Nat :=
  (List.range 36).foldl (fun r i =>
    let t := r + 2 ^ (35 - i)
    if t ^ k ≤ p * 2 ^ (32 * k) then t else r) 0 % 2 ^ 32

/-- The initial hash value: the square roots of the first eight primes. -/
def init : List Nat := (primes.take 8).map (rootFraction 2)

/-- The round constants: the cube roots of the first 64 primes. -/
def consts : List Nat := primes.map (rootFraction 3)

/-- One more word of the message schedule, from the words so far, newest first. -/
def extendW (l : List Nat) : List Nat :=
  let w (i : Nat) : Nat := l.getD i 0
  let s0 := rotr 7 (w 14) ^^^ rotr 18 (w 14) ^^^ (w 14 / 2 ^ 3)
  let s1 := rotr 17 (w 1) ^^^ rotr 19 (w 1) ^^^ (w 1 / 2 ^ 10)
  (w 15 + s0 + w 6 + s1) % 2 ^ 32 :: l

/-- The 64 words of the schedule of a block of 16 words. -/
def schedule (b : List Nat) : List Nat := ((List.range 48).foldl (fun l _ => extendW l) b.reverse).reverse

/-- One round. -/
def round (h : List Nat) (kw : Nat × Nat) : List Nat :=
  let v (i : Nat) : Nat := h.getD i 0
  let s1 := rotr 6 (v 4) ^^^ rotr 11 (v 4) ^^^ rotr 25 (v 4)
  let ch := (v 4 &&& v 5) ^^^ ((2 ^ 32 - 1 - v 4) &&& v 6)
  let t1 := v 7 + s1 + ch + kw.1 + kw.2
  let s0 := rotr 2 (v 0) ^^^ rotr 13 (v 0) ^^^ rotr 22 (v 0)
  let maj := (v 0 &&& v 1) ^^^ (v 0 &&& v 2) ^^^ (v 1 &&& v 2)
  [(t1 + s0 + maj) % 2 ^ 32, v 0, v 1, v 2, (v 3 + t1) % 2 ^ 32, v 4, v 5, v 6]

/-- A block is hashed into the value so far. -/
def block (h : List Nat) (b : List Nat) : List Nat :=
  List.zipWith (fun x y => (x + y) % 2 ^ 32) h ((consts.zip (schedule b)).foldl round h)

/-- Big-endian number of a list of bytes. -/
def beNat (l : List Nat) : Nat := l.foldl (fun n b => n * 256 + b % 256) 0

/-- The n bytes of a number, big-endian. -/
def beBytes (x n : Nat) : List Nat := (List.range n).map (fun i => x / 256 ^ (n - 1 - i) % 256)

/-- The message with its padding. -/
def pad (m : List Nat) : List Nat :=
  m ++ [128] ++ List.replicate ((119 - m.length % 64) % 64) 0 ++ beBytes (8 * m.length) 8

/-- The words of block i of a padded message. -/
def blockWords (m : List Nat) (i : Nat) : List Nat :=
  (List.range 16).map (fun j => beNat ((m.drop (64 * i + 4 * j)).take 4))

/-- The digest of a list of bytes, as a big-endian number. -/
def digest (m : List Nat) : BitVec 256 :=
  let p := pad m
  let h := (List.range (p.length / 64)).foldl (fun h i => block h (blockWords p i)) init
  BitVec.ofNat 256 (h.foldl (fun n w => n * 2 ^ 32 + w) 0)

end Sha

/-- A measurement register after an extension (R452): M = SHA-256(M ‖ d). -/
def extended (m d : BitVec 256) : BitVec 256 := Sha.digest (Sha.beBytes m.toNat 32 ++ Sha.beBytes d.toNat 32)

/-- An image's key and header pass R451. -/
def imageOk (contents key signature : List Nat) (version : Nat) : Bool :=
  [7856, 16224, 29792].contains signature.length && Config.signatureVerifies contents key signature &&
  (List.range 4).any (fun i => Config.fusedDigest i == Sha.digest key && !Config.fusedRevoked i) &&
  Config.fusedVersion ≤ version && version < 2 ^ 32

/-- The bit of an interface in `down` (R456). -/
def ifaceBit : Iface → Nat
  | .host => 0 | .continuation => 1 | .rhojo => 2 | .firmware => 3 | .spdm => 4

/-- The module's highest minor of an interface; its only major is 1 (R454). -/
def ifaceMinor : Iface → Nat
  | .host => 0 | .continuation => 0 | .rhojo => 2 | .firmware => 1 | .spdm => 3

/-- What an interface runs against a partner's range (R454). -/
def agreement (i : Iface) (lo hi : Nat × Nat) : Option (Nat × Nat) :=
  if lo.1 ≤ 1 && 1 ≤ hi.1 then some (1, if hi.1 == 1 then Nat.min (ifaceMinor i) hi.2 else (ifaceMinor i)) else none

/-- The boot-status register (R456). -/
def statusWord (b : Boot) (ptp : Bool) : Nat :=
  b.fails * 2 ^ 40 + b.reason * 2 ^ 32 + (if b.reason == 0 then b.stage else b.failStage) * 2 ^ 24 +
  (b.down ||| b.lastDown).toNat * 2 ^ 8 + (if ptp then 16 else 0) + b.source * 4 + b.mode

namespace State

/-! ### The start (R450, R455) -/

/-- Change the boot state: a change of the status register is signalled with vector 66 (R460). -/
def updBoot (s : State) (f : Boot → Boot) : State :=
  let b := f s.boot
  { s with boot := b, msix := if statusWord b s.ptp == statusWord s.boot s.ptp then s.msix else 66 :: s.msix }

/-- A start fails (R455): the count in flash saturates, and nothing more runs until a reset (log 26). -/
def failStart (s : State) (reason : Nat) : State :=
  s.updBoot (fun b => { b with
    failed := true, fails := Nat.min 255 (b.fails + 1), failStage := b.stage, reason := reason, lastDown := b.down })

/-- A module reset (R450, R455): the start begins at stage 0, or minimal mode after three failed starts. What lies
outside the module, and what its flash and its place in the domain hold, stays (log 26). -/
def resetModule (s : State) : State :=
  let t : State := { State.reset with
    agenda := s.agenda, nonce := s.nonce, dev := s.dev, peers := s.peers, hostMem := s.hostMem, msix := s.msix
    readOut := s.readOut, outbox := s.outbox, boot := s.boot, ptp := s.ptp }
  let u := t.updBoot (fun b => {
    mode := if 3 ≤ b.fails then 2 else 0, fails := b.fails, failStage := b.failStage, reason := b.reason
    lastDown := b.down ||| b.lastDown, spdm := b.spdm })
  { u with ptp := false }

/-- Extend a measurement register, and log it (R452). -/
def extendRegister (s : State) (n : Nat) (d : BitVec 256) : State :=
  { s with boot := { s.boot with
    meas := Store.set s.boot.meas n (extended (Store.get 0 s.boot.meas n) d), log := s.boot.log ++ [(n, d)] } }

/-- The next stage begins. -/
def nextStage (s : State) : State := s.updBoot (fun b => { b with stage := b.stage + 1, other := false, images := 0 })

/-- Stage 5: queues accept commands; the fields of the last failure are cleared (R450, R454, R455). -/
def startRunning (s : State) : State :=
  let v := Store.get (1, 0) s.boot.agreed (ifaceBit .host)
  let t := s.updBoot (fun b => { b with
    stage := 5, mode := 1, fails := 0, reason := 0, failStage := 0, lastDown := 0, other := false, images := 0 })
  { t with queues := (List.range 64).map (fun q => (q, { t.queueAt q with vmaj := v.1, vmin := v.2 })) }

/-- An image of a stage could not be read or failed its verification: the stage's other source is tried once, then the
start fails (R450, R451). -/
def badImage (s : State) (reason : Nat) : State :=
  if s.boot.other then s.failStart reason else s.updBoot (fun b => { b with other := true })

/-- A verified image of stage 2: the eight Crocus images in die order, then the configuration table (R452, R453). -/
def stageTwo (s : State) (contents : List Nat) : State :=
  if s.boot.images < 8 then
    (s.extendRegister 2 (Sha.digest contents)).updBoot (fun b => { b with images := b.images + 1, other := false })
  else if !Config.tableOk contents then s.failStart 3
  else
    let t := s.extendRegister 2 (Sha.digest contents)
    ({ t with
      boot := { t.boot with table := contents }
      thresholds := (List.range 20).filterMap (fun c => (Config.tableThreshold contents c).map (fun n => (c, n))) }).nextStage

/-- The result of the stage in progress (R450). -/
def stageResult (s : State) : StageResult → State
  | .failed r => if r == 0 then s else s.failStart r.val
  | .unreadable => if s.boot.stage < 3 then s.badImage 2 else s
  | .done =>
    if s.boot.stage == 3 then s.nextStage
    else if s.boot.stage == 4 && (Store.find? s.boot.agreed (ifaceBit .host)).isSome &&
        (Store.find? s.boot.agreed (ifaceBit .firmware)).isSome then s.startRunning
    else s
  | .image contents key signature version =>
    if 3 ≤ s.boot.stage then s
    else if !imageOk contents key signature version then
      s.badImage (if s.boot.stage == 2 && s.boot.images == 8 then 3 else 1)
    else if s.boot.stage == 2 then s.stageTwo contents
    else
      let t := s.extendRegister s.boot.stage (Sha.digest contents)
      (if s.boot.stage == 0 then t.updBoot (fun b => { b with source := if b.other then 1 else 0 }) else t).nextStage

/-- The start is in progress. -/
def starting (s : State) : Bool := s.boot.mode == 0 && !s.boot.failed

/-- An interface negotiates (R454): at stage 4, or later as a partner appears; SPDM also in minimal mode (R455). -/
def negotiate (s : State) (i : Iface) (lo hi : Nat × Nat) : State :=
  if !((s.starting && s.boot.stage == 4) || s.boot.mode == 1 || (s.boot.mode == 2 && i == .spdm)) then s
  else match agreement i lo hi with
    | some v =>
      let t := s.updBoot (fun b => { b with
        agreed := Store.set b.agreed (ifaceBit i) v, down := b.down &&& ~~~((1 : BitVec 5) <<< (ifaceBit i)) })
      if i == .host && s.boot.mode == 1
        then { t with queues := t.queues.map (fun q => (q.1, { q.2 with vmaj := v.1, vmin := v.2 })) } else t
    | none =>
      let t := s.updBoot (fun b => { b with
        agreed := Store.erase b.agreed (ifaceBit i), down := b.down ||| ((1 : BitVec 5) <<< (ifaceBit i)) })
      if s.boot.mode == 0 && (i == .host || i == .firmware) then t.failStart 7 else t

/-! ### Measurements (R452) -/

/-- The answer of the responder: what is signed, then the signature (log 27). -/
def spdmAnswer (s : State) : SpdmRequest → List Nat
  | .getMeasurements index nonce =>
    let values := match index with
      | some i => Sha.beBytes (Store.get 0 s.boot.meas i.val).toNat 32
      | none => (List.range 16).flatMap (fun i => Sha.beBytes (Store.get 0 s.boot.meas i).toNat 32)
    0x60 :: nonce :: values ++ s.boot.log.flatMap (fun e => e.1 :: Sha.beBytes e.2.toNat 32)
  | .challenge nonce => [0x03, nonce]
  | .keyExchange nonce => [0x64, nonce]
  | .other => [0x7F]

/-- The module answers an SPDM request while the interface is not down; an unsupported one with an unsigned error. -/
def spdm (s : State) (r : SpdmRequest) : State :=
  if s.boot.down.getLsbD (ifaceBit .spdm) then s
  else
    let m := s.spdmAnswer r
    let signed := if r == .other then m else m ++ Config.spdmSignature s.nonce m
    { s with
      nonce := s.nonce + 1
      boot := { s.boot with
        spdm := signed :: s.boot.spdm
        sessions := match r with
          | .keyExchange _ => s.boot.sessions + 1
          | _ => s.boot.sessions } }

/-! ### Management (R457, R458) -/

/-- A management reset: the count is cleared, then the module is reset. -/
def manage (s : State) : State := (s.updBoot (fun b => { b with fails := 0 })).resetModule

/-- A write of the cap (R458). -/
def writeCap (s : State) (w : Nat) : State :=
  { s with boot := { s.boot with cap := Nat.max 1200 (Nat.min 4800 w) } }

/-- One step of the rates of every die (R457). -/
def stepRates (m : Store Nat) (cap watts : Nat) : Store Nat :=
  (List.range 8).map (fun d =>
    let x := Store.get 16 m d
    (d, if cap < watts then Nat.max 1 (x - 1) else if 20 * watts ≤ 19 * cap then Nat.min 16 (x + 1) else x))

/-- An interval of the power controller (R457): the cap in force, then the rates, or the halt. A coolant step is a
sixteenth of the full cap (log 28). -/
def power (s : State) (watts : Nat) (hot critical : Bool) : State :=
  if critical then s.updBoot (fun b => { b with mode := 3 })
  else
    let b := s.boot
    let c := if hot then Nat.min b.cap b.capNow - 300 else b.cap
    { s with boot := { b with capNow := c, steps := stepRates b.steps c watts } }

/-- The clock gains or loses its grandmaster (R438, R456, R460): vectors 65 and 66. -/
def ptpLock (s : State) (locked : Bool) (time : Nat) : State :=
  let t : State := { s with clock := if locked then BitVec.ofNat 64 time else s.clock, ptp := locked }
  if locked == s.ptp then t else { t with msix := 66 :: 65 :: t.msix }

end State

open State

/-- MANAGEMENT_RESET (R458). -/
def execManagementReset (s : State) : Host.Outcome State Fault Refusal := .next s.manage
/-- CLEAR_FAIL_COUNT (R458). -/
def execClearFailCount (s : State) : Host.Outcome State Fault Refusal := .next (s.updBoot (fun b => { b with fails := 0 }))
/-- CAP_WRITE (R458). -/
def execCapWrite (w : BitVec 32) (s : State) : Host.Outcome State Fault Refusal := .next (s.writeCap w.toNat)
/-- POWER_INTERVAL (R457). -/
def execPowerInterval (watts : Nat) (hot critical : Bool) (s : State) : Host.Outcome State Fault Refusal :=
  .next (s.power watts hot critical)
/-- MODULE_RESET (R450, R455). -/
def execModuleReset (s : State) : Host.Outcome State Fault Refusal := .next s.resetModule
/-- BOOT_STAGE_COMPLETE (R450 to R453). -/
def execBootStageComplete (r : StageResult) (s : State) : Host.Outcome State Fault Refusal :=
  .next (if s.starting then s.stageResult r else s)
/-- BOOT_TIMEOUT (R455). -/
def execBootTimeout (s : State) : Host.Outcome State Fault Refusal := .next (if s.starting then s.failStart 6 else s)
/-- VERSION_NEGOTIATION (R454). -/
def execVersionNegotiation (i : Iface) (lo hi : Nat × Nat) (s : State) : Host.Outcome State Fault Refusal :=
  .next (s.negotiate i lo hi)
/-- MEASUREMENT_EXTEND (R452): the control kernel, which runs from stage 2 on, extends registers 6 to 15 on request. -/
def execMeasurementExtend (n : Fin 16) (d : BitVec 256) (s : State) : Host.Outcome State Fault Refusal :=
  .next (if 6 ≤ n.val && 2 ≤ s.boot.stage then s.extendRegister n.val d else s)
/-- SPDM_REQUEST (R452). -/
def execSpdmRequest (r : SpdmRequest) (s : State) : Host.Outcome State Fault Refusal := .next (s.spdm r)
/-- PTP_LOCK_CHANGE (R438). -/
def execPtpLockChange (locked : Bool) (time : Nat) (s : State) : Host.Outcome State Fault Refusal :=
  .next (s.ptpLock locked time)

end Sys2Proof.Machine
end

