-- ==== Sys2Proof/Machine/Fabric.lean ====
section
/-! DEFINITION. The fabric (R463 to R473) and the host's accesses (R460, R461): flits, lanes, remote writes, trace rings,
BAR0 and BAR2. -/

namespace Sys2Proof.Machine

/-- CRC-64 over bytes, most significant bit first, with the ECMA-182 polynomial (R463, log 25). -/
def crc64 (l : List Byte) : BitVec 64 :=
  l.foldl (fun (c : BitVec 64) (b : Byte) => (List.range 8).foldl (fun (c : BitVec 64) _ =>
    if c.msb then (c <<< 1) ^^^ (0x42F0E1EBA9EA3693 : BitVec 64) else c <<< 1) (c ^^^ BitVec.ofNat 64 (b.toNat * 2 ^ 56))) 0

/-- A flit's sequence number (R463). -/
def flitSeq (f : Flit) : BitVec 16 := BitVec.ofNat 16 (fieldAt f.bytes 0 2)
/-- The highest sequence that its sender has received (R463). -/
def flitAck (f : Flit) : BitVec 16 := BitVec.ofNat 16 (fieldAt f.bytes 2 2)
/-- Its stop bits (R463). -/
def flitStop (f : Flit) : BitVec 4 := BitVec.ofNat 4 (fieldAt f.bytes 4 1 / 16)

/-- What stays in a replay buffer after an acknowledgement (R465). -/
def acked (a : BitVec 16) (l : List (BitVec 16 × Nat)) : List (BitVec 16 × Nat) :=
  match l.findIdx? (fun e => e.1 == a) with
  | some i => l.drop (i + 1)
  | none => l

/-- The stop bit of a channel whose buffer holds n of its 512 flits (R464). -/
def stopBit (old : Bool) (n : Nat) : Bool := if 256 ≤ n then true else if n < 128 then false else old

/-- A channel of a port holds n flits more, or one fewer. -/
def heldFlits (x : Port) (vc : Nat) (more : Bool) : Port :=
  let n := if more then Store.get 0 x.held vc + 1 else Store.get 0 x.held vc - 1
  { x with
    held := Store.set x.held vc n
    stopOut := if stopBit (x.stopOut.getLsbD vc) n then x.stopOut ||| ((1 : BitVec 4) <<< vc)
      else x.stopOut &&& ~~~((1 : BitVec 4) <<< vc) }

/-- The source word of a trace entry (R472). -/
def sourceWord (w : RemoteWrite) : Nat :=
  w.module_ % 1024 * 2 ^ 22 + w.cluster % 1024 * 2 ^ 12 + w.core % 8 * 2 ^ 9 + w.slot % 2 * 2 ^ 8 + w.kind.val * 16 +
  w.data.length.log2 % 16

namespace State

/-! ### Remote writes (R468, R470, R472) -/

/-- A remote write at its home: its bytes, and the descriptor that it sets; an atomic, a reduction (R390), an arrival at an exact
cell (R164). The bytes written are answered. -/
def remoteWrite (s : State) (w : RemoteWrite) : State × List Byte :=
  match w.op, w.cell with
  | none, some (m, e) =>
    let t := (wordsOf w.pa 32).foldl (fun u x => u.recallWord x) (s.settleRange w.pa 32)
    let b := leBytes (cellArrive (leNat (t.peekBytes w.pa 32)) m e) 32
    (t.writeHome w.pa b, b)
  | none, none =>
    let t := s.writeHome w.pa w.data
    (match w.desc with
      | some d => t.setDesc (.glob w.pa) d
      | none => t, w.data)
  | some (op, ty, c), _ =>
    let n := ty.width / 8
    let t := (wordsOf w.pa n).foldl (fun u x => u.recallWord x) (s.settleRange w.pa n)
    let b := leBytes (amoApply op ty (leNat (t.peekBytes w.pa n)) (leNat w.data) c).1 n
    (t.writeHome w.pa b, b)

/-- The caches of this module apply the code of another module's access (R468), in domain 0 (log 91). -/
def remoteTouch (s : State) (pa n nu : Nat) : State := s.passCaches none 0 nu [(pa, n)] (fun _ _ => false)

/-- A port logs a write that it hands over, when its ring is enabled and the address lies in its range (R472, R473). -/
def trace (s : State) (p : Nat) (w : RemoteWrite) (b : List Byte) : State :=
  let x := s.portAt p
  let off := w.pa % 2 ^ 40
  if !(x.enable && x.lo.toNat ≤ off && off < x.hi.toNat) then s
  else
    let i := x.head.toNat % 4096
    let lost := (Store.find? x.ring i).isSome && !Config.entryRead s.nonce
    let e : TraceEntry := {
      pa := w.pa, src := BitVec.ofNat 32 (sourceWord w), seq := x.head, cyc := s.cyc
      data := BitVec.ofNat 64 (leNat (b.take 8)) }
    if x.freeze && lost then { s with nonce := s.nonce + 1 }
    else ({ s with nonce := s.nonce + 1 }).updPort p (fun x => { x with ring := Store.set x.ring i e, head := x.head + 1 })

/-- A port hands its oldest remote write to the home (R470). -/
def handover (s : State) (p : Nat) : State :=
  match (s.portAt p).arrived with
  | [] => s
  | (w, vc) :: rest =>
    let s1 := s.updPort p (fun x => { (match vc with
      | some v => heldFlits x v false
      | none => x) with arrived := rest })
    let (s2, b) := (s1.remoteTouch w.pa (if w.cell.isSome then 32 else w.data.length) w.nu.val).remoteWrite w
    s2.trace p w b

/-- Hand over n writes. -/
def handoverAll (p : Nat) : Nat → State → State
  | 0, s => s
  | n + 1, s => handoverAll p n (s.handover p)

/-! ### Packets that arrive (R85, R86, R303, R468) -/

/-- A place for a record or message that another module sent. -/
def postPlace (s : State) (p : Placement) : State := s.post (.place { p with counted := true })

/-- One packet: writes wait for their handover; the others act. -/
def deliverPacket (s : State) (p : Nat) : Delivery → State
  | .write w => if deviceOf w.pa == s.dev && spaceOf w.pa == 0
    then s.updPort p (fun x => { x with arrived := x.arrived ++ [(w, none)] }) else s
  | .load pa n nu =>
    if deviceOf pa == s.dev && spaceOf pa == 0 then
      let t := (s.settleRange pa n).remoteTouch pa n nu.val
      { t with outbox := t.outbox ++ [.data pa (t.peekBytes pa n) (t.descAt (.glob pa))] }
    else s
  | .record device target launch record key join =>
    s.postPlace { sid := remoteSid + device, launch := launch, target := target, record := record, timed := key.isSome
                  key := key.getD (0, 0, 0), message := none, join := join }
  | .message device target launch head payload join =>
    s.postPlace { sid := remoteSid + device, launch := launch, target := target, record := 0, timed := false
                  message := some (Head.ofBytes head, payload), join := join }
  | .event var t => s.post (.event (var / 2 ^ 14 % 1024) var t)
  | .refusal launch device => s.tell (.refused launch device)
  | .response => s

/-- The last write of a flit frees its buffer entry; a flit without one has freed it. -/
def holdFlit (s : State) (p vc before : Nat) : State :=
  s.updPort p (fun x =>
    if before < x.arrived.length then
      { heldFlits x vc true with
        arrived := x.arrived.zipIdx.map (fun e => if e.2 + 1 == x.arrived.length then (e.1.1, some vc) else e.1) }
    else x)

/-- Messages that wait at a port leave while they may. -/
def sendUnsent (s : State) (p : Nat) : State := (s.portAt p).unsent.foldl (fun t k => t.sendFlit p k) s

/-- A flit passed its checks (R463 to R465). -/
def acceptFlit (s : State) (p : Nat) (f : Flit) : State :=
  let s1 := s.updPort p (fun x => { x with
    rx := flitSeq f, waitReplay := false, failed := 0, replay := acked (flitAck f) x.replay, stopIn := flitStop f })
  let n := (s1.portAt p).arrived.length
  let s2 := f.packets.foldl (fun t d => t.deliverPacket p d) s1
  (s2.holdFlit p f.vc.val n).sendUnsent p

/-- A flit reaches a port (R465): accepted in sequence, or discarded until the sender's replay. A replay that fails its
check again counts as failed. -/
def receive_ (s : State) (p : Nat) (f : Flit) : State :=
  let x := s.portAt p
  if !(p < 18 && x.up) || x.retraining || s.boot.down.getLsbD (ifaceBit .rhojo) then s
  else
    let next := flitSeq f == x.rx + 1
    if next && crc64 f.bytes == f.crc then s.acceptFlit p f
    else s.updPort p (fun x => { x with
      waitReplay := true, failed := if x.waitReplay && next then x.failed + 1 else x.failed })

/-! ### Lanes (R465, R466, R469) -/

/-- The machine check of a lost packet (R465, R399). -/
def lostTval : Word := BitVec.ofNat 64 (6 * 2 ^ 24 + 0x13)

/-- A posted packet is lost: its counter falls, and its slot reports it. -/
def losePosted (s : State) (sid : Nat) (c : Option Ctr) (va : Word) : State :=
  match c with
  | none => s
  | some c => s.updSlot sid (fun t => (t.dec c).defer { tval := lostTval, addr := va })

/-- What waits for a lost answer goes on: the counter of loads falls, an acquire holds no longer, and the slot reports the
packet. -/
def loseAnswer (t : Slot) (acq : Bool) (va : Word) : Slot :=
  let u := (t.dec .ld).defer { tval := lostTval, addr := va }
  if acq then u.unhold else u

/-- A packet left in the replay buffer of a port that is down (R465). -/
def losePacket (s : State) (k : Nat) : State :=
  match Store.find? s.flight k with
  | some (.load o) => (s.removeMsg k).updSlot o.sid (fun t => loseAnswer t o.acq o.va)
  | some (.atom o) =>
    let t := s.removeMsg k
    if o.live then t.updSlot o.sid (fun t => loseAnswer t o.acq o.va) else t
  | some (.store o) => (s.removeMsg k).losePosted o.sid o.ctr 0
  | some (.red o) => (s.removeMsg k).losePosted o.sid o.ctr 0
  | some (.cell o) => match o.arg with
    | .inl _ => (s.removeMsg k).losePosted o.sid o.ctr o.va
    | .inr _ => (s.removeMsg k).losePosted o.sid o.ctr o.va
  | _ => s

/-- The residues of a port move to the lowest port that is up (R469). -/
def moveResidues (s : State) (p : Nat) : State :=
  match (List.range 18).find? (fun q => (s.portAt q).up) with
  | none => s
  | some q => { s with portMap := (List.range 18).map (fun r =>
      (r, if Store.get r s.portMap r == p then q else Store.get r s.portMap r)) }

/-- A port is down: what has arrived is applied, its packets are lost, its residues and what waits to leave move to
another port. -/
def portDown (s : State) (p : Nat) : State :=
  let s1 := handoverAll p (s.portAt p).arrived.length s
  let s2 := (s1.portAt p).replay.foldl (fun t e => t.losePacket e.2) s1
  let wait := (s2.portAt p).unsent
  let s3 := (s2.updPort p (fun x => { x with up := false, retraining := false, replay := [], unsent := [] })).moveResidues p
  match (List.range 18).find? (fun q => (s3.portAt q).up) with
  | some q => wait.foldl (fun t k => t.sendFlit q k) s3
  | none => s3.updPort p (fun x => { x with unsent := wait })

/-- Retraining ends (R465, R466): on four lanes, on two from version 1.2 on, or the port is down. -/
def retrained (s : State) (p lanes : Nat) : State :=
  if !(s.portAt p).retraining then s
  else if lanes == 4 || (lanes == 2 && 2 ≤ (Store.get (1, 0) s.boot.agreed (ifaceBit .rhojo)).2) then
    (s.updPort p (fun x => { x with retraining := false, lanes := lanes, failed := 0 })).sendUnsent p
  else s.portDown p

/-- A trace ring is enabled (R473): it is cleared and its sequence begins at 0. -/
def enableTrace (s : State) (p : Nat) : State :=
  if (s.portAt p).enable then s else s.updPort p (fun x => { x with enable := true, ring := [], head := 0 })

/-! ### BAR2 (R461) -/

/-- Write a byte into the home's copy and through to the memory side. -/
def throughWrite (s : State) (pa : Nat) : List Byte → State
  | [] => s
  | b :: t =>
    let u := (s.settle (lineOf pa)).recallWord (wordOf pa)
    ({ u with mem := Memory.write u.mem pa b, l2 := Store.erase u.l2 pa } : State).throughWrite (pa + 1) t

/-- A host write through BAR2: blocks that it covers whole take descriptor 0 (R461). -/
def hostWriteMem (s : State) (off : Nat) (data : List Byte) : State :=
  if 2 ^ 40 < off + data.length then s
  else
    let pa := s.dev * 2 ^ 42 + off
    let whole := (List.range (data.length / 64 + 1)).map (fun i => (pa + 63) / 64 + i)
    (whole.filter (fun b => 64 * b + 64 ≤ pa + data.length)).foldl (fun t b => t.setDesc (.glob (64 * b)) 0)
      (s.throughWrite pa data)

/-- A host read through BAR2, served at the memory side. -/
def hostReadMem (s : State) (off n : Nat) : State :=
  if 2 ^ 40 < off + n then s
  else { s with readOut := (List.range n).map (fun i => Memory.read s.mem (s.dev * 2 ^ 42 + off + i)) :: s.readOut }

/-! ### BAR0 (R460) -/

/-- Bytes of a doubleword replaced by those of a write that covers bytes lo to lo + n − 1 of it. -/
def mergeBytes (old v lo n : Nat) : Nat := putBits old (8 * (lo + n) - 1) (8 * lo) (v % 2 ^ (8 * n))

/-- Half h of a doubleword field replaced. -/
def setHalf (x : Word) (h : Nat) (f : Nat → Nat) : Word :=
  BitVec.ofNat 64 (putBits x.toNat (32 * h + 31) (32 * h) (f (bits x.toNat (32 * h + 31) (32 * h)) % 2 ^ 32))

/-- A host write that breaks R425: state 3 from state 0 or 1; otherwise it is discarded. -/
def breakQueue (s : State) (q : Nat) : State :=
  if (s.queueAt q).state ≤ 1 then s.updQueue q (fun x => { x with state := 3, error := x.consumer }) else s.discard

/-- A host write of a queue's state (R427). -/
def writeQueueState (s : State) (q v : Nat) : State :=
  let x := s.queueAt q
  if v == 0 && x.state == 0 then s
  else if v == 0 && x.state == 3 then s.updQueue q queueOff
  else if v == 1 && x.state == 0 && s.running then s.updQueue q (fun x => checkQueue { x with state := 1 })
  else if v == 2 && x.state == 1 then s.destroyQueue q
  else s.discard

/-- A host write of a doubleword of a queue's block (R425): base and lsz change only in state 0. -/
def writeQueue (s : State) (q off : Nat) (f : Nat → Nat) : State :=
  let x := s.queueAt q
  if off < 8 then
    if x.state != 0 then s.breakQueue q
    else
      let b := (setHalf (BitVec.ofNat 64 x.base) (off / 4) f).toNat
      if b % 64 == 0 then s.updQueue q (fun x => { x with base := b }) else s.breakQueue q
  else if off == 8 then
    let v := f (x.vmaj * 2 ^ 24 + x.vmin * 2 ^ 16 + x.lsz * 16 + x.state)
    let lsz := bits v 7 4
    if lsz == x.lsz then s.writeQueueState q (v % 4)
    else if x.state != 0 then s.breakQueue q
    else
      let t := s.updQueue q (fun x => checkQueue { x with lsz := lsz })
      if (t.queueAt q).state == 3 then t else t.writeQueueState q (v % 4)
  else if off == 16 then s.doorbell q (BitVec.ofNat 32 (f x.producer.toNat))
  else s.discard

/-- A host write of a doubleword of an entry of the time-triggered table (R438). -/
def writeEntry (s : State) (e off : Nat) (f : Nat → Nat) : State :=
  let x := s.ttAt e
  if off < 24 then
    if x.enable then s.discard
    else s.updTt e (fun x =>
      if off < 8 then { x with period := setHalf x.period (off / 4) f }
      else if off < 16 then { x with offset := setHalf x.offset (off / 4 - 2) f }
      else { x with template := setHalf x.template (off / 4 - 4) f })
  else if off == 24 then
    let v := f (x.rule.toNat + if x.enable then 256 else 0)
    let rule := BitVec.ofNat 8 v
    let on := v / 256 % 2 == 1
    if x.enable then
      let t := if rule == x.rule then s else s.discard
      if on then t else t.updTt e (fun x => { x with enable := false, waiting := none })
    else
      let t := s.updTt e (fun x => { x with rule := rule })
      if on then t.enableEntry e else t
  else if f x.overruns.toNat == 0 then s.updTt e (fun x => { x with overruns := 0 })
  else s.discard

/-- A host write of a doubleword of a port's trace block (R473). -/
def writeTrace (s : State) (p off : Nat) (f : Nat → Nat) : State :=
  let x := s.portAt p
  if off < 8 then s.updPort p (fun x => { x with lo := setHalf x.lo (off / 4) f })
  else if off < 16 then s.updPort p (fun x => { x with hi := setHalf x.hi (off / 4 - 2) f })
  else if off == 16 then
    let v := f ((if x.enable then 1 else 0) + if x.freeze then 2 else 0)
    let t := s.updPort p (fun x => { x with freeze := v / 2 % 2 == 1 })
    if v % 2 == 1 then t.enableTrace p else t.updPort p (fun x => { x with enable := false })
  else s.discard

/-- A host write of an aligned doubleword of register space: `f` gives its new value from its old one (R460). -/
def writeReg (s : State) (off : Nat) (f : Nat → Nat) : State :=
  if off == 0x200 then
    if f 0 == 1 then s.manage
    else if f 0 == 2 then s.updBoot (fun b => { b with fails := 0 })
    else s.discard
  else if off == 0x208 then s.writeCap (f s.boot.capNow)
  else if 0x100000 ≤ off && off < 0x100000 + 64 * 64 then
    s.writeQueue ((off - 0x100000) / 64) (off % 64) f
  else if 0x200000 ≤ off && off < 0x200000 + 64 * 18 then
    s.writeTrace ((off - 0x200000) / 64) (off % 64) f
  else if 0x300000 ≤ off && off < 0x300000 + 32 * 64 then
    s.writeEntry ((off - 0x300000) / 32) (off % 32) f
  else s.discard

/-- The doublewords that a host write of up to 8 bytes touches are written in order. -/
def writeRegs (s : State) (off size : Nat) (value : Word) : State :=
  (List.range ((off % 4 + size + 3) / 4)).foldl (fun t i =>
    let d := off / 4 * 4 + 4 * i
    let lo := Nat.max off d
    let hi := Nat.min (off + size) (d + 4)
    t.writeReg d (fun old => mergeBytes old (value.toNat / 2 ^ (8 * (lo - off))) (lo - d) (hi - lo))) s

/-- A host write of up to 8 bytes at an offset of BAR0: one that is discarded counts once. -/
def writeBar0 (s : State) (off size : Nat) (value : Word) : State :=
  if size == 0 || 2 ^ 23 < off + size then s
  else
    let t := s.writeRegs off size value
    { t with discards := Nat.min t.discards (s.discards + 1) }

end State

open State

/-- FLIT_RECEIVE (R465). -/
def execFlitReceive (port : Nat) (f : Flit) (s : State) : Host.Outcome State Fault Refusal := .next (s.receive_ port f)
/-- LINK_RETRAIN (R465): after 16 failed replays in a row. -/
def execLinkRetrain (port : Nat) (s : State) : Host.Outcome State Fault Refusal :=
  .next (if 16 ≤ (s.portAt port).failed && (s.portAt port).up then s.updPort port (fun x => { x with retraining := true }) else s)
/-- RETRAINING_END (R465). -/
def execRetrainingEnd (port lanes : Nat) (s : State) : Host.Outcome State Fault Refusal := .next (s.retrained port lanes)
/-- REMOTE_WRITE_HANDOVER (R470, R472). -/
def execRemoteWriteHandover (port : Nat) (s : State) : Host.Outcome State Fault Refusal := .next (s.handover port)
/-- TRACE_ENABLE (R473). -/
def execTraceEnable (port : Nat) (s : State) : Host.Outcome State Fault Refusal :=
  .next (if port < 18 then s.enableTrace port else s.discard)
/-- HOST_BAR2_WRITE (R461). -/
def execHostBar2Write (off : Nat) (data : List Byte) (s : State) : Host.Outcome State Fault Refusal :=
  .next (s.hostWriteMem off data)
/-- HOST_BAR2_READ (R461). -/
def execHostBar2Read (off n : Nat) (s : State) : Host.Outcome State Fault Refusal := .next (s.hostReadMem off n)
/-- REGISTER_WRITE (R460). -/
def execRegisterWrite (off : Nat) (size : Fin 9) (value : Word) (s : State) : Host.Outcome State Fault Refusal :=
  .next (s.writeBar0 off size.val value)

end Sys2Proof.Machine
end

