-- ==== Sys2Proof/Machine/Debug.lean ====
section
/-! DEFINITION. Requests over the debug interface (R112, R371, R376, R380, R405, R448). -/

namespace Sys2Proof.Machine

namespace State

/-- `set`: a plain store of the launch, in the windows of the stopped slot's task (R380). A byte that the task may not
write is not written. -/
def debugStore (s : State) (sid : Nat) (va : Word) : List Byte → State
  | [] => s
  | b :: t =>
    (match s.locate sid va 1 .store with
      | .ok l => s.applyPiece sid false true { loc := l, bytes := [b] }
      | .error _ => s).debugStore sid (va + 1) t

/-- A byte as the debug interface reads it: no window check (R380). -/
def debugByte (s : State) (sid : Nat) (va : Word) : Option Loc :=
  let v := va.toNat
  if v / 2 ^ 32 != 0xFFFFFF00 then
    match s.translate (coreOf sid) (s.slotAt sid).rid.launch va .load with
    | .ok pa => some (.glob pa)
    | .error _ => none
  else
    let lo := v % 2 ^ 32
    let k := (lo - 0x1000000) / 0x40000
    if lo < 0x40000 then some (.scr (coreOf sid) (((scratchOf (s.slotAt sid).head).1 * 4096 + lo) % 0x40000))
    else if 0x1000000 ≤ lo && lo < 0x1000000 + 8 * 0x40000 then
      let core := pkgOf sid * 8 + k
      let base := match (s.teamOf sid).bind (fun t => s.peerHolder (pkgOf sid) t.1 k) with
        | some a => a.base
        | none => 0
      some (.scr core ((base * 4096 + (lo - 0x1000000) % 0x40000) % 0x40000))
    else none

/-- Bytes as the debug interface reads them; one that has no place is left out. -/
def debugBytes (s : State) (sid : Nat) (va : Word) (n : Nat) : List Byte :=
  (List.range n).filterMap (fun i => (s.debugByte sid (va + BitVec.ofNat 64 i)).map (fun l => match l with
    | .glob pa => (s.settleRange pa 1).peek pa
    | .scr _ _ => s.readLoc l))

/-- One byte for a truth value. -/
def flagByte (b : Bool) : Byte := if b then 1 else 0

/-- `lines`: level, cache and set, domain and code of the ways that hold a line, in one level's sets (R405). -/
def debugLine (level line : Nat) (sets : Store (Store Way)) : List Byte :=
  sets.flatMap (fun e => e.2.flatMap (fun w =>
    if w.2.line == line then BitVec.ofNat 8 level :: leBytes e.1 4 ++ [BitVec.ofNat 8 w.2.dom, BitVec.ofNat 8 w.2.code] else []))

/-- A record of Larkspur as 64 bytes (R290). -/
def recordBytes (v : Var) : List Byte :=
  ([v.q, v.x, v.d1, v.d2, v.tx, v.tn] : List Word).flatMap (fun x => leBytes x.toNat 8) ++
    leBytes v.dq.toNat 4 ++ leBytes v.dtmin.toNat 4 ++ leBytes v.fn.toNat 2 ++ leBytes v.mf.toNat 2 ++ leBytes v.dep.toNat 4

/-- What a read of the debugger answers (R371, R376, R380, R405, R448). -/
def debugAnswer (s : State) (sid : Nat) : DebugRead → List Byte
  | .g n => leBytes ((s.slotAt sid).gr n).toNat 8
  | .p => [(s.slotAt sid).p]
  | .v n => leBytes ((s.slotAt sid).vr n).lanes.toNat 512 ++ leBytes ((s.slotAt sid).vr n).desc.toNat 16
  | .m n => leBytes ((s.slotAt sid).mr n).toNat 128
  | .csr n => ((State.csrRead { s with cur := sid } n).map (fun x => leBytes x.toNat 8)).getD []
  | .bytes va n => s.debugBytes sid va n
  | .tag va => match s.debugByte sid va with
    | some (.scr c o) => [flagByte (s.tagAt c o)]
    | _ => []
  | .acc a i j => leBytes ((s.slotAt sid).accEl (a % 2) i j) 4 ++ [flagByte ((s.slotAt sid).own.getLsbD (a % 2))]
  | .block va =>
    let b : Word := BitVec.ofNat 64 (va.toNat / 64 * 64)
    match s.debugByte sid b with
    | some l => leBytes (s.descAt l).toNat 2 ++ s.debugBytes sid b 4
    | none => []
  | .lines va => match s.debugByte sid va with
    | some (.glob pa) =>
      let f (level : Nat) (sets : Store (Store Way)) := debugLine level (lineOf pa) sets
      f 1 s.l1Sets ++ f 2 s.l2Sets ++ f 3 s.llcSets
    | _ => []
  | .record v => recordBytes ((s.clusterAt (pkgOf sid)).lark.var v)
  | .lark =>
    let t : State := { s with cur := sid }
    let w (x : Word) := leBytes x.toNat 8
    w (t.larkStat 0) ++ w t.lark.end_ ++ w (BitVec.ofNat 64 ((t.treeMin.map (·.1)).getD (2 ^ 64 - 1))) ++
      ((List.range 7).flatMap (fun k => w (t.larkStat (k + 1))))
  | .trail =>
    let x := (s.clusterAt (pkgOf sid)).phlox
    x.trail.flatMap (fun n => match Store.find? x.rows n with
      | some r => leBytes n 2 ++ flagByte r.val :: leBytes r.level 2 ++ leBytes r.reason 2 ++ [flagByte r.nr]
      | none => [])
  | .col n => (Store.find? (s.clusterAt (pkgOf sid)).phlox.cols n).elim [] (fun c => leBytes c.cells.toNat 128)
  | .row n => (Store.find? (s.clusterAt (pkgOf sid)).phlox.rows n).elim [] (fun r =>
      flagByte r.val :: leBytes r.level 2 ++ leBytes r.reason 2 ++ flagByte r.nr :: leBytes r.tpos 2)
  | .team id => ((s.clusterAt (pkgOf sid)).teams.filter (fun t => t.id == id)).flatMap (fun t =>
      leBytes t.members.toNat 8 ++ leBytes t.faulted.toNat 8 ++ leBytes t.phase.toNat 4)
  | .task t => flagByte ((s.slotAt t).run != .idle) :: leBytes (s.slotAt t).rid.addr.toNat 8 ++ leBytes (s.slotAt t).pc.toNat 8
  | .physical pa n => (List.range n).map (fun i => (s.settleRange (pa + i) 1).peek (pa + i))

/-- Every accepted instruction of a slot has completed (R371, R376, R380, R405). -/
def drained (s : State) (sid : Nat) : Bool :=
  let t := s.slotAt sid
  t.vq.isEmpty && t.mq.isEmpty && t.pq.isEmpty && !s.snapping sid

/-- A read of the debugger, which changes nothing else; it is answered when what the slot accepted has completed. -/
def debugRead (s : State) (sid : Nat) (r : DebugRead) : State :=
  if s.drained sid then { s with readOut := s.debugAnswer sid r :: s.readOut } else s

/-- brynd resumes or launches on the cluster that it keeps free for it (R448), with the domain that it names (R405). -/
def debugResume (s : State) (id first : Nat) (dom : Option Nat) : State :=
  match (s.launchAt id).st with
  | .waiting => s.beginLaunch id first dom
  | .preempted => (s.updLaunch id (fun l => { l with st := .resuming })).tryResume id first
  | .resuming => s.tryResume id first
  | _ => s

/-- A request of the debugger. -/
def debug (s : State) : DebugRequest → State
  | .arm sid on => s.updSlot sid (fun t => { t with armed := on })
  | .hold sid => s.updSlot sid (fun t => if t.run == .running then { t with run := .debugHeld } else t)
  | .release sid => s.updSlot sid (fun t => if t.run == .debugHeld then { t with run := .running } else t)
  | .breakpoint launch pc preempt on sids =>
    let b : Break := { launch := launch, pc := pc, preempt := preempt, sids := sids }
    { s with breaks := if on then s.breaks ++ [b] else s.breaks.filter (fun x => !(x.launch == launch && x.pc == pc)) }
  | .commitStop pkg on lark =>
    s.updCluster pkg (fun c => { c with commitStop := if on then some 1 else none, stopLark := on && lark })
  | .continueCommits pkg n =>
    s.updCluster pkg (fun c => { c with commitStop := c.commitStop.map (fun _ => n) })
  | .read sid r => s.debugRead sid r
  | .write sid va data => s.debugStore sid va data
  | .preempt id => if s.mayPreempt id then s.preemptLaunch id none else s
  | .resume id first => s.debugResume id first none
  | .begin_ id first dom => s.debugResume id first dom

end State

/-- DEBUG_INTERFACE_REQUEST (R376). -/
def execDebugInterfaceRequest (r : DebugRequest) (s : State) : Host.Outcome State Fault Refusal := .next (s.debug r)

end Sys2Proof.Machine
end

