-- ==== Sys2Proof/Machine/Acts.lean ====
section
/-! DEFINITION. What happens in the module beside instructions and the events of the opcode table: the broadcasts of reuse
domains (R249), the quotas of domain 0 (R248), error counters (R400), acknowledgements (R328), fetches ahead (R240). -/

namespace Sys2Proof.Machine

namespace State

/-- Firmware reads a counter of errors and clears it (R400). -/
def clearErrors (s : State) (code unit : Nat) (uncorrected : Bool) : State :=
  { s with errors := Store.set s.errors (errorKey code unit uncorrected) 0 }

/-- Perform what the agenda names. -/
def act (s : State) : Act → State
  | .clockCopy cache dom => s.copyDomain cache dom
  | .homeQuota w => s.setQuota 0 w
  | .readErrors code unit uncorrected => s.clearErrors code unit uncorrected
  | .accepted n => { s with unacked := Store.erase s.unacked n }
  | .readAhead sid path l n => s.readAhead sid path l n

/-- The two slots of a core that are ready issue in turn (R104): the slot that issues when the agenda leaves the choice. -/
def turn (s : State) : State :=
  let t : State := { s with cur := s.cur / 2 * 2 + (s.cur + 1) % 2 }
  if (s.coreAt (coreOf s.cur)).last == s.cur % 2 && t.prepare.2.isSome then t else s

end State
end Sys2Proof.Machine
end

