-- ==== Sys2Proof/Machine/Atomics.lean ====
section
/-! DEFINITION. Atomics and reductions (R231 to R235, R390). -/

namespace Sys2Proof.Machine

/-- The ordering acquires (R231). -/
def Ord4.acquires : Ord4 → Bool
  | .acq | .ar => true
  | _ => false
/-- The ordering releases (R231). -/
def Ord4.releases : Ord4 → Bool
  | .rel | .ar => true
  | _ => false

namespace State

/-- Send a message that counts on a counter: scratchpad operations that release nothing are performed at once. -/
def sendCounted (s : State) (c : Ctr) (m : Msg) (now : Bool) : State :=
  let s1 := s.upd (fun t => t.inc c)
  let k := s1.nextMsg
  let s2 := s1.enqueue m
  if s2.lag && !now then s2 else s2.perform k

/-- `amo` (R231 to R233): the write-permission check comes first. -/
def atomic (s : State) (op : AmoOp) (ord : Ord4) (ty : Ty) (a : GReg) (m : Addr) (x : GReg) : State :=
  let va := s.addrOf m
  let n := ty.width / 8
  match s.checkAt va n n .store with
  | .error t => s.trapWith t
  | .ok l =>
    let acq := Ord4.acquires ord
    let rel := Ord4.releases ord
    if s.slot.head.spec then s.waitFirm
    else if s.mustWait l n then s.stall
    else
      let o : AtomOp := {
        sid := s.cur, pc := s.pc, op := op, ty := ty, dest := a.val, loc := l, s := (s.g x.val).toNat % 2 ^ ty.width
        cmp := (s.g a.val).toNat % 2 ^ ty.width, acq := acq, rel := rel, va := va, far := s.isFar l }
      let s1 := (s.filled va).useCode [(l, n)] m.nu.val false atHomeOnly
      let s2 := if acq then s1.upd (fun t => { t with holds := t.holds ++ [.acqLoad] }) else s1
      (s2.sendCounted .ld (.atom o) (l.isScr && !rel)).retireSeal

/-- A reduction ends in the core's cache (R390, R391): in a word that it owns, or a line that it holds for the operation. -/
def combines (s : State) (pa n : Nat) (op : RedOp) (ty : Ty) : Bool :=
  s.ownsAll s.cache pa n || Store.find? s.updLines (updKey s.cache (lineOf pa)) == some (op, ty)

/-- A reduction to global memory of this module combines in the core's cache (R390, R391); beside it, whether it has
been applied: a word owned whole has taken it, or a line for which the cache is a contributor. -/
def combineHere (s : State) (pa : Nat) (op : RedOp) (ty : Ty) (x : Nat) : State × Bool :=
  let c := s.cache
  if s.ownsAll c pa (ty.width / 8) then ((s.preWrite s.cur pa (ty.width / 8)).redOwned c pa op ty x, true)
  else if Store.find? s.updLines (updKey c (lineOf pa)) == some (op, ty) then
    let s1 := s.preWrite s.cur pa (ty.width / 8)
    let here := Store.find? s1.updLines (updKey c (lineOf pa)) == some (op, ty) &&
      (Store.get [] s1.contrib (lineOf pa)).contains c
    (s1.redPartial c pa op ty x, here)
  else ((s.makeUpdate c (lineOf pa) op ty).redPartial c pa op ty x, false)

/-- No partial is made of a line before the core's stores to it are registered, nor of an element before the slot's
earlier accesses of it have been performed (R391, R392). -/
def redBusy (s : State) (l : Loc) (n : Nat) : Bool :=
  match l with
  | .glob pa => s.unregistered s.cache (lineOf pa) || s.conflict l n false
  | .scr _ _ => false

/-- `red`, minors 0 to 10 (R234). -/
def reduce (s : State) (op : RedOp) (rel : Bool) (ty : Ty) (a : GReg) (m : Addr) : State :=
  let va := s.addrOf m
  let n := ty.width / 8
  match s.checkAt va n n .store with
  | .error t => s.trapWith t
  | .ok l =>
    let c := s.homeCtr s.cur va l
    if s.slot.head.spec then s.waitFirm
    else if s.slot.full c || s.mustWait l n || s.redBusy l n then s.stall
    else
      let x := (s.g a.val).toNat % 2 ^ ty.width
      let o : RedMsg := { sid := s.cur, ctr := some c, op := op, ty := ty, loc := l, x := x, rel := rel }
      let s1 := (s.filled va).useCode [(l, n)] m.nu.val false (fun pa n => !rel && s.combines pa n op ty)
      match l with
      | .glob pa =>
        if s1.usesLine o then
          let (s2, here) := s1.combineHere pa op ty x
          if here then s2.retireSeal else (s2.sendCounted c (.red o) false).retireSeal
        else (s1.sendCounted c (.red o) false).retireSeal
      | .scr _ _ => (s1.sendCounted c (.red o) (!rel)).retireSeal

/-- An exact-cell form (R235): an arrival counts by home, a conversion on `ld`; at a scratchpad address it acts there (log 75). -/
def exactCell (s : State) (rel : Bool) (arg : (BitVec 64 × BitVec 16) ⊕ Nat) (m : Addr) : State :=
  let va := s.addrOf m
  match s.checkAt va 32 32 (if arg.isLeft then .store else .load) with
  | .error t => s.trapWith t
  | .ok l =>
    let c := if arg.isLeft then s.homeCtr s.cur va l else .ld
    if s.slot.head.spec then s.waitFirm
    else if s.slot.full c || s.mustWait l 32 then s.stall
    else
      let o : CellMsg := { sid := s.cur, ctr := some c, loc := l, arg := arg, rel := rel, va := va, far := s.isFar l }
      ((s.filled va).useCode [(l, 32)] m.nu.val false atHomeOnly |>.sendCounted c (.cell o) (l.isScr && !rel)).retireSeal

end State

open State

/-- `amo` (R232). -/
def execAmo (op : AmoOp) (ord : Ord4) (ty : Ty) (a : GReg) (m : Addr) (x : GReg) (s : State) :
    Host.Outcome State Fault Refusal := .next (s.atomic op ord ty a m x)
/-- `red` (R234). -/
def execRed (op : RedOp) (rel : Bool) (ty : Ty) (a : GReg) (m : Addr) (s : State) :
    Host.Outcome State Fault Refusal := .next (s.reduce op rel ty a m)
/-- `red.xs` (R235). -/
def execRedXs (rel : Bool) (a : GReg) (m : Addr) (x : GReg) (s : State) : Host.Outcome State Fault Refusal :=
  .next (s.exactCell rel (.inl (s.g a.val, (s.g x.val).truncate 16)) m)
/-- `red.xcvt` (R235). -/
def execRedXcvt (rel : Bool) (a : GReg) (m : Addr) (s : State) : Host.Outcome State Fault Refusal :=
  .next (s.exactCell rel (.inr a.val) m)

end Sys2Proof.Machine
end

