-- ==== Sys2Proof/Machine/Control.lean ====
section
/-! DEFINITION. The control transfers (R54, R135 to R143). -/

namespace Sys2Proof.Machine

/-- The destination of a direct transfer (R135, R136): the instruction's line plus disp lines, at tslot. -/
def targetAddr (pc : Word) (t : Target) : Word :=
  lineOfPc pc + t.disp.signExtend 64 * 64 + BitVec.ofNat 64 t.tslot.val

namespace State

/-- Transfer to a destination, or take the trap that it raises (R54). -/
def jump (s : State) (d : Word) (register mask leaves : Bool) : State :=
  match s.destTrap d register mask with
  | some t => s.trapWith t
  | none => s.transfer d leaves

/-- A call: the link is written with the transfer (R137). -/
def linkJump (s : State) (a : GReg) (d : Word) (register : Bool) : State :=
  match s.destTrap d register true with
  | some t => s.trapWith t
  | none => (s.setG a.val (nextPc s.pc)).transfer d false

/-- Open a hardware loop (R140): a count of 0 continues after the end; otherwise the body's start must be a marked
target, and the level opens. -/
def openLoop (s : State) (k : LcReg) (c : Word) (rot tick : Bool) (end_ : Word) : State :=
  if c == 0 then s.transfer (nextPc end_) false
  else
    let start := nextPc s.pc
    match s.destTrap start false true with
    | some t => s.trapWith t
    | none =>
      let s1 := s.transfer start false
      s1.upd (fun t =>
        let t1 := (t.closeFrom k.val).setLc k.val c
        { t1.setLevel k.val { act := true, rot := rot, tick := tick, start := start, stop := end_ } with
          order := k.val :: t1.order })

/-- Where the entry of a jump table lies, and its check (R138). -/
def tableEntry (s : State) (base i : Word) : Except Trap Loc :=
  let a := base + 8 * i
  if base.toNat % 8 != 0 then .error ⟨3, a⟩ else s.locate s.cur a 8 .load

/-- Jump through a table entry that has been read: a poisoned one raises a precise machine check (R138). -/
def jumpEntry (s : State) (origin a : Word) (d : BitVec 16) (dest : Nat) : State :=
  if isPoison d then s.trapTo ⟨14, origin⟩ s.pc false a else s.jump (BitVec.ofNat 64 dest) true true true

/-- Read the entry of a jump table as the core load path does, and jump (R138, R326). -/
def jumpTable (s : State) (base i : Word) : State :=
  let a := base + 8 * i
  match s.tableEntry base i with
  | .error t => s.trapWith t
  | .ok l =>
    match (if s.slot.head.spec then s.entryOf s.cur else none), l with
    | some _, .scr _ _ => s.waitFirm
    | some e, .glob pa =>
      if !s.readRoom e (blocksOf pa 8) then s.waitFirm
      else
        let (s1, bs) := s.specRead e.id pa 8
        let d := s1.specDescOf e.id pa
        s1.jumpEntry (BitVec.ofNat 64 (s1.originOf s.cur l false (s.isFar l) + d.toNat / 256)) a d (leNat bs)
    | none, _ =>
      let far := if s.isFar l then (globs [⟨l, 8, 0⟩]).map (fun x => lineOf x.1) else []
      let o : LoadOp := { sid := s.cur, pc := s.pc, va := a, dest := .g 0 .z64, parts := [⟨l, 8, 0⟩], todo := [0], far := far }
      if s.mustWait l 8 || s.partWaits s.nextMsg o ⟨l, 8, 0⟩ then s.stall
      else
        let (s1, r) := (s.filled a).readPart o ⟨l, 8, 0⟩
        s1.jumpEntry r.origin a r.desc r.x

end State

/-- `br` (R136). -/
def execBr (t : Target) (s : State) : Host.Outcome State Fault Refusal :=
  .next (s.jump (targetAddr s.pc t) false true true)
/-- `bri` (R136). -/
def execBri (b : GReg) (s : State) : Host.Outcome State Fault Refusal := .next (s.jump (s.g b.val) true true true)
/-- `call` (R137). -/
def execCall (a : GReg) (t : Target) (s : State) : Host.Outcome State Fault Refusal :=
  .next (s.linkJump a (targetAddr s.pc t) false)
/-- `calli` (R137): the destination is read before the link is written. -/
def execCalli (a b : GReg) (s : State) : Host.Outcome State Fault Refusal := .next (s.linkJump a (s.g b.val) true)
/-- `ret` (R137): checked for misalignment only. -/
def execRet (b : GReg) (s : State) : Host.Outcome State Fault Refusal := .next (s.jump (s.g b.val) true false false)
/-- `lp` (R139, R140). -/
def execLp (k : LcReg) (b : GReg) (tick : Bool) (t : Target) (s : State) : Host.Outcome State Fault Refusal :=
  .next (s.openLoop k (s.g b.val) false tick (targetAddr s.pc t))
/-- `lpx` (R139, R140). -/
def execLpx (k : LcReg) (n : BitVec 21) (tick : Bool) (t : Target) (s : State) : Host.Outcome State Fault Refusal :=
  .next (s.openLoop k (n.setWidth 64) false tick (targetAddr s.pc t))
/-- `lpr` (R139, R140). -/
def execLpr (k : LcReg) (b : GReg) (tick : Bool) (t : Target) (s : State) : Host.Outcome State Fault Refusal :=
  .next (s.openLoop k (s.g b.val) true tick (targetAddr s.pc t))
/-- `jt` (R138): an index of n or more continues with the next instruction. -/
def execJt (a b : GReg) (n1 : BitVec 16) (s : State) : Host.Outcome State Fault Refusal :=
  .next (if n1.toNat < (s.g a.val).toNat then s.transfer (nextPc s.pc) false else s.jumpTable (s.g b.val) (s.g a.val))

end Sys2Proof.Machine
end

