-- ==== Sys2Proof/Machine/Reuse.lean ====
section
/-! DEFINITION. The reuse-clock instructions (R258 to R261). -/

namespace Sys2Proof.Machine

namespace State

/-- The lines that `nurel` covers (R261), by a virtual address in each: a range ends at the top of the address space. -/
def coveredLines (a len : Word) : List Word :=
  let lo := a.toNat / 1024
  let hi := Nat.min (a.toNat + Nat.max 1 len.toNat - 1) (2 ^ 64 - 1) / 1024
  (List.range (hi + 1 - lo)).map (fun i => BitVec.ofNat 64 (1024 * (lo + i)))

/-- `nurel` (R261): an address that cannot be translated, a scratchpad's among them, is skipped. -/
def releaseLines (s : State) (a len : Word) (nu : Nat) : State :=
  (coveredLines a len).foldl (fun t va =>
    match t.translate (coreOf t.cur) t.slot.rid.launch va .load with
    | .ok pa => t.release (lineOf pa) t.slot.csr.nud.toNat nu
    | .error _ => t) s

/-- `nuq` (R260). -/
def quota (s : State) (a : GReg) (x : Word) (w : Bool) : State :=
  let d := x.toNat % 256
  if !s.grantedDomain d || (w && d == 0) then s.trap 7 (BitVec.ofNat 64 d)
  else ((s.upd (fun t => t.inc .ld)).post (.quota s.cur a.val d (if w then some x else none) true)).retire

end State

/-- `nutick` (R258): it posts and seals. -/
def execNutick (n : BitVec 16) (s : State) : Host.Outcome State Fault Refusal :=
  .next (s.postClock s.cur n.toNat).retireSeal
/-- `nudom` (R259). -/
def execNudom (n : BitVec 8) (s : State) : Host.Outcome State Fault Refusal :=
  .next (
    if s.grantedDomain n.toNat then (s.upd (fun t => { t with csr := { t.csr with nud := n } })).retire
    else s.trap 7 (n.setWidth 64))
/-- `nuq` (R260). -/
def execNuq (a b : GReg) (w : Bool) (s : State) : Host.Outcome State Fault Refusal := .next (s.quota a (s.g b.val) w)
/-- `nurel` (R261). -/
def execNurel (a : GReg) (m : Addr) (s : State) : Host.Outcome State Fault Refusal :=
  .next (s.releaseLines (s.addrOf m) (s.g a.val) m.nu.val).retire

end Sys2Proof.Machine
end

