-- ==== Sys2Proof/Machine/Dispatch.lean ====
section
/-! DEFINITION. Dispatch: one arm for each constructor of `Instr`, each a call of that instruction's meaning. -/

namespace Sys2Proof.Machine

/-- Execute an instruction of the issuing slot, or a step of another agent. -/
def exec (i : Instr) (s : State) : Host.Outcome State Fault Refusal :=
  match i with
  -- system (R115 to R119, R67, R80 to R82, R239)
  | .nop => Sys2Proof.Machine.execNop s
  | .brk n => Sys2Proof.Machine.execBrk n s
  | .trap n => Sys2Proof.Machine.execTrap n s
  | .sret => Sys2Proof.Machine.execSret s
  | .sys n => Sys2Proof.Machine.execSys n s
  | .rgn gin lcin => Sys2Proof.Machine.execRgn gin lcin s
  | .fence => Sys2Proof.Machine.execFence s
  | .fenceAcq => Sys2Proof.Machine.execFenceAcq s
  | .fenceRel => Sys2Proof.Machine.execFenceRel s
  | .fenceAr => Sys2Proof.Machine.execFenceAr s
  | .xf c1 c2 => Sys2Proof.Machine.execXf c1 c2 s
  | .wait l src c t => Sys2Proof.Machine.execWait l src c t s
  | .susFull b => Sys2Proof.Machine.execSusFull b s
  | .susEmpty b => Sys2Proof.Machine.execSusEmpty b s
  | .susJoin b => Sys2Proof.Machine.execSusJoin b s
  | .fin => Sys2Proof.Machine.execFin s
  | .yld => Sys2Proof.Machine.execYld s
  | .csrr a n => Sys2Proof.Machine.execCsrr a n s
  | .csrw n b => Sys2Proof.Machine.execCsrw n b s
  | .csrx a n b => Sys2Proof.Machine.execCsrx a n b s
  | .csrs a n b => Sys2Proof.Machine.execCsrs a n b s
  | .csrc a n b => Sys2Proof.Machine.execCsrc a n b s
  -- integer (R121 to R129)
  | .add a b c => Sys2Proof.Machine.execAdd a b c s
  | .sub a b c => Sys2Proof.Machine.execSub a b c s
  | .mul a b c => Sys2Proof.Machine.execMul a b c s
  | .mulh a b c => Sys2Proof.Machine.execMulh a b c s
  | .mulhz a b c => Sys2Proof.Machine.execMulhz a b c s
  | .div a b c => Sys2Proof.Machine.execDiv a b c s
  | .divz a b c => Sys2Proof.Machine.execDivz a b c s
  | .rem a b c => Sys2Proof.Machine.execRem a b c s
  | .remz a b c => Sys2Proof.Machine.execRemz a b c s
  | .min a b c => Sys2Proof.Machine.execMin a b c s
  | .max a b c => Sys2Proof.Machine.execMax a b c s
  | .minz a b c => Sys2Proof.Machine.execMinz a b c s
  | .maxz a b c => Sys2Proof.Machine.execMaxz a b c s
  | .addi a b imm => Sys2Proof.Machine.execAddi a b imm s
  | .and a b c => Sys2Proof.Machine.execAnd a b c s
  | .or a b c => Sys2Proof.Machine.execOr a b c s
  | .xor a b c => Sys2Proof.Machine.execXor a b c s
  | .andn a b c => Sys2Proof.Machine.execAndn a b c s
  | .orn a b c => Sys2Proof.Machine.execOrn a b c s
  | .shl a b c => Sys2Proof.Machine.execShl a b c s
  | .shr a b c => Sys2Proof.Machine.execShr a b c s
  | .sar a b c => Sys2Proof.Machine.execSar a b c s
  | .rot a b c => Sys2Proof.Machine.execRot a b c s
  | .andi a b imm => Sys2Proof.Machine.execAndi a b imm s
  | .ori a b imm => Sys2Proof.Machine.execOri a b imm s
  | .xori a b imm => Sys2Proof.Machine.execXori a b imm s
  | .andni a b imm => Sys2Proof.Machine.execAndni a b imm s
  | .orni a b imm => Sys2Proof.Machine.execOrni a b imm s
  | .shli a b k => Sys2Proof.Machine.execShli a b k s
  | .shri a b k => Sys2Proof.Machine.execShri a b k s
  | .sari a b k => Sys2Proof.Machine.execSari a b k s
  | .roti a b k => Sys2Proof.Machine.execRoti a b k s
  | .clz a b => Sys2Proof.Machine.execClz a b s
  | .ctz a b => Sys2Proof.Machine.execCtz a b s
  | .pop a b => Sys2Proof.Machine.execPop a b s
  | .sext ty a b => Sys2Proof.Machine.execSext ty a b s
  | .zext ty a b => Sys2Proof.Machine.execZext ty a b s
  | .bswp ty a b => Sys2Proof.Machine.execBswp ty a b s
  | .bfx ty a b lo w => Sys2Proof.Machine.execBfx ty a b lo w s
  | .bfi a b lo w => Sys2Proof.Machine.execBfi a b lo w s
  | .cmp cc p b c => Sys2Proof.Machine.execCmp cc p b c s
  | .cmpi cc p b imm => Sys2Proof.Machine.execCmpi cc p b imm s
  | .sel a p c d => Sys2Proof.Machine.execSel a p c d s
  | .li a imm => Sys2Proof.Machine.execLi a imm s
  | .mov m => Sys2Proof.Machine.execMov m s
  | .lea a base idx off => Sys2Proof.Machine.execLea a base idx off s
  | .pand a b c => Sys2Proof.Machine.execPand a b c s
  | .por a b c => Sys2Proof.Machine.execPor a b c s
  | .pxor a b c => Sys2Proof.Machine.execPxor a b c s
  | .pnot a b => Sys2Proof.Machine.execPnot a b s
  -- scalar float (R130 to R134)
  | .fadd ty a b c => Sys2Proof.Machine.execFadd ty a b c s
  | .fsub ty a b c => Sys2Proof.Machine.execFsub ty a b c s
  | .fmul ty a b c => Sys2Proof.Machine.execFmul ty a b c s
  | .fdiv ty a b c => Sys2Proof.Machine.execFdiv ty a b c s
  | .fsqrt ty a b => Sys2Proof.Machine.execFsqrt ty a b s
  | .fmin ty a b c => Sys2Proof.Machine.execFmin ty a b c s
  | .fmax ty a b c => Sys2Proof.Machine.execFmax ty a b c s
  | .fma ty a b c d => Sys2Proof.Machine.execFma ty a b c d s
  | .fcmp cc ty p b c => Sys2Proof.Machine.execFcmp cc ty p b c s
  | .fcvt dst src a b => Sys2Proof.Machine.execFcvt dst src a b s
  -- control transfers (R135 to R143)
  | .br tgt => Sys2Proof.Machine.execBr tgt s
  | .bri b => Sys2Proof.Machine.execBri b s
  | .call a tgt => Sys2Proof.Machine.execCall a tgt s
  | .calli a b => Sys2Proof.Machine.execCalli a b s
  | .ret b => Sys2Proof.Machine.execRet b s
  | .lp k b tick tgt => Sys2Proof.Machine.execLp k b tick tgt s
  | .lpx k n tick tgt => Sys2Proof.Machine.execLpx k n tick tgt s
  | .lpr k b tick tgt => Sys2Proof.Machine.execLpr k b tick tgt s
  | .jt a b n1 => Sys2Proof.Machine.execJt a b n1 s
  -- tasks, teams, queues, horizon (R76 to R89, R270 to R289, R337)
  | .spawn a b c => Sys2Proof.Machine.execSpawn a b c s
  | .spawnt a b c => Sys2Proof.Machine.execSpawnt a b c s
  | .send a b c d => Sys2Proof.Machine.execSend a b c d s
  | .sendv a b c d n => Sys2Proof.Machine.execSendv a b c d n s
  | .jinit b c n => Sys2Proof.Machine.execJinit b c n s
  | .arr b n => Sys2Proof.Machine.execArr b n s
  | .tjoin a b => Sys2Proof.Machine.execTjoin a b s
  | .tleave => Sys2Proof.Machine.execTleave s
  | .tarr => Sys2Proof.Machine.execTarr s
  | .twait a => Sys2Proof.Machine.execTwait a s
  | .tinfo a sel => Sys2Proof.Machine.execTinfo a sel s
  | .enq a b q => Sys2Proof.Machine.execEnq a b q s
  | .deq a b q => Sys2Proof.Machine.execDeq a b q s
  | .deqw a q => Sys2Proof.Machine.execDeqw a q s
  | .qinfo a q => Sys2Proof.Machine.execQinfo a q s
  | .gvt a b sel => Sys2Proof.Machine.execGvt a b sel s
  -- core memory (R219 to R239)
  | .ld ty a m => Sys2Proof.Machine.execLd ty a m s
  | .ldAcq ty a m => Sys2Proof.Machine.execLdAcq ty a m s
  | .st ty a m => Sys2Proof.Machine.execSt ty a m s
  | .stRel ty a m => Sys2Proof.Machine.execStRel ty a m s
  | .ldc ty a m => Sys2Proof.Machine.execLdc ty a m s
  | .ldv ty a m mask => Sys2Proof.Machine.execLdv ty a m mask s
  | .stv ty a m mask => Sys2Proof.Machine.execStv ty a m mask s
  | .ldvs ty a m c mask => Sys2Proof.Machine.execLdvs ty a m c mask s
  | .stvs ty a m c mask => Sys2Proof.Machine.execStvs ty a m c mask s
  | .ldvx ty a m c ix64 mask => Sys2Proof.Machine.execLdvx ty a m c ix64 mask s
  | .stvx ty a m c ix64 mask => Sys2Proof.Machine.execStvx ty a m c ix64 mask s
  | .ldf ty a m => Sys2Proof.Machine.execLdf ty a m s
  | .ldfe ty a m => Sys2Proof.Machine.execLdfe ty a m s
  | .stef ty a m => Sys2Proof.Machine.execStef ty a m s
  | .stff ty a m => Sys2Proof.Machine.execStff ty a m s
  | .pf m => Sys2Proof.Machine.execPf m s
  | .cln m => Sys2Proof.Machine.execCln m s
  | .inv m => Sys2Proof.Machine.execInv m s
  | .amo op ord ty a m src => Sys2Proof.Machine.execAmo op ord ty a m src s
  | .red op rel ty a m => Sys2Proof.Machine.execRed op rel ty a m s
  | .redXs rel a m src => Sys2Proof.Machine.execRedXs rel a m src s
  | .redXcvt rel a m => Sys2Proof.Machine.execRedXcvt rel a m s
  | .ldbd a m => Sys2Proof.Machine.execLdbd a m s
  | .stbd a m => Sys2Proof.Machine.execStbd a m s
  | .bbar a m => Sys2Proof.Machine.execBbar a m s
  -- reuse and Aster (R258 to R261, R337)
  | .nutick n => Sys2Proof.Machine.execNutick n s
  | .nudom n => Sys2Proof.Machine.execNudom n s
  | .nuq a b w => Sys2Proof.Machine.execNuq a b w s
  | .nurel a m => Sys2Proof.Machine.execNurel a m s
  | .abrt => Sys2Proof.Machine.execAbrt s
  | .abrtRec a b => Sys2Proof.Machine.execAbrtRec a b s
  | .astat a sel => Sys2Proof.Machine.execAstat a sel s
  -- vector (R175 to R196)
  | .vadd ty a b c o => Sys2Proof.Machine.execVadd ty a b c o s
  | .vsub ty a b c o => Sys2Proof.Machine.execVsub ty a b c o s
  | .vmul ty a b c o => Sys2Proof.Machine.execVmul ty a b c o s
  | .vmin ty a b c mask => Sys2Proof.Machine.execVmin ty a b c mask s
  | .vmax ty a b c mask => Sys2Proof.Machine.execVmax ty a b c mask s
  | .vdiv ty a b c mask rnd => Sys2Proof.Machine.execVdiv ty a b c mask rnd s
  | .vfma ty a b c d o => Sys2Proof.Machine.execVfma ty a b c d o s
  | .vsqrt ty a b mask rnd => Sys2Proof.Machine.execVsqrt ty a b mask rnd s
  | .vrcp ty a b mask rnd => Sys2Proof.Machine.execVrcp ty a b mask rnd s
  | .vrsq ty a b mask rnd => Sys2Proof.Machine.execVrsq ty a b mask rnd s
  | .vexp2 ty a b mask rnd => Sys2Proof.Machine.execVexp2 ty a b mask rnd s
  | .vlog2 ty a b mask rnd => Sys2Proof.Machine.execVlog2 ty a b mask rnd s
  | .vabs ty a b mask sat => Sys2Proof.Machine.execVabs ty a b mask sat s
  | .vneg ty a b mask sat => Sys2Proof.Machine.execVneg ty a b mask sat s
  | .vnot ty a b mask => Sys2Proof.Machine.execVnot ty a b mask s
  | .vand ty a b c mask => Sys2Proof.Machine.execVand ty a b c mask s
  | .vor ty a b c mask => Sys2Proof.Machine.execVor ty a b c mask s
  | .vxor ty a b c mask => Sys2Proof.Machine.execVxor ty a b c mask s
  | .vshl ty a b k mask => Sys2Proof.Machine.execVshl ty a b k mask s
  | .vshr ty a b k mask => Sys2Proof.Machine.execVshr ty a b k mask s
  | .vsar ty a b k mask => Sys2Proof.Machine.execVsar ty a b k mask s
  | .vcmp cc ty m b c mask => Sys2Proof.Machine.execVcmp cc ty m b c mask s
  | .vsel ty a m c d => Sys2Proof.Machine.execVsel ty a m c d s
  | .vcvt dst src a b p scale o => Sys2Proof.Machine.execVcvt dst src a b p scale o s
  | .vsat ty a b n mask => Sys2Proof.Machine.execVsat ty a b n mask s
  | .vpack ty a b c mask sat => Sys2Proof.Machine.execVpack ty a b c mask sat s
  | .vunpk ty a b p mask => Sys2Proof.Machine.execVunpk ty a b p mask s
  | .vred op ty a b mask rnd => Sys2Proof.Machine.execVred op ty a b mask rnd s
  | .vscan op ty a b mask rnd => Sys2Proof.Machine.execVscan op ty a b mask rnd s
  | .vdot ty a b c mask rnd => Sys2Proof.Machine.execVdot ty a b c mask rnd s
  | .vmacc ty a b c o => Sys2Proof.Machine.execVmacc ty a b c o s
  | .vperm ty a b c mask => Sys2Proof.Machine.execVperm ty a b c mask s
  | .vshuf ty a b c mask => Sys2Proof.Machine.execVshuf ty a b c mask s
  | .vbcast ty a b mask => Sys2Proof.Machine.execVbcast ty a b mask s
  | .vext ty a b n => Sys2Proof.Machine.execVext ty a b n s
  | .vins ty a b n => Sys2Proof.Machine.execVins ty a b n s
  | .vmov a b => Sys2Proof.Machine.execVmov a b s
  | .vcnt op ty a b mask => Sys2Proof.Machine.execVcnt op ty a b mask s
  | .mand ty a b c => Sys2Proof.Machine.execMand ty a b c s
  | .mor ty a b c => Sys2Proof.Machine.execMor ty a b c s
  | .mnot ty a b => Sys2Proof.Machine.execMnot ty a b s
  | .mpop ty a b => Sys2Proof.Machine.execMpop ty a b s
  | .mfirst ty a b => Sys2Proof.Machine.execMfirst ty a b s
  | .vblkRd a b blk => Sys2Proof.Machine.execVblkRd a b blk s
  | .vblkWr a b sel => Sys2Proof.Machine.execVblkWr a b sel s
  -- matrix (R201 to R210)
  | .mclr a => Sys2Proof.Machine.execMclr a s
  | .mldb u b c d kb sp nu => Sys2Proof.Machine.execMldb u b c d kb sp nu s
  | .mmac ty a b c u kb => Sys2Proof.Machine.execMmac ty a b c u kb s
  | .mmacs ty a b c u kb => Sys2Proof.Machine.execMmacs ty a b c u kb s
  | .mrd a b q c1 => Sys2Proof.Machine.execMrd a b q c1 s
  | .mwr a b q c1 => Sys2Proof.Machine.execMwr a b q c1 s
  | .mcvt ty a b q scale sat rnd => Sys2Proof.Machine.execMcvt ty a b q scale sat rnd s
  | .msum a b c => Sys2Proof.Machine.execMsum a b c s
  | .mtr a b c tr => Sys2Proof.Machine.execMtr a b c tr s
  | .mfree a => Sys2Proof.Machine.execMfree a s
  -- copies, gather, streams (R242, R410, R417)
  | .cp a b c d dnu snu => Sys2Proof.Machine.execCp a b c d dnu snu s
  | .cp2d a b c d rows1 rowq1 dnu snu => Sys2Proof.Machine.execCp2d a b c d rows1 rowq1 dnu snu s
  | .cpl a b c d dnu => Sys2Proof.Machine.execCpl a b c d dnu s
  | .cpc a b c d dnu snu => Sys2Proof.Machine.execCpc a b c d dnu snu s
  | .cps a b c d desc dnu snu => Sys2Proof.Machine.execCps a b c d desc dnu snu s
  | .gth ty a b c d n1 ix64 dnu snu => Sys2Proof.Machine.execGth ty a b c d n1 ix64 dnu snu s
  | .sct ty a b c d n1 ix64 dnu snu => Sys2Proof.Machine.execSct ty a b c d n1 ix64 dnu snu s
  | .cmpx ty a b c d n1 idx dnu snu => Sys2Proof.Machine.execCmpx ty a b c d n1 idx dnu snu s
  | .tsubLd a b c => Sys2Proof.Machine.execTsubLd a b c s
  | .tsubSt a b c => Sys2Proof.Machine.execTsubSt a b c s
  | .trel b c => Sys2Proof.Machine.execTrel b c s
  -- Larkspur (R309)
  | .qbase b c d => Sys2Proof.Machine.execQbase b c d s
  | .qdef a b c n => Sys2Proof.Machine.execQdef a b c n s
  | .qget sel a b => Sys2Proof.Machine.execQget sel a b s
  | .qset sel b c => Sys2Proof.Machine.execQset sel b c s
  | .qslope b c d => Sys2Proof.Machine.execQslope b c d s
  | .qcross b => Sys2Proof.Machine.execQcross b s
  | .qdeps b c d => Sys2Proof.Machine.execQdeps b c d s
  | .qnext a => Sys2Proof.Machine.execQnext a s
  | .qrun b c d => Sys2Proof.Machine.execQrun b c d s
  | .qstop a => Sys2Proof.Machine.execQstop a s
  | .qsnap b c n => Sys2Proof.Machine.execQsnap b c n s
  | .qstat a sel => Sys2Proof.Machine.execQstat a sel s
  | .qstorm sel b c => Sys2Proof.Machine.execQstorm sel b c s
  -- Phlox (R356)
  | .pclr => Sys2Proof.Machine.execPclr s
  | .pcol a b => Sys2Proof.Machine.execPcol a b s
  | .pcolAt a b c => Sys2Proof.Machine.execPcolAt a b c s
  | .pcolrRd a b => Sys2Proof.Machine.execPcolrRd a b s
  | .pcolrFr a b => Sys2Proof.Machine.execPcolrFr a b s
  | .pdec a b => Sys2Proof.Machine.execPdec a b s
  | .pprop a => Sys2Proof.Machine.execPprop a s
  | .pbt a b => Sys2Proof.Machine.execPbt a b s
  | .prow a b => Sys2Proof.Machine.execProw a b s
  | .ptrl a b => Sys2Proof.Machine.execPtrl a b s
  | .pconf a => Sys2Proof.Machine.execPconf a s
  | .plvl a => Sys2Proof.Machine.execPlvl a s
  | .pset a b => Sys2Proof.Machine.execPset a b s
  | .pstat a sel => Sys2Proof.Machine.execPstat a sel s
  -- steps without an encoding: engines of a slot
  | .fullEmptySpinExpiry sid => Sys2Proof.Machine.execFullEmptySpinExpiry sid s
  | .engineInstructionComplete sid port => Sys2Proof.Machine.execEngineInstructionComplete sid port s
  | .matrixRetire sid => Sys2Proof.Machine.execMatrixRetire sid s
  | .copyPieceWrite k => Sys2Proof.Machine.execCopyPieceWrite k s
  | .streamTileDone k => Sys2Proof.Machine.execStreamTileDone k s
  | .engineTransferFault k => Sys2Proof.Machine.execEngineTransferFault k s
  | .engineFaultResolved k => Sys2Proof.Machine.execEngineFaultResolved k s
  -- memory and homes
  | .exactCellArrival k => Sys2Proof.Machine.execExactCellArrival k s
  | .storeRegistration k => Sys2Proof.Machine.execStoreRegistration k s
  | .storeAck k => Sys2Proof.Machine.execStoreAck k s
  | .loadRequest k part => Sys2Proof.Machine.execLoadRequest k part s
  | .loadReturn k => Sys2Proof.Machine.execLoadReturn k s
  | .postedUpdateApplied k => Sys2Proof.Machine.execPostedUpdateApplied k s
  | .contributorRegistration k => Sys2Proof.Machine.execContributorRegistration k s
  | .partialCombine cache line => Sys2Proof.Machine.execPartialCombine cache line s
  | .atomicAtHome k => Sys2Proof.Machine.execAtomicAtHome k s
  | .joinIncrement k => Sys2Proof.Machine.execJoinIncrement k s
  | .joinArrival k => Sys2Proof.Machine.execJoinArrival k s
  | .wakeRegistration k => Sys2Proof.Machine.execWakeRegistration k s
  | .reuseClockAdvance k => Sys2Proof.Machine.execReuseClockAdvance k s
  | .honestyReport k => Sys2Proof.Machine.execHonestyReport k s
  -- cluster
  | .slotDispatch sid => Sys2Proof.Machine.execSlotDispatch sid s
  | .readyQueueAgeing pkg k => Sys2Proof.Machine.execReadyQueueAgeing pkg k s
  | .recordPlacement k => Sys2Proof.Machine.execRecordPlacement k s
  | .messageDelivery k => Sys2Proof.Machine.execMessageDelivery k s
  | .slotPreempt sid => Sys2Proof.Machine.execSlotPreempt sid s
  -- Larkspur
  | .crossingRelease pkg => Sys2Proof.Machine.execCrossingRelease pkg s
  | .eventMessageArrival k => Sys2Proof.Machine.execEventMessageArrival k s
  | .larkspurRunEnd pkg => Sys2Proof.Machine.execLarkspurRunEnd pkg s
  -- Aster and the horizon
  | .asterAccept k => Sys2Proof.Machine.execAsterAccept k s
  | .asterCommit pkg k => Sys2Proof.Machine.execAsterCommit pkg k s
  | .conflictAbort k => Sys2Proof.Machine.execConflictAbort k s
  | .taskRestartReady pkg k => Sys2Proof.Machine.execTaskRestartReady pkg k s
  | .irrevocablePromotion pkg k => Sys2Proof.Machine.execIrrevocablePromotion pkg k s
  | .horizonDieCombine die => Sys2Proof.Machine.execHorizonDieCombine die s
  | .horizonPackageCombine => Sys2Proof.Machine.execHorizonPackageCombine s
  | .horizonFabricCombine others => Sys2Proof.Machine.execHorizonFabricCombine others s
  -- errors and firmware
  | .softErrorDetected place corrected => Sys2Proof.Machine.execSoftErrorDetected place corrected s
  | .patrolScrub stack corrected uncorrected => Sys2Proof.Machine.execPatrolScrub stack corrected uncorrected s
  | .pageUnmap launch va => Sys2Proof.Machine.execPageUnmap launch va s
  | .pageMigrate launch va frame => Sys2Proof.Machine.execPageMigrate launch va frame s
  -- front end
  | .queueDoorbell q producer => Sys2Proof.Machine.execQueueDoorbell q producer s
  | .queueStart q => Sys2Proof.Machine.execQueueStart q s
  | .queueDestroy q => Sys2Proof.Machine.execQueueDestroy q s
  | .queueReset q => Sys2Proof.Machine.execQueueReset q s
  | .launch q => Sys2Proof.Machine.execLaunch q s
  | .launchBegin id => Sys2Proof.Machine.execLaunchBegin id s
  | .seedDispatch id => Sys2Proof.Machine.execSeedDispatch id s
  | .gangPlacement id => Sys2Proof.Machine.execGangPlacement id s
  | .gangReservation id => Sys2Proof.Machine.execGangReservation id s
  | .launchEnd id => Sys2Proof.Machine.execLaunchEnd id s
  | .preemptLaunch q => Sys2Proof.Machine.execPreemptLaunch q s
  | .copyQuiesceExpiry core => Sys2Proof.Machine.execCopyQuiesceExpiry core s
  | .resumeLaunch q => Sys2Proof.Machine.execResumeLaunch q s
  | .endLaunch q => Sys2Proof.Machine.execEndLaunch q s
  | .flushLaunch q => Sys2Proof.Machine.execFlushLaunch q s
  | .unknownOpcodeCommand q => Sys2Proof.Machine.execUnknownOpcodeCommand q s
  | .ttFire e => Sys2Proof.Machine.execTtFire e s
  | .ttEntryEnable e => Sys2Proof.Machine.execTtEntryEnable e s
  | .ttQueuedBegin e => Sys2Proof.Machine.execTtQueuedBegin e s
  -- boot and management
  | .managementReset => Sys2Proof.Machine.execManagementReset s
  | .clearFailCount => Sys2Proof.Machine.execClearFailCount s
  | .capWrite w => Sys2Proof.Machine.execCapWrite w s
  | .powerInterval watts hot critical => Sys2Proof.Machine.execPowerInterval watts hot critical s
  | .moduleReset => Sys2Proof.Machine.execModuleReset s
  | .bootStageComplete r => Sys2Proof.Machine.execBootStageComplete r s
  | .bootTimeout => Sys2Proof.Machine.execBootTimeout s
  | .versionNegotiation itf lo hi => Sys2Proof.Machine.execVersionNegotiation itf lo hi s
  | .measurementExtend n d => Sys2Proof.Machine.execMeasurementExtend n d s
  | .spdmRequest r => Sys2Proof.Machine.execSpdmRequest r s
  | .ptpLockChange locked time => Sys2Proof.Machine.execPtpLockChange locked time s
  -- fabric and host
  | .flitReceive port f => Sys2Proof.Machine.execFlitReceive port f s
  | .linkRetrain port => Sys2Proof.Machine.execLinkRetrain port s
  | .retrainingEnd port lanes => Sys2Proof.Machine.execRetrainingEnd port lanes s
  | .remoteWriteHandover port => Sys2Proof.Machine.execRemoteWriteHandover port s
  | .traceEnable port => Sys2Proof.Machine.execTraceEnable port s
  | .hostBar2Write off data => Sys2Proof.Machine.execHostBar2Write off data s
  | .hostBar2Read off n => Sys2Proof.Machine.execHostBar2Read off n s
  | .registerWrite off size value => Sys2Proof.Machine.execRegisterWrite off size value s
  | .debugInterfaceRequest r => Sys2Proof.Machine.execDebugInterfaceRequest r s

end Sys2Proof.Machine
end

