-- ==== Sys2Proof/Machine/Drain.lean ====
section
/-! DEFINITION. With no agenda, everything in flight completes before the slot issues (log 3). -/

namespace Sys2Proof.Machine

namespace State

/-- Perform every message in flight, oldest first, as far as it may be performed. -/
def drainFlight (s : State) : State := s.flight.foldl (fun t e => t.perform e.1) s

/-- What the engine queues of the slots hold is applied. -/
def drainQueues (s : State) : State := s.slots.foldl (fun t e => t.retireQueues e.1) s

/-- Larkspur's waiting events start, and aborted tasks restart (R300, R335). -/
def drainClusters (s : State) : State :=
  s.clusters.foldl (fun t c =>
    c.2.entries.foldl (fun u e => u.restart c.1 e.id) (c.2.lark.pending.foldl (fun u _ => u.servePending c.1) t)) s

/-- Everything in flight completes: engine queues, copies and tile transfers, messages, and what waits at the clusters. -/
def drain (s : State) : State :=
  { s.drainQueues.runCopies.runStreams.drainFlight.drainClusters with domainOld := [], domainCopy := [] }

/-! ### Placing an instruction where a slot fetches (log 6) -/

/-- The issuing slot can fetch: a task runs in it and its line is mapped. -/
def canFetch (s : State) : Bool :=
  s.slot.run == .running && (match s.memLine s.cur s.pc with | .ok _ => true | .error _ => false)

/-- A task on the issuing slot with one page of 64 KiB mapped on its core, readable, writable and executable, as a
launch with one plain task would leave it: the task of launch 1 with its record at 0x8000, at address 0x1000. -/
def placeTask (s : State) : State :=
  let frame := s.dev * 2 ^ 42 + 0x100000
  let s1 := s.updCore (coreOf s.cur) (fun c => { c with tlb := [⟨1, 0, 16, frame / 256 * 256 + 0x17⟩] })
  let s2 := s1.updCluster (pkgOf s.cur) (fun c => { c with launch := 1 })
  s2.setSlot s.cur { run := .running, rid := ⟨1, 0x8000, none⟩, pc := 0x1000, head := { pc := 0x1000, flags := 0x10000002 }
                     region := { pc := 0x1000 } }

/-- The bytes of a line with a word stored at a slot: no reserved bit, no pairs, every slot a target, parity right. -/
def lineWith (line k w : Nat) : Nat :=
  let old := line - slotWord line k * 2 ^ (96 * k)
  let body := (old + w * 2 ^ (96 * k)) % 2 ^ 480
  let par := (List.range 5).foldl (fun x j => x + Instr.popLow (slotWord body j) 96 % 2 * 2 ^ (8 + j)) 0
  body + (31 * 2 ^ 27 + par) * 2 ^ 480

/-- Store a word where the issuing slot fetches next, in memory. -/
def storeFetch (s : State) (w : Nat) : State :=
  match s.translate (coreOf s.cur) s.slot.rid.launch (lineOfPc s.pc) .fetch with
  | .ok pa => s.writeHome pa (leBytes (lineWith (leNat (s.peekBytes pa 64)) (slotOfPc s.pc) w) 64)
  | .error _ => s

/-- Nothing but the instruction itself decides the slot's next step. -/
def clearWay (s : State) : State :=
  s.upd (fun t => { t with deferred := [], engFault := none, preReq := false, rcheck := false, pass := true
                           holds := [], order := [], icopy := Store.erase t.icopy (lineOfPc t.pc).toNat })

/-- An instruction placed so that the next step runs it (log 6). -/
def placeWord (s : State) (w : Nat) : State :=
  let s1 := if s.canFetch then s else s.placeTask
  let s2 := (s1.clearWay).storeFetch w
  { s2 with agenda := .issue s2.cur false :: s2.agenda }

end State
end Sys2Proof.Machine
end

