-- ==== Sys2Proof/Machine/Step.lean ====
section
/-! DEFINITION. One step of the module: the next choice of the agenda, or, when it is empty, the slot `cur`, or the other one
of its core whose turn it is, issues after everything in flight has completed (log 3). -/

namespace Sys2Proof.Machine

/-- The slot `cur` takes its turn alone: the instruction it is to execute, or what happens instead. -/
def runFirst (s : State) : Host.Outcome State Fault Refusal :=
  match s.prepare with
  | (t, some i) => exec i t
  | (t, none) => .next t

/-- The slot `cur` takes its turn: the other member of a waiting instruction's packet issues with it (R228). -/
def runSlot (s : State) : Host.Outcome State Fault Refusal :=
  match s.prepareMate with
  | none => runFirst s
  | some (t, i) => match exec i t with
    | .next u => match s.rejoin u with
      | some v => .next v
      | none => runFirst s
    | _ => runFirst s

/-- One step. -/
def step (s : State) : Host.Outcome State Fault Refusal :=
  match s.agenda with
  | .event e lag :: rest =>
    if e.hasWord then .fault .notAnEvent else exec e ({ s with agenda := rest, lag := lag }).tick
  | .issue sid lag :: rest => runSlot ({ s with agenda := rest, cur := sid, lag := lag }).tick
  | .act a :: rest => .next (({ s with agenda := rest, lag := false }).tick.act a)
  | [] => runSlot (({ s with lag := false }).tick).drain.turn

/-- `s` with the instruction whose bits are `w` stored where the next step fetches (log 6). -/
def State.withFetchWord (s : State) (nbits w : Nat) : State := s.placeWord (w % 2 ^ nbits % 2 ^ 96)

end Sys2Proof.Machine
end

