-- ==== Sys2Proof/Safety.lean ====
section
/-! DEFINITION. What counts as a safe run, in the terms of the claims: the invariants of the state, what an instruction
that retires leaves in its slot, and runs that end in no fault and no refusal. -/

namespace Sys2Proof.Machine

/-- A slot whose instruction has retired, no loop level ending there: the next address, past the other member of its packet
when that has issued (R228), one more instruction counted (R96), and nothing left of a wait. -/
def Slot.ended (x : Slot) : Slot :=
  { x with pc := x.after.getD (nextPc x.pc), csr := { x.csr with ins := x.csr.ins + 1 }, spin := none, expired := false
           pass := false, counted := false, after := none }

namespace State

/-- Every memory keeps its canonical form (log 1). -/
def memoryOk (s : State) : Bool := Memory.wf s.mem && Memory.wf s.scr && Memory.wf s.hostMem

/-- No active loop level ends at the issuing slot's instruction (R141): its retirement takes no iteration step. -/
def straight (s : State) : Bool :=
  s.slot.order.all (fun k => !((s.slot.level k).act && (s.slot.level k).stop == s.pc))

/-- The state after an instruction that changes the issuing slot by `f`, and nothing else, and retires. -/
def after (s : State) (f : Slot → Slot) : State := s.setSlot s.cur (f s.slot).ended

end State

/-! ### Memory at rest -/

/-- Nothing is in flight, and the slot's plain task issues at once: no lag, nothing kept back at a port, no scored copy,
no hold, nothing fetched ahead, no counter at 63 (R101, R117, R224, R241). -/
structure Calm (s : State) : Prop where
  lag    : s.lag = false
  flight : s.flight = []
  ports  : ∀ e ∈ s.ports, e.2.unsent = []
  copies : ∀ e ∈ s.copies, e.2.scored = false
  plain  : s.slot.head.spec = false
  entry  : s.entryOf s.cur = none
  holds  : s.slot.holds = []
  ahead  : s.slot.ahead = []
  room   : ∀ c, s.slot.full c = false

/-- Keys in rising order. -/
def Rising {α : Type} (m : Store α) : Prop := (m.map (·.1)).Pairwise (· < ·)

/-- The caches agree with the registry (R385, R386, R391): no line has contributors or is held update-only, every word
held is whole and registered, and a cache holds a word as owned exactly when the registry names it as the owner. -/
structure Settled (s : State) : Prop where
  contrib : s.contrib = []
  updates : s.updLines = []
  rising  : Rising s.l2 ∧ Rising s.l1 ∧ Rising s.owners
  bounds  : ∀ e ∈ s.owners, e.1 < 2 ^ 50
  whole   : ∀ c w x, w < 2 ^ 50 → s.l1At c w = some x → x.mask = 15 ∧ x.reg = true ∧ x.st ≠ .update
  owned   : ∀ c w, w < 2 ^ 50 → (Store.find? s.owners w = some c ↔ ∃ x, s.l1At c w = some x ∧ x.st = .owned)

/-- The n bytes at a location exist: physical addresses have 52 bits (R407), a scratchpad 256 KiB (R215). -/
def InRange (l : Loc) (n : Nat) : Prop :=
  match l with
  | .glob pa => pa + n ≤ 2 ^ 52
  | .scr _ o => o + n ≤ 0x40000

/-- The issuing slot, the other slots, tags and messages of two states agree but for the issuing slot itself. -/
structure Aside (s u : State) : Prop where
  cur    : u.cur = s.cur
  slots  : ∀ n, n ≠ s.cur → u.slotAt n = s.slotAt n
  flight : u.flight = s.flight

/-- Every byte, tag and descriptor reads as before, and so do the other slots. -/
structure Kept (s u : State) : Prop extends Aside s u where
  bytes : ∀ l, InRange l 1 → u.readLoc l = s.readLoc l
  tags  : u.tags = s.tags
  descs : u.memDesc = s.memDesc ∧ u.scrDesc = s.scrDesc

/-- The bytes `bs` have been written at a location: they read so, at their home and from the writer's core, and every
other byte reads as before. -/
structure Written (s u : State) (l : Loc) (bs : List Byte) : Prop extends Aside s u where
  these  : ∀ k < bs.length, u.readLoc (State.locAdd l k) = bs.getD k 0
  own    : ∀ pa, l = .glob pa → ∀ k < bs.length, u.l1Byte s.cache (pa + k) = bs.getD k 0
  others : ∀ q, InRange q 1 → overlaps l bs.length q 1 = false → u.readLoc q = s.readLoc q

/-- An access to the location leaves at once: it is of this module, or its port is open (R464, R465). -/
def Reaches (s : State) (l : Loc) : Prop :=
  match l with
  | .scr _ _ => True
  | .glob pa => State.deviceOf pa = s.dev ∨ (let p := s.portAt (s.portOf pa)
      p.up = true ∧ p.retraining = false ∧ p.stopIn.getLsbD 0 = false ∧ p.replay = [])

/-- A step that answers a state which keeps its memories canonical. -/
def safeStep (s : State) : Prop :=
  match step s with
  | .next t => t.memoryOk = true
  | .fault _ => False
  | .refused _ => False

end Sys2Proof.Machine
end

