-- ==== Sys2Proof/Certificates/Slice0/Obligations.lean ====
section
/-! DEFINITION. The statements for the provers, by the rules of the manual that they formalise. -/

/-! ### Vocabulary -/

namespace Sys2Proof.Claims

open Sys2Proof.Machine

/-- The instruction answers the state in which the issuing slot's register `a` holds `x` and the instruction has retired.
What writing a register does (nothing for g0) is `RegisterFiles`; what retiring does is `Retirement`. -/
def WritesG (i : Instr) (s : State) (a : GReg) (x : Word) : Prop := exec i s = .next (s.setG a.val x).retire

/-- The same for a predicate. -/
def WritesP (i : Instr) (s : State) (a : PReg) (b : Bool) : Prop := exec i s = .next (s.setP a.val b).retire

/-- The same for a float result with the flags that it raises (R130, R97). -/
def WritesF (i : Instr) (s : State) (a : GReg) (x : Nat) (f : BitVec 5) : Prop :=
  exec i s = .next ((s.setG a.val (BitVec.ofNat 64 x)).orFlags f).retire

/-- An unguarded word of the fields of R44: major, minor, A, B, C, D, and bits 55:0. -/
def word (maj mn a b c d low : Nat) : Nat :=
  maj * 2 ^ 88 + mn * 2 ^ 80 + a * 2 ^ 74 + b * 2 ^ 68 + c * 2 ^ 62 + d * 2 ^ 56 + low

/-- The word decodes, at every slot of a line, to the instruction without a guard. -/
def Means (w : Nat) (i : Instr) : Prop := ∀ k, decode k w = .ok (Guard.none, i)

/-- The word is illegal at every slot of a line, with the reason of R57. -/
def IllegalWith (w reason : Nat) : Prop := ∀ k, decode k w = .error reason

/-- The least signed word. -/
def minWord : Word := 0x8000000000000000#64

/-- The conditions of R127, on the unsigned and the signed values of two words. -/
def compares (cc : Cc) (x y : Word) : Bool :=
  match cc with
  | .eq => decide (x.toNat = y.toNat)
  | .ne => decide (x.toNat ≠ y.toNat)
  | .lt => decide (x.toInt < y.toInt)
  | .ge => decide (y.toInt ≤ x.toInt)
  | .ltz => decide (x.toNat < y.toNat)
  | .gez => decide (y.toNat ≤ x.toNat)

end Sys2Proof.Claims

open Sys2Proof Sys2Proof.Machine Sys2Proof.Claims

/-! ### Scalar integer instructions -/

/-- R121, whole: every minor of major 0x10, the corners of division among them; no trap in any case. -/
def Sys2Proof.Claims.IntegerResults : Prop :=
  ∀ (s : State) (a b c : GReg),
    let x := s.g b.val; let y := s.g c.val
    WritesG (.add a b c) s a (x + y) ∧
    WritesG (.sub a b c) s a (x - y) ∧
    (∃ r, WritesG (.mul a b c) s a r ∧ r.toNat = x.toNat * y.toNat % 2 ^ 64) ∧
    (∃ r, WritesG (.mulh a b c) s a r ∧ r.toInt = x.toInt * y.toInt / 2 ^ 64) ∧
    (∃ r, WritesG (.mulhz a b c) s a r ∧ r.toNat = x.toNat * y.toNat / 2 ^ 64) ∧
    (∃ r, WritesG (.div a b c) s a r ∧ (y = 0 → r = BitVec.allOnes 64) ∧ (x = minWord → y.toInt = -1 → r = minWord) ∧
      (y ≠ 0 → ¬(x = minWord ∧ y.toInt = -1) → r.toInt = x.toInt.tdiv y.toInt)) ∧
    (∃ r, WritesG (.divz a b c) s a r ∧ (y = 0 → r = BitVec.allOnes 64) ∧
      (y ≠ 0 → r.toNat = x.toNat / y.toNat)) ∧
    (∃ r, WritesG (.rem a b c) s a r ∧ (y = 0 → r = x) ∧ (x = minWord → y.toInt = -1 → r = 0) ∧
      (y ≠ 0 → r.toInt = x.toInt - y.toInt * x.toInt.tdiv y.toInt)) ∧
    (∃ r, WritesG (.remz a b c) s a r ∧ (y = 0 → r = x) ∧ (y ≠ 0 → r.toNat = x.toNat % y.toNat)) ∧
    (∃ r, WritesG (.min a b c) s a r ∧ r.toInt = min x.toInt y.toInt) ∧
    (∃ r, WritesG (.max a b c) s a r ∧ r.toInt = max x.toInt y.toInt) ∧
    (∃ r, WritesG (.minz a b c) s a r ∧ r.toNat = min x.toNat y.toNat) ∧
    (∃ r, WritesG (.maxz a b c) s a r ∧ r.toNat = max x.toNat y.toNat)

/-- R121: its encodings. -/
def Sys2Proof.Claims.IntegerEncodings : Prop :=
  ∀ (a b c : GReg),
    let w (n : Nat) : Nat := word 0x10 n a b c 0 0
    Means (w 0) (.add a b c) ∧ Means (w 1) (.sub a b c) ∧ Means (w 2) (.mul a b c) ∧ Means (w 3) (.mulh a b c) ∧
    Means (w 4) (.mulhz a b c) ∧ Means (w 5) (.div a b c) ∧ Means (w 6) (.divz a b c) ∧ Means (w 7) (.rem a b c) ∧
    Means (w 8) (.remz a b c) ∧ Means (w 9) (.min a b c) ∧ Means (w 10) (.max a b c) ∧ Means (w 11) (.minz a b c) ∧
    Means (w 12) (.maxz a b c)

/-- R122, R123: `addi`, the logical and the shift instructions of majors 0x11 to 0x13, bit by bit. -/
def Sys2Proof.Claims.LogicResults : Prop :=
  ∀ (s : State) (a b c : GReg) (imm : BitVec 32) (k : Fin 64),
    let x := s.g b.val; let y := s.g c.val; let z : Word := imm.signExtend 64; let n := y.toNat % 64
    WritesG (.addi a b imm) s a (x + z) ∧
    WritesG (.and a b c) s a (x &&& y) ∧ WritesG (.andi a b imm) s a (x &&& z) ∧
    WritesG (.or a b c) s a (x ||| y) ∧ WritesG (.ori a b imm) s a (x ||| z) ∧
    WritesG (.xor a b c) s a (x ^^^ y) ∧ WritesG (.xori a b imm) s a (x ^^^ z) ∧
    WritesG (.andn a b c) s a (x &&& ~~~y) ∧ WritesG (.andni a b imm) s a (x &&& ~~~z) ∧
    WritesG (.orn a b c) s a (x ||| ~~~y) ∧ WritesG (.orni a b imm) s a (x ||| ~~~z) ∧
    (∃ r, WritesG (.shl a b c) s a r ∧ ∀ i < 64, r.getLsbD i = (decide (n ≤ i) && x.getLsbD (i - n))) ∧
    (∃ r, WritesG (.shli a b k) s a r ∧ ∀ i < 64, r.getLsbD i = (decide (k.val ≤ i) && x.getLsbD (i - k.val))) ∧
    (∃ r, WritesG (.shr a b c) s a r ∧ ∀ i < 64, r.getLsbD i = x.getLsbD (i + n)) ∧
    (∃ r, WritesG (.shri a b k) s a r ∧ ∀ i < 64, r.getLsbD i = x.getLsbD (i + k.val)) ∧
    (∃ r, WritesG (.sar a b c) s a r ∧ ∀ i < 64, r.getLsbD i = x.getLsbD (min (i + n) 63)) ∧
    (∃ r, WritesG (.sari a b k) s a r ∧ ∀ i < 64, r.getLsbD i = x.getLsbD (min (i + k.val) 63)) ∧
    (∃ r, WritesG (.rot a b c) s a r ∧ ∀ i < 64, r.getLsbD i = x.getLsbD ((i + 64 - n) % 64)) ∧
    (∃ r, WritesG (.roti a b k) s a r ∧ ∀ i < 64, r.getLsbD i = x.getLsbD ((i + 64 - k.val) % 64))

/-- R122, R123: the encodings, and the shift immediates that are illegal. -/
def Sys2Proof.Claims.LogicEncodings : Prop :=
  ∀ (a b c : GReg) (imm : BitVec 32) (k : Fin 64),
    let w (n : Nat) : Nat := word 0x12 n a b c 0 0
    let v (n : Nat) (x : Nat) : Nat := word 0x13 n a b 0 0 x
    let z := imm.toNat
    Means (word 0x11 0 a b 0 0 z) (.addi a b imm) ∧
    Means (w 0) (.and a b c) ∧ Means (w 1) (.or a b c) ∧ Means (w 2) (.xor a b c) ∧ Means (w 3) (.andn a b c) ∧
    Means (w 4) (.orn a b c) ∧ Means (w 5) (.shl a b c) ∧ Means (w 6) (.shr a b c) ∧ Means (w 7) (.sar a b c) ∧
    Means (w 8) (.rot a b c) ∧
    Means (v 0 z) (.andi a b imm) ∧ Means (v 1 z) (.ori a b imm) ∧ Means (v 2 z) (.xori a b imm) ∧
    Means (v 3 z) (.andni a b imm) ∧ Means (v 4 z) (.orni a b imm) ∧
    Means (v 5 k) (.shli a b k) ∧ Means (v 6 k) (.shri a b k) ∧ Means (v 7 k) (.sari a b k) ∧ Means (v 8 k) (.roti a b k) ∧
    ∀ n, 5 ≤ n → n ≤ 8 → 63 < z → IllegalWith (v n z) 5

/-- R124, whole: counts of bits, extensions and byte reversal, at each type that the rule gives them. -/
def Sys2Proof.Claims.CountsAndExtensions : Prop :=
  ∀ (s : State) (a b : GReg),
    let x := s.g b.val
    (∃ n ≤ 64, WritesG (.clz a b) s a (BitVec.ofNat 64 n) ∧ (x = 0 → n = 64) ∧
      (x ≠ 0 → n < 64 ∧ x.getLsbD (63 - n) = true) ∧ ∀ i < n, x.getLsbD (63 - i) = false) ∧
    (∃ n ≤ 64, WritesG (.ctz a b) s a (BitVec.ofNat 64 n) ∧ (x = 0 → n = 64) ∧
      (x ≠ 0 → n < 64 ∧ x.getLsbD n = true) ∧ ∀ i < n, x.getLsbD i = false) ∧
    WritesG (.pop a b) s a (BitVec.ofNat 64 ((List.range 64).countP (fun i => x.getLsbD i))) ∧
    (∀ ty ∈ [Ty.i8, .i16, .i32], ∃ r, WritesG (.sext ty a b) s a r ∧
      ∀ i < 64, r.getLsbD i = x.getLsbD (min i (ty.width - 1))) ∧
    (∀ ty ∈ [Ty.z8, .z16, .z32], ∃ r, WritesG (.zext ty a b) s a r ∧
      ∀ i < 64, r.getLsbD i = (decide (i < ty.width) && x.getLsbD i)) ∧
    (∀ ty ∈ [Ty.z16, .z32, .z64], ∃ r, WritesG (.bswp ty a b) s a r ∧
      ∀ i < 64, r.getLsbD i = (decide (i < ty.width) && x.getLsbD (ty.width - 8 - 8 * (i / 8) + i % 8)))

/-- R124, R125: the encodings; every other type of R124 is illegal, and so is a field of no bits or beyond bit 63. -/
def Sys2Proof.Claims.FieldEncodings : Prop :=
  ∀ (a b : GReg) (lo : Fin 64) (w : Fin 128),
    let v (n code : Nat) : Nat := word 0x14 n a b 0 0 (code * 2 ^ 51)
    let x (code : Nat) : Nat := word 0x15 0 a b 0 0 (code * 2 ^ 51 + w * 256 + lo)
    let y : Nat := word 0x16 0 a b 0 0 (w * 256 + lo)
    let types (n : Nat) : List Ty := if n < 3 then [.none] else if n = 3 then [.i8, .i16, .i32] else
      if n = 4 then [.z8, .z16, .z32] else [.z16, .z32, .z64]
    Means (v 0 0) (.clz a b) ∧ Means (v 1 0) (.ctz a b) ∧ Means (v 2 0) (.pop a b) ∧
    (∀ ty, ty ∈ types 3 → Means (v 3 ty.code) (.sext ty a b)) ∧ (∀ ty, ty ∈ types 4 → Means (v 4 ty.code) (.zext ty a b)) ∧
    (∀ ty, ty ∈ types 5 → Means (v 5 ty.code) (.bswp ty a b)) ∧
    (∀ n < 6, ∀ code < 32, code ∉ (types n).map Ty.code → ∀ k, ∃ r, decode k (v n code) = .error r) ∧
    (1 ≤ w.val → lo.val + w.val ≤ 64 → Means (x Ty.z64.code) (.bfx .z64 a b lo w) ∧ Means (x Ty.i64.code) (.bfx .i64 a b lo w) ∧
      Means y (.bfi a b lo w)) ∧
    (w.val = 0 ∨ 64 < lo.val + w.val → IllegalWith (x Ty.z64.code) 5 ∧ IllegalWith (x Ty.i64.code) 5 ∧ IllegalWith y 5)

/-- R125: bit fields, for every field position that is not illegal. -/
def Sys2Proof.Claims.BitFields : Prop :=
  ∀ (s : State) (a b : GReg) (lo : Fin 64) (w : Fin 128), 1 ≤ w.val → lo.val + w.val ≤ 64 →
    let x := s.g b.val
    (∃ r, WritesG (.bfx .z64 a b lo w) s a r ∧
      ∀ i < 64, r.getLsbD i = (decide (i < w.val) && x.getLsbD (lo.val + i))) ∧
    (∃ r, WritesG (.bfx .i64 a b lo w) s a r ∧ ∀ i < 64, r.getLsbD i = x.getLsbD (lo.val + min i (w.val - 1))) ∧
    (∃ r, WritesG (.bfi a b lo w) s a r ∧ ∀ i < 64, r.getLsbD i =
      if lo.val ≤ i ∧ i < lo.val + w.val then x.getLsbD (i - lo.val) else (s.g a.val).getLsbD i)

/-- R126, R128: moves, the address computation, selection. -/
def Sys2Proof.Claims.MovesAndSelection : Prop :=
  ∀ (s : State) (a b c d : GReg) (k : LcReg) (p : PReg) (imm : Word) (off : BitVec 32),
    WritesG (.li a imm) s a imm ∧
    WritesG (.mov (.gg a b)) s a (s.g b.val) ∧
    WritesG (.mov (.glc a k)) s a (s.slot.lcr k.val) ∧
    exec (.mov (.lcg k b)) s = .next (s.upd (fun t => t.setLc k.val (s.g b.val))).retire ∧
    (∃ r, WritesG (.lea a b c off) s a r ∧
      (r.toNat : Int) = ((s.g b.val).toNat + (s.g c.val).toNat + off.toInt) % 2 ^ 64) ∧
    (s.p p.val = true → WritesG (.sel a p c d) s a (s.g c.val)) ∧
    (s.p p.val = false → WritesG (.sel a p c d) s a (s.g d.val))

/-- R127, R129: comparisons under each condition, and the predicate logic. -/
def Sys2Proof.Claims.ComparesAndPredicates : Prop :=
  ∀ (s : State) (p q r : PReg) (b c : GReg) (imm : BitVec 32),
    let x := s.g b.val
    (∀ cc : Cc, WritesP (.cmp cc p b c) s p (compares cc x (s.g c.val)) ∧
      WritesP (.cmpi cc p b imm) s p (compares cc x (imm.signExtend 64))) ∧
    WritesP (.pand p q r) s p (s.p q.val && s.p r.val) ∧
    WritesP (.por p q r) s p (s.p q.val || s.p r.val) ∧
    WritesP (.pxor p q r) s p (s.p q.val ^^ s.p r.val) ∧
    WritesP (.pnot p q) s p (!s.p q.val)

/-- R127 to R129: the encodings. -/
def Sys2Proof.Claims.CompareEncodings : Prop :=
  ∀ (a c d : GReg) (p q r : PReg) (imm : BitVec 32),
    let w (n : Nat) : Nat := word 0x1D n p q r 0 0
    let codes : List (Cc × Nat) := [(.eq, 0), (.ne, 1), (.lt, 2), (.ge, 3), (.ltz, 4), (.gez, 5)]
    (∀ e ∈ codes, Means (word 0x17 e.2 p a c 0 0) (.cmp e.1 p a c) ∧
      Means (word 0x18 e.2 p a 0 0 imm.toNat) (.cmpi e.1 p a imm)) ∧
    Means (word 0x19 0 a p c d 0) (.sel a p c d) ∧
    Means (w 0) (.pand p q r) ∧ Means (w 1) (.por p q r) ∧ Means (w 2) (.pxor p q r) ∧
    Means (word 0x1D 3 p q 0 0 0) (.pnot p q)

/-! ### Registers, retirement, loops -/

namespace Sys2Proof.Claims

open Sys2Proof.Machine

/-- A level of the issuing slot is active and its body ends at the slot's instruction. -/
def endsHere (s : State) (k : Nat) : Bool := (s.slot.level k).act && (s.slot.level k).stop == s.pc

/-- The issuing slot's task has a handler, and none runs (R107). -/
def HasHandler (s : State) : Prop := s.slot.csr.tcause.getLsbD 63 = false ∧ s.slot.csr.tvec ≠ 0

/-- Memory, tags, descriptors, messages and the other slots are as before. -/
def SameMemory (s t : State) : Prop :=
  t.mem = s.mem ∧ t.l2 = s.l2 ∧ t.l1 = s.l1 ∧ t.owners = s.owners ∧ t.contrib = s.contrib ∧ t.memDesc = s.memDesc ∧
  t.scr = s.scr ∧ t.tags = s.tags ∧ t.scrDesc = s.scrDesc ∧ t.flight = s.flight ∧
  ∀ n, n ≠ s.cur → t.slotAt n = s.slotAt n

/-- The data registers of the issuing slot, its counters and its engine queues are as before. -/
def SameData (s t : State) : Prop :=
  t.slot.g = s.slot.g ∧ t.slot.p = s.slot.p ∧ t.slot.v = s.slot.v ∧ t.slot.m = s.slot.m ∧
  t.slot.acc = s.slot.acc ∧ t.slot.own = s.slot.own ∧ t.slot.cnt = s.slot.cnt ∧ t.slot.vq = s.slot.vq ∧
  t.slot.mq = s.slot.mq ∧ t.slot.pq = s.slot.pq ∧ t.slot.csr.fflags = s.slot.csr.fflags ∧
  t.slot.csr.frm = s.slot.csr.frm ∧ t.slot.csr.nud = s.slot.csr.nud ∧ t.slot.csr.tvec = s.slot.csr.tvec

/-- So are its loop counters and its rotation base. -/
def SameFiles (s t : State) : Prop :=
  SameData s t ∧ t.slot.lc = s.slot.lc ∧ t.slot.csr.vrb = s.slot.csr.vrb

/-- What the iteration step leaves (R141, R142): the levels `out` have ended, the levels `took` have taken the step. -/
def Stepped (s t : State) (out took : List Nat) : Prop :=
  (∀ k ∈ out, t.slot.lcr k = 0 ∧ t.slot.level k = {} ∧ k ∉ t.slot.order) ∧
  (∀ k, k ∉ took → t.slot.lcr k = s.slot.lcr k ∧ t.slot.level k = s.slot.level k) ∧
  t.slot.order = s.slot.order.filter (fun k => !out.contains k) ∧
  t.slot.csr.vrb = s.slot.csr.vrb + BitVec.ofNat 5 (31 * took.countP (fun k => (s.slot.level k).rot)) ∧
  t.slot.region.sealed = (s.slot.region.sealed || took.any (fun k => (s.slot.level k).tick)) ∧
  (let u := Nat.repeat (fun v => v.postClock s.cur 1) (took.countP (fun k => (s.slot.level k).tick)) s
   t.domains = u.domains ∧ t.flight = u.flight) ∧
  t.slot.csr.ins = s.slot.csr.ins + 1 ∧ SameData s t

/-- The slot has entered its handler for cause `c` with detail `v`, to return to `e` (R107, R109), and nothing else of
its registers, of memory or of another slot has changed. -/
def Enters (s t : State) (c : Nat) (v e : Word) : Prop :=
  t.slot.pc = s.slot.csr.tvec ∧ t.slot.csr.tepc = e ∧ t.slot.csr.tval = v ∧
  t.slot.csr.tcause = BitVec.ofNat 64 (2 ^ 63 + c) ∧
  t.slot.shLoops = s.slot.loops ∧ t.slot.shOrder = s.slot.order ∧ t.slot.shVrb = s.slot.csr.vrb ∧
  t.slot.order = [] ∧ (∀ k, (t.slot.level k).act = false ∧ (t.slot.level k).cap = false) ∧
  SameFiles s t ∧ SameMemory s t

end Sys2Proof.Claims

/-- R93, R95: g0 reads zero and p0 reads true, writes to them are discarded, every other register reads as last written
and no write touches another; v0 to v31 are fixed and v32 to v63 rotate under `vrb`. -/
def Sys2Proof.Claims.RegisterFiles : Prop :=
  ∀ (s : State),
    s.g 0 = 0 ∧ s.p 0 = true ∧
    (∀ n x, ∀ m, (s.setG n x).g m = if m = n ∧ n ≠ 0 then x else s.g m) ∧
    (∀ n < 8, ∀ b, ∀ m < 8, (s.setP n b).p m = if m = n ∧ n ≠ 0 then b else s.p m) ∧
    (∀ n x m, (s.setG n x).p m = s.p m ∧ (s.setG n x).slot.lcr m = s.slot.lcr m ∧ (s.setG n x).pc = s.pc) ∧
    (∀ n b m, (s.setP n b).g m = s.g m ∧ (s.setP n b).slot.lcr m = s.slot.lcr m ∧ (s.setP n b).pc = s.pc) ∧
    (∀ n < 32, s.slot.physV n = n) ∧
    (∀ n, 32 ≤ n → n < 64 → s.slot.physV n = 32 + (n - 32 + s.slot.csr.vrb.toNat) % 32)

/-- R96, R228: an instruction that retires where no level ends counts in `ins`, goes to the next slot or line, past the other
member of its packet when that has issued, and leaves everything else of the module alone. -/
def Sys2Proof.Claims.RetirementAdvances : Prop :=
  ∀ (s : State), s.straight = true → s.retire = s.after id ∧
    s.retire.slot.csr.ins = s.slot.csr.ins + 1 ∧
    (s.slot.after = none → (s.pc.toNat % 8 = 4 → s.retire.pc.toNat = (s.pc.toNat / 64 * 64 + 64) % 2 ^ 64) ∧
     (s.pc.toNat % 8 ≠ 4 → s.retire.pc = s.pc + 1)) ∧
    (∀ d, s.slot.after = some d → s.retire.pc = d) ∧ s.retire.slot.after = none ∧
    SameMemory s s.retire ∧ SameFiles s s.retire

/-- R141, R142: the iteration step when every level that ends here has a count of at most 1. They all end, and the slot
goes on with the next instruction. -/
def Sys2Proof.Claims.LoopLevelsEnd : Prop :=
  ∀ (s : State), let out := s.slot.order.filter (endsHere s)
    (∀ k ∈ out, (s.slot.lcr k).toNat ≤ 1) →
    Stepped s s.retire out out.eraseDups ∧ s.retire.pc = s.slot.after.getD (nextPc s.pc)

/-- R141, R142: the iteration step when a level goes on: those opened after it that end here have ended, it counts down
and continues at its start, and the levels opened before it take no step. -/
def Sys2Proof.Claims.LoopLevelContinues : Prop :=
  ∀ (s : State) (pre post : List Nat) (j : Nat), s.slot.order = pre ++ j :: post →
    let out := pre.filter (endsHere s)
    (∀ k ∈ out, (s.slot.lcr k).toNat ≤ 1) → endsHere s j = true → 1 < (s.slot.lcr j).toNat →
    let t := s.retire
    (∀ k ∈ out, t.slot.lcr k = 0 ∧ t.slot.level k = {} ∧ k ∉ t.slot.order) ∧
    (∀ k, k ∉ out → k ≠ j → t.slot.lcr k = s.slot.lcr k ∧ t.slot.level k = s.slot.level k) ∧
    t.slot.lcr j = s.slot.lcr j - 1 ∧
    (let l := t.slot.level j; let m := s.slot.level j
     l.act = true ∧ l.rot = m.rot ∧ l.tick = m.tick ∧ l.start = m.start ∧ l.stop = m.stop) ∧
    t.slot.order = s.slot.order.filter (fun k => !out.contains k) ∧
    t.slot.csr.vrb = s.slot.csr.vrb +
      BitVec.ofNat 5 (31 * (out.eraseDups ++ [j]).countP (fun k => (s.slot.level k).rot)) ∧
    t.slot.region.sealed = (s.slot.region.sealed || (j :: out).any (fun k => (s.slot.level k).tick)) ∧
    t.slot.csr.ins = s.slot.csr.ins + 1 ∧ t.pc = (s.slot.level j).start ∧ SameData s t

/-- R140: opening a level. A count of 0 continues after the end and opens nothing; another count opens the level at the
next instruction, when that is a marked target, and otherwise raises the line-format trap. -/
def Sys2Proof.Claims.LoopsOpen : Prop :=
  ∀ (s : State) (k : LcReg) (b : GReg) (n : BitVec 21) (tick : Bool) (tgt : Target),
    let stop := targetAddr s.pc tgt
    let start := nextPc s.pc
    ∀ (i : Instr) (c : Word) (rot : Bool),
      (i = .lp k b tick tgt ∧ c = s.g b.val ∧ rot = false) ∨ (i = .lpr k b tick tgt ∧ c = s.g b.val ∧ rot = true) ∨
        (i = .lpx k n tick tgt ∧ c.toNat = n.toNat ∧ rot = false) →
      (c = 0 → exec i s = .next (s.transfer (nextPc stop) false)) ∧
      (c ≠ 0 → s.marked start = true → ∃ t, exec i s = .next t ∧ t.pc = start ∧ t.slot.lcr k.val = c ∧
        t.slot.level k.val = { act := true, rot := rot, tick := tick, start := start, stop := stop } ∧
        t.slot.order.head? = some k.val ∧ (∀ j, j ≠ k.val → t.slot.lcr j = s.slot.lcr j) ∧
        t.slot.csr.ins = s.slot.csr.ins + 1 ∧ t.slot.region = s.slot.region ∧ SameData s t ∧ SameMemory s t ∧
        (s.straight = true → k.val ∉ s.slot.order →
          t.slot.order = k.val :: s.slot.order ∧ ∀ j, j ≠ k.val → t.slot.level j = s.slot.level j)) ∧
      (c ≠ 0 → s.marked start = false →
        exec i s = .next (s.trap 2 (BitVec.ofNat 64 (start.toNat / 64 * 64 + start.toNat % 8 * 8 + 4))))

/-- R143: a transfer of control closes the levels that end at it, those whose bodies do not hold the destination of a
`br`, `bri` or `jt` (`leaves`), and every level opened after one of these; it takes no iteration step. -/
def Sys2Proof.Claims.TransferClosesLevels : Prop :=
  ∀ (s : State) (d : Word) (leaves : Bool),
    let t := s.transfer d leaves
    let out (k : Nat) : Bool := (s.slot.level k).act && ((s.slot.level k).stop == s.pc ||
      (leaves && !((s.slot.level k).start.toNat ≤ d.toNat && d.toNat ≤ (s.slot.level k).stop.toNat)))
    (t.pc = d ∧ t.slot.csr.ins = s.slot.csr.ins + 1 ∧ SameFiles s t ∧ SameMemory s t ∧
      t.slot.region = s.slot.region) ∧
    ((∀ k ∈ s.slot.order, out k = false) → t.slot.order = s.slot.order ∧ t.slot.loops = s.slot.loops) ∧
    (∀ pre k post, s.slot.order = pre ++ k :: post → k ∉ pre → out k = true → (∀ m ∈ post, out m = false) →
      (∀ m, m = k ∨ m ∈ pre → t.slot.level m = {} ∧ m ∉ t.slot.order) ∧
      (∀ m, m ≠ k → m ∉ pre → t.slot.level m = s.slot.level m ∧ (m ∈ t.slot.order ↔ m ∈ s.slot.order)))

/-- R54, R136, R137: branches, calls and the return. Each transfers to its destination when the rules of R54 let it, a
call with its link written, and otherwise raises the trap that R54 names. -/
def Sys2Proof.Claims.BranchesAndCalls : Prop :=
  ∀ (s : State) (a b : GReg) (tgt : Target),
    let d : Word := BitVec.ofInt 64 ((s.pc.toNat / 64 * 64 : Nat) + tgt.disp.toInt * 64 + tgt.tslot.val)
    let r := s.g b.val
    let legal : Prop := r.toNat / 8 % 8 = 0 ∧ r.toNat % 8 ≤ 4
    let unmarked (x : Word) : State := s.trap 2 (BitVec.ofNat 64 (x.toNat / 64 * 64 + x.toNat % 8 * 8 + 4))
    (s.marked d = true → exec (.br tgt) s = .next (s.transfer d true) ∧
      exec (.call a tgt) s = .next ((s.setG a.val (nextPc s.pc)).transfer d false)) ∧
    (s.marked d = false → exec (.br tgt) s = .next (unmarked d) ∧ exec (.call a tgt) s = .next (unmarked d)) ∧
    (legal → exec (.ret b) s = .next (s.transfer r false)) ∧
    (legal → s.marked r = true → exec (.bri b) s = .next (s.transfer r true) ∧
      exec (.calli a b) s = .next ((s.setG a.val (nextPc s.pc)).transfer r false)) ∧
    (legal → s.marked r = false → exec (.bri b) s = .next (unmarked r) ∧
      exec (.calli a b) s = .next (unmarked r)) ∧
    (¬legal → exec (.ret b) s = .next (s.trap 3 r) ∧ exec (.bri b) s = .next (s.trap 3 r) ∧
      exec (.calli a b) s = .next (s.trap 3 r)) ∧
    (∀ x l, s.fetchLine s.cur x = .ok l → s.marked x = l.testBit (507 + x.toNat % 8))

/-- R138: a table jump. An index outside the table continues with the next instruction; a misaligned base traps; an
entry in the task's own scratchpad that no earlier access of the slot still writes is the destination, under R54, and a
poisoned one raises a precise machine check. -/
def Sys2Proof.Claims.TableJumps : Prop :=
  ∀ (s : State) (a b : GReg) (n1 : BitVec 16),
    let i := (s.g a.val).toNat
    let at_ : Word := s.g b.val + 8 * s.g a.val
    (n1.toNat + 1 ≤ i → exec (.jt a b n1) s = .next (s.transfer (nextPc s.pc) false)) ∧
    (i ≤ n1.toNat → (s.g b.val).toNat % 8 ≠ 0 → exec (.jt a b n1) s = .next (s.trap 3 at_)) ∧
    (i ≤ n1.toNat → (s.g b.val).toNat % 8 = 0 → ∀ c o p, s.window s.cur at_ 8 .load = .ok (some (c, o, p)) →
      s.slot.head.spec = false → s.mustWait (.scr c o) 8 = false → s.conflict (.scr c o) 8 true = false →
      let d : Word := BitVec.ofNat 64 (leNat ((List.range 8).map (fun k => Memory.read s.scr (State.scrKey c o + k))))
      (s.descAt (.scr c o)).toNat % 256 ≠ 255 → d.toNat / 8 % 8 = 0 → d.toNat % 8 ≤ 4 →
      (s.filled at_).marked d = true → exec (.jt a b n1) s = .next ((s.filled at_).transfer d true))

/-! ### System instructions -/

/-- R107, R109: a trap that finds a handler enters it, whatever its cause. -/
def Sys2Proof.Claims.TrapEntry : Prop :=
  ∀ (s : State) (c : Nat) (v : Word), c < 256 → HasHandler s → Enters s (s.trap c v) c v s.pc

/-- R107: a trap that finds no handler, or meets a running one, ends the task in its slot: the faulted continuation is
written, the report is made, with the trapping instruction as its `tepc` (log 62, the model's reading), and the slot is
released; a store of the continuation that fails holds the slot (R92). -/
def Sys2Proof.Claims.TrapWithoutHandler : Prop :=
  ∀ (s : State) (c : Nat) (v : Word), ¬HasHandler s →
    let t := s.trap c v
    (t.slot.run = .idle ∧ t.cur = s.cur ∧
      Report.faulted s.slot.rid c v s.slot.csr.tcause s.pc 0 ∈ t.reports) ∨
    (t.slot.run = .held ∧ Report.contFault s.slot.rid s.cur ∈ t.reports)

/-- R115, R112: `nop`, and the instructions that enter the handler with `tepc` at the next instruction; an armed slot is
held at `brk`. -/
def Sys2Proof.Claims.SystemCalls : Prop :=
  ∀ (s : State) (n : BitVec 16),
    exec .nop s = .next s.retire ∧
    (HasHandler s →
      (∃ t, exec (.trap n) s = .next t ∧ Enters s t 17 (n.setWidth 64) (nextPc s.pc)) ∧
      (∃ t, exec (.sys n) s = .next t ∧ Enters s t 16 (n.setWidth 64) (nextPc s.pc) ∧ t.slot.region.sealed = true) ∧
      (s.slot.armed = false → ∃ t, exec (.brk n) s = .next t ∧ Enters s t 15 (n.setWidth 64) (nextPc s.pc))) ∧
    (s.slot.armed = true → ∃ t, exec (.brk n) s = .next t ∧ t.slot.run = .debugHeld ∧ t.pc = s.retire.pc)

/-- R110: the return from a trap restores the loops and `vrb`, clears `tcause` bit 63 and resumes at `tepc`; without a
handler running it is illegal with reason 6. -/
def Sys2Proof.Claims.TrapReturn : Prop :=
  ∀ (s : State),
    let e := s.slot.csr.tepc
    (s.slot.csr.tcause.getLsbD 63 = false → exec .sret s = .next (s.trap 1 (State.illegalTval 6 s.wordHere))) ∧
    (s.slot.csr.tcause.getLsbD 63 = true → e.toNat / 8 % 8 = 0 → e.toNat % 8 ≤ 4 →
      ∃ t, exec .sret s = .next t ∧ t.pc = e ∧ t.slot.loops = s.slot.shLoops ∧ t.slot.order = s.slot.shOrder ∧
        t.slot.csr.vrb = s.slot.shVrb ∧ (∀ i < 64, t.slot.csr.tcause.getLsbD i =
          (decide (i ≠ 63) && s.slot.csr.tcause.getLsbD i)) ∧
        t.slot.csr.tepc = e ∧ t.slot.csr.tval = s.slot.csr.tval ∧ t.slot.csr.ins = s.slot.csr.ins + 1 ∧
        t.slot.lc = s.slot.lc ∧ SameData s t ∧ SameMemory s t)

/-- R107, R110: a handler's return undoes its entry: the slot resumes at the trapping instruction with its loops and
rotation base, and with every register but `tval`, `tcause`, `tepc` and `ins` as before. -/
def Sys2Proof.Claims.TrapThenReturn : Prop :=
  ∀ (s t : State) (c : Nat) (v : Word), c < 256 → HasHandler s → s.pc.toNat / 8 % 8 = 0 → s.pc.toNat % 8 ≤ 4 →
    t = s.trap c v → ∃ u, exec .sret t = .next u ∧ u.pc = s.pc ∧ u.slot.loops = s.slot.loops ∧
      u.slot.order = s.slot.order ∧ u.slot.csr.tcause = BitVec.ofNat 64 c ∧ SameFiles s u ∧ SameMemory s u ∧
      u.slot.region = s.slot.region ∧ HasHandler u

/-- R96, R119: what `csrr` reads of every assigned number, and the illegal-instruction trap for the others (R99). -/
def Sys2Proof.Claims.ControlRegisterReads : Prop :=
  ∀ (s : State) (a : GReg) (n : BitVec 12),
    let x := s.slot
    let list : List (Nat × Word) := [
      (0x000, x.rid.addr), (0x001, BitVec.ofNat 64 (s.cur % 2)), (0x002, BitVec.ofNat 64 (s.cur / 2 % 8)),
      (0x003, BitVec.ofNat 64 (s.cur / 16 % 96)), (0x004, BitVec.ofNat 64 (s.cur / 16 / 96)),
      (0x005, BitVec.ofNat 64 (s.cur / 16)), (0x006, BitVec.ofNat 64 s.dev),
      (0x010, x.csr.tvec), (0x011, x.csr.tcause), (0x012, x.csr.tval), (0x013, x.csr.tepc), (0x020, x.tkey),
      (0x021, match (s.clusterAt (s.cur / 16)).ll with
        | some k => BitVec.ofNat 64 k.t
        | none => BitVec.allOnes 64),
      (0x030, x.csr.nud.setWidth 64), (0x040, s.cyc), (0x041, x.csr.ins), (0x050, x.csr.fflags.setWidth 64),
      (0x051, x.csr.frm.setWidth 64), (0x060, x.csr.vrb.setWidth 64), (0x061, x.lpst)]
    (∀ e ∈ list, n.toNat = e.1 → WritesG (.csrr a n) s a e.2) ∧
    ((∀ e ∈ list, n.toNat ≠ e.1) → Instr.illegal 0 (.csrr a n) = some 5 ∧
      exec (.csrr a n) s = .next (s.trap 1 (State.illegalTval 5 s.wordHere)))

/-- R99, R119, R259: the writes of control registers. The old value is read before the write; a read-only number, and a
value with a reserved bit or that is no `tvec`, is illegal with reason 6; a domain that is not granted is a permission
trap; nothing is written then. -/
def Sys2Proof.Claims.ControlRegisterWrites : Prop :=
  ∀ (s : State) (a b : GReg) (n : BitVec 12),
    let x := s.slot
    let y := s.g b.val
    ∀ (i : Instr) (d : Nat) (old new : Word), s.csrRead n.toNat = some old →
      (i = .csrw n b ∧ d = 0 ∧ new = y) ∨ (i = .csrx a n b ∧ d = a.val ∧ new = y) ∨
        (i = .csrs a n b ∧ d = a.val ∧ new = old ||| y) ∨ (i = .csrc a n b ∧ d = a.val ∧ new = old &&& ~~~y) →
      let wrote (c : Csrs) : Prop := exec i s = .next (s.upd (fun t => ({ t with csr := c }).setG d old)).retire
      let illegal : Prop := exec i s = .next (s.trap 1 (State.illegalTval 6 s.wordHere))
      (n.toNat = 0x010 → new.toNat / 8 % 8 = 0 ∧ new.toNat % 8 ≤ 4 → wrote { x.csr with tvec := new }) ∧
      (n.toNat = 0x010 → ¬(new.toNat / 8 % 8 = 0 ∧ new.toNat % 8 ≤ 4) → illegal) ∧
      (n.toNat = 0x011 → new.toNat / 2 ^ 8 % 2 ^ 54 = 0 → wrote { x.csr with tcause := new }) ∧
      (n.toNat = 0x011 → new.toNat / 2 ^ 8 % 2 ^ 54 ≠ 0 → illegal) ∧
      (n.toNat = 0x012 → wrote { x.csr with tval := new }) ∧
      (n.toNat = 0x013 → wrote { x.csr with tepc := new }) ∧
      (n.toNat = 0x030 → new.toNat < 256 → s.grantedDomain new.toNat = true →
        wrote { x.csr with nud := new.truncate 8 }) ∧
      (n.toNat = 0x030 → new.toNat < 256 → s.grantedDomain new.toNat = false → exec i s = .next (s.trap 7 new)) ∧
      (n.toNat = 0x050 → new.toNat < 32 → wrote { x.csr with fflags := new.truncate 5 }) ∧
      (n.toNat = 0x051 → new.toNat < 4 → wrote { x.csr with frm := new.truncate 2 }) ∧
      (n.toNat = 0x060 → new.toNat < 32 → wrote { x.csr with vrb := new.truncate 5 }) ∧
      ((n.toNat = 0x030 ∧ 256 ≤ new.toNat) ∨ (n.toNat = 0x050 ∧ 32 ≤ new.toNat) ∨
        (n.toNat = 0x051 ∧ 4 ≤ new.toNat) ∨ (n.toNat = 0x060 ∧ 32 ≤ new.toNat) → illegal) ∧
      (n.toNat ∈ [0x000, 0x001, 0x002, 0x003, 0x004, 0x005, 0x006, 0x020, 0x021, 0x040, 0x041, 0x061] →
        i.illegal 0 = some 6 ∧ illegal)

/-- R116, R117, R239: `wait` goes on when its bounds hold and otherwise leaves the slot where it is; a fence or an `xf`
whose condition is met holds nothing, and another holds later memory instructions; an acquire turns the valid words of
the core's L1 to invalid, and so does an `xf` of the core path that is met, whose paths keep nothing fetched before (R240). -/
def Sys2Proof.Claims.WaitsAndFences : Prop :=
  ∀ (s : State) (l n c t : Fin 16) (c1 c2 : Path),
    let x := s.slot.cnt
    let stores := x.st.toNat + x.rpe.toNat + x.rdi.toNat + x.rpk.toNat + x.rfa.toNat
    let met := (l.val = 15 ∨ x.ld.toNat ≤ l.val) ∧ (n.val = 15 ∨ stores ≤ n.val) ∧
      (c.val = 15 ∨ x.cp.toNat ≤ c.val) ∧ (t.val = 15 ∨ x.tl.toNat ≤ t.val)
    let held (h : List Hold) (i : Instr) : Prop := exec i s = .next (s.upd (fun y => { y with holds := h })).retire
    (met → exec (.wait l n c t) s = .next s.retire) ∧ (¬met → exec (.wait l n c t) s = .next s) ∧
    (s.slot.holds = [] →
      (x.ld = 0 ∧ stores = 0 → exec .fence s = .next s.retire) ∧
      (¬(x.ld = 0 ∧ stores = 0) → held [.fence] .fence) ∧
      (stores = 0 → exec .fenceRel s = .next s.retire) ∧
      (stores ≠ 0 → held [.fenceRel] .fenceRel) ∧
      (x.ld = 0 → exec .fenceAcq s = .next (s.selfInvalidate s.cache).retire) ∧
      (x.ld ≠ 0 → held [.fenceAcq] .fenceAcq) ∧
      (stores = 0 → x.ld = 0 → exec .fenceAr s = .next (s.selfInvalidate s.cache).retire) ∧
      (stores = 0 → x.ld ≠ 0 → held [.fenceAcq] .fenceAr) ∧
      (stores ≠ 0 → held [.fenceRel, .fenceAcq] .fenceAr) ∧
      (s.pathBusy s.cur c1 = false → s.pathBusy s.cur c2 = false →
        exec (.xf c1 c2) s = .next (s.crossed s.cur c1 c2).retire) ∧
      (s.pathBusy s.cur c1 = true ∨ s.pathBusy s.cur c2 = true → held [.xf c1 c2] (.xf c1 c2))) ∧
    (let t := s.crossed s.cur c1 c2
     (∀ a ∈ t.slot.ahead, a.path ≠ c1 ∧ a.path ≠ c2) ∧
     (c1 = .core ∨ c2 = .core → ∀ w < 2 ^ 50, ∀ x, t.l1At s.cache w = some x → x.st ≠ .valid)) ∧
    (∀ r : Raw, (.fence ∈ s.slot.holds ∨ .fenceRel ∈ s.slot.holds ∨ .fenceAcq ∈ s.slot.holds) →
      (0x40 ≤ r.maj ∧ r.maj ≤ 0x4E) ∨ r.maj = 0x38 → s.stalled r = true)

/-- R67: `rgn` opens a region at its own address with its inputs as they are and the predicates, unsealed; within an
active loop it is a region violation at its address (R106, R108). -/
def Sys2Proof.Claims.RegionsOpen : Prop :=
  ∀ (s : State) (gin : BitVec 64) (lcin : BitVec 3),
    (s.slot.order = [] → ∃ t, exec (.rgn gin lcin) s = .next t ∧ t.pc = s.slot.after.getD (nextPc s.pc) ∧
      t.slot.csr.ins = s.slot.csr.ins + 1 ∧
      (let r := t.slot.region
       r.pc = s.pc ∧ r.gin = gin ∧ r.lcin = lcin ∧ r.sealed = false ∧ r.isRgn = true ∧ r.pred = s.slot.p ∧
       r.vals = ((List.range 64).filter (fun n => n != 0 && gin.getLsbD n)).map s.g ++
         ((List.range 3).filter (fun k => lcin.getLsbD k)).map s.slot.lcr) ∧
      SameFiles s t ∧ SameMemory s t) ∧
    (s.slot.order ≠ [] → exec (.rgn gin lcin) s = .next (s.trap 10 s.pc))

/-! ### Scalar float instructions -/

namespace Sys2Proof.Claims

open Sys2Proof.Machine Sys2Proof.Num

/-- A pattern is a NaN, a signalling NaN, an infinity, a zero; its sign (R146). -/
def nanP (f : Fmt) (x : Nat) : Bool := decide (f.inf < x % f.signBit)
def snanP (f : Fmt) (x : Nat) : Bool := nanP f x && decide (x % f.signBit < f.inf + 2 ^ (f.fw - 1))
def infP (f : Fmt) (x : Nat) : Bool := decide (x % f.signBit = f.inf)
def zeroP (f : Fmt) (x : Nat) : Bool := decide (x % f.signBit = 0)
def negP (f : Fmt) (x : Nat) : Bool := decide (x / f.signBit % 2 = 1)

/-- nv when a condition holds. -/
def nvIf (b : Bool) : BitVec 5 := if b then 16 else 0

/-- Order of patterns that are no NaN, with −0 below +0 (R132): the magnitude, with its sign. -/
def rank (f : Fmt) (x : Nat) : Int := if negP f x then -((x % f.signBit : Nat) : Int) - 1 else (x % f.signBit : Nat)

/-- Order of patterns that are no NaN, with −0 equal to +0 (R133). -/
def rank0 (f : Fmt) (x : Nat) : Int := if negP f x then -((x % f.signBit : Nat) : Int) else (x % f.signBit : Nat)

end Sys2Proof.Claims

/-- R130, R131: the exceptional operands of the float arithmetic, by their patterns: the canonical NaN with nv for a
signalling operand or an invalid operation, signed infinity with dz for a division by zero, −0 as its own root. -/
def Sys2Proof.Claims.FloatExceptions : Prop :=
  ∀ (s : State) (ty : Ty) (a b c d : GReg), ty = .f32 ∨ ty = .f64 →
    let f := Num.fmtOf ty
    let x := (s.g b.val).toNat % 2 ^ ty.width
    let y := (s.g c.val).toNat % 2 ^ ty.width
    let z := (s.g d.val).toNat % 2 ^ ty.width
    let sign (v : Bool) : Nat := if v then f.signBit else 0
    (nanP f x = true ∨ nanP f y = true →
      ∀ i ∈ [Instr.fadd ty a b c, .fsub ty a b c, .fmul ty a b c, .fdiv ty a b c],
        WritesF i s a f.qnan (nvIf (snanP f x || snanP f y))) ∧
    (nanP f x = true → WritesF (.fsqrt ty a b) s a f.qnan (nvIf (snanP f x))) ∧
    (infP f x = true → infP f y = true →
      WritesF (if negP f x = negP f y then .fsub ty a b c else .fadd ty a b c) s a f.qnan 16 ∧
      WritesF (.fdiv ty a b c) s a f.qnan 16) ∧
    (infP f x = true → zeroP f y = true → WritesF (.fmul ty a b c) s a f.qnan 16) ∧
    (zeroP f x = true → infP f y = true → WritesF (.fmul ty a b c) s a f.qnan 16) ∧
    (zeroP f x = true → zeroP f y = true → WritesF (.fdiv ty a b c) s a f.qnan 16) ∧
    (nanP f x = false → infP f x = false → zeroP f x = false → zeroP f y = true →
      WritesF (.fdiv ty a b c) s a (sign (negP f x != negP f y) + f.inf) 8) ∧
    (zeroP f x = true → WritesF (.fsqrt ty a b) s a x 0) ∧
    (nanP f x = false → zeroP f x = false → negP f x = true → WritesF (.fsqrt ty a b) s a f.qnan 16) ∧
    ((zeroP f x = true ∧ infP f y = true) ∨ (infP f x = true ∧ zeroP f y = true) →
      WritesF (.fma ty a b c d) s a f.qnan 16) ∧
    (nanP f x = true ∨ nanP f y = true ∨ (nanP f z = true ∧ ¬((zeroP f x = true ∧ infP f y = true) ∨
        (infP f x = true ∧ zeroP f y = true))) →
      WritesF (.fma ty a b c d) s a f.qnan (nvIf (snanP f x || snanP f y || snanP f z)))

/-- R130, R131: the finite results: the exact sum, product, fused result or quotient of the operands' values, rounded
once under `frm`. -/
def Sys2Proof.Claims.FloatResultsRoundOnce : Prop :=
  ∀ (s : State) (ty : Ty) (a b c d : GReg) (na nb nd : Bool) (sa sb sd : Nat) (ea eb ed : Int), ty = .f32 ∨ ty = .f64 →
    let f := Num.fmtOf ty
    let rm := Num.rmOf s.slot.csr.frm.toNat
    let v (n : GReg) : Num.Val := Num.unpack f ((s.g n.val).toNat % 2 ^ ty.width)
    let int (n : Bool) (m : Nat) : Int := if n then -(m : Int) else m
    let zero (p q : Bool) : Bool := if p = q then p else decide (rm = .rdn)
    v b = .fin na sa ea → v c = .fin nb sb eb → v d = .fin nd sd ed →
    (let e := min ea eb
     let x := int na sa * 2 ^ (ea - e).toNat
     let y := int nb sb * 2 ^ (eb - e).toNat
     (let r := Num.roundInt f rm (zero na nb) (x + y) e; WritesF (.fadd ty a b c) s a r.1 r.2) ∧
     (let r := Num.roundInt f rm (zero na !nb) (x - y) e; WritesF (.fsub ty a b c) s a r.1 r.2)) ∧
    (let r := Num.round f rm (na != nb) (sa * sb) (ea + eb); WritesF (.fmul ty a b c) s a r.1 r.2) ∧
    (let e := min (ea + eb) ed
      let r := Num.roundInt f rm (zero (na != nb) nd) (int (na != nb) (sa * sb) * 2 ^ (ea + eb - e).toNat + int nd sd * 2 ^ (ed - e).toNat) e
      WritesF (.fma ty a b c d) s a r.1 r.2) ∧
    (sa ≠ 0 → sb ≠ 0 → ∃ k q : Nat, q = sa * 2 ^ k / sb ∧ 2 ^ (f.fw + 2) ≤ q ∧
      (let r := Num.round f rm (na != nb) q (ea - eb - k) (decide (sa * 2 ^ k % sb ≠ 0))
       WritesF (.fdiv ty a b c) s a r.1 r.2)) ∧
    (sa ≠ 0 → na = false → ∃ k q : Nat, (ea - k) % 2 = 0 ∧ q * q ≤ sa * 2 ^ k ∧ sa * 2 ^ k < (q + 1) * (q + 1) ∧
      2 ^ (f.fw + 2) ≤ q ∧
      (let r := Num.round f rm false q ((ea - k) / 2) (decide (q * q ≠ sa * 2 ^ k))
       WritesF (.fsqrt ty a b) s a r.1 r.2))

/-- R130: a value of the format rounds to itself, under every mode and without a flag. -/
def Sys2Proof.Claims.ExactValuesRoundToThemselves : Prop :=
  ∀ (f : Num.Fmt) (rm : Num.Rm) (x : Nat) (n : Bool) (m : Nat) (e : Int), f ∈ [Num.f16, Num.b16, Num.f32, Num.f64] →
    x < 2 ^ f.width → Num.unpack f x = .fin n m e → Num.round f rm n m e = (x, 0)

/-- R132, whole: minimum and maximum order −0 below +0 and prefer a number to a NaN; only a signalling NaN sets a flag. -/
def Sys2Proof.Claims.FloatMinMax : Prop :=
  ∀ (s : State) (ty : Ty) (a b c : GReg), ty = .f32 ∨ ty = .f64 →
    let f := Num.fmtOf ty
    let x := (s.g b.val).toNat % 2 ^ ty.width
    let y := (s.g c.val).toNat % 2 ^ ty.width
    let fl := nvIf (snanP f x || snanP f y)
    ∃ lo hi, WritesF (.fmin ty a b c) s a lo fl ∧ WritesF (.fmax ty a b c) s a hi fl ∧
      (nanP f x = true → nanP f y = true → lo = f.qnan ∧ hi = f.qnan) ∧
      (nanP f x = true → nanP f y = false → lo = y ∧ hi = y) ∧
      (nanP f x = false → nanP f y = true → lo = x ∧ hi = x) ∧
      (nanP f x = false → nanP f y = false → (lo = x ∨ lo = y) ∧ (hi = x ∨ hi = y) ∧
        rank f lo = min (rank f x) (rank f y) ∧ rank f hi = max (rank f x) (rank f y))

/-- R133, whole: comparisons of floats and their flag. -/
def Sys2Proof.Claims.FloatCompares : Prop :=
  ∀ (s : State) (ty : Ty) (p : PReg) (b c : GReg), ty = .f32 ∨ ty = .f64 →
    let f := Num.fmtOf ty
    let x := (s.g b.val).toNat % 2 ^ ty.width
    let y := (s.g c.val).toNat % 2 ^ ty.width
    let un := nanP f x || nanP f y
    let sn := nvIf (snanP f x || snanP f y)
    let answers (cc : FCc) (r : Bool) (fl : BitVec 5) : Prop :=
      exec (.fcmp cc ty p b c) s = .next ((s.setP p.val r).orFlags fl).retire
    answers .eq (!un && decide (rank0 f x = rank0 f y)) sn ∧
    answers .lt (!un && decide (rank0 f x < rank0 f y)) (nvIf un) ∧
    answers .le (!un && decide (rank0 f x ≤ rank0 f y)) (nvIf un) ∧
    answers .un un sn

/-- R132, R133: the encodings of `fmin`, `fmax` and `fcmp`. -/
def Sys2Proof.Claims.FloatEncodings : Prop :=
  ∀ (ty : Ty) (a b c : GReg) (p : PReg), ty = .f32 ∨ ty = .f64 →
    let t := ty.code * 2 ^ 51
    Means (word 0x20 5 a b c 0 t) (.fmin ty a b c) ∧ Means (word 0x20 6 a b c 0 t) (.fmax ty a b c) ∧
    Means (word 0x22 0 p b c 0 t) (.fcmp .eq ty p b c) ∧ Means (word 0x22 1 p b c 0 t) (.fcmp .lt ty p b c) ∧
    Means (word 0x22 2 p b c 0 t) (.fcmp .le ty p b c) ∧ Means (word 0x22 3 p b c 0 t) (.fcmp .un ty p b c)

/-- R134: conversions between float formats, to integers and from integers. -/
def Obligations.FloatConversions : Prop :=
  ∀ (s : State) (d t : Ty) (a b : GReg),
    let rm := Num.rmOf s.slot.csr.frm.toNat
    let floats : List Ty := [.f16, .b16, .f32, .f64]
    let ints : List Ty := [.i32, .i64, .z32, .z64]
    let x := (s.g b.val).toNat % 2 ^ t.width
    let g := Num.fmtOf t
    let f := Num.fmtOf d
    let lo : Int := if d.isI then -2 ^ (d.width - 1) else 0
    let hi : Int := if d.isI then 2 ^ (d.width - 1) - 1 else 2 ^ d.width - 1
    let v : Int := if t.isI && decide (2 ^ (t.width - 1) ≤ x) then (x : Int) - 2 ^ t.width else x
    let writesInt (y : Int) (fl : BitVec 5) : Prop :=
      exec (.fcvt d t a b) s = .next ((s.setG a.val (BitVec.ofInt 64 y)).orFlags fl).retire
    (d ∈ floats → t ∈ floats → (nanP g x = true → WritesF (.fcvt d t a b) s a f.qnan (nvIf (snanP g x))) ∧
      (infP g x = true → WritesF (.fcvt d t a b) s a ((if negP g x then f.signBit else 0) + f.inf) 0) ∧
      (∀ n m e, Num.unpack g x = .fin n m e →
        let r := Num.round f rm n m e; WritesF (.fcvt d t a b) s a r.1 r.2)) ∧
    (d ∈ floats → t ∈ ints → let r := Num.roundInt f rm false v 0; WritesF (.fcvt d t a b) s a r.1 r.2) ∧
    (d ∈ ints → t ∈ floats → (nanP g x = true → writesInt 0 16) ∧
      (infP g x = true → writesInt (if negP g x then lo else hi) 16) ∧
      (∀ n m e, Num.unpack g x = .fin n m e → let c := Num.cut rm n m e 0 false
        let y : Int := if n then -(c.1 : Int) else c.1
        (y < lo → writesInt lo 16) ∧ (hi < y → writesInt hi 16) ∧
        (lo ≤ y → y ≤ hi → writesInt y (if c.2 then 1 else 0))))

/-! ### Vector instructions -/

namespace Sys2Proof.Claims

open Sys2Proof.Machine

/-- Lane j is active under a mask operand (R169). -/
def active (s : State) (mask : LaneMask) (j : Nat) : Bool := laneActive mask (s.maskBits mask) j

/-- No active lane of the sources lies in a poisoned block (R170). -/
def Readable (s : State) (ty : Ty) (mask : LaneMask) (regs : List Sys2Proof.VReg) : Prop :=
  ∀ r ∈ regs, ∀ j < ty.lanes, active s mask j = true → State.isPoison ((s.v r).descOf (laneBlock ty j)) = false

/-- No block of a register is poisoned. -/
def Clean (s : State) (r : Sys2Proof.VReg) : Prop := ∀ b < 8, State.isPoison ((s.v r).descOf b) = false

/-- A register after an instruction (R169, R171): active lanes hold `f`, the others their bits; blocks with an active
lane have descriptor `d`, the others keep theirs. -/
def Lanes (old x : Machine.VReg) (ty : Ty) (act : Nat → Bool) (f : Nat → Nat) (d : BitVec 16) : Prop :=
  (∀ j < ty.lanes, rawLane x.lanes ty j = if act j then f j % 2 ^ ty.width else rawLane old.lanes ty j) ∧
  (∀ b < 8, x.descOf b =
    if (List.range ty.lanes).any (fun j => act j && laneBlock ty j == b) then d else old.descOf b)

/-- The engine accepts the instruction with its writes (R102, R103): what acceptance does is `VectorAcceptance`. -/
def Accepts (i : Instr) (s : State) (ws : List RegWrite) : Prop := exec i s = .next (s.acceptVector ws)

/-- The instruction writes the lanes `f` of register `a`, each with its flags, under the mask. -/
def WritesLanes (i : Instr) (s : State) (ty : Ty) (a : Sys2Proof.VReg) (mask : LaneMask)
    (f : Nat → Nat × BitVec 5) : Prop :=
  ∃ x fl, Accepts i s [.v (s.slot.physV a.val) x, .flags fl] ∧
    Lanes (s.v a) x ty (active s mask) (fun j => (f j).1) (descFor ty) ∧
    ∀ k < 5, fl.getLsbD k = (List.range ty.lanes).any (fun j => active s mask j && (f j).2.getLsbD k)

/-- The instruction writes one general register when the engine completes it. -/
def AcceptsG (i : Instr) (s : State) (a : GReg) (x : Word) : Prop := Accepts i s [.g a.val x]

/-- The range of an integer lane type, and a result wrapped or clamped into it. -/
def loOf (ty : Ty) : Int := if ty.isI then -2 ^ (ty.width - 1) else 0
def hiOf (ty : Ty) : Int := if ty.isI then 2 ^ (ty.width - 1) - 1 else 2 ^ ty.width - 1
def fit (ty : Ty) (sat : Bool) (x : Int) : Nat := patternOf ty.width (if sat then max (loOf ty) (min (hiOf ty) x) else x)

/-- Lane j of a source register, read as a number of its type: signed for the i types (R144, R166). -/
def lane (s : State) (ty : Ty) (r : Sys2Proof.VReg) (j : Nat) : Int := intLane ty ((s.v r).lane ty j)

end Sys2Proof.Claims

/-- R102, R103, R172: the engine applies accepted writes in the order of acceptance: at once, or, in a step that leaves
them to the engine's event, when that event completes the oldest. -/
def Obligations.VectorAcceptance : Prop :=
  ∀ (s : State) (ws : List RegWrite),
    (s.lag = false → s.slot.vq = [] → s.acceptVector ws = (s.upd (fun t => t.applyWrites ws)).retire) ∧
    (s.lag = true → s.acceptVector ws = (s.upd (fun t => { t with vq := t.vq ++ [ws] })).retire) ∧
    (∀ sid rest, (s.slotAt sid).vq = ws :: rest → ∃ t, exec (.engineInstructionComplete sid false) s = .next t ∧
      t.slotAt sid = { (s.slotAt sid).applyWrites ws with vq := rest } ∧
      (∀ n, n ≠ sid → t.slotAt n = s.slotAt n) ∧ t.mem = s.mem ∧ t.scr = s.scr) ∧
    (∀ (x : Slot) n (y : Word) (b : Bool) (v : Machine.VReg) (m : BitVec 1024) (f : BitVec 5),
      x.applyWrites [.g n y] = x.setG n y ∧ x.applyWrites [.p n b] = x.setP n b ∧
      (x.applyWrites [.v n v]).vphys n = v ∧ (x.applyWrites [.m n m]).mr n = m ∧
      (x.applyWrites [.flags f]).csr.fflags = x.csr.fflags ||| f)

/-- R175, R176, R178, R179: the lane by lane instructions on the integer types. -/
def Sys2Proof.Claims.VectorIntegerLanes : Prop :=
  ∀ (s : State) (ty : Ty) (a b c d : Sys2Proof.VReg) (e : GReg) (o : VOpt) (mask : LaneMask) (rnd : Fin 5) (sat : Bool)
      (n : Fin 64), ty.isInt = true →
    let x := lane s ty b; let y := lane s ty c; let z := lane s ty d
    let xr (j : Nat) := (s.v b).lane ty j; let yr (j : Nat) := (s.v c).lane ty j
    let w := ty.width
    let m : Int := intLane ty ((s.g e.val).toNat % 2 ^ w)
    (Readable s ty o.mask [b, c] →
      WritesLanes (.vadd ty a b c o) s ty a o.mask (fun j => (fit ty o.sat (x j + y j), 0)) ∧
      WritesLanes (.vsub ty a b c o) s ty a o.mask (fun j => (fit ty o.sat (x j - y j), 0)) ∧
      WritesLanes (.vmul ty a b c o) s ty a o.mask (fun j => (fit ty o.sat (x j * y j), 0))) ∧
    (Readable s ty o.mask [b, c, d] →
      WritesLanes (.vfma ty a b c d o) s ty a o.mask (fun j => (fit ty o.sat (x j * y j + z j), 0))) ∧
    (Readable s ty o.mask [a, b] →
      WritesLanes (.vmacc ty a b e o) s ty a o.mask (fun j => (fit ty o.sat (x j * m + lane s ty a j), 0))) ∧
    (Readable s ty mask [b, c] →
      WritesLanes (.vmin ty a b c mask) s ty a mask (fun j => (patternOf w (min (x j) (y j)), 0)) ∧
      WritesLanes (.vmax ty a b c mask) s ty a mask (fun j => (patternOf w (max (x j) (y j)), 0)) ∧
      WritesLanes (.vdiv ty a b c mask rnd) s ty a mask (fun j =>
        (if y j = 0 then 2 ^ w - 1 else patternOf w ((x j).tdiv (y j)), 0)) ∧
      WritesLanes (.vand ty a b c mask) s ty a mask (fun j => (xr j &&& yr j, 0)) ∧
      WritesLanes (.vor ty a b c mask) s ty a mask (fun j => (xr j ||| yr j, 0)) ∧
      WritesLanes (.vxor ty a b c mask) s ty a mask (fun j => (xr j ^^^ yr j, 0)) ∧
      WritesLanes (.vshl ty a b (.reg c) mask) s ty a mask (fun j => (xr j * 2 ^ yr j, 0)) ∧
      WritesLanes (.vshr ty a b (.reg c) mask) s ty a mask (fun j => (xr j / 2 ^ yr j, 0)) ∧
      WritesLanes (.vsar ty a b (.reg c) mask) s ty a mask (fun j => (patternOf w (signedOf w (xr j) / 2 ^ yr j), 0))) ∧
    (Readable s ty mask [b] →
      WritesLanes (.vabs ty a b mask sat) s ty a mask (fun j => (fit ty sat (x j).natAbs, 0)) ∧
      WritesLanes (.vneg ty a b mask sat) s ty a mask (fun j => (fit ty sat (-(x j)), 0)) ∧
      WritesLanes (.vnot ty a b mask) s ty a mask (fun j => (2 ^ w - 1 - xr j, 0)) ∧
      (n.val < w → WritesLanes (.vshl ty a b (.imm n) mask) s ty a mask (fun j => (xr j * 2 ^ n.val, 0)) ∧
        WritesLanes (.vshr ty a b (.imm n) mask) s ty a mask (fun j => (xr j / 2 ^ n.val, 0)) ∧
        WritesLanes (.vsar ty a b (.imm n) mask) s ty a mask (fun j => (patternOf w (signedOf w (xr j) / 2 ^ n.val), 0))) ∧
      WritesLanes (.vcnt .pop ty a b mask) s ty a mask (fun j =>
        ((List.range w).countP (fun k => (xr j).testBit k), 0)) ∧
      (∀ f g : Nat → Nat,
        (∀ j, f j ≤ w ∧ (∀ k < f j, (xr j).testBit (w - 1 - k) = false) ∧
          (f j < w → (xr j).testBit (w - 1 - f j) = true)) →
        (∀ j, g j ≤ w ∧ (∀ k < g j, (xr j).testBit k = false) ∧ (g j < w → (xr j).testBit (g j) = true)) →
        WritesLanes (.vcnt .clz ty a b mask) s ty a mask (fun j => (f j, 0)) ∧
        WritesLanes (.vcnt .ctz ty a b mask) s ty a mask (fun j => (g j, 0))))

/-- R172, R175, R176: the lane by lane instructions on the float types: each lane is the IEEE result of R131, R132 under
the mode of rnd, or of `frm` when rnd is 0; `vabs` and `vneg` only change the sign bit. -/
def Sys2Proof.Claims.VectorFloatLanes : Prop :=
  ∀ (s : State) (ty : Ty) (a b c d : Sys2Proof.VReg) (e : GReg) (o : VOpt) (mask : LaneMask) (rnd : Fin 5),
    ty.isFloat = true →
    let x (j : Nat) := (s.v b).lane ty j; let y (j : Nat) := (s.v c).lane ty j; let z (j : Nat) := (s.v d).lane ty j
    let f := Num.fmtOf ty
    let mode (r : Fin 5) : Num.Rm := Num.rmOf (if r.val = 0 then s.slot.csr.frm.toNat else r.val - 1)
    let v (j : Nat) := Num.unpack f (x j)
    (Readable s ty o.mask [b, c] →
      WritesLanes (.vadd ty a b c o) s ty a o.mask (fun j => Num.add f (mode o.rnd) (x j) (y j)) ∧
      WritesLanes (.vsub ty a b c o) s ty a o.mask (fun j => Num.sub f (mode o.rnd) (x j) (y j)) ∧
      WritesLanes (.vmul ty a b c o) s ty a o.mask (fun j => Num.mul f (mode o.rnd) (x j) (y j))) ∧
    (Readable s ty o.mask [b, c, d] →
      WritesLanes (.vfma ty a b c d o) s ty a o.mask (fun j => Num.fma f (mode o.rnd) (x j) (y j) (z j))) ∧
    (Readable s ty o.mask [a, b] → WritesLanes (.vmacc ty a b e o) s ty a o.mask (fun j =>
      Num.fma f (mode o.rnd) (x j) ((s.g e.val).toNat % 2 ^ ty.width) ((s.v a).lane ty j))) ∧
    (Readable s ty mask [b, c] →
      WritesLanes (.vmin ty a b c mask) s ty a mask (fun j => Num.minmax f false (x j) (y j)) ∧
      WritesLanes (.vmax ty a b c mask) s ty a mask (fun j => Num.minmax f true (x j) (y j)) ∧
      WritesLanes (.vdiv ty a b c mask rnd) s ty a mask (fun j => Num.div f (mode rnd) (x j) (y j))) ∧
    (Readable s ty mask [b] →
      WritesLanes (.vsqrt ty a b mask rnd) s ty a mask (fun j => Num.sqrtV f (mode rnd) (v j)) ∧
      WritesLanes (.vrcp ty a b mask rnd) s ty a mask (fun j => Num.divV f (mode rnd) (.fin false 1 0) (v j)) ∧
      WritesLanes (.vrsq ty a b mask rnd) s ty a mask (fun j => Num.rsqrtV f (mode rnd) (v j)) ∧
      (∃ u : Nat → Nat × BitVec 5, WritesLanes (.vexp2 ty a b mask rnd) s ty a mask u ∧ ∀ j,
        (v j = .inf true → u j = (0, 0)) ∧ (v j = .inf false → u j = (f.inf, 0)) ∧
        (nanP f (x j) = true → u j = (f.qnan, nvIf (snanP f (x j)))) ∧
        (∀ n (m k : Nat) (ex : Int), v j = .fin n m ex → ex ≤ 0 → m = k * 2 ^ (-ex).toNat → k ≤ 30 →
          u j = Num.round f (mode rnd) false 1 (if n then -(k : Int) else k))) ∧
      (∃ u : Nat → Nat × BitVec 5, WritesLanes (.vlog2 ty a b mask rnd) s ty a mask u ∧ ∀ j,
        (v j = .inf true → u j = (f.qnan, 16)) ∧ (v j = .inf false → u j = (f.inf, 0)) ∧
        (zeroP f (x j) = true → u j = (f.signBit + f.inf, 8)) ∧
        (∀ (m k : Nat) (ex : Int), v j = .fin false m ex → m = 2 ^ k → u j = Num.roundInt f (mode rnd) false (ex + k) 0)) ∧
      WritesLanes (.vabs ty a b mask false) s ty a mask (fun j => (x j % f.signBit, 0)) ∧
      WritesLanes (.vneg ty a b mask false) s ty a mask (fun j => (x j ^^^ f.signBit, 0)))

/-- R170: an active lane of a poisoned source block raises the machine check at the instruction, and nothing is
accepted; lanes of a block with scale −128 read as zero. -/
def Sys2Proof.Claims.VectorPoison : Prop :=
  ∀ (s : State) (ty : Ty) (a b c : Sys2Proof.VReg) (o : VOpt) (mask : LaneMask) (j : Nat), j < ty.lanes →
    (active s o.mask j = true → State.isPoison ((s.v b).descOf (laneBlock ty j)) = true →
      ∀ i ∈ [Instr.vadd ty a b c o, .vsub ty a b c o, .vmul ty a b c o], ∃ v, exec i s = .next (s.trap 14 v)) ∧
    (active s mask j = true → State.isPoison ((s.v b).descOf (laneBlock ty j)) = true →
      ∀ i ∈ [Instr.vmin ty a b c mask, .vmax ty a b c mask, .vand ty a b c mask, .vnot ty a b mask,
        .vcmp .eq ty 0 b c mask], ∃ v, exec i s = .next (s.trap 14 v)) ∧
    (((s.v b).descOf (laneBlock ty j)).toNat / 256 = 0x80 →
      State.isPoison ((s.v b).descOf (laneBlock ty j)) = false → (s.v b).lane ty j = 0)

/-- R180, R195: comparisons write their active bits, keep the others and clear what lies above the lanes; the logic on
masks, the number of set bits and the first of them. -/
def Sys2Proof.Claims.VectorComparesAndMasks : Prop :=
  ∀ (s : State) (cc : VCc) (ty : Ty) (m : MReg) (b c : Sys2Proof.VReg) (mask : LaneMask) (g : GReg) (p q : MReg),
    let x := lane s ty b; let y := lane s ty c
    let P := s.slot.mr p.val; let Q := s.slot.mr q.val
    (ty.isInt = true → Readable s ty mask [b, c] → ∃ r, Accepts (.vcmp cc ty m b c mask) s [.m m.val r, .flags 0] ∧
      ∀ j < 1024, r.getLsbD j = (decide (j < ty.lanes) && if active s mask j then (match cc with
        | .eq => decide (x j = y j) | .ne => decide (x j ≠ y j) | .lt => decide (x j < y j)
        | .le => decide (x j ≤ y j) | .gt => decide (x j > y j) | .ge => decide (x j ≥ y j) | .un => false)
        else (s.slot.mr m.val).getLsbD j)) ∧
    (ty.isFloat = true → Readable s ty mask [b, c] → ∃ r fl, Accepts (.vcmp cc ty m b c mask) s [.m m.val r, .flags fl] ∧
      let f := Num.fmtOf ty
      let xr (j : Nat) := (s.v b).lane ty j; let yr (j : Nat) := (s.v c).lane ty j
      let un (j : Nat) := nanP f (xr j) || nanP f (yr j)
      (∀ j < 1024, r.getLsbD j = (decide (j < ty.lanes) && if active s mask j then (match cc with
        | .eq => !un j && decide (rank0 f (xr j) = rank0 f (yr j))
        | .ne => un j || decide (rank0 f (xr j) ≠ rank0 f (yr j))
        | .lt => !un j && decide (rank0 f (xr j) < rank0 f (yr j))
        | .le => !un j && decide (rank0 f (xr j) ≤ rank0 f (yr j))
        | .gt => !un j && decide (rank0 f (xr j) > rank0 f (yr j))
        | .ge => !un j && decide (rank0 f (xr j) ≥ rank0 f (yr j))
        | .un => un j)
        else (s.slot.mr m.val).getLsbD j)) ∧
      fl = nvIf ((List.range ty.lanes).any (fun j => active s mask j && (match cc with
        | .eq | .ne | .un => snanP f (xr j) || snanP f (yr j)
        | _ => un j)))) ∧
    (∀ t : Ty, (∃ r, Accepts (.mand t m p q) s [.m m.val r] ∧ ∀ j < 1024, r.getLsbD j =
        (decide (t = .none ∨ j < t.lanes) && (P.getLsbD j && Q.getLsbD j))) ∧
      (∃ r, Accepts (.mor t m p q) s [.m m.val r] ∧ ∀ j < 1024, r.getLsbD j =
        (decide (t = .none ∨ j < t.lanes) && (P.getLsbD j || Q.getLsbD j))) ∧
      (∃ r, Accepts (.mnot t m p) s [.m m.val r] ∧ ∀ j < 1024, r.getLsbD j =
        (decide (t = .none ∨ j < t.lanes) && !P.getLsbD j))) ∧
    AcceptsG (.mpop ty g p) s g (BitVec.ofNat 64 ((List.range ty.lanes).countP (fun j => P.getLsbD j))) ∧
    (∃ n ≤ ty.lanes, AcceptsG (.mfirst ty g p) s g (BitVec.ofNat 64 n) ∧ (∀ j < n, P.getLsbD j = false) ∧
      (n < ty.lanes → P.getLsbD n = true))

/-- R181, R193, R194: the lane moves. Scaled types keep the one scale `e` of their source blocks. -/
def Sys2Proof.Claims.VectorLaneMoves : Prop :=
  ∀ (s : State) (ty : Ty) (a b c d : Sys2Proof.VReg) (m : MReg) (g h : GReg) (mask : LaneMask) (e : BitVec 8),
    ty ≠ .none →
    let desc : BitVec 16 := if ty.isScaled then e ++ (descFor ty).setWidth 8 else descFor ty
    let supplies (r : Sys2Proof.VReg) : Prop := Clean s r ∧
      (ty.isScaled = true → e ≠ 0x80 ∧ scaleOk desc.toNat = true ∧ ∀ k < 8, (s.v r).descOf k = desc)
    let x (j : Nat) := (s.v b).lane ty j
    let i := (s.g h.val).toNat
    let n := ty.lanes / 8
    (supplies c → supplies d → ∃ r, Accepts (.vsel ty a m c d) s [.v (s.slot.physV a.val) r] ∧
      Lanes (s.v a) r ty (fun _ => true)
        (fun j => if (s.slot.mr m.val).getLsbD j then (s.v c).lane ty j else (s.v d).lane ty j) desc) ∧
    (16 ≤ ty.width → Clean s b → Clean s c → ∃ r, Accepts (.vperm ty a b c mask) s [.v (s.slot.physV a.val) r] ∧
      Lanes (s.v a) r ty (active s mask) (fun j => x ((s.v c).lane ty j % ty.lanes)) (descFor ty)) ∧
    (8 ≤ ty.width → supplies b → Clean s c → ∃ r, Accepts (.vshuf ty a b c mask) s [.v (s.slot.physV a.val) r] ∧
      Lanes (s.v a) r ty (active s mask) (fun j => x (j / n * n + (s.v c).lane ty j % n)) desc) ∧
    WritesLanes (.vbcast ty a g mask) s ty a mask (fun _ => ((s.g g.val).toNat, 0)) ∧
    (i < ty.lanes → Clean s b → AcceptsG (.vext ty g b (.reg h)) s g (extend ty (x i))) ∧
    (ty.lanes ≤ i → AcceptsG (.vext ty g b (.reg h)) s g 0 ∧ Accepts (.vins ty a g (.reg h)) s []) ∧
    (i < ty.lanes → ∃ r, Accepts (.vins ty a g (.reg h)) s [.v (s.slot.physV a.val) r] ∧ r.desc = (s.v a).desc ∧
      ∀ j < ty.lanes, rawLane r.lanes ty j =
        if j = i then (s.g g.val).toNat % 2 ^ ty.width else rawLane (s.v a).lanes ty j) ∧
    (∀ k : BitVec 32, k.toNat < ty.lanes → Clean s b → AcceptsG (.vext ty g b (.imm k)) s g (extend ty (x k.toNat))) ∧
    Accepts (.vmov a b) s [.v (s.slot.physV a.val) (s.v b)]

/-- R183, R186 to R189: conversions between integer types, by parts, clamps, packing and unpacking. -/
def Sys2Proof.Claims.VectorNarrowingAndWidening : Prop :=
  ∀ (s : State) (dst src ty : Ty) (a b c : Sys2Proof.VReg) (p : Fin 16) (o : VOpt) (n : Fin 128) (mask : LaneMask)
      (sat half : Bool), Clean s b → Clean s c →
    let q := p.val
    let x := lane s ty b; let y := lane s ty c
    (dst.isInt = true → src.isInt = true → q < Nat.max dst.lanes src.lanes / Nat.min dst.lanes src.lanes →
      let l := Nat.min dst.lanes src.lanes
      ∃ r fl, Accepts (.vcvt dst src a b p (.given 0) o) s [.v (s.slot.physV a.val) r, .flags fl] ∧ fl = 0 ∧
        (dst.lanes ≤ src.lanes →
          Lanes (s.v a) r dst (active s o.mask) (fun j => fit dst o.sat (lane s src b (q * l + j))) (descFor dst)) ∧
        (src.lanes ≤ dst.lanes →
          Lanes (s.v a) r dst (fun j => active s o.mask j && decide (q * l ≤ j) && decide (j < q * l + l))
            (fun j => fit dst o.sat (lane s src b (j - q * l))) (descFor dst))) ∧
    (ty.isInt = true → 1 ≤ n.val → n.val ≤ ty.width → WritesLanes (.vsat ty a b n mask) s ty a mask (fun j =>
      (patternOf ty.width (if ty.isI then max (-2 ^ (n.val - 1)) (min (2 ^ (n.val - 1) - 1) (x j))
        else min (2 ^ n.val - 1) (x j)), 0))) ∧
    (ty.isInt = true → 8 ≤ ty.width → let t := narrower ty
      t.isInt = true ∧ 2 * t.width = ty.width ∧ t.isI = ty.isI ∧
      WritesLanes (.vpack ty a b c mask sat) s t a mask (fun j =>
        (fit t sat (if j < ty.lanes then x j else y (j - ty.lanes)), 0))) ∧
    (ty.isInt = true → ty.width ≤ 32 → let t := wider ty
      t.isInt = true ∧ t.width = 2 * ty.width ∧ t.isI = ty.isI ∧
      WritesLanes (.vunpk ty a b half mask) s t a mask (fun j =>
        (patternOf t.width (x ((if half then t.lanes else 0) + j)), 0)))

/-- R177, R191, R192: reductions, scans and dot products on the integer types: the sum is exact before it is narrowed,
the least and the greatest are lanes, and without an active lane the result is the operation's own. -/
def Sys2Proof.Claims.VectorReductions : Prop :=
  ∀ (s : State) (ty : Ty) (g : GReg) (a b c : Sys2Proof.VReg) (mask : LaneMask) (rnd : Fin 5), ty.isInt = true →
    let act := (List.range ty.lanes).filter (active s mask)
    let x := lane s ty b
    let w := ty.width
    (Readable s ty mask [b] →
      Accepts (.vred .add ty g b mask rnd) s [.g g.val (BitVec.ofInt 64 ((act.map x).sum)), .flags 0] ∧
      (∃ r : Int, Accepts (.vred .min ty g b mask rnd) s [.g g.val (BitVec.ofInt 64 r), .flags 0] ∧
        (∀ j ∈ act, r ≤ x j) ∧ (act ≠ [] → ∃ j ∈ act, r = x j) ∧ (act = [] → r = hiOf ty)) ∧
      (∃ r : Int, Accepts (.vred .max ty g b mask rnd) s [.g g.val (BitVec.ofInt 64 r), .flags 0] ∧
        (∀ j ∈ act, x j ≤ r) ∧ (act ≠ [] → ∃ j ∈ act, r = x j) ∧ (act = [] → r = loOf ty)) ∧
      (∃ r : Word, Accepts (.vred .and ty g b mask rnd) s [.g g.val r, .flags 0] ∧
        ∀ k < 64, r.getLsbD k = (decide (k < w) && act.all (fun j => ((s.v b).lane ty j).testBit k))) ∧
      (∃ r : Word, Accepts (.vred .or ty g b mask rnd) s [.g g.val r, .flags 0] ∧
        ∀ k < 64, r.getLsbD k = (decide (k < w) && act.any (fun j => ((s.v b).lane ty j).testBit k))) ∧
      WritesLanes (.vscan .add ty a b mask rnd) s ty a mask (fun j =>
        (patternOf w (((act.filter (· ≤ j)).map x).sum), 0))) ∧
    (∀ t r, (ty = .i8 ∧ t = Ty.i32 ∧ r = 4) ∨ (ty = .z8 ∧ t = .z32 ∧ r = 4) ∨ (ty = .i16 ∧ t = .i64 ∧ r = 4) ∨
        (ty = .z16 ∧ t = .z64 ∧ r = 4) → Clean s a → Clean s b → Clean s c →
      WritesLanes (.vdot ty a b c mask rnd) s t a mask (fun j => (patternOf t.width (lane s t a j +
        ((List.range r).map (fun k => lane s ty b (r * j + k) * lane s ty c (r * j + k))).sum), 0)))

/-- R196: block descriptors are read and written; an illegal one is a format mismatch. -/
def Sys2Proof.Claims.BlockDescriptorsOfRegisters : Prop :=
  ∀ (s : State) (a b : Sys2Proof.VReg) (g : GReg) (k : Fin 8) (sel : BitVec 8),
    let x := (s.g g.val).toNat
    let legal : Bool := decide (x < 65536) && descOk x
    AcceptsG (.vblkRd g b k) s g (((s.v b).descOf k.val).setWidth 64) ∧
    (legal = true → ∃ r, Accepts (.vblkWr a g sel) s [.v (s.slot.physV a.val) r] ∧ r.lanes = (s.v a).lanes ∧
      ∀ j < 8, r.descOf j = if sel.getLsbD j then BitVec.ofNat 16 x else (s.v a).descOf j) ∧
    (legal = false → exec (.vblkWr a g sel) s = .next (s.trap 9 (BitVec.ofNat 64 (65536 + x % 65536))))

/-! ### Memory instructions -/

namespace Sys2Proof.Claims

open Sys2Proof.Machine

/-- The n bytes that the issuing core reads at a location (R222, R387): from a scratchpad, from the home, or, of a plain
load from this module's memory, from the core's own copy where it holds one. -/
def seen (s : State) (home : Bool) (l : Loc) (n : Nat) : List Byte :=
  (List.range n).map (fun k => match l with
    | .scr c o => Memory.read s.scr (State.scrKey c o + k)
    | .glob pa => if home || State.deviceOf pa != s.dev then s.peek (pa + k) else s.l1Byte s.cache (pa + k))

/-- A value of a type in a general register (R222): sign-extended for the i types, zero-extended for the others. -/
def loaded (ty : Ty) (x : Nat) : Word :=
  if ty.isI && decide (2 ^ (ty.width - 1) ≤ x) then BitVec.ofInt 64 ((x : Int) - 2 ^ ty.width) else BitVec.ofNat 64 x

/-- The n low bytes of a word, lowest first. -/
def wordBytes (x : Word) (n : Nat) : List Byte := (List.range n).map (fun k => x.extractLsb' (8 * k) 8)

/-- A slot whose region is sealed when a condition holds (R70). -/
def sealedIf (x : Slot) (b : Bool) : Slot := { x with region := { x.region with sealed := x.region.sealed || b } }

/-- The core's own cache serves a plain load of n bytes (R387). -/
def ownHit (s : State) (l : Loc) (n : Nat) : Bool :=
  match l with
  | .scr _ _ => false
  | .glob pa => decide (State.deviceOf pa = s.dev) && (State.wordsOf pa n).all (s.l1Hit s.cache)

/-- What an access leaves in its slot (R221, R222, R399): the value, or a machine check to be taken later, whose origin is
the own core where its cache served the access (`near`). -/
def takes (s : State) (near : Bool) (l : Loc) (va : Word) (x : Slot) : Slot :=
  if State.isPoison (s.descAt l) then
    { s.slot with deferred := s.slot.deferred ++ [{ tval := s.tvalOf s.cur l near (s.isFar l), addr := va }] } else x

/-- No waiter is registered on the n / 4 words at a scratchpad byte. -/
def NoWaiter (s : State) (c o n : Nat) : Prop :=
  ∀ w ∈ s.waiters, (w.kind = 1 ∨ w.kind = 2) → w.key < State.scrKey c o / 4 ∨ State.scrKey c o / 4 + n / 4 ≤ w.key

/-- The tag of word j at a scratchpad byte (R227). -/
def tagOf (s : State) (c o j : Nat) : Bool := Store.get false s.tags (State.scrKey c o / 4 + j)

/-- The tags of n bytes are all as said, and every other tag is as before. -/
def Tagged (s u : State) (c o n : Nat) (full : Bool) : Prop :=
  (∀ j < n / 4, tagOf u c o j = full) ∧
  ∀ k, k < State.scrKey c o / 4 ∨ State.scrKey c o / 4 + n / 4 ≤ k → Store.get false u.tags k = Store.get false s.tags k

/-- Tags and descriptors are as before. -/
def SameMarks (s u : State) : Prop := u.tags = s.tags ∧ u.memDesc = s.memDesc ∧ u.scrDesc = s.scrDesc

/-- Two locations lie in one 64-byte block. -/
def oneBlock (l q : Loc) : Prop :=
  match l, q with
  | .glob x, .glob y => x / 64 = y / 64
  | .scr c x, .scr d y => c = d ∧ x / 64 = y / 64
  | _, _ => False

/-- The location is a multiple of n. -/
def AlignedTo (l : Loc) (n : Nat) : Prop :=
  match l with
  | .glob pa => pa % n = 0
  | .scr _ o => o % n = 0

/-- The access passes its checks, exists and leaves at once. -/
def Good (s : State) (va : Word) (n align : Nat) (k : Access) (l : Loc) : Prop :=
  s.checkAt va n align k = .ok l ∧ InRange l n ∧ Reaches s l

/-- The new memory value of an atomic and its flags (R232): `t` the old value, `x` the operand, `c` the comparand. -/
def atomValue (op : AmoOp) (ty : Ty) (t x c : Nat) : Nat × BitVec 5 :=
  let f := Num.fmtOf ty
  let sg (v : Nat) : Int := if 2 ^ (ty.width - 1) ≤ v then (v : Int) - 2 ^ ty.width else v
  match op with
  | .add => ((t + x) % 2 ^ ty.width, 0)
  | .and => (t &&& x, 0)
  | .or => (t ||| x, 0)
  | .xor => (t ^^^ x, 0)
  | .min => (if sg x < sg t then x else t, 0)
  | .max => (if sg t < sg x then x else t, 0)
  | .minz => (if x < t then x else t, 0)
  | .maxz => (if t < x then x else t, 0)
  | .swap => (x, 0)
  | .cas => (if t = c then x else t, 0)
  | .fadd => Num.add f .rne t x
  | .fmin => Num.minmax f false t x
  | .fmax => Num.minmax f true t x

/-- Fields of an exact cell (R163): sig, exp, flags. -/
def cellSig (x : Nat) : Int := if x % 2 ^ 128 < 2 ^ 127 then (x % 2 ^ 128 : Nat) else (x % 2 ^ 128 : Nat) - (2 : Int) ^ 128
def cellExp (x : Nat) : Int :=
  if x / 2 ^ 128 % 2 ^ 16 < 2 ^ 15 then (x / 2 ^ 128 % 2 ^ 16 : Nat) else (x / 2 ^ 128 % 2 ^ 16 : Nat) - (2 : Int) ^ 16
def cellFlags (x : Nat) : Nat := x / 2 ^ 144 % 2 ^ 16

/-- R164: the cell after the arrival of (g, e): its reserved bytes stay, an overflowed cell stays, an empty one takes the
arrival, any other the exact sum at the lower exponent, clamped. -/
def Arrived (cell y : Nat) (g e : Word) : Prop :=
  let f := cellFlags cell
  let e := (e.setWidth 16).toInt
  let lo := min (cellExp cell) e
  let sum := cellSig cell * 2 ^ (cellExp cell - lo).toNat + g.toInt * 2 ^ (e - lo).toNat
  y / 2 ^ 160 = cell / 2 ^ 160 ∧ y < 2 ^ 256 ∧
  (f.testBit 1 = true → y = cell) ∧
  (f.testBit 1 = false → f.testBit 0 = false → cellSig y = g.toInt ∧ cellExp y = e ∧ cellFlags y = f + 1) ∧
  (f.testBit 1 = false → f.testBit 0 = true → cellExp y = lo ∧
    (2 ^ 127 - 1 < sum → cellSig y = 2 ^ 127 - 1 ∧ cellFlags y = f + 2) ∧
    (sum < -(2 ^ 127 - 1) → cellSig y = -(2 ^ 127 - 1) ∧ cellFlags y = f + 2) ∧
    (-(2 ^ 127 - 1) ≤ sum → sum ≤ 2 ^ 127 - 1 → cellSig y = sum ∧ cellFlags y = f))

end Sys2Proof.Claims

/-- R215, R220: the checks of an access in their order: alignment, the windows, translation, permission; the first that
fails raises its trap and the instruction has no other effect. -/
def Obligations.AddressChecks : Prop :=
  ∀ (s : State) (va : Word) (n align : Nat) (k : Access),
    let v := va.toNat
    let lo := v % 2 ^ 32
    let fault := match k with | .fetch => 4 | .load => 5 | .store => 6
    let answers (r : Except Trap Loc) : Prop := s.checkAt va n align k = r
    let base := s.slot.head.scratch.toNat % 65536 * 4096
    let size := s.slot.head.scratch.toNat / 65536 * 1024
    let inWindow : Prop := v % align = 0 ∧ v / 2 ^ 32 = 0xFFFFFF00
    let walk := (s.lookup (s.cur / 2) s.slot.rid.launch v).1
    let plain : Prop := v % align = 0 ∧ v / 2 ^ 32 ≠ 0xFFFFFF00
    let top : Prop := v / 2 ^ 56 = 0 ∨ v / 2 ^ 56 = 255
    (v % align ≠ 0 → answers (.error ⟨3, va⟩)) ∧
    (inWindow → lo < 0x40000 →
      (lo + n ≤ size → answers (.ok (.scr (s.cur / 2) (base + lo)))) ∧ (size < lo + n → answers (.error ⟨7, va⟩))) ∧
    (inWindow → 0x40000 ≤ lo → lo < 0x1000000 ∨ 0x1200000 ≤ lo → answers (.error ⟨fault, va⟩)) ∧
    (∀ j < 8, ∀ o < 0x40000, inWindow → lo = 0x1000000 + j * 0x40000 + o →
      (s.teamOf s.cur = none → answers (.error ⟨8, va⟩)) ∧
      (∀ t m, s.teamOf s.cur = some (t, m) →
        let holds (e : Nat × RecId) (a : Alloc) : Prop :=
          s.allocOf e.2 = some a ∧ t.members.getLsbD e.1 = true ∧ a.core = s.cur / 16 * 8 + j
        ((∀ e ∈ t.recs, ∀ a, ¬holds e a) → answers (.error ⟨8, va⟩)) ∧
        (∀ pre e post a, t.recs = pre ++ e :: post → (∀ d ∈ pre, ∀ a, ¬holds d a) → holds e a →
          (o + n ≤ a.size * 1024 → answers (.ok (.scr a.core (a.base * 4096 + o)))) ∧
          (a.size * 1024 < o + n → answers (.error ⟨7, va⟩))))) ∧
    (plain → ¬top → answers (.error ⟨fault, va⟩)) ∧
    (plain → top → walk = .absent ∨ walk = .bad → answers (.error ⟨fault, va⟩)) ∧
    (∀ e b, plain → top → walk = .leaf e b →
      let pa := e / 2 ^ 8 % 2 ^ 44 * 256 + v % 2 ^ b
      (k = .load → answers (.ok (.glob pa))) ∧
      (k = .store → e.testBit 2 = true → e.testBit 3 = false → answers (.ok (.glob pa))) ∧
      (k = .store → e.testBit 2 = false ∨ e.testBit 3 = true → answers (.error ⟨7, va⟩))) ∧
    (∀ (m : Addr) (ty : Ty) (a x : GReg) (t : Trap), va = s.addrOf m → s.checkAt va n align k = .error t →
      let traps (i : Instr) : Prop := exec i s = .next (s.trap t.cause t.tval)
      (n = ty.width / 8 → align = n → k = .load → traps (.ld ty a m) ∧ traps (.ldAcq ty a m) ∧ traps (.ldc ty a m)) ∧
      (n = ty.width / 8 → align = n → k = .store → traps (.st ty a m) ∧ traps (.stRel ty a m) ∧
        (∀ op ord, traps (.amo op ord ty a m x)) ∧ ∀ op rel, traps (.red op rel ty a m)) ∧
      (n = 32 → align = 32 → k = .store → ∀ rel, traps (.redXs rel a m x)) ∧
      (n = 32 → align = 32 → k = .load → ∀ rel, traps (.redXcvt rel a m)) ∧
      (n = 64 → align = 64 → k = .load → traps (.ldbd a m)) ∧
      (n = 64 → align = 64 → k = .store → traps (.stbd a m)))

/-- R222 to R224: scalar loads with nothing in flight. An acquire load reads at the home and leaves no copy that its core
does not own; the read-only load returns the home's present value (the model's choice, log 30). -/
def Sys2Proof.Claims.ScalarLoads : Prop :=
  ∀ (s : State) (ty : Ty) (a : GReg) (m : Addr) (l : Loc), Calm s → Settled s →
    let va := s.addrOf m
    let n := ty.width / 8
    Good s va n n .load l →
    ∀ (i : Instr) (home : Bool), (i = .ld ty a m ∧ home = false) ∨ (i = .ldAcq ty a m ∧ home = true) ∨
        (i = .ldc ty a m ∧ home = true) →
      ∃ u, exec i s = .next u.retire ∧ Kept s u ∧
        u.slot = takes s (!home && ownHit s l n) l va (s.slot.setG a.val (loaded ty (leNat (seen s home l n)))) ∧
        (i = .ldAcq ty a m → ∀ w x, w < 2 ^ 50 → u.l1At s.cache w = some x → x.st = .owned)

/-- R222, R223, R386, R388: scalar stores with nothing in flight: the bytes are written, for their core and at the home,
and no other; a store whose home is not the own scratchpad window or the own slice seals (R70). -/
def Sys2Proof.Claims.ScalarStores : Prop :=
  ∀ (s : State) (ty : Ty) (a : GReg) (m : Addr) (l : Loc), Calm s → Settled s →
    let va := s.addrOf m
    let n := ty.width / 8
    let slice (pa : Nat) : Nat := pa / 1024 % 16 / 2 * 96 + pa / 1024 % 96
    let own : Bool := match l with
      | .scr _ _ => decide (va.toNat % 2 ^ 32 < 0x40000)
      | .glob pa => decide (State.deviceOf pa = s.dev) && decide (slice pa = s.cur / 16)
    Good s va n n .store l →
    ∀ i ∈ [Instr.st ty a m, .stRel ty a m],
      ∃ u, exec i s = .next u.retire ∧ Written s u l (wordBytes (s.g a.val) n) ∧ SameMarks s u ∧
        u.slot = sealedIf s.slot (!own)

/-- R227, R228: the full/empty forms on words that no task waits for. Each is one step when its tags let it go on;
otherwise it spins, at the port that it has reached, and a sealed region goes on spinning. A global address is a permission trap. -/
def Sys2Proof.Claims.FullEmptyForms : Prop :=
  ∀ (s : State) (ty : Ty) (a : GReg) (m : Addr) (c o : Nat) (p : Bool), Calm s → (ty.width = 32 ∨ ty.width = 64) →
    let va := s.addrOf m
    let n := ty.width / 8
    let l : Loc := .scr c o
    let full := (List.range (n / 4)).all (tagOf s c o)
    let empty := (List.range (n / 4)).all (fun j => !tagOf s c o j)
    let value := s.slot.setG a.val (loaded ty (leNat (seen s true l n)))
    let spins (i : Instr) (kind : Nat) : Prop := s.slot.expired = false ∨ s.slot.region.sealed = true →
      exec i s = .next (s.upd (fun t => { t with spin := some ⟨kind, va, some (c, o)⟩ }))
    let descs (u : State) : Prop := u.memDesc = s.memDesc ∧ u.scrDesc = s.scrDesc
    (va.toNat % n = 0 → InRange l n → NoWaiter s c o n →
      (s.feWindow .ldf va n = .ok (some (c, o, p)) →
        (full = true →
          (∃ u, exec (.ldf ty a m) s = .next u.retire ∧ Kept s u ∧ u.slot = takes s false l va value) ∧
          (∃ u, exec (.ldfe ty a m) s = .next u.retire ∧ Aside s u ∧ Tagged s u c o n false ∧ descs u ∧
            (∀ q, InRange q 1 → u.readLoc q = s.readLoc q) ∧ u.slot = sealedIf (takes s false l va value) true)) ∧
        (full = false → spins (.ldf ty a m) 1 ∧ spins (.ldfe ty a m) 1)) ∧
      (s.feWindow .stef va n = .ok (some (c, o, p)) →
        let stores (i : Instr) : Prop := ∃ u, exec i s = .next u.retire ∧ Written s u l (wordBytes (s.g a.val) n) ∧
          Tagged s u c o n true ∧ descs u ∧ u.slot = sealedIf s.slot true
        stores (.stff ty a m) ∧ (empty = true → stores (.stef ty a m)) ∧ (empty = false → spins (.stef ty a m) 2))) ∧
    (va.toNat % n = 0 → va.toNat / 2 ^ 32 ≠ 0xFFFFFF00 → s.slot.spin = none →
      ∀ i ∈ [Instr.ldf ty a m, .ldfe ty a m, .stef ty a m, .stff ty a m], exec i s = .next (s.trap 7 va)) ∧
    (va.toNat % n ≠ 0 →
      ∀ i ∈ [Instr.ldf ty a m, .ldfe ty a m, .stef ty a m, .stff ty a m], exec i s = .next (s.trap 3 va))

/-- R236 to R238: prefetch, clean and invalidate move data and change no value; descriptors are read and written beside
their blocks; a byte-count barrier is set in the own window only. -/
def Sys2Proof.Claims.LinesAndDescriptors : Prop :=
  ∀ (s : State) (a : GReg) (m : Addr), Calm s → Settled s →
    let va := s.addrOf m
    let x := s.g a.val
    let legal : Bool := decide (x.toNat < 65536) && (decide (x.toNat % 256 = 255) || descOk x.toNat)
    let lo := va.toNat % 2 ^ 32
    (va.toNat / 2 ^ 32 = 0xFFFFFF00 → ∀ i ∈ [Instr.pf m, .cln m, .inv m], exec i s = .next s.retire) ∧
    (∀ t, s.translate (s.cur / 2) s.slot.rid.launch va .load = .error t → va.toNat / 2 ^ 32 ≠ 0xFFFFFF00 →
      exec (.pf m) s = .next (s.failedWalk (s.cur / 2) s.slot.rid.launch va).retire ∧
      exec (.cln m) s = .next (s.trap t.cause t.tval) ∧
      exec (.inv m) s = .next (s.trap t.cause t.tval)) ∧
    (∀ pa < 2 ^ 52, s.translate (s.cur / 2) s.slot.rid.launch va .load = .ok pa →
      (∃ u, exec (.pf m) s = .next u.retire ∧ Kept s u ∧ u.slot = s.slot) ∧
      (∃ u, exec (.cln m) s = .next u.retire ∧ Kept s u ∧ u.slot = s.slot ∧ ∀ q, q / 1024 = pa / 1024 →
        Store.find? s.owners (q / 4) = none ∨ Store.find? s.owners (q / 4) = some s.cache → Memory.read u.mem q = s.peek q) ∧
      (∃ u, exec (.inv m) s = .next u.retire ∧ Kept s u ∧ u.slot = s.slot ∧
        ∀ w, w / 256 = pa / 1024 → u.l1At s.cache w = none)) ∧
    (∀ l, Good s va 64 64 .load l → ∃ u, exec (.ldbd a m) s = .next u.retire ∧ Kept s u ∧
      u.slot = s.slot.setG a.val ((s.descAt l).setWidth 64)) ∧
    (∀ l, Good s va 64 64 .store l → AlignedTo l 64 →
      (legal = true → ∃ u, exec (.stbd a m) s = .next u.retire ∧ Aside s u ∧ u.tags = s.tags ∧
        (∀ q, InRange q 1 → u.readLoc q = s.readLoc q) ∧ u.descAt l = x.setWidth 16 ∧
        (∀ q, InRange q 1 → ¬oneBlock l q → u.descAt q = s.descAt q) ∧
        u.slot = sealedIf s.slot (s.homeCtr s.cur va l != .st)) ∧
      (legal = false → exec (.stbd a m) s = .next (s.trap 9 (BitVec.ofNat 64 (x.toNat % 65536))))) ∧
    (∀ c o p, va.toNat % 8 = 0 → lo < 0x40000 → s.window s.cur va 8 .store = .ok (some (c, o, p)) →
      InRange (.scr c o) 8 → NoWaiter s c o 8 →
      va.toNat / 2 ^ 32 = 0xFFFFFF00 → ∃ u, exec (.bbar a m) s = .next u.retire ∧
        Written s u (.scr c o) (wordBytes (x &&& 0x7FFFFFFFFFFFFFFF#64) 8) ∧
        Tagged s u c o 8 (decide (x &&& 0x7FFFFFFFFFFFFFFF#64 = 0)) ∧ u.memDesc = s.memDesc ∧ u.scrDesc = s.scrDesc ∧
        u.slot = s.slot) ∧
    (va.toNat % 8 ≠ 0 → exec (.bbar a m) s = .next (s.trap 3 va)) ∧
    (va.toNat % 8 = 0 → va.toNat / 2 ^ 32 ≠ 0xFFFFFF00 ∨ (0x1000000 ≤ lo ∧ lo < 0x1200000) →
      exec (.bbar a m) s = .next (s.trap 7 va))

/-- R231 to R235, R164, R165, R390: atomics, reductions and exact cells with nothing in flight. A reduction to this
module's memory may stay in the core's cache until the home combines it; the statement is about the memory then. -/
def Obligations.AtomicsAndReductions : Prop :=
  ∀ (s : State) (ty : Ty) (a x : GReg) (m : Addr) (l : Loc) (op : AmoOp) (ord : Ord4) (rop : RedOp) (rel : Bool),
    Calm s → Settled s →
    let va := s.addrOf m
    let n := ty.width / 8
    let t := leNat (s.readLocs l n)
    let v (r : GReg) : Nat := (s.g r.val).toNat % 2 ^ ty.width
    let cell := leNat (s.readLocs l 32)
    let f := cellFlags cell
    (ty.width = 32 ∨ ty.width = 64 → Good s va n n .store l → AlignedTo l n →
      (let r := atomValue op ty t (v x) (v a)
       ∃ u, exec (.amo op ord ty a m x) s = .next u.retire ∧ Written s u l (leBytes r.1 n) ∧ SameMarks s u ∧
         u.slot = sealedIf (takes s false l va ((s.slot.setG a.val (loaded ty t)).orFlags r.2)) true) ∧
      ((rop = .fadd ∨ rop = .fmin ∨ rop = .fmax → ty.isFloat = true) →
       let r := atomValue (RedOp.amo rop) ty t (v a) 0
       ∃ u, exec (.red rop rel ty a m) s = .next u.retire ∧ Aside s u ∧ SameMarks s u ∧ u.slot = sealedIf s.slot true ∧
         ((∀ pa, l = .glob pa → rel = true ∨ State.deviceOf pa ≠ s.dev) → Written s u l (leBytes r.1 n)) ∧
         (∀ pa, l = .glob pa → rel = false → State.deviceOf pa = s.dev →
           ∃ w, exec (.partialCombine s.cache (pa / 1024)) u = .next w ∧ Written s w l (leBytes r.1 n) ∧
             SameMarks s w ∧ w.slot = u.slot))) ∧
    (Good s va 32 32 .store l → AlignedTo l 32 →
      ∃ y u, exec (.redXs rel a m x) s = .next u.retire ∧ Written s u l (leBytes y 32) ∧ SameMarks s u ∧
        u.slot = sealedIf s.slot true ∧ Arrived cell y (s.g a.val) (s.g x.val)) ∧
    (Good s va 32 32 .load l → AlignedTo l 32 →
      ∃ y fl u, exec (.redXcvt rel a m) s = .next u.retire ∧ Kept s u ∧
        u.slot = sealedIf (takes s false l va ((s.slot.setG a.val (BitVec.ofNat 64 y)).orFlags fl)) true ∧
        (f.testBit 1 = true → y = (if cellSig cell < 0 then 0xFFF0000000000000 else 0x7FF0000000000000) ∧ fl = 5) ∧
        (f.testBit 1 = false →
          (y, fl) = Num.roundInt Num.f64 .rne false (cellSig cell) (cellExp cell)))

namespace Sys2Proof.Claims

open Sys2Proof.Machine

/-- Lane j of a memory access is active (R169): without a mask every lane is. -/
def laneOn (s : State) (mask : LaneMask) (j : Nat) : Bool :=
  match mask with
  | none => true
  | some (k, inv) => (s.slot.mr k.val).getLsbD j != inv

/-- Block b of a vector access holds an active lane; all its lanes are active. -/
def blockOn (s : State) (ty : Ty) (mask : LaneMask) (b : Nat) : Bool :=
  mask.isNone || (List.range ty.perBlock).any (fun j => laneOn s mask (b * ty.perBlock + j))
def blockFull (s : State) (ty : Ty) (mask : LaneMask) (b : Nat) : Bool :=
  mask.isNone || (List.range ty.perBlock).all (fun j => laneOn s mask (b * ty.perBlock + j))

/-- Every block with an active lane passes its checks at its place. -/
def BlocksAt (s : State) (ty : Ty) (va : Word) (mask : LaneMask) (k : Access) (at_ : Nat → Loc) : Prop :=
  va.toNat % 64 = 0 ∧ ∀ b < 8, blockOn s ty mask b = true → s.locate s.cur (va + BitVec.ofNat 64 (64 * b)) 64 k = .ok (at_ b) ∧
    InRange (at_ b) 64 ∧ AlignedTo (at_ b) 64 ∧ Reaches s (at_ b)

/-- Every active lane passes its checks at its own address. -/
def LanesAt (s : State) (ty : Ty) (mask : LaneMask) (addr : Nat → Word) (k : Access) (at_ : Nat → Loc) : Prop :=
  ∀ j < ty.lanes, laneOn s mask j = true → Good s (addr j) (ty.width / 8) (ty.width / 8) k (at_ j)

/-- The core's own copies agree with the homes. -/
def Fresh (s : State) : Prop := ∀ q < 2 ^ 52, s.l1Byte s.cache q = s.peek q

/-- Some lane of the type is active. -/
def someOn (s : State) (ty : Ty) (mask : LaneMask) : Bool := (List.range ty.lanes).any (laneOn s mask)

end Sys2Proof.Claims

/-- R225: whole vector registers with nothing in flight (`ldv`, `stv`). A block with an active lane is loaded with its descriptor, and its
inactive lanes keep their values; a block stored whole takes its descriptor along, and of another only the bytes of the
active lanes are written. Without an active lane nothing happens. -/
def Sys2Proof.Claims.VectorRegistersToMemory : Prop :=
  ∀ (s : State) (ty : Ty) (a : Sys2Proof.VReg) (m : Addr) (mask : LaneMask) (at_ : Nat → Loc), Calm s → Settled s →
    (ty = .none → mask = none) →
    let va := s.addrOf m
    let v := s.v a
    let on := blockOn s ty mask
    let p := ty.perBlock
    ((∀ b < 8, on b = false) → va.toNat % 64 = 0 →
      exec (.ldv ty a m mask) s = .next s.retire ∧ exec (.stv ty a m mask) s = .next s.retire) ∧
    (va.toNat % 64 ≠ 0 → exec (.ldv ty a m mask) s = .next (s.trap 3 va) ∧ exec (.stv ty a m mask) s = .next (s.trap 3 va)) ∧
    (BlocksAt s ty va mask .load at_ → (∃ b < 8, on b = true) →
      (∀ b < 8, on b = true → State.isPoison (s.descAt (at_ b)) = false) →
      ∃ r u, exec (.ldv ty a m mask) s = .next u.retire ∧ Kept s u ∧ u.slot = s.slot.setVphys (s.slot.physV a.val) r ∧
        (∀ b < 8, r.descOf b = if on b then s.descAt (at_ b) else v.descOf b) ∧
        (mask = none → ∀ b < 8, r.block b = leNat (s.readLocs (at_ b) 64)) ∧
        (∀ j < ty.lanes, rawLane r.lanes ty j = if laneOn s mask j
          then leNat (s.readLocs (at_ (j / p)) 64) / 2 ^ (ty.width * (j % p)) % 2 ^ ty.width
          else rawLane v.lanes ty j)) ∧
    (BlocksAt s ty va mask .store at_ → (∃ b < 8, on b = true) → (mask = none ∨ 8 ≤ ty.width) →
      (∀ b < 8, ∀ c < 8, b ≠ c → on b = true → on c = true → overlaps (at_ b) 64 (at_ c) 64 = false) →
      (∀ b < 8, on b = true → blockFull s ty mask b = false → State.isPoison (v.descOf b) = false) →
      ∃ u, exec (.stv ty a m mask) s = .next u.retire ∧ Aside s u ∧ u.tags = s.tags ∧
        (∀ b < 8, on b = true →
          (blockFull s ty mask b = true → u.descAt (at_ b) = v.descOf b ∧
            ∀ k < 64, u.readLoc (State.locAdd (at_ b) k) = BitVec.ofNat 8 (v.block b / 2 ^ (8 * k))) ∧
          (blockFull s ty mask b = false → u.descAt (at_ b) = s.descAt (at_ b) ∧
            ∀ k < 64, u.readLoc (State.locAdd (at_ b) k) = if laneOn s mask (b * p + 8 * k / ty.width)
              then BitVec.ofNat 8 ((if State.isZeroBlock (v.descOf b) then 0 else v.block b) / 2 ^ (8 * k))
              else s.readLoc (State.locAdd (at_ b) k))) ∧
        (∀ q, InRange q 1 → (∀ b < 8, on b = true → overlaps (at_ b) 64 q 1 = false) →
          u.readLoc q = s.readLoc q ∧ u.descAt q = s.descAt q) ∧
        u.slot = sealedIf s.slot ((List.range 8).any (fun b => on b &&
          s.homeCtr s.cur (va + BitVec.ofNat 64 (64 * b)) (at_ b) != .st)))

/-- R226: strided and indexed vector accesses with nothing in flight (`ldvs`, `stvs`, `ldvx`, `stvx`). Every active lane has an address of its own; a store
writes them in ascending order, so a higher lane stands. -/
def Sys2Proof.Claims.VectorElementsToMemory : Prop :=
  ∀ (s : State) (ty : Ty) (a c : Sys2Proof.VReg) (e : GReg) (m : BaseAddr) (ix64 : Bool) (mask : LaneMask)
      (addr : Nat → Word) (at_ : Nat → Loc), Calm s → Settled s → ty.isByteLane = true → someOn s ty mask = true →
    let w := ty.width
    let it : Ty := if ix64 then .i64 else .i32
    let base := s.g m.base.val + m.off.signExtend 64
    let strided : Prop := ∀ j < ty.lanes, addr j = base + BitVec.ofNat 64 j * s.g e.val
    let indexed : Prop := ∀ j < ty.lanes, laneOn s mask j = true → j < it.lanes ∧
      State.isPoison ((s.v c).descOf (laneBlock it j)) = false ∧
      addr j = base + BitVec.ofInt 64 (lane s it c j * (w / 8 : Nat))
    (∀ i : Instr, (i = .ldvs ty a m e mask ∧ strided) ∨ (i = .ldvx ty a m c ix64 mask ∧ indexed) →
      LanesAt s ty mask addr .load at_ → Fresh s →
      (∀ j < ty.lanes, laneOn s mask j = true → State.isPoison (s.descAt (at_ j)) = false) →
      ∃ r u, exec i s = .next u.retire ∧ Kept s u ∧ u.slot = s.slot.setVphys (s.slot.physV a.val) r ∧
        Lanes (s.v a) r ty (laneOn s mask) (fun j => leNat (s.readLocs (at_ j) (w / 8))) (descFor ty)) ∧
    (∀ i : Instr, (i = .stvs ty a m e mask ∧ strided) ∨ (i = .stvx ty a m c ix64 mask ∧ indexed) →
      LanesAt s ty mask addr .store at_ → Readable s ty mask [a] →
      ∃ u, exec i s = .next u.retire ∧ Aside s u ∧ SameMarks s u ∧
        (∀ j < ty.lanes, laneOn s mask j = true →
          (∀ h < ty.lanes, j < h → laneOn s mask h = true → overlaps (at_ j) (w / 8) (at_ h) (w / 8) = false) →
          ∀ k < w / 8, u.readLoc (State.locAdd (at_ j) k) = BitVec.ofNat 8 ((s.v a).lane ty j / 2 ^ (8 * k))) ∧
        (∀ q, InRange q 1 → (∀ j < ty.lanes, laneOn s mask j = true → overlaps (at_ j) (w / 8) q 1 = false) →
          u.readLoc q = s.readLoc q) ∧
        u.slot = sealedIf s.slot ((List.range ty.lanes).any (fun j => laneOn s mask j &&
          s.homeCtr s.cur (addr j) (at_ j) != .st)))

/-! ### Tasks -/

namespace Sys2Proof.Claims

open Sys2Proof.Machine

/-- The memories of two states are the same, at every level. -/
def SameBytes (s u : State) : Prop :=
  u.mem = s.mem ∧ u.l2 = s.l2 ∧ u.l1 = s.l1 ∧ u.owners = s.owners ∧ u.memDesc = s.memDesc ∧ u.scr = s.scr

/-- A spawn or message of a slot whose join cell has not been incremented yet (R77). -/
def owes (sid : Nat) : Msg → Bool
  | .place p => !p.counted && p.sid == sid
  | _ => false

/-- Increments of a slot numbered below k are still on their way (R77). -/
def Owed (s : State) (k sid : Nat) : Prop := ∃ e ∈ s.flight, e.1 < k ∧ owes sid e.2 = true

/-- The slot waits for nothing: its counters are 0, its engine queues are empty, its increments are made, and no unit of its
cluster owes it anything. -/
def AtRest (s : State) : Prop :=
  s.slot.cnt = {} ∧ s.slot.vq = [] ∧ s.slot.mq = [] ∧ s.slot.pq = [] ∧ s.unitPending s.cur = false ∧
  ∀ e ∈ s.flight, ¬(e.1 < s.nextMsg ∧ owes s.cur e.2 = true)

/-- The number of n bytes at a physical address. -/
def wordAt (s : State) (pa n : Nat) : Nat := leNat (s.peekBytes pa n)

/-- The join cell after an increment, and after an arrival of n (R76). -/
def cellUp (x : Nat) : Nat := if x % 2 ^ 40 = 2 ^ 40 - 1 then x ||| 2 ^ 62 else x + 1
def cellDown (x n : Nat) : Nat := if x % 2 ^ 40 < n then (x - x % 2 ^ 40) ||| 2 ^ 63 else x - n

/-- A cell of the issuing task's launch that passes its checks (R75, R78). -/
def CellAt (s : State) (a : Word) (pa : Nat) : Prop :=
  a.toNat % 8 = 0 ∧ a.toNat / 2 ^ 32 ≠ 0xFFFFFF00 ∧ s.translate (s.cur / 2) s.slot.rid.launch a .store = .ok pa ∧
  pa + 8 ≤ 2 ^ 52

/-- The doubleword at a physical address has become y, and every other byte reads as before. -/
def Became (s u : State) (pa y : Nat) : Prop :=
  wordAt u pa 8 = y ∧ ∀ q < 2 ^ 52, q < pa ∨ pa + 8 ≤ q → u.peek q = s.peek q

/-- The head and live block that a continuation of the issuing slot's task takes (R61, R62, R80). -/
def contOf (s : State) (gin : Word) (lcin : BitVec 3) (state wk : Nat) (wa : Word) : Head × List Word :=
  (State.contHead s.slot (nextPc s.pc) gin lcin.toNat (s.slot.p.toNat / 2) true state wk wa, s.slot.liveVals gin lcin.toNat)

/-- R84: the head may be placed: version 1, state ready, a kind of those given, a live set of at most sixteen registers
without g0, reserved fields zero, a code address, a scratch allocation in range. -/
def placeable (h : Head) (kinds : List Nat) : Bool :=
  let f := h.flags.toNat
  let live := (List.range 64).countP (fun k => h.live.getLsbD k) + (List.range 3).countP (fun k => h.flags.getLsbD (12 + k))
  let base := h.scratch.toNat % 2 ^ 16
  let size := h.scratch.toNat / 2 ^ 16
  decide (f / 2 ^ 28 = 1) && decide (f % 16 = 1) && kinds.contains (f / 16 % 4) && !h.live.getLsbD 0 && decide (live ≤ 16) &&
  decide (f / 2 ^ 24 % 16 = 0) && decide (f / 2 ^ 15 % 4 = 0) && decide (h.team.toNat / 2 ^ 22 = 0) &&
  decide (h.tail.toNat / 2 ^ 40 % 2 ^ 16 = 0) && decide (h.dom.toNat / 2 ^ 16 = 0) &&
  decide (h.pc.toNat / 8 % 8 = 0) && decide (h.pc.toNat % 8 ≤ 4) && decide (base * 4 + size ≤ 256) &&
  (decide (size ≠ 0) || decide (base = 0))

/-- The key of a head lies not below the horizon H that its cluster has received: its record is not late (R330). -/
def notLate (s : State) (pkg : Nat) (h : Head) : Prop :=
  ∀ k, (s.clusterAt pkg).hh = some k → keyLt ⟨h.key.toNat, h.tail.toNat / 2 ^ 56, h.tail.toNat % 2 ^ 40,
    (s.dev * 1024 + pkg, (s.clusterAt pkg).serial)⟩ k = false

/-- The ready entry of a record (R281): at its priority, bound to the core of its allocation. -/
def readyFor (s : State) (r : RecId) (h : Head) (e : Ready) : Prop :=
  e.rid = r ∧ e.level = h.flags.toNat / 2 ^ 6 % 8 ∧ e.timed = decide (h.flags.toNat / 16 % 4 = 2) ∧
  e.bound = (s.allocOf r).map (·.core) ∧ e.key = (h.key.toNat, h.tail.toNat / 2 ^ 56, h.tail.toNat % 2 ^ 40)

end Sys2Proof.Claims

/-- R60 to R62: a record is written in the layout of R60, its live block as entries of 64 bits; a continuation's head has
the fields of R61, all others as the running task's. -/
def Sys2Proof.Claims.ContinuationRecords : Prop :=
  (∀ (s : State) (core : Nat) (r : RecId) (h : Head) (vals : List Word) (pa p1 p2 : Nat), Settled s → r.pool = none →
    s.translate core r.launch r.addr .store = .ok pa →
    s.translate core r.launch (r.addr + 64) .store = .ok p1 → s.translate core r.launch (r.addr + 128) .store = .ok p2 →
    pa + 64 ≤ 2 ^ 52 → p1 + 64 ≤ 2 ^ 52 → p2 + 64 ≤ 2 ^ 52 →
    (pa + 64 ≤ p1 ∨ p1 + 64 ≤ pa) → (pa + 64 ≤ p2 ∨ p2 + 64 ≤ pa) → (p1 + 64 ≤ p2 ∨ p2 + 64 ≤ p1) → vals.length ≤ 16 →
    ∃ w, s.writeRecord core r h vals = some w ∧
      (∀ e ∈ [(0, 8, h.pc.toNat), (8, 8, h.live.toNat), (16, 4, h.flags.toNat), (20, 4, h.team.toNat), (24, 8, h.key.toNat),
        (32, 8, h.tail.toNat), (40, 4, h.scratch.toNat), (44, 4, h.dom.toNat), (48, 8, h.wakeAddr.toNat),
        (56, 8, h.parent.toNat)], wordAt w (pa + e.1) e.2.1 = e.2.2) ∧
      (vals ≠ [] → ∀ i < 16, wordAt w ((if i < 8 then p1 else p2) + 8 * (i % 8)) 8 = (vals.getD i 0).toNat) ∧
      (∀ q < 2 ^ 52, (q < pa ∨ pa + 64 ≤ q) → vals = [] ∨ ((q < p1 ∨ p1 + 64 ≤ q) ∧ (q < p2 ∨ p2 + 64 ≤ q)) →
        w.peek q = s.peek q)) ∧
  (∀ (x : Slot) (pc gin wa : Word) (lcin pred state wk : Nat) (rentry : Bool), lcin < 8 → pred < 128 → state < 16 → wk < 256 →
    let h := State.contHead x pc gin lcin pred rentry state wk wa
    h.pc = pc ∧ h.live = gin &&& ~~~(1#64) ∧ h.wakeAddr = wa ∧ h.dom.toNat = wk * 256 + x.csr.nud.toNat ∧
    h.flags.toNat % 16 = state ∧ h.flags.getLsbD 10 = rentry ∧ h.flags.toNat / 2 ^ 12 % 8 = lcin ∧
    h.flags.toNat / 2 ^ 17 % 128 = pred ∧
    (∀ k < 32, 4 ≤ k → k ≠ 10 → (k < 12 ∨ 15 ≤ k) → (k < 17 ∨ 24 ≤ k) → h.flags.getLsbD k = x.head.flags.getLsbD k) ∧
    h.team = x.head.team ∧ h.key = x.head.key ∧ h.tail = x.head.tail ∧ h.scratch = x.head.scratch ∧
    h.parent = x.head.parent) ∧
  ∀ (x : Slot) (gin : Word) (lcin : Nat), x.liveVals gin lcin =
    ((List.range 64).filter (fun n => n != 0 && gin.getLsbD n)).map x.gr ++
      ((List.range 3).filter (fun k => lcin.testBit k)).map x.lcr

/-- R66, R80, R81: `sus` and `yld` in a plain task that waits for nothing, before an `rgn`. A condition that holds lets `sus`
go on, as an acquire; otherwise the continuation is written, the slot is released and the task is registered. `yld` returns
the task to its ready queue, behind the tasks that wait there. In a handler both are illegal with reason 6. -/
def Sys2Proof.Claims.SuspensionPoints : Prop :=
  ∀ (s : State) (b : GReg) (gin : Word) (lcin : BitVec 3),
    let a := s.g b.val
    let leaves (t u : State) (w : State) : Prop := u.slot.run = .idle ∧ u.slot.csr.ins = s.slot.csr.ins + 1 ∧
      u.cur = s.cur ∧ SameBytes w u ∧ t.slot = s.slot
    (s.slot.csr.tcause.getLsbD 63 = true →
      ∀ i ∈ [Instr.susFull b, .susEmpty b, .susJoin b, .yld], exec i s = .next (s.trap 1 (State.illegalTval 6 s.wordHere))) ∧
    (s.slot.csr.tcause.getLsbD 63 = false → s.nextRgn = none → exec .yld s = .next (s.trap 10 (nextPc s.pc))) ∧
    (s.slot.csr.tcause.getLsbD 63 = false → s.nextRgn = some (gin, lcin) → Calm s → Settled s → AtRest s →
      s.slot.run = .running →
      (∀ (i : Instr) (kind key : Nat) (holds : Bool) (t : State),
        (∃ c o p, (i = .susFull b ∧ kind = 1 ∨ i = .susEmpty b ∧ kind = 2) ∧ a.toNat % 4 = 0 ∧
          s.window s.cur a 4 .load = .ok (some (c, o, p)) ∧ key = State.scrKey c o / 4 ∧ t = s ∧
          holds = (Store.get false s.tags key == decide (kind = 1))) ∨
        (i = .susJoin b ∧ kind = 3 ∧ a.toNat % 8 = 0 ∧ a.toNat / 2 ^ 32 ≠ 0xFFFFFF00 ∧
          s.translate (s.cur / 2) s.slot.rid.launch a .load = .ok key ∧ t = s.filled a ∧
          holds = decide (wordAt s key 8 % 2 ^ 40 = 0)) →
        (holds = true → ∃ u : State, exec i s = .next u.retire ∧ Kept s u ∧ u.slot = s.slot ∧
          ∀ w x, w < 2 ^ 50 → u.l1At s.cache w = some x → x.st = .owned) ∧
        (∀ w, holds = false → (let r := contOf s gin lcin 3 kind a
            t.writeRecord (s.cur / 2) s.slot.rid r.1 r.2 = some w) →
          ∃ u : State, exec i s = .next u ∧ leaves t u w ∧
            u.waiters = s.waiters ++ [{ rid := s.slot.rid, pkg := s.cur / 16, kind := kind, key := key }])) ∧
      (∀ w, (let r := contOf s gin lcin 1 0 0; s.writeRecord (s.cur / 2) s.slot.rid r.1 r.2 = some w) →
        ∃ u e, exec .yld s = .next u ∧ leaves s u w ∧ readyFor s s.slot.rid s.slot.head e ∧
          (u.clusterAt (s.cur / 16)).ready = (s.clusterAt (s.cur / 16)).ready ++ [e]))

/-- R82: `fin` of a plain task in no team: the arrival at the parent, the record free, the allocation released, the slot
released; without rest it waits, and a parent that cannot be reached holds the slot. -/
def Sys2Proof.Claims.TasksFinish : Prop :=
  ∀ (s : State), let r := s.slot.rid
    (¬AtRest s → exec .fin s = .next s) ∧
    (∀ (h0 : Head) (v0 : List Word), AtRest s → s.slot.head.spec = false → s.entryOf s.cur = none →
      s.slot.head.team.toNat % 65536 = 0 → s.slot.run = .running → s.readRecord (s.cur / 2) r = some (h0, v0) →
      let p := h0.parent
      let unmade : Prop := p ≠ 0 ∧ (p.toNat / 2 ^ 32 = 0xFFFFFF00 ∨ p.toNat % 8 ≠ 0 ∨
        ∃ t, s.translate (s.cur / 2) r.launch p .store = .error t)
      (unmade → ∃ u : State, exec .fin s = .next u ∧ u.slot.run = .held ∧ SameBytes s u ∧ u.allocs = s.allocs ∧
        Report.finFault r s.cur p ∈ u.reports) ∧
      (∀ (t w : State) (h : Head) (v : List Word), s.waiters = [] → r.pool = none →
        (p = 0 ∧ t = s) ∨ (∃ pa, CellAt s p pa ∧ t = s.setCell pa (cellDown (leNat ((s.settle (pa / 1024)).peekBytes pa 8)) 1)) →
        t.readRecord (s.cur / 2) r = some (h, v) →
        t.writeRecord (s.cur / 2) r { h with flags := h.flags &&& 0xFFFFFFF0#32 } [] = some w →
        ∃ u : State, exec .fin s = .next u ∧ u.slot.run = .idle ∧ u.slot.csr.ins = s.slot.csr.ins + 1 ∧ SameBytes w u ∧
          (∀ x ∈ u.allocs, x.rid ≠ r) ∧ ∀ x ∈ s.allocs, x.rid ≠ r → x ∈ u.allocs))

/-- R75, R76, R78, R79: join cells: `jinit` writes a count and zero above it, `arr` arrives; both seal. A misaligned or a
scratchpad address traps; an arrival that brings the count to 0 leaves no task registered on the cell. -/
def Obligations.JoinCells : Prop :=
  ∀ (s : State) (b c : GReg) (n : BitVec 32), Calm s → Settled s →
    let a := s.g b.val
    let both (t : State) : Prop := exec (.jinit b c n) s = .next t ∧ exec (.arr b n) s = .next t
    (a.toNat % 8 ≠ 0 → both (s.trap 3 a)) ∧
    (a.toNat % 8 = 0 → a.toNat / 2 ^ 32 = 0xFFFFFF00 → both (s.trap 7 a)) ∧
    (∀ t, a.toNat % 8 = 0 → a.toNat / 2 ^ 32 ≠ 0xFFFFFF00 →
      s.translate (s.cur / 2) s.slot.rid.launch a .store = .error t → both (s.trap t.cause t.tval)) ∧
    (∀ pa, CellAt s a pa →
      (∃ u : State, exec (.jinit b c n) s = .next u.retire ∧
        Written s u (.glob pa) (wordBytes (BitVec.ofNat 64 (((s.g c.val).toNat + n.toNat) % 2 ^ 40)) 8) ∧ SameMarks s u ∧
        u.slot = sealedIf s.slot true ∧ u.waiters = s.waiters) ∧
      (let y := cellDown (wordAt s pa 8) n.toNat
       (y % 2 ^ 40 ≠ 0 ∨ s.waiters = [] → ∃ u : State, exec (.arr b n) s = .next u.retire ∧ Aside s u ∧ SameMarks s u ∧
         Became s u pa y ∧ u.slot = sealedIf s.slot true ∧ u.waiters = s.waiters) ∧
       (y % 2 ^ 40 = 0 → ∃ u : State, exec (.arr b n) s = .next u.retire ∧
         u.waiters = s.waiters.filter (fun w => !(w.kind == 3 && w.key == pa)))))

/-- R83 to R87: spawns and messages of a plain task with nothing in flight, to its own cluster. A record passes the checks
of R84 or raises their traps; it is then placed, with its parent written, in the ready queue or with Aster, and a message
takes a record of the handler pool with its payload. All seal. -/
def Obligations.SpawnsAndMessages : Prop :=
  ∀ (s : State) (b : GReg), Calm s → Settled s → s.cur < 12288 →
    let a := s.g b.val
    let pkg := s.cur / 16
    let f := s.filled a
    let r : RecId := { launch := s.slot.rid.launch, addr := a }
    (a.toNat % 64 ≠ 0 → ∀ c x d : GReg, ∀ i ∈ [Instr.spawn c b x, .spawnt c b x, .send c b x d], exec i s = .next (s.trap 3 a)) ∧
    (∀ t, a.toNat % 64 = 0 → s.translate (s.cur / 2) s.slot.rid.launch a .store = .error t →
      ∀ c x d : GReg, ∀ i ∈ [Instr.spawn c b x, .spawnt c b x, .send c b x d], exec i s = .next (s.trap t.cause t.tval)) ∧
    (∀ pa, a.toNat % 64 = 0 → s.translate (s.cur / 2) s.slot.rid.launch a .store = .ok pa →
      let h := Head.ofBytes ((s.settleRange pa 64).peekBytes pa 64)
      let empty : Bool := decide (h.live = 0) && decide (h.flags.toNat / 2 ^ 12 % 8 = 0)
      (∀ c x d : GReg,
        (placeable h [0, 1] = false → exec (.spawn c b x) s = .next (s.trap 18 a)) ∧
        (placeable h [2] = false → exec (.spawnt c b x) s = .next (s.trap 18 a)) ∧
        ((placeable h [1] && empty) = false → exec (.send c b x d) s = .next (s.trap 18 a)) ∧
        (placeable h [0, 1] = true → x.val = 0 → c.val ≠ 0 → 2 ^ 20 ≤ (s.g c.val).toNat ∨ 767 < (s.g c.val).toNat % 1024 →
          exec (.spawn c b x) s = .next (s.trap 7 (s.g c.val)))) ∧
      (s.slot.head.kind ≠ 2 → (f.clusterAt pkg).launch = s.slot.rid.launch →
        (∀ h1 v1 w, f.readRecord (pkg * 8) r = some (h1, v1) →
          let h2 : Head := { h1 with parent := 0, scratch := h1.scratch &&& 0xFFFF0000#32 }
          f.writeRecord (pkg * 8) r h2 [] = some w →
          (placeable h [0, 1] = true → ∃ (u : State) (e : Ready), exec (.spawn 0 b 0) s = .next u.retire ∧ SameBytes w u ∧
            u.slot = sealedIf s.slot true ∧ readyFor s r h2 e ∧
            (u.clusterAt pkg).ready = (s.clusterAt pkg).ready ++ [e]) ∧
          (∀ h3 v3, w.readRecord (pkg * 8) r = some (h3, v3) → placeable h [2] = true →
            State.entriesUsed (s.clusterAt pkg) < 512 → notLate s pkg h3 →
            ∃ (u : State) (e : Ready) (n : Entry), exec (.spawnt 0 b 0) s = .next u.retire ∧ SameBytes w u ∧ u.slot = sealedIf s.slot true ∧
              (u.clusterAt pkg).entries = (s.clusterAt pkg).entries ++ [n] ∧ n.rid = r ∧ n.st = .ready ∧
              n.id = (s.clusterAt pkg).serial ∧ n.head.key = h3.key ∧ n.vals = v3 ∧
              (u.clusterAt pkg).ready = (s.clusterAt pkg).ready ++ [e] ∧ e.rid = r)) ∧
        (∀ i, (placeable h [1] && empty) = true →
          i < (s.clusterAt pkg).poolSize → Store.find? (s.clusterAt pkg).pool i = none →
          (∀ j < i, (Store.find? (s.clusterAt pkg).pool j).isSome = true) →
          let takes (instr : Instr) (pay : List Word) : Prop := ∃ (u : State) (e : Ready) (p : Head), exec instr s = .next u.retire ∧
            u.slot = sealedIf s.slot true ∧ Store.find? (u.clusterAt pkg).pool i = some (p, pay) ∧
            p.pc = h.pc ∧ p.key = h.key ∧ p.flags = h.flags ∧ p.parent = 0 ∧ p.live.toNat = 2 ^ (pay.length + 1) - 2 ∧
            (u.clusterAt pkg).ready = (s.clusterAt pkg).ready ++ [e] ∧ e.rid.pool = some (pkg, i) ∧
            e.rid.launch = s.slot.rid.launch ∧ e.level = h.flags.toNat / 2 ^ 6 % 8
          (∀ d : GReg, takes (.send 0 b 0 d) [s.g d.val]) ∧
          (∀ (d : Sys2Proof.VReg) (n : Fin 32), 1 ≤ n.val → n.val ≤ 16 →
            (∀ k < (n.val + 7) / 8, State.isPoison ((s.v d).descOf k) = false) →
            takes (.sendv 0 b 0 d n) ((List.range n.val).map (fun j => BitVec.ofNat 64 ((s.v d).lane .z64 j)))))))

/-! ### Teams, queues, reuse clocks, Aster -/

namespace Sys2Proof.Claims

open Sys2Proof.Machine

/-- A waiting instruction spins; with its 256 cycles over, in an unsealed region and with nothing outstanding, its task
parks: the continuation of its region is written, the slot released, the task registered (R72, R228, R274). -/
def Parks (i : Instr) (s : State) (kind key : Nat) (wa : Word) : Prop :=
  let x := s.slot
  (x.expired = false ∨ x.region.sealed = true → exec i s = .next (s.upd (fun y => { y with spin := some ⟨kind, wa, none⟩ }))) ∧
  ∀ w, x.expired = true → x.region.sealed = false → x.cnt = {} → ¬Owed s s.nextMsg s.cur → s.unitPending s.cur = false →
    s.entryOf s.cur = none → s.writeRecord (s.cur / 2) x.rid (State.contHead x x.region.pc x.region.gin x.region.lcin.toNat (x.region.pred.toNat / 2)
      x.region.isRgn 3 kind wa) x.region.vals = some w →
    ∃ u : State, exec i s = .next u ∧ u.slot.run = .idle ∧ SameBytes w u ∧
      u.waiters = s.waiters ++ [{ rid := x.rid, pkg := s.cur / 16, kind := kind, key := key }]

/-- Nothing is on its way, and what a step sends it performs at once. -/
def Still (s : State) : Prop := s.lag = false ∧ s.flight = [] ∧ ∀ e ∈ s.ports, e.2.unsent = []

/-- An earlier write of the issuing slot is on its way (R223). -/
def Writing (s : State) : Prop := ∃ e ∈ s.flight, e.1 < s.nextMsg ∧ writesBy s.cur e.2 = true

/-- Member m is live (R273). -/
def liveIn (t : Team) (m : Nat) : Bool := t.members.getLsbD m && !t.faulted.getLsbD m

/-- Phases that complete at once: the least lead of the live members. -/
def rounds (t : Team) : Nat := (((List.range 64).filter (liveIn t)).map (fun m => Store.get 0 t.lead m)).min?.getD 0

/-- R273 applied to a team. -/
def Advanced (t u : Team) : Prop :=
  u.id = t.id ∧ u.members = t.members ∧ u.faulted = t.faulted ∧ u.recs = t.recs ∧
  u.phase = t.phase + BitVec.ofNat 32 (rounds t) ∧
  ∀ m < 64, Store.get 0 u.lead m = Store.get 0 t.lead m - (if liveIn t m then rounds t else 0)

/-- The teams of the issuing slot's cluster. -/
def teamsOf (s : State) : List Team := (s.clusterAt (s.cur / 16)).teams

/-- The issuing slot's task is member m of team T, the only one of its id. -/
def Member (s : State) (T : Team) (m : Nat) : Prop :=
  s.slot.head.spec = false ∧ s.teamOf s.cur = some (T, m) ∧ (teamsOf s).Pairwise (fun x y => x.id ≠ y.id)

/-- A change of the issuing cluster and of the issuing slot, and of nothing else. -/
def changed (s : State) (f : Cluster → Cluster) (g : Slot → Slot) : State := (s.updCluster (s.cur / 16) f).upd g

/-- A clean self-invalidation of the issuer's cache has happened: only words it owns are left (R117, R388). -/
def Acquired (s u : State) : Prop := ∀ w x, w < 2 ^ 50 → u.l1At s.cache w = some x → x.st = .owned

/-- A quota of a domain as stored (R260). -/
def within (x top : Nat) : Nat := min (max x 1) top

/-- The time field of a horizon part, all ones when no work remains (R328). -/
def timeField (k : Option Key) : Nat := match k with
  | some k => k.t
  | none => 2 ^ 64 - 1

/-- The lines of a domain's indefinite ways that a range covers become code nu, stamped by the clock that their cache holds:
`no` is the number of the cache of a set (R261). -/
def recoded (s : State) (no : Nat → Nat) (lo hi nu : Nat) (m : Store (Store Way)) : Store (Store Way) :=
  m.map (fun e => (e.1, e.2.map (fun w => (w.1,
    if w.2.code = 63 ∧ w.2.dom = s.slot.csr.nud.toNat ∧ (List.range (hi + 1 - lo)).any (fun i =>
        match s.translate (s.cur / 2) s.slot.rid.launch (BitVec.ofNat 64 (1024 * (lo + i))) .load with
        | .ok pa => pa / 1024 == w.2.line
        | .error _ => false) = true
    then { w.2 with code := nu, hit := false, due := if nuTimed nu then
      ((s.heldDomain (no e.1) s.slot.csr.nud.toNat).clock.toNat + nuDistance nu) % 2 ^ 24 else 0 }
    else w.2))))

/-- The only timestamped task of the module: not irrevocable, not withdrawn, no event of Larkspur, its key not L. -/
def Alone (s : State) (pkg : Nat) (e : Entry) : Prop :=
  s.allEntries = [(pkg, e)] ∧ s.entryAt pkg e.id = some e ∧ e.ev = .other ∧ e.firm = false ∧ e.gone = false ∧
  (s.clusterAt pkg).ll ≠ some (s.entryKey pkg e)

end Sys2Proof.Claims

/-- R270 to R276: joining, leaving, arriving at, waiting for and reading a team, with nothing in flight; an arrival waits
while an earlier write of its slot is on its way, and every team operation behind a `tleave` that has not been applied. -/
def Obligations.TeamBarriers : Prop :=
  (∀ (s : State) (a b : GReg) (sel : Fin 4), s.leaving = true →
    ∀ i ∈ [Instr.tjoin a b, .tleave, .tarr, .twait a, .tinfo a sel], exec i s = .next s) ∧
  (∀ (s : State) (T : Team) (m : Nat), s.leaving = false → Member s T m → Writing s → exec .tarr s = .next s) ∧
  ∀ (s : State) (a b : GReg) (sel : Fin 4), Still s →
    let pkg := s.cur / 16
    let ill (i : Instr) : Prop := exec i s = .next (s.trap 1 (State.illegalTval 6 s.wordHere))
    (s.slot.head.spec = true → ∀ i ∈ [Instr.tjoin a b, .tleave, .tarr, .twait a, .tinfo a sel], ill i) ∧
    (s.slot.head.spec = false → (s.teamOf s.cur).isSome = true → ill (.tjoin a b)) ∧
    (s.slot.head.spec = false → s.teamOf s.cur = none →
      ill .tleave ∧ ill .tarr ∧ ill (.twait a) ∧ exec (.tinfo a sel) s = .next (s.setG a.val 0).retire ∧
      (let id := (s.g b.val).toNat
       let full := exec (.tjoin a b) s = .next (s.upd (fun x => sealedIf (x.setG a.val (BitVec.allOnes 64)) true)).retire
       let joins (m created : Nat) (f : Cluster → Cluster) : Prop := exec (.tjoin a b) s = .next (changed s f
         (fun x => sealedIf ({ x with head := { x.head with team := BitVec.ofNat 32 (m * 65536 + id) } }.setG a.val
           (BitVec.ofNat 64 (created * 256 + m))) true)).retire
       (id = 0 ∨ 65535 < id → exec (.tjoin a b) s = .next (s.trap 7 (s.g b.val))) ∧
       (1 ≤ id → id ≤ 65535 →
         ((teamsOf s).all (fun t => t.id != id) = true →
           (64 ≤ (teamsOf s).length → full) ∧
           ((teamsOf s).length < 64 → joins 0 1 (fun c => { c with teams := c.teams ++
             [{ id := id, members := 1, lead := [(0, 0)], recs := [(0, s.slot.rid)] }] }))) ∧
         (∀ T, (teamsOf s).find? (fun t => t.id == id) = some T →
           ((∀ m < 64, T.members.getLsbD m = true) → full) ∧
           ∀ m < 64, T.members.getLsbD m = false → (∀ j < m, T.members.getLsbD j = true) →
             joins m 0 (fun c => { c with teams := c.teams.map (fun t => if t.id = id then
               { t with members := t.members ||| BitVec.ofNat 64 (2 ^ m), lead := Store.set t.lead m 0,
                        recs := Store.set t.recs m s.slot.rid } else t) }))))) ∧
    (∀ (T : Team) (m : Nat), Member s T m → m < 64 →
      let wa := BitVec.ofNat 64 (m * 65536 + T.id)
      let lead := Store.get 0 T.lead m
      let done (u : State) (T1 T2 : Team) : Prop := Advanced T1 T2 ∧ teamsOf u = (teamsOf s).map (fun t => if t.id = T.id then T2 else t) ∧
        (rounds T1 ≠ 0 → ∀ w ∈ u.waiters, ¬(w.kind = 4 ∧ w.pkg = pkg ∧ w.key = T.id))
      ((let T1 := { T with members := T.members &&& ~~~BitVec.ofNat 64 (2 ^ m), faulted := T.faulted &&& ~~~BitVec.ofNat 64 (2 ^ m)
                           lead := Store.erase T.lead m, recs := Store.erase T.recs m }
         ∃ u : State, exec .tleave s = .next u.retire ∧
           u.slot = sealedIf { s.slot with head := { s.slot.head with team := 0 } } true ∧
           (T1.members = 0 → teamsOf u = (teamsOf s).filter (fun t => t.id != T.id)) ∧
           (T1.members ≠ 0 → ∃ T2, done u T1 T2)) ∧
        (lead = 3 → Parks .tarr s 4 T.id wa) ∧
        (lead ≠ 3 → T.members ≠ 0 → ∃ u T2, exec .tarr s = .next (State.retire u) ∧ u.slot = sealedIf s.slot true ∧
          done u { T with lead := Store.set T.lead m (lead + 1) } T2)) ∧
      (lead ≠ 0 → Parks (.twait a) s 4 T.id wa) ∧
      (lead = 0 → ∃ u : State, exec (.twait a) s = .next u.retire ∧ u.slot = s.slot.setG a.val T.faulted ∧ u.clusters = s.clusters ∧
        (Settled s → Acquired s u)) ∧
      exec (.tinfo a sel) s = .next (s.setG a.val (BitVec.ofNat 64 (match sel.val with
        | 0 => T.phase.toNat * 2 ^ 32 + lead * 2 ^ 30 + ((List.range 64).filter (liveIn T)).length * 2 ^ 16 + T.id
        | 1 => T.members.toNat
        | 2 => T.faulted.toNat
        | _ => m * 2 ^ 8 + ((List.range 8).map (fun k => if (s.peerHolder pkg T k).isSome then 2 ^ k else 0)).sum))).retire)

/-- R285 to R288: the four queue operations with nothing in flight; an `enq` is on its way while an earlier write of its slot
is, and the slot goes on; the slot's later operations on the queue wait for it. -/
def Obligations.WorkQueues : Prop :=
  (∀ (s : State) (b : GReg) (p : PReg) (q : Fin 4), s.queueTrap q.val = none → Writing s →
    exec (.enq p b q) s = .next (s.enqueue (.queue s.cur q.val (s.g b.val) (some p.val))).retireSeal) ∧
  (∀ (s : State) (a : GReg) (p : PReg) (q : Fin 4), s.queueTrap q.val = none → s.enqBefore s.nextMsg s.cur q.val = true →
    ∀ i ∈ [Instr.deq a p q, .deqw a q, .qinfo a q], exec i s = .next s) ∧
  ∀ (s : State) (a b : GReg) (p : PReg) (q : Fin 4), Still s →
    let pkg := s.cur / 16
    let fifo := s.queueOf q.val
    let mine : Prop := s.slot.head.spec = false ∧ (s.clusterAt pkg).launch = s.slot.rid.launch ∧ (s.clusterAt pkg).queues.getLsbD q.val = true
    let holds (u : State) (l : List Word) : Prop := u.queueOf q.val = l ∧ ∀ r, r ≠ q.val → u.queueOf r = s.queueOf r
    (s.slot.head.spec = true → ∀ i ∈ [Instr.enq p b q, .deq a p q, .deqw a q, .qinfo a q],
      exec i s = .next (s.trap 1 (State.illegalTval 6 s.wordHere))) ∧
    (s.slot.head.spec = false → ¬mine → ∀ i ∈ [Instr.enq p b q, .deq a p q, .deqw a q, .qinfo a q],
      exec i s = .next (s.trap 7 (BitVec.ofNat 64 q.val))) ∧
    (mine →
      (fifo.length < 512 → ∃ u : State, exec (.enq p b q) s = .next u.retire ∧ holds u (fifo ++ [s.g b.val]) ∧
        u.slot = sealedIf (s.slot.setP p.val true) true ∧
        u.waiters = s.waiters.filter (fun w => !(w.kind == 5 && w.pkg == pkg && w.key == q.val))) ∧
      (512 ≤ fifo.length → exec (.enq p b q) s = .next (State.retire
        (({ s with nextMsg := s.nextMsg + 1 } : State).upd (fun x => sealedIf (x.setP p.val false) true)))) ∧
      (fifo = [] → exec (.deq a p q) s = .next (s.upd (fun x => sealedIf ((x.setG a.val 0).setP p.val false) true)).retire ∧
        Parks (.deqw a q) s 5 q.val (BitVec.ofNat 64 q.val)) ∧
      (∀ x l, fifo = x :: l →
        (∃ u : State, exec (.deq a p q) s = .next u.retire ∧ holds u l ∧ (Settled s → Acquired s u) ∧
          u.slot = sealedIf ((s.slot.setG a.val x).setP p.val true) true) ∧
        (∃ u : State, exec (.deqw a q) s = .next u.retire ∧ holds u l ∧ (Settled s → Acquired s u) ∧
          u.slot = sealedIf (s.slot.setG a.val x) true)) ∧
      exec (.qinfo a q) s = .next (s.setG a.val (BitVec.ofNat 64
        ((s.waiters.filter (fun w => w.kind == 5 && w.pkg == pkg && w.key == q.val)).length * 2 ^ 32 + 512 * 2 ^ 16 +
          fifo.length))).retire)

/-- R258 to R261: the clock's advance, the domain of the slot, quotas, the release of indefinite lines. -/
def Sys2Proof.Claims.ReuseInstructions : Prop :=
  ∀ (s : State) (a b : GReg) (m : Addr) (n : BitVec 16) (d : BitVec 8) (w : Bool), Still s →
    let granted (k : Nat) : Prop := k = 0 ∨ k ∈ (s.launchAt s.slot.rid.launch).domains
    (∃ u : State, exec (.nutick n) s = .next u.retire ∧ u =
        { s with domains := u.domains, domainOld := u.domainOld, domainCopy := u.domainCopy, slots := u.slots } ∧
      u.slot = sealedIf s.slot true ∧ ∀ k, u.domainAt k = { (s.domainAt k) with
        clock := (s.domainAt k).clock + (if k = s.slot.csr.nud.toNat then n.setWidth 24 else 0) }) ∧
    (granted d.toNat → exec (.nudom d) s = .next (s.upd (fun x => { x with csr := { x.csr with nud := d } })).retire) ∧
    (¬granted d.toNat → exec (.nudom d) s = .next (s.trap 7 (d.setWidth 64))) ∧
    (let x := (s.g b.val).toNat
     let k := x % 256
     let D := s.domainAt k
     (¬granted k ∨ (w = true ∧ k = 0) → exec (.nuq a b w) s = .next (s.trap 7 (BitVec.ofNat 64 k))) ∧
     (granted k → (w = true → k ≠ 0) → s.slot.full .ld = false → ∃ u : State, exec (.nuq a b w) s = .next u.retire ∧
       u.slot = s.slot.setG a.val (BitVec.ofNat 64 (D.clock.toNat * 2 ^ 30 + D.honesty.toNat * 2 ^ 26 + D.indef * 2 ^ 22 +
         D.llc * 2 ^ 17 + D.l2 * 2 ^ 12 + D.l1 * 2 ^ 8 + k)) ∧
       u.domainAt k = (if w = true then { D with
         indef := min (x / 2 ^ 22 % 16) 8
         llc := within (x / 2 ^ 17 % 32) 24
         l2 := within (x / 2 ^ 12 % 32) 16
         l1 := within (x / 2 ^ 8 % 16) 8 }
         else D) ∧
       ∀ j, j ≠ k → u.domainAt j = s.domainAt j)) ∧
    (let lo := (s.addrOf m).toNat / 1024
     let hi := min ((s.addrOf m).toNat + max (s.g a.val).toNat 1 - 1) (2 ^ 64 - 1) / 1024
     exec (.nurel a m) s = .next (State.retire { s with
       l1Sets := recoded s (· / 64) lo hi m.nu.val s.l1Sets
       l2Sets := recoded s (fun n => 8192 + n / 256) lo hi m.nu.val s.l2Sets
       llcSets := recoded s (fun n => 16384 + n / 4096) lo hi m.nu.val s.llcSets }))

/-- R338 to R340: reading the horizon (`gvt`, which completes once the held L has reached its bound) and Aster (`astat`, which
always completes), and aborting (`abrt`, `abrt.rec`) a task that is alone in the module. -/
def Sys2Proof.Claims.HorizonAndAborts : Prop :=
  ∀ (s : State) (a b : GReg) (sel : Fin 4) (n : Fin 8), s.lag = false →
    let pkg := s.cur / 16
    let c := s.clusterAt pkg
    let bound := if s.slot.head.kind = 2 then min (s.g b.val).toNat s.slot.tkey.toNat else (s.g b.val).toNat
    (timeField c.ll < bound → exec (.gvt a b sel) s = .next s) ∧
    (bound ≤ timeField c.ll → exec (.gvt a b sel) s = .next (s.setG a.val (BitVec.ofNat 64 (match sel.val, c.ll with
      | 0, _ => timeField c.ll
      | 1, some k => k.phase * 2 ^ 56 + k.idx
      | 1, none => 0xFF0000FFFFFFFFFF
      | 2, some k => k.tie.1
      | 2, none => 0xFFFFF
      | _, _ => timeField c.hh))).retire) ∧
    (∀ x : Word, (match n.val with
      | 0 => x = BitVec.ofNat 64 ((c.entries.filter (fun e => e.st != .spilled)).length * 2 ^ 16 +
          (c.entries.map (fun e => e.buf.length)).sum)
      | 1 => x = c.aster.commits
      | 2 => x = c.aster.conflicts
      | 3 => x = c.aster.others
      | 4 => x = c.aster.promoted
      | 5 => x = c.aster.waits
      | 6 => (s.slot.head.kind ≠ 2 ∨ s.entryOf s.cur = none → x = 0) ∧ ∀ e, s.slot.head.kind = 2 → s.entryOf s.cur = some e →
          x = BitVec.ofNat 64 (e.restarts * 2 ^ 16 + e.reads.length * 2 ^ 7 + e.buf.length)
      | _ => x = BitVec.ofNat 64 (((c.entries.filter (fun e => e.st != .spilled)).map (fun e => e.head.key.toNat)).min?.getD
          (2 ^ 64 - 1))) → exec (.astat a n) s = .next (s.setG a.val x).retire) ∧
    (s.slot.head.spec = false → exec .abrt s = .next (s.trap 1 (State.illegalTval 6 s.wordHere))) ∧
    ((s.g b.val).toNat % 64 ≠ 0 → exec (.abrtRec a b) s = .next (s.trap 3 (s.g b.val))) ∧
    ((s.g b.val).toNat % 64 = 0 → s.slot.rid.addr = s.g b.val → exec (.abrtRec a b) s = exec .abrt s) ∧
    ((s.g b.val).toNat % 64 = 0 → s.slot.rid.addr ≠ s.g b.val →
      (∀ x ∈ s.allEntries, x.2.rid.launch = s.slot.rid.launch → x.2.rid.addr = s.g b.val →
        x.2.firm = true ∨ (s.clusterAt x.1).ll = some (s.entryKey x.1 x.2)) →
      exec (.abrtRec a b) s = .next (s.upd (fun x => sealedIf (x.setG a.val 0) true)).retire) ∧
    (∀ k e, Alone s k e →
      let gone (u : State) (e2 : Entry) : Prop := u.entryAt k e.id = some e2 ∧ e2.buf = [] ∧ e2.reads = [] ∧ e2.qreads = [] ∧
        e2.held = [] ∧ e2.restarts = min 65535 (e.restarts + 1) ∧ e2.head = e.head ∧
        (u.clusterAt k).aster.others = (s.clusterAt k).aster.others + 1
      (k = pkg → e.rid = s.slot.rid → e.st = .running → s.slot.run = .running → s.slot.head.spec = true →
        s.slotRunning e.rid = some s.cur →
        ∃ u e2, exec .abrt s = .next u ∧ gone u e2 ∧ e2.st = .aborted ∧ e2.pause = true ∧ u.slot.run = .idle ∧
          u.slot.csr.ins = s.slot.csr.ins + 1) ∧
      (e.rid.launch = s.slot.rid.launch → e.rid.addr = s.g b.val → (s.g b.val).toNat % 64 = 0 →
        s.slot.rid.addr ≠ s.g b.val → e.st = .ready → s.slot.run = .running →
        ∃ u e2, exec (.abrtRec a b) s = .next (State.retire u) ∧ gone u e2 ∧ u.slot = sealedIf (s.slot.setG a.val 1) true))

/-! ### The matrix engine -/

namespace Sys2Proof.Claims

open Sys2Proof.Machine

/-- Element (i, j) of an accumulator of the issuing slot (R198). -/
def el (s : State) (a : AReg) (i j : Nat) : Nat := s.slot.accEl a.val i j

/-- The bits of the accumulators that are owned, with accumulator a owned or not. -/
def ownedWith (s : State) (a : AReg) (b : Bool) : BitVec 2 :=
  if b then s.slot.own ||| BitVec.ofNat 2 (2 ^ a.val) else s.slot.own &&& ~~~BitVec.ofNat 2 (2 ^ a.val)

/-- The elements of accumulator a have become f; nothing else of the slot but ownership has changed. -/
def Fills (s u : State) (a : AReg) (own : BitVec 2) (f : Nat → Nat → Nat) : Prop :=
  (∀ i < 64, ∀ j < 64, el u a i j = f i j) ∧ (∀ b, b ≠ a → ∀ i j, i < 64 → j < 64 → el u b i j = el s b i j) ∧
  u.slot = { s.slot with acc := u.slot.acc, own := own }

/-- Every byte of memory reads as before, and the other slots are as before. -/
def SameReads (s u : State) : Prop :=
  (∀ q, InRange q 1 → u.readLoc q = s.readLoc q) ∧ ∀ n, n ≠ s.cur → u.slotAt n = s.slotAt n

/-- The 64 bytes of a block. -/
def blockBytes (s : State) (l : Loc) : List Byte := (List.range 64).map (fun k => s.readLoc (State.locAdd l k))

/-- A matrix instruction takes effect in its own step: no lag, no earlier one waits (R205, R211, R212), nothing has been
fetched ahead (R213), and the counter of tiles has room (R101). -/
def Idle (s : State) : Prop := s.lag = false ∧ s.slot.mq = [] ∧ s.slot.ahead = [] ∧ s.slot.full .tl = false

/-- The blocks of a matrix operand: aligned registers, each block where the access may go, in global memory or a
scratchpad, to be used by a plain task. -/
def BlocksOk (s : State) (regs : List Word) (k : Access) (addrs : Nat → Nat → Word) (n m : Nat) (at_ : Nat → Nat → Loc) : Prop :=
  (∀ r ∈ regs, r.toNat % 64 = 0) ∧
  ∀ i < n, ∀ j < m, s.locate s.cur (addrs i j) 64 k = .ok (at_ i j) ∧ InRange (at_ i j) 64 ∧ AlignedTo (at_ i j) 64

/-- Whether the panel at its unit is good for a multiply of a type (R203 step 6). -/
def panelGood (ty : Ty) (p : Panel) : Prop :=
  ∀ n < 64, State.isPoison (p.descOf n) = false ∧ (p.sp = false → formatAccepted ty (p.descOf n) = true) ∧
    (p.sp = true → (ty = .t8 ∨ ty = .i8) ∧ ((p.descOf n).toNat % 256 = (if ty = .t8 then 0x0A else 0x0B) ∨
      (State.isZeroBlock (p.descOf n) && formatOk ((p.descOf n).toNat % 256)) = true))

/-- Row i and block k of a tile of `msum` or `mtr`: address, and row and column of its element j (R209). -/
def tileAt (s : State) (b c : GReg) (i k : Nat) : Word :=
  s.g b.val + BitVec.ofNat 64 i * s.g c.val + BitVec.ofNat 64 (64 * k)

end Sys2Proof.Claims

/-- R206 to R208: the matrix instructions on accumulators and vector registers, in a slot with no earlier one waiting. One
that needs an accumulator not owned is illegal with reason 6. -/
def Obligations.MatrixRegisters : Prop :=
  ∀ (s : State) (a : AReg) (v : Sys2Proof.VReg) (q c1 : Fin 32), Idle s →
    let r (i : Nat) : Nat := i / 2
    (∃ u : State, exec (.mclr a) s = .next u.retire ∧ Fills s u a (ownedWith s a true) (fun _ _ => 0)) ∧
    exec (.mfree a) s = .next (s.upd (fun x => { x with own := ownedWith s a false })).retire ∧
    (s.slot.own.getLsbD a.val = false →
      ∀ i, (i = .mrd v a q c1 ∨ (∃ ty p sc sat rnd, i = .mcvt ty v a p sc sat rnd) ∨ (∃ b c, i = .msum a b c) ∨
          (∃ b c tr, i = .mtr a b c tr) ∨ ∃ ty b c u kb, i = .mmac ty a b c u kb ∨ i = .mmacs ty a b c u kb) →
        exec i s = .next (s.trap 1 (State.illegalTval 6 s.wordHere))) ∧
    (v.val + c1.val ≤ 63 → q.val + c1.val ≤ 31 → s.slot.own.getLsbD a.val = true →
      ∃ u : State, exec (.mrd v a q c1) s = .next u.retire ∧ u.slot = { s.slot with v := u.slot.v } ∧
        (∀ n ≤ c1.val, (∀ l < 128, (u.slot.vr (v.val + n)).lane .f32 l = el s a (2 * (q.val + n) + l / 64) (l % 64)) ∧
          ∀ b < 8, (u.slot.vr (v.val + n)).descOf b = 0x0008) ∧
        ∀ n < 64, (n < v.val ∨ v.val + c1.val < n) → u.slot.vr n = s.slot.vr n) ∧
    (v.val + c1.val ≤ 63 → q.val + c1.val ≤ 31 →
      (∀ n ≤ c1.val, ∀ b < 8, State.isPoison ((s.slot.vr (v.val + n)).descOf b) = false ∧
        (s.slot.isDead (s.slot.physV (v.val + n)) = true ∨ formatAccepted .f32 ((s.slot.vr (v.val + n)).descOf b) = true)) →
      ∃ u : State, exec (.mwr a v q c1) s = .next u.retire ∧ Fills s u a (ownedWith s a true) (fun i j =>
        if q.val ≤ r i ∧ r i ≤ q.val + c1.val then
          let x := s.slot.vr (v.val + (r i - q.val))
          let l := i % 2 * 64 + j
          if State.isZeroBlock (x.descOf (l / 16)) then 0 else x.lane .f32 l
        else if s.slot.own.getLsbD a.val then el s a i j else 0)) ∧
    (∀ (ty : Ty) (p : Fin 16) (sc : ScaleOp) (sat : Bool) (rnd : Fin 5), s.slot.own.getLsbD a.val = true →
      let R := ty.lanes / 64
      let val (l : Nat) := Num.unpack Num.f32 (el s a (R * p.val + l / 64) (l % 64))
      let rm := Num.rmOf (if rnd.val = 0 then s.slot.csr.frm.toNat else rnd.val - 1)
      ∃ (u : State) (x : Machine.VReg) (fl : Nat → BitVec 5), exec (.mcvt ty v a p sc sat rnd) s = .next u.retire ∧
        u.slot = { s.slot with v := u.slot.v, csr := { s.slot.csr with fflags := u.slot.csr.fflags } } ∧
        u.slot.vr v.val = x ∧ (∀ n < 64, n ≠ v.val → u.slot.vr n = s.slot.vr n) ∧
        (∀ k < 5, u.slot.csr.fflags.getLsbD k = (s.slot.csr.fflags.getLsbD k || (List.range ty.lanes).any (fun l => (fl l).getLsbD k))) ∧
        (ty = .b16 ∨ ty = .f16 → ∀ l < ty.lanes, x.descOf (laneBlock ty l) = descFor ty ∧
          (x.lane ty l, fl l) = Num.cvtFF (Num.fmtOf ty) Num.f32 rm (el s a (R * p.val + l / 64) (l % 64))) ∧
        (ty = .t8 ∨ ty = .i8 ∨ ty = .z8 → ∀ l < ty.lanes, ∀ e : Int,
          (match sc with
            | .given g => some g.toInt
            | .auto => autoScale ty ((List.range 64).map (fun j => val (64 * (l / 64) + j)))) = some e →
          x.descOf (l / 64) = mkDesc (formatOf ty) e ∧ (x.lane ty l, fl l) = encodeElement ty sat rm e (val l)))

/-- R201 to R205, R209: the matrix instructions on memory, of a plain task that has no other one waiting. -/
def Sys2Proof.Claims.MatrixOperands : Prop :=
  ∀ (s : State) (a : AReg) (b c d : GReg) (u0 : Fin 128) (kb : Fin 64), Idle s → Settled s → s.slot.head.spec = false →
    s.entryOf s.cur = none →
    (∀ (sp : Bool) (nu : NuCode) (at_ : Nat → Nat → Loc), 1 ≤ kb.val →
      BlocksOk s [s.g b.val, s.g c.val, s.g d.val] .load
        (fun p n => s.g b.val + BitVec.ofNat 64 p * s.g c.val + BitVec.ofNat 64 n * s.g d.val) kb.val 64 at_ →
      let size := if sp then 5 else 8
      let inside (e : Nat) (p : Panel) : Prop := u0.val < e + p.size ∧ e < u0.val + kb.val * size
      ∃ u : State, exec (.mldb u0 b c d kb sp nu) s = .next u.retire ∧ SameReads s u ∧
        u.slot = { s.slot with panels := u.slot.panels } ∧
        (∀ p < kb.val, ∃ P, Store.find? u.slot.panels (u0.val + p * size) = some P ∧ P.sp = sp ∧ ∀ n < 64,
          P.descOf n = s.descAt (at_ p n) ∧ ∀ o < (if sp then 40 else 64),
            Store.get 0 P.data (64 * n + o) = (blockBytes s (at_ p n)).getD o 0) ∧
        ∀ x, (∀ p < kb.val, x.1 ≠ u0.val + p * size) → (x ∈ u.slot.panels ↔ x ∈ s.slot.panels ∧ ¬inside x.1 x.2)) ∧
    (s.slot.own.getLsbD a.val = true →
      (∀ (ty : Ty) (sub : Bool) (at_ : Nat → Nat → Loc) (unit : Nat → Nat) (P : Nat → Panel),
        BlocksOk s [s.g b.val, s.g c.val] .load (fun k m => s.g b.val + BitVec.ofNat 64 m * s.g c.val + BitVec.ofNat 64 (64 * k))
          kb.val 64 at_ →
        (∀ k < kb.val, ∀ m < 64, State.isPoison (s.descAt (at_ k m)) = false ∧ formatAccepted ty (s.descAt (at_ k m)) = true) →
        unit 0 = u0.val →
        (∀ k < kb.val, unit k ≤ 127 ∧ Store.find? s.slot.panels (unit k) = some (P k) ∧ unit (k + 1) = unit k + (P k).size ∧
          panelGood ty (P k)) →
        ∃ u : State, exec (if sub then .mmacs ty a b c u0 kb else .mmac ty a b c u0 kb) s = .next u.retire ∧ SameReads s u ∧
          Fills s u a s.slot.own (fun i j => (List.range kb.val).foldl (fun acc k => macBlock ty sub acc
            (s.descAt (at_ k i), blockElements ty (leNat (blockBytes s (at_ k i)))) ((P k).descOf j, (P k).column ty j)) (el s a i j))) ∧
      (∀ at_ : Nat → Nat → Loc, BlocksOk s [s.g b.val, s.g c.val] .load (tileAt s b c) 64 4 at_ →
        (∀ i < 64, ∀ k < 4, State.isPoison (s.descAt (at_ i k)) = false ∧ formatAccepted .f32 (s.descAt (at_ i k)) = true) →
        ∃ u : State, exec (.msum a b c) s = .next u.retire ∧ SameReads s u ∧
          Fills s u a s.slot.own (fun i j => (Num.add Num.f32 .rne (el s a i j)
            (if State.isZeroBlock (s.descAt (at_ i (j / 16))) then 0
             else leNat (((blockBytes s (at_ i (j / 16))).drop (4 * (j % 16))).take 4))).1)) ∧
      (∀ (tr : Bool) (at_ : Nat → Nat → Loc), BlocksOk s [s.g b.val, s.g c.val] .store (tileAt s b c) 64 4 at_ →
        ∃ u : State, exec (.mtr a b c tr) s = .next u.retire ∧ u.slot = s.slot ∧ u.tags = s.tags ∧
          (∀ i < 64, ∀ k < 4, (∀ j < 64, ∀ h < 4, (i < j ∨ (i = j ∧ k < h)) → at_ j h ≠ at_ i k) →
            u.descAt (at_ i k) = 0x0008 ∧ ∀ j < 16, ∀ o < 4, u.readLoc (State.locAdd (at_ i k) (4 * j + o)) =
              BitVec.ofNat 8 ((if tr then el s a (16 * k + j) i else el s a i (16 * k + j)) / 2 ^ (8 * o))) ∧
          ∀ q, InRange q 1 → (∀ i < 64, ∀ k < 4, overlaps (at_ i k) 64 q 1 = false) → u.readLoc q = s.readLoc q))

/-- R159, R204: one K-block of a multiply on an accumulator element: zero blocks, a NaN, an invalid or an infinite
product, and the exact sum of finite products, scaled and rounded once. -/
def Sys2Proof.Claims.KBlockSums : Prop :=
  ∀ (t : Ty) (sub : Bool) (acc : Nat) (x y : KBlock), acc < 2 ^ 32 → x.2.length = y.2.length →
    let f := Num.f32
    let pairs := x.2.zip y.2
    let int (n : Bool) (m : Nat) : Int := if n then -(m : Int) else m
    (State.isZeroBlock x.1 = true ∨ State.isZeroBlock y.1 = true → macBlock t sub acc x y = acc) ∧
    (State.isZeroBlock x.1 = false → State.isZeroBlock y.1 = false →
      (nanP f acc = true → macBlock t sub acc x y = 0x7FC00000) ∧
      ((∃ p ∈ pairs, productVal t p.1 p.2 = none) → macBlock t sub acc x y = 0x7FC00000) ∧
      ((∀ p ∈ pairs, productVal t p.1 p.2 ≠ none) → ∀ n, (∃ p ∈ pairs, productVal t p.1 p.2 = some (.inf n)) →
        ((∃ p ∈ pairs, productVal t p.1 p.2 = some (.inf !n)) → macBlock t sub acc x y = 0x7FC00000) ∧
        ((∀ p ∈ pairs, productVal t p.1 p.2 ≠ some (.inf !n)) → nanP f acc = false →
          macBlock t sub acc x y = if infP f acc = true ∧ negP f acc ≠ (n != sub) then 0x7FC00000
            else (if n != sub then f.signBit else 0) + f.inf)) ∧
      (∀ (v : List (Bool × Nat × Int)) (e0 e d : Int) (n : Bool) (m : Nat),
        pairs.map (fun p => productVal t p.1 p.2) = v.map (fun p => some (.fin p.1 p.2.1 p.2.2)) → (∀ p ∈ v, e0 ≤ p.2.2) →
        Num.unpack f acc = .fin n m d →
        let S := (v.map (fun p => int p.1 p.2.1 * 2 ^ (p.2.2 - e0).toNat)).sum
        let T := if sub then -S else S
        e = min (e0 + scaleOf x.1 + scaleOf y.1) d →
        macBlock t sub acc x y = if S = 0 then acc else
          (Num.roundInt f .rne false (T * 2 ^ (e0 + scaleOf x.1 + scaleOf y.1 - e).toNat + int n m * 2 ^ (d - e).toNat) e).1))

/-! ### Copies, gather, streams -/

namespace Sys2Proof.Claims

open Sys2Proof.Machine

/-- A core's TLB holds the translations of n addresses of a launch, in pages of at least 64 KiB (R419, R421), so that no
page table is read for them. -/
def ResidentOn (s : State) (core launch : Nat) (va : Word) (n : Nat) : Prop :=
  ∀ i < n, let a := (va + BitVec.ofNat 64 i).toNat
    a / 2 ^ 32 = 0xFFFFFF00 ∨ ∃ e, (s.coreAt core).tlb.find? (fun e =>
      e.launch == launch && a / 2 ^ e.bits == e.base / 2 ^ e.bits) = some e ∧ 16 ≤ e.bits ∧ e.base % 2 ^ e.bits = 0

/-- The same for the issuing slot's task. -/
def Resident (s : State) (va : Word) (n : Nat) : Prop := ResidentOn s (s.cur / 2) s.slot.rid.launch va n

/-- Where the n bytes from an address lie, for an end of a command: in one window for their whole length, or in global
memory, every byte translated and its translation at hand (R215, R243). -/
def Span (s : State) (va : Word) (n : Nat) (k : Access) (at_ : Nat → Loc) : Prop :=
  (∀ i < n, InRange (at_ i) 1) ∧
  ((∃ c o p, s.window s.cur va n k = .ok (some (c, o, p)) ∧ ∀ i < n, at_ i = .scr c (o + i)) ∨
   (va.toNat + n ≤ 2 ^ 64 ∧ va.toNat / 2 ^ 32 ≠ 0xFFFFFF00 ∧ (va.toNat + n - 1) / 2 ^ 32 ≠ 0xFFFFFF00 ∧ Resident s va n ∧
    ∀ i < n, ∃ pa, s.translate (s.cur / 2) s.slot.rid.launch (va + BitVec.ofNat 64 i) k = .ok pa ∧ at_ i = .glob pa))

/-- A command runs to its end in the step that issues it: nothing in flight, a plain task, no other command. -/
def CopyReady (s : State) : Prop := Calm s ∧ Settled s ∧ s.copies = []

/-- The bytes `f` stand at n locations, where two of these are the same the later one's; every other byte but those of
`also` reads as before. -/
def Copied (s u : State) (n : Nat) (at_ : Nat → Loc) (f : Nat → Byte) (also : Loc → Prop) : Prop :=
  (∀ i < n, (∀ j < n, i < j → at_ j ≠ at_ i) → u.readLoc (at_ i) = f i) ∧
  ∀ q, InRange q 1 → ¬also q → (∀ i < n, at_ i ≠ q) → u.readLoc q = s.readLoc q

/-- No location of the first range lies in the second. -/
def Clear (n : Nat) (x : Nat → Loc) (m : Nat) (y : Nat → Loc) : Prop := ∀ i < n, ∀ j < m, x i ≠ y j

/-- No source byte is poisoned, and the destination bytes are distinct: blocks written whole (those `whole` from an
address) have the descriptor `d`. -/
def Described (s u : State) (va : Word) (n : Nat) (dst : Nat → Loc) (m : Nat) (src : Nat → Loc) (d : Nat → BitVec 16) : Prop :=
  (∀ i < m, State.isPoison (s.descAt (src i)) = false) → (∀ i < n, ∀ j < n, dst i = dst j → i = j) →
  ∀ o, o + 64 ≤ n → (va.toNat + o) % 64 = 0 → u.descAt (dst o) = d o

/-- The bytes of an element of w bytes at a location; a zero block's are zeros (R412). -/
def elementByte (s : State) (l : Loc) (k : Nat) : Byte :=
  if State.isZeroBlock (s.descAt l) then 0 else s.readLoc (State.locAdd l k)

/-- Signed index i of an index list of w-byte entries at locations `at_` (R412). -/
def indexAt (s : State) (at_ : Nat → Loc) (w i : Nat) : Int :=
  let x := leNat ((List.range w).map (fun k => elementByte s (at_ (w * i)) k))
  if x < 2 ^ (8 * w - 1) then (x : Int) else (x : Int) - 2 ^ (8 * w)

/-- An element at an unbounded address, in one block of global memory (R411). -/
def ElementAt (s : State) (va : Int) (w : Nat) (k : Access) (l : Loc) : Prop :=
  0 ≤ va ∧ va < 2 ^ 64 ∧ Resident s (BitVec.ofInt 64 va) w ∧ ∃ pa, s.translate (s.cur / 2) s.slot.rid.launch (BitVec.ofInt 64 va) k = .ok pa ∧ pa + w ≤ 2 ^ 52 ∧
    l = .glob pa

/-- Location of byte k of element i of a packed range. -/
def spread (w : Nat) (at_ : Nat → Loc) (i : Nat) : Loc := State.locAdd (at_ (i / w)) (i % w)

/-- The value of flag j of a stream, both of whose tags are full (R416). -/
def FlagIs (s : State) (core ring j v : Nat) : Prop :=
  (∀ k < 2, tagOf s core (ring + 8 * j) k = true) ∧ leNat (s.readLocs (.scr core (ring + 8 * j)) 8) = v

/-- The blocks of tile t lie where a task of a launch on a core may load or store them, each a block of global memory
(R415). -/
def TileOn (s : State) (core launch : Nat) (x : Stream) (t : Nat) (at_ : Nat → Nat) : Prop :=
  ∀ o < x.rows * x.rowbytes, o % 64 = 0 → at_ o % 64 = 0 ∧ at_ o + 64 ≤ 2 ^ 52 ∧
    (let va := x.base + BitVec.ofNat 64 t * x.tilestride + BitVec.ofNat 64 (o / x.rowbytes) * x.rowstride +
       BitVec.ofNat 64 (o % x.rowbytes)
     ResidentOn s core launch va 1 ∧ s.translate core launch va (if x.out then .store else .load) = .ok (at_ o))

/-- The same for the issuing slot's task. -/
def TileAt (s : State) (x : Stream) (t : Nat) (at_ : Nat → Nat) : Prop := TileOn s (s.cur / 2) s.slot.rid.launch x t at_

end Sys2Proof.Claims

/-- R242 to R244: the five byte copies of a plain task, source and destination apart, as they leave memory when they have
run to their end, and the count of a barrier. -/
def Sys2Proof.Claims.ByteCopies : Prop :=
  ∀ (s : State) (a b c d : GReg) (dnu snu : NuCode) (n : Nat) (D S : Nat → Loc), CopyReady s →
    let A := s.g a.val
    let B := s.g b.val
    let none_ (_ : Loc) : Prop := False
    (A.toNat % 4 ≠ 0 → ∀ r q, ∀ i ∈ [Instr.cp a b c d dnu snu, .cp2d a b c d r q dnu snu, .cpl a b c d dnu, .cpc a b c d dnu snu],
      exec i s = .next (s.trap 3 A)) ∧
    (n = (s.g c.val).toNat % 2 ^ 32 → A.toNat % 4 = 0 → n % 4 = 0 → Span s A n .store D →
      (d.val = 0 → ∃ u : State, exec (.cpl a b c d dnu) s = .next u.retire ∧ u.slot = s.slot ∧ u.tags = s.tags ∧
        Copied s u n D (fun i => BitVec.ofNat 8 (B.toNat / 2 ^ (8 * ((A.toNat + i) % 8)))) none_ ∧
        Described s u A n D 0 D (fun _ => 0)) ∧
      (B.toNat % 4 = 0 → Span s B n .load S → Clear n D n S →
        (d.val = 0 → ∀ i ∈ [Instr.cp a b c d dnu snu, .cpc a b c d dnu snu], ∃ u : State, exec i s = .next u.retire ∧ u.slot = s.slot ∧
          u.tags = s.tags ∧ Copied s u n D (fun i => s.readLoc (S i)) none_ ∧
          Described s u A n D n S (fun o => if (B.toNat + o) % 64 = 0 then s.descAt (S o) else s.descAt (D o)) ∧
          (i = .cpc a b c d dnu snu → ∀ k < n, ∀ pa, D k = .glob pa → State.deviceOf pa = s.dev → Memory.read u.mem pa = u.peek pa)) ∧
        (d.val = 0 → A.toNat % 64 = 0 → B.toNat % 64 = 0 → n % 64 = 0 → ∀ desc : BitVec 16, ∃ u : State,
          exec (.cps a b c d desc dnu snu) s = .next u.retire ∧ u.slot = s.slot ∧ u.tags = s.tags ∧
          Copied s u n D (fun i => s.readLoc (S i)) none_ ∧ Described s u A n D n S (fun _ => desc)) ∧
        (∀ bc bo p, d.val ≠ 0 → (s.g d.val).toNat % 8 = 0 → (s.g d.val).toNat / 2 ^ 32 = 0xFFFFFF00 →
          (s.g d.val).toNat % 2 ^ 32 < 0x40000 → s.window s.cur (s.g d.val) 8 .store = .ok (some (bc, bo, p)) →
          InRange (.scr bc bo) 8 → NoWaiter s bc bo 8 → (∀ i < n, ∀ k < 8, D i ≠ .scr bc (bo + k) ∧ S i ≠ .scr bc (bo + k)) →
          let v := leNat (s.readLocs (.scr bc bo) 8)
          n ≤ v → v < 2 ^ 63 → n ≠ 0 → ∃ u : State, exec (.cp a b c d dnu snu) s = .next u.retire ∧ u.slot = s.slot ∧
            Copied s u n D (fun i => s.readLoc (S i)) (fun q => ∃ k < 8, q = .scr bc (bo + k)) ∧
            leNat (u.readLocs (.scr bc bo) 8) = v - n ∧
            (v = n → Tagged s u bc bo 8 true) ∧ (v ≠ n → u.tags = s.tags)))) ∧
    (∀ (rows1 rowq1 : BitVec 16) (DR SR : Nat → Nat → Loc),
      let m := 4 * (rowq1.toNat + 1)
      let dst := ((s.g c.val).setWidth 32).signExtend 64
      let src := ((s.g c.val >>> 32).setWidth 32).signExtend 64
      d.val = 0 → A.toNat % 4 = 0 → B.toNat % 4 = 0 → dst.toNat % 4 = 0 → src.toNat % 4 = 0 →
      (∀ r ≤ rows1.toNat, Span s (A + BitVec.ofNat 64 r * dst) m .store (DR r) ∧ Span s (B + BitVec.ofNat 64 r * src) m .load (SR r)) →
      (∀ r ≤ rows1.toNat, ∀ q ≤ rows1.toNat, Clear m (DR r) m (SR q)) →
      ∃ u : State, exec (.cp2d a b c d rows1 rowq1 dnu snu) s = .next u.retire ∧ u.slot = s.slot ∧ u.tags = s.tags ∧
        Copied s u ((rows1.toNat + 1) * m) (fun i => DR (i / m) (i % m)) (fun i => s.readLoc (SR (i / m) (i % m))) none_)

/-- R410 to R412: gather, scatter and compaction of a plain task, without a barrier, as they leave memory. -/
def Sys2Proof.Claims.GatherAndScatter : Prop :=
  ∀ (s : State) (ty : Ty) (a b c d : GReg) (n1 : BitVec 12) (ix : Bool) (dnu snu : NuCode) (P Q I : Nat → Loc), CopyReady s →
    let A := s.g a.val
    let B := s.g b.val
    let C := s.g c.val
    let n := n1.toNat + 1
    let w := ty.width / 8
    let iw := if ix then 8 else 4
    let index (i : Nat) : Int := indexAt s I iw i
    let none_ (_ : Loc) : Prop := False
    d.val = 0 → ty.isInt = true ∨ ty.isFloat = true → 8 ≤ ty.width → A.toNat % w = 0 → B.toNat % w = 0 →
    (C.toNat % iw = 0 → Span s C (n * iw) .load I →
      (∀ E : Nat → Loc, Span s A (n * w) .store P → B.toNat / 2 ^ 32 ≠ 0xFFFFFF00 → Resident s B 1 → (s.translate (s.cur / 2) s.slot.rid.launch B .load).isOk = true →
        (∀ i < n, ElementAt s (B.toNat + index i * w) w .load (E i) ∧ State.isPoison (s.descAt (E i)) = false) →
        Clear (n * w) P (n * iw) I → Clear (n * w) P (n * w) (spread w E) →
        ∃ u : State, exec (.gth ty a b c d n1 ix dnu snu) s = .next u.retire ∧ u.slot = s.slot ∧ u.tags = s.tags ∧
          Copied s u (n * w) P (fun i => elementByte s (E (i / w)) (i % w)) none_ ∧
          Described s u A (n * w) P (n * w) (spread w E) (fun _ => descFor ty)) ∧
      (∀ E : Nat → Loc, Span s B (n * w) .load Q → A.toNat / 2 ^ 32 ≠ 0xFFFFFF00 → Resident s A 1 → (s.translate (s.cur / 2) s.slot.rid.launch A .store).isOk = true →
        (∀ i < n, ElementAt s (A.toNat + index i * w) w .store (E i)) →
        ∃ u : State, exec (.sct ty a b c d n1 ix dnu snu) s = .next u.retire ∧ u.slot = s.slot ∧ u.tags = s.tags ∧
          Copied s u (n * w) (spread w E) (fun i => elementByte s (Q (i / w * w)) (i % w)) none_)) ∧
    (∀ (N : Nat → Loc) (K : List Nat), C.toNat % 8 = 0 → Span s A (n * w) .store P → Span s B (n * w) .load Q →
      Span s C (if ix then 8 + 4 * n else 8) .store N → Clear (n * w) P (if ix then 8 + 4 * n else 8) N →
      K = (List.range n).filter (fun i => (List.range w).any (fun k => elementByte s (Q (i * w)) k != 0)) →
      ∃ u : State, exec (.cmpx ty a b c d n1 ix dnu snu) s = .next u.retire ∧ u.slot = s.slot ∧ u.tags = s.tags ∧
        (∀ j x, K[j]? = some x → (∀ k < w, (∀ h < K.length * w, w * j + k < h → P h ≠ P (w * j + k)) →
            u.readLoc (P (w * j + k)) = elementByte s (Q (x * w)) k) ∧
          (ix = true → (∀ h k, h < 8 + 4 * n → k < 8 + 4 * n → N h = N k → h = k) → ∀ k < 4, u.readLoc (N (8 + 4 * j + k)) = BitVec.ofNat 8 (x / 2 ^ (8 * k)))) ∧
        ((∀ h k, h < 8 → k < 8 → N h = N k → h = k) → ∀ k < 8, u.readLoc (N k) = BitVec.ofNat 8 (K.length / 2 ^ (8 * k))) ∧
        ∀ q, InRange q 1 → (∀ i < n * w, P i ≠ q) → (∀ i < (if ix then 8 + 4 * n else 8), N i ≠ q) → u.readLoc q = s.readLoc q)

/-- R415 to R417: a stream's descriptor, its start, and the release of a slot, of a plain task. -/
def Obligations.TileStreams : Prop :=
  ∀ (s : State) (a b c : GReg), Calm s → Settled s → s.waiters = [] → s.slot.run = .running →
    let core := s.cur / 2
    let own := s.slot.head.scratch.toNat
    let R := s.g b.val
    let key (id : Nat) : Nat := core * 8 + id
    let slotAt (x : Stream) (j : Nat) : Nat := x.ring + 128 + j * (x.rows * x.rowbytes)
    let none_ : Nat := 2 ^ 64 - 1
    let holds (u : State) (x : Stream) (j : Nat) (at_ : Nat → Nat) : Prop := ∀ o < x.rows * x.rowbytes, o % 64 = 0 →
      u.descAt (.scr core (slotAt x j + o)) = s.descAt (.glob (at_ o)) ∧
      ∀ k < 64, u.readLoc (.scr core (slotAt x j + o + k)) = s.readLoc (.glob (at_ o + k))
    (∀ (L : Nat → Loc) (bs : List Byte) (y : Stream) (id : Nat) (out : Bool),
      R.toNat % 64 = 0 → (s.g c.val).toNat % 8 = 0 → Resident s (s.g c.val) 1 →
      (∀ i < 8, s.locate s.cur (s.g c.val + BitVec.ofNat 64 (8 * i)) 8 .load = .ok (L i) ∧ InRange (L i) 8 ∧
        State.isPoison (s.descAt (L i)) = false) →
      bs = (List.range 64).map (fun k => s.readLoc (State.locAdd (L (k / 8)) (k % 8))) → readStream bs = some y →
      let x : Stream := { y with out := out, core := core, ring := own % 2 ^ 16 * 4096 + R.toNat % 2 ^ 32 }
      let n := min x.slots x.count
      R.toNat / 2 ^ 32 = 0xFFFFFF00 → R.toNat % 2 ^ 32 + (128 + x.slots * (x.rows * x.rowbytes)) ≤ own / 2 ^ 16 * 1024 →
      own % 2 ^ 16 * 4096 + own / 2 ^ 16 * 1024 ≤ 0x40000 →
      (s.translate core s.slot.rid.launch x.base (if out then .store else .load)).isOk = true →
      id < 8 → Store.find? s.streams (key id) = none → (∀ j < id, (Store.find? s.streams (key j)).isSome = true) →
      (∀ at_ : Nat → Nat → Nat, (∀ t < n, TileAt s x t (at_ t)) → out = false →
        ∃ u : State, exec (.tsubLd a b c) s = .next u.retire ∧ u.slot = s.slot.setG a.val (BitVec.ofNat 64 id) ∧
          ∀ j < x.slots, (j < n → FlagIs u core x.ring j j ∧ holds u x j (at_ j)) ∧ (n ≤ j → FlagIs u core x.ring j none_)) ∧
      (out = true → ∃ u : State, exec (.tsubSt a b c) s = .next u.retire ∧ u.slot = s.slot.setG a.val (BitVec.ofNat 64 id) ∧
          ∀ j < x.slots, FlagIs u core x.ring j (if j < n then j else none_))) ∧
    (∀ (x : Stream) (id j v : Nat), (s.g b.val).toNat = id → (s.g c.val).toNat = j → id < 8 →
      Store.find? s.streams (key id) = some x → x.rid = s.slot.rid → x.core = core → x.todo = [] → x.fault = none →
      x.slots ≤ 16 → x.ring + (128 + x.slots * (x.rows * x.rowbytes)) ≤ 0x40000 → x.ring % 64 = 0 → x.rowbytes % 64 = 0 →
      (j ≥ x.slots ∨ ¬(∀ k < 2, tagOf s core (x.ring + 8 * j) k = true) → exec (.trel b c) s = .next (s.trap 7 (s.g c.val))) ∧
      (j < x.slots → FlagIs s core x.ring j v →
        let more : Prop := v + x.slots < x.count
        (v = none_ ∨ (x.out = false ∧ ¬more) → ∃ u : State, exec (.trel b c) s = .next u.retire ∧ u.slot = s.slot ∧
          FlagIs u core x.ring j none_) ∧
        (∀ at_ : Nat → Nat, x.out = false → v ≠ none_ → more → v % x.slots = j → TileAt s x (v + x.slots) at_ →
          ∃ u : State, exec (.trel b c) s = .next u.retire ∧ u.slot = s.slot ∧ FlagIs u core x.ring j (v + x.slots) ∧ holds u x j at_) ∧
        (∀ at_ : Nat → Nat, x.out = true → v ≠ none_ → v % x.slots = j → TileAt s x v at_ →
          ∃ u : State, exec (.trel b c) s = .next u.retire ∧ u.slot = s.slot ∧
            FlagIs u core x.ring j (if v + x.slots < x.count then v + x.slots else none_) ∧
            ∀ o < x.rows * x.rowbytes, o % 64 = 0 → (∀ h < x.rows * x.rowbytes, o < h → h % 64 = 0 → at_ h ≠ at_ o) →
              u.descAt (.glob (at_ o)) = s.descAt (.scr core (slotAt x j + o)) ∧
              ∀ k < 64, u.readLoc (.glob (at_ o + k)) = s.readLoc (.scr core (slotAt x j + o + k))))) ∧
    ((∀ id < 8, Store.find? s.streams (key id) ≠ none → (s.g b.val).toNat ≠ id) → exec (.trel b c) s = .next (s.trap 7 (s.g c.val))) ∧
    ∀ (f : Nat → Nat → Nat) (bs : List Byte), bs.length = 64 → f = (fun o n => leNat ((bs.drop o).take n)) →
      ((readStream bs).isSome = true ↔ f 0 8 % 64 = 0 ∧ f 0 8 / 2 ^ 32 ≠ 0xFFFFFF00 ∧ 64 ≤ f 8 4 ∧ f 8 4 ≤ 32768 ∧ f 8 4 % 64 = 0 ∧
        1 ≤ f 12 4 ∧ f 12 4 ≤ 4096 ∧ f 16 8 % 64 = 0 ∧ f 24 8 % 64 = 0 ∧ 1 ≤ f 32 4 ∧ 2 ≤ f 36 1 ∧ f 36 1 ≤ 16 ∧ f 37 1 < 64 ∧ f 38 26 = 0) ∧
      ∀ x, readStream bs = some x → x.base.toNat = f 0 8 ∧ x.rowbytes = f 8 4 ∧ x.rows = f 12 4 ∧ x.rowstride.toNat = f 16 8 ∧
        x.tilestride.toNat = f 24 8 ∧ x.count = f 32 4 ∧ x.slots = f 36 1 ∧ x.nu = f 37 1

/-! ### Larkspur -/

namespace Sys2Proof.Claims

open Sys2Proof.Machine

/-- Larkspur of the issuing slot's cluster. -/
def larkOf (s : State) : Lark := (s.clusterAt (s.cur / 16)).lark

/-- An integer value of a sign and a magnitude. -/
def signed (n : Bool) (m : Nat) : Int := if n then -(m : Int) else m

/-- The cluster-engine port is free, the task runs, and nothing is left in flight (R102, R308). -/
def PortFree (s : State) : Prop := s.lag = false ∧ s.flight = [] ∧ s.slot.pq = [] ∧ s.slot.run = .running

/-- A plain task while the run state is stopped, with no timestamped work on the module (R309). -/
def Stopped (s : State) : Prop :=
  PortFree s ∧ s.slot.head.spec = false ∧ s.slot.head.kind ≠ 2 ∧ (larkOf s).run = 0 ∧ s.allEntries = [] ∧
  (s.clusterAt (s.cur / 16)).entries = [] ∧ (larkOf s).versions = []

/-- An irrevocable timestamped task of a phase, the only one of the module (R336). -/
def Firm (s : State) (e : Entry) (phase : Nat) : Prop :=
  PortFree s ∧ s.slot.head.spec = false ∧ s.slot.head.kind = 2 ∧ s.slot.head.phase = phase ∧ s.entryOf s.cur = some e ∧
  e.firm = true ∧ e.head = s.slot.head ∧ s.allEntries = [(s.cur / 16, e)] ∧ (s.clusterAt (s.cur / 16)).entries = [e] ∧
  (larkOf s).versions = []

/-- The id names variable v of the issuing cluster, which is defined and not poisoned (R292). -/
def Names (s : State) (id : Word) (v : Nat) : Prop :=
  id.toNat = (s.dev * 1024 + s.cur / 16) * 2 ^ 14 + v ∧ v < 2 ^ 14 ∧ s.dev < 576 ∧ s.cur / 16 < 768 ∧
  ((larkOf s).var v).defined = true ∧ ((larkOf s).var v).poison = false

/-- Variable v has become y, and every other record of the cluster is as before. -/
def BecameVar (s u : State) (v : Nat) (y : Var) : Prop :=
  (larkOf u).var v = y ∧ ∀ k, k ≠ v → (larkOf u).var k = (larkOf s).var k

/-- The record with a field set as `qset` sets it (R314). -/
def withField (x : Var) (sel : Nat) (w : Word) : Var :=
  match sel with
  | 0 => { x with q := w }
  | 1 => { x with x := w }
  | 2 => { x with d1 := w }
  | 3 => { x with d2 := w }
  | 6 => { x with dq := w.setWidth 32 }
  | 7 => { x with dtmin := w.setWidth 32 }
  | 8 => { x with fn := w.setWidth 16 }
  | 9 => { x with mf := (x.mf &&& 0xFFF0#16) ||| (w.setWidth 16 &&& 0xF#16) }
  | _ => { x with dep := w.setWidth 32 }

/-- A field of a record, at a task that acts at tx (R313). -/
def fieldAt (x : Var) (sel : Nat) : Word :=
  match sel with
  | 0 | 12 => x.q
  | 1 | 11 => x.x
  | 2 => x.d1
  | 3 => x.d2
  | 4 => x.tx
  | 5 => x.tn
  | 6 => x.dq.setWidth 64
  | 7 => x.dtmin.setWidth 64
  | 8 => x.fn.setWidth 64
  | 9 => x.mf.setWidth 64
  | _ => x.dep.setWidth 64

/-- A head that an event may start from (R86, R300). -/
def eventHead (s : State) (a : Word) : Prop :=
  ∃ pa, s.translate (s.cur / 16 * 8) s.slot.rid.launch a .load = .ok pa ∧
    (let h := Head.ofBytes ((s.settleRange pa 64).peekBytes pa 64)
     placeable h [2] = true ∧ h.live = 0 ∧ h.flags.toNat / 2 ^ 12 % 8 = 0)

/-- A value that `qset` takes for a field (R312, R314). -/
def fieldGood (s : State) (sel : Nat) (w : Word) : Prop :=
  match sel with
  | 6 => 0x00800000 ≤ w.toNat % 2 ^ 32 ∧ w.toNat % 2 ^ 32 < 0x7F800000
  | 7 => 1 ≤ w.toNat ∧ w.toNat < 2 ^ 32
  | 8 => w.toNat < 65536 ∧ eventHead s ((larkOf s).table + BitVec.ofNat 64 (64 * w.toNat))
  | 9 => w.toNat ≤ 2
  | 10 => w.toNat < 2 ^ 32
  | _ => True

/-- The crossings that may be released next (R301), where no version stands: time and index. -/
def openCrossings (l : Lark) : List Nat :=
  (l.vars.filter (fun e => e.2.defined && (l.var e.1).tn != BitVec.allOnes 64 && !(l.var e.1).rel)).map (fun e => (l.var e.1).tn.toNat)

end Sys2Proof.Claims

/-- R294 to R296: values at a time, the crossing, and the time of the next one, for finite and other values. -/
def Obligations.NextCrossings : Prop :=
  ∀ (v : Var) (h : Word) (t : Nat) (nq nx n1 n2 nd : Bool) (q x d1 d2 dq sh : Nat) (eq ex e1 e2 ed eh : Int),
    let f := Num.f64
    let y := Var.next h v
    let lo := max v.dtmin.toNat 1
    let u := Num.unpack f v.q.toNat
    let fin (w : Word) : Prop := ∀ b, Num.unpack f w.toNat ≠ .inf b ∧ Num.unpack f w.toNat ≠ .nan b
    (v.xAt h v.tx.toNat = v.x ∧ v.qAt h v.tx.toNat = v.q ∧ (v.method ≠ 1 → v.qAt h t = v.q)) ∧
    (y.q = v.q ∧ y.x = v.x ∧ y.d1 = v.d1 ∧ y.d2 = v.d2 ∧ y.tx = v.tx ∧ y.dq = v.dq ∧ y.dtmin = v.dtmin ∧ y.fn = v.fn ∧
      y.dep = v.dep ∧ y.method = v.method ∧ y.defined = v.defined ∧ y.rel = false) ∧
    (¬(fin v.q ∧ fin v.x ∧ fin v.d1 ∧ (v.method ≠ 0 → fin v.d2)) → y.nan = true ∧ y.tn = BitVec.allOnes 64) ∧
    (u = .fin nq q eq → Num.unpack f v.x.toNat = .fin nx x ex → Num.unpack f v.d1.toNat = .fin n1 d1 e1 →
      (v.method ≠ 0 → Num.unpack f v.d2.toNat = .fin n2 d2 e2) → Num.unpack f h.toNat = .fin false sh eh →
      Num.unpack Num.f32 v.dq.toNat = .fin nd dq ed →
      ((if v.method = 1 then d2 = 0 else d1 = 0) → y.tn = BitVec.allOnes 64 ∧ y.storm = 0 ∧ y.nan = false) ∧
      (∀ dt m (e : Int) k, v.crossTime (signed nq q, eq) (signed nx x, ex) (signed n1 d1, e1)
            (if v.method = 0 then ((0, 0) : Dy) else (signed n2 d2, e2)) (signed nd dq, ed) = some dt →
        Num.unpack f dt = .fin false m e → 0 < sh →
        m * 2 ^ (e - min e eh).toNat ≤ k * (sh * 2 ^ (eh - min e eh).toNat) →
        (∀ j, m * 2 ^ (e - min e eh).toNat ≤ j * (sh * 2 ^ (eh - min e eh).toNat) → k ≤ j) →
        let storms := if k < lo then v.storm + 1 else 0
        y.nan = false ∧ (storms = 255 → y.isHeld = true ∧ y.tn = BitVec.allOnes 64) ∧
        (storms < 255 → y.storm = storms ∧ y.tn.toNat = min (v.tx.toNat + max k lo) (2 ^ 64 - 1))) ∧
      (v.method = 0 → d1 ≠ 0 → ∃ dt, v.crossTime (signed nq q, eq) (signed nx x, ex) (signed n1 d1, e1) (0, 0) (signed nd dq, ed) = some dt ∧
        (let e := min ed (min eq ex)
         let g := signed nq q * 2 ^ (eq - e).toNat + (if n1 then -1 else 1) * signed nd dq * 2 ^ (ed - e).toNat - signed nx x * 2 ^ (ex - e).toNat
         dt = Dy.div64 .rup (g, e) (signed n1 d1, e1))) ∧
      (v.method = 0 → v.tx.toNat < t → t < 2 ^ 64 → ∀ e, e = min ex (e1 + eh) →
        (v.xAt h t).toNat = (Num.roundInt f .rne false (signed nx x * 2 ^ (ex - e).toNat +
          signed n1 d1 * (t - v.tx.toNat) * sh * 2 ^ (e1 + eh - e).toNat) e).1)) ∧
    (v.method ≠ 2 → v.cross h t = Var.next h { v with q := v.xAt h t, x := v.xAt h t, tx := BitVec.ofNat 64 t })

/-- R309 to R318: the Larkspur instructions of a plain task while the run state is stopped. -/
def Sys2Proof.Claims.LarkspurStopped : Prop :=
  ∀ (s : State) (a b c d : GReg), Stopped s →
    let L := larkOf s
    let B := s.g b.val
    let C := s.g c.val
    let D := s.g d.val
    let ill (i : Instr) : Prop := exec i s = .next (s.trap 1 (State.illegalTval 6 s.wordHere))
    let sets (i : Instr) (f : Lark → Lark) (x : Slot) : Prop :=
      exec i s = .next (changed s (fun k => { k with lark := f k.lark }) (fun _ => x)).retire
    -- qbase
    (¬(0x0010000000000000 ≤ B.toNat ∧ B.toNat < 0x7FF0000000000000) → exec (.qbase b c d) s = .next (s.trap 7 B)) ∧
    (0x0010000000000000 ≤ B.toNat → B.toNat < 0x7FF0000000000000 →
      (C.toNat % 64 ≠ 0 → exec (.qbase b c d) s = .next (s.trap 3 C)) ∧
      (C.toNat % 64 = 0 → D.toNat % 64 ≠ 0 → exec (.qbase b c d) s = .next (s.trap 3 D)) ∧
      (C.toNat % 64 = 0 → D.toNat % 64 = 0 → (s.translate (s.cur / 2) s.slot.rid.launch D .load).isOk = true →
        (eventHead s D → sets (.qbase b c d) (fun l => { l with h := some B, table := C, tmpl := D, launch := s.slot.rid.launch }) s.slot) ∧
        (¬eventHead s D → exec (.qbase b c d) s = .next (s.trap 18 D)))) ∧
    -- qdeps
    (B.toNat % 4 = 0 → C.toNat % 8 = 0 →
      sets (.qdeps b c d) (fun l => { l with deps := some (B, C, D.toNat % 2 ^ 32, D.toNat / 2 ^ 32) }) s.slot) ∧
    -- without a tick length
    (L.h = none → ∀ (n : BitVec 15) (sel : Fin 4), ∀ i ∈ [Instr.qdef a b c n, .qset 0 b c, .qslope b c d, .qcross b, .qstorm sel b c,
      .qsnap b c n, .qget 11 a b, .qget 12 a b, .qrun b c d], ill i) ∧
    (∀ h, L.h = some h →
      -- qdef
      (∀ (n : BitVec 15) (l : Nat → Loc) (r : Nat → Var), Settled s → B.toNat % 64 = 0 → 1 ≤ n.toNat → C.toNat + n.toNat ≤ 16384 →
        (∀ e ∈ s.copies, e.2.scored = false) →
        (∀ i < n.toNat, s.locate s.cur (B + BitVec.ofNat 64 (64 * i)) 64 .load = .ok (l i) ∧ State.isPoison (s.descAt (l i)) = false ∧
          r i = Var.ofBytes (seen s false (l i) 64) ∧ (r i).method ≤ 2 ∧ (r i).dtmin ≠ 0 ∧
          fieldGood s 6 ((r i).dq.setWidth 64) ∧ fieldGood s 8 ((r i).fn.setWidth 64)) →
        ∃ u : State, exec (.qdef a b c n) s = .next u.retire ∧ u.slot = s.slot.setG a.val (n.setWidth 64) ∧
          (∀ i < n.toNat, (larkOf u).var (C.toNat + i) = Var.next h { r i with mf := ((r i).mf &&& 0xF#16) ||| 0x10#16 }) ∧
          ∀ k, (k < C.toNat ∨ C.toNat + n.toNat ≤ k) → (larkOf u).var k = L.var k) ∧
      -- one variable
      (∀ v, Names s B v →
        let x := L.var v
        let storm : Prop := ∃ t : State, larkOf t = { L with stat := Store.set L.stat 6 (Store.get 0 L.stat 6 + 1) } ∧
          t.slot = s.slot ∧ ∀ i, (i = .qslope b c d ∨ ∃ sel : Fin 13, i = .qset sel b c ∧ sel.val ∉ [4, 5, 11, 12]) →
            exec i s = .next (t.trap 12 (BitVec.ofNat 64 (255 * 2 ^ 40 + B.toNat)))
        let writes (i : Instr) (seals : Bool) (y : Var) : Prop := ∃ u : State, exec i s = .next u.retire ∧ BecameVar s u v (Var.next h y) ∧
          u.slot = sealedIf s.slot seals
        (∀ sel : Fin 13, exec (.qget sel a b) s = .next (s.setG a.val (fieldAt x sel.val)).retire) ∧
        (x.isHeld = true → storm) ∧
        (x.isHeld = false →
          (∀ sel : Fin 13, sel.val ∉ [4, 5, 11, 12] →
            (fieldGood s sel.val C → writes (.qset sel b c) true (withField x sel.val C)) ∧
            (¬fieldGood s sel.val C → exec (.qset sel b c) s = .next (s.trap 7 C))) ∧
          writes (.qslope b c d) false { x with d1 := C, d2 := if d.val = 0 then x.d2 else D }) ∧
        (∀ sel : Fin 4, let k := if sel.val = 1 then 6 else if sel.val = 2 then 9 else 7
          (sel.val = 0 → writes (.qstorm sel b c) true { x with mf := x.mf &&& 0x3F#16 }) ∧
          (sel.val ≠ 0 → fieldGood s k C → writes (.qstorm sel b c) true (let y := withField x k C; { y with mf := y.mf &&& 0x3F#16 })))) ∧
      -- runs
      (L.deps = none → ill (.qrun b c d)) ∧
      (L.deps.isSome = true → d.val = 0 → sets (.qrun b c d) (fun l => { l with
        run := 1, halt := 0, end_ := B, window := C, join := none, arrived := false, stat := [], launch := s.slot.rid.launch }) (sealedIf s.slot true)) ∧
      (L.deps.isSome = true → d.val ≠ 0 → Settled s → ∀ pa, CellAt s D pa → ∃ u : State, exec (.qrun b c d) s = .next u.retire ∧
        larkOf u = { L with run := 1, halt := 0, end_ := B, window := C, join := some D, arrived := false, stat := [], launch := s.slot.rid.launch } ∧
        u.slot = sealedIf s.slot true ∧ Became s u pa (cellUp (wordAt s pa 8)))) ∧
    -- queries
    (∀ x : Nat, ((∀ t ∈ openCrossings L, x ≤ t) ∧ (x ∈ openCrossings L ∨ (openCrossings L = [] ∧ x = 2 ^ 64 - 1))) →
      exec (.qnext a) s = .next (s.setG a.val (BitVec.ofNat 64 x)).retire) ∧
    exec (.qstop a) s = .next (s.upd (fun x => sealedIf (x.setG a.val 0) true)).retire ∧
    exec (.qstat a 0) s = .next (s.setG a.val (BitVec.ofNat 64 (L.halt * 256))).retire ∧
    (∀ sel : Fin 8, 1 ≤ sel.val → sel.val ≤ 6 → exec (.qstat a sel) s = .next (s.setG a.val (Store.get 0 L.stat sel.val)).retire)

/-- R304, R307, R309, R315, R317: an irrevocable timestamped task crosses a variable, whose new record is a version of its
until it commits; it writes a snapshot, of records no later than its time; it stops a run. A task of another phase may do neither. -/
def Sys2Proof.Claims.LarkspurTimed : Prop :=
  ∀ (s : State) (e : Entry) (phase : Nat) (a b c : GReg) (n : BitVec 15), Firm s e phase →
    let L := larkOf s
    let t := s.slot.head.key.toNat
    let ill (i : Instr) : Prop := exec i s = .next (s.trap 1 (State.illegalTval 6 s.wordHere))
    (phase ≠ 0 → ill (.qcross b)) ∧ (phase ≠ 2 → ill (.qsnap b c n)) ∧
    (∀ h, L.h = some h →
      (∀ v row, phase = 0 → Names s (s.g b.val) v →
        let x := L.var v
        let y := x.cross h t
        (t < x.tx.toNat → exec (.qcross b) s = .next (s.trap 7 (s.g b.val))) ∧
        (x.tx.toNat ≤ t → x.isHeld = false → y.isHeld = false → s.readRow x.dep.toNat (s.g b.val) = .ok row →
          (∀ id ∈ row, ∃ k, k < 2 ^ 14 ∧ id = (s.dev * 1024 + s.cur / 16) * 2 ^ 14 + k ∧ k ≠ v ∧ (L.var k).defined = false) →
          ∃ u : State, exec (.qcross b) s = .next u.retire ∧ (larkOf u).vars = L.vars ∧
            (larkOf u).versions = [⟨v, s.entryKey (s.cur / 16) e, e.id, y⟩] ∧ u.slot = sealedIf s.slot true ∧
            Store.get 0 (larkOf u).stat 5 = Store.get 0 L.stat 5 + BitVec.ofNat 64 row.length)) ∧
      (∀ (l : Nat → Loc), phase = 2 → Settled s → (∀ p ∈ s.ports, p.2.unsent = []) → (∀ k, s.slot.full k = false) →
        (s.clusterAt (s.cur / 16)).ll = some (s.entryKey (s.cur / 16) e) → (s.g b.val).toNat % 8 = 0 → 1 ≤ n.toNat →
        (s.g c.val).toNat + n.toNat ≤ 16384 →
        (∀ i < n.toNat, (L.var ((s.g c.val).toNat + i)).poison = false ∧
          ((L.var ((s.g c.val).toNat + i)).defined = true → (L.var ((s.g c.val).toNat + i)).tx.toNat ≤ t)) →
        (∀ i < n.toNat, s.locate s.cur (s.g b.val + BitVec.ofNat 64 (8 * i)) 8 .store = .ok (l i) ∧ InRange (l i) 8 ∧ AlignedTo (l i) 8) →
        (∀ i < n.toNat, ∀ j < n.toNat, l i = l j → i = j) →
        ∃ u : State, exec (.qsnap b c n) s = .next u.retire ∧ u.slot = s.slot ∧
          (∀ i < n.toNat, leNat (u.readLocs (l i) 8) =
            (let x := L.var ((s.g c.val).toNat + i); if x.defined then x.xAt h t else 0x7FF8000000000000#64).toNat) ∧
          ∀ q, InRange q 1 → (∀ i < n.toNat, overlaps (l i) 8 q 1 = false) → u.readLoc q = s.readLoc q)) ∧
    (L.run = 1 → e.ev ≠ .other → ∃ u : State, exec (.qstop a) s = .next u.retire ∧ (larkOf u).run = 2 ∧
      u.slot = sealedIf (s.slot.setG a.val 1) true)

/-! ### Phlox -/

namespace Sys2Proof.Claims

open Sys2Proof.Machine

/-- A task that is not speculative, with nothing waiting at the port, on an array that is not marked (R351, R367). -/
def PhloxReady (s : State) : Prop :=
  s.lag = false ∧ s.slot.pq = [] ∧ s.snapping s.cur = false ∧ s.slot.run = .running ∧ s.slot.head.spec = false ∧ s.phlox.poison = false

/-- The instruction leaves the array as `y` and writes `w`; nothing else changes but the seal (R351). -/
def Gives (s : State) (i : Instr) (a : GReg) (y : Phlox) (w : Nat) (seals : Bool) : Prop :=
  exec i s = .next (changed s (fun c => { c with phlox := y }) (fun x => sealedIf (x.setG a.val (BitVec.ofNat 64 w)) seals)).retire

/-- Cell n of a column: 1 a positive literal, 2 a negative one, 0 and 3 none (R344). -/
def litAt (c : PCol) (n : Nat) : Nat := let x := c.cells.toNat / 4 ^ n % 4; if x = 3 then 0 else x

/-- The value of row n. -/
def valueOf (x : Phlox) (n : Nat) : Option Bool := (Store.find? x.rows n).map (·.val)

/-- Rows of a column's true, unassigned and false literals (R349). -/
def trueLits (x : Phlox) (c : PCol) : List Nat :=
  (List.range 512).filter (fun n => litAt c n != 0 && valueOf x n == some (litAt c n == 1))
def openLits (x : Phlox) (c : PCol) : List Nat := (List.range 512).filter (fun n => litAt c n != 0 && (valueOf x n).isNone)

/-- The classes of R349. -/
def isSat (x : Phlox) (c : PCol) : Prop := trueLits x c ≠ []
def isConflict (x : Phlox) (c : PCol) : Prop := trueLits x c = [] ∧ openLits x c = []
def isUnit (x : Phlox) (c : PCol) (n : Nat) : Prop := trueLits x c = [] ∧ openLits x c = [n]

/-- Column c is the lowest-index column in conflict. -/
def firstConflict (x : Phlox) (c : Nat) : Prop :=
  ∃ before col after, x.cols = before ++ (c, col) :: after ∧ isConflict x col ∧ ∀ e ∈ before, ¬isConflict x e.2

/-- The array with the conflict of column c recorded (R353, R355). -/
def recorded (x : Phlox) (c : Nat) : Phlox :=
  let col := Store.get {} x.cols c
  { x with
    conf := some (c, ((List.range 512).filter (fun n => litAt col n != 0 && (Store.find? x.rows n).map (·.level) == some x.level)).length, x.level)
    stat := Store.set x.stat 3 (Store.get 0 x.stat 3 + 1) }

/-- The array with a row set and pushed (R345, R347). -/
def pushed (x : Phlox) (n : Nat) (v : Bool) : Phlox :=
  { x with rows := Store.set x.rows n { val := v, level := x.level, reason := 0, nr := true, tpos := x.trail.length }
           trail := x.trail ++ [n] }

/-- The word of a row (R345). -/
def rowWord (x : Phlox) (n : Nat) : Nat :=
  n * 2 ^ 34 + match Store.find? x.rows n with
    | none => 0
    | some r => (if r.nr then 2 ^ 33 else 0) + r.tpos * 2 ^ 24 + r.reason * 2 ^ 12 + r.level * 4 + (if r.val then 1 else 2)

/-- The image in the two blocks of a vector register (R359). -/
def imageIn (s : State) (b : Sys2Proof.VReg) : Nat :=
  let part (k : Nat) : Nat := if State.isZeroBlock ((s.v b).descOf k) then 0 else (s.v b).lanes.toNat / 2 ^ (512 * k) % 2 ^ 512
  part 0 + part 1 * 2 ^ 512

end Sys2Proof.Claims

/-- R355, R357 to R364: the Phlox instructions but `pprop`, of a task that is not speculative. Operands out of range raise
the Phlox format trap; each other form leaves the array and the result that its rule gives. -/
def Sys2Proof.Claims.PhloxArray : Prop :=
  ∀ (s : State) (a b c : GReg) (v w : Sys2Proof.VReg), PhloxReady s →
    let x := s.phlox
    let B := (s.g b.val).toNat
    let C := (s.g c.val).toNat
    let ones := 2 ^ 64 - 1
    let bad (i : Instr) (reason val : Nat) : Prop := exec i s = .next (s.trap 13 (BitVec.ofNat 64 (reason * 2 ^ 60 + val % 2 ^ 32)))
    let reason (k : Nat) : Bool := x.rows.any (fun e => !e.2.nr && e.2.reason == k)
    let used (k : Nat) : Bool := (Store.find? x.cols k).isSome
    -- R358
    exec .pclr s = .next (changed s (fun k => { k with phlox := {} }) (fun y => sealedIf y true)).retire ∧
    -- R359
    (let img := imageIn s w
     let none_ : Bool := (List.range 512).all (fun n => litAt { cells := BitVec.ofNat 1024 img } n == 0)
     let holds3 : Bool := (List.range 512).any (fun n => img / 4 ^ n % 4 == 3)
     let written (k : Nat) : Phlox := { x with cols := Store.set x.cols k { cells := BitVec.ofNat 1024 img, fmt := holds3 }, fmt := x.fmt || holds3 }
     (∀ k < 2, State.isPoison ((s.v w).descOf k) = false) →
     (none_ = true → bad (.pcol a w) 1 0 ∧ bad (.pcolAt a w c) 1 0) ∧
     (none_ = false →
       (∀ k < 4096, used k = false → (∀ j < k, used j = true) → Gives s (.pcol a w) a (written k) k true) ∧
       ((∀ k < 4096, used k = true) → Gives s (.pcol a w) a x ones true) ∧
       (4095 < C → bad (.pcolAt a w c) 3 C) ∧
       (C ≤ 4095 → (reason C = true → Gives s (.pcolAt a w c) a x ones true) ∧
         (reason C = false → Gives s (.pcolAt a w c) a (written C) C true)))) ∧
    -- R360
    (4095 < B → bad (.pcolrRd v b) 3 B ∧ bad (.pcolrFr a b) 3 B) ∧
    (B ≤ 4095 →
      (∃ u : State, exec (.pcolrRd v b) s = .next u.retire ∧ u.clusters = s.clusters ∧
        u.slot = { sealedIf s.slot true with v := u.slot.v } ∧ (u.slot.vr v.val).desc = 0 ∧
        (∀ i < 4096, (u.slot.vr v.val).lanes.getLsbD i = (decide (i < 1024) &&
          litAt (Store.get {} x.cols B) (i / 2) == i % 2 + 1)) ∧
        ∀ n < 64, n ≠ v.val → u.slot.vr n = s.slot.vr n) ∧
      (used B = false → Gives s (.pcolrFr a b) a x 1 true) ∧
      (used B = true → reason B = true → Gives s (.pcolrFr a b) a x 2 true) ∧
      (used B = true → reason B = false → Gives s (.pcolrFr a b) a { x with cols := Store.erase x.cols B } 0 true)) ∧
    -- R361
    (1023 < B → bad (.pdec a b) 2 B ∧ bad (.pset a b) 2 B) ∧
    (B ≤ 1023 → let n := B % 512; let val := decide (B / 512 = 0)
      (valueOf x n = none →
        Gives s (.pdec a b) a (let y := pushed { x with level := x.level + 1 } n val
          { y with stat := Store.set x.stat 4 (Store.get 0 x.stat 4 + 1) }) (x.level + 1) true ∧
        Gives s (.pset a b) a (pushed x n val) 0 true) ∧
      (∀ h, valueOf x n = some h → Gives s (.pdec a b) a x ones true ∧ Gives s (.pset a b) a x (if h = val then 1 else 2) true)) ∧
    -- R362
    (x.level < B → bad (.pbt a b) 4 B) ∧
    (B ≤ x.level → let above (n : Nat) : Bool := decide (B < ((Store.find? x.rows n).map (·.level)).getD 0)
      Gives s (.pbt a b) a { x with
        rows := x.rows.filter (fun e => !above e.1), trail := x.trail.filter (fun n => !above n), level := B, conf := none
        stat := if B < x.level then Store.set x.stat 5 (Store.get 0 x.stat 5 + 1) else x.stat } (x.trail.filter above).length true) ∧
    -- R363, R355, R364
    (511 < B → bad (.prow a b) 2 B ∧ bad (.ptrl a b) 5 B) ∧
    (B ≤ 511 → Gives s (.prow a b) a x (rowWord x B) false ∧
      Gives s (.ptrl a b) a x (match x.trail[B]? with | some n => rowWord x n | none => 0) false) ∧
    Gives s (.plvl a) a x (x.trail.length * 2 ^ 16 + x.level) false ∧
    Gives s (.pconf a) a x (match x.conf with | some (k, n, l) => 2 ^ 63 + n * 2 ^ 32 + l * 2 ^ 12 + k | none => 0) false ∧
    (∀ k, k ≤ 4096 → (k = 4096 ∨ used k = false) → (∀ j < k, used j = true) →
      Gives s (.pstat a 0) a x (k * 2 ^ 32 + (if x.fmt then 2 ^ 16 else 0) + x.cols.length) false) ∧
    (∀ sel : Fin 7, 1 ≤ sel.val → sel.val ≤ 5 → Gives s (.pstat a sel) a x (Store.get 0 x.stat sel.val).toNat false) ∧
    ((∀ e ∈ x.cols, e.2.fmt = false) → Gives s (.pstat a 6) a x 4096 false)

/-- R353, R354: unit propagation. A conflict at the start is recorded. Otherwise the waves set rows that were unassigned, each by a
column in which its literal is then true, until a column is in conflict, the lowest of them recorded, or no column is unit. -/
def Sys2Proof.Claims.PhloxPropagates : Prop :=
  ∀ (s : State) (a : GReg), PhloxReady s →
    let x := s.phlox
    (∀ c, firstConflict x c → Gives s (.pprop a) a (recorded x c) (2 ^ 62 + c) true) ∧
    ((∀ e ∈ x.cols, ¬isConflict x e.2) → ∃ (y z : Phlox) (status w : Nat) (new : List Nat) (c : Nat),
      Gives s (.pprop a) a z (status * 2 ^ 62 + w * 2 ^ 32 + new.length * 2 ^ 16 + c) true ∧
      y.cols = x.cols ∧ y.level = x.level ∧ y.trail = x.trail ++ new ∧ new.Nodup ∧ w ≤ new.length ∧ new.length ≤ 512 ∧
      (∀ n, n ∉ new → Store.find? y.rows n = Store.find? x.rows n) ∧
      (∀ n ∈ new, n < 512 ∧ Store.find? x.rows n = none ∧ ∃ r, Store.find? y.rows n = some r ∧ r.nr = false ∧ r.level = x.level ∧
        ∃ col, (r.reason, col) ∈ x.cols ∧ litAt col n = if r.val then 1 else 2) ∧
      Store.get 0 y.stat 1 = Store.get 0 x.stat 1 + BitVec.ofNat 64 w ∧
      Store.get 0 y.stat 2 = Store.get 0 x.stat 2 + BitVec.ofNat 64 new.length ∧
      ((status = 1 ∧ firstConflict y c ∧ z = recorded y c) ∨
       (status = 2 ∧ c = 0 ∧ z = y ∧ ∀ e ∈ y.cols, isSat y e.2) ∨
       (status = 0 ∧ c = 0 ∧ z = y ∧ (∃ e ∈ y.cols, ¬isSat y e.2) ∧ ∀ e ∈ y.cols, ¬isConflict y e.2 ∧ ∀ n, ¬isUnit y e.2 n)))

/-! ### Messages in flight -/

namespace Sys2Proof.Claims

open Sys2Proof.Machine

/-- No task of the module is timestamped. -/
def Untimed (s : State) : Prop := s.allEntries = []

/-- A message in flight when the cache of a slot self-invalidates: the words of an earlier miss are not installed (R401). -/
def stripped (s : State) (sid : Nat) : Msg → Msg
  | .load o => .load { o with bare := o.bare || s.cacheOf o.sid == s.cacheOf sid }
  | m => m

/-- Message k has been taken out of flight, with an acquire when `acq` says so; its slot has become x, and the others are as
before. -/
def Landed (s u : State) (k sid : Nat) (x : Slot) (acq : Bool := false) : Prop :=
  u.flight = (if acq then (Store.erase s.flight k).map (fun e => (e.1, stripped s sid e.2)) else Store.erase s.flight k) ∧
  u.slotAt sid = x ∧ ∀ n, n ≠ sid → u.slotAt n = s.slotAt n

/-- The slot with a counter lowered, when its task is still there (R101). -/
def lowered (x : Slot) (c : Option Ctr) : Slot := match c with
  | some c => x.dec c
  | none => x

/-- The bytes `bs` stand at a location, and every other byte reads as before. -/
def Holds (s u : State) (l : Loc) (bs : List Byte) : Prop :=
  (∀ k < bs.length, u.readLoc (State.locAdd l k) = bs.getD k 0) ∧
  ∀ q, InRange q 1 → overlaps l bs.length q 1 = false → u.readLoc q = s.readLoc q

/-- A release whose slot has earlier writes in flight (R223). -/
def Waits (s : State) (k sid : Nat) : Prop := ∃ e ∈ s.flight, e.1 < k ∧ writesBy sid e.2 = true

/-- A slot one of whose acquires has returned (R223). -/
def freed (x : Slot) (acq : Bool) : Slot := if acq then { x with holds := x.holds.erase .acqLoad } else x

/-- The slot with one more deferred machine check (R111). -/
def deferring (x : Slot) (tval addr : Word) : Slot := { x with deferred := x.deferred ++ [{ tval := tval, addr := addr }] }

/-- An earlier advance or quota operation of a slot on a domain is in flight (R249, R260). -/
def ClockBehind (s : State) (k sid d : Nat) : Prop :=
  ∃ e ∈ s.flight, e.1 < k ∧ ((∃ n, e.2 = .clock sid d n) ∨ ∃ a w b, e.2 = .quota sid a d w b)

end Sys2Proof.Claims

/-- R231, R234, R235, R223, R388, R391: atomics, reductions and exact-cell arrivals as their homes perform them: the new
value is written, the old one returned, the counter falls; a release waits for the earlier writes of its slot, and each for
the earlier accesses that it may not overtake (R382, R392). A reduction of an update-only line registers its cache as a
contributor instead. -/
def Sys2Proof.Claims.UpdatesAtHomes : Prop :=
  ∀ (s : State) (k : Nat), Untimed s → s.waiters = [] →
    (∀ o : AtomOp, s.msg k = some (.atom o) →
      ((o.rel = true ∧ Waits s k o.sid) ∨ s.arrivesLate k o.sid o.loc (o.ty.width / 8) = true → exec (.atomicAtHome k) s = .next s) ∧
      (Settled s → (o.rel = true → ¬Waits s k o.sid) → s.arrivesLate k o.sid o.loc (o.ty.width / 8) = false →
        InRange o.loc (o.ty.width / 8) → AlignedTo o.loc (o.ty.width / 8) →
        o.ty.width = 32 ∨ o.ty.width = 64 → o.live = true →
        let t := leNat (s.readLocs o.loc (o.ty.width / 8))
        let r := atomValue o.op o.ty t o.s o.cmp
        let x := s.slotAt o.sid
        let back : Slot := if State.isPoison (s.descAt o.loc) then deferring x (s.tvalOf o.sid o.loc false o.far) o.va
          else (x.setG o.dest (loaded o.ty t)).orFlags r.2
        ∃ u : State, exec (.atomicAtHome k) s = .next u ∧ Landed s u k o.sid (freed (back.dec .ld) o.acq) o.acq ∧
          Holds s u o.loc (leBytes r.1 (o.ty.width / 8)))) ∧
    (∀ o : RedMsg, s.msg k = some (.red o) →
      let line (pa : Nat) : Prop := o.loc = .glob pa ∧ State.deviceOf pa = s.dev ∧ o.rel = false
      (Settled s → (∀ pa, ¬line pa) → (o.rel = true → ¬Waits s k o.sid) →
        s.arrivesLate k o.sid o.loc (o.ty.width / 8) = false → InRange o.loc (o.ty.width / 8) →
        AlignedTo o.loc (o.ty.width / 8) → o.ty.width = 32 ∨ o.ty.width = 64 →
        let t := leNat (s.readLocs o.loc (o.ty.width / 8))
        ∃ u : State, exec (.postedUpdateApplied k) s = .next u ∧ Landed s u k o.sid (lowered (s.slotAt o.sid) o.ctr) ∧
          Holds s u o.loc (leBytes (atomValue (RedOp.amo o.op) o.ty t o.x 0).1 (o.ty.width / 8))) ∧
      (∀ pa, line pa → s.arrivesLate k o.sid o.loc (o.ty.width / 8) = false → (Store.find? s.updLines (State.updKey (s.cacheOf o.sid) (pa / 1024))).isSome = true →
        s.cacheOf o.sid ∉ Store.get [] s.contrib (pa / 1024) →
        ∃ u : State, exec (.contributorRegistration k) s = .next u ∧
          Landed s u k o.sid (lowered (s.slotAt o.sid) o.ctr) ∧
          Store.get [] u.contrib (pa / 1024) = Store.get [] s.contrib (pa / 1024) ++ [s.cacheOf o.sid] ∧
          (∀ l, l ≠ pa / 1024 → Store.get [] u.contrib l = Store.get [] s.contrib l) ∧
          ∀ w, w / 256 = pa / 1024 → Store.find? u.owners w = none)) ∧
    (∀ (o : CellMsg) (m : Word) (e : BitVec 16), s.msg k = some (.cell o) → o.arg = .inl (m, e) →
      ((o.rel = true ∧ Waits s k o.sid) ∨ s.arrivesLate k o.sid o.loc 32 = true → exec (.exactCellArrival k) s = .next s) ∧
      (Settled s → (o.rel = true → ¬Waits s k o.sid) → s.arrivesLate k o.sid o.loc 32 = false → InRange o.loc 32 → AlignedTo o.loc 32 →
        ∃ (u : State) (y : Nat), exec (.exactCellArrival k) s = .next u ∧
          Landed s u k o.sid (lowered (s.slotAt o.sid) o.ctr) ∧ Holds s u o.loc (leBytes y 32) ∧
          Arrived (leNat (s.readLocs o.loc 32)) y m (e.setWidth 64)))

/-- R101, R386, R387, R223: loads and stores in flight. The home answers a part of a load, when its turn has come, with the
value of that instant, and the load returns when every part is answered; poisoned data is not written (R221). The home
applies a piece of a store in its turn, with its descriptor (R158), or makes its cache the owner of a word, and the
acknowledgement lowers the counter. A waiting instruction spins for its time (R228). -/
def Sys2Proof.Claims.LoadsAndStoresInFlight : Prop :=
  ∀ (s : State) (k : Nat), Untimed s →
    (∀ (o : LoadOp) (i : Nat) (p : Part), s.msg k = some (.load o) → o.parts[i]? = some p → i ∈ o.todo → Settled s →
      InRange p.loc p.n → s.partWaits k o p = false → (o.ro = true → (s.slotAt o.sid).ahead = []) →
      ∃ (u : State) (a : Answer), exec (.loadRequest k i) s = .next u ∧ a.lane = p.lane ∧
        a.x = leNat ((List.range p.n).map (fun j => match p.loc with
          | .scr c o => Memory.read s.scr (State.scrKey c o + j)
          | .glob pa => if o.acq || o.ro || State.deviceOf pa != s.dev || p.n == 64 then s.peek (pa + j) else s.l1Byte (s.cacheOf o.sid) (pa + j))) ∧
        a.poison = State.isPoison a.desc ∧ a.desc = s.descAt p.loc ∧
        u.flight = Store.set s.flight k (.load { o with todo := o.todo.filter (· != i), got := o.got ++ [a] }) ∧
        (∀ q, InRange q 1 → u.readLoc q = s.readLoc q) ∧ ∀ n, u.slotAt n = s.slotAt n) ∧
    (∀ (o : LoadOp) (a : Answer) (n : Nat) (ty : Ty), s.msg k = some (.load o) → o.todo = [] → o.got = [a] → a.lane = 0 →
      o.dest = .g n ty →
      let x := s.slotAt o.sid
      ∃ u : State, exec (.loadReturn k) s = .next u ∧ Landed s u k o.sid (freed
          ((if a.poison then deferring x a.origin o.va else x.setG n (loaded ty a.x)).dec .ld) o.acq) o.acq ∧
        (Settled s → ∀ q, InRange q 1 → u.readLoc q = s.readLoc q) ∧
        (o.acq = true → ∀ w y, w < 2 ^ 50 → u.l1At (s.cacheOf o.sid) w = some y → y.st ≠ .valid)) ∧
    (∀ (o : LoadOp), s.msg k = some (.load o) → o.todo ≠ [] → exec (.loadReturn k) s = .next s) ∧
    (∀ (o : StoreOp), s.msg k = some (.store o) →
      (o.todo ≠ [] → exec (.storeAck k) s = .next s) ∧
      (o.todo = [] → ∃ u : State, exec (.storeAck k) s = .next u ∧ SameBytes s u ∧
        Landed s u k o.sid (lowered (s.slotAt o.sid) o.ctr))) ∧
    (∀ (o : StoreOp) (i : Nat) (p : Piece), s.msg k = some (.store o) → o.pieces[i]? = some p → i ∈ o.todo →
      ((o.rel = true ∧ Waits s k o.sid) ∨ s.arrivesLate k o.sid p.loc p.span = true → exec (.storeRegistration (k, i)) s =
        .next { s with flight := Store.set s.flight k (.store o) }) ∧
      (s.pieceWaits k o i p = false → InRange p.loc (max 1 p.bytes.length) →
        let done (u : State) : Prop :=
          u.flight = Store.set s.flight k (.store { o with todo := o.todo.filter (· != i) }) ∧
          (p.desc = none → u.memDesc = s.memDesc ∧ u.scrDesc = s.scrDesc) ∧ (∀ d, p.desc = some d → u.descAt p.loc = d) ∧
          ∀ n, u.slotAt n = s.slotAt n
        (Settled s → (∀ pa, p.loc = .glob pa → o.rel = true ∨ State.deviceOf pa ≠ s.dev ∨ i ∈ o.late) →
          ∃ u : State, exec (.storeRegistration (k, i)) s = .next u ∧ done u ∧ Holds s u p.loc p.bytes) ∧
        (∀ (w : Nat) (x : L1Word) (pa : Nat), p.loc = .glob pa → State.deviceOf pa = s.dev → o.rel = false → i ∉ o.late →
          p.bytes ≠ [] → pa / 4 = w → pa % 4 + p.bytes.length ≤ 4 → s.contrib = [] → s.updLines = [] →
          s.regLines.length < 8192 → Store.find? s.owners w = none →
          s.l1At (s.cacheOf o.sid) w = some x → x.st = .owned → x.reg = false →
          ∃ u : State, exec (.storeRegistration (k, i)) s = .next u ∧ done u ∧
            Store.find? u.owners w = some (s.cacheOf o.sid) ∧
            (∀ j < 4, u.peek (4 * w + j) = if x.mask.getLsbD j then x.data.extractLsb' (8 * j) 8 else s.peek (4 * w + j)) ∧
            ∀ q < 2 ^ 52, q / 4 ≠ w → u.peek q = s.peek q))) ∧
    (∀ (sid : Nat) (sp : Spin), (s.slotAt sid).spin = some sp →
      ∃ u : State, exec (.fullEmptySpinExpiry sid) s = .next u ∧ SameBytes s u ∧
        u.slotAt sid = { (s.slotAt sid) with expired := true } ∧ ∀ n, n ≠ sid → u.slotAt n = s.slotAt n)

/-- R249, R255, R260: a reuse domain at its home: an advance is added modulo 2^24; an advance or a quota read follows the slot's
earlier operations on the domain; 64 more honest hits than broken promises, or the reverse, move the honesty by one, within 0 to 15. -/
def Sys2Proof.Claims.ReuseDomainsAtHome : Prop :=
  ∀ (s : State) (k : Nat),
    (∀ sid d n, s.msg k = some (.clock sid d n) → (ClockBehind s k sid d → exec (.reuseClockAdvance k) s = .next s) ∧
     (¬ClockBehind s k sid d → ∃ u : State, exec (.reuseClockAdvance k) s = .next u ∧
      u.flight = Store.erase s.flight k ∧ u.slots = s.slots ∧
      u.domainAt d = { (s.domainAt d) with clock := (s.domainAt d).clock + BitVec.ofNat 24 n } ∧
      ∀ j, j ≠ d → u.domainAt j = s.domainAt j)) ∧
    (∀ sid dest d, s.msg k = some (.quota sid dest d none true) →
      let D := s.domainAt d
      (ClockBehind s k sid d → exec (.reuseClockAdvance k) s = .next s) ∧
      (¬ClockBehind s k sid d → ∃ u : State, exec (.reuseClockAdvance k) s = .next u ∧ u.domains = s.domains ∧
        Landed s u k sid (((s.slotAt sid).setG dest (BitVec.ofNat 64 (D.clock.toNat * 2 ^ 30 + D.honesty.toNat * 2 ^ 26 +
          D.indef * 2 ^ 22 + D.llc * 2 ^ 17 + D.l2 * 2 ^ 12 + D.l1 * 2 ^ 8 + d))).dec .ld))) ∧
    (∀ d up, s.msg k = some (.honesty d up) →
      let D := s.domainAt d
      let j : Int := D.judge + (if up then 1 else -1)
      ∃ u : State, exec (.honestyReport k) s = .next u ∧ u.flight = Store.erase s.flight k ∧ u.slots = s.slots ∧
        (∀ i, i ≠ d → u.domainAt i = s.domainAt i) ∧
        (j < 64 → -64 < j → u.domainAt d = { D with judge := j }) ∧
        (64 ≤ j → u.domainAt d = { D with judge := 0, honesty := BitVec.ofNat 4 (min 15 (D.honesty.toNat + 1)) }) ∧
        (j ≤ -64 → u.domainAt d = { D with judge := 0, honesty := BitVec.ofNat 4 (D.honesty.toNat - 1) }))

/-- R76 to R80, R85 to R88: increments, arrivals, registrations, records and messages on their way. An increment comes
before its placement; an arrival follows its slot's earlier writes and increments; a registration whose condition holds lets its task go
on, and otherwise suspends it; a record or message enters the ready queue, or the timestamped record Aster. -/
def Sys2Proof.Claims.TasksOnTheirWay : Prop :=
  ∀ (s : State) (k : Nat),
    (∀ p : Placement, s.msg k = some (.place p) → p.counted = false →
      let counted := Store.set s.flight k (.place { p with counted := true })
      (Waits s k p.sid → exec (.joinIncrement k) s = .next s) ∧
      (¬Waits s k p.sid → (p.cell = false → exec (.joinIncrement k) s = .next { s with flight := counted }) ∧
        ∀ pa, Settled s → p.cell = true → s.translate (p.sid / 2) p.launch p.join .store = .ok pa → pa + 8 ≤ 2 ^ 52 → pa % 8 = 0 →
          ∃ u : State, exec (.joinIncrement k) s = .next u ∧ u.flight = counted ∧ Became s u pa (cellUp (wordAt s pa 8)) ∧
            u.slots = s.slots)) ∧
    (∀ sid pa n, s.msg k = some (.arrive sid pa n) → (Waits s k sid ∨ Owed s k sid → exec (.joinArrival k) s = .next s) ∧
      (¬Waits s k sid → ¬Owed s k sid → Settled s → pa + 8 ≤ 2 ^ 52 → pa % 8 = 0 →
        let y := cellDown (wordAt s pa 8) n
        (y % 2 ^ 40 ≠ 0 → ∃ u : State, exec (.joinArrival k) s = .next u ∧ u.flight = Store.erase s.flight k ∧
          Became s u pa y ∧ u.waiters = s.waiters ∧ u.clusters = s.clusters) ∧
        (y % 2 ^ 40 = 0 → ∃ u : State, exec (.joinArrival k) s = .next u ∧ u.flight = Store.erase s.flight k ∧
          u.waiters = s.waiters.filter (fun w => !(w.kind == 3 && w.key == pa)) ∧
          (u.waiters = s.waiters → Became s u pa y)))) ∧
    (∀ sid kind key va gin lcin, s.msg k = some (.reg sid kind key va gin lcin) → kind = 1 ∨ kind = 2 →
      let x := s.slotAt sid
      (Store.get false s.tags key = decide (kind = 1) → ∃ u : State, exec (.wakeRegistration k) s = .next u ∧
        (u.slotAt sid).csr.ins = x.csr.ins + 1 ∧ (u.slotAt sid).run = x.run ∧ (u.slotAt sid).g = x.g ∧ u.waiters = s.waiters ∧
        u.mem = s.mem ∧ u.scr = s.scr ∧ u.tags = s.tags) ∧
      (∀ w, Store.get false s.tags key ≠ decide (kind = 1) → x.run = .running → s.entryOf sid = none →
        s.writeRecord (sid / 2) x.rid (State.contHead x (nextPc x.pc) gin lcin.toNat (x.p.toNat / 2) true 3 kind va)
          (x.liveVals gin lcin.toNat) = some w →
        ∃ u : State, exec (.wakeRegistration k) s = .next u ∧ (u.slotAt sid).run = .idle ∧ SameBytes w u ∧
          u.waiters = s.waiters ++ [{ rid := x.rid, pkg := sid / 16, kind := kind, key := key }])) ∧
    (∀ p : Placement, s.msg k = some (.place p) →
      (p.counted = false → ∀ i ∈ [Instr.recordPlacement k, .messageDelivery k, .asterAccept (2 * k)], exec i s = .next s) ∧
      (p.counted = true → (∀ e ∈ s.flight, k ≤ e.1) → p.target / 1024 = s.dev →
        let pkg := p.target % 1024
        let r : RecId := { launch := p.launch, addr := p.record }
        (s.clusterAt pkg).launch = p.launch →
        (∀ h v w, p.message = none → s.readRecord (pkg * 8) r = some (h, v) →
          (let h1 : Head := { h with parent := p.join, scratch := h.scratch &&& 0xFFFF0000#32 }
           s.writeRecord (pkg * 8) r h1 [] = some w →
           (p.timed = false → ∃ (u : State) (e : Ready), exec (.recordPlacement k) s = .next u ∧ SameBytes w u ∧
             u.flight = Store.erase s.flight k ∧ readyFor s r h1 e ∧
             (u.clusterAt pkg).ready = (s.clusterAt pkg).ready ++ [e]) ∧
           (∀ h2 v2, p.timed = true → w.readRecord (pkg * 8) r = some (h2, v2) → State.entriesUsed (s.clusterAt pkg) < 512 →
             p.seeded = false ∨ notLate s pkg h2 → ∃ (u : State) (e : Ready) (n : Entry), exec (.asterAccept (2 * k)) s = .next u ∧ SameBytes w u ∧
               u.flight = Store.erase s.flight k ∧
               (u.clusterAt pkg).entries = (s.clusterAt pkg).entries ++ [n] ∧ n.rid = r ∧ n.st = .ready ∧
               n.id = (s.clusterAt pkg).serial ∧ n.head.key = h2.key ∧ n.vals = v2 ∧
               (u.clusterAt pkg).ready = (s.clusterAt pkg).ready ++ [e] ∧ e.rid = r))) ∧
        (∀ (h : Head) (pay : List Word) (i : Nat), p.message = some (h, pay) → pay.length ≤ 16 → i < (s.clusterAt pkg).poolSize →
          Store.find? (s.clusterAt pkg).pool i = none →
          (∀ j < i, (Store.find? (s.clusterAt pkg).pool j).isSome = true) →
          ∃ (u : State) (e : Ready) (q : Head), exec (.messageDelivery k) s = .next u ∧ u.flight = Store.erase s.flight k ∧
            Store.find? (u.clusterAt pkg).pool i = some (q, pay) ∧ q.pc = h.pc ∧ q.key = h.key ∧ q.parent = p.join ∧
            q.live.toNat = 2 ^ (pay.length + 1) - 2 ∧ q.flags.toNat % 64 = 17 ∧
            (u.clusterAt pkg).ready = (s.clusterAt pkg).ready ++ [e] ∧ e.rid.pool = some (pkg, i) ∧ e.rid.launch = p.launch)))

/-- R63, R73, R281 to R283, R100: a free slot, the first of its core's two to have become free, takes the one ready task of its cluster: its record's state becomes 2, its
registers of the live set hold their entries and the others 0, its control registers their starting values; ageing moves the
ready task that has waited longest at its level one level up, to the tail of its list. -/
def Sys2Proof.Claims.DispatchAndAgeing : Prop :=
  ∀ (s : State) (sid : Nat),
    let pkg := sid / 16
    let c := s.clusterAt pkg
    let x0 := s.slotAt sid
    let other := s.slotAt (sid / 2 * 2 + (sid + 1) % 2)
    let free (x : Slot) : Prop := x.run = .idle ∧ x.mq = [] ∧ x.pq = []
    let first : Prop := ¬free other ∨ x0.freed < other.freed ∨ (x0.freed = other.freed ∧ sid % 2 = 0)
    (∀ (e : Ready) (h : Head) (v : List Word) (w : State), free x0 → first → c.launch ≠ 0 →
      (s.launchAt c.launch).st = .running → (s.launchAt c.launch).reserved = none → c.ready = [e] → e.bound = none →
      e.fresh = false → e.timed = false → e.level < 8 → s.copies = [] → e.rid.pool = none →
      s.readRecord (sid / 2) e.rid = some (h, v) → h.reservedOk = true → h.flags.toNat / 16 % 4 = 0 → v.length = 0 ∨ v.length = 16 →
      (v = [] → h.live = 0 ∧ h.flags.toNat / 2 ^ 12 % 8 = 0) →
      s.writeRecord (sid / 2) e.rid { h with flags := (h.flags &&& 0xFFFFFFF0#32) ||| 2 } [] = some w →
      (∀ o ∈ [0, 64, 128], ∀ pa, w.translate (sid / 2) e.rid.launch (e.rid.addr + BitVec.ofNat 64 o) .load = .ok pa →
        State.isPoison (s.descAt (.glob pa)) = false) →
      ∃ u : State, exec (.slotDispatch sid) s = .next u ∧ u.mem = w.mem ∧ u.l2 = w.l2 ∧ (u.clusterAt pkg).ready = [] ∧
        (let x := u.slotAt sid
         let gs := (List.range 64).filter (fun n => n != 0 && h.live.getLsbD n)
         let ls := (List.range 3).filter (fun n => h.flags.getLsbD (12 + n))
         x.run = .running ∧ x.rid = e.rid ∧ x.pc = h.pc ∧ x.p.toNat = h.flags.toNat / 2 ^ 17 % 128 * 2 + 1 ∧
         (∀ (i n : Nat), gs[i]? = some n → x.gr n = v.getD i 0) ∧ (∀ n < 64, n ∉ gs → x.gr n = 0) ∧
         (∀ (i n : Nat), ls[i]? = some n → x.lcr n = v.getD (gs.length + i) 0) ∧ (∀ n < 3, n ∉ ls → x.lcr n = 0) ∧
         x.csr.tvec = (s.launchAt e.rid.launch).tvec ∧ x.csr.tcause = 0 ∧ x.csr.nud.toNat = h.dom.toNat % 256 ∧
         x.csr.ins = (s.slotAt sid).csr.ins ∧ x.csr.fflags = 0 ∧ x.csr.frm = 0 ∧ x.csr.vrb = 0 ∧ x.cnt = {} ∧ x.own = 0 ∧
         x.head.team = (if e.resumed then h.team else 0) ∧ x.region.sealed = false ∧ x.region.pc = h.pc) ∧
        ∀ n, n ≠ sid → u.slotAt n = s.slotAt n) ∧
    (¬free x0 ∨ ¬first → exec (.slotDispatch sid) s = .next s) ∧
    (∀ k, ∃ u : State, exec (.readyQueueAgeing pkg k) s = .next u ∧ u.slots = s.slots ∧
      (u.clusterAt pkg).ready = c.ready.map (fun e => if e.seq = k ∧ e.level < 7 ∧
          (∀ y ∈ c.ready, y.bound = e.bound → y.level = e.level → y.timed = e.timed → e.since ≤ y.since) then
        { e with level := e.level + 1, since := c.seq, seq := if e.timed then e.seq else c.seq } else e) ∧
      (u.clusterAt pkg).seq = c.seq + 1 ∧ ∀ j, j ≠ pkg → u.clusterAt j = s.clusterAt j)

/-! ### Events of Larkspur, Aster and the horizon -/

namespace Sys2Proof.Claims

open Sys2Proof.Machine

/-- The template at an address of a launch, as a cluster's unit reads it, passes R84 with kind 2 and an empty live set. -/
def TemplateAt (s : State) (pkg launch : Nat) (a : Word) (h : Head) : Prop :=
  (∃ pa, s.translate (pkg * 8) launch a .load = .ok pa ∧ h = Head.ofBytes ((s.settleRange pa 64).peekBytes pa 64)) ∧
  placeable h [2] = true ∧ h.live = 0 ∧ h.flags.toNat / 2 ^ 12 % 8 = 0

/-- Index i of a cluster's handler pool is its lowest free one. -/
def LowestFree (c : Cluster) (i : Nat) : Prop :=
  i < c.poolSize ∧ Store.find? c.pool i = none ∧ ∀ j < i, (Store.find? c.pool j).isSome = true

/-- An event of key (t, phase, idx) has been started from a template and accepted by Aster (R299, R300, R324). -/
def Started (s u : State) (pkg i : Nat) (h : Head) (t phase idx : Nat) (ev : Event) : Prop :=
  ∃ (n : Entry) (e : Ready), (u.clusterAt pkg).entries = (s.clusterAt pkg).entries ++ [n] ∧
    (u.clusterAt pkg).ready = (s.clusterAt pkg).ready ++ [e] ∧ e.rid = n.rid ∧ n.rid.pool = some (pkg, i) ∧
    (Store.find? (u.clusterAt pkg).pool i).isSome = true ∧
    n.st = .ready ∧ n.ev = ev ∧ n.id = (s.clusterAt pkg).serial ∧ n.head.pc = h.pc ∧ n.head.key.toNat = t ∧
    n.head.tail.toNat = phase * 2 ^ 56 + idx ∧ n.head.live = 6 ∧ n.head.parent = 0 ∧
    n.vals = [BitVec.ofNat 64 idx, BitVec.ofNat 64 t]

/-- The only timestamped task of the module: an entry of a cluster, no event of Larkspur, not irrevocable. -/
def Only (s : State) (pkg : Nat) (e : Entry) : Prop :=
  s.allEntries = [(pkg, e)] ∧ s.entryAt pkg e.id = some e ∧ e.ev = .other ∧ e.firm = false ∧ e.gone = false ∧
  (s.clusterAt pkg).lark.versions = [] ∧ e.held = [] ∧ e.events = []

/-- The blocks of a buffer, each named once, with bytes 0 to 63. -/
def BufferOk (b : Store BufBlock) : Prop := Rising b ∧ ∀ x ∈ b, Rising x.2.bytes ∧ ∀ y ∈ x.2.bytes, y.1 < 64

/-- A byte as a commit buffer has it, else as before. -/
def buffered (s : State) (b : Store BufBlock) (q : Nat) : Byte :=
  ((Store.find? b (q / 64)).bind (fun x => Store.find? x.bytes (q % 64))).getD (s.peek q)

/-- A report does not lie above a key. -/
def atMost (a b : Option Key) : Prop := keyLtO b a = false

/-- A report is the least of a list. -/
def IsLeast (a : Option Key) (l : List (Option Key)) : Prop := (∀ x ∈ l, atMost a x) ∧ (a ∈ l ∨ a = none)

end Sys2Proof.Claims

/-- R299 to R303, R317: a cluster's earliest unreleased crossing, at most at the end and within the window, is started from
the crossing template; an event message that arrives starts a re-evaluation, or is counted when it names no variable; a run
with nothing left to release or commit ends and arrives at its join cell, once. -/
def Obligations.LarkspurEvents : Prop :=
  ∀ (s : State) (pkg : Nat),
    let c := s.clusterAt pkg
    let l := c.lark
    let id (v : Nat) : Nat := (s.dev * 1024 + pkg) * 2 ^ 14 + v
    (∀ (v i : Nat) (h : Head), let x := l.var v
      l.run = 1 → l.versions = [] → (∃ y, (v, y) ∈ l.vars ∧ y.defined = true) → x.tn ≠ BitVec.allOnes 64 → x.rel = false →
      x.tn.toNat ≤ l.end_.toNat →
      (∀ e ∈ l.vars, e.2.defined = true → (let y := l.var e.1
        y.tn ≠ BitVec.allOnes 64 → y.rel = false → y.tn.toNat ≤ l.end_.toNat → x.tn.toNat < y.tn.toNat ∨
          (x.tn = y.tn ∧ v ≤ e.1))) →
      (l.window ≠ 0 → timeField c.ll + l.window.toNat < x.tn.toNat → exec (.crossingRelease pkg) s = .next s) ∧
      (l.window = 0 ∨ x.tn.toNat ≤ timeField c.ll + l.window.toNat → State.entriesUsed c < 512 → v < 2 ^ 14 → pkg < 768 →
        s.dev < 576 → TemplateAt s pkg l.launch l.tmpl h → LowestFree c i →
        ∃ u : State, exec (.crossingRelease pkg) s = .next u ∧ SameBytes s u ∧ Started s u pkg i h x.tn.toNat 0 (id v) (.crossing v none) ∧
          (u.clusterAt pkg).lark.var v = { x with rel := true } ∧
          ∀ w, w ≠ v → (u.clusterAt pkg).lark.var w = l.var w)) ∧
    (∀ (k src v t : Nat), s.msg k = some (.event src (id v) t) → v < 2 ^ 14 → pkg < 768 → s.dev < 576 → t < 2 ^ 64 →
      ((l.var v).defined = false → ∃ u : State, exec (.eventMessageArrival k) s = .next u ∧ SameBytes s u ∧
        u.flight = Store.erase s.flight k ∧ (u.clusterAt pkg).entries = c.entries ∧
        Store.get 0 (u.clusterAt pkg).lark.stat 5 = Store.get 0 l.stat 5 + 1) ∧
      (∀ (i : Nat) (h : Head), (l.var v).defined = true → l.pending = [] → (∀ e ∈ c.entries, State.evalOf e.ev ≠ some v) →
        State.entriesUsed c < 512 → TemplateAt s pkg l.launch (l.table + BitVec.ofNat 64 (64 * (l.var v).fn.toNat)) h →
        LowestFree c i →
        ∃ u : State, exec (.eventMessageArrival k) s = .next u ∧ SameBytes s u ∧ u.flight = Store.erase s.flight k ∧
          Started s u pkg i h t 1 (id v) (.reeval v [] 1)) ∧
      ((l.var v).defined = true → (∀ e ∈ c.entries, State.evalOf e.ev ≠ some v) → (∃ p ∈ l.pending, State.evalOf p.ev = some v ∧ p.key.1 = t) →
        ∃ u : State, exec (.eventMessageArrival k) s = .next u ∧ (u.clusterAt pkg).entries = c.entries ∧
          (u.clusterAt pkg).lark.pending.length = l.pending.length ∧
          Store.get 0 (u.clusterAt pkg).lark.stat 4 = Store.get 0 l.stat 4 + 1)) ∧
    (l.run = 2 → l.pending = [] → (∀ e ∈ c.entries, e.ev = .other) →
      (l.join = none ∨ l.arrived = true → ∃ u : State, exec (.larkspurRunEnd pkg) s = .next u ∧ SameBytes s u ∧
        (u.clusterAt pkg).lark = { l with run := 0, arrived := true } ∧ u.slots = s.slots) ∧
      (∀ va pa, l.join = some va → l.arrived = false → va.toNat % 8 = 0 → va.toNat / 2 ^ 32 ≠ 0xFFFFFF00 →
        s.waiters = [] → Settled s → s.translate (pkg * 8) l.launch va .store = .ok pa → pa + 8 ≤ 2 ^ 52 → pa % 8 = 0 →
        ∃ u : State, exec (.larkspurRunEnd pkg) s = .next u ∧ (u.clusterAt pkg).lark = { l with run := 0, arrived := true } ∧
          Became s u pa (cellDown (wordAt s pa 8) 1))) ∧
    (l.pending ≠ [] ∨ (∃ e ∈ c.entries, e.ev ≠ .other) → exec (.larkspurRunEnd pkg) s = .next s)

/-- R331 to R336: a task that is alone in the module, with no timestamped work on its way, commits (`asterCommit`) when its
key lies below H: its buffer is written and its entry and record are free; an abort that reaches it (`conflictAbort`) discards
its buffer and reads, counts and lowers H; an aborted task restarts (`taskRestartReady`) from its original continuation; a
running task at L becomes irrevocable (`irrevocablePromotion`), with its buffer written. The debugger's commit stop holds both commit and promotion (R371). -/
def Obligations.CommitsAndAborts : Prop :=
  ∀ (s : State) (pkg : Nat) (e : Entry), Only s pkg e →
    let c := s.clusterAt pkg
    let key : Key := ⟨e.head.key.toNat, e.head.tail.toNat / 2 ^ 56, e.head.tail.toNat % 2 ^ 40, (s.dev * 1024 + pkg, e.id)⟩
    let writes (u : State) : Prop := (∀ q < 2 ^ 52, u.peek q = buffered s e.buf q) ∧
      ∀ b x d, Store.find? e.buf b = some x → x.desc = some d → u.descAt (.glob (64 * b)) = d
    (e.st = .done → keyLtO (some key) c.hh = false ∨ c.commitStop = some 0 → exec (.asterCommit pkg e.id) s = .next s) ∧
    (∀ i, e.st = .done → keyLtO (some key) c.hh = true → c.commitStop = none → s.flight = [] →
      (∀ x ∈ s.clusters, x.2.lark.run = 0 ∧ x.2.lark.pending = []) → s.unacked = [] → (∀ x ∈ s.launches, x.2.sent = none) → e.rid.pool = some (pkg, i) → e.head.parent = 0 →
      s.allocOf e.rid = none → Settled s → BufferOk e.buf → (∀ b ∈ e.buf, b.1 < 2 ^ 46) →
      ∃ u : State, exec (.asterCommit pkg e.id) s = .next u ∧ writes u ∧ (u.clusterAt pkg).entries = [] ∧
        Store.find? (u.clusterAt pkg).pool i = none ∧
        (u.clusterAt pkg).aster = { c.aster with commits := c.aster.commits + 1 } ∧ (s.lag = false → u.flight = s.flight) ∧
        u.slots = s.slots) ∧
    (∀ k by_, s.msg k = some (.abort pkg e.id by_) → s.lag = true → e.st = .ready ∨ e.st = .done →
      ∃ (u : State) (x : Entry), exec (.conflictAbort k) s = .next u ∧ u.flight = Store.erase s.flight k ∧
        u.entryAt pkg e.id = some x ∧ x.st = .aborted ∧ x.buf = [] ∧ x.reads = [] ∧ x.qreads = [] ∧ x.head = e.head ∧ x.vals = e.vals ∧
        x.restarts = min 65535 (e.restarts + 1) ∧ (∀ r ∈ (u.clusterAt pkg).ready, r.rid ≠ e.rid) ∧
        (u.clusterAt pkg).aster = { c.aster with conflicts := c.aster.conflicts + 1 } ∧
        (u.clusterAt pkg).hh = (if keyLtO (some key) c.hh then some key else c.hh)) ∧
    (e.st = .aborted → (e.pause = true → c.ll ≠ some key → exec (.taskRestartReady pkg e.id) s = .next s) ∧
      ∀ w, e.pause = false ∨ c.ll = some key → s.writeRecord (pkg * 8) e.rid e.head e.vals = some w →
        ∃ (u : State) (r : Ready), exec (.taskRestartReady pkg e.id) s = .next u ∧ SameBytes w u ∧
          u.entryAt pkg e.id = some { e with st := .ready, pause := false } ∧ (u.clusterAt pkg).ready = c.ready ++ [r] ∧
          readyFor s e.rid e.head r) ∧
    (e.st = .running → (c.ll ≠ some key ∨ c.commitStop = some 0 → exec (.irrevocablePromotion pkg e.id) s = .next s) ∧
      ∀ sid, c.ll = some key → c.commitStop ≠ some 0 → s.slotRunning e.rid = some sid → Settled s → BufferOk e.buf → (∀ b ∈ e.buf, b.1 < 2 ^ 46) →
        ∃ (u : State) (x : Entry), exec (.irrevocablePromotion pkg e.id) s = .next u ∧ writes u ∧ u.entryAt pkg e.id = some x ∧
          x.firm = true ∧ x.buf = [] ∧ x.reads = [] ∧ x.qreads = [] ∧ x.st = .running ∧
          (u.clusterAt pkg).aster = { c.aster with promoted := c.aster.promoted + 1 } ∧
          (u.slotAt sid).head.flags = (s.slotAt sid).head.flags &&& 0xFFFFF7FF#32 ∧ ∀ n, n ≠ sid → u.slotAt n = s.slotAt n)

/-- R328, R329: the combiners of the horizon (`horizonDieCombine`, `horizonPackageCombine`, `horizonFabricCombine`). A die's report lies above no key of an unfinished task of the die, of a held
child, or of a record or event on its way from the die, and is all ones when none of its clusters has work; the package and the fabric take the least report, and give it to the clusters. -/
def Sys2Proof.Claims.HorizonReports : Prop :=
  ∀ (s : State) (die : Nat),
    (∃ u : State, exec (.horizonDieCombine die) s = .next u ∧ u = { s with dieKeys := u.dieKeys } ∧
      (∀ d, d ≠ die → Store.find? u.dieKeys d = Store.find? s.dieKeys d) ∧
      (let r := Store.get (none, none) u.dieKeys die
       (∀ i < 96, ∀ e ∈ (s.clusterAt (die * 96 + i)).entries, e.late = false →
         let key := some (s.entryKey (die * 96 + i) e)
         (e.st ≠ .done → e.st ≠ .committing → atMost r.1 key) ∧ atMost r.2 key) ∧
       (∀ i < 96, ∀ e ∈ (s.clusterAt (die * 96 + i)).entries, e.late = false → ∀ p ∈ e.held, p.timed = true →
         atMost r.1 (some ⟨p.key.1, p.key.2.1, p.key.2.2, (s.dev * 1024 + (die * 96 + i), (s.clusterAt (die * 96 + i)).serial)⟩)) ∧
       (∀ m ∈ s.flight, ∀ src id t, m.2 = .event src id t → src / 96 = die → atMost r.1 (some ⟨t, 1, id, (0, 0)⟩)) ∧
       (∀ m ∈ s.flight, ∀ p, m.2 = .place p → p.timed = true → p.sid / 16 / 96 = die →
         atMost r.1 (some ⟨p.key.1, p.key.2.1, p.key.2.2, (0, 0)⟩)) ∧
       (∀ m ∈ s.unacked, m.2.1 / 96 = die → atMost r.1 (some ⟨m.2.2.1, m.2.2.2.1, m.2.2.2.2, (0, 0)⟩)) ∧
       ((∀ i < 96, let c := s.clusterAt (die * 96 + i)
          c.entries = [] ∧ c.lark.run = 0 ∧ c.lark.pending = []) → s.flight = [] → s.unacked = [] →
          (∀ x ∈ s.launches, x.2.sent = none) → r = (none, none)))) ∧
    (∃ u : State, exec .horizonPackageCombine s = .next u ∧ u = { s with pkgKeys := u.pkgKeys, clusters := u.clusters } ∧
      IsLeast u.pkgKeys.1 ((List.range 8).map (fun d => (Store.get (none, none) s.dieKeys d).1)) ∧
      IsLeast u.pkgKeys.2 ((List.range 8).map (fun d => (Store.get (none, none) s.dieKeys d).2)) ∧
      (s.peers ≠ [] → u.clusters = s.clusters) ∧
      (s.peers = [] → ∀ e ∈ u.clusters, e.2.hh = u.pkgKeys.1 ∧ e.2.ll = u.pkgKeys.2)) ∧
    (∀ others : List (Key × Key), ∃ (u : State) (h l : Option Key), exec (.horizonFabricCombine others) s = .next u ∧
      u = { s with clusters := u.clusters } ∧ IsLeast h (s.pkgKeys.1 :: others.map (fun k => some k.1)) ∧
      IsLeast l (s.pkgKeys.2 :: others.map (fun k => some k.2)) ∧ ∀ e ∈ u.clusters, e.2.hh = h ∧ e.2.ll = l)

/-! ### Soft errors, pages, and what the engines do by themselves -/

namespace Sys2Proof.Claims

open Sys2Proof.Machine

/-- An error counter of a structure and a unit (R400). -/
def countOf (s : State) (code unit : Nat) (uncorrected : Bool) : BitVec 32 :=
  Store.get 0 s.errors (State.errorKey code unit uncorrected)

/-- One more error has been counted: the counter saturates, the others keep their value, and a rise of an uncorrected
count, or a corrected count that passes its threshold, interrupts (R400, R460). -/
def Counted (s u : State) (code unit : Nat) (uncorrected : Bool) : Prop :=
  let old := countOf s code unit uncorrected
  (countOf u code unit uncorrected).toNat = min (2 ^ 32 - 1) (old.toNat + 1) ∧
  (∀ k, k ≠ State.errorKey code unit uncorrected → Store.get 0 u.errors k = Store.get 0 s.errors k) ∧
  u.msix = (if old.toNat < 2 ^ 32 - 1 ∧ (uncorrected = true ∨ Store.find? s.thresholds code = some old.toNat) then 64 :: s.msix
    else s.msix) ∧
  (old.toNat < 2 ^ 32 - 1 → uncorrected = true → .errorCount code unit ∈ u.reports)

/-- No data, tag or register changes but descriptors, and those only at the blocks `p` of global memory and `q` of the
scratchpads, which are marked poisoned by structure `code` (R157). -/
def Marked (s u : State) (code : Nat) (p q : Nat → Prop) : Prop :=
  u.mem = s.mem ∧ u.l2 = s.l2 ∧ u.l1 = s.l1 ∧ u.owners = s.owners ∧ u.scr = s.scr ∧ u.tags = s.tags ∧ u.slots = s.slots ∧
  (∀ b, (p b → Store.get 0 u.memDesc b = BitVec.ofNat 16 (code * 256 + 0xFF)) ∧
    (¬p b → Store.get 0 u.memDesc b = Store.get 0 s.memDesc b)) ∧
  ∀ b, (q b → Store.get 0 u.scrDesc b = BitVec.ofNat 16 (code * 256 + 0xFF)) ∧
    (¬q b → Store.get 0 u.scrDesc b = Store.get 0 s.scrDesc b)

/-- Only the slot has changed, by `f`. -/
def OnlySlot (s u : State) (sid : Nat) (x : Slot) : Prop :=
  SameBytes s u ∧ u.scrDesc = s.scrDesc ∧ u.slotAt sid = x ∧ ∀ n, n ≠ sid → u.slotAt n = s.slotAt n

/-- The check that a slot with a task meets at its next instruction (R111, R399). -/
def checked (x : Slot) (origin unit code : Nat) (a : Word) : Slot :=
  if x.run = .idle then x
  else { x with deferred := x.deferred ++ [{ tval := BitVec.ofNat 64 (origin * 2 ^ 24 + unit * 2 ^ 8 + code), addr := a }] }

/-- The instruction that an engine was on: the oldest it holds, else the slot's own. -/
def engineAt (x : Slot) (q : List Accepted) : Word :=
  match q with
  | y :: _ => y.pc
  | [] => x.pc

/-- The walk of a launch's table from an address ends in a leaf `e` at entry address `a` (R419, R422). -/
def LeafAt (s : State) (launch : Nat) (va : Word) (a e b : Nat) : Prop :=
  s.pageEntry launch va.toNat = (a, .leaf e b) ∧ a + 8 ≤ 2 ^ 52 ∧ 16 ≤ b

/-- First byte of a leaf's frame. -/
def frameAt (e b : Nat) : Nat := e / 256 % 2 ^ 44 * 256 / 2 ^ b * 2 ^ b

/-- Neither TLB nor walker keeps a page of a launch, or an entry above it (R422 step 1). -/
def Forgotten (u : State) (launch base : Nat) : Prop :=
  (∀ c ∈ u.cores, ∀ x ∈ c.2.tlb, ¬(x.launch = launch ∧ x.base = base)) ∧
  (∀ c ∈ u.clusters, ∀ x ∈ c.2.tlb, ¬(x.launch = launch ∧ x.base = base)) ∧
  ∀ w ∈ u.walkers, ∀ x ∈ w.2, x.1 ≠ launch

/-- Nothing is on its way to a page (R422 step 2). -/
def Quiet (s : State) : Prop := s.flight = [] ∧ ∀ e ∈ s.slots, e.2.mq = []

/-- No line of a range is pinned in a governed cache (R257, R422). -/
def Unpinned (u : State) (lo n : Nat) : Prop :=
  ∀ sets ∈ [u.l1Sets, u.l2Sets, u.llcSets], ∀ x ∈ sets, ∀ w ∈ x.2, lo ≤ 1024 * w.2.line → 1024 * w.2.line < lo + n → w.2.code ≠ 63

/-- n bytes of an end of a command: in its window as resolved, or in global memory (R215, R243). -/
def EndAt (s : State) (c : Copy) (win : Option (Nat × Nat)) (base va : Word) (n : Nat) (k : Access) (at_ : Nat → Loc) : Prop :=
  (∀ i < n, InRange (at_ i) 1) ∧
  ((∃ core o, win = some (core, o) ∧ base.toNat ≤ va.toNat ∧ va.toNat / 2 ^ 32 = 0xFFFFFF00 ∧ (va.toNat + n - 1) / 2 ^ 32 = 0xFFFFFF00 ∧
      va.toNat - base.toNat < 2 ^ 32 ∧ ∀ i < n, at_ i = .scr core (o + (va.toNat - base.toNat) + i)) ∨
   (win = none ∧ va.toNat + n ≤ 2 ^ 64 ∧ va.toNat / 2 ^ 32 ≠ 0xFFFFFF00 ∧ (va.toNat + n - 1) / 2 ^ 32 ≠ 0xFFFFFF00 ∧
    ResidentOn s (c.sid / 2) c.rid.launch va n ∧
    ∀ i < n, ∃ pa, s.translate (c.sid / 2) c.rid.launch (va + BitVec.ofNat 64 i) k = .ok pa ∧ at_ i = .glob pa))

/-- Destination and source address of the next piece of a byte copy, and its length: the rest of the row, at most to the
next multiple of 128 bytes of the destination (R244). -/
def pieceDst (c : Copy) : Word := c.a + BitVec.ofInt 64 ((c.done / c.rowBytes : Nat) * c.strides.1 + (c.done % c.rowBytes : Nat))
def pieceSrc (c : Copy) : Word := c.b + BitVec.ofInt 64 ((c.done / c.rowBytes : Nat) * c.strides.2 + (c.done % c.rowBytes : Nat))
def pieceLen (c : Copy) : Nat := min (c.rowBytes - c.done % c.rowBytes) (128 - (pieceDst c).toNat % 128)

/-- A byte copy that reads its source. -/
def copiesBytes (i : Instr) : Bool :=
  match i with
  | .cp .. | .cp2d .. | .cpc .. | .cps .. => true
  | _ => false

/-- A byte copy that is the only command, in the middle of its work, with words for units. -/
def Midway (s : State) (k : Nat) (c : Copy) : Prop :=
  s.copies = [(k, c)] ∧ c.fault = none ∧ c.done < c.rows * c.rowBytes ∧ c.rowBytes % 4 = 0 ∧ c.done % 4 = 0 ∧
  c.a.toNat % 4 = 0 ∧ (copiesBytes c.i = true → c.b.toNat % 4 = 0) ∧ c.strides.1 % 4 = 0 ∧ c.strides.2 % 4 = 0 ∧ (c.live = true → s.entryOf c.sid = none)

/-- The instructions of the matrix engine, and of Phlox. -/
def isMatrix (i : Instr) : Prop :=
  match i with
  | .mclr .. | .mldb .. | .mmac .. | .mmacs .. | .mrd .. | .mwr .. | .mcvt .. | .msum .. | .mtr .. | .mfree .. => True
  | _ => False
def isPhlox (i : Instr) : Prop :=
  match i with
  | .pclr | .pcol .. | .pcolAt .. | .pcolrRd .. | .pcolrFr .. | .pdec .. | .pprop .. | .pbt .. | .prow .. | .ptrl .. | .pconf .. |
    .plvl .. | .pset .. | .pstat .. => True
  | _ => False

end Sys2Proof.Claims

/-- R397, R398, R400: a corrected error is counted, and changes nothing else; an uncorrectable one is counted, and does to
its structure what R397 says; a packet is tried again, and poisoned after 8 failed retries. A patrol scrub does the same for
the words of its stack, and of the LLC there, whose clean lines lose nothing. -/
def Sys2Proof.Claims.SoftErrors : Prop :=
  ∀ (s : State) (sid core off cache word code unit block line v pkg : Nat) (p : ErrPlace),
    let x := s.slotAt sid
    let no (_ : Nat) : Prop := False
    (∃ u : State, exec (.softErrorDetected p true) s = .next u ∧ Counted s u (s.errorUnit p).1 (s.errorUnit p).2 false ∧
      OnlySlot s u 0 (s.slotAt 0) ∧ u.clusters = s.clusters) ∧
    (∃ u : State, exec (.softErrorDetected (.scratch core off) false) s = .next u ∧ Counted s u 1 core true ∧
      Marked s u 1 no (· = State.scrKey core off / 64) ∧ u.clusters = s.clusters) ∧
    (∃ u : State, exec (.softErrorDetected (.memory code block) false) s = .next u ∧ Marked s u code (· = block) no ∧
      u.clusters = s.clusters ∧ (code ≠ 2 → code ≠ 4 → code ≠ 8 → code ≠ 15 →
        Counted s u code (if code = 9 then State.sliceOf (block / 16) else block / 16 % 16) true)) ∧
    (∃ u : State, exec (.softErrorDetected (.registry line) false) s = .next u ∧ Marked s u 10 (· / 16 = line) no ∧
      Counted s u 10 (State.sliceOf line) true) ∧
    (∀ y, s.l1At cache word = some y →
      (y.st = .valid → ∃ u : State, exec (.softErrorDetected (.l1 cache word) false) s = .next u ∧ Counted s u 2 cache false ∧
        u.slots = s.slots ∧ u.l1At cache word = none ∧ u.owners = s.owners ∧ u.memDesc = s.memDesc ∧ ∀ a, s.homeByte a = u.homeByte a) ∧
      (y.st ≠ .valid → ∃ u : State, exec (.softErrorDetected (.l1 cache word) false) s = .next u ∧ Counted s u 3 cache true ∧
        Marked s u 3 (· = word / 16) no)) ∧
    (∀ reg < 64, ∃ u : State, exec (.softErrorDetected (.vector sid reg) false) s = .next u ∧ Counted s u 5 (sid / 2) true ∧
      OnlySlot s u sid { x with v := (u.slotAt sid).v } ∧ ((u.slotAt sid).vphys reg).lanes = (x.vphys reg).lanes ∧
      (∀ b < 8, ((u.slotAt sid).vphys reg).descOf b = 0x05FF) ∧ ∀ n, n ≠ reg → (u.slotAt sid).vphys n = x.vphys n) ∧
    (∀ m < 8, ∃ u : State, exec (.softErrorDetected (.vector sid (64 + m)) false) s = .next u ∧ Counted s u 5 (sid / 2) true ∧
      OnlySlot s u sid { x with mPoison := x.mPoison ||| BitVec.ofNat 8 (2 ^ m) }) ∧
    (∀ a < 2, ∀ i < 64, ∀ j < 64, ∃ u : State, exec (.softErrorDetected (.accumulator sid a (64 * i + j)) false) s = .next u ∧
      Counted s u 6 (sid / 2) true ∧ OnlySlot s u sid { checked x 0 (sid / 2 % 8) 6 (engineAt x x.mq) with acc := (u.slotAt sid).acc } ∧
      (u.slotAt sid).accEl a i j = 0x7FC00000 ∧ ∀ b < 2, ∀ n < 64, ∀ m < 64, (b, n, m) ≠ (a, i, j) →
        (u.slotAt sid).accEl b n m = x.accEl b n m) ∧
    (∀ e c P, Store.find? x.panels e = some P → c < 64 → ∃ u : State,
      exec (.softErrorDetected (.weights sid e c) false) s = .next u ∧ Counted s u 7 (sid / 2) true ∧
      OnlySlot s u sid { checked x 0 (sid / 2 % 8) 7 (engineAt x x.mq) with panels := (u.slotAt sid).panels } ∧
      ∃ Q, Store.find? (u.slotAt sid).panels e = some Q ∧ Q.descOf c = 0x07FF ∧ Q.data = P.data ∧ ∀ n < 64, n ≠ c → Q.descOf n = P.descOf n) ∧
    (∀ (a : Word) (bits : BitVec 512), ∃ u : State, exec (.softErrorDetected (.icache sid a bits) false) s = .next u ∧
      Counted s u 4 (sid / 2) false ∧ OnlySlot s u sid { x with icopy := Store.set x.icopy (a.toNat / 64 * 64) bits }) ∧
    (∃ u : State, exec (.softErrorDetected (.larkspur pkg v) false) s = .next u ∧ Counted s u 11 pkg true ∧ OnlySlot s u 0 (s.slotAt 0) ∧
      (u.clusterAt pkg).lark.var v = { (s.clusterAt pkg).lark.var v with poison := true } ∧
      ∀ n, n ≠ v → (u.clusterAt pkg).lark.var n = (s.clusterAt pkg).lark.var n) ∧
    (∀ e, Only s pkg e → s.lag = true → e.st = .ready → ∃ (u : State) (y : Entry),
      exec (.softErrorDetected (.aster pkg 0) false) s = .next u ∧ Counted s u 12 pkg true ∧ u.entryAt pkg e.id = some y ∧
      y.st = .aborted ∧ y.buf = [] ∧ y.reads = [] ∧ y.head = e.head ∧ y.vals = e.vals) ∧
    (∀ e pa, (s.clusterAt pkg).entries[0]? = some e → e.firm = true → e.rid.pool = none →
      s.translate (pkg * 8) e.rid.launch e.rid.addr .load = .ok pa →
      ∃ u : State, exec (.softErrorDetected (.aster pkg 0) false) s = .next u ∧ Counted s u 12 pkg true ∧ Marked s u 12 (· = pa / 64) no) ∧
    (∀ e i, (s.clusterAt pkg).entries[0]? = some e → e.firm = true → e.rid.pool = some (pkg, i) →
      ∃ u : State, exec (.softErrorDetected (.aster pkg 0) false) s = .next u ∧ Counted s u 12 pkg true ∧ OnlySlot s u 0 (s.slotAt 0) ∧
        (u.clusterAt pkg).poolBad = i :: (s.clusterAt pkg).poolBad) ∧
    (∀ (y : Version), (s.clusterAt pkg).lark.versions[0]? = some y →
      ∃ u : State, exec (.softErrorDetected (.version pkg 0) false) s = .next u ∧ Counted s u 11 pkg true ∧ OnlySlot s u 0 (s.slotAt 0) ∧
        (u.clusterAt pkg).lark.versions =
          { y with val := { y.val with poison := true } } :: (s.clusterAt pkg).lark.versions.drop 1) ∧
    (∃ u : State, exec (.softErrorDetected (.recall cache line) false) s = .next u ∧ Counted s u 3 cache true ∧ u.slots = s.slots ∧
      ∀ b, Store.get 0 u.memDesc b = if b / 16 = line then 0x03FF else Store.get 0 s.memDesc b) ∧
    (∀ k, let n := Store.get 0 s.retries k
      (n < 8 → ∃ u : State, exec (.softErrorDetected (.packet k) false) s = .next u ∧ Counted s u 19 0 false ∧
        OnlySlot s u 0 (s.slotAt 0) ∧ u.flight = s.flight ∧ Store.get 0 u.retries k = n + 1) ∧
      (∀ (o : RedMsg) pa, n = 8 → Store.find? s.flight k = some (.red o) → o.loc = .glob pa →
        ∃ u : State, exec (.softErrorDetected (.packet k) false) s = .next u ∧ Counted s u 19 0 true ∧
          Marked s u 19 (· = pa / 64) no)) ∧
    (∃ u : State, exec (.softErrorDetected (.phlox pkg sid) false) s = .next u ∧ Counted s u 13 pkg true ∧
      OnlySlot s u sid (checked x 1 (pkg % 96) 13 (engineAt x x.pq)) ∧
      (u.clusterAt pkg).phlox = { (s.clusterAt pkg).phlox with poison := true }) ∧
    (∃ u : State, exec (.softErrorDetected (.tables pkg) false) s = .next u ∧ Counted s u 14 pkg true ∧ OnlySlot s u 0 (s.slotAt 0) ∧
      .tables (s.clusterAt pkg).launch pkg ∈ u.reports) ∧
    (∃ u : State, exec (.softErrorDetected (.clean code unit) false) s = .next u ∧ Counted s u code unit true ∧ OnlySlot s u 0 (s.slotAt 0)) ∧
    ∀ (stack : Nat) (fixed lost : List Nat),
      let mine (l : List Nat) : Nat := l.countP (fun b => b / 16 % 16 == stack)
      (∃ u : State, exec (.patrolScrub stack (fixed.map (2 * ·)) (lost.map (2 * ·))) s = .next u ∧
        Marked s u 17 (fun b => b ∈ lost ∧ b / 16 % 16 = stack) no ∧
        (countOf u 17 stack false).toNat = min (2 ^ 32 - 1) ((countOf s 17 stack false).toNat + mine fixed) ∧
        (countOf u 17 stack true).toNat = min (2 ^ 32 - 1) ((countOf s 17 stack true).toNat + mine lost)) ∧
      ∀ b, b / 16 % 16 = stack →
        (s.llcCopy (b / 16) = none → exec (.patrolScrub stack [] [2 * b + 1]) s = .next s) ∧
        (s.llcCopy (b / 16) = some false → ∃ u : State, exec (.patrolScrub stack [] [2 * b + 1]) s = .next u ∧
          Counted s u 15 stack false ∧ OnlySlot s u 0 (s.slotAt 0)) ∧
        (s.llcCopy (b / 16) = some true → ∃ u : State, exec (.patrolScrub stack [] [2 * b + 1]) s = .next u ∧
          Counted s u 16 stack true ∧ Marked s u 16 (· = b) no)

/-- R422: unmapping and migrating a page on which nothing is in flight. The entry is made invalid, TLBs and walkers forget
it, every byte of the frame is written back and its lines are unpinned; a migration carries data and descriptors to the
new frame and makes the entry name it. A pinned page does not move. -/
def Sys2Proof.Claims.PagesMove : Prop :=
  ∀ (s : State) (launch : Nat) (va : Word) (a e b : Nat), LeafAt s launch va a e b → Quiet s → Settled s →
    let f := frameAt e b
    let base := va.toNat / 2 ^ b * 2 ^ b
    let beside (n : Nat) : Prop := a + 8 ≤ n ∨ n + 2 ^ b ≤ a
    (beside f → ∃ u : State, exec (.pageUnmap launch va) s = .next u ∧ Became s u a (e - 1) ∧ Forgotten u launch base ∧
      Unpinned u f (2 ^ b) ∧ u.slots = s.slots ∧ u.memDesc = s.memDesc ∧
      ∀ q, f ≤ q → q < f + 2 ^ b → q < 2 ^ 52 → Memory.read u.mem q = s.peek q) ∧
    (e / 2 ^ 5 % 2 = 1 → ∀ n, exec (.pageMigrate launch va n) s = .next s) ∧
    ∀ n, e / 2 ^ 5 % 2 = 0 → n % 2 ^ b = 0 → n < 2 ^ 52 → n / 2 ^ 40 % 4 = 0 → s.inDomain (n / 2 ^ 42) = true → n ≠ f →
      beside f → beside n →
      ∃ u : State, exec (.pageMigrate launch va n) s = .next u ∧ wordAt u a 8 = n + e % 256 ∧ Forgotten u launch base ∧
        Unpinned u f (2 ^ b) ∧ u.slots = s.slots ∧
        (∀ i < 2 ^ b, u.peek (n + i) = s.peek (f + i) ∧ u.descAt (.glob (n + i)) = s.descAt (.glob (f + i))) ∧
        ∀ q < 2 ^ 52, (q < a ∨ a + 8 ≤ q) → (q < n ∨ n + 2 ^ b ≤ q) → u.peek q = s.peek q ∧ u.descAt (.glob q) = s.descAt (.glob q)

/-- R244, R415, R416, R211, R102: what the engines do by themselves. The copy engine begins a command and writes its next
piece (`copyPieceWrite`); a streamer finishes its oldest transfer (`streamTileDone`); a matrix or port instruction that was
accepted retires (`matrixRetire`, `engineInstructionComplete`), whichever it is, and leaves what it leaves when it retires in the step that issues it. -/
def Sys2Proof.Claims.EnginesGoOn : Prop :=
  ∀ (s : State) (k : Nat), s.flight = [] → Settled s → s.waiters = [] →
    (∀ (c : Copy) (D S : Nat → Loc), Midway s k c → c.bar = none → (c.live = true → (s.slotAt c.sid).ahead = []) →
      let m := pieceLen c
      EndAt s c c.dst c.a (pieceDst c) m .store D → (∀ i < m, c.selfOverlap (pieceDst c + BitVec.ofNat 64 i) = false) →
      (copiesBytes c.i = true ∧ EndAt s c c.src c.b (pieceSrc c) m .load S ∧ Clear m D m S) ∨ (∃ w x y z n, c.i = .cpl w x y z n) →
      ∃ u : State, exec (.copyPieceWrite k) s = .next u ∧
        Copied s u m D (fun i => if copiesBytes c.i then s.readLoc (S i)
          else BitVec.ofNat 8 (c.b.toNat / 2 ^ (8 * (((pieceDst c).toNat + i) % 8)))) (fun _ => False) ∧
        (c.done + m < c.rows * c.rowBytes → u.slots = s.slots ∧
          ∃ marks, u.copies = [(k, { c with done := c.done + m, begun := true, marks := marks })]) ∧
        (c.rows * c.rowBytes ≤ c.done + m → u.copies = [] ∧
          (u.slotAt c.sid).cnt = (if c.live then ((s.slotAt c.sid).dec .cp).cnt else (s.slotAt c.sid).cnt) ∧
          ∀ n, n ≠ c.sid → u.slotAt n = s.slotAt n)) ∧
    (∀ (x : Stream) (t : Nat) (counts : Bool) (rest : List (Nat × Bool)) (at_ : Nat → Nat),
      Store.find? s.streams k = some x → x.todo = (t, counts) :: rest → x.fault = none → 1 ≤ x.slots → x.slots ≤ 16 →
      x.ring + (128 + x.slots * (x.rows * x.rowbytes)) ≤ 0x40000 → x.ring % 64 = 0 → x.rowbytes % 64 = 0 → t < x.count →
      x.count < 2 ^ 32 → s.entryOf x.sid = none → (s.slotAt x.sid).ahead = [] → TileOn s (x.sid / 2) x.rid.launch x t at_ →
      let j := t % x.slots
      let slot := x.ring + 128 + j * (x.rows * x.rowbytes)
      ∃ u : State, exec (.streamTileDone k) s = .next u ∧
        FlagIs u x.core x.ring j (if x.out then (if t + x.slots < x.count then t + x.slots else 2 ^ 64 - 1) else t) ∧
        (x.out = false → Store.find? u.streams k = some { x with todo := rest } ∧
          ∀ o < x.rows * x.rowbytes, o % 64 = 0 → u.descAt (.scr x.core (slot + o)) = s.descAt (.glob (at_ o)) ∧
            ∀ i < 64, u.readLoc (.scr x.core (slot + o + i)) = s.peek (at_ o + i)) ∧
        (x.out = true → ∀ o < x.rows * x.rowbytes, o % 64 = 0 →
          (∀ h < x.rows * x.rowbytes, o < h → h % 64 = 0 → at_ h ≠ at_ o) →
          u.descAt (.glob (at_ o)) = s.descAt (.scr x.core (slot + o)) ∧
            ∀ i < 64, u.peek (at_ o + i) = s.readLoc (.scr x.core (slot + o + i))) ∧
        (u.slotAt x.sid).cnt = if counts = true ∧ (s.slotAt x.sid).rid = x.rid ∧ (s.slotAt x.sid).run ≠ .idle
          then ((s.slotAt x.sid).dec .tl).cnt else (s.slotAt x.sid).cnt) ∧
    (∀ (y : Accepted) (rest : List Accepted), (s.slotAt k).mq = y :: rest → s.allEntries = [] →
      ∃ u : State, exec (.matrixRetire k) s = .next u ∧ (u.slotAt k).mq = rest ∧
        (u.slotAt k).cnt = ((s.slotAt k).dec .tl).cnt ∧ ∀ n, n ≠ k → u.slotAt n = s.slotAt n) ∧
    (∀ (a : AReg) (y : Accepted) (rest : List Accepted), (s.slotAt k).mq = y :: rest → y.i = .mclr a →
      ∃ u : State, exec (.matrixRetire k) s = .next u ∧ SameBytes s u ∧ (∀ n, n ≠ k → u.slotAt n = s.slotAt n) ∧
        (let x := u.slotAt k
         x = { (s.slotAt k).dec .tl with mq := rest, acc := x.acc } ∧
         ∀ i < 64, ∀ j < 64, x.accEl a.val i j = 0 ∧ ∀ b, b ≠ a → x.accEl b.val i j = (s.slotAt k).accEl b.val i j)) ∧
    (∀ (a : GReg) (y : Accepted) (rest : List Accepted), (s.slotAt k).pq = y :: rest → y.i = .plvl a →
      let x := (s.clusterAt (k / 16)).phlox
      ∃ u : State, exec (.engineInstructionComplete k true) s = .next u ∧ SameBytes s u ∧ (∀ n, u.clusterAt n = s.clusterAt n) ∧
        (∀ n, n ≠ k → u.slotAt n = s.slotAt n) ∧
        u.slotAt k = ({ s.slotAt k with pq := rest }).setG a.val (BitVec.ofNat 64 (x.trail.length * 2 ^ 16 + x.level))) ∧
    ∀ (i : Instr) (t : State), s.straight = true → s.lag = false → s.slot.head.spec = false → s.entryOf s.cur = none → exec i { s with lag := true } = .next t →
      (isMatrix i → s.slot.mq = [] → t.slot.mq ≠ [] → ∃ u v : State, exec (.matrixRetire s.cur) { t with lag := false } = .next u ∧
        exec i s = .next v ∧ u.slot = v.slot ∧ ∀ q, InRange q 1 → u.readLoc q = v.readLoc q) ∧
      (isPhlox i → s.slot.pq = [] → t.slot.pq ≠ [] → ∃ u v : State,
        exec (.engineInstructionComplete s.cur true) { t with lag := false } = .next u ∧ exec i s = .next v ∧ u.slot = v.slot ∧
        (u.clusterAt (s.cur / 16)).phlox = (v.clusterAt (s.cur / 16)).phlox)

/-- R423: a command or a transfer that meets a page it cannot use stops there and is recorded (`engineTransferFault`); an unsealed region is to
park, a sealed one or a handler is held; a stream's fault holds the stream, and the slot while a handler runs there (R110).
Firmware lets it go on (`engineFaultResolved`) when the page can be used, copies a frame that is to be copied on a write, waits for a page that is
not resident, and leaves the task faulted when the page never can be used, or an element has no address of 64 bits (R411). A
parked task whose command is gone waits for its page and then becomes ready. -/
def Sys2Proof.Claims.EngineFaults : Prop :=
  ∀ (s : State) (j : Nat),
    (∀ (c : Copy) (va : Word) (write : Bool), Midway s j c →
      ((write = false ∧ va = pieceSrc c ∧ copiesBytes c.i = true ∧ c.src = none) ∨
        (write = true ∧ va = pieceDst c ∧ (∃ w x y z n, c.i = .cpl w x y z n) ∧ c.dst = none)) →
      va.toNat / 2 ^ 32 ≠ 0xFFFFFF00 → (s.translate (c.sid / 2) c.rid.launch va (if write then .store else .load)).isOk = false →
      ∃ u : State, exec (.engineTransferFault (2 * j)) s = .next u ∧ SameBytes s u ∧ .engineFault c.rid va ∈ u.reports ∧
        u.copies = [(j, { c with fault := some (va, write) })] ∧ (∀ n, n ≠ c.sid → u.slotAt n = s.slotAt n) ∧
        u.slotAt c.sid = (let x := s.slotAt c.sid
          if c.live = false then x
          else if x.region.sealed = true ∨ x.csr.tcause.getLsbD 63 = true then { x with run := .engineHeld }
          else { x with engFault := some va })) ∧
    (∀ (x : Stream) (t : Nat) (counts : Bool) (rest : List (Nat × Bool)), s.flight = [] → Store.find? s.streams j = some x →
      x.todo = (t, counts) :: rest → x.fault = none → 64 ≤ x.rows * x.rowbytes →
      let va := x.base + BitVec.ofNat 64 t * x.tilestride
      (s.translate (x.sid / 2) x.rid.launch va (if x.out then .store else .load)).isOk = false →
      ∃ u : State, exec (.engineTransferFault (2 * j + 1)) s = .next u ∧ SameBytes s u ∧ .engineFault x.rid va ∈ u.reports ∧
        (∀ n, u.slotAt n = (let y := s.slotAt n
          if n = x.sid ∧ y.run = .running ∧ y.rid = x.rid ∧ y.csr.tcause.getLsbD 63 = true then { y with run := .engineHeld } else y)) ∧
        Store.find? u.streams j = some { x with fault := some (va, x.out) } ∧
        ∀ n, n ≠ j → Store.find? u.streams n = Store.find? s.streams n) ∧
    (∀ (c : Copy) (va : Word) (write : Bool), s.copies = [(j, c)] → c.fault = some (va, write) → canonical va.toNat = true →
      va.toNat / 2 ^ 32 ≠ 0xFFFFFF00 → (∀ e ∈ s.streams, e.2.fault = none) →
      let goes (u : State) : Prop := u.copies = [(j, { c with fault := none })] ∧
        u.slotAt c.sid = (let x := s.slotAt c.sid
          if c.live = false then x else { x with run := if x.run = .engineHeld then .running else x.run
                                                 engFault := if x.engFault = some va then none else x.engFault })
      let leaves (cause : Nat) : Prop := ∃ u : State, exec (.engineFaultResolved (3 * j)) s = .next u ∧ u.copies = [] ∧
        (∃ old, .faulted c.rid cause va old c.pc 0 ∈ u.reports ∧
          old = (match s.slotRunning c.rid with | some t => (s.slotAt t).csr.tcause | none => 0)) ∧ (u.launchAt c.rid.launch).faulted = (s.launchAt c.rid.launch).faulted + 1
      (s.farElement c = true → leaves (if write then 6 else 5)) ∧
      (∀ a, s.farElement c = false → s.pageEntry c.rid.launch va.toNat = (a, .absent) →
        exec (.engineFaultResolved (3 * j)) s = .next s) ∧
      (∀ a, s.pageEntry c.rid.launch va.toNat = (a, .bad) → leaves (if write then 6 else 5)) ∧
      ∀ a e b, s.farElement c = false → LeafAt s c.rid.launch va a e b → c.rerun = false → s.waiters = [] →
        (write = true → e / 8 % 2 = 0 → e / 4 % 2 = 0 → leaves 7) ∧
        (write = false ∨ (e / 8 % 2 = 0 ∧ e / 4 % 2 = 1) →
          (∃ v, (s.dropVa c.rid.launch va).nextPiece j { c with fault := none } = .ok v) →
          ∃ u : State, exec (.engineFaultResolved (3 * j)) s = .next u ∧ SameBytes s u ∧ goes u) ∧
        (write = true → e / 8 % 2 = 1 → ∃ u : State, exec (.engineFaultResolved (3 * j)) s = .next u ∧ goes u ∧
          (let y := wordAt u a 8; y % 8 = e % 4 + 4 ∧ y / 8 % 2 = 0 ∧ y / 16 % 16 = e / 16 % 16))) ∧
    (∀ (x : Stream) (va : Word) (write : Bool), s.streams = [(j, x)] → x.fault = some (va, write) →
      canonical va.toNat = true → va.toNat / 2 ^ 32 ≠ 0xFFFFFF00 → (∀ e ∈ s.copies, e.2.fault = none) →
      (∀ a, s.pageEntry x.rid.launch va.toNat = (a, .absent) → exec (.engineFaultResolved (3 * j + 1)) s = .next s) ∧
      ∀ a e b, LeafAt s x.rid.launch va a e b → write = false ∨ (e / 8 % 2 = 0 ∧ e / 4 % 2 = 1) →
        ∃ u : State, exec (.engineFaultResolved (3 * j + 1)) s = .next u ∧ SameBytes s u ∧
          u.streams = [(j, { x with fault := none })] ∧
          ∀ n, u.slotAt n = (let y := s.slotAt n
            if n = x.sid ∧ y.run = .engineHeld then { y with run := .running } else y)) ∧
    ∀ (w : Waiter), s.waiters = [w] → w.kind = 6 → (s.launchAt w.rid.launch).saved = none → s.copies = [] → w.key < 2 ^ 64 →
      canonical w.key = true → w.key / 2 ^ 32 ≠ 0xFFFFFF00 →
      (∀ a, s.pageEntry w.rid.launch w.key = (a, .absent) →
        exec (.engineFaultResolved (3 * (w.rid.launch * 2 ^ 20) + 2)) s = .next s) ∧
      ∀ h v t, (∀ a, s.pageEntry w.rid.launch w.key ≠ (a, .absent)) → s.readRecord (w.pkg * 8) w.rid = some (h, v) →
        s.writeRecord (w.pkg * 8) w.rid ((h.setState 1).setWake 0 0) (if w.rid.pool.isSome then v else []) = some t →
        ∃ (u : State) (e : Ready), exec (.engineFaultResolved (3 * (w.rid.launch * 2 ^ 20) + 2)) s = .next u ∧ u.waiters = [] ∧
          (u.clusterAt w.pkg).ready = (s.clusterAt w.pkg).ready ++ [e] ∧ e.rid = w.rid ∧ SameBytes t u

/-! ### The front end -/

namespace Sys2Proof.Claims

open Sys2Proof.Machine

/-- A completion address of R429: a multiple of 32 of this module, in its memory or in host memory. -/
def DoneAddr (s : State) (a : Nat) : Prop :=
  a % 32 = 0 ∧ a < 2 ^ 52 ∧ a / 2 ^ 42 = s.dev ∧ (a / 2 ^ 40 % 4 = 0 ∨ a / 2 ^ 40 % 4 = 2)

/-- n bytes at a physical address of this module's memory, or of host memory (R407). -/
def hostOr (u : State) (a n : Nat) : Nat :=
  if a / 2 ^ 40 % 4 = 2 then leNat ((List.range n).map (fun i => Memory.read u.hostMem (a % 2 ^ 40 + i))) else wordAt u a n

/-- A completion record stands at an address (R429), with the clock of a state. -/
def Completed (s u : State) (a id status placed extra : Nat) : Prop :=
  hostOr u a 4 = id % 2 ^ 32 ∧ hostOr u (a + 4) 4 = status ∧ hostOr u (a + 8) 8 = placed % 2 ^ 64 ∧
  hostOr u (a + 16) 8 = s.clock.toNat ∧ hostOr u (a + 24) 8 = extra % 2 ^ 64

/-- The entry that a running queue reads next (R425, R426): its address, if any. -/
def entryAddr (s : State) (q : Nat) : Option Nat :=
  let x := s.queueAt q
  if s.boot.mode = 1 ∧ q < 64 ∧ x.state = 1 ∧ x.consumer ≠ x.producer then some (x.base + 64 * (x.consumer.toNat % 2 ^ (x.lsz + 4)))
  else none

/-- A block of 64 bytes that can be read at an offset of this module's memory (R407, R426). -/
def BlockAt (s : State) (pa : Nat) (b : List Byte) : Prop :=
  pa < 2 ^ 52 ∧ pa / 2 ^ 42 = s.dev ∧ pa / 2 ^ 40 % 4 = 0 ∧ State.isPoison (s.descAt (.glob pa)) = false ∧ b = s.peekBytes pa 64

/-- The command that a queue reads next. -/
def CommandAt (s : State) (q : Nat) (b : List Byte) : Prop :=
  ∃ o, entryAddr s q = some o ∧ o < 2 ^ 40 ∧ BlockAt s (s.dev * 2 ^ 42 + o) b ∧ DoneAddr s (Machine.fieldAt b 56 8)

/-- The queue has become y, the others are as before. -/
def QueueIs (s u : State) (q : Nat) (y : Queue) : Prop := u.queueAt q = y ∧ ∀ n, n ≠ q → u.queueAt n = s.queueAt n

/-- The entry has been taken. -/
def Taken (s u : State) (q : Nat) : Prop := QueueIs s u q { s.queueAt q with consumer := (s.queueAt q).consumer + 1 }

/-- A launch command keeps R430. -/
def LaunchGood (b : List Byte) : Prop :=
  let f := Machine.fieldAt b
  f 0 1 = 1 ∧ f 1 1 < 2 ∧ 1 ≤ f 2 2 ∧ f 2 2 ≤ 768 ∧ f 4 4 ≠ 0 ∧ f 13 1 < 16 ∧ f 14 2 ≤ 4096 ∧ f 16 8 % 4096 = 0 ∧
  (f 24 8 = 0 ∨ (f 24 8 / 8 % 8 = 0 ∧ f 24 8 % 8 ≤ 4)) ∧ f 32 8 % 8 = 0 ∧ f 40 8 % 32 = 0 ∧ 1 ≤ f 48 4 ∧ f 48 4 ≤ 2 ^ 24 ∧ f 52 4 = 0

/-- Another command names only its launch and its completion address (R428). -/
def PlainGood (b : List Byte) (op : Nat) : Prop :=
  Machine.fieldAt b 0 1 = op ∧ Machine.fieldAt b 1 3 = 0 ∧ ∀ i, 8 ≤ i → i < 56 → b.getD i 0 = 0

/-- A launch with this id has not ended. -/
def Live (s : State) (id : Nat) : Prop := ∃ l, Store.find? s.launches id = some l ∧ l.st ≠ .ended

/-- The command is rejected with status 3 (R426), and nothing else happens. -/
def Rejects (s : State) (q : Nat) (b : List Byte) (i : Instr) : Prop :=
  ∃ u : State, exec i s = .next u ∧ Taken s u q ∧ u.msix = q :: s.msix ∧ u.launches = s.launches ∧ u.slots = s.slots ∧
    u.clusters = s.clusters ∧ Completed s u (Machine.fieldAt b 56 8) (Machine.fieldAt b 4 4) 3 0 0

/-- The launch that a command describes waits for its turn (R430, R431). -/
def Waiting (l : Launch) (b : List Byte) (id : Nat) (o : Origin) : Prop :=
  let f := Machine.fieldAt b
  l.st = .waiting ∧ l.id = id ∧ l.origin = o ∧ l.fused = decide (f 1 1 = 1) ∧ l.want = f 2 2 ∧ l.after = f 8 4 ∧
  l.wantDom = f 12 1 ∧ l.queues.toNat = f 13 1 ∧ l.pool = f 14 2 ∧ l.root = f 16 8 ∧ l.tvec.toNat = f 24 8 ∧
  l.rootCell.toNat = f 32 8 ∧ l.seedTab.toNat = f 40 8 ∧ l.seeds = f 48 4 ∧ l.complete = f 56 8 ∧ l.next = 0 ∧ l.placed = 0 ∧
  l.closed = false

/-- A cache of the grant of a launch: a core's, or a fused cluster's (R265). -/
def ofGrant (l : Launch) (c : Nat) : Prop := ∃ p ∈ l.grant, (p * 8 ≤ c ∧ c < p * 8 + 8) ∨ c = 6144 + p

/-- Every byte whose word no cache outside the grant owns has reached the memory side (R437). -/
def Flushed (s u : State) (l : Launch) : Prop :=
  ∀ q < 2 ^ 52, (∀ c, Store.find? s.owners (q / 4) = some c → ofGrant l c) → Memory.read u.mem q = s.peek q

/-- No line of a set of domains is pinned (R257). -/
def UnpinnedOf (u : State) (l : Launch) : Prop :=
  ∀ sets ∈ [u.l1Sets, u.l2Sets, u.llcSets], ∀ x ∈ sets, ∀ w ∈ x.2, w.2.code = 63 → w.2.dom ∉ l.domains

/-- The clusters of the grant are free, and hold nothing of the launch (R436). -/
def Freed (s u : State) (id : Nat) (l : Launch) : Prop :=
  (∀ p ∈ l.grant, (s.clusterAt p).launch = id → let c := u.clusterAt p
    c.launch = 0 ∧ c.entries = [] ∧ c.ready = [] ∧ c.teams = [] ∧ c.pool = [] ∧ c.fifo = []) ∧
  (∀ w ∈ u.waiters, w.rid.launch ≠ id) ∧ (∀ a ∈ u.allocs, a.rid.launch ≠ id) ∧ (∀ c ∈ u.copies, c.2.rid.launch ≠ id) ∧
  ∀ x ∈ u.streams, x.2.rid.launch ≠ id

/-- A launch has ended: its slots have stopped, its grant is free, its domains are given back and unpinned. -/
def Over (s u : State) (id : Nat) (l : Launch) : Prop :=
  (u.launchAt id).st = .ended ∧ (u.launchAt id).domains = [] ∧ Freed s u id l ∧ UnpinnedOf u l ∧
  ∀ n, ((s.slotAt n).rid.launch = id → (s.slotAt n).run ≠ .idle → (u.slotAt n).run = .idle) ∧
    ((s.slotAt n).rid.launch ≠ id → u.slotAt n = s.slotAt n)

/-- The engines have completed all that they accepted of the tasks of a launch (R103). -/
def EnginesDone (s : State) (id : Nat) : Prop :=
  ∀ e ∈ s.slots, e.2.rid.launch = id → e.2.vq = [] ∧ e.2.mq = [] ∧ e.2.pq = []

/-- A launch by its id, which no pre-emption, resumption or flush command waits for. -/
def Known (s : State) (id : Nat) (l : Launch) : Prop :=
  Store.find? s.launches id = some l ∧ l.id = id ∧ l.preDone = none ∧ l.resume = none ∧ Rising s.slots ∧ DoneAddr s l.complete ∧
  EnginesDone s id

/-- The lowest free clusters, in ascending order (R431). -/
def LowestClusters (s : State) (l : List Nat) : Prop :=
  l.Pairwise (· < ·) ∧ (∀ p ∈ l, p < 768 ∧ (s.clusterAt p).launch = 0) ∧
  ∀ p < 768, (s.clusterAt p).launch = 0 → p ∉ l → ∀ c ∈ l, c < p

/-- A reuse domain that no launch holds. -/
def FreeDomain (s : State) (d : Nat) : Prop := 1 ≤ d ∧ d < 256 ∧ ∀ x ∈ s.launches, x.2.st ≠ .ended → d ∉ x.2.domains

/-- The lowest free reuse domains. -/
def LowestDomains (s : State) (l : List Nat) : Prop :=
  l.Pairwise (· < ·) ∧ (∀ d ∈ l, FreeDomain s d) ∧ ∀ d, FreeDomain s d → d ∉ l → ∀ c ∈ l, c < d

/-- The turn of a launch has come: every earlier launch of its queue has finished dispatch, and the launch that it comes
after has ended (R431). -/
def Turn (s : State) (l : Launch) : Prop :=
  (∀ q, l.origin = .queue q → ∀ x ∈ s.launches, x.2.origin = .queue q → l.seq ≤ x.2.seq ∨ x.2.closed = true ∨ x.2.st = .ended) ∧
  (l.after = 0 ∨ ∃ x, Store.find? s.launches l.after = some x ∧ x.st = .ended)

/-- Entry i of the seed table of a launch, read on a core (R432). -/
def SeedAt (s : State) (core : Nat) (l : Launch) (i : Nat) (b : List Byte) : Prop :=
  ∃ pa, s.translate core l.id (l.seedTab + BitVec.ofNat 64 (32 * i)) .load = .ok pa ∧
    State.isPoison (s.descAt (.glob pa)) = false ∧ b = s.peekBytes pa 32

/-- The entry passes R432 for a grant of n clusters and the domains granted. -/
def SeedGood (s : State) (core id n : Nat) (doms : List Nat) (b : List Byte) : Prop :=
  let f := Machine.fieldAt b
  let a : Word := BitVec.ofNat 64 (f 0 8)
  (f 16 2 = 0xFFFF ∨ f 16 2 < n) ∧ f 25 7 = 0 ∧
  ((f 18 1 = 1 ∧ 1 ≤ f 19 1 ∧ f 19 1 ≤ 8 ∧ f 20 1 ≤ 1 ∧ f 21 1 ≤ 7 ∧ f 22 2 ≤ 256 ∧ (f 24 1 = 0 ∨ f 24 1 ∈ doms) ∧
      f 0 8 / 8 % 8 = 0 ∧ f 0 8 % 8 ≤ 4 ∧ f 8 8 % 64 = 0 ∧
      ∀ i < 3 * f 19 1, (s.translate core id (BitVec.ofNat 64 (f 8 8) + BitVec.ofNat 64 (64 * i)) .store).isOk = true) ∨
   (f 18 1 = 0 ∧ f 19 1 = 1 ∧ f 8 8 = 0 ∧ f 20 1 = 0 ∧ f 21 1 = 0 ∧ f 22 2 = 0 ∧ f 24 1 = 0 ∧ f 0 8 % 64 = 0 ∧
      ∃ pa, s.translate core id a .store = .ok pa ∧
        placeable (Head.ofBytes (s.peekBytes pa 64)) [0, 1, 2] = true))

/-- The free cores of a cluster, lowest first (R434). -/
def freeOn (s : State) (p : Nat) : List Nat :=
  ((List.range 8).map (fun c => p * 8 + c)).filter (fun c =>
    decide ((s.slotAt (2 * c)).run = .idle) && decide ((s.slotAt (2 * c + 1)).run = .idle) && s.allocs.all (fun a => a.core != c))

/-- A gang of n members fits a cluster (R434, R268). -/
def Fits (s : State) (p n : Nat) : Prop := n ≤ (freeOn s p).length ∧ (s.clusterAt p).teams.length < 64

/-- The clusters that a gang may go to. -/
def mayGo (l : Launch) (g : Gang) (p : Nat) : Prop :=
  match g.grant with
  | some i => l.grant[i]? = some p
  | none => p ∈ l.grant

/-- The cluster that takes a gang: the named one, or the first of the grant that it fits (R434). -/
def GoesTo (s : State) (l : Launch) (g : Gang) (p : Nat) : Prop :=
  Fits s p g.members ∧ match g.grant with
    | some i => l.grant[i]? = some p
    | none => ∃ k : Nat, l.grant[k]? = some p ∧ ∀ j < k, ∀ r, l.grant[j]? = some r → ¬Fits s r g.members

/-- No slot runs a task of the launch, no copy or engine work of it is left, and its join cells count its spawns. -/
def NothingRuns (s : State) (id : Nat) : Prop :=
  (∀ e ∈ s.slots, e.2.run = .idle ∨ e.2.run = .held ∨ e.2.rid.launch ≠ id) ∧ (∀ c ∈ s.copies, c.2.rid.launch ≠ id) ∧
  EnginesDone s id ∧ ∀ m ∈ s.flight, ∀ p, m.2 = .place p → p.launch = id → p.counted = true

/-- Some slot runs a task of the launch. -/
def Runs (s : State) (id n : Nat) : Prop := ∃ x, Store.find? s.slots n = some x ∧ x.run = .running ∧ x.rid.launch = id

/-- What is saved of a launch that is pre-empted with nothing left running (R440, R442). -/
def SavedAs (s u : State) (id : Nat) (l : Launch) (at_ : Nat) : Prop :=
  (u.launchAt id).st = .preempted ∧ (u.launchAt id).domains = l.domains ∧ Freed s u id l ∧ UnpinnedOf u l ∧ u.slots = s.slots ∧
  at_ % 4096 = 0 ∧ at_ / 2 ^ 42 = s.dev ∧
  ∃ v, (u.launchAt id).saved = some v ∧ v.addr = at_ ∧ v.clusters = l.grant.map s.clusterAt ∧ v.copies = l.recorded ∧
    v.tasks = l.stopped ∧ (∀ w ∈ s.waiters, w.rid.launch = id → ∃ i, (i, w) ∈ v.waiters) ∧
    (∀ x ∈ s.streams, x.2.rid.launch = id → (∃ a ∈ v.allocs, a.alloc.rid = x.2.rid) → x ∈ v.streams) ∧
    (∀ x ∈ v.streams, ∃ a ∈ v.allocs, a.alloc.rid = x.2.rid) ∧
    ∀ a ∈ s.allocs, a.rid.launch = id → (∃ h g, s.readRecord a.core a.rid = some (h, g) ∧ h.flags.getLsbD 9 = true) →
      ∃ x ∈ v.allocs, x.alloc = a ∧ ∀ o < a.size * 1024,
        Store.get 0 x.bytes o = Memory.read s.scr (State.scrKey a.core (a.base * 4096) + o)

/-- A launch goes on, on the clusters `new`, as it was saved (R443). -/
def ResumedOn (s u : State) (id : Nat) (l : Launch) (v : Saved) (new : List Nat) : Prop :=
  let y := u.launchAt id
  y.st = (if l.closed then .running else .dispatching) ∧ y.grant = new ∧ y.domains = l.domains ∧ y.saved = none ∧ y.resume = none ∧
  (∀ (i : Nat) (c : Cluster) (p : Nat), v.clusters[i]? = some c → new[i]? = some p → let k := u.clusterAt p
    k.launch = c.launch ∧ k.lark = c.lark ∧ k.phlox = c.phlox ∧ k.queues = c.queues ∧ k.fifo = c.fifo ∧ k.fused = c.fused ∧
    k.pool = c.pool ∧ k.entries.length = c.entries.length ∧ k.ready.length = c.ready.length) ∧
  (∀ n, u.slotAt n = s.slotAt n) ∧
  ∀ a, v.allocs = [a] → Rising a.bytes → (∀ x ∈ a.bytes, x.1 < a.alloc.size * 1024) → a.alloc.base * 4 + a.alloc.size ≤ 256 →
    ∀ i p : Nat, l.grant[i]? = some (a.alloc.core / 8) → (∀ j < i, l.grant[j]? ≠ some (a.alloc.core / 8)) → new[i]? = some p →
      ∀ o < a.alloc.size * 1024,
        u.readLoc (.scr (p * 8 + a.alloc.core % 8) (a.alloc.base * 4096 + o)) = Store.get 0 a.bytes o

/-- A saved launch with nothing suspended, to be resumed on n clusters. -/
def Asleep (l : Launch) (v : Saved) : Prop :=
  l.saved = some v ∧ v.clusters.length = l.grant.length ∧ v.copies = [] ∧ v.streams = [] ∧ v.tasks = [] ∧ v.waiters = [] ∧
  v.mail = [] ∧ (∀ c ∈ v.clusters, ∀ e ∈ c.entries, e.rid.pool = none)

/-- The template of a time-triggered entry: a launch command that can be read (R438). -/
def TemplateCmd (s : State) (x : TtEntry) (b : List Byte) : Prop :=
  BlockAt s x.template.toNat b ∧ Machine.fieldAt b 0 1 = 1 ∧ DoneAddr s (Machine.fieldAt b 56 8)

/-- The launch id of firing k: the template's with bits 15:0 replaced. -/
def firingId (b : List Byte) (k : Nat) : Nat := Machine.fieldAt b 4 4 / 2 ^ 16 * 2 ^ 16 + k % 2 ^ 16

/-- Firing k of entry e issues the template: its launch waits for its turn; the entry has become y but for the launch id. -/
def Issues (u : State) (e k : Nat) (b : List Byte) (y : TtEntry) : Prop :=
  u.ttAt e = { y with last := firingId b k } ∧ ∃ l, Store.find? u.launches (firingId b k) = some l ∧
    Waiting l b (firingId b k) (.table e)

/-- A template that keeps R430 with the id of a firing that no live launch has. -/
def MayIssue (s : State) (b : List Byte) (k : Nat) : Prop :=
  firingId b k ≠ 0 ∧ LaunchGood (b.take 4 ++ leBytes (k % 65536) 2 ++ b.drop 6) ∧ ¬Live s (firingId b k)

end Sys2Proof.Claims

/-- R425, R427, R437: the registers of a command queue: doorbell, start, destruction and reset. A write that breaks R425
sets state 3; one that R427 does not allow is discarded and counted. -/
def Sys2Proof.Claims.QueueControl : Prop :=
  ∀ (s : State) (q : Nat),
    let x := s.queueAt q
    let only (i : Instr) (y : Queue) : Prop := ∃ u : State, exec i s = .next u ∧ u = { s with queues := u.queues } ∧ QueueIs s u q y
    let lost (i : Instr) : Prop := exec i s = .next { s with discards := s.discards + 1 }
    let broken (y : Queue) : Prop := 12 ≤ y.lsz ∨ 2 ^ (y.lsz + 4) < (y.producer - y.consumer).toNat
    let off : Queue := { x with state := 0, producer := 0, consumer := 0, error := 0 }
    (64 ≤ q → ∀ p, ∀ i ∈ [Instr.queueDoorbell q p, .queueStart q, .queueDestroy q, .queueReset q], lost i) ∧
    (q < 64 →
      (∀ p, let y := { x with producer := p }
        ((x.state = 0 ∨ x.state = 1) → broken y → only (.queueDoorbell q p) { y with state := 3 }) ∧
        ((x.state ≠ 0 ∧ x.state ≠ 1) ∨ ¬broken y → only (.queueDoorbell q p) y)) ∧
      (x.state = 0 → s.boot.mode = 1 → (broken x → only (.queueStart q) { x with state := 3 }) ∧
        (¬broken x → only (.queueStart q) { x with state := 1 })) ∧
      (x.state ≠ 0 ∨ s.boot.mode ≠ 1 → lost (.queueStart q)) ∧
      (x.state = 3 → only (.queueReset q) off) ∧ (x.state = 0 → exec (.queueReset q) s = .next s) ∧
      (x.state ≠ 0 → x.state ≠ 3 → lost (.queueReset q)) ∧ (x.state ≠ 1 → lost (.queueDestroy q)) ∧
      (x.state = 1 →
        ((∀ l ∈ s.launches, l.2.origin = .queue q → l.2.st = .ended ∨ (l.2.closed = true ∧ l.2.destroyed = false ∧ l.2.st ≠ .waiting)) →
          only (.queueDestroy q) off) ∧
        (∀ id l, s.launches = [(id, l)] → l.origin = .queue q → l.closed = false → DoneAddr s l.complete →
          (l.st = .waiting → ∃ u : State, exec (.queueDestroy q) s = .next u ∧ QueueIs s u q off ∧ u.launches = [(id, { l with st := .ended })] ∧
            Completed s u l.complete id 2 0 0 ∧ u.msix = q :: s.msix) ∧
          (l.st = .dispatching → Settled s → l.rootPa + 8 ≤ 2 ^ 52 → l.rootPa % 8 = 0 → s.waiters = [] →
            ∃ u : State, exec (.queueDestroy q) s = .next u ∧
              QueueIs s u q { x with state := 2, consumer := x.producer } ∧
              u.launches = [(id, { l with destroyed := true, closed := true, st := .running })] ∧
              Became s u l.rootPa (cellDown (wordAt s l.rootPa 8) 1))))) 

/-- R426, R428 to R430: a running queue's next entry. One that cannot be read stops the queue; a launch command that keeps
R430 is taken and waits; a command that breaks a limit, of an unknown opcode, or for a launch on which it cannot act, is
rejected with status 3; an event of one opcode leaves entries of the others alone. -/
def Sys2Proof.Claims.CommandsTaken : Prop :=
  ∀ (s : State) (q : Nat), Settled s →
    let x := s.queueAt q
    let all : List (Instr × Nat) := [(.launch q, 1), (.preemptLaunch q, 2), (.resumeLaunch q, 3), (.endLaunch q, 4), (.flushLaunch q, 5)]
    (entryAddr s q = none → exec (.unknownOpcodeCommand q) s = .next s ∧ ∀ i ∈ all, exec i.1 s = .next s) ∧
    (∀ o, entryAddr s q = some o → (¬∃ b, CommandAt s q b) → ∀ i ∈ (.unknownOpcodeCommand q, 0) :: all,
      ∃ u : State, exec i.1 s = .next u ∧ u = { s with queues := u.queues } ∧ QueueIs s u q { x with state := 3, error := x.consumer }) ∧
    ∀ b, CommandAt s q b →
      let id := Machine.fieldAt b 4 4
      (∀ i ∈ all, Machine.fieldAt b 0 1 ≠ i.2 → exec i.1 s = .next s) ∧
      (¬LaunchGood b → (∀ op, 2 ≤ op → op ≤ 5 → ¬PlainGood b op) → Rejects s q b (.unknownOpcodeCommand q)) ∧
      (LaunchGood b ∨ (∃ op, 2 ≤ op ∧ op ≤ 5 ∧ PlainGood b op) → exec (.unknownOpcodeCommand q) s = .next s) ∧
      (Machine.fieldAt b 0 1 = 1 → ¬LaunchGood b ∨ Live s id → Rejects s q b (.launch q)) ∧
      (LaunchGood b → ¬Live s id → ∃ (u : State) (l : Launch), exec (.launch q) s = .next u ∧ Taken s u q ∧
        u = { s with queues := u.queues, launches := u.launches } ∧ Store.find? u.launches id = some l ∧ Waiting l b id (.queue q) ∧
        ∀ n, n ≠ id → Store.find? u.launches n = Store.find? s.launches n) ∧
      (PlainGood b 4 → ¬Live s id → Rejects s q b (.endLaunch q)) ∧
      (PlainGood b 5 → Store.find? s.launches id = none → Rejects s q b (.flushLaunch q)) ∧
      (PlainGood b 2 → (∀ l, Store.find? s.launches id = some l → l.st ≠ .running ∧ l.st ≠ .dispatching) → Rejects s q b (.preemptLaunch q)) ∧
      (PlainGood b 3 → (∀ l, Store.find? s.launches id = some l → l.st ≠ .preempted) → Rejects s q b (.resumeLaunch q))

/-- R436, R437, R429: a launch whose root cell is zero ends, with status 0, or 2 when its queue was destroyed in its
dispatch; command 0x04 ends it with status 1; command 0x05 flushes it, or waits for its end. Results leave the module
before a record in host memory. -/
def Sys2Proof.Claims.LaunchesEnd : Prop :=
  ∀ (s : State) (id : Nat) (l : Launch), Known s id l → Settled s →
    let count := wordAt s l.rootPa 8 % 2 ^ 40
    let may : Prop := l.closed = true ∧ (l.st = .running ∨ l.st = .dispatching ∨ l.st = .preempting) ∧ count = 0
    let host (a : Nat) : Prop := a / 2 ^ 40 % 4 = 2
    (¬may → exec (.launchEnd id) s = .next s) ∧
    (may → ∃ u : State, exec (.launchEnd id) s = .next u ∧ Over s u id l ∧ (host l.complete → l.flushes = [] → Flushed s u l) ∧
      (l.flushes = [] → Completed s u l.complete id (if l.destroyed then 2 else 0) l.placed (if l.destroyed then l.faulted else 0)) ∧
      ∀ a q, l.flushes = [(a, q)] → DoneAddr s a → a ≠ l.complete →
        Completed s u l.complete id (if l.destroyed then 2 else 0) l.placed (if l.destroyed then l.faulted else 0) ∧
        Completed s u a id 7 l.placed 0 ∧ (host a → Flushed s u l ∨ l.complete / 2 ^ 40 % 4 = 0)) ∧
    ∀ q b, CommandAt s q b → Machine.fieldAt b 4 4 = id → let a := Machine.fieldAt b 56 8
      (PlainGood b 4 → l.st ≠ .ended → l.flushes = [] → a ≠ l.complete → ∃ u : State, exec (.endLaunch q) s = .next u ∧
        Over s u id l ∧ Completed s u a id 1 l.placed l.faulted ∧ Completed s u l.complete id 1 l.placed l.faulted ∧
        (host a → host l.complete → Flushed s u l)) ∧
      (PlainGood b 5 → l.st = .ended → ∃ u : State, exec (.flushLaunch q) s = .next u ∧ Taken s u q ∧ u.slots = s.slots ∧
        Flushed s u l ∧ Completed s u a id 7 l.placed 0 ∧ u.msix = q :: s.msix) ∧
      (PlainGood b 5 → l.st ≠ .ended → ∃ u : State, exec (.flushLaunch q) s = .next u ∧ Taken s u q ∧
        u = { s with queues := u.queues, launches := u.launches } ∧ u.launchAt id = { l with flushes := l.flushes ++ [(a, q)] })

/-- R431 to R433: a launch whose turn has come and whose resources are free receives the lowest free clusters and domains,
fresh, and its root cell counts 1; one whose seed table or root cell breaks R432 is rejected before anything is placed;
otherwise it waits. -/
def Sys2Proof.Claims.LaunchesBegin : Prop :=
  ∀ (s : State) (id : Nat) (l : Launch), Store.find? s.launches id = some l → l.id = id → Settled s →
    (l.st ≠ .waiting → l.st ≠ .resuming → exec (.launchBegin id) s = .next s) ∧
    (l.st = .waiting → s.boot.mode ≠ 1 ∨ ¬Turn s l → exec (.launchBegin id) s = .next s) ∧
    (l.st = .waiting → (∀ cl, LowestClusters s cl → cl.length < l.want) ∨ (∀ d, LowestDomains s d → d.length < l.wantDom) →
      exec (.launchBegin id) s = .next s) ∧
    ∀ cl doms, l.st = .waiting → s.boot.mode = 1 → Turn s l → LowestClusters s cl → cl.length = l.want → 1 ≤ l.want →
      LowestDomains s doms → doms.length = l.wantDom →
      let core := cl.headD 0 * 8
      let good (b : List Byte) : Prop := SeedGood s core id cl.length doms b
      (∀ pa, (∀ i < l.seeds, ∃ b, SeedAt s core l i b ∧ good b) → l.rootCell.toNat / 2 ^ 32 ≠ 0xFFFFFF00 →
        s.translate core id l.rootCell .store = .ok pa → pa + 8 ≤ 2 ^ 52 → pa % 8 = 0 →
        ∃ u : State, exec (.launchBegin id) s = .next u ∧ Became s u pa 1 ∧ u.slots = s.slots ∧
          u.launchAt id = { l with st := .dispatching, grant := cl, domains := doms, rootPa := pa } ∧
          (∀ p ∈ cl, let c := u.clusterAt p
            c.launch = id ∧ c.fused = l.fused ∧ c.queues = l.queues ∧ c.poolSize = l.pool ∧ c.fifo = [] ∧ c.pool = [] ∧
            c.teams = [] ∧ c.ready = [] ∧ c.entries = [] ∧ c.phlox = {} ∧ c.lark = {} ∧ c.aster = {}) ∧
          (∀ p, p ∉ cl → u.clusterAt p = s.clusterAt p) ∧ ∀ d ∈ doms, u.domainAt d = {}) ∧
      ((s.translate core id l.rootCell .store).isOk = false ∨ (∃ i < l.seeds, ∀ b, SeedAt s core l i b → ¬good b) →
        DoneAddr s l.complete →
        ∃ u : State, exec (.launchBegin id) s = .next u ∧ u.launchAt id = { l with st := .ended } ∧
          (∀ p, u.clusterAt p = { s.clusterAt p with tlb := (u.clusterAt p).tlb }) ∧ u.slots = s.slots ∧ Completed s u l.complete id 3 0 0)

/-- R433 to R435, R377: the front end takes the next seed, a record for the ready queue or Aster of its cluster or a gang
for its queue, each counted at the root; the last one closes the dispatch. A gang is placed at once on the first free
cores of the cluster that takes it; a primary head that fits nowhere can reserve a cluster. -/
def Obligations.SeedsAndGangs : Prop :=
  ∀ (s : State) (id : Nat) (l : Launch), Store.find? s.launches id = some l → l.id = id → Settled s → s.waiters = [] →
    let root := l.rootPa
    (l.st ≠ .dispatching ∨ l.closed = true → exec (.seedDispatch id) s = .next s) ∧
    (∀ b, l.st = .dispatching → l.closed = false → SeedAt s (l.grant.headD 0 * 8) l l.next b → root + 8 ≤ 2 ^ 52 → root % 8 = 0 →
      Machine.fieldAt b 25 7 = 0 → Machine.fieldAt b 20 1 ≤ 1 →
      let f := Machine.fieldAt b
      let last : Prop := l.seeds ≤ l.next + 1
      (∀ p h v w, f 18 1 = 0 → p = l.grant.getD (if f 16 2 = 0xFFFF then l.next % max 1 l.grant.length else f 16 2) 0 →
        let r : RecId := { launch := id, addr := BitVec.ofNat 64 (f 0 8) }
        let h1 : Head := { h with parent := l.rootCell, scratch := h.scratch &&& 0xFFFF0000#32 }
        s.readRecord (p * 8) r = some (h, v) → (s.incCell root).writeRecord (p * 8) r h1 [] = some w →
        h.flags.toNat / 16 % 4 ≠ 2 →
        ∃ (u : State) (e : Ready), exec (.seedDispatch id) s = .next u ∧ Became s (s.incCell root) root (cellUp (wordAt s root 8)) ∧
          readyFor s r h1 e ∧ (u.clusterAt p).ready = (s.clusterAt p).ready ++ [e] ∧ u.slots = s.slots ∧
          (¬last → SameBytes w u ∧ u.launchAt id = { l with placed := l.placed + 1, next := l.next + 1, sent := none }) ∧
          (last → Became w u root (cellDown (wordAt w root 8) 1) ∧
            u.launchAt id = { l with placed := l.placed + 1, next := l.next + 1, sent := none, closed := true, st := .running })) ∧
      (s.lag = true → f 18 1 = 1 → ¬last → wordAt s root 8 % 2 ^ 40 + f 19 1 < 2 ^ 40 - 1 →
        let g : Gang := { pc := BitVec.ofNat 64 (f 0 8), area := BitVec.ofNat 64 (f 8 8), members := f 19 1, prio := f 21 1, scr := f 22 2
                          dom := f 24 1, grant := if f 16 2 = 0xFFFF then none else some (f 16 2) }
        ∃ u : State, exec (.seedDispatch id) s = .next u ∧ Became s u root (wordAt s root 8 + f 19 1) ∧ u.slots = s.slots ∧
          u.launchAt id = { l with next := l.next + 1
                                   sent := none
                                   primary := if f 20 1 = 1 then l.primary else l.primary ++ [g]
                                   backfill := if f 20 1 = 1 then l.backfill ++ [g] else l.backfill })) ∧
    (l.st ≠ .dispatching ∧ l.st ≠ .running ∨ ((∀ g ∈ l.primary.head?, ∀ p, mayGo l g p → ¬Fits s p g.members) ∧
        (l.reserved ≠ none ∨ ∀ g ∈ l.backfill, ∀ p, mayGo l g p → ¬Fits s p g.members)) →
      exec (.gangPlacement id) s = .next s) ∧
    (∀ (g : Gang) (p t : Nat) (pa : Nat → Nat → Nat), l.st = .dispatching ∨ l.st = .running →
      (∃ rest, l.primary = g :: rest) ∨ (l.primary = [] ∧ l.reserved = none ∧ l.backfill = [g]) → GoesTo s l g p →
      1 ≤ g.members → g.members ≤ 8 → g.prio ≤ 7 → g.scr ≤ 256 → g.dom < 256 → 1 ≤ t → (∀ x ∈ (s.clusterAt p).teams, x.id ≠ t) →
      (∀ i, 1 ≤ i → i < t → ∃ x ∈ (s.clusterAt p).teams, x.id = i) →
      let cores := (freeOn s p).take g.members
      (∀ j < g.members, ∀ k < 3, let a := g.area + BitVec.ofNat 64 (192 * j + 64 * k)
        ResidentOn s (cores.getD j 0) id a 1 ∧ s.translate (cores.getD j 0) id a .store = .ok (pa j k) ∧ pa j k % 64 = 0 ∧
        pa j k + 64 ≤ 2 ^ 52 ∧ ∀ h < 3, h ≠ k → pa j h ≠ pa j k) →
      ∃ (u : State) (m : Team), exec (.gangPlacement id) s = .next u ∧
        u.launchAt id = { l with primary := l.primary.tail, backfill := if l.primary = [] then [] else l.backfill
                                 reserved := none, placed := l.placed + g.members } ∧
        (u.clusterAt p).teams = (s.clusterAt p).teams ++ [m] ∧ m.id = t ∧ m.members.toNat = 2 ^ g.members - 1 ∧
        (∀ j < g.members, let x := u.slotAt (2 * cores.getD j 0)
          let r : RecId := { launch := id, addr := g.area + BitVec.ofNat 64 (192 * j) }
          x.run = .running ∧ x.rid = r ∧ x.pc = g.pc ∧ x.head.team.toNat = j * 65536 + t % 65536 ∧ x.head.parent = l.rootCell ∧
          x.csr.tvec = l.tvec ∧ x.csr.nud.toNat = g.dom ∧ (∀ n, x.gr n = 0) ∧ x.p = 1 ∧ x.cnt = {} ∧
          (g.scr ≠ 0 → { rid := r, core := cores.getD j 0, base := 0, size := g.scr } ∈ u.allocs)) ∧
        ∀ n, (∀ j < g.members, n ≠ 2 * cores.getD j 0) → u.slotAt n = s.slotAt n) ∧
    ∀ (g : Gang) (rest : List Gang), l.primary = g :: rest →
      ((∃ p, mayGo l g p ∧ Fits s p g.members) → exec (.gangReservation id) s = .next s) ∧
      ((∀ p, mayGo l g p → ¬Fits s p g.members) → l.st = .dispatching ∨ l.st = .running → l.reserved = none →
        ∃ (u : State) (i : Nat), exec (.gangReservation id) s = .next u ∧ u = { s with launches := u.launches } ∧
          u.launchAt id = { l with reserved := some i } ∧ (∀ n, g.grant = some n → i = n) ∧
          (g.grant = none → ∀ c, l.grant[i]? = some c → ∀ j d : Nat, l.grant[j]? = some d → (freeOn s d).length ≤ (freeOn s c).length ∧
            (j < i → (freeOn s d).length < (freeOn s c).length)))

/-- R440 to R443, R71: pre-emption and resumption. Command 0x02 asks every slot of the launch to stop; a slot in an
unsealed region leaves with state 5 at its region's entry; copies left at the end of the quiesce are recorded, unless a
re-run issues them again; with nothing left running the launch is saved and its grant freed. Command 0x03 puts it back
on as many clusters, or waits for them. -/
def Obligations.PreemptAndResume : Prop :=
  ∀ (s : State) (id q : Nat) (b : List Byte) (l : Launch), Store.find? s.launches id = some l → l.id = id → Settled s →
    s.allEntries = [] → (∀ p ∈ l.grant, (s.clusterAt p).entries = []) →
    let done := Machine.fieldAt b 56 8
    (CommandAt s q b → Machine.fieldAt b 4 4 = id → PlainGood b 2 → (l.st = .running ∨ l.st = .dispatching) →
      (l.closed = false ∨ wordAt s l.rootPa 8 % 2 ^ 40 ≠ 0) →
      (∀ n, s.lag = true → Runs s id n → ∃ u : State, exec (.preemptLaunch q) s = .next u ∧ Taken s u q ∧ SameBytes s u ∧
        u.launchAt id = { l with st := .preempting, preDone := some (done, 4, .queue q) } ∧
        ∀ k, u.slotAt k = if (s.slotAt k).run ≠ .idle ∧ (s.slotAt k).rid.launch = id then { s.slotAt k with preReq := true }
          else s.slotAt k) ∧
      (NothingRuns s id → (∀ e ∈ s.slots, e.2.run = .idle ∨ e.2.rid.launch ≠ id) →
        ∃ (u : State) (at_ : Nat), exec (.preemptLaunch q) s = .next u ∧ Taken s u q ∧ SavedAs s u id l at_ ∧
        Completed s u done id 4 l.placed at_ ∧ u.msix = q :: s.msix ∧
        (done / 2 ^ 40 % 4 = 2 → wordAt u at_ 4 = id % 2 ^ 32 ∧ wordAt u (at_ + 4) 1 = 1 ∧ wordAt u (at_ + 5) 1 = 0 ∧
          wordAt u (at_ + 6) 2 = l.grant.length % 2 ^ 16 ∧ wordAt u (at_ + 8) 8 = s.clock.toNat))) ∧
    (∀ n, (s.slotAt n).preReq = false → exec (.slotPreempt n) s = .next s) ∧
    (∀ n k x, l.st = .preempting → Store.find? s.slots n = some x → x.run = .running → x.rid.launch = id → x.preReq = true →
      x.head.spec = false → (x.region.sealed = true → exec (.slotPreempt n) s = .next s) ∧
      (∀ w, x.region.sealed = false → x.stores = 0 → k ≠ n → Runs s id k →
        s.writeRecord (n / 2) x.rid (State.contHead x x.region.pc x.region.gin x.region.lcin.toNat (x.region.pred.toNat / 2) x.region.isRgn 5 0 0)
          x.region.vals = some w →
        ∃ u : State, exec (.slotPreempt n) s = .next u ∧ SameBytes w u ∧ (u.slotAt n).run = .idle ∧
          (∃ i, (u.launchAt id).stopped = l.stopped ++ [(i, x.rid)]) ∧ ∀ m, m ≠ n → u.slotAt m = s.slotAt m)) ∧
    (∀ core k c n, (s.clusterAt (core / 8)).launch = id →
      (l.st ≠ .preempting → exec (.copyQuiesceExpiry core) s = .next s) ∧
      (l.st = .preempting → (∀ m, m = 2 * core ∨ m = 2 * core + 1 → (s.slotAt m).run = .idle ∨ (s.slotAt m).rid.launch ≠ id) →
        Runs s id n → s.copies = [(k, c)] → c.rid.launch = id → c.sid / 2 = core → gathers c.i = true ∧ c.done = 0 ∨ gathers c.i = false →
        ∃ u : State, exec (.copyQuiesceExpiry core) s = .next u ∧ u.copies = [] ∧ SameBytes s u ∧ u.slots = s.slots ∧
          (c.rerun = true → (u.launchAt id).recorded = l.recorded) ∧
          (c.rerun = false → ∃ i, (u.launchAt id).recorded = l.recorded ++ [(i, { c with live := false, data := none, fault := none })]))) ∧
    ∀ v : Saved, Asleep l v →
      (CommandAt s q b → Machine.fieldAt b 4 4 = id → PlainGood b 3 → l.st = .preempted →
        ((∀ new, LowestClusters s new → new.length < l.grant.length) → ∃ u : State, exec (.resumeLaunch q) s = .next u ∧ Taken s u q ∧
          u.launchAt id = { l with st := .resuming, resume := some (done, .queue q) } ∧ SameBytes s u ∧ u.clusters = s.clusters) ∧
        (∀ new, LowestClusters s new → new.length = l.grant.length → ∃ u : State, exec (.resumeLaunch q) s = .next u ∧ Taken s u q ∧
          ResumedOn s u id l v new ∧ Completed s u done id 5 l.placed 0 ∧ u.msix = q :: s.msix)) ∧
      ∀ a o, l.st = .resuming → l.resume = some (a, o) → DoneAddr s a →
        (s.boot.mode ≠ 1 ∨ (∀ new, LowestClusters s new → new.length < l.grant.length) → exec (.launchBegin id) s = .next s) ∧
        ∀ new, s.boot.mode = 1 → LowestClusters s new → new.length = l.grant.length →
          ∃ u : State, exec (.launchBegin id) s = .next u ∧ ResumedOn s u id l v new ∧ Completed s u a id 5 l.placed 0

/-- R438, R439: the time-triggered table. An entry is armed for the next of its firing times; a firing issues a copy of
its template, or does what its rule says while the previous instance has not ended; a firing that waits begins when it
has. -/
def Obligations.TimeTriggered : Prop :=
  ∀ (s : State) (e : Nat), Settled s →
    let x := s.ttAt e
    let alone (u : State) : Prop := ∀ n, n ≠ e → u.ttAt n = s.ttAt n
    let lost (i : Instr) : Prop := exec i s = .next { s with discards := s.discards + 1 }
    let up : TtEntry := { x with overruns := if x.overruns = BitVec.allOnes 32 then x.overruns else x.overruns + 1 }
    (64 ≤ e → lost (.ttEntryEnable e)) ∧
    (e < 64 → (x.enable = true → exec (.ttEntryEnable e) s = .next s) ∧
      (x.enable = false → x.period.toNat < 1000 ∨ 2 ^ 40 < x.period.toNat → lost (.ttEntryEnable e)) ∧
      (x.enable = false → 1000 ≤ x.period.toNat → x.period.toNat ≤ 2 ^ 40 → ∃ (u : State) (k : Nat), exec (.ttEntryEnable e) s = .next u ∧
        u = { s with tt := u.tt } ∧ alone u ∧ u.ttAt e = { x with enable := true, waiting := none, k := k } ∧
        s.clock.toNat ≤ x.offset.toNat + k * x.period.toNat ∧ (k ≠ 0 → x.offset.toNat + (k - 1) * x.period.toNat < s.clock.toNat))) ∧
    (64 ≤ e ∨ x.enable = false ∨ s.boot.mode ≠ 1 → exec (.ttFire e) s = .next s) ∧
    (e < 64 → x.enable = true → s.boot.mode = 1 → x.offset.toNat + x.k * x.period.toNat < 2 ^ 64 →
      let due := x.offset.toNat + x.k * x.period.toNat
      let rest (u : State) : Prop := alone u ∧ u.clock.toNat = max s.clock.toNat due ∧ SameBytes s u ∧ u.slots = s.slots
      let ended : Prop := x.last = 0 ∨ ∀ l, Store.find? s.launches x.last = some l → l.st = .ended
      (∀ b, ended → TemplateCmd s x b → MayIssue s b x.k → ∃ u : State, exec (.ttFire e) s = .next u ∧ rest u ∧
        Issues u e x.k b { x with k := x.k + 1 }) ∧
      (ended → (¬∃ b, TemplateCmd s x b) → ∃ u : State, exec (.ttFire e) s = .next u ∧ rest u ∧ u.discards = s.discards + 1 ∧
        u.ttAt e = { x with k := x.k + 1 }) ∧
      ∀ l, x.last ≠ 0 → Store.find? s.launches x.last = some l → l.st ≠ .ended → l.id = x.last →
        (x.rule = 0 → ∃ u : State, exec (.ttFire e) s = .next u ∧ rest u ∧ u.launches = s.launches ∧ u.ttAt e = { up with k := x.k + 1 }) ∧
        (x.rule = 1 → ∃ u : State, exec (.ttFire e) s = .next u ∧ rest u ∧ u.launches = s.launches ∧
          u.ttAt e = (if x.waiting = none then { x with k := x.k + 1, waiting := some x.k } else { up with k := x.k + 1 })) ∧
        (x.rule = 2 → l.st = .running ∨ l.st = .dispatching → s.lag = true → (∃ n, Runs s x.last n) → s.allEntries = [] →
          (∀ p ∈ l.grant, (s.clusterAt p).entries = []) → ∃ u : State, exec (.ttFire e) s = .next u ∧ alone u ∧ SameBytes s u ∧
            u.launchAt x.last = { l with st := .preempting, preDone := some (l.complete, 6, l.origin) } ∧
            u.ttAt e = (if x.waiting = none then { x with k := x.k + 1, waiting := some x.k } else { up with k := x.k + 1 })) ∧
        (∀ b, x.rule = 2 → l.st = .preempted ∨ l.st = .resuming → TemplateCmd s x b → MayIssue s b x.k →
          ∃ u : State, exec (.ttFire e) s = .next u ∧ rest u ∧ Issues u e x.k b { x with k := x.k + 1 })) ∧
    (x.waiting = none → exec (.ttQueuedBegin e) s = .next s) ∧
    ∀ k, x.waiting = some k →
      (∀ b, (x.last = 0 ∨ ∀ l, Store.find? s.launches x.last = some l → l.st = .ended) → TemplateCmd s x b → MayIssue s b k →
        ∃ u : State, exec (.ttQueuedBegin e) s = .next u ∧ alone u ∧ SameBytes s u ∧ Issues u e k b { x with waiting := none }) ∧
      ∀ l, x.last ≠ 0 → Store.find? s.launches x.last = some l → l.st ≠ .ended → x.rule ≠ 2 → exec (.ttQueuedBegin e) s = .next s

/-! ### Boot, management, the fabric and the host -/

namespace Sys2Proof.Claims

open Sys2Proof.Machine

/-- A host interrupt with vector 66 goes with a change of the boot-status register (R456, R460). -/
def Told (s u : State) : Prop :=
  u.msix = if statusWord u.boot s.ptp = statusWord s.boot s.ptp then s.msix else 66 :: s.msix

/-- Nothing but the boot state, and the interrupt that announces it, has changed. -/
def OnlyBoot (s u : State) (b : Boot) : Prop := u = { s with boot := b, msix := u.msix } ∧ Told s u

/-- The boot state of a start that has failed (R455, R456). -/
def failedStart (b : Boot) (reason : Nat) : Boot :=
  { b with failed := true, fails := min 255 (b.fails + 1), failStage := b.stage, reason := reason, lastDown := b.down }

/-- A module after a reset that finds the count of failed starts at n (R450, R452, R455). -/
def AfterReset (s u : State) (n : Nat) : Prop :=
  (let b := u.boot
   b.mode = (if 3 ≤ n then 2 else 0) ∧ b.fails = n ∧ b.stage = 0 ∧ b.failed = false ∧ b.reason = s.boot.reason ∧
   b.failStage = s.boot.failStage ∧ b.lastDown = s.boot.down ||| s.boot.lastDown ∧ b.down = 0 ∧ b.meas = [] ∧ b.log = [] ∧
   b.cap = 4800 ∧ b.agreed = []) ∧
  u.slots = [] ∧ u.cores = [] ∧ u.clusters = [] ∧ u.launches = [] ∧ u.mem = [] ∧ u.l2 = [] ∧ u.l1 = [] ∧ u.owners = [] ∧ u.scr = [] ∧
  u.tags = [] ∧ u.queues = [] ∧ u.flight = [] ∧ u.waiters = [] ∧ u.domains = [] ∧ u.tt = [] ∧ u.ports = [] ∧ u.cyc = 0 ∧
  u.ptp = false ∧ u.dev = s.dev ∧ u.peers = s.peers ∧ u.hostMem = s.hostMem

/-- Versions that this module runs for an interface: 1.0 to its highest minor (R454). SPDM's majors count as 1 too. -/
def topMinor (i : Iface) : Nat :=
  match i with
  | .host | .continuation => 0
  | .rhojo => 2
  | .firmware => 1
  | .spdm => 3

/-- The bit of an interface in the field `down` (R456). -/
def downBit (i : Iface) : Nat :=
  match i with
  | .host => 0 | .continuation => 1 | .rhojo => 2 | .firmware => 3 | .spdm => 4

/-- The module negotiates an interface now (R454, R455). -/
def Negotiates (s : State) (i : Iface) : Prop :=
  (s.boot.mode = 0 ∧ s.boot.failed = false ∧ s.boot.stage = 4) ∨ s.boot.mode = 1 ∨ (s.boot.mode = 2 ∧ i = .spdm)

/-- A Rhojo Link port that takes flits. -/
def Takes (s : State) (p : Nat) : Prop :=
  p < 18 ∧ (s.portAt p).up = true ∧ (s.portAt p).retraining = false ∧ s.boot.down.getLsbD 2 = false ∧ (s.portAt p).unsent = []

/-- Nothing has changed but a port. -/
def OnlyPort (s u : State) (p : Nat) (x : Port) : Prop :=
  u = { s with ports := u.ports } ∧ u.portAt p = x ∧ ∀ n, n ≠ p → u.portAt n = s.portAt n

/-- Nothing has changed but a port, the outbox, and what lies in which cache: every byte reads as before (R468). -/
def PortServed (s u : State) (p : Nat) (x : Port) : Prop :=
  OnlyPort { s with outbox := u.outbox, l2Sets := u.l2Sets, llcSets := u.llcSets, l2 := u.l2, mem := u.mem, domains := u.domains } u p x ∧
  ∀ q < 2 ^ 52, u.peek q = s.peek q

/-- The port after a flit that passed its checks (R463 to R465). -/
def received (x : Port) (f : Flit) : Port :=
  let a := Machine.fieldAt f.bytes
  { x with
    rx := BitVec.ofNat 16 (a 0 2), waitReplay := false, failed := 0, stopIn := BitVec.ofNat 4 (a 4 1 / 16)
    replay := acked (BitVec.ofNat 16 (a 2 2)) x.replay }

/-- A flit in sequence whose CRC is right. -/
def Intact (x : Port) (f : Flit) : Prop :=
  BitVec.ofNat 16 (Machine.fieldAt f.bytes 0 2) = x.rx + 1 ∧ crc64 f.bytes = f.crc

/-- n bytes stand at a physical address, for an access at the home and at the memory side; every other byte reads as
before at both. -/
def Through (s u : State) (pa : Nat) (bs : List Byte) : Prop :=
  (∀ i < bs.length, u.peek (pa + i) = bs.getD i 0 ∧ Memory.read u.mem (pa + i) = bs.getD i 0) ∧
  ∀ q < 2 ^ 52, q < pa ∨ pa + bs.length ≤ q → u.peek q = s.peek q

/-- The trace entry of a write that a port hands over (R472). -/
def entryFor (s : State) (x : Port) (w : RemoteWrite) (bs : List Byte) : TraceEntry :=
  { pa := w.pa, seq := x.head, cyc := s.cyc, data := BitVec.ofNat 64 (leNat (bs.take 8))
    src := BitVec.ofNat 32 (w.module_ % 1024 * 2 ^ 22 + w.cluster % 1024 * 2 ^ 12 + w.core % 8 * 2 ^ 9 + w.slot % 2 * 2 ^ 8 +
      w.kind.val * 16 + w.data.length.log2 % 16) }

end Sys2Proof.Claims

/-- R450 to R456, R458: resets, the stages of a start, and its failures. A management reset clears the count of failed
starts first; a reset that finds it at 3 or more enters minimal mode. A stage ends when its image has been verified and
measured, or its step is done; stage 5 clears the count and the fields of the last failure. -/
def Sys2Proof.Claims.BootStages : Prop :=
  ∀ (s : State),
    let b := s.boot
    let starting : Prop := b.mode = 0 ∧ b.failed = false
    let next : Boot := { b with stage := b.stage + 1, other := false, images := 0 }
    (∃ u : State, exec .moduleReset s = .next u ∧ AfterReset s u b.fails) ∧
    (∃ u : State, exec .managementReset s = .next u ∧ AfterReset s u 0) ∧
    (∃ u : State, exec .clearFailCount s = .next u ∧ OnlyBoot s u { b with fails := 0 }) ∧
    (¬starting → exec .bootTimeout s = .next s ∧ ∀ r, exec (.bootStageComplete r) s = .next s) ∧
    (starting →
      (∃ u : State, exec .bootTimeout s = .next u ∧ OnlyBoot s u (failedStart b 6)) ∧
      (∀ r : Fin 8, r ≠ 0 → ∃ u : State, exec (.bootStageComplete (.failed r)) s = .next u ∧ OnlyBoot s u (failedStart b r.val)) ∧
      (b.stage < 3 → ∃ u : State, exec (.bootStageComplete .unreadable) s = .next u ∧
        OnlyBoot s u (if b.other then failedStart b 2 else { b with other := true })) ∧
      (b.stage = 3 → ∃ u : State, exec (.bootStageComplete .done) s = .next u ∧ OnlyBoot s u next) ∧
      (b.stage = 4 → (Store.find? b.agreed 0 = none ∨ Store.find? b.agreed 3 = none → exec (.bootStageComplete .done) s = .next s) ∧
        ∀ v w, Store.find? b.agreed 0 = some v → Store.find? b.agreed 3 = some w →
          ∃ u : State, exec (.bootStageComplete .done) s = .next u ∧ u = { s with boot := u.boot, msix := u.msix, queues := u.queues } ∧
            u.boot = { b with stage := 5, mode := 1, fails := 0, reason := 0, failStage := 0, lastDown := 0, other := false, images := 0 } ∧
            ∀ q < 64, u.queueAt q = { s.queueAt q with vmaj := v.1, vmin := v.2 }) ∧
      ∀ contents key signature version, b.stage < 3 →
        let good : Prop := (signature.length = 7856 ∨ signature.length = 16224 ∨ signature.length = 29792) ∧
          Config.signatureVerifies contents key signature = true ∧
          (∃ i < 4, Config.fusedDigest i = Sha.digest key ∧ Config.fusedRevoked i = false) ∧
          Config.fusedVersion ≤ version ∧ version < 2 ^ 32
        let M := Store.set b.meas b.stage (extended (Store.get 0 b.meas b.stage) (Sha.digest contents))
        let L := b.log ++ [(b.stage, Sha.digest contents)]
        ∃ u : State, exec (.bootStageComplete (.image contents key signature version)) s = .next u ∧ u.slots = s.slots ∧ u.mem = s.mem ∧
          (¬good → u.boot = if b.other then failedStart b (if b.stage = 2 ∧ b.images = 8 then 3 else 1) else { b with other := true }) ∧
          (good → b.stage = 0 → u.boot = { next with meas := M, log := L, source := if b.other then 1 else 0 }) ∧
          (good → b.stage = 1 → u.boot = { next with meas := M, log := L }) ∧
          (good → b.stage = 2 → b.images < 8 → u.boot = { b with meas := M, log := L, images := b.images + 1, other := false }) ∧
          (good → b.stage = 2 → 8 ≤ b.images → Config.tableOk contents = false → u.boot = failedStart b 3) ∧
          (good → b.stage = 2 → 8 ≤ b.images → Config.tableOk contents = true →
            u.boot = { next with meas := M, log := L, table := contents } ∧
            ∀ c < 20, Store.find? u.thresholds c = Config.tableThreshold contents c))

/-- R452, R454, R457, R458, R438: versions, measurements and their responder, power and the clock. Power and cap change
only when results arrive: the registers of R457 and R458, and the halt at the critical limit. The form of an SPDM answer
is the model's choice (log 27), and so is a coolant step of 300 W (log 28). -/
def Sys2Proof.Claims.Management : Prop :=
  ∀ (s : State),
    let b := s.boot
    (∀ (i : Iface) (lo hi : Nat × Nat), (¬Negotiates s i → exec (.versionNegotiation i lo hi) s = .next s) ∧
      (Negotiates s i →
        (lo.1 ≤ 1 → 1 ≤ hi.1 → ∃ u : State, exec (.versionNegotiation i lo hi) s = .next u ∧
          u = { s with boot := u.boot, msix := u.msix, queues := u.queues } ∧
          Store.find? u.boot.agreed (downBit i) = some (1, if hi.1 = 1 then min (topMinor i) hi.2 else topMinor i) ∧
          u.boot.down = b.down &&& ~~~BitVec.ofNat 5 (2 ^ downBit i) ∧ u.boot.mode = b.mode) ∧
        ((1 < lo.1 ∨ hi.1 < 1) → ∃ u : State, exec (.versionNegotiation i lo hi) s = .next u ∧ u = { s with boot := u.boot, msix := u.msix } ∧
          Store.find? u.boot.agreed (downBit i) = none ∧ u.boot.down = b.down ||| BitVec.ofNat 5 (2 ^ downBit i) ∧
          (b.mode = 0 → i = .host ∨ i = .firmware → u.boot.failed = true ∧ u.boot.fails = min 255 (b.fails + 1) ∧ u.boot.reason = 7) ∧
          (b.mode ≠ 0 ∨ (i ≠ .host ∧ i ≠ .firmware) → u.boot.failed = b.failed ∧ u.boot.fails = b.fails)))) ∧
    (∀ (n : Fin 16) (d : BitVec 256),
      (n.val < 6 ∨ b.stage < 2 → exec (.measurementExtend n d) s = .next s) ∧
      (6 ≤ n.val → 2 ≤ b.stage → ∃ u : State, exec (.measurementExtend n d) s = .next u ∧ u = { s with boot := u.boot } ∧
        u.boot = { b with meas := u.boot.meas, log := b.log ++ [(n.val, d)] } ∧
        ∀ k, Store.get 0 u.boot.meas k = if k = n.val then Sha.digest (Sha.beBytes (Store.get 0 b.meas k).toNat 32 ++ Sha.beBytes d.toNat 32)
          else Store.get 0 b.meas k)) ∧
    (∀ r, b.down.getLsbD 4 = true → exec (.spdmRequest r) s = .next s) ∧
    (∀ r, b.down.getLsbD 4 = false → ∃ (u : State) (a sig : List Nat), exec (.spdmRequest r) s = .next u ∧
      u = { s with boot := u.boot, nonce := u.nonce } ∧ u.boot.spdm = (a ++ sig) :: b.spdm ∧ u.boot.meas = b.meas ∧ u.boot.log = b.log ∧
      (∀ i n, r = .getMeasurements (some i) n → a = 0x60 :: n :: Sha.beBytes (Store.get 0 b.meas i.val).toNat 32 ++
        b.log.flatMap (fun e => e.1 :: Sha.beBytes e.2.toNat 32)) ∧
      (∀ n, r = .getMeasurements none n → a = 0x60 :: n :: (List.range 16).flatMap (fun i => Sha.beBytes (Store.get 0 b.meas i).toNat 32) ++
        b.log.flatMap (fun e => e.1 :: Sha.beBytes e.2.toNat 32)) ∧
      (∀ n, r = .challenge n → a = [0x03, n] ∧ u.boot.sessions = b.sessions) ∧
      (∀ n, r = .keyExchange n → a = [0x64, n] ∧ u.boot.sessions = b.sessions + 1) ∧ (r = .other → a = [0x7F] ∧ sig = [])) ∧
    (∀ w : BitVec 32, exec (.capWrite w) s = .next { s with boot := { b with cap := if w.toNat < 1200 then 1200 else if 4800 < w.toNat then 4800 else w.toNat } }) ∧
    (∀ watts hot, (∃ u : State, exec (.powerInterval watts hot true) s = .next u ∧ OnlyBoot s u { b with mode := 3 }) ∧
      let cap := if hot then min b.cap b.capNow - 300 else b.cap
      ∃ u : State, exec (.powerInterval watts hot false) s = .next u ∧ u = { s with boot := u.boot } ∧
        u.boot = { b with capNow := cap, steps := u.boot.steps } ∧ ∀ d < 8, let x := Store.get 16 b.steps d
          Store.get 16 u.boot.steps d = if cap < watts then max 1 (x - 1) else if 20 * watts ≤ 19 * cap then min 16 (x + 1) else x) ∧
    ∀ locked time, exec (.ptpLockChange locked time) s = .next { s with
      clock := if locked then BitVec.ofNat 64 time else s.clock, ptp := locked
      msix := if locked = s.ptp then s.msix else 66 :: 65 :: s.msix }

/-- R463 to R466, R469: flits and lanes. A flit in sequence whose CRC is right is accepted with its packets, its channel's
stop bit following the entries held; any other is discarded until the replay. Sixteen failed replays in a row retrain the
lanes; a port that comes back on too few is down, and its lines move to the lowest port that is up. -/
def Sys2Proof.Claims.LinkPorts : Prop :=
  ∀ (s : State) (p : Nat),
    let x := s.portAt p
    (∀ f : Flit, 18 ≤ p ∨ x.up = false ∨ x.retraining = true ∨ s.boot.down.getLsbD 2 = true → exec (.flitReceive p f) s = .next s) ∧
    (∀ f : Flit, Takes s p →
      (¬Intact x f → ∃ u : State, exec (.flitReceive p f) s = .next u ∧ OnlyPort s u p { x with
        waitReplay := true
        failed := if x.waitReplay = true ∧ BitVec.ofNat 16 (Machine.fieldAt f.bytes 0 2) = x.rx + 1 then x.failed + 1 else x.failed }) ∧
      (Intact x f →
        (f.packets = [] ∨ f.packets = [.response] → ∃ u : State, exec (.flitReceive p f) s = .next u ∧ OnlyPort s u p (received x f)) ∧
        (∀ w : RemoteWrite, f.packets = [.write w] → w.pa / 2 ^ 42 = s.dev → s.dev < 1024 → w.pa / 2 ^ 40 % 4 = 0 →
          let n := Store.get 0 x.held f.vc.val + 1
          ∃ (u : State) (y : Port), exec (.flitReceive p f) s = .next u ∧ OnlyPort s u p y ∧
            y = { received x f with arrived := x.arrived ++ [(w, some f.vc.val)], held := Store.set x.held f.vc.val n, stopOut := y.stopOut } ∧
            ∀ k < 4, y.stopOut.getLsbD k = if k = f.vc.val then (decide (256 ≤ n) || (decide (128 ≤ n) && x.stopOut.getLsbD k))
              else x.stopOut.getLsbD k) ∧
        (∀ pa n nu, f.packets = [.load pa n nu] → pa / 2 ^ 42 = s.dev → s.dev < 1024 → pa / 2 ^ 40 % 4 = 0 → pa + n ≤ 2 ^ 52 →
          s.lag = false → Settled s → ∃ u : State, exec (.flitReceive p f) s = .next u ∧ PortServed s u p (received x f) ∧
            u.outbox = s.outbox ++ [.data pa (s.peekBytes pa n) (s.descAt (.glob pa))]) ∧
        (∀ launch device, f.packets = [.refusal launch device] → ∃ u : State, exec (.flitReceive p f) s = .next u ∧
          OnlyPort { s with reports := u.reports } u p (received x f) ∧ u.reports = .refused launch device :: s.reports) ∧
        (∀ var t, s.lag = true → f.packets = [.event var t] → ∃ u : State, exec (.flitReceive p f) s = .next u ∧ u.portAt p = received x f ∧
          u.msg s.nextMsg = some (.event (var / 2 ^ 14 % 1024) var t) ∧ u.slots = s.slots) ∧
        (∀ device target launch record key join, s.lag = true → f.packets = [.record device target launch record key join] →
          ∃ (u : State) (q : Placement), exec (.flitReceive p f) s = .next u ∧ u.portAt p = received x f ∧ u.slots = s.slots ∧
            u.msg s.nextMsg = some (.place q) ∧ q.counted = true ∧ q.target = target ∧ q.launch = launch ∧ q.record = record ∧
            q.join = join ∧ q.message = none ∧ q.timed = key.isSome) ∧
        (∀ device target launch head payload join, s.lag = true → f.packets = [.message device target launch head payload join] →
          ∃ (u : State) (q : Placement), exec (.flitReceive p f) s = .next u ∧ u.portAt p = received x f ∧ u.slots = s.slots ∧
            u.msg s.nextMsg = some (.place q) ∧ q.counted = true ∧ q.target = target ∧ q.launch = launch ∧ q.join = join ∧
            q.message = some (Head.ofBytes head, payload)))) ∧
    (x.failed < 16 ∨ x.up = false → exec (.linkRetrain p) s = .next s) ∧
    (16 ≤ x.failed → x.up = true → ∃ u : State, exec (.linkRetrain p) s = .next u ∧ OnlyPort s u p { x with retraining := true }) ∧
    (∀ lanes, (x.retraining = false → exec (.retrainingEnd p lanes) s = .next s) ∧
      (x.retraining = true → x.unsent = [] →
        let works : Prop := lanes = 4 ∨ (lanes = 2 ∧ 2 ≤ (Store.get (1, 0) s.boot.agreed 2).2)
        (works → ∃ u : State, exec (.retrainingEnd p lanes) s = .next u ∧
          OnlyPort s u p { x with retraining := false, lanes := lanes, failed := 0 }) ∧
        (∀ q, ¬works → x.arrived = [] → q < 18 → q ≠ p → (s.portAt q).up = true → (∀ r < q, r ≠ p → (s.portAt r).up = false) →
          let lines (u : State) : Prop := (u.portAt p).up = false ∧ (u.portAt p).replay = [] ∧ ∀ r < 18,
            Store.get r u.portMap r = if Store.get r s.portMap r = p then q else Store.get r s.portMap r
          (x.replay = [] → ∃ u : State, exec (.retrainingEnd p lanes) s = .next u ∧ lines u ∧ u.slots = s.slots ∧ u.flight = s.flight) ∧
          (∀ e k o, x.replay = [(e, k)] → Store.find? s.flight k = some (.load o) → o.acq = false → ∃ u : State,
            exec (.retrainingEnd p lanes) s = .next u ∧ lines u ∧ u.flight = Store.erase s.flight k ∧
            u.slotAt o.sid = deferring ((s.slotAt o.sid).dec .ld) 0x06000013 o.va) ∧
          (∀ e k o c, x.replay = [(e, k)] → Store.find? s.flight k = some (.store o) → o.ctr = some c → ∃ u : State,
            exec (.retrainingEnd p lanes) s = .next u ∧ lines u ∧ u.flight = Store.erase s.flight k ∧
            u.slotAt o.sid = deferring ((s.slotAt o.sid).dec c) 0x06000013 0))))

/-- R461, R468, R470, R472, R473: remote writes, the trace ring and the host's accesses to memory. A port hands its oldest
write to the home, and logs it when its ring is enabled and the address lies in its range; a host write is performed at
the home and goes through to the memory side, and sets the descriptor of a block that it covers whole to 0; a host read is
served at the memory side. -/
def Sys2Proof.Claims.RemoteAndHostMemory : Prop :=
  ∀ (s : State) (p : Nat), Settled s →
    let x := s.portAt p
    (x.arrived = [] → exec (.remoteWriteHandover p) s = .next s) ∧
    (∀ w vc rest, x.arrived = (w, vc) :: rest → w.pa + 128 ≤ 2 ^ 52 → w.data.length ≤ 128 → s.lag = false →
      let logs (u : State) (bs : List Byte) : Prop :=
        let off := w.pa % 2 ^ 40
        (x.enable = false ∨ off < x.lo.toNat ∨ x.hi.toNat ≤ off → (u.portAt p).ring = x.ring ∧ (u.portAt p).head = x.head) ∧
        (x.enable = true → x.lo.toNat ≤ off → off < x.hi.toNat → x.freeze = false ∨ Store.find? x.ring (x.head.toNat % 4096) = none →
          (u.portAt p).ring = Store.set x.ring (x.head.toNat % 4096) (entryFor s x w bs) ∧ (u.portAt p).head = x.head + 1)
      (w.op = none → w.cell = none → ∃ u : State, exec (.remoteWriteHandover p) s = .next u ∧ (u.portAt p).arrived = rest ∧ u.slots = s.slots ∧
        (∀ i < w.data.length, u.peek (w.pa + i) = w.data.getD i 0) ∧
        (∀ q < 2 ^ 52, q < w.pa ∨ w.pa + w.data.length ≤ q → u.peek q = s.peek q) ∧
        (∀ d, w.desc = some d → u.descAt (.glob w.pa) = d) ∧ (w.desc = none → u.memDesc = s.memDesc) ∧ logs u w.data) ∧
      (∀ m e, w.op = none → w.cell = some (m, e) → w.pa % 32 = 0 → ∃ (u : State) (y : Nat),
        exec (.remoteWriteHandover p) s = .next u ∧ (u.portAt p).arrived = rest ∧ u.slots = s.slots ∧
        Arrived (wordAt s w.pa 32) y m (e.setWidth 64) ∧ wordAt u w.pa 32 = y ∧
        (∀ q < 2 ^ 52, q < w.pa ∨ w.pa + 32 ≤ q → u.peek q = s.peek q) ∧ logs u (leBytes y 32)) ∧
      (∀ op ty c, w.op = some (op, ty, c) → ty.width = 32 ∨ ty.width = 64 → w.pa % (ty.width / 8) = 0 →
        let n := ty.width / 8
        let y := (amoApply op ty (wordAt s w.pa n) (leNat w.data) c).1
        ∃ u : State, exec (.remoteWriteHandover p) s = .next u ∧ (u.portAt p).arrived = rest ∧ u.slots = s.slots ∧
          wordAt u w.pa n = y % 2 ^ ty.width ∧ (∀ q < 2 ^ 52, q < w.pa ∨ w.pa + n ≤ q → u.peek q = s.peek q) ∧ logs u (leBytes y n))) ∧
    (18 ≤ p → exec (.traceEnable p) s = .next { s with discards := s.discards + 1 }) ∧
    (p < 18 → x.enable = true → exec (.traceEnable p) s = .next s) ∧
    (p < 18 → x.enable = false → ∃ u : State, exec (.traceEnable p) s = .next u ∧ OnlyPort s u p { x with enable := true, ring := [], head := 0 }) ∧
    (∀ off data, 2 ^ 40 < off + data.length → exec (.hostBar2Write off data) s = .next s) ∧
    (∀ off data, off + data.length ≤ 2 ^ 40 → s.dev < 1024 →
      let pa := s.dev * 2 ^ 42 + off
      ∃ u : State, exec (.hostBar2Write off data) s = .next u ∧ Through s u pa data ∧ u.slots = s.slots ∧
        ∀ b, Store.get 0 u.memDesc b = if pa ≤ 64 * b ∧ 64 * b + 64 ≤ pa + data.length then 0 else Store.get 0 s.memDesc b) ∧
    (∀ off n, 2 ^ 40 < off + n → exec (.hostBar2Read off n) s = .next s) ∧
    ∀ off n, off + n ≤ 2 ^ 40 → exec (.hostBar2Read off n) s = .next { s with
      readOut := (List.range n).map (fun i => Memory.read s.mem (s.dev * 2 ^ 42 + off + i)) :: s.readOut }

/-- R425, R427, R438, R458, R460, R473: a host write of a register acts as the event of its register; every other offset
discards it, and counts it for firmware. -/
def Sys2Proof.Claims.HostRegisters : Prop :=
  ∀ (s : State) (q e p : Nat) (v : Word), q < 64 → e < 64 → p < 18 →
    let x := s.queueAt q
    let y := s.ttAt e
    let w (off : Nat) (size : Fin 9) : Instr := .registerWrite off size v
    let lost (i : Instr) : Prop := exec i s = .next { s with discards := s.discards + 1 }
    let same (i j : Instr) : Prop := ∃ u t : State, exec i s = .next u ∧ exec j s = .next t ∧ u = { t with discards := u.discards } ∧
      u.discards ≤ s.discards + 1
    let low := v.toNat % 2 ^ 32
    let control (n : Nat) : Prop := low = x.vmaj * 2 ^ 24 + x.vmin * 2 ^ 16 + x.lsz * 16 + n
    (∀ off, exec (w off 0) s = .next s) ∧ (∀ off, 2 ^ 23 < off + 4 → exec (w off 4) s = .next s) ∧
    (low = 1 → same (w 0x200 4) .managementReset) ∧ (low = 2 → same (w 0x200 4) .clearFailCount) ∧
    (low ≠ 1 → low ≠ 2 → lost (w 0x200 4)) ∧ (s.boot.capNow < 2 ^ 32 → same (w 0x208 4) (.capWrite (v.setWidth 32))) ∧
    same (w (0x100000 + 64 * q + 16) 4) (.queueDoorbell q (v.setWidth 32)) ∧
    (x.lsz < 12 → x.vmin < 256 → x.vmaj < 16 → (control 1 → x.state = 0 → same (w (0x100000 + 64 * q + 8) 4) (.queueStart q)) ∧
      (control 2 → x.state = 1 → same (w (0x100000 + 64 * q + 8) 4) (.queueDestroy q)) ∧
      (control 0 → x.state = 0 ∨ x.state = 3 → same (w (0x100000 + 64 * q + 8) 4) (.queueReset q)) ∧
      (control 3 → lost (w (0x100000 + 64 * q + 8) 4))) ∧
    (∀ l < 12, x.state = 0 → x.lsz < 12 → low = x.vmaj * 2 ^ 24 + x.vmin * 2 ^ 16 + l * 16 → x.vmin < 256 → x.vmaj < 16 →
      (x.producer - x.consumer).toNat ≤ 2 ^ (l + 4) → ∃ u : State, exec (w (0x100000 + 64 * q + 8) 4) s = .next u ∧
        u = { s with queues := u.queues } ∧ QueueIs s u q { x with lsz := l }) ∧
    (x.state = 0 → v.toNat % 64 = 0 → x.base < 2 ^ 64 → ∃ u : State, exec (w (0x100000 + 64 * q) 8) s = .next u ∧
      u = { s with queues := u.queues } ∧ QueueIs s u q { x with base := v.toNat }) ∧
    (1 < x.state → lost (w (0x100000 + 64 * q) 8)) ∧
    (let z := { s.portAt p with freeze := decide (low / 2 % 2 = 1) }
     ∃ u : State, exec (w (0x200000 + 64 * p + 16) 4) s = .next u ∧ OnlyPort s u p (
       if low % 2 = 0 then { z with enable := false } else if z.enable then z else { z with enable := true, ring := [], head := 0 })) ∧
    (∃ u : State, exec (w (0x200000 + 64 * p) 8) s = .next u ∧ OnlyPort s u p { s.portAt p with lo := v }) ∧
    (∃ u : State, exec (w (0x200000 + 64 * p + 8) 8) s = .next u ∧ OnlyPort s u p { s.portAt p with hi := v }) ∧
    (let o := 0x300000 + 32 * e
     (y.enable = true → lost (w o 8) ∧ lost (w (o + 8) 8) ∧ lost (w (o + 16) 8)) ∧
     (y.enable = false →
       (∃ u : State, exec (w o 8) s = .next u ∧ u = { s with tt := u.tt } ∧ u.ttAt e = { y with period := v }) ∧
       (∃ u : State, exec (w (o + 8) 8) s = .next u ∧ u = { s with tt := u.tt } ∧ u.ttAt e = { y with offset := v }) ∧
       (∃ u : State, exec (w (o + 16) 8) s = .next u ∧ u = { s with tt := u.tt } ∧ u.ttAt e = { y with template := v }) ∧
       (low = y.rule.toNat + 256 → 1000 ≤ y.period.toNat → y.period.toNat ≤ 2 ^ 40 → same (w (o + 24) 4) (.ttEntryEnable e))) ∧
     (low = 0 → ∃ u : State, exec (w (o + 28) 4) s = .next u ∧ u = { s with tt := u.tt } ∧ u.ttAt e = { y with overruns := 0 })) ∧
    (∀ off, off % 4 = 0 → off + 4 ≤ 2 ^ 23 → off ≠ 0x200 → off ≠ 0x208 → (off < 0x100000 ∨ 0x101000 ≤ off) →
      (off < 0x200000 ∨ 0x200480 ≤ off) → (off < 0x300000 ∨ 0x300800 ≤ off) → lost (w off 4))

/-- R112, R371, R376, R380, R448: the requests of the debugger. -/
def Sys2Proof.Claims.DebugRequests : Prop :=
  ∀ (s : State) (sid launch pkg n : Nat) (pc va : Word) (on other : Bool) (sids : Option (List Nat)),
    let x := s.slotAt sid
    let d (r : DebugRequest) : Instr := .debugInterfaceRequest r
    let slot (r : DebugRequest) (y : Slot) : Prop := ∃ u : State, exec (d r) s = .next u ∧ u = { s with slots := u.slots } ∧
      u.slotAt sid = y ∧ ∀ m, m ≠ sid → u.slotAt m = s.slotAt m
    let cluster (r : DebugRequest) (y : Cluster) : Prop := ∃ u : State, exec (d r) s = .next u ∧ u = { s with clusters := u.clusters } ∧
      u.clusterAt pkg = y ∧ ∀ m, m ≠ pkg → u.clusterAt m = s.clusterAt m
    let b : Break := { launch := launch, pc := pc, preempt := other, sids := sids }
    let c := s.clusterAt pkg
    slot (.arm sid on) { x with armed := on } ∧
    slot (.hold sid) (if x.run = .running then { x with run := .debugHeld } else x) ∧
    slot (.release sid) (if x.run = .debugHeld then { x with run := .running } else x) ∧
    exec (d (.breakpoint launch pc other true sids)) s = .next { s with breaks := s.breaks ++ [b] } ∧
    (∃ u : State, exec (d (.breakpoint launch pc other false sids)) s = .next u ∧ u = { s with breaks := u.breaks } ∧
      ∀ k, k ∈ u.breaks ↔ k ∈ s.breaks ∧ ¬(k.launch = launch ∧ k.pc = pc)) ∧
    cluster (.commitStop pkg true on) { c with commitStop := some 1, stopLark := on } ∧
    cluster (.commitStop pkg false on) { c with commitStop := none, stopLark := false } ∧
    cluster (.continueCommits pkg n) (if c.commitStop = none then c else { c with commitStop := some n }) ∧
    (let done : Prop := x.vq = [] ∧ x.mq = [] ∧ x.pq = [] ∧ s.snapping sid = false
     let answers (r : DebugRead) (bs : List Byte) : Prop := exec (d (.read sid r)) s = .next { s with readOut := bs :: s.readOut }
     (∀ r, ¬done → exec (d (.read sid r)) s = .next s) ∧
     (done → (∀ r, ∃ bs, answers r bs) ∧ (∀ k, answers (.g k) (leBytes (x.gr k).toNat 8)) ∧ answers .p [x.p] ∧
       (∀ k, answers (.v k) (leBytes (x.vr k).lanes.toNat 512 ++ leBytes (x.vr k).desc.toNat 16)) ∧
       (∀ i j, answers (.acc n i j) (leBytes (x.accEl (n % 2) i j) 4 ++ [if x.own.getLsbD (n % 2) then 1 else 0])) ∧
       (∀ pa, va.toNat / 2 ^ 32 ≠ 0xFFFFFF00 → s.translate (sid / 2) x.rid.launch va .load = .ok pa → Settled s →
         answers (.bytes va 1) [s.peek pa]) ∧
       (∀ o < 0x40000, va.toNat = 0xFFFFFF00 * 2 ^ 32 + o →
         let at_ := (x.head.scratch.toNat % 2 ^ 16 * 4096 + o) % 0x40000
         answers (.bytes va 1) [Memory.read s.scr (State.scrKey (sid / 2) at_)] ∧
         answers (.tag va) [if s.tagAt (sid / 2) at_ then 1 else 0]))) ∧
    (∀ (l : Loc) (y : Byte), s.locate sid va 1 .store = .ok l → InRange l 1 → Settled s → s.entryOf sid = none →
      (match l with | .glob pa => State.deviceOf pa = s.dev | .scr _ _ => True) →
      ∃ u : State, exec (d (.write sid va [y])) s = .next u ∧ Holds s u l [y] ∧ u.slots = s.slots ∧ u.tags = s.tags) ∧
    (∀ y l, s.locate sid va 1 .store = .error l → exec (d (.write sid va [y])) s = .next s) ∧
    (s.mayPreempt launch = false → exec (d (.preempt launch)) s = .next s) ∧
    (∀ l, Store.find? s.launches launch = some l → l.id = launch → l.st = .running ∨ l.st = .dispatching → Settled s →
      (l.closed = false ∨ wordAt s l.rootPa 8 % 2 ^ 40 ≠ 0) → s.lag = true → Runs s launch n → s.allEntries = [] →
      (∀ q ∈ l.grant, (s.clusterAt q).entries = []) → ∃ u : State, exec (d (.preempt launch)) s = .next u ∧
        u.launchAt launch = { l with st := .preempting, preDone := none } ∧
        ∀ k, u.slotAt k = if (s.slotAt k).run ≠ .idle ∧ (s.slotAt k).rid.launch = launch then { s.slotAt k with preReq := true }
          else s.slotAt k) ∧
    ((s.launchAt launch).st = .waiting ∨ (s.launchAt launch).st = .resuming →
      exec (d (.resume launch 0)) s = exec (.launchBegin launch) s) ∧
    ((s.launchAt launch).st ≠ .waiting → (s.launchAt launch).st ≠ .resuming → (s.launchAt launch).st ≠ .preempted →
      exec (d (.resume launch n)) s = .next s ∧ ∀ dom, exec (d (.begin_ launch n dom)) s = .next s) ∧
    exec (d (.begin_ launch n none)) s = exec (d (.resume launch n)) s

/-! ### Reset, a step, and the encoding -/

namespace Sys2Proof.Claims

open Sys2Proof.Machine

/-- The state in which a slot takes its turn: the agenda's choice has been taken and time has passed; with an empty agenda
everything in flight has completed first, and the two slots of a core alternate (log 3, log 7). -/
def TurnOf (s t : State) : Prop :=
  (∃ (n : Nat) (lag : Bool) (rest : List Choice), s.agenda = .issue n lag :: rest ∧
    t = ({ s with agenda := rest, cur := n, lag := lag } : State).tick) ∨
  (s.agenda = [] ∧ t = (({ s with lag := false } : State).tick).drain.turn)

/-- Nothing but its own line and word decides what the slot does: it runs, no fault or machine check waits, no pre-emption
is asked for, no hold stands, no breakpoint is set, no resumption is to be checked, and no other member of a packet is to
issue with a waiting instruction. -/
def Undisturbed (t : State) : Prop :=
  t.slot.run = .running ∧ t.boot.mode ≠ 3 ∧ t.slot.engFault = none ∧ t.slot.deferred = [] ∧ t.slot.preReq = false ∧
  t.slot.holds = [] ∧ t.breaks = [] ∧ t.slot.rcheck = false ∧ (t.slot.spin = none ∨ t.slot.after ≠ none)

/-- The state of a turn as the instruction finds it: the core notes which slot issued, the TLBs the translation, and the
active loop levels capture the line (log 13). -/
def issued (t : State) (line : Nat) : State :=
  ((t.updCore (coreOf t.cur) (fun c => { c with last := t.cur % 2 })).tlbFill (coreOf t.cur) t.slot.rid.launch
    (lineOfPc t.pc)).captureHere line

/-- The line from which the slot issues. -/
def LineIs (t : State) (line : Nat) : Prop :=
  (t.updCore (coreOf t.cur) (fun c => { c with last := t.cur % 2 })).fetchLine t.cur t.pc = .ok line

/-- The slot's word of its line. -/
def wordOfTurn (t : State) (line : Nat) : Nat := slotWord line (slotOfPc t.pc)

/-- The majors of R58 with the number of their minors. -/
def assigned : List (Nat × Nat) :=
  [(0x01, 1), (0x02, 1), (0x03, 1), (0x04, 1), (0x05, 1), (0x06, 1), (0x07, 4), (0x08, 1), (0x09, 1), (0x0A, 1),
   (0x0B, 1), (0x0C, 1), (0x0D, 5)] ++
  [(0x10, 13), (0x11, 1), (0x12, 9), (0x13, 9), (0x14, 6), (0x15, 1), (0x16, 1), (0x17, 6), (0x18, 6), (0x19, 1),
   (0x1A, 1), (0x1B, 1), (0x1C, 1), (0x1D, 4), (0x20, 7), (0x21, 1), (0x22, 4), (0x23, 1)] ++
  [(0x30, 1), (0x31, 1), (0x32, 1), (0x33, 1), (0x34, 1), (0x35, 1), (0x36, 1), (0x37, 1), (0x38, 1)] ++
  [(0x40, 2), (0x41, 2), (0x42, 1), (0x43, 1), (0x44, 1), (0x45, 1), (0x46, 1), (0x47, 1), (0x48, 1), (0x49, 4),
   (0x4A, 3), (0x4B, 13), (0x4C, 13), (0x4D, 2), (0x4E, 1)] ++
  [(0x60, 2), (0x61, 2), (0x62, 1), (0x63, 1), (0x64, 5), (0x65, 4), (0x66, 1)] ++
  [(0x70, 6), (0x71, 1), (0x72, 8), (0x73, 6), (0x74, 7), (0x75, 1), (0x76, 1), (0x77, 1), (0x78, 1), (0x79, 1),
   (0x7A, 6), (0x7B, 6), (0x7C, 1), (0x7D, 1), (0x7E, 1), (0x7F, 1), (0x80, 1), (0x81, 1), (0x82, 1), (0x83, 1),
   (0x84, 1), (0x85, 5), (0x86, 1)] ++
  (List.range 10).map (fun k => (0xA0 + k, 1)) ++ (List.range 10).map (fun k => (0xB0 + k, 1)) ++
  (List.range 13).map (fun k => (0xC0 + k, 1)) ++ (List.range 12).map (fun k => (0xD0 + k, 1)) ++
  (List.range 6).map (fun k => (0xE0 + k, 1))

/-- The minors of a major; 0 for a reserved one. -/
def minors (maj : Nat) : Nat := Store.get 0 assigned maj

/-- What a scalar instruction writes beside its slot's instruction stream: a register, a predicate, a loop counter. -/
inductive Writes where
  | nothing
  | g (n : Nat)
  | p (n : Nat)
  | lc (n : Nat)
  deriving DecidableEq, Repr

/-- The scalar instructions of majors 0x10 to 0x23, and `nop`, with the one register that each writes. -/
def scalarWrites : Instr → Option Writes
  | .nop => some .nothing
  | .add a .. | .sub a .. | .mul a .. | .mulh a .. | .mulhz a .. | .div a .. | .divz a .. | .rem a .. | .remz a ..
  | .min a .. | .max a .. | .minz a .. | .maxz a .. | .addi a .. => some (.g a.val)
  | .and a .. | .or a .. | .xor a .. | .andn a .. | .orn a .. | .shl a .. | .shr a .. | .sar a .. | .rot a ..
  | .andi a .. | .ori a .. | .xori a .. | .andni a .. | .orni a .. | .shli a .. | .shri a .. | .sari a .. | .roti a ..
    => some (.g a.val)
  | .clz a .. | .ctz a .. | .pop a .. | .sext _ a .. | .zext _ a .. | .bswp _ a .. | .bfx _ a .. | .bfi a .. => some (.g a.val)
  | .cmp _ p .. | .cmpi _ p .. | .pand p .. | .por p .. | .pxor p .. | .pnot p .. | .fcmp _ _ p .. => some (.p p.val)
  | .sel a .. | .li a .. | .lea a .. => some (.g a.val)
  | .mov (.gg a _) => some (.g a.val)
  | .mov (.glc a _) => some (.g a.val)
  | .mov (.lcg a _) => some (.lc a.val)
  | .fadd _ a .. | .fsub _ a .. | .fmul _ a .. | .fdiv _ a .. | .fsqrt _ a .. | .fmin _ a .. | .fmax _ a .. | .fma _ a ..
    => some (.g a.val)
  | _ => none

end Sys2Proof.Claims

/-- R450, R455, R425, R438, R96, R2: the module after reset: the start is at stage 0, every slot is idle, no launch, task,
message or entry is there, every memory is empty and canonical, the queues are in state 0, the cycle counter is 0. -/
def Obligations.ResetValues : Prop :=
  let s := State.reset
  s.memoryOk = true ∧ s.boot.mode = 0 ∧ s.boot.stage = 0 ∧ s.boot.failed = false ∧ s.boot.meas = [] ∧ s.boot.log = [] ∧
  s.boot.cap = 4800 ∧ s.cyc = 0 ∧ s.launches = [] ∧ s.flight = [] ∧ s.waiters = [] ∧ s.domains = [] ∧ s.copies = [] ∧
  s.streams = [] ∧ s.l1 = [] ∧ s.l2 = [] ∧ s.owners = [] ∧
  (∀ n, (s.slotAt n).run = .idle) ∧
  (∀ q, (s.queueAt q).state = 0 ∧ (s.queueAt q).producer = 0 ∧ (s.queueAt q).consumer = 0) ∧
  (∀ e, (s.ttAt e).enable = false) ∧
  ∀ p, (s.portAt p).enable = false ∧ (s.portAt p).rx = 0 ∧ (s.portAt p).arrived = []

/-- A step runs the decoded instruction (R43, R55, R104): when the slot's word decodes to an instruction whose guard holds
and no stall condition is met, the step is that instruction's execution; when the guard does not hold, the instruction
only retires; a stalled instruction leaves the state of the turn; the other member of a waiting instruction's packet takes
effect, and the slot waits on (R228); an agenda event is executed as it stands. -/
def Obligations.StepRunsDecoded : Prop :=
  (∀ (s t : State) (line : Nat) (q : Guard) (i : Instr), TurnOf s t → Undisturbed t → LineIs t line →
    lineReserved line = true → linePairs line = true → parityOk line (slotOfPc t.pc) = true →
    decode (slotOfPc t.pc) (wordOfTurn t line) = .ok (q, i) →
    let u := (issued t line).upd (fun x => { x with rcheck := false })
    (u.pBusy t.cur q.pred.val = true → step s = .next u) ∧
    (u.pBusy t.cur q.pred.val = false → u.p q.pred.val = q.sense → step s = .next u.retire) ∧
    (u.pBusy t.cur q.pred.val = false → u.p q.pred.val ≠ q.sense → u.stalled (Raw.unpack (wordOfTurn t line)) = true → step s = .next u) ∧
    (u.pBusy t.cur q.pred.val = false → u.p q.pred.val ≠ q.sense → u.stalled (Raw.unpack (wordOfTurn t line)) = false →
      (masksRead (Raw.unpack (wordOfTurn t line)) i).all (fun n => !(t.slot.mPoison.getLsbD n)) = true →
      step s = exec i u)) ∧
  (∀ (s t w u : State) (j : Instr), TurnOf s t → t.prepareMate = some (w, j) → exec j w = .next u →
    let x := u.slotAt t.cur
    x.run = .running → x.epoch = t.slot.epoch → x.pc ≠ t.pc + 1 → x.csr.tcause.getLsbD 63 = t.slot.csr.tcause.getLsbD 63 →
    ∃ v : State, step s = .next v ∧ v = { u with slots := v.slots } ∧ (∀ n, n ≠ t.cur → v.slotAt n = u.slotAt n) ∧
      v.slotAt t.cur = { x with pc := t.pc, after := some x.pc, spin := t.slot.spin, expired := t.slot.expired, counted := t.slot.counted }) ∧
  (∀ (s : State) (a : Act) (rest : List Choice), s.agenda = .act a :: rest →
    step s = .next (({ s with agenda := rest, lag := false } : State).tick.act a)) ∧
  (∀ (s : State) (e : Instr) (lag : Bool) (rest : List Choice), s.agenda = .event e lag :: rest → e.hasWord = false →
    step s = exec e ({ s with agenda := rest, lag := lag } : State).tick) ∧
  ∀ (s : State) (e : Instr) (lag : Bool) (rest : List Choice), s.agenda = .event e lag :: rest → e.hasWord = true →
    step s = .fault .notAnEvent

/-- R49, R55, R56, R57: the checks of a line and a word that a step makes before the guard, in their order, and the trap
that the first failing one raises: parity after one refetch, reserved bits of the line word, a malformed pair, an illegal
word. -/
def Sys2Proof.Claims.LineAndWordChecks : Prop :=
  ∀ (s t : State) (line : Nat), TurnOf s t → Undisturbed t → LineIs t line →
    let k := slotOfPc t.pc
    let u := issued t line
    let tval (reason : Nat) : Word := BitVec.ofNat 64 (64 * (t.pc.toNat / 64) + 8 * k + reason)
    (∀ e, parityOk line k = false → u.memLine t.cur t.pc = .ok e → parityOk e k = false →
      ∃ v : State, step s = .next (v.trap 2 (tval 1)) ∧ v.slot.csr = u.slot.csr ∧ v.slot.g = u.slot.g ∧ v.pc = t.pc) ∧
    (parityOk line k = true → lineReserved line = false → step s = .next (u.trap 2 (tval 2))) ∧
    (parityOk line k = true → lineReserved line = true → linePairs line = false → step s = .next (u.trap 2 (tval 3))) ∧
    (∀ r, parityOk line k = true → lineReserved line = true → linePairs line = true →
      decode k (wordOfTurn t line) = .error r →
      step s = .next (u.trap 1 (BitVec.ofNat 64 (65536 * r + wordOfTurn t line / 2 ^ 80))))

/-- R42 to R47: words written out from the encoding decode to the instructions that they stand for. -/
def Obligations.DecodeWords : Prop :=
  let q := Guard.none
  decode 0 0x10001020C000000000000000 = .ok (q, .add 4 2 3) ∧
  decode 2 0x09000000000000000000FF0F = .ok (q, .wait 15 0 15 15) ∧
  decode 3 0x0B0000000000000000000000 = .ok (q, .fin) ∧
  decode 4 0x010000000000000000000000 = .ok (q, .nop) ∧
  decode 0 0x11000C3000000000FFFFFFFF = .ok (q, .addi 3 3 (-1)) ∧
  decode 0 0x060004000000000000000006 = .ok (q, .rgn 6 1) ∧
  decode 1 0x41001060000A000000000000 = .ok (q, .st .i64 4 ⟨6, 0, 0, 0, 0⟩) ∧
  decode 0 0x0D0100100000000000000010 = .ok (q, .csrw 0x010 1) ∧
  decode 0 0x640200000000000000000000 = .ok (q, .tarr) ∧
  decode 0 0xE00000000000000000000060 = .ok (q, .nutick 96) ∧
  decode 0 0x0 = .error 1 ∧ decode 0 0xFFFFFFFFFFFFFFFFFFFFFFFF = .error 1

/-- R42 to R47, R57: the encoder's word of a well-formed instruction, under every guard that it can carry, at every slot
of a line, decodes to that guard and that instruction, with every operand at every value that the encoding admits. -/
def Obligations.DecodeOfEncode : Prop :=
  ∀ (k : Nat) (q : Guard) (i : Instr), i.hasWord = true → i.wf k → q.ok = true →
    ((∀ g l, i ≠ .rgn g l) ∨ q = Guard.none) → decode k (encode q i) = .ok (q, i)

/-- R57, R58: reserved majors and unassigned minors are illegal, whatever the other bits; among the scalar majors 0x10 to
0x1D no bit of a legal word is without meaning: the word is the encoding of what it decodes to. -/
def Sys2Proof.Claims.IllegalWords : Prop :=
  ∀ (k w : Nat), w < 2 ^ 96 →
    let maj := w / 2 ^ 88
    let mn := w / 2 ^ 80 % 16
    (w = 0 ∨ w = 2 ^ 96 - 1 → decode k w = .error 1) ∧
    (w ≠ 0 → w ≠ 2 ^ 96 - 1 → minors maj = 0 → decode k w = .error 2) ∧
    (minors maj ≠ 0 → minors maj ≤ mn → decode k w = .error 3) ∧
    (minors maj ≠ 0 → w / 2 ^ 84 % 16 = 8 → ∃ r, decode k w = .error r) ∧
    (∀ q i, 0x10 ≤ maj → maj ≤ 0x1D → decode k w = .ok (q, i) → encode q i = w ∧ i.wf k ∧ q.ok = true)

/-- Every memory of the module and the host's memory keep their one canonical form: keys strictly rising, and no entry
equal to what an unlisted address reads as (log 1). Every step keeps it, instruction and event alike. -/
def Obligations.MemoryStaysCanonical : Prop :=
  ∀ (s t : State), s.memoryOk = true → step s = .next t → t.memoryOk = true

/-- R43, R93, R95, R96: the frame of the scalar instructions. The register named by `scalarWrites` and the slot's place in
its program apart, nothing changes: no other register, mask or accumulator, no control register but `ins`, `vrb` (a loop
that ends here rotates it) and, for floats, `fflags`; no other slot, and, unless a ticking loop level ends here, no byte of
any memory, tag or descriptor. -/
def Obligations.ScalarFrame : Prop :=
  ∀ (s t : State) (i : Instr) (w : Writes), scalarWrites i = some w → exec i s = .next t →
    let x := s.slot
    let y := t.slot
    t.cur = s.cur ∧ (∀ n, n ≠ s.cur → t.slotAt n = s.slotAt n) ∧
    (∀ n, w ≠ .g n → t.g n = s.g n) ∧ (∀ n < 8, w ≠ .p n → t.p n = s.p n) ∧
    (∀ k, w ≠ .lc k → endsHere s k = false → y.lcr k = x.lcr k ∧ y.level k = x.level k) ∧
    y.v = x.v ∧ y.m = x.m ∧ y.acc = x.acc ∧ y.own = x.own ∧ y.panels = x.panels ∧ y.cnt = x.cnt ∧ y.vq = x.vq ∧ y.mq = x.mq ∧
    y.pq = x.pq ∧ y.rid = x.rid ∧ y.head = x.head ∧ y.run = x.run ∧ y.shLoops = x.shLoops ∧ y.shOrder = x.shOrder ∧
    y.csr.tvec = x.csr.tvec ∧ y.csr.tepc = x.csr.tepc ∧ y.csr.tcause = x.csr.tcause ∧ y.csr.tval = x.csr.tval ∧
    y.csr.frm = x.csr.frm ∧ y.csr.nud = x.csr.nud ∧ y.csr.ins = x.csr.ins + 1 ∧
    ((∀ k, endsHere s k = true → (x.level k).tick = false) →
      y.region = x.region ∧ t.mem = s.mem ∧ t.l2 = s.l2 ∧ t.l1 = s.l1 ∧ t.owners = s.owners ∧ t.scr = s.scr ∧ t.tags = s.tags ∧
      t.memDesc = s.memDesc ∧ t.scrDesc = s.scrDesc ∧ t.flight = s.flight ∧ t.waiters = s.waiters ∧ t.hostMem = s.hostMem)

/-! ### Statements put together -/

/-- Integer arithmetic: results, corners of division, encodings. -/
def Obligations.IntegerArithmetic : Prop := Claims.IntegerResults ∧ Claims.IntegerEncodings

/-- Logic and shifts, register and immediate forms: results, encodings, illegal shift immediates. -/
def Obligations.LogicAndShifts : Prop := Claims.LogicResults ∧ Claims.LogicEncodings

/-- Bit counts, extensions, byte reversal and bit fields: results, encodings, illegal forms. -/
def Obligations.CountsExtensionsAndBitFields : Prop := Claims.CountsAndExtensions ∧ Claims.BitFields ∧ Claims.FieldEncodings

/-- Comparisons, predicate logic, selection and moves. -/
def Obligations.ComparesMovesAndSelection : Prop := Claims.ComparesAndPredicates ∧ Claims.CompareEncodings ∧ Claims.MovesAndSelection

/-- The register files, and what retiring an instruction changes. -/
def Obligations.RegistersAndRetirement : Prop := Claims.RegisterFiles ∧ Claims.RetirementAdvances

/-- Hardware loops: opening a level, and the iteration step. -/
def Obligations.LoopSteps : Prop := Claims.LoopLevelsEnd ∧ Claims.LoopLevelContinues ∧ Claims.LoopsOpen

/-- Branches, calls, returns and table jumps, and the loop levels that a transfer closes. -/
def Obligations.TransfersOfControl : Prop := Claims.TransferClosesLevels ∧ Claims.BranchesAndCalls ∧ Claims.TableJumps

/-- Taking a trap: entry of the handler, or the end of the task in its slot. -/
def Obligations.TrapsTaken : Prop := Claims.TrapEntry ∧ Claims.TrapWithoutHandler

/-- The return from a trap, and a return that undoes its entry. -/
def Obligations.TrapsReturn : Prop := Claims.TrapReturn ∧ Claims.TrapThenReturn

/-- nop, brk, trap, sys, wait, fences and xf. -/
def Obligations.SystemCallsWaitsAndFences : Prop := Claims.SystemCalls ∧ Claims.WaitsAndFences

/-- Control registers: what each reads, what each write does, and the writes that trap. -/
def Obligations.ControlRegisters : Prop := Claims.ControlRegisterReads ∧ Claims.ControlRegisterWrites

/-- Regions open at rgn; sus and yld leave a plain task waiting, ready or running on. -/
def Obligations.RegionsAndSuspension : Prop := Claims.RegionsOpen ∧ Claims.SuspensionPoints

/-- A continuation in its record, and the end of a task. -/
def Obligations.ContinuationsAndFinish : Prop := Claims.ContinuationRecords ∧ Claims.TasksFinish

/-- Float arithmetic: exceptional operands, and finite results rounded once. -/
def Obligations.FloatArithmetic : Prop := Claims.FloatExceptions ∧ Claims.FloatResultsRoundOnce ∧ Claims.ExactValuesRoundToThemselves

/-- Float minimum, maximum and comparison, with their flags and encodings. -/
def Obligations.FloatMinMaxAndCompares : Prop := Claims.FloatMinMax ∧ Claims.FloatCompares ∧ Claims.FloatEncodings

/-- Lane by lane vector instructions on integer and float types. -/
def Obligations.VectorLaneResults : Prop := Claims.VectorIntegerLanes ∧ Claims.VectorFloatLanes

/-- Poisoned vector sources; reductions, scans and dot products. -/
def Obligations.VectorPoisonAndReductions : Prop := Claims.VectorPoison ∧ Claims.VectorReductions

/-- Vector comparisons, mask logic, selection and lane moves. -/
def Obligations.VectorComparesAndMoves : Prop := Claims.VectorComparesAndMasks ∧ Claims.VectorLaneMoves

/-- Vector conversion, clamping, packing, unpacking and block descriptors. -/
def Obligations.VectorFormats : Prop := Claims.VectorNarrowingAndWidening ∧ Claims.BlockDescriptorsOfRegisters

/-- Scalar loads and stores with nothing in flight. -/
def Obligations.ScalarMemory : Prop := Claims.ScalarLoads ∧ Claims.ScalarStores

/-- Full/empty accesses; line management; block descriptors; byte-count barriers. -/
def Obligations.FullEmptyLinesAndDescriptors : Prop := Claims.FullEmptyForms ∧ Claims.LinesAndDescriptors

/-- Vector loads and stores: whole registers, strided and indexed elements. -/
def Obligations.VectorMemory : Prop := Claims.VectorRegistersToMemory ∧ Claims.VectorElementsToMemory

/-- The reuse clock, domains, quotas and releases, at the slot and at the home. -/
def Obligations.ReuseDomains : Prop := Claims.ReuseInstructions ∧ Claims.ReuseDomainsAtHome

/-- The horizon: its instructions, and the reports that combine it. -/
def Obligations.VirtualTimeHorizon : Prop := Claims.HorizonAndAborts ∧ Claims.HorizonReports

/-- Matrix instructions on memory, and the sum of one K-block. -/
def Obligations.MatrixMemoryAndSums : Prop := Claims.MatrixOperands ∧ Claims.KBlockSums

/-- Byte copies, gather, scatter and compaction, run to their end. -/
def Obligations.CopiesGathersAndScatters : Prop := Claims.ByteCopies ∧ Claims.GatherAndScatter

/-- Larkspur instructions while stopped, and of a timestamped task. -/
def Obligations.LarkspurInstructions : Prop := Claims.LarkspurStopped ∧ Claims.LarkspurTimed

/-- Phlox: the array, unit propagation, backtracking and confidence. -/
def Obligations.PhloxInstructions : Prop := Claims.PhloxArray ∧ Claims.PhloxPropagates

/-- Loads, stores, atomics and reductions on their way to their homes. -/
def Obligations.AccessesInFlight : Prop := Claims.UpdatesAtHomes ∧ Claims.LoadsAndStoresInFlight

/-- Arrivals, registrations, records and messages on their way; dispatch of a ready task; ageing. -/
def Obligations.TasksInFlightAndDispatch : Prop := Claims.TasksOnTheirWay ∧ Claims.DispatchAndAgeing

/-- Soft errors and scrubs; pages unmapped and migrated. -/
def Obligations.SoftErrorsAndPages : Prop := Claims.SoftErrors ∧ Claims.PagesMove

/-- Engines go on by themselves; their faults stop, park or hold, and are resolved. -/
def Obligations.EnginesAndTheirFaults : Prop := Claims.EnginesGoOn ∧ Claims.EngineFaults

/-- Command queues: their registers, and the next entry taken, rejected or left. -/
def Obligations.CommandQueues : Prop := Claims.QueueControl ∧ Claims.CommandsTaken

/-- Launches begin with their grant, and end with their status. -/
def Obligations.LaunchesBeginAndEnd : Prop := Claims.LaunchesEnd ∧ Claims.LaunchesBegin

/-- Resets, boot stages, versions, measurement, power and the clock. -/
def Obligations.BootAndManagement : Prop := Claims.BootStages ∧ Claims.Management

/-- Flits and lanes; remote writes, trace rings and host accesses to memory. -/
def Obligations.LinksAndRemoteMemory : Prop := Claims.LinkPorts ∧ Claims.RemoteAndHostMemory

/-- Host writes of registers, and requests of the debugger. -/
def Obligations.HostAndDebugger : Prop := Claims.HostRegisters ∧ Claims.DebugRequests

/-- Checks of a line and a word through a step; illegal majors and minors; no bit of a scalar word is ignored. -/
def Obligations.IllegalWordsAndLines : Prop := Claims.LineAndWordChecks ∧ Claims.IllegalWords
end

