-- ==== Sys2Proof/Laws/Store.lean ====
section
/-! SUPPORT. Sparse stores: what a key reads after a write, and that every write keeps the canonical form. -/

namespace Sys2Proof.Laws

open Sys2Proof.Machine

section Store
variable {α : Type} (m : Store α) (k j : Nat) (v d : α)

@[simp] theorem find_set_same : Store.find? (Store.set m k v) k = some v := by
  induction m with
  | nil => simp [Store.set, Store.find?]
  | cons e t ih =>
    obtain ⟨i, w⟩ := e
    simp only [Store.set]
    split
    · simp [Store.find?]
    · split
      · simp [Store.find?]
      · rename_i h _; simp [Store.find?, h, ih]

theorem find_set_other (h : j ≠ k) : Store.find? (Store.set m k v) j = Store.find? m j := by
  induction m with
  | nil => simp [Store.set, Store.find?, h]
  | cons e t ih =>
    obtain ⟨i, w⟩ := e
    simp only [Store.set]
    split
    · rename_i e; subst e; simp [Store.find?, h]
    · split
      · simp [Store.find?, h]
      · simp only [Store.find?]; split
        · rfl
        · exact ih

@[simp] theorem find_erase_same : Store.find? (Store.erase m k) k = none := by
  induction m with
  | nil => simp [Store.erase, Store.find?]
  | cons e t ih =>
    obtain ⟨i, w⟩ := e
    simp only [Store.erase]
    split
    · exact ih
    · rename_i h; simp [Store.find?, h, ih]

theorem find_erase_other (h : j ≠ k) : Store.find? (Store.erase m k) j = Store.find? m j := by
  induction m with
  | nil => simp [Store.erase, Store.find?]
  | cons e t ih =>
    obtain ⟨i, w⟩ := e
    simp only [Store.erase]
    split
    · rename_i e; subst e; simp [Store.find?, h, ih]
    · simp only [Store.find?]; split
      · rfl
      · exact ih

@[simp] theorem get_set_same : Store.get d (Store.set m k v) k = v := by simp [Store.get]
theorem get_set_other (h : j ≠ k) : Store.get d (Store.set m k v) j = Store.get d m j := by
  simp [Store.get, find_set_other m k j v h]

@[simp] theorem set_set (w : α) : Store.set (Store.set m k v) k w = Store.set m k w := by
  induction m with
  | nil => simp [Store.set]
  | cons e t ih =>
    obtain ⟨i, x⟩ := e
    simp only [Store.set]
    split
    · simp [Store.set]
    · split
      · simp [Store.set]
      · rename_i h1 h2; simp [Store.set, h1, h2, ih]

variable [DecidableEq α]

@[simp] theorem get_put_same : Store.get d (Store.put d m k v) k = v := by
  unfold Store.put; split
  · rename_i h; simp [Store.get, h]
  · simp
theorem get_put_other (h : j ≠ k) : Store.get d (Store.put d m k v) j = Store.get d m j := by
  unfold Store.put; split
  · simp [Store.get, find_erase_other m k j h]
  · exact get_set_other m k j v d h

theorem wfFrom_mono {lo lo' : Nat} (h : lo ≤ lo') (hm : Store.wfFrom d lo' m = true) : Store.wfFrom d lo m = true := by
  cases m with
  | nil => rfl
  | cons e t =>
    obtain ⟨i, w⟩ := e
    simp only [Store.wfFrom, Bool.and_eq_true, decide_eq_true_eq] at hm ⊢
    exact ⟨⟨by omega, hm.1.2⟩, hm.2⟩

theorem wfFrom_set {lo : Nat} (hv : v ≠ d) (hk : lo ≤ k) (hm : Store.wfFrom d lo m = true) :
    Store.wfFrom d lo (Store.set m k v) = true := by
  induction m generalizing lo with
  | nil => simp [Store.set, Store.wfFrom, hv, hk]
  | cons e t ih =>
    obtain ⟨i, w⟩ := e
    simp only [Store.wfFrom, Bool.and_eq_true, decide_eq_true_eq] at hm
    simp only [Store.set]
    split
    · rename_i h; subst h; simp [Store.wfFrom, hv, hk, hm.2]
    · split
      · rename_i h1 h2
        simp only [Store.wfFrom, Bool.and_eq_true, decide_eq_true_eq]
        exact ⟨⟨hk, hv⟩, ⟨⟨h2, hm.1.2⟩, hm.2⟩⟩
      · rename_i h1 h2
        simp only [Store.wfFrom, Bool.and_eq_true, decide_eq_true_eq]
        exact ⟨hm.1, ih (by omega) hm.2⟩

theorem wfFrom_erase {lo : Nat} (hm : Store.wfFrom d lo m = true) : Store.wfFrom d lo (Store.erase m k) = true := by
  induction m generalizing lo with
  | nil => rfl
  | cons e t ih =>
    obtain ⟨i, w⟩ := e
    simp only [Store.wfFrom, Bool.and_eq_true, decide_eq_true_eq] at hm
    simp only [Store.erase]
    split
    · exact ih (wfFrom_mono t d (by omega) hm.2)
    · simp only [Store.wfFrom, Bool.and_eq_true, decide_eq_true_eq]
      exact ⟨hm.1, ih hm.2⟩

theorem wfFrom_filter {lo : Nat} (p : Nat × α → Bool) (hm : Store.wfFrom d lo m = true) :
    Store.wfFrom d lo (m.filter p) = true := by
  induction m generalizing lo with
  | nil => rfl
  | cons e t ih =>
    obtain ⟨i, w⟩ := e
    simp only [Store.wfFrom, Bool.and_eq_true, decide_eq_true_eq] at hm
    simp only [List.filter]
    split
    · simp only [Store.wfFrom, Bool.and_eq_true, decide_eq_true_eq]
      exact ⟨hm.1, ih hm.2⟩
    · exact ih (wfFrom_mono t d (by omega) hm.2)

end Store

/-! ### Memories -/

/-- A byte just written reads as it was written. -/
@[simp] theorem read_write_same (m : List Host.Cell) (a : Nat) (b : Byte) :
    Memory.read (Memory.write m a b) a = b := get_put_same m a b 0

/-- A write leaves every other byte alone. -/
theorem read_write_other (m : List Host.Cell) (a c : Nat) (b : Byte) (h : c ≠ a) :
    Memory.read (Memory.write m a b) c = Memory.read m c := get_put_other m a c b 0 h

/-- A write keeps the canonical form. -/
theorem write_wf {m : List Host.Cell} (a : Nat) (b : Byte) (h : Memory.wf m = true) :
    Memory.wf (Memory.write m a b) = true := by
  show Store.wfFrom 0 0 (Store.put 0 m a b) = true
  unfold Store.put
  split
  · exact wfFrom_erase m a 0 h
  · rename_i hb; exact wfFrom_set m a b 0 hb (Nat.zero_le a) h

/-- Any number of writes keeps the canonical form. -/
theorem foldl_write_wf {β : Type} (l : List β) (f : β → Nat) (g : β → Byte) {m : List Host.Cell}
    (h : Memory.wf m = true) : Memory.wf (l.foldl (fun m e => Memory.write m (f e) (g e)) m) = true := by
  induction l generalizing m with
  | nil => exact h
  | cons e t ih => exact ih (write_wf _ _ h)

theorem filter_wf {m : List Host.Cell} (p : Host.Cell → Bool) (h : Memory.wf m = true) :
    Memory.wf (m.filter p) = true := wfFrom_filter m 0 p h

end Sys2Proof.Laws
end

