-- ==== Sys2Proof/Laws/Coherence.lean ====
section
/-! SUPPORT. Moves of data between the caches and the memory side change no value that an access at the home is given
(R262, R386, R389). -/

namespace Sys2Proof.Laws

open Sys2Proof.Machine Sys2Proof.Machine.State

/-! ### Rising keys -/

section Rising
variable {α : Type} (m : Store α) (k : Nat)

theorem mem_keys_set (v : α) (j : Nat) (h : j ∈ (Store.set m k v).map (·.1)) : j = k ∨ j ∈ m.map (·.1) := by
  induction m with
  | nil => simpa [Store.set] using h
  | cons e t ih =>
    obtain ⟨i, w⟩ := e
    simp only [Store.set] at h
    split at h
    · rename_i e; subst e; simpa using h
    · split at h
      · simpa using h
      · simp only [List.map_cons, List.mem_cons] at h ⊢
        rcases h with h | h
        · exact .inr (.inl h)
        · rcases ih h with h | h
          · exact .inl h
          · exact .inr (.inr h)

theorem rising_set (v : α) (h : Rising m) : Rising (Store.set m k v) := by
  induction m with
  | nil => simp [Rising, Store.set]
  | cons e t ih =>
    obtain ⟨i, w⟩ := e
    simp only [Rising, List.map_cons, List.pairwise_cons] at h ih
    simp only [Store.set]
    split
    · rename_i e; subst e; simpa [Rising] using h
    · split
      · rename_i h1 h2
        simp only [Rising, List.map_cons, List.pairwise_cons]
        refine ⟨?_, h⟩
        intro a ha
        rcases List.mem_cons.mp ha with rfl | ha
        · exact h2
        · exact Nat.lt_trans h2 (h.1 a ha)
      · rename_i h1 h2
        simp only [Rising, List.map_cons, List.pairwise_cons]
        refine ⟨?_, ih h.2⟩
        intro a ha
        rcases mem_keys_set t k v a ha with rfl | ha
        · omega
        · exact h.1 a ha

theorem rising_sub {m n : Store α} (h : Rising m) (hs : List.Sublist n m) : Rising n :=
  h.sublist (hs.map _)

theorem erase_sublist : List.Sublist (Store.erase m k) m := by
  induction m with
  | nil => simp [Store.erase]
  | cons e t ih =>
    obtain ⟨i, w⟩ := e
    simp only [Store.erase]
    split
    · exact ih.cons _
    · exact ih.cons_cons _

theorem find_filter_keep (p : Nat × α → Bool) (h : ∀ v, p (k, v) = true) :
    Store.find? (m.filter p) k = Store.find? m k := by
  induction m with
  | nil => rfl
  | cons e t ih =>
    obtain ⟨i, w⟩ := e
    by_cases hp : p (i, w)
    · simp only [List.filter_cons, hp, if_true, Store.find?]; split
      · rfl
      · exact ih
    · simp only [List.filter_cons, hp]
      have : k ≠ i := by rintro rfl; exact hp (h w)
      simp [Store.find?, this, ih]

theorem find_filter_drop (p : Nat × α → Bool) (h : ∀ v, p (k, v) = false) : Store.find? (m.filter p) k = none := by
  induction m with
  | nil => rfl
  | cons e t ih =>
    obtain ⟨i, w⟩ := e
    by_cases hp : p (i, w)
    · simp only [List.filter_cons, hp, if_true, Store.find?]
      have : k ≠ i := by rintro rfl; simp [h] at hp
      simp [this, ih]
    · simpa [List.filter_cons, hp] using ih

theorem find_mem {v : α} (h : Store.find? m k = some v) : (k, v) ∈ m := by
  induction m with
  | nil => simp [Store.find?] at h
  | cons e t ih =>
    obtain ⟨i, w⟩ := e
    simp only [Store.find?] at h
    split at h
    · rename_i e; subst e; cases h; simp
    · exact List.mem_cons_of_mem _ (ih h)

theorem mem_find (h : Rising m) {v : α} (hm : (k, v) ∈ m) : Store.find? m k = some v := by
  induction m with
  | nil => simp at hm
  | cons e t ih =>
    obtain ⟨i, w⟩ := e
    simp only [Rising, List.map_cons, List.pairwise_cons] at h ih
    simp only [Store.find?]
    rcases List.mem_cons.mp hm with e | h2
    · injection e with e1 e2; subst e1; subst e2; simp
    · have : k ≠ i := by
        rintro rfl
        have := h.1 k (List.mem_map.mpr ⟨(k, v), h2, rfl⟩)
        omega
      simp [this, ih h.2 h2]

end Rising

/-! ### Keys -/

theorem l1Key_inj {c w c' w' : Nat} (h : w < 2 ^ 50) (h' : w' < 2 ^ 50) (e : l1Key c w = l1Key c' w') :
    c = c' ∧ w = w' := by
  simp only [l1Key] at e; omega

/-! ### What the memories beside the caches hold -/

/-- A state without what moves between the caches and the memory side. -/
def bare (s : State) : State :=
  { s with mem := [], l2 := [], l1 := [], owners := [], regLines := [], l1Sets := [], l2Sets := [], llcSets := [], domains := []
           domainOld := [], domainCopy := [] }

/-- Data has moved, and every byte reads as before. -/
structure Moves (s u : State) : Prop where
  rest    : bare u = bare s
  settled : Settled u
  view    : ∀ q < 2 ^ 52, u.peek q = s.peek q

theorem Moves.refl {s : State} (h : Settled s) : Moves s s := ⟨rfl, h, fun _ _ => rfl⟩
theorem Moves.trans {s t u : State} (a : Moves s t) (b : Moves t u) : Moves s u :=
  ⟨b.rest.trans a.rest, b.settled, fun q hq => (b.view q hq).trans (a.view q hq)⟩

theorem l2WriteBytes_eq (s : State) (pa : Nat) (bs : List Byte) :
    s.l2WriteBytes pa bs = { s with l2 := (s.l2WriteBytes pa bs).l2 } := by
  induction bs generalizing s pa with
  | nil => rfl
  | cons b t ih => simp only [State.l2WriteBytes]; rw [ih]; rfl

theorem l2WriteBytes_rising (s : State) (pa : Nat) (bs : List Byte) (h : Rising s.l2) :
    Rising (s.l2WriteBytes pa bs).l2 := by
  induction bs generalizing s pa with
  | nil => exact h
  | cons b t ih => exact ih _ _ (rising_set _ _ _ h)

theorem l2WriteBytes_find (s : State) (pa : Nat) (bs : List Byte) (q : Nat) :
    Store.find? (s.l2WriteBytes pa bs).l2 q =
      if pa ≤ q ∧ q < pa + bs.length then some (bs.getD (q - pa) 0) else Store.find? s.l2 q := by
  induction bs generalizing s pa with
  | nil => simp [State.l2WriteBytes]
  | cons b t ih =>
    simp only [State.l2WriteBytes, ih, State.l2Write, List.length_cons]
    by_cases h : q = pa
    · subst h; simp
    · rw [find_set_other _ _ _ _ h]
      by_cases h2 : pa + 1 ≤ q ∧ q < pa + 1 + t.length
      · have : q - pa = (q - (pa + 1)) + 1 := by omega
        rw [if_pos h2, if_pos (by omega), this]; simp
      · rw [if_neg h2, if_neg (by omega)]

theorem homeByte_l2WriteBytes (s : State) (pa : Nat) (bs : List Byte) (q : Nat) :
    (s.l2WriteBytes pa bs).homeByte q = if pa ≤ q ∧ q < pa + bs.length then bs.getD (q - pa) 0 else s.homeByte q := by
  unfold State.homeByte
  rw [l2WriteBytes_find]
  have : (s.l2WriteBytes pa bs).mem = s.mem := by rw [l2WriteBytes_eq]
  rw [this]; split <;> rfl

theorem leBytes_getD (x n k : Nat) (h : k < n) : (leBytes x n).getD k 0 = BitVec.ofNat 8 (x / 2 ^ (8 * k)) := by
  induction n generalizing x k with
  | zero => omega
  | succ n ih =>
    cases k with
    | zero => simp [leBytes]
    | succ k =>
      simp only [leBytes, List.getD_cons_succ]
      rw [ih _ _ (by omega), Nat.div_div_eq_div_mul]
      congr 2
      rw [show 8 * (k + 1) = 8 + 8 * k by omega, Nat.pow_add]

theorem leBytes_length (x n : Nat) : (leBytes x n).length = n := by
  induction n generalizing x with
  | zero => rfl
  | succ n ih => simp [leBytes, ih]

/-- A recall writes back and drops the owner: nothing reads otherwise. -/
theorem recallWord_moves (s : State) (w : Nat) (hs : Settled s) (hw : w < 2 ^ 50) :
    Moves s (s.recallWord w) ∧ Store.find? (s.recallWord w).owners w = none ∧
    (∀ c v, v < 2 ^ 50 → (s.recallWord w).l1At c v = if v = w ∧ Store.find? s.owners w = some c then none else s.l1At c v) ∧
    (∀ v, v ≠ w → Store.find? (s.recallWord w).owners v = Store.find? s.owners v) := by
  unfold State.recallWord
  cases ho : Store.find? s.owners w with
  | none =>
    refine ⟨Moves.refl hs, ho, ?_, fun _ _ => rfl⟩
    intro c v _; simp
  | some c =>
    obtain ⟨x, hx, hst⟩ := (hs.owned c w hw).mp ho
    simp only [hx]
    have hl1 : ∀ c' v, v < 2 ^ 50 →
        Store.find? (Store.erase s.l1 (l1Key c w)) (l1Key c' v) = if v = w ∧ c = c' then none else s.l1At c' v := by
      intro c' v hv
      by_cases e : l1Key c' v = l1Key c w
      · obtain ⟨rfl, rfl⟩ := l1Key_inj hv hw e
        simp
      · rw [find_erase_other _ _ _ e]
        split
        · rename_i h; obtain ⟨rfl, rfl⟩ := h; exact absurd rfl e
        · rfl
    have hown : ∀ v, v ≠ w → Store.find? (Store.erase s.owners w) v = Store.find? s.owners v :=
      fun v hv => find_erase_other _ _ _ hv
    refine ⟨⟨?_, ?_, ?_⟩, by simp, ?_, ?_⟩
    · rw [l2WriteBytes_eq]; rfl
    · refine ⟨?_, ?_, ⟨l2WriteBytes_rising _ _ _ hs.rising.1, ?_, ?_⟩, ?_, ?_, ?_⟩
      · rw [l2WriteBytes_eq]; exact hs.contrib
      · rw [l2WriteBytes_eq]; exact hs.updates
      · rw [l2WriteBytes_eq]; exact rising_sub hs.rising.2.1 (erase_sublist _ _)
      · rw [l2WriteBytes_eq]; exact rising_sub hs.rising.2.2 (erase_sublist _ _)
      · rw [l2WriteBytes_eq]; intro e he; exact hs.bounds e ((erase_sublist _ _).subset he)
      · rw [l2WriteBytes_eq]
        intro c' v y hv hy
        simp only [State.l1At, hl1 c' v hv] at hy
        split at hy
        · cases hy
        · exact hs.whole c' v y hv hy
      · rw [l2WriteBytes_eq]
        intro c' v hv
        simp only [State.l1At, hl1 c' v hv]
        by_cases e : v = w
        · subst e
          by_cases e2 : c = c'
          · subst e2; simp
          · simp only [find_erase_same, e2, and_false, if_false]
            constructor
            · intro h; cases h
            · rintro ⟨y, hy, hyo⟩
              have := (hs.owned c' v hv).mpr ⟨y, hy, hyo⟩
              rw [ho] at this; cases this; exact absurd rfl e2
        · simp only [hown v e, e, false_and, if_false]
          exact hs.owned c' v hv
    · intro q hq
      unfold State.peek
      have hwq : wordOf q < 2 ^ 50 := by simp only [wordOf]; omega
      by_cases e : wordOf q = w
      · subst e
        simp only [find_erase_same, ho, hx]
        have : ({ s.l2WriteBytes (4 * wordOf q) (leBytes x.data.toNat 4) with
            l1 := Store.erase (s.l2WriteBytes (4 * wordOf q) (leBytes x.data.toNat 4)).l1 (l1Key c (wordOf q))
            owners := Store.erase (s.l2WriteBytes (4 * wordOf q) (leBytes x.data.toNat 4)).owners (wordOf q) } : State).homeByte q
          = (s.l2WriteBytes (4 * wordOf q) (leBytes x.data.toNat 4)).homeByte q := rfl
        rw [this, homeByte_l2WriteBytes, leBytes_length]
        have h4 : 4 * wordOf q ≤ q ∧ q < 4 * wordOf q + 4 := by simp only [wordOf]; omega
        rw [if_pos h4, leBytes_getD _ _ _ (by omega)]
        have : q - 4 * wordOf q = q % 4 := by simp only [wordOf]; omega
        rw [this]; rfl
      · have hq4 : ¬ (4 * w ≤ q ∧ q < 4 * w + 4) := by simp only [wordOf] at e; omega
        have e1 : (s.l2WriteBytes (4 * w) (leBytes x.data.toNat 4)).owners = s.owners := by rw [l2WriteBytes_eq]
        have e2 : (s.l2WriteBytes (4 * w) (leBytes x.data.toNat 4)).l1 = s.l1 := by rw [l2WriteBytes_eq]
        have e3 := homeByte_l2WriteBytes s (4 * w) (leBytes x.data.toNat 4) q
        rw [leBytes_length, if_neg hq4] at e3
        simp only [e1, e2, hown _ e, State.l1At, hl1 _ _ hwq, e, false_and, if_false]
        have e4 : ({ s.l2WriteBytes (4 * w) (leBytes x.data.toNat 4) with
            l1 := Store.erase s.l1 (l1Key c w), owners := Store.erase s.owners w } : State).homeByte q = s.homeByte q := e3
        rw [e4]
    · intro c' v hv
      have e2 : (s.l2WriteBytes (4 * w) (leBytes x.data.toNat 4)).l1 = s.l1 := by rw [l2WriteBytes_eq]
      simp only [State.l1At, e2]; rw [hl1 c' v hv]; simp [State.l1At]
    · intro v hv
      have e1 : (s.l2WriteBytes (4 * w) (leBytes x.data.toNat 4)).owners = s.owners := by rw [l2WriteBytes_eq]
      simp only [e1]; exact hown v hv

theorem recall_list_moves (l : List (Nat × Nat)) (s : State) (hs : Settled s) (hl : ∀ e ∈ l, e.1 < 2 ^ 50) :
    let u := l.foldl (fun t e => t.recallWord e.1) s
    Moves s u ∧ (∀ c v, v < 2 ^ 50 → v ∉ l.map (·.1) → u.l1At c v = s.l1At c v ∧
      Store.find? u.owners v = Store.find? s.owners v) ∧
    (∀ v ∈ l.map (·.1), Store.find? u.owners v = none) ∧
    (∀ c v, v < 2 ^ 50 → s.l1At c v = none → u.l1At c v = none) := by
  induction l generalizing s with
  | nil => exact ⟨Moves.refl hs, fun _ _ _ _ => ⟨rfl, rfl⟩, by simp, fun _ _ _ h => h⟩
  | cons e t ih =>
    obtain ⟨m, ho, hl1, hown⟩ := recallWord_moves s e.1 hs (hl e (by simp))
    obtain ⟨m', h1, h2, h3⟩ := ih _ m.settled (fun x hx => hl x (by simp [hx]))
    refine ⟨m.trans m', ?_, ?_, ?_⟩
    · intro c v hv hn
      simp only [List.map_cons, List.mem_cons, not_or] at hn
      obtain ⟨a, b⟩ := h1 c v hv hn.2
      refine ⟨a.trans ?_, b.trans (hown v hn.1)⟩
      rw [hl1 c v hv]; simp [hn.1]
    · intro v hv
      by_cases hv' : v ∈ t.map (·.1)
      · exact h2 v hv'
      · simp only [List.map_cons, List.mem_cons] at hv
        rcases hv with rfl | hv
        · rw [List.foldl_cons, (h1 0 e.1 (hl e (by simp)) hv').2]; exact ho
        · exact absurd hv hv'
    · intro c v hv hn
      refine h3 c v hv ?_
      rw [hl1 c v hv]; split
      · rfl
      · exact hn

theorem settled_same {s u : State} (hs : Settled s) (a : u.contrib = s.contrib) (b : u.updLines = s.updLines)
    (c : u.l2 = s.l2) (d : u.l1 = s.l1) (e : u.owners = s.owners) : Settled u := by
  refine ⟨a.trans hs.contrib, b.trans hs.updates, ?_, ?_, ?_, ?_⟩
  · rw [c, d, e]; exact hs.rising
  · rw [e]; exact hs.bounds
  · intro k w x; simp only [State.l1At, d]; exact hs.whole k w x
  · intro k w; simp only [State.l1At, d, e]; exact hs.owned k w

theorem read_write (m : List Host.Cell) (a b : Nat) (x : Byte) :
    Memory.read (Memory.write m a x) b = if b = a then x else Memory.read m b := by
  unfold Memory.read Memory.write Store.put
  split
  · rename_i h; subst h
    split
    · rename_i h; subst h; simp [Store.get]
    · rename_i h; simp [Store.get, find_erase_other _ _ _ h]
  · split
    · rename_i h; subst h; simp [Store.get]
    · rename_i h; simp [Store.get, find_set_other _ _ _ _ h]

theorem read_writes (l : Store Byte) (m : List Host.Cell) (q : Nat) (h : Rising l) :
    Memory.read (l.foldl (fun m e => Memory.write m e.1 e.2) m) q = (Store.find? l q).getD (Memory.read m q) := by
  induction l generalizing m with
  | nil => rfl
  | cons e t ih =>
    obtain ⟨i, w⟩ := e
    have h' := h
    simp only [Rising, List.map_cons, List.pairwise_cons] at h
    rw [List.foldl_cons, ih _ h.2, read_write]
    simp only [Store.find?]
    by_cases e : q = i
    · subst e
      simp only [if_true]
      cases hq : Store.find? t q with
      | none => rfl
      | some v =>
        have := h.1 q (List.mem_map.mpr ⟨(q, v), find_mem _ _ hq, rfl⟩)
        omega
    · simp [e]

theorem l2Flush_eq (s : State) (line : Nat) :
    s.l2Flush line = { s with
      mem := (s.l2.filter (fun e => e.1 / 1024 == line)).foldl (fun m e => Memory.write m e.1 e.2) s.mem
      l2 := s.l2.filter (fun e => e.1 / 1024 != line)
      llcSets := (s.l2Flush line).llcSets } := by
  unfold State.l2Flush; dsimp only; split <;> rfl

theorem l2Flush_moves (s : State) (line : Nat) (hs : Settled s) :
    Moves s (s.l2Flush line) ∧ (s.l2Flush line).l1 = s.l1 ∧ (s.l2Flush line).owners = s.owners := by
  have hh : ∀ q, (s.l2Flush line).homeByte q = s.homeByte q := by
    intro q
    rw [l2Flush_eq]; unfold State.homeByte
    by_cases e : q / 1024 = line
    · simp only
      rw [find_filter_drop _ _ _ (by intro v; simp [e]), read_writes _ _ _ (rising_sub hs.rising.1 List.filter_sublist),
        find_filter_keep _ _ _ (by intro v; simp [e])]
      simp
    · simp only
      rw [find_filter_keep _ _ _ (by intro v; simp [e]), read_writes _ _ _ (rising_sub hs.rising.1 List.filter_sublist),
        find_filter_drop _ _ _ (by intro v; simp [e])]
      simp
  have h1 : (s.l2Flush line).l1 = s.l1 := by rw [l2Flush_eq]
  have h2 : (s.l2Flush line).owners = s.owners := by rw [l2Flush_eq]
  refine ⟨⟨by rw [l2Flush_eq]; rfl, ?_, ?_⟩, h1, h2⟩
  · rw [l2Flush_eq]
    refine ⟨hs.contrib, hs.updates, ⟨rising_sub hs.rising.1 List.filter_sublist, hs.rising.2⟩, hs.bounds, hs.whole, hs.owned⟩
  · intro q _
    unfold State.peek State.l1At
    rw [hh, h1, h2]

theorem flushUpdate_none (s : State) (c line : Nat) (h : s.updLines = []) : s.flushUpdate c line = s := by
  unfold State.flushUpdate; simp [h, Store.find?]

theorem settle_none (s : State) (line : Nat) (h : s.contrib = []) : s.settle line = s := by
  unfold State.settle; simp [h, Store.get, Store.find?]

/-- An L1 that gives up a line keeps what the others hold, and its own other lines. -/
theorem l1Evict_moves (s : State) (c line : Nat) (hs : Settled s) :
    Moves s (s.l1Evict c line) ∧
    (∀ v, v < 2 ^ 50 → v / 256 ≠ line → (s.l1Evict c line).l1At c v = s.l1At c v) ∧
    (∀ v, v < 2 ^ 50 → v / 256 = line → (s.l1Evict c line).l1At c v = none) := by
  unfold State.l1Evict
  rw [flushUpdate_none _ _ _ hs.updates]
  have hb : ∀ e ∈ s.owners.filter (fun e => e.1 / 256 == line && e.2 == c), e.1 < 2 ^ 50 :=
    fun e he => hs.bounds e (List.mem_filter.mp he).1
  obtain ⟨m, h1, h2, h3⟩ := recall_list_moves _ s hs hb
  generalize hu : (s.owners.filter (fun e => e.1 / 256 == line && e.2 == c)).foldl (fun t e => t.recallWord e.1) s = u at m h1 h2 h3
  simp only [hu]
  have hk : ∀ v, v < 2 ^ 50 → ∀ c', l1Key c' v / 2 ^ 50 = c' ∧ l1Key c' v % 2 ^ 50 = v := by
    intro v hv c'; simp only [l1Key]; omega
  have hl : ∀ c' v, v < 2 ^ 50 → Store.find? (u.l1.filter (fun e => !(e.1 / 2 ^ 50 == c && e.1 % 2 ^ 50 / 256 == line && e.2.reg))) (l1Key c' v)
      = if c' = c ∧ v / 256 = line then none else u.l1At c' v := by
    intro c' v hv
    obtain ⟨k1, k2⟩ := hk v hv c'
    split
    · rename_i h; obtain ⟨rfl, rfl⟩ := h
      cases hf : Store.find? (u.l1.filter (fun e => !(e.1 / 2 ^ 50 == c' && e.1 % 2 ^ 50 / 256 == v / 256 && e.2.reg))) (l1Key c' v) with
      | none => rfl
      | some y =>
        have hm := find_mem _ _ hf
        rw [List.mem_filter] at hm
        have hy : u.l1At c' v = some y := mem_find _ _ m.settled.rising.2.1 hm.1
        have hr := (m.settled.whole c' v y hv hy).2.1
        simp only [k1, k2, hr] at hm
        simp at hm
    · rename_i h
      rw [find_filter_keep]
      · rfl
      · intro y; rw [k1, k2]
        simp only [Bool.not_eq_true', Bool.and_eq_false_iff, beq_eq_false_iff_ne]
        rw [not_and_or] at h
        rcases h with h | h
        · exact .inl (.inl h)
        · exact .inl (.inr h)
  have hno : ∀ v, v < 2 ^ 50 → v / 256 = line → Store.find? u.owners v ≠ some c := by
    intro v hv e ho
    by_cases hm : v ∈ (s.owners.filter (fun e => e.1 / 256 == line && e.2 == c)).map (·.1)
    · rw [h2 v hm] at ho; cases ho
    · rw [(h1 c v hv hm).2] at ho
      exact hm (List.mem_map.mpr ⟨(v, c), List.mem_filter.mpr ⟨find_mem _ _ ho, by simp [e]⟩, rfl⟩)
  refine ⟨⟨?_, ?_, ?_⟩, ?_, ?_⟩
  · have := m.rest; simpa [bare] using this
  · refine ⟨m.settled.contrib, m.settled.updates, ⟨m.settled.rising.1, rising_sub m.settled.rising.2.1 List.filter_sublist, m.settled.rising.2.2⟩,
      m.settled.bounds, ?_, ?_⟩
    · intro c' v y hv hy
      simp only [State.l1At, hl c' v hv] at hy
      split at hy
      · cases hy
      · exact m.settled.whole c' v y hv hy
    · intro c' v hv
      simp only [State.l1At, hl c' v hv]
      split
      · rename_i h; obtain ⟨rfl, e⟩ := h
        simp only [hno v hv e, false_iff]
        rintro ⟨y, hy, _⟩; cases hy
      · exact m.settled.owned c' v hv
  · intro q hq
    rw [← m.view q hq]
    unfold State.peek
    have hwq : wordOf q < 2 ^ 50 := by simp only [wordOf]; omega
    cases ho : Store.find? u.owners (wordOf q) with
    | none => rfl
    | some c' =>
      have := hl c' _ hwq
      rw [if_neg (by rintro ⟨rfl, e⟩; exact hno _ hwq e ho)] at this
      simp only [State.l1At, this]
      rfl
  · intro v hv hn
    simp only [State.l1At, hl c v hv, hn, and_false, if_false]
    refine (h1 c v hv ?_).1
    intro hm
    obtain ⟨e, he, rfl⟩ := List.mem_map.mp hm
    simp [List.mem_filter] at he
    exact hn he.2.1
  · intro v hv hn
    have := hl c v hv
    rw [if_pos ⟨rfl, hn⟩] at this
    exact this

theorem report_rest (s : State) (d : Nat) (b : Bool) (h : s.lag = false) :
    s.report d b = { s with
      domains := (s.report d b).domains, domainOld := (s.report d b).domainOld
      domainCopy := (s.report d b).domainCopy } := by
  unfold State.report; rw [h]; simp [State.judge, State.updDomain, h]

theorem report_moves (s : State) (d : Nat) (b : Bool) (h : s.lag = false) (hs : Settled s) :
    Moves s (s.report d b) ∧ (s.report d b).l1 = s.l1 := by
  rw [report_rest s d b h]
  exact ⟨⟨rfl, settled_same hs rfl rfl rfl rfl rfl, fun _ _ => rfl⟩, rfl⟩

theorem putSet_moves (s : State) (l : CacheLevel) (k : Nat) (w : Store Way) (hs : Settled s) :
    Moves s (s.putSet l k w) ∧ (s.putSet l k w).l1 = s.l1 := by
  cases l <;> exact ⟨⟨rfl, settled_same hs rfl rfl rfl rfl rfl, fun _ _ => rfl⟩, rfl⟩

theorem evict_moves (s : State) (l : CacheLevel) (c : Nat) (w : Way) (hs : Settled s) :
    Moves s (s.evict l c w) ∧ (∀ v, v < 2 ^ 50 → v / 256 ≠ w.line → (s.evict l c w).l1At c v = s.l1At c v) := by
  cases l with
  | l1 => exact ⟨(l1Evict_moves s c w.line hs).1, (l1Evict_moves s c w.line hs).2.1⟩
  | l2 =>
    obtain ⟨m, h, _⟩ := l2Flush_moves s w.line hs
    exact ⟨m, fun v _ _ => by simp only [State.l1At, State.evict]; rw [h]⟩
  | llc => exact ⟨Moves.refl hs, fun _ _ _ => rfl⟩

theorem Moves.lag {s u : State} (m : Moves s u) : u.lag = s.lag := by have h := congrArg State.lag m.rest; exact h

/-- An access ages and fills a level: it keeps every word of its own line that the cache holds. -/
theorem touchLevel_moves (s : State) (l : CacheLevel) (c line dom k : Nat) (hl : s.lag = false) (hs : Settled s) :
    Moves s (s.touchLevel l c line dom k) ∧
    (∀ c' v, (l = .l1 → c' = c) → v < 2 ^ 50 → v / 256 = line → (s.touchLevel l c line dom k).l1At c' v = s.l1At c' v) := by
  unfold State.touchLevel
  simp only
  split
  · rename_i i w hf
    have key : ∀ t : State, Moves s t → t.l1 = s.l1 → ∀ x, Moves s (t.putSet l (setKey l c line) x) ∧
        (∀ c' v, (l = .l1 → c' = c) → v < 2 ^ 50 → v / 256 = line → (t.putSet l (setKey l c line) x).l1At c' v = s.l1At c' v) := by
      intro t m e x
      obtain ⟨m2, e2⟩ := putSet_moves t l (setKey l c line) x m.settled
      exact ⟨m.trans m2, fun c' v _ _ _ => by simp only [State.l1At, e2, e]⟩
    refine key _ ?_ ?_ _
    · split
      · exact (report_moves s _ _ hl hs).1
      · split
        · exact (report_moves s _ _ hl hs).1
        · exact Moves.refl hs
    · split
      · exact (report_moves s _ _ hl hs).2
      · split
        · exact (report_moves s _ _ hl hs).2
        · rfl
  · rename_i hf
    have key : ∀ t : State, Moves s t → (∀ c' v, (l = .l1 → c' = c) → v < 2 ^ 50 → v / 256 = line → t.l1At c' v = s.l1At c' v) →
        ∀ x, Moves s (t.putSet l (setKey l c line) x) ∧
        (∀ c' v, (l = .l1 → c' = c) → v < 2 ^ 50 → v / 256 = line → (t.putSet l (setKey l c line) x).l1At c' v = s.l1At c' v) := by
      intro t m e x
      obtain ⟨m2, e2⟩ := putSet_moves t l (setKey l c line) x m.settled
      exact ⟨m.trans m2, fun c' v a b d => by rw [← e c' v a b d]; simp only [State.l1At, e2]⟩
    refine key _ ?_ ?_ _
    · split
      · rename_i v _
        by_cases hb : s.broken (cacheNo l c line) v = true
        · rw [if_pos hb]
          obtain ⟨m, e⟩ := report_moves s v.dom false hl hs
          exact m.trans (evict_moves _ l c v m.settled).1
        · rw [if_neg hb]; exact (evict_moves s l c v hs).1
      · exact Moves.refl hs
    · split
      · rename_i v hv
        have hne : v.line ≠ line := by
          intro e
          have := find_mem _ _ hv
          have := List.find?_eq_none.mp hf _ this
          simp [e] at this
        intro c' x hc hx hxl
        have ev : ∀ t : State, Settled t → t.l1 = s.l1 → (t.evict l c v).l1At c' x = s.l1At c' x := by
          intro t ht e
          cases l with
          | l1 =>
            have := (evict_moves t .l1 c v ht).2 x hx (by omega)
            rw [hc rfl, this]; simp only [State.l1At, e]
          | l2 =>
            obtain ⟨_, h, _⟩ := l2Flush_moves t v.line ht
            simp only [State.l1At, State.evict]; rw [h, e]
          | llc => simp only [State.l1At, State.evict, e]
        by_cases hb : s.broken (cacheNo l c line) v = true
        · rw [if_pos hb]
          obtain ⟨m, e⟩ := report_moves s v.dom false hl hs
          exact ev _ m.settled e
        · rw [if_neg hb]; exact ev _ hs rfl
      · intro _ _ _ _ _; rfl

/-- The L2 slice and the LLC on the path of an access. -/
theorem touchHome_moves (s : State) (line dom k : Nat) (hl : s.lag = false) (hs : Settled s) :
    Moves s (if s.holdsLine .l2 0 line then s.touchLevel .l2 0 line dom k
      else (s.touchLevel .l2 0 line dom k).touchLevel .llc 0 line dom k) ∧
    (∀ c' v, v < 2 ^ 50 → v / 256 = line → (if s.holdsLine .l2 0 line then s.touchLevel .l2 0 line dom k
      else (s.touchLevel .l2 0 line dom k).touchLevel .llc 0 line dom k).l1At c' v = s.l1At c' v) := by
  obtain ⟨m1, h1⟩ := touchLevel_moves s .l2 0 line dom k hl hs
  obtain ⟨m2, h2⟩ := touchLevel_moves _ .llc 0 line dom k (m1.lag.trans hl) m1.settled
  split
  · exact ⟨m1, fun c' v b d => h1 c' v (by simp) b d⟩
  · exact ⟨m1.trans m2, fun c' v b d => by rw [h2 c' v (by simp) b d, h1 c' v (by simp) b d]⟩

/-- An access with a next-use code passes its caches: nothing reads otherwise, and its own line stays. -/
theorem touch_moves (s : State) (c : Option Nat) (served : Bool) (dom line k : Nat) (hl : s.lag = false) (hs : Settled s) :
    Moves s (s.touch c served dom line k) ∧
    (∀ c' v, (∀ d, c = some d → c' = d) → v < 2 ^ 50 → v / 256 = line →
      (s.touch c served dom line k).l1At c' v = s.l1At c' v) := by
  unfold State.touch
  simp only
  split
  · exact ⟨Moves.refl hs, fun _ _ _ _ _ => rfl⟩
  · cases c with
    | none =>
      simp only
      obtain ⟨m, h⟩ := touchHome_moves s line dom k hl hs
      split
      · exact ⟨Moves.refl hs, fun _ _ _ _ _ => rfl⟩
      · exact ⟨m, fun c' v _ b d => h c' v b d⟩
    | some c =>
      simp only
      obtain ⟨m0, h0⟩ := touchLevel_moves s .l1 c line dom k hl hs
      obtain ⟨m, h⟩ := touchHome_moves _ line dom k (m0.lag.trans hl) m0.settled
      split
      · exact ⟨m0, fun c' v a b d => h0 c' v (fun _ => a c rfl) b d⟩
      · exact ⟨m0.trans m, fun c' v a b d => by rw [h c' v b d, h0 c' v (fun _ => a c rfl) b d]⟩

end Sys2Proof.Laws
end

