-- ==== Sys2Proof/Laws/Exec.lean ====
section
/-! SUPPORT. What dispatch answers for each constructor: the meaning of that instruction. Rewriting with these keeps the
match over all constructors out of a goal. -/

namespace Sys2Proof.Laws

open Sys2Proof.Machine

variable (s : State)

@[simp] theorem exec_nop : exec (.nop) s = execNop s := rfl
@[simp] theorem exec_brk {n} : exec (.brk n) s = execBrk n s := rfl
@[simp] theorem exec_trap {n} : exec (.trap n) s = execTrap n s := rfl
@[simp] theorem exec_sret : exec (.sret) s = execSret s := rfl
@[simp] theorem exec_sys {n} : exec (.sys n) s = execSys n s := rfl
@[simp] theorem exec_rgn {gin lcin} : exec (.rgn gin lcin) s = execRgn gin lcin s := rfl
@[simp] theorem exec_fence : exec (.fence) s = execFence s := rfl
@[simp] theorem exec_fenceAcq : exec (.fenceAcq) s = execFenceAcq s := rfl
@[simp] theorem exec_fenceRel : exec (.fenceRel) s = execFenceRel s := rfl
@[simp] theorem exec_fenceAr : exec (.fenceAr) s = execFenceAr s := rfl
@[simp] theorem exec_xf {c1 c2} : exec (.xf c1 c2) s = execXf c1 c2 s := rfl
@[simp] theorem exec_wait {l src c t} : exec (.wait l src c t) s = execWait l src c t s := rfl
@[simp] theorem exec_susFull {b} : exec (.susFull b) s = execSusFull b s := rfl
@[simp] theorem exec_susEmpty {b} : exec (.susEmpty b) s = execSusEmpty b s := rfl
@[simp] theorem exec_susJoin {b} : exec (.susJoin b) s = execSusJoin b s := rfl
@[simp] theorem exec_fin : exec (.fin) s = execFin s := rfl
@[simp] theorem exec_yld : exec (.yld) s = execYld s := rfl
@[simp] theorem exec_csrr {a n} : exec (.csrr a n) s = execCsrr a n s := rfl
@[simp] theorem exec_csrw {n b} : exec (.csrw n b) s = execCsrw n b s := rfl
@[simp] theorem exec_csrx {a n b} : exec (.csrx a n b) s = execCsrx a n b s := rfl
@[simp] theorem exec_csrs {a n b} : exec (.csrs a n b) s = execCsrs a n b s := rfl
@[simp] theorem exec_csrc {a n b} : exec (.csrc a n b) s = execCsrc a n b s := rfl
@[simp] theorem exec_add {a b c} : exec (.add a b c) s = execAdd a b c s := rfl
@[simp] theorem exec_sub {a b c} : exec (.sub a b c) s = execSub a b c s := rfl
@[simp] theorem exec_mul {a b c} : exec (.mul a b c) s = execMul a b c s := rfl
@[simp] theorem exec_mulh {a b c} : exec (.mulh a b c) s = execMulh a b c s := rfl
@[simp] theorem exec_mulhz {a b c} : exec (.mulhz a b c) s = execMulhz a b c s := rfl
@[simp] theorem exec_div {a b c} : exec (.div a b c) s = execDiv a b c s := rfl
@[simp] theorem exec_divz {a b c} : exec (.divz a b c) s = execDivz a b c s := rfl
@[simp] theorem exec_rem {a b c} : exec (.rem a b c) s = execRem a b c s := rfl
@[simp] theorem exec_remz {a b c} : exec (.remz a b c) s = execRemz a b c s := rfl
@[simp] theorem exec_min {a b c} : exec (.min a b c) s = execMin a b c s := rfl
@[simp] theorem exec_max {a b c} : exec (.max a b c) s = execMax a b c s := rfl
@[simp] theorem exec_minz {a b c} : exec (.minz a b c) s = execMinz a b c s := rfl
@[simp] theorem exec_maxz {a b c} : exec (.maxz a b c) s = execMaxz a b c s := rfl
@[simp] theorem exec_addi {a b imm} : exec (.addi a b imm) s = execAddi a b imm s := rfl
@[simp] theorem exec_and {a b c} : exec (.and a b c) s = execAnd a b c s := rfl
@[simp] theorem exec_or {a b c} : exec (.or a b c) s = execOr a b c s := rfl
@[simp] theorem exec_xor {a b c} : exec (.xor a b c) s = execXor a b c s := rfl
@[simp] theorem exec_andn {a b c} : exec (.andn a b c) s = execAndn a b c s := rfl
@[simp] theorem exec_orn {a b c} : exec (.orn a b c) s = execOrn a b c s := rfl
@[simp] theorem exec_shl {a b c} : exec (.shl a b c) s = execShl a b c s := rfl
@[simp] theorem exec_shr {a b c} : exec (.shr a b c) s = execShr a b c s := rfl
@[simp] theorem exec_sar {a b c} : exec (.sar a b c) s = execSar a b c s := rfl
@[simp] theorem exec_rot {a b c} : exec (.rot a b c) s = execRot a b c s := rfl
@[simp] theorem exec_andi {a b imm} : exec (.andi a b imm) s = execAndi a b imm s := rfl
@[simp] theorem exec_ori {a b imm} : exec (.ori a b imm) s = execOri a b imm s := rfl
@[simp] theorem exec_xori {a b imm} : exec (.xori a b imm) s = execXori a b imm s := rfl
@[simp] theorem exec_andni {a b imm} : exec (.andni a b imm) s = execAndni a b imm s := rfl
@[simp] theorem exec_orni {a b imm} : exec (.orni a b imm) s = execOrni a b imm s := rfl
@[simp] theorem exec_shli {a b k} : exec (.shli a b k) s = execShli a b k s := rfl
@[simp] theorem exec_shri {a b k} : exec (.shri a b k) s = execShri a b k s := rfl
@[simp] theorem exec_sari {a b k} : exec (.sari a b k) s = execSari a b k s := rfl
@[simp] theorem exec_roti {a b k} : exec (.roti a b k) s = execRoti a b k s := rfl
@[simp] theorem exec_clz {a b} : exec (.clz a b) s = execClz a b s := rfl
@[simp] theorem exec_ctz {a b} : exec (.ctz a b) s = execCtz a b s := rfl
@[simp] theorem exec_pop {a b} : exec (.pop a b) s = execPop a b s := rfl
@[simp] theorem exec_sext {ty a b} : exec (.sext ty a b) s = execSext ty a b s := rfl
@[simp] theorem exec_zext {ty a b} : exec (.zext ty a b) s = execZext ty a b s := rfl
@[simp] theorem exec_bswp {ty a b} : exec (.bswp ty a b) s = execBswp ty a b s := rfl
@[simp] theorem exec_bfx {ty a b lo w} : exec (.bfx ty a b lo w) s = execBfx ty a b lo w s := rfl
@[simp] theorem exec_bfi {a b lo w} : exec (.bfi a b lo w) s = execBfi a b lo w s := rfl
@[simp] theorem exec_cmp {cc p b c} : exec (.cmp cc p b c) s = execCmp cc p b c s := rfl
@[simp] theorem exec_cmpi {cc p b imm} : exec (.cmpi cc p b imm) s = execCmpi cc p b imm s := rfl
@[simp] theorem exec_sel {a p c d} : exec (.sel a p c d) s = execSel a p c d s := rfl
@[simp] theorem exec_li {a imm} : exec (.li a imm) s = execLi a imm s := rfl
@[simp] theorem exec_mov {m} : exec (.mov m) s = execMov m s := rfl
@[simp] theorem exec_lea {a base idx off} : exec (.lea a base idx off) s = execLea a base idx off s := rfl
@[simp] theorem exec_pand {a b c} : exec (.pand a b c) s = execPand a b c s := rfl
@[simp] theorem exec_por {a b c} : exec (.por a b c) s = execPor a b c s := rfl
@[simp] theorem exec_pxor {a b c} : exec (.pxor a b c) s = execPxor a b c s := rfl
@[simp] theorem exec_pnot {a b} : exec (.pnot a b) s = execPnot a b s := rfl
@[simp] theorem exec_fadd {ty a b c} : exec (.fadd ty a b c) s = execFadd ty a b c s := rfl
@[simp] theorem exec_fsub {ty a b c} : exec (.fsub ty a b c) s = execFsub ty a b c s := rfl
@[simp] theorem exec_fmul {ty a b c} : exec (.fmul ty a b c) s = execFmul ty a b c s := rfl
@[simp] theorem exec_fdiv {ty a b c} : exec (.fdiv ty a b c) s = execFdiv ty a b c s := rfl
@[simp] theorem exec_fsqrt {ty a b} : exec (.fsqrt ty a b) s = execFsqrt ty a b s := rfl
@[simp] theorem exec_fmin {ty a b c} : exec (.fmin ty a b c) s = execFmin ty a b c s := rfl
@[simp] theorem exec_fmax {ty a b c} : exec (.fmax ty a b c) s = execFmax ty a b c s := rfl
@[simp] theorem exec_fma {ty a b c d} : exec (.fma ty a b c d) s = execFma ty a b c d s := rfl
@[simp] theorem exec_fcmp {cc ty p b c} : exec (.fcmp cc ty p b c) s = execFcmp cc ty p b c s := rfl
@[simp] theorem exec_fcvt {dst src a b} : exec (.fcvt dst src a b) s = execFcvt dst src a b s := rfl
@[simp] theorem exec_br {tgt} : exec (.br tgt) s = execBr tgt s := rfl
@[simp] theorem exec_bri {b} : exec (.bri b) s = execBri b s := rfl
@[simp] theorem exec_call {a tgt} : exec (.call a tgt) s = execCall a tgt s := rfl
@[simp] theorem exec_calli {a b} : exec (.calli a b) s = execCalli a b s := rfl
@[simp] theorem exec_ret {b} : exec (.ret b) s = execRet b s := rfl
@[simp] theorem exec_lp {k b tick tgt} : exec (.lp k b tick tgt) s = execLp k b tick tgt s := rfl
@[simp] theorem exec_lpx {k n tick tgt} : exec (.lpx k n tick tgt) s = execLpx k n tick tgt s := rfl
@[simp] theorem exec_lpr {k b tick tgt} : exec (.lpr k b tick tgt) s = execLpr k b tick tgt s := rfl
@[simp] theorem exec_jt {a b n1} : exec (.jt a b n1) s = execJt a b n1 s := rfl
@[simp] theorem exec_spawn {a b c} : exec (.spawn a b c) s = execSpawn a b c s := rfl
@[simp] theorem exec_spawnt {a b c} : exec (.spawnt a b c) s = execSpawnt a b c s := rfl
@[simp] theorem exec_send {a b c d} : exec (.send a b c d) s = execSend a b c d s := rfl
@[simp] theorem exec_sendv {a b c d n} : exec (.sendv a b c d n) s = execSendv a b c d n s := rfl
@[simp] theorem exec_jinit {b c n} : exec (.jinit b c n) s = execJinit b c n s := rfl
@[simp] theorem exec_arr {b n} : exec (.arr b n) s = execArr b n s := rfl
@[simp] theorem exec_tjoin {a b} : exec (.tjoin a b) s = execTjoin a b s := rfl
@[simp] theorem exec_tleave : exec (.tleave) s = execTleave s := rfl
@[simp] theorem exec_tarr : exec (.tarr) s = execTarr s := rfl
@[simp] theorem exec_twait {a} : exec (.twait a) s = execTwait a s := rfl
@[simp] theorem exec_tinfo {a sel} : exec (.tinfo a sel) s = execTinfo a sel s := rfl
@[simp] theorem exec_enq {a b q} : exec (.enq a b q) s = execEnq a b q s := rfl
@[simp] theorem exec_deq {a b q} : exec (.deq a b q) s = execDeq a b q s := rfl
@[simp] theorem exec_deqw {a q} : exec (.deqw a q) s = execDeqw a q s := rfl
@[simp] theorem exec_qinfo {a q} : exec (.qinfo a q) s = execQinfo a q s := rfl
@[simp] theorem exec_gvt {a b sel} : exec (.gvt a b sel) s = execGvt a b sel s := rfl
@[simp] theorem exec_ld {ty a m} : exec (.ld ty a m) s = execLd ty a m s := rfl
@[simp] theorem exec_ldAcq {ty a m} : exec (.ldAcq ty a m) s = execLdAcq ty a m s := rfl
@[simp] theorem exec_st {ty a m} : exec (.st ty a m) s = execSt ty a m s := rfl
@[simp] theorem exec_stRel {ty a m} : exec (.stRel ty a m) s = execStRel ty a m s := rfl
@[simp] theorem exec_ldc {ty a m} : exec (.ldc ty a m) s = execLdc ty a m s := rfl
@[simp] theorem exec_ldv {ty a m mask} : exec (.ldv ty a m mask) s = execLdv ty a m mask s := rfl
@[simp] theorem exec_stv {ty a m mask} : exec (.stv ty a m mask) s = execStv ty a m mask s := rfl
@[simp] theorem exec_ldvs {ty a m c mask} : exec (.ldvs ty a m c mask) s = execLdvs ty a m c mask s := rfl
@[simp] theorem exec_stvs {ty a m c mask} : exec (.stvs ty a m c mask) s = execStvs ty a m c mask s := rfl
@[simp] theorem exec_ldvx {ty a m c ix64 mask} : exec (.ldvx ty a m c ix64 mask) s = execLdvx ty a m c ix64 mask s := rfl
@[simp] theorem exec_stvx {ty a m c ix64 mask} : exec (.stvx ty a m c ix64 mask) s = execStvx ty a m c ix64 mask s := rfl
@[simp] theorem exec_ldf {ty a m} : exec (.ldf ty a m) s = execLdf ty a m s := rfl
@[simp] theorem exec_ldfe {ty a m} : exec (.ldfe ty a m) s = execLdfe ty a m s := rfl
@[simp] theorem exec_stef {ty a m} : exec (.stef ty a m) s = execStef ty a m s := rfl
@[simp] theorem exec_stff {ty a m} : exec (.stff ty a m) s = execStff ty a m s := rfl
@[simp] theorem exec_pf {m} : exec (.pf m) s = execPf m s := rfl
@[simp] theorem exec_cln {m} : exec (.cln m) s = execCln m s := rfl
@[simp] theorem exec_inv {m} : exec (.inv m) s = execInv m s := rfl
@[simp] theorem exec_amo {op ord ty a m src} : exec (.amo op ord ty a m src) s = execAmo op ord ty a m src s := rfl
@[simp] theorem exec_red {op rel ty a m} : exec (.red op rel ty a m) s = execRed op rel ty a m s := rfl
@[simp] theorem exec_redXs {rel a m src} : exec (.redXs rel a m src) s = execRedXs rel a m src s := rfl
@[simp] theorem exec_redXcvt {rel a m} : exec (.redXcvt rel a m) s = execRedXcvt rel a m s := rfl
@[simp] theorem exec_ldbd {a m} : exec (.ldbd a m) s = execLdbd a m s := rfl
@[simp] theorem exec_stbd {a m} : exec (.stbd a m) s = execStbd a m s := rfl
@[simp] theorem exec_bbar {a m} : exec (.bbar a m) s = execBbar a m s := rfl
@[simp] theorem exec_nutick {n} : exec (.nutick n) s = execNutick n s := rfl
@[simp] theorem exec_nudom {n} : exec (.nudom n) s = execNudom n s := rfl
@[simp] theorem exec_nuq {a b w} : exec (.nuq a b w) s = execNuq a b w s := rfl
@[simp] theorem exec_nurel {a m} : exec (.nurel a m) s = execNurel a m s := rfl
@[simp] theorem exec_abrt : exec (.abrt) s = execAbrt s := rfl
@[simp] theorem exec_abrtRec {a b} : exec (.abrtRec a b) s = execAbrtRec a b s := rfl
@[simp] theorem exec_astat {a sel} : exec (.astat a sel) s = execAstat a sel s := rfl
@[simp] theorem exec_vadd {ty a b c o} : exec (.vadd ty a b c o) s = execVadd ty a b c o s := rfl
@[simp] theorem exec_vsub {ty a b c o} : exec (.vsub ty a b c o) s = execVsub ty a b c o s := rfl
@[simp] theorem exec_vmul {ty a b c o} : exec (.vmul ty a b c o) s = execVmul ty a b c o s := rfl
@[simp] theorem exec_vmin {ty a b c mask} : exec (.vmin ty a b c mask) s = execVmin ty a b c mask s := rfl
@[simp] theorem exec_vmax {ty a b c mask} : exec (.vmax ty a b c mask) s = execVmax ty a b c mask s := rfl
@[simp] theorem exec_vdiv {ty a b c mask rnd} : exec (.vdiv ty a b c mask rnd) s = execVdiv ty a b c mask rnd s := rfl
@[simp] theorem exec_vfma {ty a b c d o} : exec (.vfma ty a b c d o) s = execVfma ty a b c d o s := rfl
@[simp] theorem exec_vsqrt {ty a b mask rnd} : exec (.vsqrt ty a b mask rnd) s = execVsqrt ty a b mask rnd s := rfl
@[simp] theorem exec_vrcp {ty a b mask rnd} : exec (.vrcp ty a b mask rnd) s = execVrcp ty a b mask rnd s := rfl
@[simp] theorem exec_vrsq {ty a b mask rnd} : exec (.vrsq ty a b mask rnd) s = execVrsq ty a b mask rnd s := rfl
@[simp] theorem exec_vexp2 {ty a b mask rnd} : exec (.vexp2 ty a b mask rnd) s = execVexp2 ty a b mask rnd s := rfl
@[simp] theorem exec_vlog2 {ty a b mask rnd} : exec (.vlog2 ty a b mask rnd) s = execVlog2 ty a b mask rnd s := rfl
@[simp] theorem exec_vabs {ty a b mask sat} : exec (.vabs ty a b mask sat) s = execVabs ty a b mask sat s := rfl
@[simp] theorem exec_vneg {ty a b mask sat} : exec (.vneg ty a b mask sat) s = execVneg ty a b mask sat s := rfl
@[simp] theorem exec_vnot {ty a b mask} : exec (.vnot ty a b mask) s = execVnot ty a b mask s := rfl
@[simp] theorem exec_vand {ty a b c mask} : exec (.vand ty a b c mask) s = execVand ty a b c mask s := rfl
@[simp] theorem exec_vor {ty a b c mask} : exec (.vor ty a b c mask) s = execVor ty a b c mask s := rfl
@[simp] theorem exec_vxor {ty a b c mask} : exec (.vxor ty a b c mask) s = execVxor ty a b c mask s := rfl
@[simp] theorem exec_vshl {ty a b k mask} : exec (.vshl ty a b k mask) s = execVshl ty a b k mask s := rfl
@[simp] theorem exec_vshr {ty a b k mask} : exec (.vshr ty a b k mask) s = execVshr ty a b k mask s := rfl
@[simp] theorem exec_vsar {ty a b k mask} : exec (.vsar ty a b k mask) s = execVsar ty a b k mask s := rfl
@[simp] theorem exec_vcmp {cc ty m b c mask} : exec (.vcmp cc ty m b c mask) s = execVcmp cc ty m b c mask s := rfl
@[simp] theorem exec_vsel {ty a m c d} : exec (.vsel ty a m c d) s = execVsel ty a m c d s := rfl
@[simp] theorem exec_vcvt {dst src a b p scale o} : exec (.vcvt dst src a b p scale o) s = execVcvt dst src a b p scale o s := rfl
@[simp] theorem exec_vsat {ty a b n mask} : exec (.vsat ty a b n mask) s = execVsat ty a b n mask s := rfl
@[simp] theorem exec_vpack {ty a b c mask sat} : exec (.vpack ty a b c mask sat) s = execVpack ty a b c mask sat s := rfl
@[simp] theorem exec_vunpk {ty a b p mask} : exec (.vunpk ty a b p mask) s = execVunpk ty a b p mask s := rfl
@[simp] theorem exec_vred {op ty a b mask rnd} : exec (.vred op ty a b mask rnd) s = execVred op ty a b mask rnd s := rfl
@[simp] theorem exec_vscan {op ty a b mask rnd} : exec (.vscan op ty a b mask rnd) s = execVscan op ty a b mask rnd s := rfl
@[simp] theorem exec_vdot {ty a b c mask rnd} : exec (.vdot ty a b c mask rnd) s = execVdot ty a b c mask rnd s := rfl
@[simp] theorem exec_vmacc {ty a b c o} : exec (.vmacc ty a b c o) s = execVmacc ty a b c o s := rfl
@[simp] theorem exec_vperm {ty a b c mask} : exec (.vperm ty a b c mask) s = execVperm ty a b c mask s := rfl
@[simp] theorem exec_vshuf {ty a b c mask} : exec (.vshuf ty a b c mask) s = execVshuf ty a b c mask s := rfl
@[simp] theorem exec_vbcast {ty a b mask} : exec (.vbcast ty a b mask) s = execVbcast ty a b mask s := rfl
@[simp] theorem exec_vext {ty a b n} : exec (.vext ty a b n) s = execVext ty a b n s := rfl
@[simp] theorem exec_vins {ty a b n} : exec (.vins ty a b n) s = execVins ty a b n s := rfl
@[simp] theorem exec_vmov {a b} : exec (.vmov a b) s = execVmov a b s := rfl
@[simp] theorem exec_vcnt {op ty a b mask} : exec (.vcnt op ty a b mask) s = execVcnt op ty a b mask s := rfl
@[simp] theorem exec_mand {ty a b c} : exec (.mand ty a b c) s = execMand ty a b c s := rfl
@[simp] theorem exec_mor {ty a b c} : exec (.mor ty a b c) s = execMor ty a b c s := rfl
@[simp] theorem exec_mnot {ty a b} : exec (.mnot ty a b) s = execMnot ty a b s := rfl
@[simp] theorem exec_mpop {ty a b} : exec (.mpop ty a b) s = execMpop ty a b s := rfl
@[simp] theorem exec_mfirst {ty a b} : exec (.mfirst ty a b) s = execMfirst ty a b s := rfl
@[simp] theorem exec_vblkRd {a b blk} : exec (.vblkRd a b blk) s = execVblkRd a b blk s := rfl
@[simp] theorem exec_vblkWr {a b sel} : exec (.vblkWr a b sel) s = execVblkWr a b sel s := rfl
@[simp] theorem exec_mclr {a} : exec (.mclr a) s = execMclr a s := rfl
@[simp] theorem exec_mldb {u b c d kb sp nu} : exec (.mldb u b c d kb sp nu) s = execMldb u b c d kb sp nu s := rfl
@[simp] theorem exec_mmac {ty a b c u kb} : exec (.mmac ty a b c u kb) s = execMmac ty a b c u kb s := rfl
@[simp] theorem exec_mmacs {ty a b c u kb} : exec (.mmacs ty a b c u kb) s = execMmacs ty a b c u kb s := rfl
@[simp] theorem exec_mrd {a b q c1} : exec (.mrd a b q c1) s = execMrd a b q c1 s := rfl
@[simp] theorem exec_mwr {a b q c1} : exec (.mwr a b q c1) s = execMwr a b q c1 s := rfl
@[simp] theorem exec_mcvt {ty a b q scale sat rnd} : exec (.mcvt ty a b q scale sat rnd) s = execMcvt ty a b q scale sat rnd s := rfl
@[simp] theorem exec_msum {a b c} : exec (.msum a b c) s = execMsum a b c s := rfl
@[simp] theorem exec_mtr {a b c tr} : exec (.mtr a b c tr) s = execMtr a b c tr s := rfl
@[simp] theorem exec_mfree {a} : exec (.mfree a) s = execMfree a s := rfl
@[simp] theorem exec_cp {a b c d dnu snu} : exec (.cp a b c d dnu snu) s = execCp a b c d dnu snu s := rfl
@[simp] theorem exec_cp2d {a b c d rows1 rowq1 dnu snu} : exec (.cp2d a b c d rows1 rowq1 dnu snu) s = execCp2d a b c d rows1 rowq1 dnu snu s := rfl
@[simp] theorem exec_cpl {a b c d dnu} : exec (.cpl a b c d dnu) s = execCpl a b c d dnu s := rfl
@[simp] theorem exec_cpc {a b c d dnu snu} : exec (.cpc a b c d dnu snu) s = execCpc a b c d dnu snu s := rfl
@[simp] theorem exec_cps {a b c d desc dnu snu} : exec (.cps a b c d desc dnu snu) s = execCps a b c d desc dnu snu s := rfl
@[simp] theorem exec_gth {ty a b c d n1 ix64 dnu snu} : exec (.gth ty a b c d n1 ix64 dnu snu) s = execGth ty a b c d n1 ix64 dnu snu s := rfl
@[simp] theorem exec_sct {ty a b c d n1 ix64 dnu snu} : exec (.sct ty a b c d n1 ix64 dnu snu) s = execSct ty a b c d n1 ix64 dnu snu s := rfl
@[simp] theorem exec_cmpx {ty a b c d n1 idx dnu snu} : exec (.cmpx ty a b c d n1 idx dnu snu) s = execCmpx ty a b c d n1 idx dnu snu s := rfl
@[simp] theorem exec_tsubLd {a b c} : exec (.tsubLd a b c) s = execTsubLd a b c s := rfl
@[simp] theorem exec_tsubSt {a b c} : exec (.tsubSt a b c) s = execTsubSt a b c s := rfl
@[simp] theorem exec_trel {b c} : exec (.trel b c) s = execTrel b c s := rfl
@[simp] theorem exec_qbase {b c d} : exec (.qbase b c d) s = execQbase b c d s := rfl
@[simp] theorem exec_qdef {a b c n} : exec (.qdef a b c n) s = execQdef a b c n s := rfl
@[simp] theorem exec_qget {sel a b} : exec (.qget sel a b) s = execQget sel a b s := rfl
@[simp] theorem exec_qset {sel b c} : exec (.qset sel b c) s = execQset sel b c s := rfl
@[simp] theorem exec_qslope {b c d} : exec (.qslope b c d) s = execQslope b c d s := rfl
@[simp] theorem exec_qcross {b} : exec (.qcross b) s = execQcross b s := rfl
@[simp] theorem exec_qdeps {b c d} : exec (.qdeps b c d) s = execQdeps b c d s := rfl
@[simp] theorem exec_qnext {a} : exec (.qnext a) s = execQnext a s := rfl
@[simp] theorem exec_qrun {b c d} : exec (.qrun b c d) s = execQrun b c d s := rfl
@[simp] theorem exec_qstop {a} : exec (.qstop a) s = execQstop a s := rfl
@[simp] theorem exec_qsnap {b c n} : exec (.qsnap b c n) s = execQsnap b c n s := rfl
@[simp] theorem exec_qstat {a sel} : exec (.qstat a sel) s = execQstat a sel s := rfl
@[simp] theorem exec_qstorm {sel b c} : exec (.qstorm sel b c) s = execQstorm sel b c s := rfl
@[simp] theorem exec_pclr : exec (.pclr) s = execPclr s := rfl
@[simp] theorem exec_pcol {a b} : exec (.pcol a b) s = execPcol a b s := rfl
@[simp] theorem exec_pcolAt {a b c} : exec (.pcolAt a b c) s = execPcolAt a b c s := rfl
@[simp] theorem exec_pcolrRd {a b} : exec (.pcolrRd a b) s = execPcolrRd a b s := rfl
@[simp] theorem exec_pcolrFr {a b} : exec (.pcolrFr a b) s = execPcolrFr a b s := rfl
@[simp] theorem exec_pdec {a b} : exec (.pdec a b) s = execPdec a b s := rfl
@[simp] theorem exec_pprop {a} : exec (.pprop a) s = execPprop a s := rfl
@[simp] theorem exec_pbt {a b} : exec (.pbt a b) s = execPbt a b s := rfl
@[simp] theorem exec_prow {a b} : exec (.prow a b) s = execProw a b s := rfl
@[simp] theorem exec_ptrl {a b} : exec (.ptrl a b) s = execPtrl a b s := rfl
@[simp] theorem exec_pconf {a} : exec (.pconf a) s = execPconf a s := rfl
@[simp] theorem exec_plvl {a} : exec (.plvl a) s = execPlvl a s := rfl
@[simp] theorem exec_pset {a b} : exec (.pset a b) s = execPset a b s := rfl
@[simp] theorem exec_pstat {a sel} : exec (.pstat a sel) s = execPstat a sel s := rfl
@[simp] theorem exec_fullEmptySpinExpiry {sid} : exec (.fullEmptySpinExpiry sid) s = execFullEmptySpinExpiry sid s := rfl
@[simp] theorem exec_engineInstructionComplete {sid port} : exec (.engineInstructionComplete sid port) s = execEngineInstructionComplete sid port s := rfl
@[simp] theorem exec_matrixRetire {sid} : exec (.matrixRetire sid) s = execMatrixRetire sid s := rfl
@[simp] theorem exec_copyPieceWrite {k} : exec (.copyPieceWrite k) s = execCopyPieceWrite k s := rfl
@[simp] theorem exec_streamTileDone {k} : exec (.streamTileDone k) s = execStreamTileDone k s := rfl
@[simp] theorem exec_engineTransferFault {k} : exec (.engineTransferFault k) s = execEngineTransferFault k s := rfl
@[simp] theorem exec_engineFaultResolved {k} : exec (.engineFaultResolved k) s = execEngineFaultResolved k s := rfl
@[simp] theorem exec_exactCellArrival {k} : exec (.exactCellArrival k) s = execExactCellArrival k s := rfl
@[simp] theorem exec_storeRegistration {k} : exec (.storeRegistration k) s = execStoreRegistration k s := rfl
@[simp] theorem exec_storeAck {k} : exec (.storeAck k) s = execStoreAck k s := rfl
@[simp] theorem exec_loadRequest {k part} : exec (.loadRequest k part) s = execLoadRequest k part s := rfl
@[simp] theorem exec_loadReturn {k} : exec (.loadReturn k) s = execLoadReturn k s := rfl
@[simp] theorem exec_postedUpdateApplied {k} : exec (.postedUpdateApplied k) s = execPostedUpdateApplied k s := rfl
@[simp] theorem exec_contributorRegistration {k} : exec (.contributorRegistration k) s = execContributorRegistration k s := rfl
@[simp] theorem exec_partialCombine {cache line} : exec (.partialCombine cache line) s = execPartialCombine cache line s := rfl
@[simp] theorem exec_atomicAtHome {k} : exec (.atomicAtHome k) s = execAtomicAtHome k s := rfl
@[simp] theorem exec_joinIncrement {k} : exec (.joinIncrement k) s = execJoinIncrement k s := rfl
@[simp] theorem exec_joinArrival {k} : exec (.joinArrival k) s = execJoinArrival k s := rfl
@[simp] theorem exec_wakeRegistration {k} : exec (.wakeRegistration k) s = execWakeRegistration k s := rfl
@[simp] theorem exec_reuseClockAdvance {k} : exec (.reuseClockAdvance k) s = execReuseClockAdvance k s := rfl
@[simp] theorem exec_honestyReport {k} : exec (.honestyReport k) s = execHonestyReport k s := rfl
@[simp] theorem exec_slotDispatch {sid} : exec (.slotDispatch sid) s = execSlotDispatch sid s := rfl
@[simp] theorem exec_readyQueueAgeing {pkg k} : exec (.readyQueueAgeing pkg k) s = execReadyQueueAgeing pkg k s := rfl
@[simp] theorem exec_recordPlacement {k} : exec (.recordPlacement k) s = execRecordPlacement k s := rfl
@[simp] theorem exec_messageDelivery {k} : exec (.messageDelivery k) s = execMessageDelivery k s := rfl
@[simp] theorem exec_slotPreempt {sid} : exec (.slotPreempt sid) s = execSlotPreempt sid s := rfl
@[simp] theorem exec_crossingRelease {pkg} : exec (.crossingRelease pkg) s = execCrossingRelease pkg s := rfl
@[simp] theorem exec_eventMessageArrival {k} : exec (.eventMessageArrival k) s = execEventMessageArrival k s := rfl
@[simp] theorem exec_larkspurRunEnd {pkg} : exec (.larkspurRunEnd pkg) s = execLarkspurRunEnd pkg s := rfl
@[simp] theorem exec_asterAccept {k} : exec (.asterAccept k) s = execAsterAccept k s := rfl
@[simp] theorem exec_asterCommit {pkg k} : exec (.asterCommit pkg k) s = execAsterCommit pkg k s := rfl
@[simp] theorem exec_conflictAbort {k} : exec (.conflictAbort k) s = execConflictAbort k s := rfl
@[simp] theorem exec_taskRestartReady {pkg k} : exec (.taskRestartReady pkg k) s = execTaskRestartReady pkg k s := rfl
@[simp] theorem exec_irrevocablePromotion {pkg k} : exec (.irrevocablePromotion pkg k) s = execIrrevocablePromotion pkg k s := rfl
@[simp] theorem exec_horizonDieCombine {die} : exec (.horizonDieCombine die) s = execHorizonDieCombine die s := rfl
@[simp] theorem exec_horizonPackageCombine : exec (.horizonPackageCombine) s = execHorizonPackageCombine s := rfl
@[simp] theorem exec_horizonFabricCombine {others} : exec (.horizonFabricCombine others) s = execHorizonFabricCombine others s := rfl
@[simp] theorem exec_softErrorDetected {place corrected} : exec (.softErrorDetected place corrected) s = execSoftErrorDetected place corrected s := rfl
@[simp] theorem exec_patrolScrub {stack corrected uncorrected} : exec (.patrolScrub stack corrected uncorrected) s = execPatrolScrub stack corrected uncorrected s := rfl
@[simp] theorem exec_pageUnmap {launch va} : exec (.pageUnmap launch va) s = execPageUnmap launch va s := rfl
@[simp] theorem exec_pageMigrate {launch va frame} : exec (.pageMigrate launch va frame) s = execPageMigrate launch va frame s := rfl
@[simp] theorem exec_queueDoorbell {q producer} : exec (.queueDoorbell q producer) s = execQueueDoorbell q producer s := rfl
@[simp] theorem exec_queueStart {q} : exec (.queueStart q) s = execQueueStart q s := rfl
@[simp] theorem exec_queueDestroy {q} : exec (.queueDestroy q) s = execQueueDestroy q s := rfl
@[simp] theorem exec_queueReset {q} : exec (.queueReset q) s = execQueueReset q s := rfl
@[simp] theorem exec_launch {q} : exec (.launch q) s = execLaunch q s := rfl
@[simp] theorem exec_launchBegin {id} : exec (.launchBegin id) s = execLaunchBegin id s := rfl
@[simp] theorem exec_seedDispatch {id} : exec (.seedDispatch id) s = execSeedDispatch id s := rfl
@[simp] theorem exec_gangPlacement {id} : exec (.gangPlacement id) s = execGangPlacement id s := rfl
@[simp] theorem exec_gangReservation {id} : exec (.gangReservation id) s = execGangReservation id s := rfl
@[simp] theorem exec_launchEnd {id} : exec (.launchEnd id) s = execLaunchEnd id s := rfl
@[simp] theorem exec_preemptLaunch {q} : exec (.preemptLaunch q) s = execPreemptLaunch q s := rfl
@[simp] theorem exec_copyQuiesceExpiry {core} : exec (.copyQuiesceExpiry core) s = execCopyQuiesceExpiry core s := rfl
@[simp] theorem exec_resumeLaunch {q} : exec (.resumeLaunch q) s = execResumeLaunch q s := rfl
@[simp] theorem exec_endLaunch {q} : exec (.endLaunch q) s = execEndLaunch q s := rfl
@[simp] theorem exec_flushLaunch {q} : exec (.flushLaunch q) s = execFlushLaunch q s := rfl
@[simp] theorem exec_unknownOpcodeCommand {q} : exec (.unknownOpcodeCommand q) s = execUnknownOpcodeCommand q s := rfl
@[simp] theorem exec_ttFire {e} : exec (.ttFire e) s = execTtFire e s := rfl
@[simp] theorem exec_ttEntryEnable {e} : exec (.ttEntryEnable e) s = execTtEntryEnable e s := rfl
@[simp] theorem exec_ttQueuedBegin {e} : exec (.ttQueuedBegin e) s = execTtQueuedBegin e s := rfl
@[simp] theorem exec_managementReset : exec (.managementReset) s = execManagementReset s := rfl
@[simp] theorem exec_clearFailCount : exec (.clearFailCount) s = execClearFailCount s := rfl
@[simp] theorem exec_capWrite {w} : exec (.capWrite w) s = execCapWrite w s := rfl
@[simp] theorem exec_powerInterval {watts hot critical} : exec (.powerInterval watts hot critical) s = execPowerInterval watts hot critical s := rfl
@[simp] theorem exec_moduleReset : exec (.moduleReset) s = execModuleReset s := rfl
@[simp] theorem exec_bootStageComplete {r} : exec (.bootStageComplete r) s = execBootStageComplete r s := rfl
@[simp] theorem exec_bootTimeout : exec (.bootTimeout) s = execBootTimeout s := rfl
@[simp] theorem exec_versionNegotiation {itf lo hi} : exec (.versionNegotiation itf lo hi) s = execVersionNegotiation itf lo hi s := rfl
@[simp] theorem exec_measurementExtend {n d} : exec (.measurementExtend n d) s = execMeasurementExtend n d s := rfl
@[simp] theorem exec_spdmRequest {r} : exec (.spdmRequest r) s = execSpdmRequest r s := rfl
@[simp] theorem exec_ptpLockChange {locked time} : exec (.ptpLockChange locked time) s = execPtpLockChange locked time s := rfl
@[simp] theorem exec_flitReceive {port f} : exec (.flitReceive port f) s = execFlitReceive port f s := rfl
@[simp] theorem exec_linkRetrain {port} : exec (.linkRetrain port) s = execLinkRetrain port s := rfl
@[simp] theorem exec_retrainingEnd {port lanes} : exec (.retrainingEnd port lanes) s = execRetrainingEnd port lanes s := rfl
@[simp] theorem exec_remoteWriteHandover {port} : exec (.remoteWriteHandover port) s = execRemoteWriteHandover port s := rfl
@[simp] theorem exec_traceEnable {port} : exec (.traceEnable port) s = execTraceEnable port s := rfl
@[simp] theorem exec_hostBar2Write {off data} : exec (.hostBar2Write off data) s = execHostBar2Write off data s := rfl
@[simp] theorem exec_hostBar2Read {off n} : exec (.hostBar2Read off n) s = execHostBar2Read off n s := rfl
@[simp] theorem exec_registerWrite {off size value} : exec (.registerWrite off size value) s = execRegisterWrite off size value s := rfl
@[simp] theorem exec_debugInterfaceRequest {r} : exec (.debugInterfaceRequest r) s = execDebugInterfaceRequest r s := rfl

end Sys2Proof.Laws
end

