-- ==== Sys2Proof/Laws/Keeps.lean ====
section
/-! SUPPORT. The canonical form of the memories (log 1) is kept: the rules by which the lemmas of this folder show it for
every operation of the machine, one lemma `<operation>_ok` for each. -/

namespace Sys2Proof.Laws

open Sys2Proof.Machine

/-- The three memories are canonical. -/
def ok3 (m c h : List Host.Cell) : Bool := Memory.wf m && Memory.wf c && Memory.wf h

theorem ok3_of {m c h : List Host.Cell} (hm : Memory.wf m = true) (hc : Memory.wf c = true)
    (hh : Memory.wf h = true) : ok3 m c h = true := by simp [ok3, hm, hc, hh]

/-- The memories of a state. -/
theorem ok3_same {s : State} (h : s.memoryOk = true) : ok3 s.mem s.scr s.hostMem = true := h

section
variable {x0 : List Choice} {x1 : Nat} {x2 : Bool} {x3 : Nat} {x4 : Nat} {x5 : Word} {x6 : Store Slot} {x7 : Store
    Core} {x8 : Store Cluster} {x9 : Store Launch} {x11 : Store Byte} {x12 : Store (BitVec 16)} {x14 : Store
    Bool} {x15 : Store (BitVec 16)} {x16 : Store L1Word} {x17 : Store Nat} {x18 : List Nat} {x19 : Store (List
    Nat)} {x20 : Store (RedOp × Ty)} {x21 : Store Msg} {x22 : Nat} {x23 : List Waiter} {x24 : List Alloc} {x25 :
    List Report} {x26 : Store (List (Nat × Nat × Nat))} {x27 : Store (Store Way)} {x28 : Store (Store Way)} {x29
    : Store (Store Way)} {x30 : Store Domain} {x31 : Store Domain} {x32 : Store Domain} {x33 : Store Copy} {x34
    : Nat} {x35 : Store Stream} {x36 : List Nat} {x37 : Store (Option Key × Option Key)} {x38 : Option Key ×
    Option Key} {x39 : List Packet} {x40 : Store (Nat × Nat × Nat × Nat)} {x41 : Store Queue} {x42 : Nat} {x44 :
    List Nat} {x45 : Word} {x46 : Bool} {x47 : Store TtEntry} {x48 : Store (BitVec 32)} {x49 : Store Nat} {x50 :
    Store Nat} {x51 : Boot} {x52 : Store Port} {x53 : Store Nat} {x54 : List Break} {x55 : List (List Byte)}

/-- What the form says of a state given field by field. -/
theorem ok_mk {m c h : List Host.Cell} :
    (State.mk
    x0 x1 x2 x3 x4 x5 x6 x7 x8 x9 m x11 x12 c x14 x15 x16 x17 x18 x19 x20 x21 x22 x23 x24 x25 x26 x27 x28 x29
    x30 x31 x32 x33 x34 x35 x36 x37 x38 x39 x40 x41 x42 h x44 x45 x46 x47 x48 x49 x50 x51 x52 x53 x54 x55).memoryOk = ok3 m c h := rfl

end

theorem ok_mem {s : State} (h : s.memoryOk = true) : Memory.wf s.mem = true := by
  simp only [State.memoryOk, Bool.and_eq_true] at h; exact h.1.1
theorem ok_scr {s : State} (h : s.memoryOk = true) : Memory.wf s.scr = true := by
  simp only [State.memoryOk, Bool.and_eq_true] at h; exact h.1.2
theorem ok_host {s : State} (h : s.memoryOk = true) : Memory.wf s.hostMem = true := by
  simp only [State.memoryOk, Bool.and_eq_true] at h; exact h.2

/-- A fold of steps that each keep the form. -/
theorem foldl_ok {β : Type} (l : List β) (f : State → β → State) {s : State} (h : s.memoryOk = true)
    (hf : ∀ t e, t.memoryOk = true → (f t e).memoryOk = true) : (l.foldl f s).memoryOk = true := by
  induction l generalizing s with
  | nil => exact h
  | cons e t ih => exact ih (hf s e h)

/-- The same for a fold that carries a state and a value. -/
theorem foldl_pair_ok {β γ : Type} (l : List β) (f : State × γ → β → State × γ) {s : State × γ}
    (h : s.1.memoryOk = true) (hf : ∀ t e, t.1.memoryOk = true → (f t e).1.memoryOk = true) :
    (l.foldl f s).1.memoryOk = true := by
  induction l generalizing s with
  | nil => exact h
  | cons e t ih => exact ih (hf s e h)

theorem foldl_pair_eq_ok {β γ : Type} {l : List β} {f : State × γ → β → State × γ} {s : State × γ} {t : State} {y : γ}
    (e : l.foldl f s = (t, y)) (h : s.1.memoryOk = true)
    (hf : ∀ t e, t.1.memoryOk = true → (f t e).1.memoryOk = true) : t.memoryOk = true := by
  have := foldl_pair_ok l f h hf
  rw [e] at this; exact this

theorem elimState_ok {o : Option State} {s : State} {f : State → State} (h : s.memoryOk = true)
    (hf : ∀ x, o = some x → (f x).memoryOk = true) : (o.elim s f).memoryOk = true := by
  cases o with
  | none => exact h
  | some x => exact hf x rfl
theorem ite_some_ok {c : Prop} [Decidable c] {o : Option State} {b u : State}
    (e : (if c then o else some b) = some u) (h1 : o = some u → u.memoryOk = true)
    (h : b.memoryOk = true) : u.memoryOk = true := by
  split at e
  · exact h1 e
  · cases e; exact h
theorem elim_ok {β : Type} {o : Option β} {s : State} {f : β → State} (h : s.memoryOk = true)
    (hf : ∀ x, (f x).memoryOk = true) : (o.elim s f).memoryOk = true := by
  cases o with
  | none => exact h
  | some x => exact hf x
theorem ite_except_ok {ε γ : Type} {c : Prop} [Decidable c] {e1 : Except ε (State × γ)} {s t : State} {x y : γ}
    (e : (if c then e1 else .ok (s, y)) = .ok (t, x)) (h1 : e1 = .ok (t, x) → t.memoryOk = true)
    (h : s.memoryOk = true) : t.memoryOk = true := by
  split at e
  · exact h1 e
  · cases e; exact h

theorem getD_ok {o : Option State} {s : State} (ho : ∀ t, o = some t → t.memoryOk = true) (h : s.memoryOk = true) :
    (o.getD s).memoryOk = true := by
  cases o with
  | none => exact h
  | some t => exact ho t rfl
theorem map_ok {o : Option State} {f : State → State} {t : State} (e : o.map f = some t)
    (ho : ∀ u, o = some u → (f u).memoryOk = true) : t.memoryOk = true := by
  cases o with
  | none => cases e
  | some u => rw [← Option.some.inj e]; exact ho u rfl
end Sys2Proof.Laws
end

