-- ==== Sys2Proof/Laws/KeepsMemory.lean ====
section
/-! SUPPORT. The canonical form of the memories is kept by every operation of Machine/Mem.lean, Machine/Cache.lean,
Machine/Regs.lean. -/

set_option linter.all false

namespace Sys2Proof.Laws

open Sys2Proof.Machine Sys2Proof.Machine.State

theorem setSlot_ok (s : State) (sid : Nat) (x : Slot) (hs : s.memoryOk = true) :
    (State.setSlot s sid x).memoryOk = true := by
  unfold State.setSlot
  try dsimp only
  repeat' first
    | (with_reducible assumption) | (with_reducible apply ok3_same) | simp only [ok_mk] | (intro _ _ _)
    | (intro _ _) | (intro _) | split

theorem updSlot_ok (s : State) (sid : Nat) (f : Slot → Slot) (hs : s.memoryOk = true) :
    (State.updSlot s sid f).memoryOk = true := by
  unfold State.updSlot
  try dsimp only
  repeat' first
    | (with_reducible assumption) | (with_reducible apply ok3_same) | simp only [ok_mk]
    | with_reducible apply setSlot_ok | (intro _ _ _) | (intro _ _) | (intro _) | split

theorem upd_ok (s : State) (f : Slot → Slot) (hs : s.memoryOk = true) :
    (State.upd s f).memoryOk = true := by
  unfold State.upd
  try dsimp only
  repeat' first
    | (with_reducible assumption) | (with_reducible apply ok3_same) | simp only [ok_mk]
    | with_reducible apply updSlot_ok | (intro _ _ _) | (intro _ _) | (intro _) | split

theorem updCore_ok (s : State) (c : Nat) (f : Core → Core) (hs : s.memoryOk = true) :
    (State.updCore s c f).memoryOk = true := by
  unfold State.updCore
  try dsimp only
  repeat' first
    | (with_reducible assumption) | (with_reducible apply ok3_same) | simp only [ok_mk] | (intro _ _ _)
    | (intro _ _) | (intro _) | split

theorem updCluster_ok (s : State) (pkg : Nat) (f : Cluster → Cluster) (hs : s.memoryOk = true) :
    (State.updCluster s pkg f).memoryOk = true := by
  unfold State.updCluster
  try dsimp only
  repeat' first
    | (with_reducible assumption) | (with_reducible apply ok3_same) | simp only [ok_mk] | (intro _ _ _)
    | (intro _ _) | (intro _) | split

theorem updLaunch_ok (s : State) (id : Nat) (f : Launch → Launch) (hs : s.memoryOk = true) :
    (State.updLaunch s id f).memoryOk = true := by
  unfold State.updLaunch
  try dsimp only
  repeat' first
    | (with_reducible assumption) | (with_reducible apply ok3_same) | simp only [ok_mk] | (intro _ _ _)
    | (intro _ _) | (intro _) | split

theorem l2Write_ok (s : State) (pa : Nat) (b : Byte) (hs : s.memoryOk = true) :
    (State.l2Write s pa b).memoryOk = true := by
  unfold State.l2Write
  try dsimp only
  repeat' first
    | (with_reducible assumption) | (with_reducible apply ok3_same) | simp only [ok_mk] | (intro _ _ _)
    | (intro _ _) | (intro _) | split

theorem l2WriteBytes_ok (s : State) (pa : Nat) (x0 : List Byte) (hs : s.memoryOk = true) :
    (State.l2WriteBytes s pa x0).memoryOk = true := by
  induction x0 generalizing s pa with
  | nil => first | exact hs | (unfold State.l2WriteBytes; exact hs)
  | cons b l ih =>
    unfold State.l2WriteBytes
    try dsimp only
    repeat' first
      | (with_reducible assumption) | (with_reducible apply ok3_same) | simp only [ok_mk]
      | with_reducible apply ih | with_reducible apply l2Write_ok | (intro _ _ _) | (intro _ _) | (intro _)
      | split

theorem recallWord_ok (s : State) (word : Nat) (hs : s.memoryOk = true) :
    (State.recallWord s word).memoryOk = true := by
  unfold State.recallWord
  try dsimp only
  repeat' first
    | (with_reducible assumption) | (with_reducible apply ok3_same) | simp only [ok_mk]
    | with_reducible apply l2WriteBytes_ok | (intro _ _ _) | (intro _ _) | (intro _) | split

theorem recallLine_ok (s : State) (line : Nat) (hs : s.memoryOk = true) :
    (State.recallLine s line).memoryOk = true := by
  unfold State.recallLine
  try dsimp only
  repeat' first
    | (with_reducible assumption) | (with_reducible apply ok3_same) | simp only [ok_mk]
    | with_reducible apply recallWord_ok | (with_reducible apply foldl_ok)
    | refine foldl_pair_eq_ok (by assumption) ?_ ?_ | (with_reducible apply foldl_pair_ok) | dsimp only
    | (intro _ _ _) | (intro _ _) | (intro _) | split

theorem combineAt_ok (s : State) (pa : Nat) (op : RedOp) (ty : Ty) (x : Nat) (hs : s.memoryOk = true) :
    (State.combineAt s pa op ty x).memoryOk = true := by
  unfold State.combineAt
  try dsimp only
  repeat' first
    | (with_reducible assumption) | (with_reducible apply ok3_same) | simp only [ok_mk]
    | with_reducible apply l2WriteBytes_ok | (intro _ _ _) | (intro _ _) | (intro _) | split

theorem combineAll_ok (op : RedOp) (ty : Ty) (x0 : List (Nat × BitVec 32)) (x1 : State) (hx1 : x1.memoryOk = true) :
    (State.combineAll op ty x0 x1).memoryOk = true := by
  revert hx1
  fun_induction State.combineAll op ty x0 x1 <;> intro h
  all_goals first
    | exact h | exact combineAt_ok _ _ _ _ _ h | (rename_i ih; exact ih (combineAt_ok _ _ _ _ _ h))

theorem flushUpdate_ok (s : State) (cache : Nat) (line : Nat) (hs : s.memoryOk = true) :
    (State.flushUpdate s cache line).memoryOk = true := by
  unfold State.flushUpdate
  try dsimp only
  repeat' first
    | (with_reducible assumption) | (with_reducible apply ok3_same) | simp only [ok_mk]
    | with_reducible apply combineAll_ok | with_reducible apply recallLine_ok
    | (with_reducible apply foldl_ok) | refine foldl_pair_eq_ok (by assumption) ?_ ?_
    | (with_reducible apply foldl_pair_ok) | dsimp only | (intro _ _ _) | (intro _ _) | (intro _) | split

theorem settle_ok (s : State) (line : Nat) (hs : s.memoryOk = true) :
    (State.settle s line).memoryOk = true := by
  unfold State.settle
  try dsimp only
  repeat' first
    | (with_reducible assumption) | (with_reducible apply ok3_same) | simp only [ok_mk]
    | with_reducible apply flushUpdate_ok | (with_reducible apply foldl_ok)
    | refine foldl_pair_eq_ok (by assumption) ?_ ?_ | (with_reducible apply foldl_pair_ok) | dsimp only
    | (intro _ _ _) | (intro _ _) | (intro _) | split

theorem registryEntry_ok (s : State) (line : Nat) (hs : s.memoryOk = true) :
    (State.registryEntry s line).memoryOk = true := by
  unfold State.registryEntry
  try dsimp only
  repeat' first
    | (with_reducible assumption) | (with_reducible apply ok3_same) | simp only [ok_mk]
    | with_reducible apply recallLine_ok | (intro _ _ _) | (intro _ _) | (intro _) | split

theorem registerWord_ok (s : State) (cache : Nat) (word : Nat) (hs : s.memoryOk = true) :
    (State.registerWord s cache word).memoryOk = true := by
  unfold State.registerWord
  try dsimp only
  repeat' first
    | (with_reducible assumption) | (with_reducible apply ok3_same) | simp only [ok_mk]
    | with_reducible apply recallWord_ok | with_reducible apply registryEntry_ok
    | with_reducible apply settle_ok | (intro _ _ _) | (intro _ _) | (intro _) | split

theorem l1StoreByte_ok (s : State) (cache : Nat) (pa : Nat) (b : Byte) (hs : s.memoryOk = true) :
    (State.l1StoreByte s cache pa b).memoryOk = true := by
  unfold State.l1StoreByte
  try dsimp only
  repeat' first
    | (with_reducible assumption) | (with_reducible apply ok3_same) | simp only [ok_mk] | (intro _ _ _)
    | (intro _ _) | (intro _) | split

theorem l1Store_ok (s : State) (cache : Nat) (pa : Nat) (x0 : List Byte) (hs : s.memoryOk = true) :
    (State.l1Store s cache pa x0).memoryOk = true := by
  induction x0 generalizing s cache pa with
  | nil => first | exact hs | (unfold State.l1Store; exact hs)
  | cons b l ih =>
    unfold State.l1Store
    try dsimp only
    repeat' first
      | (with_reducible assumption) | (with_reducible apply ok3_same) | simp only [ok_mk]
      | with_reducible apply ih | with_reducible apply flushUpdate_ok | with_reducible apply l1StoreByte_ok
      | (intro _ _ _) | (intro _ _) | (intro _) | split

theorem registerAll_ok (s : State) (cache : Nat) (words : List Nat) (hs : s.memoryOk = true) :
    (State.registerAll s cache words).memoryOk = true := by
  unfold State.registerAll
  try dsimp only
  repeat' first
    | (with_reducible assumption) | (with_reducible apply ok3_same) | simp only [ok_mk]
    | with_reducible apply registerWord_ok | (with_reducible apply foldl_ok)
    | refine foldl_pair_eq_ok (by assumption) ?_ ?_ | (with_reducible apply foldl_pair_ok) | dsimp only
    | (intro _ _ _) | (intro _ _) | (intro _) | split

theorem storeNow_ok (s : State) (cache : Nat) (pa : Nat) (bs : List Byte) (hs : s.memoryOk = true) :
    (State.storeNow s cache pa bs).memoryOk = true := by
  unfold State.storeNow
  try dsimp only
  repeat' first
    | (with_reducible assumption) | (with_reducible apply ok3_same) | simp only [ok_mk]
    | with_reducible apply l1Store_ok | with_reducible apply registerAll_ok | (intro _ _ _) | (intro _ _)
    | (intro _) | split

theorem installWord_ok (s : State) (cache : Nat) (w : Nat) (hs : s.memoryOk = true) :
    (State.installWord s cache w).memoryOk = true := by
  unfold State.installWord
  try dsimp only
  repeat' first
    | (with_reducible assumption) | (with_reducible apply ok3_same) | simp only [ok_mk] | (intro _ _ _)
    | (intro _ _) | (intro _) | split

theorem installSector_ok (s : State) (cache : Nat) (word : Nat) (hs : s.memoryOk = true) :
    (State.installSector s cache word).memoryOk = true := by
  unfold State.installSector
  try dsimp only
  repeat' first
    | (with_reducible assumption) | (with_reducible apply ok3_same) | simp only [ok_mk]
    | with_reducible apply installWord_ok | with_reducible apply settle_ok | (with_reducible apply foldl_ok)
    | refine foldl_pair_eq_ok (by assumption) ?_ ?_ | (with_reducible apply foldl_pair_ok) | dsimp only
    | (intro _ _ _) | (intro _ _) | (intro _) | split

theorem loadWords_ok (s : State) (cache : Nat) (words : List Nat) (hs : s.memoryOk = true) :
    (State.loadWords s cache words).memoryOk = true := by
  unfold State.loadWords
  try dsimp only
  repeat' first
    | (with_reducible assumption) | (with_reducible apply ok3_same) | simp only [ok_mk]
    | with_reducible apply flushUpdate_ok | with_reducible apply installSector_ok
    | (with_reducible apply foldl_ok) | refine foldl_pair_eq_ok (by assumption) ?_ ?_
    | (with_reducible apply foldl_pair_ok) | dsimp only | (intro _ _ _) | (intro _ _) | (intro _) | split

theorem selfInvalidate_ok (s : State) (cache : Nat) (hs : s.memoryOk = true) :
    (State.selfInvalidate s cache).memoryOk = true := by
  unfold State.selfInvalidate
  try dsimp only
  repeat' first
    | (with_reducible assumption) | (with_reducible apply ok3_same) | simp only [ok_mk] | (intro _ _ _)
    | (intro _ _) | (intro _) | split

theorem writeHome_ok (s : State) (pa : Nat) (x0 : List Byte) (hs : s.memoryOk = true) :
    (State.writeHome s pa x0).memoryOk = true := by
  induction x0 generalizing s pa with
  | nil => first | exact hs | (unfold State.writeHome; exact hs)
  | cons b l ih =>
    unfold State.writeHome
    try dsimp only
    repeat' first
      | (with_reducible assumption) | (with_reducible apply ok3_same) | simp only [ok_mk]
      | with_reducible apply ih | with_reducible apply l2Write_ok | with_reducible apply recallWord_ok
      | with_reducible apply settle_ok | (intro _ _ _) | (intro _ _) | (intro _) | split

theorem settleRange_ok (s : State) (pa : Nat) (n : Nat) (hs : s.memoryOk = true) :
    (State.settleRange s pa n).memoryOk = true := by
  unfold State.settleRange
  try dsimp only
  repeat' first
    | (with_reducible assumption) | (with_reducible apply ok3_same) | simp only [ok_mk]
    | with_reducible apply settle_ok | (with_reducible apply foldl_ok)
    | refine foldl_pair_eq_ok (by assumption) ?_ ?_ | (with_reducible apply foldl_pair_ok) | dsimp only
    | (intro _ _ _) | (intro _ _) | (intro _) | split

theorem scrWrite_ok (s : State) (c : Nat) (o : Nat) (x0 : List Byte) (hs : s.memoryOk = true) :
    (State.scrWrite s c o x0).memoryOk = true := by
  induction x0 generalizing s c o with
  | nil => first | exact hs | (unfold State.scrWrite; exact hs)
  | cons b l ih =>
    unfold State.scrWrite
    try dsimp only
    repeat' first
      | (with_reducible assumption) | (with_reducible apply ok3_same) | simp only [ok_mk]
      | with_reducible apply ih | with_reducible refine ok3_of ?_ ?_ ?_ | with_reducible apply ok_mem
      | with_reducible apply ok_scr | with_reducible apply ok_host | with_reducible apply write_wf
      | with_reducible apply foldl_write_wf | with_reducible apply filter_wf | (intro _ _ _) | (intro _ _)
      | (intro _) | split

theorem setDesc_ok (s : State) (l : Loc) (d : BitVec 16) (hs : s.memoryOk = true) :
    (State.setDesc s l d).memoryOk = true := by
  unfold State.setDesc
  try dsimp only
  repeat' first
    | (with_reducible assumption) | (with_reducible apply ok3_same) | simp only [ok_mk] | (intro _ _ _)
    | (intro _ _) | (intro _) | split

theorem setTag_ok (s : State) (c : Nat) (o : Nat) (full : Bool) (hs : s.memoryOk = true) :
    (State.setTag s c o full).memoryOk = true := by
  unfold State.setTag
  try dsimp only
  repeat' first
    | (with_reducible assumption) | (with_reducible apply ok3_same) | simp only [ok_mk] | (intro _ _ _)
    | (intro _ _) | (intro _) | split

theorem writeLoc_ok (s : State) (l : Loc) (bs : List Byte) (hs : s.memoryOk = true) :
    (State.writeLoc s l bs).memoryOk = true := by
  unfold State.writeLoc
  try dsimp only
  repeat' first
    | (with_reducible assumption) | (with_reducible apply ok3_same) | simp only [ok_mk]
    | with_reducible apply scrWrite_ok | with_reducible apply writeHome_ok | (intro _ _ _) | (intro _ _)
    | (intro _) | split

theorem tlbFill_ok (s : State) (core : Nat) (launch : Nat) (va : Word) (hs : s.memoryOk = true) :
    (State.tlbFill s core launch va).memoryOk = true := by
  unfold State.tlbFill
  try dsimp only
  repeat' first
    | (with_reducible assumption) | (with_reducible apply ok3_same) | simp only [ok_mk]
    | with_reducible apply updCore_ok | with_reducible apply updCluster_ok | (with_reducible apply foldl_ok)
    | refine foldl_pair_eq_ok (by assumption) ?_ ?_ | (with_reducible apply foldl_pair_ok) | dsimp only
    | (intro _ _ _) | (intro _ _) | (intro _) | split

theorem readAhead_ok (s : State) (sid : Nat) (p : Path) (l : Loc) (n : Nat) (hs : s.memoryOk = true) :
    (State.readAhead s sid p l n).memoryOk = true := by
  unfold State.readAhead
  try dsimp only
  repeat' first
    | (with_reducible assumption) | (with_reducible apply ok3_same) | simp only [ok_mk]
    | with_reducible apply settleRange_ok | with_reducible apply updSlot_ok | (intro _ _ _) | (intro _ _)
    | (intro _) | split

theorem dropAhead_ok (s : State) (sid : Nat) (p : Path) (l : Loc) (n : Nat) (hs : s.memoryOk = true) :
    (State.dropAhead s sid p l n).memoryOk = true := by
  unfold State.dropAhead
  try dsimp only
  repeat' first
    | (with_reducible assumption) | (with_reducible apply ok3_same) | simp only [ok_mk]
    | with_reducible apply updSlot_ok | (intro _ _ _) | (intro _ _) | (intro _) | split

theorem forgetAhead_ok (s : State) (sid : Nat) (a : Path) (b : Path) (hs : s.memoryOk = true) :
    (State.forgetAhead s sid a b).memoryOk = true := by
  unfold State.forgetAhead
  try dsimp only
  repeat' first
    | (with_reducible assumption) | (with_reducible apply ok3_same) | simp only [ok_mk]
    | with_reducible apply updSlot_ok | (intro _ _ _) | (intro _ _) | (intro _) | split

theorem updDomain_ok (s : State) (d : Nat) (f : Domain → Domain) (hs : s.memoryOk = true) :
    (State.updDomain s d f).memoryOk = true := by
  unfold State.updDomain
  try dsimp only
  repeat' first
    | (with_reducible assumption) | (with_reducible apply ok3_same) | simp only [ok_mk] | (intro _ _ _)
    | (intro _ _) | (intro _) | split

theorem copyDomain_ok (s : State) (cache : Nat) (d : Nat) (hs : s.memoryOk = true) :
    (State.copyDomain s cache d).memoryOk = true := by
  unfold State.copyDomain
  try dsimp only
  repeat' first
    | (with_reducible assumption) | (with_reducible apply ok3_same) | simp only [ok_mk] | (intro _ _ _)
    | (intro _ _) | (intro _) | split

theorem updPort_ok (s : State) (p : Nat) (f : Port → Port) (hs : s.memoryOk = true) :
    (State.updPort s p f).memoryOk = true := by
  unfold State.updPort
  try dsimp only
  repeat' first
    | (with_reducible assumption) | (with_reducible apply ok3_same) | simp only [ok_mk] | (intro _ _ _)
    | (intro _ _) | (intro _) | split

theorem sendFlit_ok (s : State) (p : Nat) (k : Nat) (hs : s.memoryOk = true) :
    (State.sendFlit s p k).memoryOk = true := by
  unfold State.sendFlit
  try dsimp only
  repeat' first
    | (with_reducible assumption) | (with_reducible apply ok3_same) | simp only [ok_mk]
    | with_reducible apply updPort_ok | (intro _ _ _) | (intro _ _) | (intro _) | split

theorem enqueue_ok (s : State) (m : Msg) (hs : s.memoryOk = true) :
    (State.enqueue s m).memoryOk = true := by
  unfold State.enqueue
  try dsimp only
  repeat' first
    | (with_reducible assumption) | (with_reducible apply ok3_same) | simp only [ok_mk]
    | with_reducible apply sendFlit_ok | (intro _ _ _) | (intro _ _) | (intro _) | split

theorem judge_ok (s : State) (dom : Nat) (up : Bool) (hs : s.memoryOk = true) :
    (State.judge s dom up).memoryOk = true := by
  unfold State.judge
  try dsimp only
  repeat' first
    | (with_reducible assumption) | (with_reducible apply ok3_same) | simp only [ok_mk]
    | with_reducible apply updDomain_ok | (intro _ _ _) | (intro _ _) | (intro _) | split

theorem report_ok (s : State) (dom : Nat) (up : Bool) (hs : s.memoryOk = true) :
    (State.report s dom up).memoryOk = true := by
  unfold State.report
  try dsimp only
  repeat' first
    | (with_reducible assumption) | (with_reducible apply ok3_same) | simp only [ok_mk]
    | with_reducible apply enqueue_ok | with_reducible apply judge_ok | (intro _ _ _) | (intro _ _)
    | (intro _) | split

theorem putSet_ok (s : State) (l : CacheLevel) (k : Nat) (w : Store Way) (hs : s.memoryOk = true) :
    (State.putSet s l k w).memoryOk = true := by
  unfold State.putSet
  try dsimp only
  repeat' first
    | (with_reducible assumption) | (with_reducible apply ok3_same) | simp only [ok_mk] | (intro _ _ _)
    | (intro _ _) | (intro _) | split

theorem llcDirty_ok (s : State) (line : Nat) (hs : s.memoryOk = true) :
    (State.llcDirty s line).memoryOk = true := by
  unfold State.llcDirty
  try dsimp only
  repeat' first
    | (with_reducible assumption) | (with_reducible apply ok3_same) | simp only [ok_mk] | (intro _ _ _)
    | (intro _ _) | (intro _) | split

theorem l2Flush_ok (s : State) (line : Nat) (hs : s.memoryOk = true) :
    (State.l2Flush s line).memoryOk = true := by
  unfold State.l2Flush
  try dsimp only
  repeat' first
    | (with_reducible assumption) | (with_reducible apply ok3_same) | simp only [ok_mk]
    | with_reducible apply llcDirty_ok | (with_reducible apply foldl_ok)
    | refine foldl_pair_eq_ok (by assumption) ?_ ?_ | (with_reducible apply foldl_pair_ok) | dsimp only
    | with_reducible refine ok3_of ?_ ?_ ?_ | with_reducible apply ok_mem | with_reducible apply ok_scr
    | with_reducible apply ok_host | with_reducible apply write_wf | with_reducible apply foldl_write_wf
    | with_reducible apply filter_wf | (intro _ _ _) | (intro _ _) | (intro _) | split

theorem l1Evict_ok (s : State) (cache : Nat) (line : Nat) (hs : s.memoryOk = true) :
    (State.l1Evict s cache line).memoryOk = true := by
  unfold State.l1Evict
  try dsimp only
  repeat' first
    | (with_reducible assumption) | (with_reducible apply ok3_same) | simp only [ok_mk]
    | with_reducible apply flushUpdate_ok | with_reducible apply recallWord_ok
    | (with_reducible apply foldl_ok) | refine foldl_pair_eq_ok (by assumption) ?_ ?_
    | (with_reducible apply foldl_pair_ok) | dsimp only | (intro _ _ _) | (intro _ _) | (intro _) | split

theorem evict_ok (s : State) (l : CacheLevel) (cache : Nat) (w : Way) (hs : s.memoryOk = true) :
    (State.evict s l cache w).memoryOk = true := by
  unfold State.evict
  try dsimp only
  repeat' first
    | (with_reducible assumption) | (with_reducible apply ok3_same) | simp only [ok_mk]
    | with_reducible apply l1Evict_ok | with_reducible apply l2Flush_ok | (intro _ _ _) | (intro _ _)
    | (intro _) | split

theorem touchLevel_ok (s : State) (l : CacheLevel) (cache : Nat) (line : Nat) (dom : Nat) (k : Nat) (hs
    : s.memoryOk = true) :
    (State.touchLevel s l cache line dom k).memoryOk = true := by
  unfold State.touchLevel
  try dsimp only
  repeat' first
    | (with_reducible assumption) | (with_reducible apply ok3_same) | simp only [ok_mk]
    | with_reducible apply evict_ok | with_reducible apply putSet_ok | with_reducible apply report_ok
    | (intro _ _ _) | (intro _ _) | (intro _) | split

theorem touch_ok (s : State) (l1 : Option Nat) (served : Bool) (dom : Nat) (line : Nat) (k : Nat) (hs
    : s.memoryOk = true) :
    (State.touch s l1 served dom line k).memoryOk = true := by
  unfold State.touch
  try dsimp only
  repeat' first
    | (with_reducible assumption) | (with_reducible apply ok3_same) | simp only [ok_mk]
    | with_reducible apply touchLevel_ok | (intro _ _ _) | (intro _ _) | (intro _) | split

theorem passCaches_ok (s : State) (l1 : Option Nat) (dom : Nat) (k : Nat) (rs : List (Nat × Nat)) (served
    : Nat → Nat → Bool) (hs : s.memoryOk = true) :
    (State.passCaches s l1 dom k rs served).memoryOk = true := by
  unfold State.passCaches
  try dsimp only
  repeat' first
    | (with_reducible assumption) | (with_reducible apply ok3_same) | simp only [ok_mk]
    | with_reducible apply touch_ok | (with_reducible apply foldl_ok)
    | refine foldl_pair_eq_ok (by assumption) ?_ ?_ | (with_reducible apply foldl_pair_ok) | dsimp only
    | (intro _ _ _) | (intro _ _) | (intro _) | split

theorem release_ok (s : State) (line : Nat) (dom : Nat) (k : Nat) (hs : s.memoryOk = true) :
    (State.release s line dom k).memoryOk = true := by
  unfold State.release
  try dsimp only
  repeat' first
    | (with_reducible assumption) | (with_reducible apply ok3_same) | simp only [ok_mk] | (intro _ _ _)
    | (intro _ _) | (intro _) | split

theorem unpin_ok (s : State) (p : Way → Bool) (hs : s.memoryOk = true) :
    (State.unpin s p).memoryOk = true := by
  unfold State.unpin
  try dsimp only
  repeat' first
    | (with_reducible assumption) | (with_reducible apply ok3_same) | simp only [ok_mk] | (intro _ _ _)
    | (intro _ _) | (intro _) | split

theorem clockAdd_ok (s : State) (dom : Nat) (n : Nat) (hs : s.memoryOk = true) :
    (State.clockAdd s dom n).memoryOk = true := by
  unfold State.clockAdd
  try dsimp only
  repeat' first
    | (with_reducible assumption) | (with_reducible apply ok3_same) | simp only [ok_mk]
    | with_reducible apply updDomain_ok | (intro _ _ _) | (intro _ _) | (intro _) | split

theorem postClock_ok (s : State) (sid : Nat) (n : Nat) (hs : s.memoryOk = true) :
    (State.postClock s sid n).memoryOk = true := by
  unfold State.postClock
  try dsimp only
  repeat' first
    | (with_reducible assumption) | (with_reducible apply ok3_same) | simp only [ok_mk]
    | with_reducible apply clockAdd_ok | with_reducible apply enqueue_ok | (intro _ _ _) | (intro _ _)
    | (intro _) | split

theorem setQuota_ok (s : State) (dom : Nat) (w : Word) (hs : s.memoryOk = true) :
    (State.setQuota s dom w).memoryOk = true := by
  unfold State.setQuota
  try dsimp only
  repeat' first
    | (with_reducible assumption) | (with_reducible apply ok3_same) | simp only [ok_mk]
    | with_reducible apply updDomain_ok | (intro _ _ _) | (intro _ _) | (intro _) | split

theorem setG_ok (s : State) (n : Nat) (x : Word) (hs : s.memoryOk = true) :
    (State.setG s n x).memoryOk = true := by
  unfold State.setG
  try dsimp only
  repeat' first
    | (with_reducible assumption) | (with_reducible apply ok3_same) | simp only [ok_mk]
    | with_reducible apply upd_ok | (intro _ _ _) | (intro _ _) | (intro _) | split

theorem setP_ok (s : State) (n : Nat) (b : Bool) (hs : s.memoryOk = true) :
    (State.setP s n b).memoryOk = true := by
  unfold State.setP
  try dsimp only
  repeat' first
    | (with_reducible assumption) | (with_reducible apply ok3_same) | simp only [ok_mk]
    | with_reducible apply upd_ok | (intro _ _ _) | (intro _ _) | (intro _) | split

theorem orFlags_ok (s : State) (f : BitVec 5) (hs : s.memoryOk = true) :
    (State.orFlags s f).memoryOk = true := by
  unfold State.orFlags
  try dsimp only
  repeat' first
    | (with_reducible assumption) | (with_reducible apply ok3_same) | simp only [ok_mk]
    | with_reducible apply upd_ok | (intro _ _ _) | (intro _ _) | (intro _) | split

theorem deferAt_ok (s : State) (sid : Nat) (tval : Word) (addr : Word) (hs : s.memoryOk = true) :
    (State.deferAt s sid tval addr).memoryOk = true := by
  unfold State.deferAt
  try dsimp only
  repeat' first
    | (with_reducible assumption) | (with_reducible apply ok3_same) | simp only [ok_mk]
    | with_reducible apply updSlot_ok | (intro _ _ _) | (intro _ _) | (intro _) | split

end Sys2Proof.Laws
end

