-- ==== Sys2Proof/Laws/KeepsTasks.lean ====
section
/-! SUPPORT. The canonical form of the memories is kept by every operation of Machine/Tasks.lean,
Machine/Aster.lean, Machine/Release.lean, Machine/Ops.lean. -/

set_option linter.all false

namespace Sys2Proof.Laws

open Sys2Proof.Machine Sys2Proof.Machine.State

theorem writeRecord_ok {s : State} {core : Nat} {r : RecId} {h : Head} {vals : List Word} {nx : State} (e
    : State.writeRecord s core r h vals = some nx) (hs : s.memoryOk = true) :
    nx.memoryOk = true := by
  unfold State.writeRecord at e
  try dsimp only at e
  repeat' first
    | (with_reducible assumption) | (with_reducible injection e with e; subst e)
    | (with_reducible injection e; done) | (with_reducible apply ok3_same) | simp only [ok_mk]
    | with_reducible apply updCluster_ok | with_reducible apply writeHome_ok | (intro _ _ _) | (intro _ _)
    | (intro _) | split at e | split

theorem tell_ok (s : State) (r : Report) (hs : s.memoryOk = true) :
    (State.tell s r).memoryOk = true := by
  unfold State.tell
  try dsimp only
  repeat' first
    | (with_reducible assumption) | (with_reducible apply ok3_same) | simp only [ok_mk] | (intro _ _ _)
    | (intro _ _) | (intro _) | split

theorem noteMalformed_ok (s : State) (core : Nat) (launch : Nat) (va : Word) (hs : s.memoryOk = true) :
    (State.noteMalformed s core launch va).memoryOk = true := by
  unfold State.noteMalformed
  try dsimp only
  repeat' first
    | (with_reducible assumption) | (with_reducible apply ok3_same) | simp only [ok_mk]
    | with_reducible apply tell_ok | (intro _ _ _) | (intro _ _) | (intro _) | split

theorem failedWalk_ok (s : State) (core : Nat) (launch : Nat) (va : Word) (hs : s.memoryOk = true) :
    (State.failedWalk s core launch va).memoryOk = true := by
  unfold State.failedWalk
  try dsimp only
  repeat' first
    | (with_reducible assumption) | (with_reducible apply ok3_same) | simp only [ok_mk]
    | with_reducible apply noteMalformed_ok | with_reducible apply tlbFill_ok | (intro _ _ _) | (intro _ _)
    | (intro _) | split

theorem failedRecord_ok (s : State) (core : Nat) (r : RecId) (hs : s.memoryOk = true) :
    (State.failedRecord s core r).memoryOk = true := by
  unfold State.failedRecord
  try dsimp only
  repeat' first
    | (with_reducible assumption) | (with_reducible apply ok3_same) | simp only [ok_mk]
    | with_reducible apply failedWalk_ok | (with_reducible apply foldl_ok)
    | refine foldl_pair_eq_ok (by assumption) ?_ ?_ | (with_reducible apply foldl_pair_ok) | dsimp only
    | (intro _ _ _) | (intro _ _) | (intro _) | split

theorem lostRecord_ok (s : State) (core : Nat) (r : RecId) (sid : Nat) (hs : s.memoryOk = true) :
    (State.lostRecord s core r sid).memoryOk = true := by
  unfold State.lostRecord
  try dsimp only
  repeat' first
    | (with_reducible assumption) | (with_reducible apply ok3_same) | simp only [ok_mk]
    | with_reducible apply failedRecord_ok | with_reducible apply tell_ok | (intro _ _ _) | (intro _ _)
    | (intro _) | split

theorem hold_ok (s : State) (sid : Nat) (r : Report) (hs : s.memoryOk = true) :
    (State.hold s sid r).memoryOk = true := by
  unfold State.hold
  try dsimp only
  repeat' first
    | (with_reducible assumption) | (with_reducible apply ok3_same) | simp only [ok_mk]
    | with_reducible apply updSlot_ok | with_reducible apply tell_ok | (intro _ _ _) | (intro _ _) | (intro _)
    | split

theorem holdRecord_ok (s : State) (sid : Nat) (r : RecId) (hs : s.memoryOk = true) :
    (State.holdRecord s sid r).memoryOk = true := by
  unfold State.holdRecord
  try dsimp only
  repeat' first
    | (with_reducible assumption) | (with_reducible apply ok3_same) | simp only [ok_mk]
    | with_reducible apply failedRecord_ok | with_reducible apply hold_ok | (intro _ _ _) | (intro _ _)
    | (intro _) | split

theorem releaseSlot_ok (s : State) (sid : Nat) (hs : s.memoryOk = true) :
    (State.releaseSlot s sid).memoryOk = true := by
  unfold State.releaseSlot
  try dsimp only
  repeat' first
    | (with_reducible assumption) | (with_reducible apply ok3_same) | simp only [ok_mk]
    | with_reducible apply updSlot_ok | (intro _ _ _) | (intro _ _) | (intro _) | split

theorem dropSlot_ok (s : State) (sid : Nat) (hs : s.memoryOk = true) :
    (State.dropSlot s sid).memoryOk = true := by
  unfold State.dropSlot
  try dsimp only
  repeat' first
    | (with_reducible assumption) | (with_reducible apply ok3_same) | simp only [ok_mk]
    | with_reducible apply releaseSlot_ok | with_reducible apply updSlot_ok | (intro _ _ _) | (intro _ _)
    | (intro _) | split

theorem writeCont_ok {s : State} {sid : Nat} {h : Head} {vals : List Word} {nx : State} {nv : Bool} (e
    : State.writeCont s sid h vals = (nx, nv)) (hs : s.memoryOk = true) :
    nx.memoryOk = true := by
  unfold State.writeCont at e
  try dsimp only at e
  repeat' first
    | (with_reducible assumption) | (with_reducible injection e with e e2; subst e)
    | (with_reducible apply ok3_same) | simp only [ok_mk] | with_reducible apply holdRecord_ok
    | refine writeRecord_ok (by assumption) ?_ | (intro _ _ _) | (intro _ _) | (intro _) | split at e | split

theorem enterReady_ok (s : State) (pkg : Nat) (r : RecId) (h : Head) (resumed : Bool) (hs : s.memoryOk = true) :
    (State.enterReady s pkg r h resumed).memoryOk = true := by
  unfold State.enterReady
  try dsimp only
  repeat' first
    | (with_reducible assumption) | (with_reducible apply ok3_same) | simp only [ok_mk]
    | with_reducible apply updCluster_ok | (intro _ _ _) | (intro _ _) | (intro _) | split

theorem makeReady_ok (s : State) (w : Waiter) (hs : s.memoryOk = true) :
    (State.makeReady s w).memoryOk = true := by
  unfold State.makeReady
  try dsimp only
  repeat' first
    | (with_reducible assumption) | (with_reducible apply ok3_same) | simp only [ok_mk]
    | with_reducible apply enterReady_ok | with_reducible apply failedRecord_ok
    | refine writeRecord_ok (by assumption) ?_ | (intro _ _ _) | (intro _ _) | (intro _) | split

theorem wake_ok (s : State) (p : Waiter → Bool) (hs : s.memoryOk = true) :
    (State.wake s p).memoryOk = true := by
  unfold State.wake
  try dsimp only
  repeat' first
    | (with_reducible assumption) | (with_reducible apply ok3_same) | simp only [ok_mk]
    | with_reducible apply makeReady_ok | (with_reducible apply foldl_ok)
    | refine foldl_pair_eq_ok (by assumption) ?_ ?_ | (with_reducible apply foldl_pair_ok) | dsimp only
    | (intro _ _ _) | (intro _ _) | (intro _) | split

theorem register_ok (s : State) (w : Waiter) (hs : s.memoryOk = true) :
    (State.register s w).memoryOk = true := by
  unfold State.register
  try dsimp only
  repeat' first
    | (with_reducible assumption) | (with_reducible apply ok3_same) | simp only [ok_mk] | (intro _ _ _)
    | (intro _ _) | (intro _) | split

theorem fillWord_ok (s : State) (c : Nat) (o : Nat) (hs : s.memoryOk = true) :
    (State.fillWord s c o).memoryOk = true := by
  unfold State.fillWord
  try dsimp only
  repeat' first
    | (with_reducible assumption) | (with_reducible apply ok3_same) | simp only [ok_mk]
    | with_reducible apply setTag_ok | with_reducible apply wake_ok | (intro _ _ _) | (intro _ _) | (intro _)
    | split

theorem drainWord_ok (s : State) (c : Nat) (o : Nat) (hs : s.memoryOk = true) :
    (State.drainWord s c o).memoryOk = true := by
  unfold State.drainWord
  try dsimp only
  repeat' first
    | (with_reducible assumption) | (with_reducible apply ok3_same) | simp only [ok_mk]
    | with_reducible apply setTag_ok | with_reducible apply wake_ok | (intro _ _ _) | (intro _ _) | (intro _)
    | split

theorem setCell_ok (s : State) (pa : Nat) (x : Nat) (hs : s.memoryOk = true) :
    (State.setCell s pa x).memoryOk = true := by
  unfold State.setCell
  try dsimp only
  repeat' first
    | (with_reducible assumption) | (with_reducible apply ok3_same) | simp only [ok_mk]
    | with_reducible apply writeHome_ok | (intro _ _ _) | (intro _ _) | (intro _) | split

theorem incCell_ok (s : State) (pa : Nat) (hs : s.memoryOk = true) :
    (State.incCell s pa).memoryOk = true := by
  unfold State.incCell
  try dsimp only
  repeat' first
    | (with_reducible assumption) | (with_reducible apply ok3_same) | simp only [ok_mk]
    | with_reducible apply setCell_ok | (intro _ _ _) | (intro _ _) | (intro _) | split

theorem arriveCell_ok (s : State) (pa : Nat) (n : Nat) (hs : s.memoryOk = true) :
    (State.arriveCell s pa n).memoryOk = true := by
  unfold State.arriveCell
  try dsimp only
  repeat' first
    | (with_reducible assumption) | (with_reducible apply ok3_same) | simp only [ok_mk]
    | with_reducible apply setCell_ok | with_reducible apply wake_ok | (intro _ _ _) | (intro _ _) | (intro _)
    | split

theorem assign_ok (s : State) (r : RecId) (core : Nat) (base : Nat) (size : Nat) (hs : s.memoryOk = true) :
    (State.assign s r core base size).memoryOk = true := by
  unfold State.assign
  try dsimp only
  repeat' first
    | (with_reducible assumption) | (with_reducible apply ok3_same) | simp only [ok_mk]
    | with_reducible refine ok3_of ?_ ?_ ?_ | with_reducible apply ok_mem | with_reducible apply ok_scr
    | with_reducible apply ok_host | with_reducible apply write_wf | with_reducible apply foldl_write_wf
    | with_reducible apply filter_wf | (intro _ _ _) | (intro _ _) | (intro _) | split

theorem closeWindow_ok (s : State) (r : RecId) (hs : s.memoryOk = true) :
    (State.closeWindow s r).memoryOk = true := by
  unfold State.closeWindow
  try dsimp only
  repeat' first
    | (with_reducible assumption) | (with_reducible apply ok3_same) | simp only [ok_mk]
    | with_reducible apply wake_ok | (intro _ _ _) | (intro _ _) | (intro _) | split

theorem freeAlloc_ok (s : State) (r : RecId) (hs : s.memoryOk = true) :
    (State.freeAlloc s r).memoryOk = true := by
  unfold State.freeAlloc
  try dsimp only
  repeat' first
    | (with_reducible assumption) | (with_reducible apply ok3_same) | simp only [ok_mk]
    | with_reducible apply closeWindow_ok | (intro _ _ _) | (intro _ _) | (intro _) | split

theorem updTeam_ok (s : State) (pkg : Nat) (id : Nat) (f : Team → Team) (hs : s.memoryOk = true) :
    (State.updTeam s pkg id f).memoryOk = true := by
  unfold State.updTeam
  try dsimp only
  repeat' first
    | (with_reducible assumption) | (with_reducible apply ok3_same) | simp only [ok_mk]
    | with_reducible apply updCluster_ok | with_reducible apply wake_ok | (with_reducible apply foldl_ok)
    | refine foldl_pair_eq_ok (by assumption) ?_ ?_ | (with_reducible apply foldl_pair_ok) | dsimp only
    | (intro _ _ _) | (intro _ _) | (intro _) | split

theorem dropMember_ok (s : State) (pkg : Nat) (id : Nat) (m : Nat) (r : RecId) (hs : s.memoryOk = true) :
    (State.dropMember s pkg id m r).memoryOk = true := by
  unfold State.dropMember
  try dsimp only
  repeat' first
    | (with_reducible assumption) | (with_reducible apply ok3_same) | simp only [ok_mk]
    | with_reducible apply closeWindow_ok | with_reducible apply updTeam_ok | (intro _ _ _) | (intro _ _)
    | (intro _) | split

theorem leaveTeam_ok (s : State) (sid : Nat) (hs : s.memoryOk = true) :
    (State.leaveTeam s sid).memoryOk = true := by
  unfold State.leaveTeam
  try dsimp only
  repeat' first
    | (with_reducible assumption) | (with_reducible apply ok3_same) | simp only [ok_mk]
    | with_reducible apply dropMember_ok | with_reducible apply updSlot_ok | (intro _ _ _) | (intro _ _)
    | (intro _) | split

theorem faultSlotOf_ok (s : State) (pkg : Nat) (id : Nat) (m : Nat) (hs : s.memoryOk = true) :
    (State.faultSlotOf s pkg id m).memoryOk = true := by
  unfold State.faultSlotOf
  try dsimp only
  repeat' first
    | (with_reducible assumption) | (with_reducible apply ok3_same) | simp only [ok_mk]
    | with_reducible apply updTeam_ok | (intro _ _ _) | (intro _ _) | (intro _) | split

theorem faultMember_ok (s : State) (sid : Nat) (hs : s.memoryOk = true) :
    (State.faultMember s sid).memoryOk = true := by
  unfold State.faultMember
  try dsimp only
  repeat' first
    | (with_reducible assumption) | (with_reducible apply ok3_same) | simp only [ok_mk]
    | with_reducible apply faultSlotOf_ok | (intro _ _ _) | (intro _ _) | (intro _) | split

theorem faultRecord_ok (s : State) (r : RecId) (hs : s.memoryOk = true) :
    (State.faultRecord s r).memoryOk = true := by
  unfold State.faultRecord
  try dsimp only
  repeat' first
    | (with_reducible assumption) | (with_reducible apply ok3_same) | simp only [ok_mk]
    | with_reducible apply faultSlotOf_ok | (with_reducible apply foldl_ok)
    | refine foldl_pair_eq_ok (by assumption) ?_ ?_ | (with_reducible apply foldl_pair_ok) | dsimp only
    | (intro _ _ _) | (intro _ _) | (intro _) | split

theorem startTask_ok (s : State) (sid : Nat) (r : RecId) (resumed : Bool) (fresh : Bool) (hs : s.memoryOk = true) :
    (State.startTask s sid r resumed fresh).memoryOk = true := by
  unfold State.startTask
  try dsimp only
  repeat' first
    | (with_reducible assumption) | (with_reducible apply ok3_same) | simp only [ok_mk]
    | with_reducible apply assign_ok | with_reducible apply holdRecord_ok | with_reducible apply setSlot_ok
    | with_reducible apply selfInvalidate_ok | refine writeRecord_ok (by assumption) ?_
    | with_reducible apply getD_ok | (intro _ _ _) | (intro _ _) | (intro _) | split

theorem updEntry_ok (s : State) (pkg : Nat) (id : Nat) (f : Entry → Entry) (hs : s.memoryOk = true) :
    (State.updEntry s pkg id f).memoryOk = true := by
  unfold State.updEntry
  try dsimp only
  repeat' first
    | (with_reducible assumption) | (with_reducible apply ok3_same) | simp only [ok_mk]
    | with_reducible apply updCluster_ok | (intro _ _ _) | (intro _ _) | (intro _) | split

theorem updLark_ok (s : State) (pkg : Nat) (f : Lark → Lark) (hs : s.memoryOk = true) :
    (State.updLark s pkg f).memoryOk = true := by
  unfold State.updLark
  try dsimp only
  repeat' first
    | (with_reducible assumption) | (with_reducible apply ok3_same) | simp only [ok_mk]
    | with_reducible apply updCluster_ok | (intro _ _ _) | (intro _ _) | (intro _) | split

theorem freePool_ok (s : State) (r : RecId) (hs : s.memoryOk = true) :
    (State.freePool s r).memoryOk = true := by
  unfold State.freePool
  try dsimp only
  repeat' first
    | (with_reducible assumption) | (with_reducible apply ok3_same) | simp only [ok_mk]
    | with_reducible apply updCluster_ok | (intro _ _ _) | (intro _ _) | (intro _) | split

theorem dropEntry_ok (s : State) (pkg : Nat) (id : Nat) (hs : s.memoryOk = true) :
    (State.dropEntry s pkg id).memoryOk = true := by
  unfold State.dropEntry
  try dsimp only
  repeat' first
    | (with_reducible assumption) | (with_reducible apply ok3_same) | simp only [ok_mk]
    | with_reducible apply updCluster_ok | (intro _ _ _) | (intro _ _) | (intro _) | split

theorem writeState_ok (s : State) (pkg : Nat) (r : RecId) (n : Nat) (hs : s.memoryOk = true) :
    (State.writeState s pkg r n).memoryOk = true := by
  unfold State.writeState
  try dsimp only
  repeat' first
    | (with_reducible assumption) | (with_reducible apply ok3_same) | simp only [ok_mk]
    | refine writeRecord_ok (by assumption) ?_ | with_reducible apply getD_ok | (intro _ _ _) | (intro _ _)
    | (intro _) | split

theorem abortOne_ok {s : State} {pkg : Nat} {id : Nat} {withdraw : Bool} {nx : State} {nv : List
    (Nat × Nat × Bool)} (e : State.abortOne s pkg id withdraw = (nx, nv)) (hs : s.memoryOk = true) :
    nx.memoryOk = true := by
  unfold State.abortOne at e
  try dsimp only at e
  repeat' first
    | (with_reducible assumption) | (with_reducible injection e with e e2; subst e)
    | (with_reducible apply ok3_same) | simp only [ok_mk] | with_reducible apply dropEntry_ok
    | with_reducible apply dropSlot_ok | with_reducible apply freeAlloc_ok | with_reducible apply freePool_ok
    | with_reducible apply updEntry_ok | with_reducible apply updLark_ok | with_reducible apply writeState_ok
    | with_reducible apply updCluster_ok | (intro _ _ _) | (intro _ _) | (intro _) | split at e | split

theorem abortAll_ok (x0 : Nat) (x1 : List (Nat × Nat × Bool)) (x2 : State) (hx2 : x2.memoryOk = true) :
    (State.abortAll x0 x1 x2).memoryOk = true := by
  revert hx2
  fun_induction State.abortAll x0 x1 x2 <;> intro h
  all_goals first
    | exact h | (rename_i e ih; exact ih (abortOne_ok e h))

theorem enterTimed_ok (s : State) (pkg : Nat) (e : Entry) (hs : s.memoryOk = true) :
    (State.enterTimed s pkg e).memoryOk = true := by
  unfold State.enterTimed
  try dsimp only
  repeat' first
    | (with_reducible assumption) | (with_reducible apply ok3_same) | simp only [ok_mk]
    | with_reducible apply enterReady_ok | (intro _ _ _) | (intro _ _) | (intro _) | split

theorem restart_ok (s : State) (pkg : Nat) (id : Nat) (hs : s.memoryOk = true) :
    (State.restart s pkg id).memoryOk = true := by
  unfold State.restart
  try dsimp only
  repeat' first
    | (with_reducible assumption) | (with_reducible apply ok3_same) | simp only [ok_mk]
    | with_reducible apply enterTimed_ok | with_reducible apply lostRecord_ok
    | with_reducible apply updEntry_ok | refine writeRecord_ok (by assumption) ?_ | (intro _ _ _)
    | (intro _ _) | (intro _) | split

theorem lowerH_ok (s : State) (pkg : Nat) (k : Key) (hs : s.memoryOk = true) :
    (State.lowerH s pkg k).memoryOk = true := by
  unfold State.lowerH
  try dsimp only
  repeat' first
    | (with_reducible assumption) | (with_reducible apply ok3_same) | simp only [ok_mk]
    | with_reducible apply updCluster_ok | (intro _ _ _) | (intro _ _) | (intro _) | split

theorem unspill_ok (s : State) (pkg : Nat) (hs : s.memoryOk = true) :
    (State.unspill s pkg).memoryOk = true := by
  unfold State.unspill
  try dsimp only
  repeat' first
    | (with_reducible assumption) | (with_reducible apply ok3_same) | simp only [ok_mk]
    | with_reducible apply enterTimed_ok | with_reducible apply updEntry_ok | (with_reducible apply foldl_ok)
    | refine foldl_pair_eq_ok (by assumption) ?_ ?_ | (with_reducible apply foldl_pair_ok) | dsimp only
    | (intro _ _ _) | (intro _ _) | (intro _) | split

theorem abortList_ok (s : State) (l : List (Nat × Nat × Bool)) (conflict : Bool) (hs : s.memoryOk = true) :
    (State.abortList s l conflict).memoryOk = true := by
  unfold State.abortList
  try dsimp only
  repeat' first
    | (with_reducible assumption) | (with_reducible apply ok3_same) | simp only [ok_mk]
    | with_reducible apply abortAll_ok | with_reducible apply lowerH_ok | with_reducible apply restart_ok
    | with_reducible apply unspill_ok | with_reducible apply updCluster_ok | (with_reducible apply foldl_ok)
    | refine foldl_pair_eq_ok (by assumption) ?_ ?_ | (with_reducible apply foldl_pair_ok) | dsimp only
    | (intro _ _ _) | (intro _ _) | (intro _) | split

theorem abortReaders_ok (s : State) (block : Nat) (k : Key) (hs : s.memoryOk = true) :
    (State.abortReaders s block k).memoryOk = true := by
  unfold State.abortReaders
  try dsimp only
  repeat' first
    | (with_reducible assumption) | (with_reducible apply ok3_same) | simp only [ok_mk]
    | with_reducible apply abortList_ok | (intro _ _ _) | (intro _ _) | (intro _) | split

theorem sampleArrival_ok (s : State) (pkg : Nat) (k : Key) (hs : s.memoryOk = true) :
    (State.sampleArrival s pkg k).memoryOk = true := by
  unfold State.sampleArrival
  try dsimp only
  repeat' first
    | (with_reducible assumption) | (with_reducible apply ok3_same) | simp only [ok_mk] | (intro _ _ _)
    | (intro _ _) | (intro _) | split

theorem evictEntry_ok (s : State) (pkg : Nat) (id : Nat) (hs : s.memoryOk = true) :
    (State.evictEntry s pkg id).memoryOk = true := by
  unfold State.evictEntry
  try dsimp only
  repeat' first
    | (with_reducible assumption) | (with_reducible apply ok3_same) | simp only [ok_mk]
    | with_reducible apply abortList_ok | with_reducible apply updCluster_ok
    | refine writeRecord_ok (by assumption) ?_ | with_reducible apply getD_ok | (intro _ _ _) | (intro _ _)
    | (intro _) | split

theorem accept_ok {s : State} {pkg : Nat} {r : RecId} {ev : Event} {seeded : Bool} {nx : State} (e
    : State.accept s pkg r ev seeded = some nx) (hs : s.memoryOk = true) :
    nx.memoryOk = true := by
  unfold State.accept at e
  try dsimp only at e
  repeat' first
    | (with_reducible assumption) | (with_reducible injection e with e; subst e)
    | (with_reducible injection e; done) | (with_reducible apply ok3_same) | simp only [ok_mk]
    | with_reducible apply enterTimed_ok | with_reducible apply evictEntry_ok
    | with_reducible apply lostRecord_ok | with_reducible apply updCluster_ok
    | with_reducible apply sampleArrival_ok | (intro _ _ _) | (intro _ _) | (intro _) | split at e | split

theorem arriveOne_ok {s : State} {core : Nat} {launch : Nat} {va : Word} {nx : State} (e
    : State.arriveOne s core launch va = some nx) (hs : s.memoryOk = true) :
    nx.memoryOk = true := by
  unfold State.arriveOne at e
  try dsimp only at e
  repeat' first
    | (with_reducible assumption) | (with_reducible injection e with e; subst e)
    | (with_reducible injection e; done) | (with_reducible apply ok3_same) | simp only [ok_mk]
    | with_reducible apply arriveCell_ok | (intro _ _ _) | (intro _ _) | (intro _) | split at e | split

theorem arriveParent_ok {s : State} {core : Nat} {launch : Nat} {va : Word} {nx : State} (e
    : State.arriveParent s core launch va = some nx) (hs : s.memoryOk = true) :
    nx.memoryOk = true := by
  unfold State.arriveParent at e
  try dsimp only at e
  repeat' first
    | (with_reducible assumption) | (with_reducible injection e with e; subst e)
    | (with_reducible injection e; done) | (with_reducible apply ok3_same) | simp only [ok_mk]
    | refine arriveOne_ok (by assumption) ?_ | (intro _ _ _) | (intro _ _) | (intro _) | split at e | split

theorem writeBlock_ok (s : State) (b : Nat) (x : BufBlock) (hs : s.memoryOk = true) :
    (State.writeBlock s b x).memoryOk = true := by
  unfold State.writeBlock
  try dsimp only
  repeat' first
    | (with_reducible assumption) | (with_reducible apply ok3_same) | simp only [ok_mk]
    | with_reducible apply touch_ok | with_reducible apply writeHome_ok | (with_reducible apply foldl_ok)
    | refine foldl_pair_eq_ok (by assumption) ?_ ?_ | (with_reducible apply foldl_pair_ok) | dsimp only
    | (intro _ _ _) | (intro _ _) | (intro _) | split

theorem commitVersions_ok (s : State) (pkg : Nat) (id : Nat) (hs : s.memoryOk = true) :
    (State.commitVersions s pkg id).memoryOk = true := by
  unfold State.commitVersions
  try dsimp only
  repeat' first
    | (with_reducible assumption) | (with_reducible apply ok3_same) | simp only [ok_mk]
    | with_reducible apply updCluster_ok | (with_reducible apply foldl_ok)
    | refine foldl_pair_eq_ok (by assumption) ?_ ?_ | (with_reducible apply foldl_pair_ok) | dsimp only
    | (intro _ _ _) | (intro _ _) | (intro _) | split

theorem countJoin_ok (s : State) (p : Placement) (hs : s.memoryOk = true) :
    (State.countJoin s p).memoryOk = true := by
  unfold State.countJoin
  try dsimp only
  repeat' first
    | (with_reducible assumption) | (with_reducible apply ok3_same) | simp only [ok_mk]
    | with_reducible apply incCell_ok | (intro _ _ _) | (intro _ _) | (intro _) | split

theorem releaseHeld_ok (s : State) (l : List Placement) (hs : s.memoryOk = true) :
    (State.releaseHeld s l).memoryOk = true := by
  unfold State.releaseHeld
  try dsimp only
  repeat' first
    | (with_reducible assumption) | (with_reducible apply ok3_same) | simp only [ok_mk]
    | with_reducible apply countJoin_ok | with_reducible apply enqueue_ok | (with_reducible apply foldl_ok)
    | refine foldl_pair_eq_ok (by assumption) ?_ ?_ | (with_reducible apply foldl_pair_ok) | dsimp only
    | (intro _ _ _) | (intro _ _) | (intro _) | split

theorem sendAway_ok (s : State) (pkg : Nat) (key : Option (Nat × Nat × Nat)) (p : Packet) (hs : s.memoryOk = true) :
    (State.sendAway s pkg key p).memoryOk = true := by
  unfold State.sendAway
  try dsimp only
  repeat' first
    | (with_reducible assumption) | (with_reducible apply ok3_same) | simp only [ok_mk] | (intro _ _ _)
    | (intro _ _) | (intro _) | split

theorem sendEvents_ok (s : State) (pkg : Nat) (l : List (Nat × Nat)) (hs : s.memoryOk = true) :
    (State.sendEvents s pkg l).memoryOk = true := by
  unfold State.sendEvents
  try dsimp only
  repeat' first
    | (with_reducible assumption) | (with_reducible apply ok3_same) | simp only [ok_mk]
    | with_reducible apply enqueue_ok | with_reducible apply sendAway_ok | (with_reducible apply foldl_ok)
    | refine foldl_pair_eq_ok (by assumption) ?_ ?_ | (with_reducible apply foldl_pair_ok) | dsimp only
    | (intro _ _ _) | (intro _ _) | (intro _) | split

theorem nextLate_ok (s : State) (pkg : Nat) (hs : s.memoryOk = true) :
    (State.nextLate s pkg).memoryOk = true := by
  unfold State.nextLate
  try dsimp only
  repeat' first
    | (with_reducible assumption) | (with_reducible apply ok3_same) | simp only [ok_mk]
    | with_reducible apply enterTimed_ok | (intro _ _ _) | (intro _ _) | (intro _) | split

theorem finishEntry_ok {s : State} {pkg : Nat} {e : Entry} {parent : Word} {nx : State} (e
    : State.finishEntry s pkg e parent = some nx) (hs : s.memoryOk = true) :
    nx.memoryOk = true := by
  unfold State.finishEntry at e
  try dsimp only at e
  repeat' first
    | (with_reducible assumption) | (with_reducible injection e with e; subst e)
    | (with_reducible injection e; done) | (with_reducible apply ok3_same) | simp only [ok_mk]
    | with_reducible apply dropEntry_ok | with_reducible apply freeAlloc_ok | with_reducible apply freePool_ok
    | with_reducible apply nextLate_ok | with_reducible apply unspill_ok | with_reducible apply updCluster_ok
    | with_reducible apply writeState_ok | refine arriveParent_ok (by assumption) ?_ | refine map_ok e ?_
    | (intro _ _ _) | (intro _ _) | (intro _) | split at e | split

theorem drainBuffer_ok (s : State) (pkg : Nat) (e : Entry) (hs : s.memoryOk = true) :
    (State.drainBuffer s pkg e).memoryOk = true := by
  unfold State.drainBuffer
  try dsimp only
  repeat' first
    | (with_reducible assumption) | (with_reducible apply ok3_same) | simp only [ok_mk]
    | with_reducible apply abortReaders_ok | with_reducible apply writeBlock_ok
    | (with_reducible apply foldl_ok) | refine foldl_pair_eq_ok (by assumption) ?_ ?_
    | (with_reducible apply foldl_pair_ok) | dsimp only | (intro _ _ _) | (intro _ _) | (intro _) | split

theorem releaseWork_ok (s : State) (pkg : Nat) (e : Entry) (hs : s.memoryOk = true) :
    (State.releaseWork s pkg e).memoryOk = true := by
  unfold State.releaseWork
  try dsimp only
  repeat' first
    | (with_reducible assumption) | (with_reducible apply ok3_same) | simp only [ok_mk]
    | with_reducible apply abortList_ok | with_reducible apply commitVersions_ok
    | with_reducible apply releaseHeld_ok | with_reducible apply sendEvents_ok
    | with_reducible apply updEntry_ok | (intro _ _ _) | (intro _ _) | (intro _) | split

theorem commit_ok (s : State) (pkg : Nat) (e : Entry) (hs : s.memoryOk = true) :
    (State.commit s pkg e).memoryOk = true := by
  unfold State.commit
  try dsimp only
  repeat' first
    | (with_reducible assumption) | (with_reducible apply ok3_same) | simp only [ok_mk]
    | with_reducible apply drainBuffer_ok | with_reducible apply releaseWork_ok
    | with_reducible apply updEntry_ok | with_reducible apply tell_ok
    | refine finishEntry_ok (by assumption) ?_ | (intro _ _ _) | (intro _ _) | (intro _) | split

theorem receive_ok (s : State) (hl : Option Key × Option Key) (hs : s.memoryOk = true) :
    (State.receive s hl).memoryOk = true := by
  unfold State.receive
  try dsimp only
  repeat' first
    | (with_reducible assumption) | (with_reducible apply ok3_same) | simp only [ok_mk] | (intro _ _ _)
    | (intro _ _) | (intro _) | split

theorem readBlock_ok (s : State) (pkg : Nat) (id : Nat) (b : Nat) (hs : s.memoryOk = true) :
    (State.readBlock s pkg id b).memoryOk = true := by
  unfold State.readBlock
  try dsimp only
  repeat' first
    | (with_reducible assumption) | (with_reducible apply ok3_same) | simp only [ok_mk]
    | with_reducible apply settle_ok | with_reducible apply updEntry_ok | (with_reducible apply foldl_ok)
    | refine foldl_pair_eq_ok (by assumption) ?_ ?_ | (with_reducible apply foldl_pair_ok) | dsimp only
    | (intro _ _ _) | (intro _ _) | (intro _) | split

theorem promote_ok (s : State) (pkg : Nat) (id : Nat) (hs : s.memoryOk = true) :
    (State.promote s pkg id).memoryOk = true := by
  unfold State.promote
  try dsimp only
  repeat' first
    | (with_reducible assumption) | (with_reducible apply ok3_same) | simp only [ok_mk]
    | with_reducible apply drainBuffer_ok | with_reducible apply updEntry_ok
    | with_reducible apply updCluster_ok | with_reducible apply updSlot_ok | (intro _ _ _) | (intro _ _)
    | (intro _) | split

theorem arriveRun_ok (s : State) (pkg : Nat) (hs : s.memoryOk = true) :
    (State.arriveRun s pkg).memoryOk = true := by
  unfold State.arriveRun
  try dsimp only
  repeat' first
    | (with_reducible assumption) | (with_reducible apply ok3_same) | simp only [ok_mk]
    | with_reducible apply updLark_ok | refine arriveOne_ok (by assumption) ?_ | with_reducible apply getD_ok
    | (intro _ _ _) | (intro _ _) | (intro _) | split

theorem haltLark_ok (s : State) (pkg : Nat) (hs : s.memoryOk = true) :
    (State.haltLark s pkg).memoryOk = true := by
  unfold State.haltLark
  try dsimp only
  repeat' first
    | (with_reducible assumption) | (with_reducible apply ok3_same) | simp only [ok_mk]
    | with_reducible apply arriveRun_ok | with_reducible apply updLark_ok | (intro _ _ _) | (intro _ _)
    | (intro _) | split

theorem startEvent_ok {s : State} {pkg : Nat} {p : PendingEvent} {nx : State} (e
    : State.startEvent s pkg p = some nx) (hs : s.memoryOk = true) :
    nx.memoryOk = true := by
  unfold State.startEvent at e
  try dsimp only at e
  repeat' first
    | (with_reducible assumption) | (with_reducible injection e with e; subst e)
    | (with_reducible injection e; done) | (with_reducible apply ok3_same) | simp only [ok_mk]
    | with_reducible apply failedWalk_ok | with_reducible apply haltLark_ok
    | with_reducible apply updCluster_ok | refine accept_ok (by assumption) ?_ | (intro _ _ _) | (intro _ _)
    | (intro _) | split at e | split

theorem servePending_ok (s : State) (pkg : Nat) (hs : s.memoryOk = true) :
    (State.servePending s pkg).memoryOk = true := by
  unfold State.servePending
  try dsimp only
  repeat' first
    | (with_reducible assumption) | (with_reducible apply ok3_same) | simp only [ok_mk]
    | with_reducible apply updLark_ok | refine startEvent_ok (by assumption) ?_
    | (with_reducible apply foldl_ok) | refine foldl_pair_eq_ok (by assumption) ?_ ?_
    | (with_reducible apply foldl_pair_ok) | dsimp only | (intro _ _ _) | (intro _ _) | (intro _) | split

theorem requestEval_ok (s : State) (pkg : Nat) (v : Nat) (t : Nat) (by_ : Option Nat) (hs : s.memoryOk = true) :
    (State.requestEval s pkg v t by_).memoryOk = true := by
  unfold State.requestEval
  try dsimp only
  repeat' first
    | (with_reducible assumption) | (with_reducible apply ok3_same) | simp only [ok_mk]
    | with_reducible apply abortList_ok | with_reducible apply updLark_ok | with_reducible apply updEntry_ok
    | refine startEvent_ok (by assumption) ?_ | (intro _ _ _) | (intro _ _) | (intro _) | split

theorem captureHere_ok (s : State) (line : Nat) (hs : s.memoryOk = true) :
    (State.captureHere s line).memoryOk = true := by
  unfold State.captureHere
  try dsimp only
  repeat' first
    | (with_reducible assumption) | (with_reducible apply ok3_same) | simp only [ok_mk]
    | with_reducible apply upd_ok | (with_reducible apply foldl_ok)
    | refine foldl_pair_eq_ok (by assumption) ?_ ?_ | (with_reducible apply foldl_pair_ok) | dsimp only
    | (intro _ _ _) | (intro _ _) | (intro _) | split

theorem capture_ok (s : State) (j : Nat) (hs : s.memoryOk = true) :
    (State.capture s j).memoryOk = true := by
  unfold State.capture
  try dsimp only
  repeat' first
    | (with_reducible assumption) | (with_reducible apply ok3_same) | simp only [ok_mk]
    | with_reducible apply upd_ok | (intro _ _ _) | (intro _ _) | (intro _) | split

theorem markSealed_ok (s : State) (hs : s.memoryOk = true) :
    (State.markSealed s).memoryOk = true := by
  unfold State.markSealed
  try dsimp only
  repeat' first
    | (with_reducible assumption) | (with_reducible apply ok3_same) | simp only [ok_mk]
    | with_reducible apply upd_ok | (intro _ _ _) | (intro _ _) | (intro _) | split

theorem iterate_ok {pc : Word} {x0 : List Nat} {x1 : State} {nx : State} {nv : Option Word} (e
    : State.iterate pc x0 x1 = (nv, nx)) (hx1 : x1.memoryOk = true) :
    nx.memoryOk = true := by
  induction x0 generalizing pc x1 nx nv with
  | nil =>
    unfold State.iterate at e
    repeat' first
      | (with_reducible assumption) | (with_reducible injection e with e2 e; subst e)
      | (with_reducible apply ok3_same) | simp only [ok_mk] | with_reducible apply capture_ok
      | with_reducible apply markSealed_ok | with_reducible apply postClock_ok | with_reducible apply upd_ok
      | (intro _ _ _) | (intro _ _) | (intro _) | split at e | split
  | cons b l ih =>
    unfold State.iterate at e
    try dsimp only at e
    repeat' first
      | (with_reducible assumption) | refine ih (by assumption) ?_ | refine ih (Prod.eta _).symm ?_
      | (with_reducible injection e with e2 e; subst e) | (with_reducible apply ok3_same) | simp only [ok_mk]
      | with_reducible apply capture_ok | with_reducible apply markSealed_ok
      | with_reducible apply postClock_ok | with_reducible apply upd_ok | (intro _ _ _) | (intro _ _)
      | (intro _) | split at e | split

theorem countIns_ok (s : State) (hs : s.memoryOk = true) :
    (State.countIns s).memoryOk = true := by
  unfold State.countIns
  try dsimp only
  repeat' first
    | (with_reducible assumption) | (with_reducible apply ok3_same) | simp only [ok_mk]
    | with_reducible apply upd_ok | (intro _ _ _) | (intro _ _) | (intro _) | split

theorem retire_ok (s : State) (hs : s.memoryOk = true) :
    (State.retire s).memoryOk = true := by
  unfold State.retire
  try dsimp only
  repeat' first
    | (with_reducible assumption) | (with_reducible apply ok3_same) | simp only [ok_mk]
    | with_reducible apply countIns_ok | with_reducible apply upd_ok | refine iterate_ok (by assumption) ?_
    | refine iterate_ok (Prod.eta _).symm ?_ | with_reducible apply getD_ok | (intro _ _ _) | (intro _ _)
    | (intro _) | split

theorem retireSeal_ok (s : State) (hs : s.memoryOk = true) :
    (State.retireSeal s).memoryOk = true := by
  unfold State.retireSeal
  try dsimp only
  repeat' first
    | (with_reducible assumption) | (with_reducible apply ok3_same) | simp only [ok_mk]
    | with_reducible apply markSealed_ok | with_reducible apply retire_ok | (intro _ _ _) | (intro _ _)
    | (intro _) | split

theorem transfer_ok (s : State) (d : Word) (leaves : Bool) (hs : s.memoryOk = true) :
    (State.transfer s d leaves).memoryOk = true := by
  unfold State.transfer
  try dsimp only
  repeat' first
    | (with_reducible assumption) | (with_reducible apply ok3_same) | simp only [ok_mk]
    | with_reducible apply countIns_ok | with_reducible apply upd_ok | (intro _ _ _) | (intro _ _) | (intro _)
    | split

theorem entryState_ok (s : State) (sid : Nat) (st : EntryState) (hs : s.memoryOk = true) :
    (State.entryState s sid st).memoryOk = true := by
  unfold State.entryState
  try dsimp only
  repeat' first
    | (with_reducible assumption) | (with_reducible apply ok3_same) | simp only [ok_mk]
    | with_reducible apply updEntry_ok | (intro _ _ _) | (intro _ _) | (intro _) | split

theorem leaveWith_ok (s : State) (sid : Nat) (h : Head) (vals : List Word) (hs : s.memoryOk = true) :
    (State.leaveWith s sid h vals).memoryOk = true := by
  unfold State.leaveWith
  try dsimp only
  repeat' first
    | (with_reducible assumption) | (with_reducible apply ok3_same) | simp only [ok_mk]
    | with_reducible apply enterReady_ok | with_reducible apply entryState_ok
    | with_reducible apply releaseSlot_ok | refine writeCont_ok (by assumption) ?_
    | refine writeCont_ok (Prod.eta _).symm ?_ | (intro _ _ _) | (intro _ _) | (intro _) | split

theorem contNext_ok (s : State) (sid : Nat) (gin : Word) (lcin : BitVec 3) (state : Nat) (wk : Nat) (wa : Word)
    (hs : s.memoryOk = true) :
    (State.contNext s sid gin lcin state wk wa).memoryOk = true := by
  unfold State.contNext
  try dsimp only
  repeat' first
    | (with_reducible assumption) | (with_reducible apply ok3_same) | simp only [ok_mk]
    | with_reducible apply leaveWith_ok | (intro _ _ _) | (intro _ _) | (intro _) | split

theorem abandon_ok (s : State) (sid : Nat) (hs : s.memoryOk = true) :
    (State.abandon s sid).memoryOk = true := by
  unfold State.abandon
  try dsimp only
  repeat' first
    | (with_reducible assumption) | (with_reducible apply ok3_same) | simp only [ok_mk]
    | with_reducible apply updSlot_ok | (intro _ _ _) | (intro _ _) | (intro _) | split

theorem contRegion_ok (s : State) (sid : Nat) (state : Nat) (wk : Nat) (wa : Word) (hs : s.memoryOk = true) :
    (State.contRegion s sid state wk wa).memoryOk = true := by
  unfold State.contRegion
  try dsimp only
  repeat' first
    | (with_reducible assumption) | (with_reducible apply ok3_same) | simp only [ok_mk]
    | with_reducible apply abandon_ok | with_reducible apply leaveWith_ok | (intro _ _ _) | (intro _ _)
    | (intro _) | split

theorem faultTask_ok (s : State) (t : Trap) (e : Word) (addr : Word) (hs : s.memoryOk = true) :
    (State.faultTask s t e addr).memoryOk = true := by
  unfold State.faultTask
  try dsimp only
  repeat' first
    | (with_reducible assumption) | (with_reducible apply ok3_same) | simp only [ok_mk]
    | with_reducible apply entryState_ok | with_reducible apply faultMember_ok
    | with_reducible apply releaseSlot_ok | with_reducible apply updLaunch_ok | with_reducible apply tell_ok
    | refine writeCont_ok (by assumption) ?_ | refine writeCont_ok (Prod.eta _).symm ?_ | (intro _ _ _)
    | (intro _ _) | (intro _) | split

theorem trapTo_ok (s : State) (t : Trap) (e : Word) (deferred : Bool) (addr : Word) (hs : s.memoryOk = true) :
    (State.trapTo s t e deferred addr).memoryOk = true := by
  unfold State.trapTo
  try dsimp only
  repeat' first
    | (with_reducible assumption) | (with_reducible apply ok3_same) | simp only [ok_mk]
    | with_reducible apply failedWalk_ok | with_reducible apply faultTask_ok | with_reducible apply upd_ok
    | (intro _ _ _) | (intro _ _) | (intro _) | split

theorem trap_ok (s : State) (c : Nat) (v : Word) (hs : s.memoryOk = true) :
    (State.trap s c v).memoryOk = true := by
  unfold State.trap
  try dsimp only
  repeat' first
    | (with_reducible assumption) | (with_reducible apply ok3_same) | simp only [ok_mk]
    | with_reducible apply trapTo_ok | (intro _ _ _) | (intro _ _) | (intro _) | split

theorem illegal_ok (s : State) (reason : Nat) (hs : s.memoryOk = true) :
    (State.illegal s reason).memoryOk = true := by
  unfold State.illegal
  try dsimp only
  repeat' first
    | (with_reducible assumption) | (with_reducible apply ok3_same) | simp only [ok_mk]
    | with_reducible apply trap_ok | (intro _ _ _) | (intro _ _) | (intro _) | split

theorem trapReturn_ok (s : State) (hs : s.memoryOk = true) :
    (State.trapReturn s).memoryOk = true := by
  unfold State.trapReturn
  try dsimp only
  repeat' first
    | (with_reducible assumption) | (with_reducible apply ok3_same) | simp only [ok_mk]
    | with_reducible apply countIns_ok | with_reducible apply illegal_ok | with_reducible apply upd_ok
    | with_reducible apply trap_ok | (intro _ _ _) | (intro _ _) | (intro _) | split

theorem acquire_ok (s : State) (sid : Nat) (hs : s.memoryOk = true) :
    (State.acquire s sid).memoryOk = true := by
  unfold State.acquire
  try dsimp only
  repeat' first
    | (with_reducible assumption) | (with_reducible apply ok3_same) | simp only [ok_mk]
    | with_reducible apply selfInvalidate_ok | (intro _ _ _) | (intro _ _) | (intro _) | split

theorem stall_ok (s : State) (hs : s.memoryOk = true) :
    (State.stall s).memoryOk = true := by
  unfold State.stall
  try dsimp only
  repeat' first
    | (with_reducible assumption) | (with_reducible apply ok3_same) | simp only [ok_mk] | (intro _ _ _)
    | (intro _ _) | (intro _) | split

theorem countWait_ok (s : State) (hs : s.memoryOk = true) :
    (State.countWait s).memoryOk = true := by
  unfold State.countWait
  try dsimp only
  repeat' first
    | (with_reducible assumption) | (with_reducible apply ok3_same) | simp only [ok_mk]
    | with_reducible apply upd_ok | with_reducible apply updCluster_ok | (intro _ _ _) | (intro _ _)
    | (intro _) | split

theorem waitFirm_ok (s : State) (hs : s.memoryOk = true) :
    (State.waitFirm s).memoryOk = true := by
  unfold State.waitFirm
  try dsimp only
  repeat' first
    | (with_reducible assumption) | (with_reducible apply ok3_same) | simp only [ok_mk]
    | with_reducible apply countWait_ok | (intro _ _ _) | (intro _ _) | (intro _) | split

end Sys2Proof.Laws
end

