-- ==== Sys2Proof/Laws/KeepsIssue.lean ====
section
/-! SUPPORT. The canonical form of the memories is kept by every operation of Machine/Flight.lean,
Machine/Issue.lean, Machine/Access.lean, Machine/Memory.lean, Machine/Atomics.lean, Machine/VecMem.lean. -/

set_option linter.all false

namespace Sys2Proof.Laws

open Sys2Proof.Machine Sys2Proof.Machine.State

theorem removeMsg_ok (s : State) (k : Nat) (hs : s.memoryOk = true) :
    (State.removeMsg s k).memoryOk = true := by
  unfold State.removeMsg
  try dsimp only
  repeat' first
    | (with_reducible assumption) | (with_reducible apply ok3_same) | simp only [ok_mk] | (intro _ _ _)
    | (intro _ _) | (intro _) | split

theorem putMsg_ok (s : State) (k : Nat) (m : Msg) (hs : s.memoryOk = true) :
    (State.putMsg s k m).memoryOk = true := by
  unfold State.putMsg
  try dsimp only
  repeat' first
    | (with_reducible assumption) | (with_reducible apply ok3_same) | simp only [ok_mk] | (intro _ _ _)
    | (intro _ _) | (intro _) | split

theorem uncount_ok (s : State) (sid : Nat) (c : Option Ctr) (hs : s.memoryOk = true) :
    (State.uncount s sid c).memoryOk = true := by
  unfold State.uncount
  try dsimp only
  repeat' first
    | (with_reducible assumption) | (with_reducible apply ok3_same) | simp only [ok_mk]
    | with_reducible apply updSlot_ok | (intro _ _ _) | (intro _ _) | (intro _) | split

theorem preWrite_ok (s : State) (sid : Nat) (pa : Nat) (n : Nat) (hs : s.memoryOk = true) :
    (State.preWrite s sid pa n).memoryOk = true := by
  unfold State.preWrite
  try dsimp only
  repeat' first
    | (with_reducible assumption) | (with_reducible apply ok3_same) | simp only [ok_mk]
    | with_reducible apply abortReaders_ok | (with_reducible apply foldl_ok)
    | refine foldl_pair_eq_ok (by assumption) ?_ ?_ | (with_reducible apply foldl_pair_ok) | dsimp only
    | (intro _ _ _) | (intro _ _) | (intro _) | split

theorem dropValid_ok (s : State) (c : Nat) (pa : Nat) (n : Nat) (hs : s.memoryOk = true) :
    (State.dropValid s c pa n).memoryOk = true := by
  unfold State.dropValid
  try dsimp only
  repeat' first
    | (with_reducible assumption) | (with_reducible apply ok3_same) | simp only [ok_mk] | (intro _ _ _)
    | (intro _ _) | (intro _) | split

theorem readPart_ok {s : State} {o : LoadOp} {p : Part} {nx : State} {nv : Answer} (e : State.readPart s o p =
    (nx, nv)) (hs : s.memoryOk = true) :
    nx.memoryOk = true := by
  unfold State.readPart at e
  try dsimp only at e
  repeat' first
    | (with_reducible assumption) | (with_reducible injection e with e e2; subst e)
    | (with_reducible apply ok3_same) | simp only [ok_mk] | with_reducible apply dropValid_ok
    | with_reducible apply flushUpdate_ok | with_reducible apply loadWords_ok
    | with_reducible apply settleRange_ok | (intro _ _ _) | (intro _ _) | (intro _) | split at e | split

theorem answerPart_ok {s : State} {k : Nat} {o : LoadOp} {i : Nat} {nx : State} {nv : LoadOp} (e
    : State.answerPart s k o i = (nx, nv)) (hs : s.memoryOk = true) :
    nx.memoryOk = true := by
  unfold State.answerPart at e
  try dsimp only at e
  repeat' first
    | (with_reducible assumption) | (with_reducible injection e with e e2; subst e)
    | (with_reducible apply ok3_same) | simp only [ok_mk] | refine readPart_ok (by assumption) ?_
    | refine readPart_ok (Prod.eta _).symm ?_ | (intro _ _ _) | (intro _ _) | (intro _) | split at e | split

theorem requestPart_ok (s : State) (k : Nat) (o : LoadOp) (i : Nat) (hs : s.memoryOk = true) :
    (State.requestPart s k o i).memoryOk = true := by
  unfold State.requestPart
  try dsimp only
  repeat' first
    | (with_reducible assumption) | (with_reducible apply ok3_same) | simp only [ok_mk]
    | with_reducible apply putMsg_ok | refine answerPart_ok (by assumption) ?_
    | refine answerPart_ok (Prod.eta _).symm ?_ | (intro _ _ _) | (intro _ _) | (intro _) | split

theorem finishLoad_ok (s : State) (o : LoadOp) (hs : s.memoryOk = true) :
    (State.finishLoad s o).memoryOk = true := by
  unfold State.finishLoad
  try dsimp only
  repeat' first
    | (with_reducible assumption) | (with_reducible apply ok3_same) | simp only [ok_mk]
    | with_reducible apply acquire_ok | with_reducible apply updSlot_ok | (intro _ _ _) | (intro _ _)
    | (intro _) | split

theorem loadNow_ok (s : State) (k : Nat) (o : LoadOp) (hs : s.memoryOk = true) :
    (State.loadNow s k o).memoryOk = true := by
  unfold State.loadNow
  try dsimp only
  repeat' first
    | (with_reducible assumption) | (with_reducible apply ok3_same) | simp only [ok_mk]
    | with_reducible apply finishLoad_ok | with_reducible apply putMsg_ok | with_reducible apply removeMsg_ok
    | refine answerPart_ok (by assumption) ?_ | refine answerPart_ok (Prod.eta _).symm ?_
    | (with_reducible apply foldl_ok) | refine foldl_pair_eq_ok (by assumption) ?_ ?_
    | (with_reducible apply foldl_pair_ok) | dsimp only | (intro _ _ _) | (intro _ _) | (intro _) | split

theorem renew_ok (s : State) (sid : Nat) (ws : List Nat) (hs : s.memoryOk = true) :
    (State.renew s sid ws).memoryOk = true := by
  unfold State.renew
  try dsimp only
  repeat' first
    | (with_reducible assumption) | (with_reducible apply ok3_same) | simp only [ok_mk]
    | (with_reducible apply foldl_ok) | refine foldl_pair_eq_ok (by assumption) ?_ ?_
    | (with_reducible apply foldl_pair_ok) | dsimp only | (intro _ _ _) | (intro _ _) | (intro _) | split

theorem applyPiece_ok (s : State) (sid : Nat) (rel : Bool) (late : Bool) (p : Piece) (hs : s.memoryOk = true) :
    (State.applyPiece s sid rel late p).memoryOk = true := by
  unfold State.applyPiece
  try dsimp only
  repeat' first
    | (with_reducible assumption) | (with_reducible apply ok3_same) | simp only [ok_mk]
    | with_reducible apply l1Store_ok | with_reducible apply preWrite_ok | with_reducible apply registerAll_ok
    | with_reducible apply renew_ok | with_reducible apply scrWrite_ok | with_reducible apply setDesc_ok
    | with_reducible apply writeHome_ok | (intro _ _ _) | (intro _ _) | (intro _) | split

theorem registerPiece_ok {s : State} {k : Nat} {o : StoreOp} {i : Nat} {nx : State} {nv : StoreOp} (e
    : State.registerPiece s k o i = (nx, nv)) (hs : s.memoryOk = true) :
    nx.memoryOk = true := by
  unfold State.registerPiece at e
  try dsimp only at e
  repeat' first
    | (with_reducible assumption) | (with_reducible injection e with e e2; subst e)
    | (with_reducible apply ok3_same) | simp only [ok_mk] | with_reducible apply applyPiece_ok | (intro _ _ _)
    | (intro _ _) | (intro _) | split at e | split

theorem registerStore_ok (s : State) (k : Nat) (o : StoreOp) (i : Nat) (hs : s.memoryOk = true) :
    (State.registerStore s k o i).memoryOk = true := by
  unfold State.registerStore
  try dsimp only
  repeat' first
    | (with_reducible assumption) | (with_reducible apply ok3_same) | simp only [ok_mk]
    | with_reducible apply putMsg_ok | refine registerPiece_ok (by assumption) ?_
    | refine registerPiece_ok (Prod.eta _).symm ?_ | (intro _ _ _) | (intro _ _) | (intro _) | split

theorem ackStore_ok (s : State) (k : Nat) (o : StoreOp) (hs : s.memoryOk = true) :
    (State.ackStore s k o).memoryOk = true := by
  unfold State.ackStore
  try dsimp only
  repeat' first
    | (with_reducible assumption) | (with_reducible apply ok3_same) | simp only [ok_mk]
    | with_reducible apply removeMsg_ok | with_reducible apply uncount_ok | (intro _ _ _) | (intro _ _)
    | (intro _) | split

theorem storeAll_ok (s : State) (k : Nat) (o : StoreOp) (hs : s.memoryOk = true) :
    (State.storeAll s k o).memoryOk = true := by
  unfold State.storeAll
  try dsimp only
  repeat' first
    | (with_reducible assumption) | (with_reducible apply ok3_same) | simp only [ok_mk]
    | with_reducible apply ackStore_ok | with_reducible apply putMsg_ok
    | refine registerPiece_ok (by assumption) ?_ | refine registerPiece_ok (Prod.eta _).symm ?_
    | (with_reducible apply foldl_ok) | refine foldl_pair_eq_ok (by assumption) ?_ ?_
    | (with_reducible apply foldl_pair_ok) | dsimp only | (intro _ _ _) | (intro _ _) | (intro _) | split

theorem atHome_ok (s : State) (sid : Nat) (l : Loc) (n : Nat) (hs : s.memoryOk = true) :
    (State.atHome s sid l n).memoryOk = true := by
  unfold State.atHome
  try dsimp only
  repeat' first
    | (with_reducible assumption) | (with_reducible apply ok3_same) | simp only [ok_mk]
    | with_reducible apply preWrite_ok | with_reducible apply recallWord_ok
    | with_reducible apply settleRange_ok | (with_reducible apply foldl_ok)
    | refine foldl_pair_eq_ok (by assumption) ?_ ?_ | (with_reducible apply foldl_pair_ok) | dsimp only
    | (intro _ _ _) | (intro _ _) | (intro _) | split

theorem performAtom_ok (s : State) (k : Nat) (o : AtomOp) (hs : s.memoryOk = true) :
    (State.performAtom s k o).memoryOk = true := by
  unfold State.performAtom
  try dsimp only
  repeat' first
    | (with_reducible assumption) | (with_reducible apply ok3_same) | simp only [ok_mk]
    | with_reducible apply acquire_ok | with_reducible apply atHome_ok | with_reducible apply orFlags_ok
    | with_reducible apply removeMsg_ok | with_reducible apply renew_ok | with_reducible apply writeLoc_ok
    | with_reducible apply updSlot_ok | with_reducible apply setG_ok | (intro _ _ _) | (intro _ _) | (intro _)
    | split

theorem redOwned_ok (s : State) (c : Nat) (pa : Nat) (op : RedOp) (ty : Ty) (x : Nat) (hs : s.memoryOk = true) :
    (State.redOwned s c pa op ty x).memoryOk = true := by
  unfold State.redOwned
  try dsimp only
  repeat' first
    | (with_reducible assumption) | (with_reducible apply ok3_same) | simp only [ok_mk]
    | with_reducible apply l1Store_ok | (intro _ _ _) | (intro _ _) | (intro _) | split

theorem redPartial_ok (s : State) (c : Nat) (pa : Nat) (op : RedOp) (ty : Ty) (x : Nat) (hs : s.memoryOk = true) :
    (State.redPartial s c pa op ty x).memoryOk = true := by
  unfold State.redPartial
  try dsimp only
  repeat' first
    | (with_reducible assumption) | (with_reducible apply ok3_same) | simp only [ok_mk]
    | (with_reducible apply foldl_ok) | refine foldl_pair_eq_ok (by assumption) ?_ ?_
    | (with_reducible apply foldl_pair_ok) | dsimp only | (intro _ _ _) | (intro _ _) | (intro _) | split

theorem dropOwned_ok (s : State) (c : Nat) (line : Nat) (hs : s.memoryOk = true) :
    (State.dropOwned s c line).memoryOk = true := by
  unfold State.dropOwned
  try dsimp only
  repeat' first
    | (with_reducible assumption) | (with_reducible apply ok3_same) | simp only [ok_mk]
    | with_reducible apply recallWord_ok | (with_reducible apply foldl_ok)
    | refine foldl_pair_eq_ok (by assumption) ?_ ?_ | (with_reducible apply foldl_pair_ok) | dsimp only
    | (intro _ _ _) | (intro _ _) | (intro _) | split

theorem makeUpdate_ok (s : State) (c : Nat) (line : Nat) (op : RedOp) (ty : Ty) (hs : s.memoryOk = true) :
    (State.makeUpdate s c line op ty).memoryOk = true := by
  unfold State.makeUpdate
  try dsimp only
  repeat' first
    | (with_reducible assumption) | (with_reducible apply ok3_same) | simp only [ok_mk]
    | with_reducible apply dropOwned_ok | with_reducible apply flushUpdate_ok | (intro _ _ _) | (intro _ _)
    | (intro _) | split

theorem registerContributor_ok (s : State) (c : Nat) (line : Nat) (hs : s.memoryOk = true) :
    (State.registerContributor s c line).memoryOk = true := by
  unfold State.registerContributor
  try dsimp only
  repeat' first
    | (with_reducible assumption) | (with_reducible apply ok3_same) | simp only [ok_mk]
    | with_reducible apply recallLine_ok | with_reducible apply registryEntry_ok | (intro _ _ _) | (intro _ _)
    | (intro _) | split

theorem redAtHome_ok (s : State) (o : RedMsg) (hs : s.memoryOk = true) :
    (State.redAtHome s o).memoryOk = true := by
  unfold State.redAtHome
  try dsimp only
  repeat' first
    | (with_reducible assumption) | (with_reducible apply ok3_same) | simp only [ok_mk]
    | with_reducible apply atHome_ok | with_reducible apply renew_ok | with_reducible apply writeLoc_ok
    | (intro _ _ _) | (intro _ _) | (intro _) | split

theorem performRed_ok (s : State) (k : Nat) (o : RedMsg) (hs : s.memoryOk = true) :
    (State.performRed s k o).memoryOk = true := by
  unfold State.performRed
  try dsimp only
  repeat' first
    | (with_reducible assumption) | (with_reducible apply ok3_same) | simp only [ok_mk]
    | with_reducible apply preWrite_ok | with_reducible apply redAtHome_ok
    | with_reducible apply registerContributor_ok | with_reducible apply removeMsg_ok
    | with_reducible apply uncount_ok | (intro _ _ _) | (intro _ _) | (intro _) | split

theorem performCell_ok (s : State) (k : Nat) (o : CellMsg) (hs : s.memoryOk = true) :
    (State.performCell s k o).memoryOk = true := by
  unfold State.performCell
  try dsimp only
  repeat' first
    | (with_reducible assumption) | (with_reducible apply ok3_same) | simp only [ok_mk]
    | with_reducible apply atHome_ok | with_reducible apply orFlags_ok | with_reducible apply removeMsg_ok
    | with_reducible apply renew_ok | with_reducible apply writeLoc_ok | with_reducible apply updSlot_ok
    | with_reducible apply setG_ok | with_reducible apply uncount_ok | (intro _ _ _) | (intro _ _) | (intro _)
    | split

theorem quotaNow_ok (s : State) (k : Nat) (sid : Nat) (dest : Nat) (dom : Nat) (w : Option Word) (live : Bool) (hs
    : s.memoryOk = true) :
    (State.quotaNow s k sid dest dom w live).memoryOk = true := by
  unfold State.quotaNow
  try dsimp only
  repeat' first
    | (with_reducible assumption) | (with_reducible apply ok3_same) | simp only [ok_mk]
    | with_reducible apply removeMsg_ok | with_reducible apply setQuota_ok | with_reducible apply updSlot_ok
    | with_reducible apply setG_ok | (intro _ _ _) | (intro _ _) | (intro _) | split

theorem deliver_ok {s : State} {pkg : Nat} {p : Placement} {t : Head} {pay : List Word} {nx : State} (e
    : State.deliver s pkg p t pay = some nx) (hs : s.memoryOk = true) :
    nx.memoryOk = true := by
  unfold State.deliver at e
  try dsimp only at e
  repeat' first
    | (with_reducible assumption) | (with_reducible injection e with e; subst e)
    | (with_reducible injection e; done) | (with_reducible apply ok3_same) | simp only [ok_mk]
    | with_reducible apply enterReady_ok | with_reducible apply updCluster_ok | (intro _ _ _) | (intro _ _)
    | (intro _) | split at e | split

theorem placeNow_ok {s : State} {p : Placement} {nx : State} (e : State.placeNow s p = some nx) (hs
    : s.memoryOk = true) :
    nx.memoryOk = true := by
  unfold State.placeNow at e
  try dsimp only at e
  repeat' first
    | (with_reducible assumption) | (with_reducible injection e with e; subst e)
    | (with_reducible injection e; done) | (with_reducible apply ok3_same) | simp only [ok_mk]
    | with_reducible apply enterReady_ok | with_reducible apply lostRecord_ok | with_reducible apply tell_ok
    | with_reducible apply writeHome_ok | with_reducible apply sendAway_ok
    | refine accept_ok (by assumption) ?_ | refine deliver_ok (by assumption) ?_
    | refine writeRecord_ok (by assumption) ?_ | (intro _ _ _) | (intro _ _) | (intro _) | split at e | split

theorem stepJoin_ok (s : State) (k : Nat) (p : Placement) (hs : s.memoryOk = true) :
    (State.stepJoin s k p).memoryOk = true := by
  unfold State.stepJoin
  try dsimp only
  repeat' first
    | (with_reducible assumption) | (with_reducible apply ok3_same) | simp only [ok_mk]
    | with_reducible apply countJoin_ok | with_reducible apply putMsg_ok | (intro _ _ _) | (intro _ _)
    | (intro _) | split

theorem stepPlace_ok (s : State) (k : Nat) (p : Placement) (hs : s.memoryOk = true) :
    (State.stepPlace s k p).memoryOk = true := by
  unfold State.stepPlace
  try dsimp only
  repeat' first
    | (with_reducible assumption) | (with_reducible apply ok3_same) | simp only [ok_mk]
    | with_reducible apply removeMsg_ok | refine placeNow_ok (by assumption) ?_ | (intro _ _ _) | (intro _ _)
    | (intro _) | split

theorem stepArrive_ok (s : State) (k : Nat) (sid : Nat) (pa : Nat) (n : Nat) (hs : s.memoryOk = true) :
    (State.stepArrive s k sid pa n).memoryOk = true := by
  unfold State.stepArrive
  try dsimp only
  repeat' first
    | (with_reducible assumption) | (with_reducible apply ok3_same) | simp only [ok_mk]
    | with_reducible apply arriveCell_ok | with_reducible apply removeMsg_ok | (intro _ _ _) | (intro _ _)
    | (intro _) | split

theorem asSlot_ok (s : State) (sid : Nat) (f : State → State) (hs : s.memoryOk = true) (hf : ∀ t
    : State, t.memoryOk = true → (f t).memoryOk = true) :
    (State.asSlot s sid f).memoryOk = true := by
  unfold State.asSlot
  try dsimp only
  repeat' first
    | (with_reducible assumption) | (with_reducible apply ok3_same) | simp only [ok_mk] | apply hf
    | (intro _ _ _) | (intro _ _) | (intro _) | split

theorem stepReg_ok (s : State) (k : Nat) (sid : Nat) (kind : Nat) (key : Nat) (va : Word) (gin : Word) (lcin
    : BitVec 3) (hs : s.memoryOk = true) :
    (State.stepReg s k sid kind key va gin lcin).memoryOk = true := by
  unfold State.stepReg
  try dsimp only
  repeat' first
    | (with_reducible assumption) | (with_reducible apply ok3_same) | simp only [ok_mk]
    | with_reducible apply countIns_ok | with_reducible apply retire_ok | with_reducible apply acquire_ok
    | with_reducible apply asSlot_ok | with_reducible apply contNext_ok | with_reducible apply register_ok
    | with_reducible apply removeMsg_ok | (intro _ _ _) | (intro _ _) | (intro _) | split

theorem stepEvent_ok (s : State) (k : Nat) (v : Nat) (t : Nat) (hs : s.memoryOk = true) :
    (State.stepEvent s k v t).memoryOk = true := by
  unfold State.stepEvent
  try dsimp only
  repeat' first
    | (with_reducible assumption) | (with_reducible apply ok3_same) | simp only [ok_mk]
    | with_reducible apply removeMsg_ok | with_reducible apply requestEval_ok | (intro _ _ _) | (intro _ _)
    | (intro _) | split

theorem stepAbort_ok (s : State) (k : Nat) (pkg : Nat) (id : Nat) (hs : s.memoryOk = true) :
    (State.stepAbort s k pkg id).memoryOk = true := by
  unfold State.stepAbort
  try dsimp only
  repeat' first
    | (with_reducible assumption) | (with_reducible apply ok3_same) | simp only [ok_mk]
    | with_reducible apply abortList_ok | with_reducible apply removeMsg_ok | (intro _ _ _) | (intro _ _)
    | (intro _) | split

theorem writeCore_ok (s : State) (sid : Nat) (l : Loc) (bs : List Byte) (hs : s.memoryOk = true) :
    (State.writeCore s sid l bs).memoryOk = true := by
  unfold State.writeCore
  try dsimp only
  repeat' first
    | (with_reducible assumption) | (with_reducible apply ok3_same) | simp only [ok_mk]
    | with_reducible apply preWrite_ok | with_reducible apply scrWrite_ok | with_reducible apply storeNow_ok
    | with_reducible apply writeHome_ok | (intro _ _ _) | (intro _ _) | (intro _) | split

theorem snapWrite_ok (s : State) (sid : Nat) (l : Lark) (v : Nat) (t : Nat) (va : Word) (hs : s.memoryOk = true) :
    (State.snapWrite s sid l v t va).memoryOk = true := by
  unfold State.snapWrite
  try dsimp only
  repeat' first
    | (with_reducible assumption) | (with_reducible apply ok3_same) | simp only [ok_mk]
    | with_reducible apply writeCore_ok | with_reducible apply setDesc_ok | (intro _ _ _) | (intro _ _)
    | (intro _) | split

theorem stepSnap_ok (s : State) (k : Nat) (sid : Nat) (pc : Nat) (first : Nat) (n : Nat) (va : Word) (counts
    : List (Ctr × Nat)) (hs : s.memoryOk = true) :
    (State.stepSnap s k sid pc first n va counts).memoryOk = true := by
  unfold State.stepSnap
  try dsimp only
  repeat' first
    | (with_reducible assumption) | (with_reducible apply ok3_same) | simp only [ok_mk]
    | with_reducible apply deferAt_ok | with_reducible apply promote_ok | with_reducible apply removeMsg_ok
    | with_reducible apply snapWrite_ok | with_reducible apply uncount_ok | (with_reducible apply foldl_ok)
    | refine foldl_pair_eq_ok (by assumption) ?_ ?_ | (with_reducible apply foldl_pair_ok) | dsimp only
    | (intro _ _ _) | (intro _ _) | (intro _) | split

theorem stepLeave_ok (s : State) (k : Nat) (sid : Nat) (r : RecId) (team : Nat) (m : Nat) (hs : s.memoryOk = true) :
    (State.stepLeave s k sid r team m).memoryOk = true := by
  unfold State.stepLeave
  try dsimp only
  repeat' first
    | (with_reducible assumption) | (with_reducible apply ok3_same) | simp only [ok_mk]
    | with_reducible apply dropMember_ok | with_reducible apply removeMsg_ok | with_reducible apply updSlot_ok
    | (intro _ _ _) | (intro _ _) | (intro _) | split

theorem setQueue_ok (s : State) (pkg : Nat) (q : Nat) (l : List Word) (hs : s.memoryOk = true) :
    (State.setQueue s pkg q l).memoryOk = true := by
  unfold State.setQueue
  try dsimp only
  repeat' first
    | (with_reducible assumption) | (with_reducible apply ok3_same) | simp only [ok_mk]
    | with_reducible apply updCluster_ok | (intro _ _ _) | (intro _ _) | (intro _) | split

theorem stepQueue_ok (s : State) (k : Nat) (sid : Nat) (q : Nat) (x : Word) (dest : Option Nat) (hs
    : s.memoryOk = true) :
    (State.stepQueue s k sid q x dest).memoryOk = true := by
  unfold State.stepQueue
  try dsimp only
  repeat' first
    | (with_reducible assumption) | (with_reducible apply ok3_same) | simp only [ok_mk]
    | with_reducible apply removeMsg_ok | with_reducible apply setQueue_ok | with_reducible apply updSlot_ok
    | with_reducible apply setP_ok | with_reducible apply wake_ok | (intro _ _ _) | (intro _ _) | (intro _)
    | split

theorem stepResult_ok (s : State) (k : Nat) (sid : Nat) (w : List RegWrite) (acq : Bool) (hs : s.memoryOk = true) :
    (State.stepResult s k sid w acq).memoryOk = true := by
  unfold State.stepResult
  try dsimp only
  repeat' first
    | (with_reducible assumption) | (with_reducible apply ok3_same) | simp only [ok_mk]
    | with_reducible apply acquire_ok | with_reducible apply removeMsg_ok | with_reducible apply updSlot_ok
    | (intro _ _ _) | (intro _ _) | (intro _) | split

theorem perform_ok (s : State) (k : Nat) (hs : s.memoryOk = true) :
    (State.perform s k).memoryOk = true := by
  unfold State.perform
  try dsimp only
  repeat' first
    | (with_reducible assumption) | (with_reducible apply ok3_same) | simp only [ok_mk]
    | with_reducible apply clockAdd_ok | with_reducible apply judge_ok | with_reducible apply loadNow_ok
    | with_reducible apply performAtom_ok | with_reducible apply performCell_ok
    | with_reducible apply performRed_ok | with_reducible apply quotaNow_ok
    | with_reducible apply removeMsg_ok | with_reducible apply stepAbort_ok
    | with_reducible apply stepArrive_ok | with_reducible apply stepEvent_ok
    | with_reducible apply stepJoin_ok | with_reducible apply stepLeave_ok | with_reducible apply stepQueue_ok
    | with_reducible apply stepReg_ok | with_reducible apply stepResult_ok | with_reducible apply stepSnap_ok
    | with_reducible apply storeAll_ok | with_reducible apply stepPlace_ok | (intro _ _ _) | (intro _ _)
    | (intro _) | split

theorem post_ok (s : State) (m : Msg) (hs : s.memoryOk = true) :
    (State.post s m).memoryOk = true := by
  unfold State.post
  try dsimp only
  repeat' first
    | (with_reducible assumption) | (with_reducible apply ok3_same) | simp only [ok_mk]
    | with_reducible apply enqueue_ok | with_reducible apply perform_ok | (intro _ _ _) | (intro _ _)
    | (intro _) | split

theorem settleFrom_ok (s : State) (k : Nat) (hs : s.memoryOk = true) :
    (State.settleFrom s k).memoryOk = true := by
  unfold State.settleFrom
  try dsimp only
  repeat' first
    | (with_reducible assumption) | (with_reducible apply ok3_same) | simp only [ok_mk]
    | with_reducible apply perform_ok | (with_reducible apply foldl_ok)
    | refine foldl_pair_eq_ok (by assumption) ?_ ?_ | (with_reducible apply foldl_pair_ok) | dsimp only
    | (intro _ _ _) | (intro _ _) | (intro _) | split

theorem crossed_ok (s : State) (sid : Nat) (a : Path) (b : Path) (hs : s.memoryOk = true) :
    (State.crossed s sid a b).memoryOk = true := by
  unfold State.crossed
  try dsimp only
  repeat' first
    | (with_reducible assumption) | (with_reducible apply ok3_same) | simp only [ok_mk]
    | with_reducible apply forgetAhead_ok | with_reducible apply selfInvalidate_ok | (intro _ _ _)
    | (intro _ _) | (intro _) | split

theorem settleHolds_ok {s : State} {sid : Nat} {x0 : List Hold} {nx : State} {nv : List Hold} (e
    : State.settleHolds s sid x0 = (nx, nv)) (hs : s.memoryOk = true) :
    nx.memoryOk = true := by
  induction x0 generalizing s sid nx nv with
  | nil =>
    unfold State.settleHolds at e
    repeat' first
      | (with_reducible assumption) | (with_reducible injection e with e e2; subst e)
      | (with_reducible apply ok3_same) | simp only [ok_mk] | with_reducible apply acquire_ok
      | with_reducible apply crossed_ok | (intro _ _ _) | (intro _ _) | (intro _) | split at e | split
  | cons b l ih =>
    unfold State.settleHolds at e
    try dsimp only at e
    repeat' first
      | (with_reducible assumption) | refine ih (by assumption) ?_ | refine ih (Prod.eta _).symm ?_
      | (with_reducible injection e with e e2; subst e) | (with_reducible apply ok3_same) | simp only [ok_mk]
      | with_reducible apply acquire_ok | with_reducible apply crossed_ok | (intro _ _ _) | (intro _ _)
      | (intro _) | split at e | split

theorem dropHolds_ok (s : State) (hs : s.memoryOk = true) :
    (State.dropHolds s).memoryOk = true := by
  unfold State.dropHolds
  try dsimp only
  repeat' first
    | (with_reducible assumption) | (with_reducible apply ok3_same) | simp only [ok_mk]
    | with_reducible apply upd_ok | refine settleHolds_ok (by assumption) ?_
    | refine settleHolds_ok (Prod.eta _).symm ?_ | (intro _ _ _) | (intro _ _) | (intro _) | split

theorem beginPreempt_ok (s : State) (id : Nat) (done : Option (Nat × Nat × Origin)) (hs : s.memoryOk = true) :
    (State.beginPreempt s id done).memoryOk = true := by
  unfold State.beginPreempt
  try dsimp only
  repeat' first
    | (with_reducible assumption) | (with_reducible apply ok3_same) | simp only [ok_mk]
    | with_reducible apply updLaunch_ok | (intro _ _ _) | (intro _ _) | (intro _) | split

theorem abandonStreams_ok (s : State) (sid : Nat) (hs : s.memoryOk = true) :
    (State.abandonStreams s sid).memoryOk = true := by
  unfold State.abandonStreams
  try dsimp only
  repeat' first
    | (with_reducible assumption) | (with_reducible apply ok3_same) | simp only [ok_mk] | (intro _ _ _)
    | (intro _ _) | (intro _) | split

theorem preemptSlot_ok (s : State) (sid : Nat) (hs : s.memoryOk = true) :
    (State.preemptSlot s sid).memoryOk = true := by
  unfold State.preemptSlot
  try dsimp only
  repeat' first
    | (with_reducible assumption) | (with_reducible apply ok3_same) | simp only [ok_mk]
    | with_reducible apply abandonStreams_ok | with_reducible apply abortList_ok
    | with_reducible apply contRegion_ok | with_reducible apply promote_ok | with_reducible apply updLaunch_ok
    | with_reducible apply getD_ok | (intro _ _ _) | (intro _ _) | (intro _) | split

theorem preemptAt_ok (s : State) (raw : Raw) (gin : Word) (lcin : BitVec 3) (hs : s.memoryOk = true) :
    (State.preemptAt s raw gin lcin).memoryOk = true := by
  unfold State.preemptAt
  try dsimp only
  repeat' first
    | (with_reducible assumption) | (with_reducible apply ok3_same) | simp only [ok_mk]
    | with_reducible apply leaveWith_ok | with_reducible apply updLaunch_ok | with_reducible apply getD_ok
    | (intro _ _ _) | (intro _ _) | (intro _) | split

theorem parkEngine_ok (s : State) (va : Word) (hs : s.memoryOk = true) :
    (State.parkEngine s va).memoryOk = true := by
  unfold State.parkEngine
  try dsimp only
  repeat' first
    | (with_reducible assumption) | (with_reducible apply ok3_same) | simp only [ok_mk]
    | with_reducible apply contRegion_ok | with_reducible apply register_ok | (intro _ _ _) | (intro _ _)
    | (intro _) | split

theorem atBreak_ok (s : State) (preempt : Bool) (hs : s.memoryOk = true) :
    (State.atBreak s preempt).memoryOk = true := by
  unfold State.atBreak
  try dsimp only
  repeat' first
    | (with_reducible assumption) | (with_reducible apply ok3_same) | simp only [ok_mk]
    | with_reducible apply beginPreempt_ok | with_reducible apply upd_ok | (intro _ _ _) | (intro _ _)
    | (intro _) | split

theorem refetch_ok {s : State} {pc : Word} {line : Nat} {nx : State} {nv : Nat} (e : State.refetch s pc line =
    (nx, nv)) (hs : s.memoryOk = true) :
    nx.memoryOk = true := by
  unfold State.refetch at e
  try dsimp only at e
  repeat' first
    | (with_reducible assumption) | (with_reducible injection e with e e2; subst e)
    | (with_reducible apply ok3_same) | simp only [ok_mk] | with_reducible apply upd_ok | (intro _ _ _)
    | (intro _ _) | (intro _) | split at e | split

theorem prepareInstr_ok {s : State} {q : Guard} {r : Raw} {i : Instr} {nx : State} {nv : Option Instr} (e
    : State.prepareInstr s q r i = (nx, nv)) (hs : s.memoryOk = true) :
    nx.memoryOk = true := by
  unfold State.prepareInstr at e
  try dsimp only at e
  repeat' first
    | (with_reducible assumption) | (with_reducible injection e with e e2; subst e)
    | (with_reducible apply ok3_same) | simp only [ok_mk] | with_reducible apply preemptAt_ok
    | with_reducible apply retire_ok | with_reducible apply upd_ok | with_reducible apply trap_ok
    | (intro _ _ _) | (intro _ _) | (intro _) | split at e | split

theorem prepareLine_ok {s : State} {line : Nat} {nx : State} {nv : Option Instr} (e : State.prepareLine s line =
    (nx, nv)) (hs : s.memoryOk = true) :
    nx.memoryOk = true := by
  unfold State.prepareLine at e
  try dsimp only at e
  repeat' first
    | (with_reducible assumption) | (with_reducible injection e with e e2; subst e)
    | (with_reducible apply ok3_same) | simp only [ok_mk] | with_reducible apply captureHere_ok
    | with_reducible apply trap_ok | refine prepareInstr_ok (by assumption) ?_
    | refine prepareInstr_ok (Prod.eta _).symm ?_ | refine refetch_ok (by assumption) ?_
    | refine refetch_ok (Prod.eta _).symm ?_ | (intro _ _ _) | (intro _ _) | (intro _) | split at e | split

theorem prepare_ok {s : State} {nx : State} {nv : Option Instr} (e : State.prepare s = (nx, nv)) (hs
    : s.memoryOk = true) :
    nx.memoryOk = true := by
  unfold State.prepare at e
  try dsimp only at e
  repeat' first
    | (with_reducible assumption) | (with_reducible injection e with e e2; subst e)
    | (with_reducible apply ok3_same) | simp only [ok_mk] | with_reducible apply atBreak_ok
    | with_reducible apply dropHolds_ok | with_reducible apply parkEngine_ok
    | with_reducible apply preemptSlot_ok | with_reducible apply upd_ok | with_reducible apply tlbFill_ok
    | with_reducible apply trap_ok | with_reducible apply trapTo_ok | with_reducible apply updCore_ok
    | refine prepareLine_ok (by assumption) ?_ | refine prepareLine_ok (Prod.eta _).symm ?_ | (intro _ _ _)
    | (intro _ _) | (intro _) | split at e | split

theorem rejoin_ok {s : State} {u : State} {nx : State} (e : State.rejoin s u = some nx) (hs : s.memoryOk = true)
    (hu : u.memoryOk = true) :
    nx.memoryOk = true := by
  unfold State.rejoin at e
  try dsimp only at e
  repeat' first
    | (with_reducible assumption) | (with_reducible injection e with e; subst e)
    | (with_reducible injection e; done) | (with_reducible apply ok3_same) | simp only [ok_mk]
    | with_reducible apply updSlot_ok | (intro _ _ _) | (intro _ _) | (intro _) | split at e | split

theorem tick_ok (s : State) (hs : s.memoryOk = true) :
    (State.tick s).memoryOk = true := by
  unfold State.tick
  try dsimp only
  repeat' first
    | (with_reducible assumption) | (with_reducible apply ok3_same) | simp only [ok_mk] | (intro _ _ _)
    | (intro _ _) | (intro _) | split

theorem trapWith_ok (s : State) (t : Trap) (hs : s.memoryOk = true) :
    (State.trapWith s t).memoryOk = true := by
  unfold State.trapWith
  try dsimp only
  repeat' first
    | (with_reducible assumption) | (with_reducible apply ok3_same) | simp only [ok_mk]
    | with_reducible apply trap_ok | (intro _ _ _) | (intro _ _) | (intro _) | split

theorem filled_ok (s : State) (va : Word) (hs : s.memoryOk = true) :
    (State.filled s va).memoryOk = true := by
  unfold State.filled
  try dsimp only
  repeat' first
    | (with_reducible assumption) | (with_reducible apply ok3_same) | simp only [ok_mk]
    | with_reducible apply tlbFill_ok | (intro _ _ _) | (intro _ _) | (intro _) | split

theorem useCode_ok (s : State) (l : List (Loc × Nat)) (nu : Nat) (ro : Bool) (served : Nat → Nat → Bool) (hs
    : s.memoryOk = true) :
    (State.useCode s l nu ro served).memoryOk = true := by
  unfold State.useCode
  try dsimp only
  repeat' first
    | (with_reducible assumption) | (with_reducible apply ok3_same) | simp only [ok_mk]
    | with_reducible apply passCaches_ok | (intro _ _ _) | (intro _ _) | (intro _) | split

theorem specRead_ok {s : State} {id : Nat} {pa : Nat} {n : Nat} {nx : State} {nv : List Byte} (e
    : State.specRead s id pa n = (nx, nv)) (hs : s.memoryOk = true) :
    nx.memoryOk = true := by
  unfold State.specRead at e
  try dsimp only at e
  repeat' first
    | (with_reducible assumption) | (with_reducible injection e with e e2; subst e)
    | (with_reducible apply ok3_same) | simp only [ok_mk] | with_reducible apply readBlock_ok
    | (with_reducible apply foldl_ok) | refine foldl_pair_eq_ok (by assumption) ?_ ?_
    | (with_reducible apply foldl_pair_ok) | dsimp only | (intro _ _ _) | (intro _ _) | (intro _) | split at e
    | split

theorem specLoad_ok (s : State) (e : Entry) (o : LoadOp) (hs : s.memoryOk = true) :
    (State.specLoad s e o).memoryOk = true := by
  unfold State.specLoad
  try dsimp only
  repeat' first
    | (with_reducible assumption) | (with_reducible apply ok3_same) | simp only [ok_mk]
    | with_reducible apply finishLoad_ok | with_reducible apply upd_ok | refine specRead_ok (by assumption) ?_
    | refine specRead_ok (Prod.eta _).symm ?_ | (with_reducible apply foldl_ok)
    | refine foldl_pair_eq_ok (by assumption) ?_ ?_ | (with_reducible apply foldl_pair_ok) | dsimp only
    | (intro _ _ _) | (intro _ _) | (intro _) | split

theorem issueLoad_ok (s : State) (va : Word) (dest : LoadDest) (parts : List Part) (acq : Bool) (ro : Bool) (nu
    : Nat) (hs : s.memoryOk = true) :
    (State.issueLoad s va dest parts acq ro nu).memoryOk = true := by
  unfold State.issueLoad
  try dsimp only
  repeat' first
    | (with_reducible assumption) | (with_reducible apply ok3_same) | simp only [ok_mk]
    | with_reducible apply enqueue_ok | with_reducible apply perform_ok | with_reducible apply retire_ok
    | with_reducible apply stall_ok | with_reducible apply useCode_ok | with_reducible apply waitFirm_ok
    | with_reducible apply upd_ok | with_reducible apply specLoad_ok | (intro _ _ _) | (intro _ _) | (intro _)
    | split

theorem specStore_ok (s : State) (e : Entry) (pieces : List (Word × Piece)) (nu : Nat) (hs : s.memoryOk = true) :
    (State.specStore s e pieces nu).memoryOk = true := by
  unfold State.specStore
  try dsimp only
  repeat' first
    | (with_reducible assumption) | (with_reducible apply ok3_same) | simp only [ok_mk]
    | with_reducible apply retire_ok | with_reducible apply retireSeal_ok | with_reducible apply updEntry_ok
    | with_reducible apply waitFirm_ok | (with_reducible apply foldl_ok)
    | refine foldl_pair_eq_ok (by assumption) ?_ ?_ | (with_reducible apply foldl_pair_ok) | dsimp only
    | (intro _ _ _) | (intro _ _) | (intro _) | split

theorem beginPiece_ok {rel : Bool} {acc : State × List Nat × List Nat} {x : Piece × Nat} {nx : State} {nv
    : List Nat × List Nat} (e : State.beginPiece rel acc x = (nx, nv)) (hacc : acc.1.memoryOk = true) :
    nx.memoryOk = true := by
  unfold State.beginPiece at e
  try dsimp only at e
  repeat' first
    | (with_reducible assumption) | (with_reducible injection e with e e2; subst e)
    | (with_reducible apply ok3_same) | simp only [ok_mk] | with_reducible apply applyPiece_ok
    | with_reducible apply l1Store_ok | (intro _ _ _) | (intro _ _) | (intro _) | split at e | split

theorem sendStore_ok (s : State) (pieces : List (Word × Piece)) (rel : Bool) (c : Ctr) (hs : s.memoryOk = true) :
    (State.sendStore s pieces rel c).memoryOk = true := by
  unfold State.sendStore
  try dsimp only
  repeat' first
    | (with_reducible assumption) | (with_reducible apply ok3_same) | simp only [ok_mk]
    | with_reducible apply enqueue_ok | with_reducible apply perform_ok | with_reducible apply upd_ok
    | refine beginPiece_ok (by assumption) ?_ | refine beginPiece_ok (Prod.eta _).symm ?_
    | (with_reducible apply foldl_ok) | refine foldl_pair_eq_ok (by assumption) ?_ ?_
    | (with_reducible apply foldl_pair_ok) | dsimp only | (intro _ _ _) | (intro _ _) | (intro _) | split

theorem issueStore_ok (s : State) (pieces : List (Word × Piece)) (rel : Bool) (nu : Nat) (hs : s.memoryOk = true) :
    (State.issueStore s pieces rel nu).memoryOk = true := by
  unfold State.issueStore
  try dsimp only
  repeat' first
    | (with_reducible assumption) | (with_reducible apply ok3_same) | simp only [ok_mk]
    | with_reducible apply retire_ok | with_reducible apply retireSeal_ok | with_reducible apply specStore_ok
    | with_reducible apply stall_ok | with_reducible apply useCode_ok | with_reducible apply waitFirm_ok
    | with_reducible apply sendStore_ok | (with_reducible apply foldl_ok)
    | refine foldl_pair_eq_ok (by assumption) ?_ ?_ | (with_reducible apply foldl_pair_ok) | dsimp only
    | (intro _ _ _) | (intro _ _) | (intro _) | split

theorem firmly_ok (s : State) (f : State → State) (hs : s.memoryOk = true) (hf : ∀ t : State, t.memoryOk = true →
    (f t).memoryOk = true) :
    (State.firmly s f).memoryOk = true := by
  unfold State.firmly
  try dsimp only
  repeat' first
    | (with_reducible assumption) | (with_reducible apply ok3_same) | simp only [ok_mk] | apply hf
    | with_reducible apply waitFirm_ok | (intro _ _ _) | (intro _ _) | (intro _) | split

theorem scalarLoad_ok (s : State) (ty : Ty) (a : GReg) (m : Addr) (acq : Bool) (ro : Bool) (hs : s.memoryOk = true) :
    (State.scalarLoad s ty a m acq ro).memoryOk = true := by
  unfold State.scalarLoad
  try dsimp only
  repeat' first
    | (with_reducible assumption) | (with_reducible apply ok3_same) | simp only [ok_mk]
    | with_reducible apply filled_ok | with_reducible apply issueLoad_ok | with_reducible apply trapWith_ok
    | (intro _ _ _) | (intro _ _) | (intro _) | split

theorem scalarStore_ok (s : State) (ty : Ty) (a : GReg) (m : Addr) (rel : Bool) (hs : s.memoryOk = true) :
    (State.scalarStore s ty a m rel).memoryOk = true := by
  unfold State.scalarStore
  try dsimp only
  repeat' first
    | (with_reducible assumption) | (with_reducible apply ok3_same) | simp only [ok_mk]
    | with_reducible apply filled_ok | with_reducible apply issueStore_ok | with_reducible apply trapWith_ok
    | (intro _ _ _) | (intro _ _) | (intro _) | split

theorem setTags_ok (s : State) (c : Nat) (o : Nat) (n : Nat) (full : Bool) (hs : s.memoryOk = true) :
    (State.setTags s c o n full).memoryOk = true := by
  unfold State.setTags
  try dsimp only
  repeat' first
    | (with_reducible assumption) | (with_reducible apply ok3_same) | simp only [ok_mk]
    | with_reducible apply drainWord_ok | with_reducible apply fillWord_ok | (with_reducible apply foldl_ok)
    | refine foldl_pair_eq_ok (by assumption) ?_ ?_ | (with_reducible apply foldl_pair_ok) | dsimp only
    | (intro _ _ _) | (intro _ _) | (intro _) | split

theorem feApply_ok (s : State) (f : FullEmpty) (ty : Ty) (a : GReg) (va : Word) (c : Nat) (o : Nat) (hs
    : s.memoryOk = true) :
    (State.feApply s f ty a va c o).memoryOk = true := by
  unfold State.feApply
  try dsimp only
  repeat' first
    | (with_reducible assumption) | (with_reducible apply ok3_same) | simp only [ok_mk]
    | with_reducible apply scrWrite_ok | with_reducible apply setG_ok | with_reducible apply upd_ok
    | with_reducible apply setTags_ok | (intro _ _ _) | (intro _ _) | (intro _) | split

theorem feSpin_ok (s : State) (f : FullEmpty) (va : Word) (c : Nat) (o : Nat) (word : Nat) (ctr : Ctr) (hs
    : s.memoryOk = true) :
    (State.feSpin s f va c o word ctr).memoryOk = true := by
  unfold State.feSpin
  try dsimp only
  repeat' first
    | (with_reducible assumption) | (with_reducible apply ok3_same) | simp only [ok_mk]
    | with_reducible apply contRegion_ok | with_reducible apply register_ok | with_reducible apply upd_ok
    | (intro _ _ _) | (intro _ _) | (intro _) | split

theorem fullEmpty_ok (s : State) (f : FullEmpty) (ty : Ty) (a : GReg) (m : Addr) (hs : s.memoryOk = true) :
    (State.fullEmpty s f ty a m).memoryOk = true := by
  unfold State.fullEmpty
  try dsimp only
  repeat' first
    | (with_reducible assumption) | (with_reducible apply ok3_same) | simp only [ok_mk]
    | with_reducible apply feApply_ok | with_reducible apply feSpin_ok | with_reducible apply retire_ok
    | with_reducible apply retireSeal_ok | with_reducible apply stall_ok | with_reducible apply trap_ok
    | with_reducible apply trapWith_ok | with_reducible apply waitFirm_ok | (intro _ _ _) | (intro _ _)
    | (intro _) | split

theorem cleanLine_ok (s : State) (cache : Nat) (line : Nat) (hs : s.memoryOk = true) :
    (State.cleanLine s cache line).memoryOk = true := by
  unfold State.cleanLine
  try dsimp only
  repeat' first
    | (with_reducible assumption) | (with_reducible apply ok3_same) | simp only [ok_mk]
    | with_reducible apply flushUpdate_ok | with_reducible apply l2Flush_ok
    | with_reducible apply l2WriteBytes_ok | (with_reducible apply foldl_ok)
    | refine foldl_pair_eq_ok (by assumption) ?_ ?_ | (with_reducible apply foldl_pair_ok) | dsimp only
    | (intro _ _ _) | (intro _ _) | (intro _) | split

theorem dropLine_ok (s : State) (cache : Nat) (line : Nat) (hs : s.memoryOk = true) :
    (State.dropLine s cache line).memoryOk = true := by
  unfold State.dropLine
  try dsimp only
  repeat' first
    | (with_reducible assumption) | (with_reducible apply ok3_same) | simp only [ok_mk]
    | with_reducible apply l1Evict_ok | with_reducible apply putSet_ok | with_reducible apply report_ok
    | (intro _ _ _) | (intro _ _) | (intro _) | split

theorem lineOp_ok (s : State) (m : Addr) (drop : Bool) (hs : s.memoryOk = true) :
    (State.lineOp s m drop).memoryOk = true := by
  unfold State.lineOp
  try dsimp only
  repeat' first
    | (with_reducible assumption) | (with_reducible apply ok3_same) | simp only [ok_mk]
    | with_reducible apply cleanLine_ok | with_reducible apply dropLine_ok | with_reducible apply filled_ok
    | with_reducible apply retire_ok | with_reducible apply stall_ok | with_reducible apply trapWith_ok
    | with_reducible apply waitFirm_ok | (intro _ _ _) | (intro _ _) | (intro _) | split

theorem prefetch_ok (s : State) (m : Addr) (hs : s.memoryOk = true) :
    (State.prefetch s m).memoryOk = true := by
  unfold State.prefetch
  try dsimp only
  repeat' first
    | (with_reducible assumption) | (with_reducible apply ok3_same) | simp only [ok_mk]
    | with_reducible apply failedWalk_ok | with_reducible apply filled_ok | with_reducible apply loadWords_ok
    | with_reducible apply retire_ok | with_reducible apply useCode_ok | (intro _ _ _) | (intro _ _)
    | (intro _) | split

theorem setBarrier_ok (s : State) (c : Nat) (o : Nat) (count : Nat) (hs : s.memoryOk = true) :
    (State.setBarrier s c o count).memoryOk = true := by
  unfold State.setBarrier
  try dsimp only
  repeat' first
    | (with_reducible assumption) | (with_reducible apply ok3_same) | simp only [ok_mk]
    | with_reducible apply scrWrite_ok | with_reducible apply setTags_ok | (intro _ _ _) | (intro _ _)
    | (intro _) | split

theorem barrier_ok (s : State) (a : GReg) (m : Addr) (hs : s.memoryOk = true) :
    (State.barrier s a m).memoryOk = true := by
  unfold State.barrier
  try dsimp only
  repeat' first
    | (with_reducible assumption) | (with_reducible apply ok3_same) | simp only [ok_mk]
    | with_reducible apply retire_ok | with_reducible apply setBarrier_ok | with_reducible apply stall_ok
    | with_reducible apply trap_ok | with_reducible apply trapWith_ok | with_reducible apply waitFirm_ok
    | (intro _ _ _) | (intro _ _) | (intro _) | split

theorem execLd_ok {ty : Ty} {a : GReg} {m : Addr} {s : State} {nx : State} (e : execLd ty a m s = .next nx) (hs
    : s.memoryOk = true) :
    nx.memoryOk = true := by
  unfold execLd at e
  try dsimp only at e
  repeat' first
    | (with_reducible assumption) | (with_reducible injection e with e; subst e)
    | (with_reducible injection e; done) | (with_reducible apply ok3_same) | simp only [ok_mk]
    | with_reducible apply scalarLoad_ok | (intro _ _ _) | (intro _ _) | (intro _) | split at e | split

theorem execLdAcq_ok {ty : Ty} {a : GReg} {m : Addr} {s : State} {nx : State} (e : execLdAcq ty a m s = .next nx)
    (hs : s.memoryOk = true) :
    nx.memoryOk = true := by
  unfold execLdAcq at e
  try dsimp only at e
  repeat' first
    | (with_reducible assumption) | (with_reducible injection e with e; subst e)
    | (with_reducible injection e; done) | (with_reducible apply ok3_same) | simp only [ok_mk]
    | with_reducible apply scalarLoad_ok | (intro _ _ _) | (intro _ _) | (intro _) | split at e | split

theorem execLdc_ok {ty : Ty} {a : GReg} {m : Addr} {s : State} {nx : State} (e : execLdc ty a m s = .next nx) (hs
    : s.memoryOk = true) :
    nx.memoryOk = true := by
  unfold execLdc at e
  try dsimp only at e
  repeat' first
    | (with_reducible assumption) | (with_reducible injection e with e; subst e)
    | (with_reducible injection e; done) | (with_reducible apply ok3_same) | simp only [ok_mk]
    | with_reducible apply scalarLoad_ok | (intro _ _ _) | (intro _ _) | (intro _) | split at e | split

theorem execSt_ok {ty : Ty} {a : GReg} {m : Addr} {s : State} {nx : State} (e : execSt ty a m s = .next nx) (hs
    : s.memoryOk = true) :
    nx.memoryOk = true := by
  unfold execSt at e
  try dsimp only at e
  repeat' first
    | (with_reducible assumption) | (with_reducible injection e with e; subst e)
    | (with_reducible injection e; done) | (with_reducible apply ok3_same) | simp only [ok_mk]
    | with_reducible apply scalarStore_ok | (intro _ _ _) | (intro _ _) | (intro _) | split at e | split

theorem execStRel_ok {ty : Ty} {a : GReg} {m : Addr} {s : State} {nx : State} (e : execStRel ty a m s = .next nx)
    (hs : s.memoryOk = true) :
    nx.memoryOk = true := by
  unfold execStRel at e
  try dsimp only at e
  repeat' first
    | (with_reducible assumption) | (with_reducible injection e with e; subst e)
    | (with_reducible injection e; done) | (with_reducible apply ok3_same) | simp only [ok_mk]
    | with_reducible apply scalarStore_ok | (intro _ _ _) | (intro _ _) | (intro _) | split at e | split

theorem execLdf_ok {ty : Ty} {a : GReg} {m : Addr} {s : State} {nx : State} (e : execLdf ty a m s = .next nx) (hs
    : s.memoryOk = true) :
    nx.memoryOk = true := by
  unfold execLdf at e
  try dsimp only at e
  repeat' first
    | (with_reducible assumption) | (with_reducible injection e with e; subst e)
    | (with_reducible injection e; done) | (with_reducible apply ok3_same) | simp only [ok_mk]
    | with_reducible apply fullEmpty_ok | (intro _ _ _) | (intro _ _) | (intro _) | split at e | split

theorem execLdfe_ok {ty : Ty} {a : GReg} {m : Addr} {s : State} {nx : State} (e : execLdfe ty a m s = .next nx)
    (hs : s.memoryOk = true) :
    nx.memoryOk = true := by
  unfold execLdfe at e
  try dsimp only at e
  repeat' first
    | (with_reducible assumption) | (with_reducible injection e with e; subst e)
    | (with_reducible injection e; done) | (with_reducible apply ok3_same) | simp only [ok_mk]
    | with_reducible apply fullEmpty_ok | (intro _ _ _) | (intro _ _) | (intro _) | split at e | split

theorem execStef_ok {ty : Ty} {a : GReg} {m : Addr} {s : State} {nx : State} (e : execStef ty a m s = .next nx)
    (hs : s.memoryOk = true) :
    nx.memoryOk = true := by
  unfold execStef at e
  try dsimp only at e
  repeat' first
    | (with_reducible assumption) | (with_reducible injection e with e; subst e)
    | (with_reducible injection e; done) | (with_reducible apply ok3_same) | simp only [ok_mk]
    | with_reducible apply fullEmpty_ok | (intro _ _ _) | (intro _ _) | (intro _) | split at e | split

theorem execStff_ok {ty : Ty} {a : GReg} {m : Addr} {s : State} {nx : State} (e : execStff ty a m s = .next nx)
    (hs : s.memoryOk = true) :
    nx.memoryOk = true := by
  unfold execStff at e
  try dsimp only at e
  repeat' first
    | (with_reducible assumption) | (with_reducible injection e with e; subst e)
    | (with_reducible injection e; done) | (with_reducible apply ok3_same) | simp only [ok_mk]
    | with_reducible apply fullEmpty_ok | (intro _ _ _) | (intro _ _) | (intro _) | split at e | split

theorem execPf_ok {m : Addr} {s : State} {nx : State} (e : execPf m s = .next nx) (hs : s.memoryOk = true) :
    nx.memoryOk = true := by
  unfold execPf at e
  try dsimp only at e
  repeat' first
    | (with_reducible assumption) | (with_reducible injection e with e; subst e)
    | (with_reducible injection e; done) | (with_reducible apply ok3_same) | simp only [ok_mk]
    | with_reducible apply prefetch_ok | (intro _ _ _) | (intro _ _) | (intro _) | split at e | split

theorem execCln_ok {m : Addr} {s : State} {nx : State} (e : execCln m s = .next nx) (hs : s.memoryOk = true) :
    nx.memoryOk = true := by
  unfold execCln at e
  try dsimp only at e
  repeat' first
    | (with_reducible assumption) | (with_reducible injection e with e; subst e)
    | (with_reducible injection e; done) | (with_reducible apply ok3_same) | simp only [ok_mk]
    | with_reducible apply lineOp_ok | (intro _ _ _) | (intro _ _) | (intro _) | split at e | split

theorem execInv_ok {m : Addr} {s : State} {nx : State} (e : execInv m s = .next nx) (hs : s.memoryOk = true) :
    nx.memoryOk = true := by
  unfold execInv at e
  try dsimp only at e
  repeat' first
    | (with_reducible assumption) | (with_reducible injection e with e; subst e)
    | (with_reducible injection e; done) | (with_reducible apply ok3_same) | simp only [ok_mk]
    | with_reducible apply lineOp_ok | (intro _ _ _) | (intro _ _) | (intro _) | split at e | split

theorem execLdbd_ok {a : GReg} {m : Addr} {s : State} {nx : State} (e : execLdbd a m s = .next nx) (hs
    : s.memoryOk = true) :
    nx.memoryOk = true := by
  unfold execLdbd at e
  try dsimp only at e
  repeat' first
    | (with_reducible assumption) | (with_reducible injection e with e; subst e)
    | (with_reducible injection e; done) | (with_reducible apply ok3_same) | simp only [ok_mk]
    | with_reducible apply filled_ok | with_reducible apply issueLoad_ok | with_reducible apply trapWith_ok
    | (intro _ _ _) | (intro _ _) | (intro _) | split at e | split

theorem execStbd_ok {a : GReg} {m : Addr} {s : State} {nx : State} (e : execStbd a m s = .next nx) (hs
    : s.memoryOk = true) :
    nx.memoryOk = true := by
  unfold execStbd at e
  try dsimp only at e
  repeat' first
    | (with_reducible assumption) | (with_reducible injection e with e; subst e)
    | (with_reducible injection e; done) | (with_reducible apply ok3_same) | simp only [ok_mk]
    | with_reducible apply filled_ok | with_reducible apply issueStore_ok | with_reducible apply trap_ok
    | with_reducible apply trapWith_ok | (intro _ _ _) | (intro _ _) | (intro _) | split at e | split

theorem execBbar_ok {a : GReg} {m : Addr} {s : State} {nx : State} (e : execBbar a m s = .next nx) (hs
    : s.memoryOk = true) :
    nx.memoryOk = true := by
  unfold execBbar at e
  try dsimp only at e
  repeat' first
    | (with_reducible assumption) | (with_reducible injection e with e; subst e)
    | (with_reducible injection e; done) | (with_reducible apply ok3_same) | simp only [ok_mk]
    | with_reducible apply barrier_ok | (intro _ _ _) | (intro _ _) | (intro _) | split at e | split

theorem sendCounted_ok (s : State) (c : Ctr) (m : Msg) (now : Bool) (hs : s.memoryOk = true) :
    (State.sendCounted s c m now).memoryOk = true := by
  unfold State.sendCounted
  try dsimp only
  repeat' first
    | (with_reducible assumption) | (with_reducible apply ok3_same) | simp only [ok_mk]
    | with_reducible apply enqueue_ok | with_reducible apply perform_ok | with_reducible apply upd_ok
    | (intro _ _ _) | (intro _ _) | (intro _) | split

theorem atomic_ok (s : State) (op : AmoOp) (ord : Ord4) (ty : Ty) (a : GReg) (m : Addr) (x : GReg) (hs
    : s.memoryOk = true) :
    (State.atomic s op ord ty a m x).memoryOk = true := by
  unfold State.atomic
  try dsimp only
  repeat' first
    | (with_reducible assumption) | (with_reducible apply ok3_same) | simp only [ok_mk]
    | with_reducible apply filled_ok | with_reducible apply retireSeal_ok | with_reducible apply stall_ok
    | with_reducible apply trapWith_ok | with_reducible apply waitFirm_ok | with_reducible apply upd_ok
    | with_reducible apply sendCounted_ok | with_reducible apply useCode_ok | (intro _ _ _) | (intro _ _)
    | (intro _) | split

theorem combineHere_ok {s : State} {pa : Nat} {op : RedOp} {ty : Ty} {x : Nat} {nx : State} {nv : Bool} (e
    : State.combineHere s pa op ty x = (nx, nv)) (hs : s.memoryOk = true) :
    nx.memoryOk = true := by
  unfold State.combineHere at e
  try dsimp only at e
  repeat' first
    | (with_reducible assumption) | (with_reducible injection e with e e2; subst e)
    | (with_reducible apply ok3_same) | simp only [ok_mk] | with_reducible apply makeUpdate_ok
    | with_reducible apply preWrite_ok | with_reducible apply redOwned_ok | with_reducible apply redPartial_ok
    | (intro _ _ _) | (intro _ _) | (intro _) | split at e | split

theorem reduce_ok (s : State) (op : RedOp) (rel : Bool) (ty : Ty) (a : GReg) (m : Addr) (hs : s.memoryOk = true) :
    (State.reduce s op rel ty a m).memoryOk = true := by
  unfold State.reduce
  try dsimp only
  repeat' first
    | (with_reducible assumption) | (with_reducible apply ok3_same) | simp only [ok_mk]
    | with_reducible apply filled_ok | with_reducible apply retireSeal_ok | with_reducible apply stall_ok
    | with_reducible apply trapWith_ok | with_reducible apply waitFirm_ok
    | with_reducible apply sendCounted_ok | with_reducible apply useCode_ok
    | refine combineHere_ok (by assumption) ?_ | refine combineHere_ok (Prod.eta _).symm ?_ | (intro _ _ _)
    | (intro _ _) | (intro _) | split

theorem exactCell_ok (s : State) (rel : Bool) (arg : (BitVec 64 × BitVec 16) ⊕ Nat) (m : Addr) (hs
    : s.memoryOk = true) :
    (State.exactCell s rel arg m).memoryOk = true := by
  unfold State.exactCell
  try dsimp only
  repeat' first
    | (with_reducible assumption) | (with_reducible apply ok3_same) | simp only [ok_mk]
    | with_reducible apply filled_ok | with_reducible apply retireSeal_ok | with_reducible apply stall_ok
    | with_reducible apply trapWith_ok | with_reducible apply waitFirm_ok
    | with_reducible apply sendCounted_ok | with_reducible apply useCode_ok | (intro _ _ _) | (intro _ _)
    | (intro _) | split

theorem execAmo_ok {op : AmoOp} {ord : Ord4} {ty : Ty} {a : GReg} {m : Addr} {x : GReg} {s : State} {nx : State}
    (e : execAmo op ord ty a m x s = .next nx) (hs : s.memoryOk = true) :
    nx.memoryOk = true := by
  unfold execAmo at e
  try dsimp only at e
  repeat' first
    | (with_reducible assumption) | (with_reducible injection e with e; subst e)
    | (with_reducible injection e; done) | (with_reducible apply ok3_same) | simp only [ok_mk]
    | with_reducible apply atomic_ok | (intro _ _ _) | (intro _ _) | (intro _) | split at e | split

theorem execRed_ok {op : RedOp} {rel : Bool} {ty : Ty} {a : GReg} {m : Addr} {s : State} {nx : State} (e
    : execRed op rel ty a m s = .next nx) (hs : s.memoryOk = true) :
    nx.memoryOk = true := by
  unfold execRed at e
  try dsimp only at e
  repeat' first
    | (with_reducible assumption) | (with_reducible injection e with e; subst e)
    | (with_reducible injection e; done) | (with_reducible apply ok3_same) | simp only [ok_mk]
    | with_reducible apply reduce_ok | (intro _ _ _) | (intro _ _) | (intro _) | split at e | split

theorem execRedXs_ok {rel : Bool} {a : GReg} {m : Addr} {x : GReg} {s : State} {nx : State} (e
    : execRedXs rel a m x s = .next nx) (hs : s.memoryOk = true) :
    nx.memoryOk = true := by
  unfold execRedXs at e
  try dsimp only at e
  repeat' first
    | (with_reducible assumption) | (with_reducible injection e with e; subst e)
    | (with_reducible injection e; done) | (with_reducible apply ok3_same) | simp only [ok_mk]
    | with_reducible apply exactCell_ok | (intro _ _ _) | (intro _ _) | (intro _) | split at e | split

theorem execRedXcvt_ok {rel : Bool} {a : GReg} {m : Addr} {s : State} {nx : State} (e
    : execRedXcvt rel a m s = .next nx) (hs : s.memoryOk = true) :
    nx.memoryOk = true := by
  unfold execRedXcvt at e
  try dsimp only at e
  repeat' first
    | (with_reducible assumption) | (with_reducible injection e with e; subst e)
    | (with_reducible injection e; done) | (with_reducible apply ok3_same) | simp only [ok_mk]
    | with_reducible apply exactCell_ok | (intro _ _ _) | (intro _ _) | (intro _) | split at e | split

theorem loadBlocks_ok (s : State) (ty : Ty) (a : Sys2Proof.VReg) (m : Addr) (mask : LaneMask) (hs
    : s.memoryOk = true) :
    (State.loadBlocks s ty a m mask).memoryOk = true := by
  unfold State.loadBlocks
  try dsimp only
  repeat' first
    | (with_reducible assumption) | (with_reducible apply ok3_same) | simp only [ok_mk]
    | with_reducible apply filled_ok | with_reducible apply issueLoad_ok | with_reducible apply retire_ok
    | with_reducible apply trap_ok | with_reducible apply trapWith_ok | (intro _ _ _) | (intro _ _)
    | (intro _) | split

theorem seenByte_ok {s : State} {l : Loc} {nx : State} {nv : Byte} (e : State.seenByte s l = (nx, nv)) (hs
    : s.memoryOk = true) :
    nx.memoryOk = true := by
  unfold State.seenByte at e
  try dsimp only at e
  repeat' first
    | (with_reducible assumption) | (with_reducible injection e with e e2; subst e)
    | (with_reducible apply ok3_same) | simp only [ok_mk] | refine specRead_ok (by assumption) ?_
    | refine specRead_ok (Prod.eta _).symm ?_ | (intro _ _ _) | (intro _ _) | (intro _) | split at e | split

theorem readsWait_ok {s : State} {ls : List Loc} {nx : State} (e : State.readsWait s ls = some nx) (hs
    : s.memoryOk = true) :
    nx.memoryOk = true := by
  unfold State.readsWait at e
  try dsimp only at e
  repeat' first
    | (with_reducible assumption) | (with_reducible injection e with e; subst e)
    | (with_reducible injection e; done) | (with_reducible apply ok3_same) | simp only [ok_mk]
    | with_reducible apply stall_ok | with_reducible apply waitFirm_ok | refine map_ok e ?_ | (intro _ _ _)
    | (intro _ _) | (intro _) | split at e | split

theorem partPieces_ok {s : State} {ty : Ty} {mask : LaneMask} {bits : BitVec 1024} {v : Machine.VReg} {b : Nat} {l
    : Loc} {nx : State} {nv : List (Nat × Piece)} (e : State.partPieces s ty mask bits v b l = (nx, nv)) (hs
        : s.memoryOk = true) :
    nx.memoryOk = true := by
  unfold State.partPieces at e
  try dsimp only at e
  repeat' first
    | (with_reducible assumption) | (with_reducible injection e with e e2; subst e)
    | (with_reducible apply ok3_same) | simp only [ok_mk] | refine seenByte_ok (by assumption) ?_
    | refine seenByte_ok (Prod.eta _).symm ?_ | (with_reducible apply foldl_ok)
    | refine foldl_pair_eq_ok (by assumption) ?_ ?_ | (with_reducible apply foldl_pair_ok) | dsimp only
    | (intro _ _ _) | (intro _ _) | (intro _) | split at e | split

theorem storeBlocks_ok (s : State) (ty : Ty) (a : Sys2Proof.VReg) (m : Addr) (mask : LaneMask) (hs
    : s.memoryOk = true) :
    (State.storeBlocks s ty a m mask).memoryOk = true := by
  unfold State.storeBlocks
  try dsimp only
  repeat' first
    | (with_reducible assumption) | (with_reducible apply ok3_same) | simp only [ok_mk]
    | with_reducible apply filled_ok | with_reducible apply issueStore_ok | with_reducible apply retire_ok
    | with_reducible apply trap_ok | with_reducible apply trapWith_ok
    | refine partPieces_ok (by assumption) ?_ | refine partPieces_ok (Prod.eta _).symm ?_
    | refine readsWait_ok (by assumption) ?_ | (with_reducible apply foldl_ok)
    | refine foldl_pair_eq_ok (by assumption) ?_ ?_ | (with_reducible apply foldl_pair_ok) | dsimp only
    | (intro _ _ _) | (intro _ _) | (intro _) | split

theorem fillAll_ok (s : State) (l : List (Nat × Word × Loc)) (hs : s.memoryOk = true) :
    (State.fillAll s l).memoryOk = true := by
  unfold State.fillAll
  try dsimp only
  repeat' first
    | (with_reducible assumption) | (with_reducible apply ok3_same) | simp only [ok_mk]
    | with_reducible apply filled_ok | (with_reducible apply foldl_ok)
    | refine foldl_pair_eq_ok (by assumption) ?_ ?_ | (with_reducible apply foldl_pair_ok) | dsimp only
    | (intro _ _ _) | (intro _ _) | (intro _) | split

theorem loadElements_ok (s : State) (ty : Ty) (a : Sys2Proof.VReg) (addrs : List (Nat × Word)) (nu : Nat) (hs
    : s.memoryOk = true) :
    (State.loadElements s ty a addrs nu).memoryOk = true := by
  unfold State.loadElements
  try dsimp only
  repeat' first
    | (with_reducible assumption) | (with_reducible apply ok3_same) | simp only [ok_mk]
    | with_reducible apply fillAll_ok | with_reducible apply issueLoad_ok | with_reducible apply retire_ok
    | with_reducible apply trapWith_ok | with_reducible apply getD_ok | (intro _ _ _) | (intro _ _)
    | (intro _) | split

theorem storeElements_ok (s : State) (ty : Ty) (a : Sys2Proof.VReg) (addrs : List (Nat × Word)) (nu : Nat) (hs
    : s.memoryOk = true) :
    (State.storeElements s ty a addrs nu).memoryOk = true := by
  unfold State.storeElements
  try dsimp only
  repeat' first
    | (with_reducible assumption) | (with_reducible apply ok3_same) | simp only [ok_mk]
    | with_reducible apply fillAll_ok | with_reducible apply issueStore_ok | with_reducible apply retire_ok
    | with_reducible apply trapWith_ok | (intro _ _ _) | (intro _ _) | (intro _) | split

theorem execLdv_ok {ty : Ty} {a : Sys2Proof.VReg} {m : Addr} {mask : LaneMask} {s : State} {nx : State} (e
    : execLdv ty a m mask s = .next nx) (hs : s.memoryOk = true) :
    nx.memoryOk = true := by
  unfold execLdv at e
  try dsimp only at e
  repeat' first
    | (with_reducible assumption) | (with_reducible injection e with e; subst e)
    | (with_reducible injection e; done) | (with_reducible apply ok3_same) | simp only [ok_mk]
    | with_reducible apply loadBlocks_ok | (intro _ _ _) | (intro _ _) | (intro _) | split at e | split

theorem execStv_ok {ty : Ty} {a : Sys2Proof.VReg} {m : Addr} {mask : LaneMask} {s : State} {nx : State} (e
    : execStv ty a m mask s = .next nx) (hs : s.memoryOk = true) :
    nx.memoryOk = true := by
  unfold execStv at e
  try dsimp only at e
  repeat' first
    | (with_reducible assumption) | (with_reducible injection e with e; subst e)
    | (with_reducible injection e; done) | (with_reducible apply ok3_same) | simp only [ok_mk]
    | with_reducible apply storeBlocks_ok | (intro _ _ _) | (intro _ _) | (intro _) | split at e | split

theorem execLdvs_ok {ty : Ty} {a : Sys2Proof.VReg} {m : BaseAddr} {c : GReg} {mask : LaneMask} {s : State} {nx
    : State} (e : execLdvs ty a m c mask s = .next nx) (hs : s.memoryOk = true) :
    nx.memoryOk = true := by
  unfold execLdvs at e
  try dsimp only at e
  repeat' first
    | (with_reducible assumption) | (with_reducible injection e with e; subst e)
    | (with_reducible injection e; done) | (with_reducible apply ok3_same) | simp only [ok_mk]
    | with_reducible apply loadElements_ok | (intro _ _ _) | (intro _ _) | (intro _) | split at e | split

theorem execStvs_ok {ty : Ty} {a : Sys2Proof.VReg} {m : BaseAddr} {c : GReg} {mask : LaneMask} {s : State} {nx
    : State} (e : execStvs ty a m c mask s = .next nx) (hs : s.memoryOk = true) :
    nx.memoryOk = true := by
  unfold execStvs at e
  try dsimp only at e
  repeat' first
    | (with_reducible assumption) | (with_reducible injection e with e; subst e)
    | (with_reducible injection e; done) | (with_reducible apply ok3_same) | simp only [ok_mk]
    | with_reducible apply storeElements_ok | (intro _ _ _) | (intro _ _) | (intro _) | split at e | split

theorem execLdvx_ok {ty : Ty} {a : Sys2Proof.VReg} {m : BaseAddr} {c : Sys2Proof.VReg} {ix64 : Bool} {mask
    : LaneMask} {s : State} {nx : State} (e : execLdvx ty a m c ix64 mask s = .next nx) (hs : s.memoryOk = true) :
    nx.memoryOk = true := by
  unfold execLdvx at e
  try dsimp only at e
  repeat' first
    | (with_reducible assumption) | (with_reducible injection e with e; subst e)
    | (with_reducible injection e; done) | (with_reducible apply ok3_same) | simp only [ok_mk]
    | with_reducible apply loadElements_ok | with_reducible apply trapWith_ok | (intro _ _ _) | (intro _ _)
    | (intro _) | split at e | split

theorem execStvx_ok {ty : Ty} {a : Sys2Proof.VReg} {m : BaseAddr} {c : Sys2Proof.VReg} {ix64 : Bool} {mask
    : LaneMask} {s : State} {nx : State} (e : execStvx ty a m c ix64 mask s = .next nx) (hs : s.memoryOk = true) :
    nx.memoryOk = true := by
  unfold execStvx at e
  try dsimp only at e
  repeat' first
    | (with_reducible assumption) | (with_reducible injection e with e; subst e)
    | (with_reducible injection e; done) | (with_reducible apply ok3_same) | simp only [ok_mk]
    | with_reducible apply storeElements_ok | with_reducible apply trapWith_ok | (intro _ _ _) | (intro _ _)
    | (intro _) | split at e | split

end Sys2Proof.Laws
end

