-- ==== Sys2Proof/Laws/KeepsUnits.lean ====
section
/-! SUPPORT. The canonical form of the memories is kept by every operation of Machine/System.lean,
Machine/Task.lean, Machine/Larkspur.lean, Machine/Phlox.lean, Machine/ScalarInt.lean, Machine/ScalarFloat.lean,
Machine/Vector.lean, Machine/Matrix.lean, Machine/Control.lean, Machine/Reuse.lean. -/

set_option linter.all false

namespace Sys2Proof.Laws

open Sys2Proof.Machine Sys2Proof.Machine.State

theorem trapNext_ok (s : State) (c : Nat) (v : Word) (hs : s.memoryOk = true) :
    (State.trapNext s c v).memoryOk = true := by
  unfold State.trapNext
  try dsimp only
  repeat' first
    | (with_reducible assumption) | (with_reducible apply ok3_same) | simp only [ok_mk]
    | with_reducible apply countIns_ok | with_reducible apply trapTo_ok | (intro _ _ _) | (intro _ _)
    | (intro _) | split

theorem fenceWith_ok (s : State) (l : List Hold) (hs : s.memoryOk = true) :
    (State.fenceWith s l).memoryOk = true := by
  unfold State.fenceWith
  try dsimp only
  repeat' first
    | (with_reducible assumption) | (with_reducible apply ok3_same) | simp only [ok_mk]
    | with_reducible apply dropHolds_ok | with_reducible apply retire_ok | with_reducible apply upd_ok
    | (intro _ _ _) | (intro _ _) | (intro _) | split

theorem suspend_ok (s : State) (kind : Nat) (a : Word) (hs : s.memoryOk = true) :
    (State.suspend s kind a).memoryOk = true := by
  unfold State.suspend
  try dsimp only
  repeat' first
    | (with_reducible assumption) | (with_reducible apply ok3_same) | simp only [ok_mk]
    | with_reducible apply filled_ok | with_reducible apply illegal_ok | with_reducible apply post_ok
    | with_reducible apply stall_ok | with_reducible apply trap_ok | with_reducible apply trapWith_ok
    | with_reducible apply waitFirm_ok | (intro _ _ _) | (intro _ _) | (intro _) | split

theorem finish_ok (s : State) (hs : s.memoryOk = true) :
    (State.finish s).memoryOk = true := by
  unfold State.finish
  try dsimp only
  repeat' first
    | (with_reducible assumption) | (with_reducible apply ok3_same) | simp only [ok_mk]
    | with_reducible apply freeAlloc_ok | with_reducible apply freePool_ok | with_reducible apply hold_ok
    | with_reducible apply holdRecord_ok | with_reducible apply releaseSlot_ok
    | with_reducible apply releaseWork_ok | refine arriveParent_ok (by assumption) ?_
    | refine finishEntry_ok (by assumption) ?_ | refine writeRecord_ok (by assumption) ?_ | (intro _ _ _)
    | (intro _ _) | (intro _) | split

theorem csrWrite_ok (s : State) (a : Nat) (n : Nat) (f : Word → Word) (hs : s.memoryOk = true) :
    (State.csrWrite s a n f).memoryOk = true := by
  unfold State.csrWrite
  try dsimp only
  repeat' first
    | (with_reducible assumption) | (with_reducible apply ok3_same) | simp only [ok_mk]
    | with_reducible apply illegal_ok | with_reducible apply retire_ok | with_reducible apply trap_ok
    | with_reducible apply upd_ok | with_reducible apply setG_ok | (intro _ _ _) | (intro _ _) | (intro _)
    | split

theorem initCell_ok (s : State) (a : Word) (x : Nat) (hs : s.memoryOk = true) :
    (State.initCell s a x).memoryOk = true := by
  unfold State.initCell
  try dsimp only
  repeat' first
    | (with_reducible assumption) | (with_reducible apply ok3_same) | simp only [ok_mk]
    | with_reducible apply filled_ok | with_reducible apply preWrite_ok | with_reducible apply renew_ok
    | with_reducible apply retireSeal_ok | with_reducible apply stall_ok | with_reducible apply trapWith_ok
    | with_reducible apply waitFirm_ok | with_reducible apply setCell_ok | (intro _ _ _) | (intro _ _)
    | (intro _) | split

theorem arriveAt_ok (s : State) (a : Word) (n : Nat) (hs : s.memoryOk = true) :
    (State.arriveAt s a n).memoryOk = true := by
  unfold State.arriveAt
  try dsimp only
  repeat' first
    | (with_reducible assumption) | (with_reducible apply ok3_same) | simp only [ok_mk]
    | with_reducible apply filled_ok | with_reducible apply post_ok | with_reducible apply retireSeal_ok
    | with_reducible apply trapWith_ok | with_reducible apply waitFirm_ok | (intro _ _ _) | (intro _ _)
    | (intro _) | split

theorem headHere_ok {s : State} {pa : Nat} {nx : State} {nv : Head} (e : State.headHere s pa = (nx, nv)) (hs
    : s.memoryOk = true) :
    nx.memoryOk = true := by
  unfold State.headHere at e
  try dsimp only at e
  repeat' first
    | (with_reducible assumption) | (with_reducible injection e with e e2; subst e)
    | (with_reducible apply ok3_same) | simp only [ok_mk] | with_reducible apply settleRange_ok
    | refine specRead_ok (by assumption) ?_ | refine specRead_ok (Prod.eta _).symm ?_ | (intro _ _ _)
    | (intro _ _) | (intro _) | split at e | split

theorem withHead_ok (s : State) (b : Word) (f : Head → State → State) (hs : s.memoryOk = true) (hf : ∀ b (t
    : State), t.memoryOk = true → (f b t).memoryOk = true) :
    (State.withHead s b f).memoryOk = true := by
  unfold State.withHead
  try dsimp only
  repeat' first
    | (with_reducible assumption) | (with_reducible apply ok3_same) | simp only [ok_mk] | apply hf
    | with_reducible apply stall_ok | with_reducible apply trapWith_ok | with_reducible apply waitFirm_ok
    | refine headHere_ok (by assumption) ?_ | refine headHere_ok (Prod.eta _).symm ?_ | (intro _ _ _)
    | (intro _ _) | (intro _) | split

theorem sendPlacement_ok (s : State) (p : Placement) (hs : s.memoryOk = true) :
    (State.sendPlacement s p).memoryOk = true := by
  unfold State.sendPlacement
  try dsimp only
  repeat' first
    | (with_reducible assumption) | (with_reducible apply ok3_same) | simp only [ok_mk]
    | with_reducible apply post_ok | with_reducible apply retireSeal_ok | with_reducible apply updEntry_ok
    | (intro _ _ _) | (intro _ _) | (intro _) | split

theorem spawnTask_ok (s : State) (a : GReg) (b : GReg) (c : GReg) (timed : Bool) (hs : s.memoryOk = true) :
    (State.spawnTask s a b c timed).memoryOk = true := by
  unfold State.spawnTask
  try dsimp only
  repeat' first
    | (with_reducible assumption) | (with_reducible apply ok3_same) | simp only [ok_mk]
    | with_reducible apply filled_ok | with_reducible apply trap_ok | with_reducible apply trapWith_ok
    | with_reducible apply withHead_ok | with_reducible apply sendPlacement_ok | (intro _ _ _) | (intro _ _)
    | (intro _) | split

theorem sendMessage_ok (s : State) (a : GReg) (b : GReg) (c : GReg) (pay : List Word) (hs : s.memoryOk = true) :
    (State.sendMessage s a b c pay).memoryOk = true := by
  unfold State.sendMessage
  try dsimp only
  repeat' first
    | (with_reducible assumption) | (with_reducible apply ok3_same) | simp only [ok_mk]
    | with_reducible apply filled_ok | with_reducible apply trapWith_ok | with_reducible apply withHead_ok
    | with_reducible apply sendPlacement_ok | (intro _ _ _) | (intro _ _) | (intro _) | split

theorem spinOrPark_ok (s : State) (kind : Nat) (wa : Word) (key : Nat) (hs : s.memoryOk = true) :
    (State.spinOrPark s kind wa key).memoryOk = true := by
  unfold State.spinOrPark
  try dsimp only
  repeat' first
    | (with_reducible assumption) | (with_reducible apply ok3_same) | simp only [ok_mk]
    | with_reducible apply contRegion_ok | with_reducible apply register_ok | with_reducible apply upd_ok
    | (intro _ _ _) | (intro _ _) | (intro _) | split

theorem giveResult_ok (s : State) (w : List RegWrite) (acq : Bool) (hs : s.memoryOk = true) :
    (State.giveResult s w acq).memoryOk = true := by
  unfold State.giveResult
  try dsimp only
  repeat' first
    | (with_reducible assumption) | (with_reducible apply ok3_same) | simp only [ok_mk]
    | with_reducible apply acquire_ok | with_reducible apply enqueue_ok | with_reducible apply upd_ok
    | (intro _ _ _) | (intro _ _) | (intro _) | split

theorem joinTeam_ok (s : State) (a : GReg) (id : Nat) (hs : s.memoryOk = true) :
    (State.joinTeam s a id).memoryOk = true := by
  unfold State.joinTeam
  try dsimp only
  repeat' first
    | (with_reducible assumption) | (with_reducible apply ok3_same) | simp only [ok_mk]
    | with_reducible apply retireSeal_ok | with_reducible apply setG_ok | with_reducible apply updCluster_ok
    | with_reducible apply upd_ok | (intro _ _ _) | (intro _ _) | (intro _) | split

theorem withQueue_ok (s : State) (q : Nat) (f : List Word → State) (hs : s.memoryOk = true) (hf : ∀ b,
    (f b).memoryOk = true) :
    (State.withQueue s q f).memoryOk = true := by
  unfold State.withQueue
  try dsimp only
  repeat' first
    | (with_reducible assumption) | (with_reducible apply ok3_same) | simp only [ok_mk] | apply hf
    | with_reducible apply stall_ok | with_reducible apply trapWith_ok | (intro _ _ _) | (intro _ _)
    | (intro _) | split

theorem abortEntry_ok (s : State) (pkg : Nat) (id : Nat) (hs : s.memoryOk = true) :
    (State.abortEntry s pkg id).memoryOk = true := by
  unfold State.abortEntry
  try dsimp only
  repeat' first
    | (with_reducible assumption) | (with_reducible apply ok3_same) | simp only [ok_mk]
    | with_reducible apply abortList_ok | with_reducible apply updEntry_ok | (intro _ _ _) | (intro _ _)
    | (intro _) | split

theorem abortSelf_ok (s : State) (hs : s.memoryOk = true) :
    (State.abortSelf s).memoryOk = true := by
  unfold State.abortSelf
  try dsimp only
  repeat' first
    | (with_reducible assumption) | (with_reducible apply ok3_same) | simp only [ok_mk]
    | with_reducible apply abortEntry_ok | with_reducible apply countIns_ok | with_reducible apply illegal_ok
    | with_reducible apply markSealed_ok | with_reducible apply promote_ok | (intro _ _ _) | (intro _ _)
    | (intro _) | split

theorem abortRecord_ok (s : State) (a : GReg) (r : Word) (hs : s.memoryOk = true) :
    (State.abortRecord s a r).memoryOk = true := by
  unfold State.abortRecord
  try dsimp only
  repeat' first
    | (with_reducible assumption) | (with_reducible apply ok3_same) | simp only [ok_mk]
    | with_reducible apply abortList_ok | with_reducible apply abortSelf_ok
    | with_reducible apply giveResult_ok | with_reducible apply retireSeal_ok | with_reducible apply trap_ok
    | (intro _ _ _) | (intro _ _) | (intro _) | split

theorem execJinit_ok {b : GReg} {c : GReg} {n : BitVec 32} {s : State} {nx : State} (e
    : execJinit b c n s = .next nx) (hs : s.memoryOk = true) :
    nx.memoryOk = true := by
  unfold execJinit at e
  try dsimp only at e
  repeat' first
    | (with_reducible assumption) | (with_reducible injection e with e; subst e)
    | (with_reducible injection e; done) | (with_reducible apply ok3_same) | simp only [ok_mk]
    | with_reducible apply initCell_ok | (intro _ _ _) | (intro _ _) | (intro _) | split at e | split

theorem execArr_ok {b : GReg} {n : BitVec 32} {s : State} {nx : State} (e : execArr b n s = .next nx) (hs
    : s.memoryOk = true) :
    nx.memoryOk = true := by
  unfold execArr at e
  try dsimp only at e
  repeat' first
    | (with_reducible assumption) | (with_reducible injection e with e; subst e)
    | (with_reducible injection e; done) | (with_reducible apply ok3_same) | simp only [ok_mk]
    | with_reducible apply arriveAt_ok | (intro _ _ _) | (intro _ _) | (intro _) | split at e | split

theorem execSpawn_ok {a : GReg} {b : GReg} {c : GReg} {s : State} {nx : State} (e : execSpawn a b c s = .next nx)
    (hs : s.memoryOk = true) :
    nx.memoryOk = true := by
  unfold execSpawn at e
  try dsimp only at e
  repeat' first
    | (with_reducible assumption) | (with_reducible injection e with e; subst e)
    | (with_reducible injection e; done) | (with_reducible apply ok3_same) | simp only [ok_mk]
    | with_reducible apply spawnTask_ok | (intro _ _ _) | (intro _ _) | (intro _) | split at e | split

theorem execSpawnt_ok {a : GReg} {b : GReg} {c : GReg} {s : State} {nx : State} (e
    : execSpawnt a b c s = .next nx) (hs : s.memoryOk = true) :
    nx.memoryOk = true := by
  unfold execSpawnt at e
  try dsimp only at e
  repeat' first
    | (with_reducible assumption) | (with_reducible injection e with e; subst e)
    | (with_reducible injection e; done) | (with_reducible apply ok3_same) | simp only [ok_mk]
    | with_reducible apply spawnTask_ok | (intro _ _ _) | (intro _ _) | (intro _) | split at e | split

theorem execSend_ok {a : GReg} {b : GReg} {c : GReg} {d : GReg} {s : State} {nx : State} (e
    : execSend a b c d s = .next nx) (hs : s.memoryOk = true) :
    nx.memoryOk = true := by
  unfold execSend at e
  try dsimp only at e
  repeat' first
    | (with_reducible assumption) | (with_reducible injection e with e; subst e)
    | (with_reducible injection e; done) | (with_reducible apply ok3_same) | simp only [ok_mk]
    | with_reducible apply sendMessage_ok | (intro _ _ _) | (intro _ _) | (intro _) | split at e | split

theorem execSendv_ok {a : GReg} {b : GReg} {c : GReg} {d : Sys2Proof.VReg} {n : Fin 32} {s : State} {nx : State}
    (e : execSendv a b c d n s = .next nx) (hs : s.memoryOk = true) :
    nx.memoryOk = true := by
  unfold execSendv at e
  try dsimp only at e
  repeat' first
    | (with_reducible assumption) | (with_reducible injection e with e; subst e)
    | (with_reducible injection e; done) | (with_reducible apply ok3_same) | simp only [ok_mk]
    | with_reducible apply sendMessage_ok | with_reducible apply trapWith_ok | (intro _ _ _) | (intro _ _)
    | (intro _) | split at e | split

theorem execTjoin_ok {a : GReg} {b : GReg} {s : State} {nx : State} (e : execTjoin a b s = .next nx) (hs
    : s.memoryOk = true) :
    nx.memoryOk = true := by
  unfold execTjoin at e
  try dsimp only at e
  repeat' first
    | (with_reducible assumption) | (with_reducible injection e with e; subst e)
    | (with_reducible injection e; done) | (with_reducible apply ok3_same) | simp only [ok_mk]
    | with_reducible apply illegal_ok | with_reducible apply joinTeam_ok | with_reducible apply stall_ok
    | with_reducible apply trap_ok | (intro _ _ _) | (intro _ _) | (intro _) | split at e | split

theorem execTleave_ok {s : State} {nx : State} (e : execTleave s = .next nx) (hs : s.memoryOk = true) :
    nx.memoryOk = true := by
  unfold execTleave at e
  try dsimp only at e
  repeat' first
    | (with_reducible assumption) | (with_reducible injection e with e; subst e)
    | (with_reducible injection e; done) | (with_reducible apply ok3_same) | simp only [ok_mk]
    | with_reducible apply illegal_ok | with_reducible apply post_ok | with_reducible apply retireSeal_ok
    | with_reducible apply stall_ok | (intro _ _ _) | (intro _ _) | (intro _) | split at e | split

theorem execTarr_ok {s : State} {nx : State} (e : execTarr s = .next nx) (hs : s.memoryOk = true) :
    nx.memoryOk = true := by
  unfold execTarr at e
  try dsimp only at e
  repeat' first
    | (with_reducible assumption) | (with_reducible injection e with e; subst e)
    | (with_reducible injection e; done) | (with_reducible apply ok3_same) | simp only [ok_mk]
    | with_reducible apply illegal_ok | with_reducible apply retireSeal_ok
    | with_reducible apply spinOrPark_ok | with_reducible apply stall_ok | with_reducible apply updTeam_ok
    | (intro _ _ _) | (intro _ _) | (intro _) | split at e | split

theorem execTwait_ok {a : GReg} {s : State} {nx : State} (e : execTwait a s = .next nx) (hs : s.memoryOk = true) :
    nx.memoryOk = true := by
  unfold execTwait at e
  try dsimp only at e
  repeat' first
    | (with_reducible assumption) | (with_reducible injection e with e; subst e)
    | (with_reducible injection e; done) | (with_reducible apply ok3_same) | simp only [ok_mk]
    | with_reducible apply giveResult_ok | with_reducible apply illegal_ok | with_reducible apply retire_ok
    | with_reducible apply spinOrPark_ok | with_reducible apply stall_ok | (intro _ _ _) | (intro _ _)
    | (intro _) | split at e | split

theorem execTinfo_ok {a : GReg} {sel : Fin 4} {s : State} {nx : State} (e : execTinfo a sel s = .next nx) (hs
    : s.memoryOk = true) :
    nx.memoryOk = true := by
  unfold execTinfo at e
  try dsimp only at e
  repeat' first
    | (with_reducible assumption) | (with_reducible injection e with e; subst e)
    | (with_reducible injection e; done) | (with_reducible apply ok3_same) | simp only [ok_mk]
    | with_reducible apply illegal_ok | with_reducible apply retire_ok | with_reducible apply setG_ok
    | with_reducible apply stall_ok | (intro _ _ _) | (intro _ _) | (intro _) | split at e | split

theorem execEnq_ok {a : PReg} {b : GReg} {q : Fin 4} {s : State} {nx : State} (e : execEnq a b q s = .next nx) (hs
    : s.memoryOk = true) :
    nx.memoryOk = true := by
  unfold execEnq at e
  try dsimp only at e
  repeat' first
    | (with_reducible assumption) | (with_reducible injection e with e; subst e)
    | (with_reducible injection e; done) | (with_reducible apply ok3_same) | simp only [ok_mk]
    | with_reducible apply post_ok | with_reducible apply retireSeal_ok | with_reducible apply trapWith_ok
    | (intro _ _ _) | (intro _ _) | (intro _) | split at e | split

theorem execDeq_ok {a : GReg} {b : PReg} {q : Fin 4} {s : State} {nx : State} (e : execDeq a b q s = .next nx) (hs
    : s.memoryOk = true) :
    nx.memoryOk = true := by
  unfold execDeq at e
  try dsimp only at e
  repeat' first
    | (with_reducible assumption) | (with_reducible injection e with e; subst e)
    | (with_reducible injection e; done) | (with_reducible apply ok3_same) | simp only [ok_mk]
    | with_reducible apply giveResult_ok | with_reducible apply retireSeal_ok
    | with_reducible apply setQueue_ok | with_reducible apply withQueue_ok | (intro _ _ _) | (intro _ _)
    | (intro _) | split at e | split

theorem execDeqw_ok {a : GReg} {q : Fin 4} {s : State} {nx : State} (e : execDeqw a q s = .next nx) (hs
    : s.memoryOk = true) :
    nx.memoryOk = true := by
  unfold execDeqw at e
  try dsimp only at e
  repeat' first
    | (with_reducible assumption) | (with_reducible injection e with e; subst e)
    | (with_reducible injection e; done) | (with_reducible apply ok3_same) | simp only [ok_mk]
    | with_reducible apply giveResult_ok | with_reducible apply retireSeal_ok
    | with_reducible apply setQueue_ok | with_reducible apply spinOrPark_ok
    | with_reducible apply withQueue_ok | (intro _ _ _) | (intro _ _) | (intro _) | split at e | split

theorem execQinfo_ok {a : GReg} {q : Fin 4} {s : State} {nx : State} (e : execQinfo a q s = .next nx) (hs
    : s.memoryOk = true) :
    nx.memoryOk = true := by
  unfold execQinfo at e
  try dsimp only at e
  repeat' first
    | (with_reducible assumption) | (with_reducible injection e with e; subst e)
    | (with_reducible injection e; done) | (with_reducible apply ok3_same) | simp only [ok_mk]
    | with_reducible apply giveResult_ok | with_reducible apply retire_ok | with_reducible apply withQueue_ok
    | (intro _ _ _) | (intro _ _) | (intro _) | split at e | split

theorem execGvt_ok {a : GReg} {b : GReg} {sel : Fin 4} {s : State} {nx : State} (e : execGvt a b sel s = .next nx)
    (hs : s.memoryOk = true) :
    nx.memoryOk = true := by
  unfold execGvt at e
  try dsimp only at e
  repeat' first
    | (with_reducible assumption) | (with_reducible injection e with e; subst e)
    | (with_reducible injection e; done) | (with_reducible apply ok3_same) | simp only [ok_mk]
    | with_reducible apply giveResult_ok | with_reducible apply retire_ok | with_reducible apply stall_ok
    | (intro _ _ _) | (intro _ _) | (intro _) | split at e | split

theorem execAbrt_ok {s : State} {nx : State} (e : execAbrt s = .next nx) (hs : s.memoryOk = true) :
    nx.memoryOk = true := by
  unfold execAbrt at e
  try dsimp only at e
  repeat' first
    | (with_reducible assumption) | (with_reducible injection e with e; subst e)
    | (with_reducible injection e; done) | (with_reducible apply ok3_same) | simp only [ok_mk]
    | with_reducible apply abortSelf_ok | (intro _ _ _) | (intro _ _) | (intro _) | split at e | split

theorem execAbrtRec_ok {a : GReg} {b : GReg} {s : State} {nx : State} (e : execAbrtRec a b s = .next nx) (hs
    : s.memoryOk = true) :
    nx.memoryOk = true := by
  unfold execAbrtRec at e
  try dsimp only at e
  repeat' first
    | (with_reducible assumption) | (with_reducible injection e with e; subst e)
    | (with_reducible injection e; done) | (with_reducible apply ok3_same) | simp only [ok_mk]
    | with_reducible apply abortRecord_ok | (intro _ _ _) | (intro _ _) | (intro _) | split at e | split

theorem execAstat_ok {a : GReg} {sel : Fin 8} {s : State} {nx : State} (e : execAstat a sel s = .next nx) (hs
    : s.memoryOk = true) :
    nx.memoryOk = true := by
  unfold execAstat at e
  try dsimp only at e
  repeat' first
    | (with_reducible assumption) | (with_reducible injection e with e; subst e)
    | (with_reducible injection e; done) | (with_reducible apply ok3_same) | simp only [ok_mk]
    | with_reducible apply giveResult_ok | with_reducible apply retire_ok | (intro _ _ _) | (intro _ _)
    | (intro _) | split at e | split

theorem noteRead_ok (s : State) (v : Nat) (hs : s.memoryOk = true) :
    (State.noteRead s v).memoryOk = true := by
  unfold State.noteRead
  try dsimp only
  repeat' first
    | (with_reducible assumption) | (with_reducible apply ok3_same) | simp only [ok_mk]
    | with_reducible apply updEntry_ok | (intro _ _ _) | (intro _ _) | (intro _) | split

theorem writeVar_ok (s : State) (v : Nat) (x : Var) (hs : s.memoryOk = true) :
    (State.writeVar s v x).memoryOk = true := by
  unfold State.writeVar
  try dsimp only
  repeat' first
    | (with_reducible assumption) | (with_reducible apply ok3_same) | simp only [ok_mk]
    | with_reducible apply abortList_ok | with_reducible apply updLark_ok | (intro _ _ _) | (intro _ _)
    | (intro _) | split

theorem goOn_ok (s : State) (t : State) (seals : Bool) (hs : s.memoryOk = true) (ht : t.memoryOk = true) :
    (State.goOn s t seals).memoryOk = true := by
  unfold State.goOn
  try dsimp only
  repeat' first
    | (with_reducible assumption) | (with_reducible apply ok3_same) | simp only [ok_mk]
    | with_reducible apply retire_ok | with_reducible apply retireSeal_ok | (intro _ _ _) | (intro _ _)
    | (intro _) | split

theorem larkTrap_ok (s : State) (t : Trap) (hs : s.memoryOk = true) :
    (State.larkTrap s t).memoryOk = true := by
  unfold State.larkTrap
  try dsimp only
  repeat' first
    | (with_reducible assumption) | (with_reducible apply ok3_same) | simp only [ok_mk]
    | with_reducible apply updLark_ok | with_reducible apply trapWith_ok | (intro _ _ _) | (intro _ _)
    | (intro _) | split

theorem changeVar_ok (s : State) (v : Nat) (f : Var → Var) (hs : s.memoryOk = true) :
    (State.changeVar s v f).memoryOk = true := by
  unfold State.changeVar
  try dsimp only
  repeat' first
    | (with_reducible assumption) | (with_reducible apply ok3_same) | simp only [ok_mk]
    | with_reducible apply noteRead_ok | with_reducible apply writeVar_ok | with_reducible apply getD_ok
    | (intro _ _ _) | (intro _ _) | (intro _) | split

theorem crossVar_ok (s : State) (v : Nat) (row : List Nat) (hs : s.memoryOk = true) :
    (State.crossVar s v row).memoryOk = true := by
  unfold State.crossVar
  try dsimp only
  repeat' first
    | (with_reducible assumption) | (with_reducible apply ok3_same) | simp only [ok_mk]
    | with_reducible apply noteRead_ok | with_reducible apply requestEval_ok
    | with_reducible apply updEntry_ok | with_reducible apply writeVar_ok | (with_reducible apply foldl_ok)
    | refine foldl_pair_eq_ok (by assumption) ?_ ?_ | (with_reducible apply foldl_pair_ok) | dsimp only
    | with_reducible apply getD_ok | (intro _ _ _) | (intro _ _) | (intro _) | split

theorem endRun_ok (s : State) (pkg : Nat) (hs : s.memoryOk = true) :
    (State.endRun s pkg).memoryOk = true := by
  unfold State.endRun
  try dsimp only
  repeat' first
    | (with_reducible assumption) | (with_reducible apply ok3_same) | simp only [ok_mk]
    | with_reducible apply arriveRun_ok | with_reducible apply updLark_ok | (intro _ _ _) | (intro _ _)
    | (intro _) | split

theorem stopRun_ok (s : State) (hs : s.memoryOk = true) :
    (State.stopRun s).memoryOk = true := by
  unfold State.stopRun
  try dsimp only
  repeat' first
    | (with_reducible assumption) | (with_reducible apply ok3_same) | simp only [ok_mk]
    | with_reducible apply endRun_ok | with_reducible apply updLark_ok | (intro _ _ _) | (intro _ _)
    | (intro _) | split

theorem runLark_ok (s : State) (x : Accepted) (hs : s.memoryOk = true) :
    (State.runLark s x).memoryOk = true := by
  unfold State.runLark
  try dsimp only
  repeat' first
    | (with_reducible assumption) | (with_reducible apply ok3_same) | simp only [ok_mk]
    | with_reducible apply changeVar_ok | with_reducible apply crossVar_ok | with_reducible apply noteRead_ok
    | with_reducible apply setG_ok | with_reducible apply updLark_ok | with_reducible apply stopRun_ok
    | with_reducible apply getD_ok | (intro _ _ _) | (intro _ _) | (intro _) | split

theorem whenStopped_ok (s : State) (based : Bool) (f : State → State) (hs : s.memoryOk = true) (hf : ∀ t
    : State, t.memoryOk = true → (f t).memoryOk = true) :
    (State.whenStopped s based f).memoryOk = true := by
  unfold State.whenStopped
  try dsimp only
  repeat' first
    | (with_reducible assumption) | (with_reducible apply ok3_same) | simp only [ok_mk] | apply hf
    | with_reducible apply illegal_ok | with_reducible apply stall_ok | with_reducible apply waitFirm_ok
    | (intro _ _ _) | (intro _ _) | (intro _) | split

theorem acceptLark_ok (s : State) (x : Accepted) (seals : Bool) (hs : s.memoryOk = true) :
    (State.acceptLark s x seals).memoryOk = true := by
  unfold State.acceptLark
  try dsimp only
  repeat' first
    | (with_reducible assumption) | (with_reducible apply ok3_same) | simp only [ok_mk]
    | with_reducible apply goOn_ok | with_reducible apply runLark_ok | with_reducible apply upd_ok
    | with_reducible apply settleFrom_ok | (intro _ _ _) | (intro _ _) | (intro _) | split

theorem writingInstr_ok (s : State) (id : Word) (storm : Bool) (seals : Bool) (x : Accepted) (more
    : Nat → State → Except Trap Accepted) (hs : s.memoryOk = true) :
    (State.writingInstr s id storm seals x more).memoryOk = true := by
  unfold State.writingInstr
  try dsimp only
  repeat' first
    | (with_reducible assumption) | (with_reducible apply ok3_same) | simp only [ok_mk]
    | with_reducible apply acceptLark_ok | with_reducible apply illegal_ok | with_reducible apply larkTrap_ok
    | with_reducible apply stall_ok | with_reducible apply waitFirm_ok | (intro _ _ _) | (intro _ _)
    | (intro _) | split

theorem execQbase_ok {b : GReg} {c : GReg} {d : GReg} {s : State} {nx : State} (e : execQbase b c d s = .next nx)
    (hs : s.memoryOk = true) :
    nx.memoryOk = true := by
  unfold execQbase at e
  try dsimp only at e
  repeat' first
    | (with_reducible assumption) | (with_reducible injection e with e; subst e)
    | (with_reducible injection e; done) | (with_reducible apply ok3_same) | simp only [ok_mk]
    | with_reducible apply acceptLark_ok | with_reducible apply trap_ok | with_reducible apply trapWith_ok
    | with_reducible apply whenStopped_ok | (intro _ _ _) | (intro _ _) | (intro _) | split at e | split

theorem execQdef_ok {a : GReg} {b : GReg} {c : GReg} {n : BitVec 15} {s : State} {nx : State} (e
    : execQdef a b c n s = .next nx) (hs : s.memoryOk = true) :
    nx.memoryOk = true := by
  unfold execQdef at e
  try dsimp only at e
  repeat' first
    | (with_reducible assumption) | (with_reducible injection e with e; subst e)
    | (with_reducible injection e; done) | (with_reducible apply ok3_same) | simp only [ok_mk]
    | with_reducible apply filled_ok | with_reducible apply retire_ok | with_reducible apply stall_ok
    | with_reducible apply trap_ok | with_reducible apply trapWith_ok | with_reducible apply whenStopped_ok
    | with_reducible apply setG_ok | with_reducible apply updLark_ok | (with_reducible apply foldl_ok)
    | refine foldl_pair_eq_ok (by assumption) ?_ ?_ | (with_reducible apply foldl_pair_ok) | dsimp only
    | with_reducible apply getD_ok | (intro _ _ _) | (intro _ _) | (intro _) | split at e | split

theorem execQget_ok {sel : Fin 13} {a : GReg} {b : GReg} {s : State} {nx : State} (e
    : execQget sel a b s = .next nx) (hs : s.memoryOk = true) :
    nx.memoryOk = true := by
  unfold execQget at e
  try dsimp only at e
  repeat' first
    | (with_reducible assumption) | (with_reducible injection e with e; subst e)
    | (with_reducible injection e; done) | (with_reducible apply ok3_same) | simp only [ok_mk]
    | with_reducible apply acceptLark_ok | with_reducible apply illegal_ok | with_reducible apply stall_ok
    | with_reducible apply trap_ok | with_reducible apply trapWith_ok | with_reducible apply waitFirm_ok
    | (intro _ _ _) | (intro _ _) | (intro _) | split at e | split

theorem execQset_ok {sel : Fin 13} {b : GReg} {c : GReg} {s : State} {nx : State} (e
    : execQset sel b c s = .next nx) (hs : s.memoryOk = true) :
    nx.memoryOk = true := by
  unfold execQset at e
  try dsimp only at e
  repeat' first
    | (with_reducible assumption) | (with_reducible injection e with e; subst e)
    | (with_reducible injection e; done) | (with_reducible apply ok3_same) | simp only [ok_mk]
    | with_reducible apply illegal_ok | with_reducible apply writingInstr_ok | (intro _ _ _) | (intro _ _)
    | (intro _) | split at e | split

theorem execQslope_ok {b : GReg} {c : GReg} {d : GReg} {s : State} {nx : State} (e
    : execQslope b c d s = .next nx) (hs : s.memoryOk = true) :
    nx.memoryOk = true := by
  unfold execQslope at e
  try dsimp only at e
  repeat' first
    | (with_reducible assumption) | (with_reducible injection e with e; subst e)
    | (with_reducible injection e; done) | (with_reducible apply ok3_same) | simp only [ok_mk]
    | with_reducible apply writingInstr_ok | (intro _ _ _) | (intro _ _) | (intro _) | split at e | split

theorem execQcross_ok {b : GReg} {s : State} {nx : State} (e : execQcross b s = .next nx) (hs : s.memoryOk = true) :
    nx.memoryOk = true := by
  unfold execQcross at e
  try dsimp only at e
  repeat' first
    | (with_reducible assumption) | (with_reducible injection e with e; subst e)
    | (with_reducible injection e; done) | (with_reducible apply ok3_same) | simp only [ok_mk]
    | with_reducible apply illegal_ok | with_reducible apply stall_ok | with_reducible apply writingInstr_ok
    | (intro _ _ _) | (intro _ _) | (intro _) | split at e | split

theorem execQdeps_ok {b : GReg} {c : GReg} {d : GReg} {s : State} {nx : State} (e : execQdeps b c d s = .next nx)
    (hs : s.memoryOk = true) :
    nx.memoryOk = true := by
  unfold execQdeps at e
  try dsimp only at e
  repeat' first
    | (with_reducible assumption) | (with_reducible injection e with e; subst e)
    | (with_reducible injection e; done) | (with_reducible apply ok3_same) | simp only [ok_mk]
    | with_reducible apply acceptLark_ok | with_reducible apply trapWith_ok
    | with_reducible apply whenStopped_ok | (intro _ _ _) | (intro _ _) | (intro _) | split at e | split

theorem execQnext_ok {a : GReg} {s : State} {nx : State} (e : execQnext a s = .next nx) (hs : s.memoryOk = true) :
    nx.memoryOk = true := by
  unfold execQnext at e
  try dsimp only at e
  repeat' first
    | (with_reducible assumption) | (with_reducible injection e with e; subst e)
    | (with_reducible injection e; done) | (with_reducible apply ok3_same) | simp only [ok_mk]
    | with_reducible apply acceptLark_ok | (intro _ _ _) | (intro _ _) | (intro _) | split at e | split

theorem execQrun_ok {b : GReg} {c : GReg} {d : GReg} {s : State} {nx : State} (e : execQrun b c d s = .next nx)
    (hs : s.memoryOk = true) :
    nx.memoryOk = true := by
  unfold execQrun at e
  try dsimp only at e
  repeat' first
    | (with_reducible assumption) | (with_reducible injection e with e; subst e)
    | (with_reducible injection e; done) | (with_reducible apply ok3_same) | simp only [ok_mk]
    | with_reducible apply filled_ok | with_reducible apply illegal_ok | with_reducible apply incCell_ok
    | with_reducible apply retireSeal_ok | with_reducible apply stall_ok | with_reducible apply trapWith_ok
    | with_reducible apply updLark_ok | with_reducible apply whenStopped_ok | (intro _ _ _) | (intro _ _)
    | (intro _) | split at e | split

theorem execQstop_ok {a : GReg} {s : State} {nx : State} (e : execQstop a s = .next nx) (hs : s.memoryOk = true) :
    nx.memoryOk = true := by
  unfold execQstop at e
  try dsimp only at e
  repeat' first
    | (with_reducible assumption) | (with_reducible injection e with e; subst e)
    | (with_reducible injection e; done) | (with_reducible apply ok3_same) | simp only [ok_mk]
    | with_reducible apply acceptLark_ok | with_reducible apply illegal_ok | (intro _ _ _) | (intro _ _)
    | (intro _) | split at e | split

theorem execQsnap_ok {b : GReg} {c : GReg} {n : BitVec 15} {s : State} {nx : State} (e
    : execQsnap b c n s = .next nx) (hs : s.memoryOk = true) :
    nx.memoryOk = true := by
  unfold execQsnap at e
  try dsimp only at e
  repeat' first
    | (with_reducible assumption) | (with_reducible injection e with e; subst e)
    | (with_reducible injection e; done) | (with_reducible apply ok3_same) | simp only [ok_mk]
    | with_reducible apply filled_ok | with_reducible apply illegal_ok | with_reducible apply post_ok
    | with_reducible apply retire_ok | with_reducible apply stall_ok | with_reducible apply trap_ok
    | with_reducible apply trapWith_ok | with_reducible apply upd_ok | (intro _ _ _) | (intro _ _) | (intro _)
    | split at e | split

theorem execQstat_ok {a : GReg} {sel : Fin 8} {s : State} {nx : State} (e : execQstat a sel s = .next nx) (hs
    : s.memoryOk = true) :
    nx.memoryOk = true := by
  unfold execQstat at e
  try dsimp only at e
  repeat' first
    | (with_reducible assumption) | (with_reducible injection e with e; subst e)
    | (with_reducible injection e; done) | (with_reducible apply ok3_same) | simp only [ok_mk]
    | with_reducible apply acceptLark_ok | (intro _ _ _) | (intro _ _) | (intro _) | split at e | split

theorem execQstorm_ok {sel : Fin 4} {b : GReg} {c : GReg} {s : State} {nx : State} (e
    : execQstorm sel b c s = .next nx) (hs : s.memoryOk = true) :
    nx.memoryOk = true := by
  unfold execQstorm at e
  try dsimp only at e
  repeat' first
    | (with_reducible assumption) | (with_reducible injection e with e; subst e)
    | (with_reducible injection e; done) | (with_reducible apply ok3_same) | simp only [ok_mk]
    | with_reducible apply writingInstr_ok | (intro _ _ _) | (intro _ _) | (intro _) | split at e | split

theorem execLarkspurRunEnd_ok {pkg : Nat} {s : State} {nx : State} (e : execLarkspurRunEnd pkg s = .next nx) (hs
    : s.memoryOk = true) :
    nx.memoryOk = true := by
  unfold execLarkspurRunEnd at e
  try dsimp only at e
  repeat' first
    | (with_reducible assumption) | (with_reducible injection e with e; subst e)
    | (with_reducible injection e; done) | (with_reducible apply ok3_same) | simp only [ok_mk]
    | with_reducible apply endRun_ok | (intro _ _ _) | (intro _ _) | (intro _) | split at e | split

theorem execEventMessageArrival_ok {k : Nat} {s : State} {nx : State} (e : execEventMessageArrival k s = .next nx)
    (hs : s.memoryOk = true) :
    nx.memoryOk = true := by
  unfold execEventMessageArrival at e
  try dsimp only at e
  repeat' first
    | (with_reducible assumption) | (with_reducible injection e with e; subst e)
    | (with_reducible injection e; done) | (with_reducible apply ok3_same) | simp only [ok_mk]
    | with_reducible apply stepEvent_ok | (intro _ _ _) | (intro _ _) | (intro _) | split at e | split

theorem phloxG_ok (s : State) (a : GReg) (r : Phlox × Word) (hs : s.memoryOk = true) :
    (State.phloxG s a r).memoryOk = true := by
  unfold State.phloxG
  try dsimp only
  repeat' first
    | (with_reducible assumption) | (with_reducible apply ok3_same) | simp only [ok_mk]
    | with_reducible apply updCluster_ok | with_reducible apply setG_ok | (intro _ _ _) | (intro _ _)
    | (intro _) | split

theorem runPhlox_ok (s : State) (x : Accepted) (hs : s.memoryOk = true) :
    (State.runPhlox s x).memoryOk = true := by
  unfold State.runPhlox
  try dsimp only
  repeat' first
    | (with_reducible assumption) | (with_reducible apply ok3_same) | simp only [ok_mk]
    | with_reducible apply phloxG_ok | with_reducible apply upd_ok | with_reducible apply updCluster_ok
    | (intro _ _ _) | (intro _ _) | (intro _) | split

theorem runPort_ok (s : State) (x : Accepted) (hs : s.memoryOk = true) :
    (State.runPort s x).memoryOk = true := by
  unfold State.runPort
  try dsimp only
  repeat' first
    | (with_reducible assumption) | (with_reducible apply ok3_same) | simp only [ok_mk]
    | with_reducible apply runLark_ok | with_reducible apply runPhlox_ok | (intro _ _ _) | (intro _ _)
    | (intro _) | split

theorem acceptPhlox_ok (s : State) (x : Accepted) (seals : Bool) (hs : s.memoryOk = true) :
    (State.acceptPhlox s x seals).memoryOk = true := by
  unfold State.acceptPhlox
  try dsimp only
  repeat' first
    | (with_reducible assumption) | (with_reducible apply ok3_same) | simp only [ok_mk]
    | with_reducible apply goOn_ok | with_reducible apply runPhlox_ok | with_reducible apply upd_ok
    | (intro _ _ _) | (intro _ _) | (intro _) | split

theorem phloxInstr_ok (s : State) (clear : Bool) (seals : Bool) (checks : List (Bool × Trap)) (x : Accepted) (hs
    : s.memoryOk = true) :
    (State.phloxInstr s clear seals checks x).memoryOk = true := by
  unfold State.phloxInstr
  try dsimp only
  repeat' first
    | (with_reducible assumption) | (with_reducible apply ok3_same) | simp only [ok_mk]
    | with_reducible apply acceptPhlox_ok | with_reducible apply trap_ok | with_reducible apply trapWith_ok
    | with_reducible apply waitFirm_ok | (intro _ _ _) | (intro _ _) | (intro _) | split

theorem execPclr_ok {s : State} {nx : State} (e : execPclr s = .next nx) (hs : s.memoryOk = true) :
    nx.memoryOk = true := by
  unfold execPclr at e
  try dsimp only at e
  repeat' first
    | (with_reducible assumption) | (with_reducible injection e with e; subst e)
    | (with_reducible injection e; done) | (with_reducible apply ok3_same) | simp only [ok_mk]
    | with_reducible apply phloxInstr_ok | (intro _ _ _) | (intro _ _) | (intro _) | split at e | split

theorem execPcol_ok {a : GReg} {b : Sys2Proof.VReg} {s : State} {nx : State} (e : execPcol a b s = .next nx) (hs
    : s.memoryOk = true) :
    nx.memoryOk = true := by
  unfold execPcol at e
  try dsimp only at e
  repeat' first
    | (with_reducible assumption) | (with_reducible injection e with e; subst e)
    | (with_reducible injection e; done) | (with_reducible apply ok3_same) | simp only [ok_mk]
    | with_reducible apply phloxInstr_ok | (intro _ _ _) | (intro _ _) | (intro _) | split at e | split

theorem execPcolAt_ok {a : GReg} {b : Sys2Proof.VReg} {c : GReg} {s : State} {nx : State} (e
    : execPcolAt a b c s = .next nx) (hs : s.memoryOk = true) :
    nx.memoryOk = true := by
  unfold execPcolAt at e
  try dsimp only at e
  repeat' first
    | (with_reducible assumption) | (with_reducible injection e with e; subst e)
    | (with_reducible injection e; done) | (with_reducible apply ok3_same) | simp only [ok_mk]
    | with_reducible apply phloxInstr_ok | (intro _ _ _) | (intro _ _) | (intro _) | split at e | split

theorem execPcolrRd_ok {a : Sys2Proof.VReg} {b : GReg} {s : State} {nx : State} (e : execPcolrRd a b s = .next nx)
    (hs : s.memoryOk = true) :
    nx.memoryOk = true := by
  unfold execPcolrRd at e
  try dsimp only at e
  repeat' first
    | (with_reducible assumption) | (with_reducible injection e with e; subst e)
    | (with_reducible injection e; done) | (with_reducible apply ok3_same) | simp only [ok_mk]
    | with_reducible apply phloxInstr_ok | (intro _ _ _) | (intro _ _) | (intro _) | split at e | split

theorem execPcolrFr_ok {a : GReg} {b : GReg} {s : State} {nx : State} (e : execPcolrFr a b s = .next nx) (hs
    : s.memoryOk = true) :
    nx.memoryOk = true := by
  unfold execPcolrFr at e
  try dsimp only at e
  repeat' first
    | (with_reducible assumption) | (with_reducible injection e with e; subst e)
    | (with_reducible injection e; done) | (with_reducible apply ok3_same) | simp only [ok_mk]
    | with_reducible apply phloxInstr_ok | (intro _ _ _) | (intro _ _) | (intro _) | split at e | split

theorem execPdec_ok {a : GReg} {b : GReg} {s : State} {nx : State} (e : execPdec a b s = .next nx) (hs
    : s.memoryOk = true) :
    nx.memoryOk = true := by
  unfold execPdec at e
  try dsimp only at e
  repeat' first
    | (with_reducible assumption) | (with_reducible injection e with e; subst e)
    | (with_reducible injection e; done) | (with_reducible apply ok3_same) | simp only [ok_mk]
    | with_reducible apply phloxInstr_ok | (intro _ _ _) | (intro _ _) | (intro _) | split at e | split

theorem execPprop_ok {a : GReg} {s : State} {nx : State} (e : execPprop a s = .next nx) (hs : s.memoryOk = true) :
    nx.memoryOk = true := by
  unfold execPprop at e
  try dsimp only at e
  repeat' first
    | (with_reducible assumption) | (with_reducible injection e with e; subst e)
    | (with_reducible injection e; done) | (with_reducible apply ok3_same) | simp only [ok_mk]
    | with_reducible apply phloxInstr_ok | (intro _ _ _) | (intro _ _) | (intro _) | split at e | split

theorem execPbt_ok {a : GReg} {b : GReg} {s : State} {nx : State} (e : execPbt a b s = .next nx) (hs
    : s.memoryOk = true) :
    nx.memoryOk = true := by
  unfold execPbt at e
  try dsimp only at e
  repeat' first
    | (with_reducible assumption) | (with_reducible injection e with e; subst e)
    | (with_reducible injection e; done) | (with_reducible apply ok3_same) | simp only [ok_mk]
    | with_reducible apply phloxInstr_ok | with_reducible apply stall_ok | (intro _ _ _) | (intro _ _)
    | (intro _) | split at e | split

theorem execProw_ok {a : GReg} {b : GReg} {s : State} {nx : State} (e : execProw a b s = .next nx) (hs
    : s.memoryOk = true) :
    nx.memoryOk = true := by
  unfold execProw at e
  try dsimp only at e
  repeat' first
    | (with_reducible assumption) | (with_reducible injection e with e; subst e)
    | (with_reducible injection e; done) | (with_reducible apply ok3_same) | simp only [ok_mk]
    | with_reducible apply phloxInstr_ok | (intro _ _ _) | (intro _ _) | (intro _) | split at e | split

theorem execPtrl_ok {a : GReg} {b : GReg} {s : State} {nx : State} (e : execPtrl a b s = .next nx) (hs
    : s.memoryOk = true) :
    nx.memoryOk = true := by
  unfold execPtrl at e
  try dsimp only at e
  repeat' first
    | (with_reducible assumption) | (with_reducible injection e with e; subst e)
    | (with_reducible injection e; done) | (with_reducible apply ok3_same) | simp only [ok_mk]
    | with_reducible apply phloxInstr_ok | (intro _ _ _) | (intro _ _) | (intro _) | split at e | split

theorem execPconf_ok {a : GReg} {s : State} {nx : State} (e : execPconf a s = .next nx) (hs : s.memoryOk = true) :
    nx.memoryOk = true := by
  unfold execPconf at e
  try dsimp only at e
  repeat' first
    | (with_reducible assumption) | (with_reducible injection e with e; subst e)
    | (with_reducible injection e; done) | (with_reducible apply ok3_same) | simp only [ok_mk]
    | with_reducible apply phloxInstr_ok | (intro _ _ _) | (intro _ _) | (intro _) | split at e | split

theorem execPlvl_ok {a : GReg} {s : State} {nx : State} (e : execPlvl a s = .next nx) (hs : s.memoryOk = true) :
    nx.memoryOk = true := by
  unfold execPlvl at e
  try dsimp only at e
  repeat' first
    | (with_reducible assumption) | (with_reducible injection e with e; subst e)
    | (with_reducible injection e; done) | (with_reducible apply ok3_same) | simp only [ok_mk]
    | with_reducible apply phloxInstr_ok | (intro _ _ _) | (intro _ _) | (intro _) | split at e | split

theorem execPset_ok {a : GReg} {b : GReg} {s : State} {nx : State} (e : execPset a b s = .next nx) (hs
    : s.memoryOk = true) :
    nx.memoryOk = true := by
  unfold execPset at e
  try dsimp only at e
  repeat' first
    | (with_reducible assumption) | (with_reducible injection e with e; subst e)
    | (with_reducible injection e; done) | (with_reducible apply ok3_same) | simp only [ok_mk]
    | with_reducible apply phloxInstr_ok | (intro _ _ _) | (intro _ _) | (intro _) | split at e | split

theorem execPstat_ok {a : GReg} {sel : Fin 7} {s : State} {nx : State} (e : execPstat a sel s = .next nx) (hs
    : s.memoryOk = true) :
    nx.memoryOk = true := by
  unfold execPstat at e
  try dsimp only at e
  repeat' first
    | (with_reducible assumption) | (with_reducible injection e with e; subst e)
    | (with_reducible injection e; done) | (with_reducible apply ok3_same) | simp only [ok_mk]
    | with_reducible apply phloxInstr_ok | (intro _ _ _) | (intro _ _) | (intro _) | split at e | split

theorem putG_ok {s : State} {a : GReg} {x : Word} {nx : State} (e : State.putG s a x = .next nx) (hs
    : s.memoryOk = true) :
    nx.memoryOk = true := by
  unfold State.putG at e
  try dsimp only at e
  repeat' first
    | (with_reducible assumption) | (with_reducible injection e with e; subst e)
    | (with_reducible injection e; done) | (with_reducible apply ok3_same) | simp only [ok_mk]
    | with_reducible apply retire_ok | with_reducible apply setG_ok | (intro _ _ _) | (intro _ _) | (intro _)
    | split at e | split

theorem putP_ok {s : State} {a : PReg} {b : Bool} {nx : State} (e : State.putP s a b = .next nx) (hs
    : s.memoryOk = true) :
    nx.memoryOk = true := by
  unfold State.putP at e
  try dsimp only at e
  repeat' first
    | (with_reducible assumption) | (with_reducible injection e with e; subst e)
    | (with_reducible injection e; done) | (with_reducible apply ok3_same) | simp only [ok_mk]
    | with_reducible apply retire_ok | with_reducible apply setP_ok | (intro _ _ _) | (intro _ _) | (intro _)
    | split at e | split

theorem execAdd_ok {a : GReg} {b : GReg} {c : GReg} {s : State} {nx : State} (e : execAdd a b c s = .next nx) (hs
    : s.memoryOk = true) :
    nx.memoryOk = true := by
  unfold execAdd at e
  try dsimp only at e
  repeat' first
    | (with_reducible assumption) | (with_reducible injection e with e; subst e)
    | (with_reducible injection e; done) | (with_reducible apply ok3_same) | simp only [ok_mk]
    | refine putG_ok (by assumption) ?_ | (intro _ _ _) | (intro _ _) | (intro _) | split at e | split

theorem execSub_ok {a : GReg} {b : GReg} {c : GReg} {s : State} {nx : State} (e : execSub a b c s = .next nx) (hs
    : s.memoryOk = true) :
    nx.memoryOk = true := by
  unfold execSub at e
  try dsimp only at e
  repeat' first
    | (with_reducible assumption) | (with_reducible injection e with e; subst e)
    | (with_reducible injection e; done) | (with_reducible apply ok3_same) | simp only [ok_mk]
    | refine putG_ok (by assumption) ?_ | (intro _ _ _) | (intro _ _) | (intro _) | split at e | split

theorem execMul_ok {a : GReg} {b : GReg} {c : GReg} {s : State} {nx : State} (e : execMul a b c s = .next nx) (hs
    : s.memoryOk = true) :
    nx.memoryOk = true := by
  unfold execMul at e
  try dsimp only at e
  repeat' first
    | (with_reducible assumption) | (with_reducible injection e with e; subst e)
    | (with_reducible injection e; done) | (with_reducible apply ok3_same) | simp only [ok_mk]
    | refine putG_ok (by assumption) ?_ | (intro _ _ _) | (intro _ _) | (intro _) | split at e | split

theorem execMulh_ok {a : GReg} {b : GReg} {c : GReg} {s : State} {nx : State} (e : execMulh a b c s = .next nx)
    (hs : s.memoryOk = true) :
    nx.memoryOk = true := by
  unfold execMulh at e
  try dsimp only at e
  repeat' first
    | (with_reducible assumption) | (with_reducible injection e with e; subst e)
    | (with_reducible injection e; done) | (with_reducible apply ok3_same) | simp only [ok_mk]
    | refine putG_ok (by assumption) ?_ | (intro _ _ _) | (intro _ _) | (intro _) | split at e | split

theorem execMulhz_ok {a : GReg} {b : GReg} {c : GReg} {s : State} {nx : State} (e : execMulhz a b c s = .next nx)
    (hs : s.memoryOk = true) :
    nx.memoryOk = true := by
  unfold execMulhz at e
  try dsimp only at e
  repeat' first
    | (with_reducible assumption) | (with_reducible injection e with e; subst e)
    | (with_reducible injection e; done) | (with_reducible apply ok3_same) | simp only [ok_mk]
    | refine putG_ok (by assumption) ?_ | (intro _ _ _) | (intro _ _) | (intro _) | split at e | split

theorem execDiv_ok {a : GReg} {b : GReg} {c : GReg} {s : State} {nx : State} (e : execDiv a b c s = .next nx) (hs
    : s.memoryOk = true) :
    nx.memoryOk = true := by
  unfold execDiv at e
  try dsimp only at e
  repeat' first
    | (with_reducible assumption) | (with_reducible injection e with e; subst e)
    | (with_reducible injection e; done) | (with_reducible apply ok3_same) | simp only [ok_mk]
    | refine putG_ok (by assumption) ?_ | (intro _ _ _) | (intro _ _) | (intro _) | split at e | split

theorem execDivz_ok {a : GReg} {b : GReg} {c : GReg} {s : State} {nx : State} (e : execDivz a b c s = .next nx)
    (hs : s.memoryOk = true) :
    nx.memoryOk = true := by
  unfold execDivz at e
  try dsimp only at e
  repeat' first
    | (with_reducible assumption) | (with_reducible injection e with e; subst e)
    | (with_reducible injection e; done) | (with_reducible apply ok3_same) | simp only [ok_mk]
    | refine putG_ok (by assumption) ?_ | (intro _ _ _) | (intro _ _) | (intro _) | split at e | split

theorem execRem_ok {a : GReg} {b : GReg} {c : GReg} {s : State} {nx : State} (e : execRem a b c s = .next nx) (hs
    : s.memoryOk = true) :
    nx.memoryOk = true := by
  unfold execRem at e
  try dsimp only at e
  repeat' first
    | (with_reducible assumption) | (with_reducible injection e with e; subst e)
    | (with_reducible injection e; done) | (with_reducible apply ok3_same) | simp only [ok_mk]
    | refine putG_ok (by assumption) ?_ | (intro _ _ _) | (intro _ _) | (intro _) | split at e | split

theorem execRemz_ok {a : GReg} {b : GReg} {c : GReg} {s : State} {nx : State} (e : execRemz a b c s = .next nx)
    (hs : s.memoryOk = true) :
    nx.memoryOk = true := by
  unfold execRemz at e
  try dsimp only at e
  repeat' first
    | (with_reducible assumption) | (with_reducible injection e with e; subst e)
    | (with_reducible injection e; done) | (with_reducible apply ok3_same) | simp only [ok_mk]
    | refine putG_ok (by assumption) ?_ | (intro _ _ _) | (intro _ _) | (intro _) | split at e | split

theorem execMin_ok {a : GReg} {b : GReg} {c : GReg} {s : State} {nx : State} (e : execMin a b c s = .next nx) (hs
    : s.memoryOk = true) :
    nx.memoryOk = true := by
  unfold execMin at e
  try dsimp only at e
  repeat' first
    | (with_reducible assumption) | (with_reducible injection e with e; subst e)
    | (with_reducible injection e; done) | (with_reducible apply ok3_same) | simp only [ok_mk]
    | refine putG_ok (by assumption) ?_ | (intro _ _ _) | (intro _ _) | (intro _) | split at e | split

theorem execMax_ok {a : GReg} {b : GReg} {c : GReg} {s : State} {nx : State} (e : execMax a b c s = .next nx) (hs
    : s.memoryOk = true) :
    nx.memoryOk = true := by
  unfold execMax at e
  try dsimp only at e
  repeat' first
    | (with_reducible assumption) | (with_reducible injection e with e; subst e)
    | (with_reducible injection e; done) | (with_reducible apply ok3_same) | simp only [ok_mk]
    | refine putG_ok (by assumption) ?_ | (intro _ _ _) | (intro _ _) | (intro _) | split at e | split

theorem execMinz_ok {a : GReg} {b : GReg} {c : GReg} {s : State} {nx : State} (e : execMinz a b c s = .next nx)
    (hs : s.memoryOk = true) :
    nx.memoryOk = true := by
  unfold execMinz at e
  try dsimp only at e
  repeat' first
    | (with_reducible assumption) | (with_reducible injection e with e; subst e)
    | (with_reducible injection e; done) | (with_reducible apply ok3_same) | simp only [ok_mk]
    | refine putG_ok (by assumption) ?_ | (intro _ _ _) | (intro _ _) | (intro _) | split at e | split

theorem execMaxz_ok {a : GReg} {b : GReg} {c : GReg} {s : State} {nx : State} (e : execMaxz a b c s = .next nx)
    (hs : s.memoryOk = true) :
    nx.memoryOk = true := by
  unfold execMaxz at e
  try dsimp only at e
  repeat' first
    | (with_reducible assumption) | (with_reducible injection e with e; subst e)
    | (with_reducible injection e; done) | (with_reducible apply ok3_same) | simp only [ok_mk]
    | refine putG_ok (by assumption) ?_ | (intro _ _ _) | (intro _ _) | (intro _) | split at e | split

theorem execAddi_ok {a : GReg} {b : GReg} {imm : BitVec 32} {s : State} {nx : State} (e
    : execAddi a b imm s = .next nx) (hs : s.memoryOk = true) :
    nx.memoryOk = true := by
  unfold execAddi at e
  try dsimp only at e
  repeat' first
    | (with_reducible assumption) | (with_reducible injection e with e; subst e)
    | (with_reducible injection e; done) | (with_reducible apply ok3_same) | simp only [ok_mk]
    | refine putG_ok (by assumption) ?_ | (intro _ _ _) | (intro _ _) | (intro _) | split at e | split

theorem execAnd_ok {a : GReg} {b : GReg} {c : GReg} {s : State} {nx : State} (e : execAnd a b c s = .next nx) (hs
    : s.memoryOk = true) :
    nx.memoryOk = true := by
  unfold execAnd at e
  try dsimp only at e
  repeat' first
    | (with_reducible assumption) | (with_reducible injection e with e; subst e)
    | (with_reducible injection e; done) | (with_reducible apply ok3_same) | simp only [ok_mk]
    | refine putG_ok (by assumption) ?_ | (intro _ _ _) | (intro _ _) | (intro _) | split at e | split

theorem execOr_ok {a : GReg} {b : GReg} {c : GReg} {s : State} {nx : State} (e : execOr a b c s = .next nx) (hs
    : s.memoryOk = true) :
    nx.memoryOk = true := by
  unfold execOr at e
  try dsimp only at e
  repeat' first
    | (with_reducible assumption) | (with_reducible injection e with e; subst e)
    | (with_reducible injection e; done) | (with_reducible apply ok3_same) | simp only [ok_mk]
    | refine putG_ok (by assumption) ?_ | (intro _ _ _) | (intro _ _) | (intro _) | split at e | split

theorem execXor_ok {a : GReg} {b : GReg} {c : GReg} {s : State} {nx : State} (e : execXor a b c s = .next nx) (hs
    : s.memoryOk = true) :
    nx.memoryOk = true := by
  unfold execXor at e
  try dsimp only at e
  repeat' first
    | (with_reducible assumption) | (with_reducible injection e with e; subst e)
    | (with_reducible injection e; done) | (with_reducible apply ok3_same) | simp only [ok_mk]
    | refine putG_ok (by assumption) ?_ | (intro _ _ _) | (intro _ _) | (intro _) | split at e | split

theorem execAndn_ok {a : GReg} {b : GReg} {c : GReg} {s : State} {nx : State} (e : execAndn a b c s = .next nx)
    (hs : s.memoryOk = true) :
    nx.memoryOk = true := by
  unfold execAndn at e
  try dsimp only at e
  repeat' first
    | (with_reducible assumption) | (with_reducible injection e with e; subst e)
    | (with_reducible injection e; done) | (with_reducible apply ok3_same) | simp only [ok_mk]
    | refine putG_ok (by assumption) ?_ | (intro _ _ _) | (intro _ _) | (intro _) | split at e | split

theorem execOrn_ok {a : GReg} {b : GReg} {c : GReg} {s : State} {nx : State} (e : execOrn a b c s = .next nx) (hs
    : s.memoryOk = true) :
    nx.memoryOk = true := by
  unfold execOrn at e
  try dsimp only at e
  repeat' first
    | (with_reducible assumption) | (with_reducible injection e with e; subst e)
    | (with_reducible injection e; done) | (with_reducible apply ok3_same) | simp only [ok_mk]
    | refine putG_ok (by assumption) ?_ | (intro _ _ _) | (intro _ _) | (intro _) | split at e | split

theorem execShl_ok {a : GReg} {b : GReg} {c : GReg} {s : State} {nx : State} (e : execShl a b c s = .next nx) (hs
    : s.memoryOk = true) :
    nx.memoryOk = true := by
  unfold execShl at e
  try dsimp only at e
  repeat' first
    | (with_reducible assumption) | (with_reducible injection e with e; subst e)
    | (with_reducible injection e; done) | (with_reducible apply ok3_same) | simp only [ok_mk]
    | refine putG_ok (by assumption) ?_ | (intro _ _ _) | (intro _ _) | (intro _) | split at e | split

theorem execShr_ok {a : GReg} {b : GReg} {c : GReg} {s : State} {nx : State} (e : execShr a b c s = .next nx) (hs
    : s.memoryOk = true) :
    nx.memoryOk = true := by
  unfold execShr at e
  try dsimp only at e
  repeat' first
    | (with_reducible assumption) | (with_reducible injection e with e; subst e)
    | (with_reducible injection e; done) | (with_reducible apply ok3_same) | simp only [ok_mk]
    | refine putG_ok (by assumption) ?_ | (intro _ _ _) | (intro _ _) | (intro _) | split at e | split

theorem execSar_ok {a : GReg} {b : GReg} {c : GReg} {s : State} {nx : State} (e : execSar a b c s = .next nx) (hs
    : s.memoryOk = true) :
    nx.memoryOk = true := by
  unfold execSar at e
  try dsimp only at e
  repeat' first
    | (with_reducible assumption) | (with_reducible injection e with e; subst e)
    | (with_reducible injection e; done) | (with_reducible apply ok3_same) | simp only [ok_mk]
    | refine putG_ok (by assumption) ?_ | (intro _ _ _) | (intro _ _) | (intro _) | split at e | split

theorem execRot_ok {a : GReg} {b : GReg} {c : GReg} {s : State} {nx : State} (e : execRot a b c s = .next nx) (hs
    : s.memoryOk = true) :
    nx.memoryOk = true := by
  unfold execRot at e
  try dsimp only at e
  repeat' first
    | (with_reducible assumption) | (with_reducible injection e with e; subst e)
    | (with_reducible injection e; done) | (with_reducible apply ok3_same) | simp only [ok_mk]
    | refine putG_ok (by assumption) ?_ | (intro _ _ _) | (intro _ _) | (intro _) | split at e | split

theorem execAndi_ok {a : GReg} {b : GReg} {imm : BitVec 32} {s : State} {nx : State} (e
    : execAndi a b imm s = .next nx) (hs : s.memoryOk = true) :
    nx.memoryOk = true := by
  unfold execAndi at e
  try dsimp only at e
  repeat' first
    | (with_reducible assumption) | (with_reducible injection e with e; subst e)
    | (with_reducible injection e; done) | (with_reducible apply ok3_same) | simp only [ok_mk]
    | refine putG_ok (by assumption) ?_ | (intro _ _ _) | (intro _ _) | (intro _) | split at e | split

theorem execOri_ok {a : GReg} {b : GReg} {imm : BitVec 32} {s : State} {nx : State} (e
    : execOri a b imm s = .next nx) (hs : s.memoryOk = true) :
    nx.memoryOk = true := by
  unfold execOri at e
  try dsimp only at e
  repeat' first
    | (with_reducible assumption) | (with_reducible injection e with e; subst e)
    | (with_reducible injection e; done) | (with_reducible apply ok3_same) | simp only [ok_mk]
    | refine putG_ok (by assumption) ?_ | (intro _ _ _) | (intro _ _) | (intro _) | split at e | split

theorem execXori_ok {a : GReg} {b : GReg} {imm : BitVec 32} {s : State} {nx : State} (e
    : execXori a b imm s = .next nx) (hs : s.memoryOk = true) :
    nx.memoryOk = true := by
  unfold execXori at e
  try dsimp only at e
  repeat' first
    | (with_reducible assumption) | (with_reducible injection e with e; subst e)
    | (with_reducible injection e; done) | (with_reducible apply ok3_same) | simp only [ok_mk]
    | refine putG_ok (by assumption) ?_ | (intro _ _ _) | (intro _ _) | (intro _) | split at e | split

theorem execAndni_ok {a : GReg} {b : GReg} {imm : BitVec 32} {s : State} {nx : State} (e
    : execAndni a b imm s = .next nx) (hs : s.memoryOk = true) :
    nx.memoryOk = true := by
  unfold execAndni at e
  try dsimp only at e
  repeat' first
    | (with_reducible assumption) | (with_reducible injection e with e; subst e)
    | (with_reducible injection e; done) | (with_reducible apply ok3_same) | simp only [ok_mk]
    | refine putG_ok (by assumption) ?_ | (intro _ _ _) | (intro _ _) | (intro _) | split at e | split

theorem execOrni_ok {a : GReg} {b : GReg} {imm : BitVec 32} {s : State} {nx : State} (e
    : execOrni a b imm s = .next nx) (hs : s.memoryOk = true) :
    nx.memoryOk = true := by
  unfold execOrni at e
  try dsimp only at e
  repeat' first
    | (with_reducible assumption) | (with_reducible injection e with e; subst e)
    | (with_reducible injection e; done) | (with_reducible apply ok3_same) | simp only [ok_mk]
    | refine putG_ok (by assumption) ?_ | (intro _ _ _) | (intro _ _) | (intro _) | split at e | split

theorem execShli_ok {a : GReg} {b : GReg} {k : Fin 64} {s : State} {nx : State} (e : execShli a b k s = .next nx)
    (hs : s.memoryOk = true) :
    nx.memoryOk = true := by
  unfold execShli at e
  try dsimp only at e
  repeat' first
    | (with_reducible assumption) | (with_reducible injection e with e; subst e)
    | (with_reducible injection e; done) | (with_reducible apply ok3_same) | simp only [ok_mk]
    | refine putG_ok (by assumption) ?_ | (intro _ _ _) | (intro _ _) | (intro _) | split at e | split

theorem execShri_ok {a : GReg} {b : GReg} {k : Fin 64} {s : State} {nx : State} (e : execShri a b k s = .next nx)
    (hs : s.memoryOk = true) :
    nx.memoryOk = true := by
  unfold execShri at e
  try dsimp only at e
  repeat' first
    | (with_reducible assumption) | (with_reducible injection e with e; subst e)
    | (with_reducible injection e; done) | (with_reducible apply ok3_same) | simp only [ok_mk]
    | refine putG_ok (by assumption) ?_ | (intro _ _ _) | (intro _ _) | (intro _) | split at e | split

theorem execSari_ok {a : GReg} {b : GReg} {k : Fin 64} {s : State} {nx : State} (e : execSari a b k s = .next nx)
    (hs : s.memoryOk = true) :
    nx.memoryOk = true := by
  unfold execSari at e
  try dsimp only at e
  repeat' first
    | (with_reducible assumption) | (with_reducible injection e with e; subst e)
    | (with_reducible injection e; done) | (with_reducible apply ok3_same) | simp only [ok_mk]
    | refine putG_ok (by assumption) ?_ | (intro _ _ _) | (intro _ _) | (intro _) | split at e | split

theorem execRoti_ok {a : GReg} {b : GReg} {k : Fin 64} {s : State} {nx : State} (e : execRoti a b k s = .next nx)
    (hs : s.memoryOk = true) :
    nx.memoryOk = true := by
  unfold execRoti at e
  try dsimp only at e
  repeat' first
    | (with_reducible assumption) | (with_reducible injection e with e; subst e)
    | (with_reducible injection e; done) | (with_reducible apply ok3_same) | simp only [ok_mk]
    | refine putG_ok (by assumption) ?_ | (intro _ _ _) | (intro _ _) | (intro _) | split at e | split

theorem execClz_ok {a : GReg} {b : GReg} {s : State} {nx : State} (e : execClz a b s = .next nx) (hs
    : s.memoryOk = true) :
    nx.memoryOk = true := by
  unfold execClz at e
  try dsimp only at e
  repeat' first
    | (with_reducible assumption) | (with_reducible injection e with e; subst e)
    | (with_reducible injection e; done) | (with_reducible apply ok3_same) | simp only [ok_mk]
    | refine putG_ok (by assumption) ?_ | (intro _ _ _) | (intro _ _) | (intro _) | split at e | split

theorem execCtz_ok {a : GReg} {b : GReg} {s : State} {nx : State} (e : execCtz a b s = .next nx) (hs
    : s.memoryOk = true) :
    nx.memoryOk = true := by
  unfold execCtz at e
  try dsimp only at e
  repeat' first
    | (with_reducible assumption) | (with_reducible injection e with e; subst e)
    | (with_reducible injection e; done) | (with_reducible apply ok3_same) | simp only [ok_mk]
    | refine putG_ok (by assumption) ?_ | (intro _ _ _) | (intro _ _) | (intro _) | split at e | split

theorem execPop_ok {a : GReg} {b : GReg} {s : State} {nx : State} (e : execPop a b s = .next nx) (hs
    : s.memoryOk = true) :
    nx.memoryOk = true := by
  unfold execPop at e
  try dsimp only at e
  repeat' first
    | (with_reducible assumption) | (with_reducible injection e with e; subst e)
    | (with_reducible injection e; done) | (with_reducible apply ok3_same) | simp only [ok_mk]
    | refine putG_ok (by assumption) ?_ | (intro _ _ _) | (intro _ _) | (intro _) | split at e | split

theorem execSext_ok {ty : Ty} {a : GReg} {b : GReg} {s : State} {nx : State} (e : execSext ty a b s = .next nx)
    (hs : s.memoryOk = true) :
    nx.memoryOk = true := by
  unfold execSext at e
  try dsimp only at e
  repeat' first
    | (with_reducible assumption) | (with_reducible injection e with e; subst e)
    | (with_reducible injection e; done) | (with_reducible apply ok3_same) | simp only [ok_mk]
    | refine putG_ok (by assumption) ?_ | (intro _ _ _) | (intro _ _) | (intro _) | split at e | split

theorem execZext_ok {ty : Ty} {a : GReg} {b : GReg} {s : State} {nx : State} (e : execZext ty a b s = .next nx)
    (hs : s.memoryOk = true) :
    nx.memoryOk = true := by
  unfold execZext at e
  try dsimp only at e
  repeat' first
    | (with_reducible assumption) | (with_reducible injection e with e; subst e)
    | (with_reducible injection e; done) | (with_reducible apply ok3_same) | simp only [ok_mk]
    | refine putG_ok (by assumption) ?_ | (intro _ _ _) | (intro _ _) | (intro _) | split at e | split

theorem execBswp_ok {ty : Ty} {a : GReg} {b : GReg} {s : State} {nx : State} (e : execBswp ty a b s = .next nx)
    (hs : s.memoryOk = true) :
    nx.memoryOk = true := by
  unfold execBswp at e
  try dsimp only at e
  repeat' first
    | (with_reducible assumption) | (with_reducible injection e with e; subst e)
    | (with_reducible injection e; done) | (with_reducible apply ok3_same) | simp only [ok_mk]
    | refine putG_ok (by assumption) ?_ | (intro _ _ _) | (intro _ _) | (intro _) | split at e | split

theorem execBfx_ok {ty : Ty} {a : GReg} {b : GReg} {lo : Fin 64} {w : Fin 128} {s : State} {nx : State} (e
    : execBfx ty a b lo w s = .next nx) (hs : s.memoryOk = true) :
    nx.memoryOk = true := by
  unfold execBfx at e
  try dsimp only at e
  repeat' first
    | (with_reducible assumption) | (with_reducible injection e with e; subst e)
    | (with_reducible injection e; done) | (with_reducible apply ok3_same) | simp only [ok_mk]
    | refine putG_ok (by assumption) ?_ | (intro _ _ _) | (intro _ _) | (intro _) | split at e | split

theorem execBfi_ok {a : GReg} {b : GReg} {lo : Fin 64} {w : Fin 128} {s : State} {nx : State} (e
    : execBfi a b lo w s = .next nx) (hs : s.memoryOk = true) :
    nx.memoryOk = true := by
  unfold execBfi at e
  try dsimp only at e
  repeat' first
    | (with_reducible assumption) | (with_reducible injection e with e; subst e)
    | (with_reducible injection e; done) | (with_reducible apply ok3_same) | simp only [ok_mk]
    | refine putG_ok (by assumption) ?_ | (intro _ _ _) | (intro _ _) | (intro _) | split at e | split

theorem execCmp_ok {cc : Cc} {p : PReg} {b : GReg} {c : GReg} {s : State} {nx : State} (e
    : execCmp cc p b c s = .next nx) (hs : s.memoryOk = true) :
    nx.memoryOk = true := by
  unfold execCmp at e
  try dsimp only at e
  repeat' first
    | (with_reducible assumption) | (with_reducible injection e with e; subst e)
    | (with_reducible injection e; done) | (with_reducible apply ok3_same) | simp only [ok_mk]
    | refine putP_ok (by assumption) ?_ | (intro _ _ _) | (intro _ _) | (intro _) | split at e | split

theorem execCmpi_ok {cc : Cc} {p : PReg} {b : GReg} {imm : BitVec 32} {s : State} {nx : State} (e
    : execCmpi cc p b imm s = .next nx) (hs : s.memoryOk = true) :
    nx.memoryOk = true := by
  unfold execCmpi at e
  try dsimp only at e
  repeat' first
    | (with_reducible assumption) | (with_reducible injection e with e; subst e)
    | (with_reducible injection e; done) | (with_reducible apply ok3_same) | simp only [ok_mk]
    | refine putP_ok (by assumption) ?_ | (intro _ _ _) | (intro _ _) | (intro _) | split at e | split

theorem execSel_ok {a : GReg} {p : PReg} {c : GReg} {d : GReg} {s : State} {nx : State} (e
    : execSel a p c d s = .next nx) (hs : s.memoryOk = true) :
    nx.memoryOk = true := by
  unfold execSel at e
  try dsimp only at e
  repeat' first
    | (with_reducible assumption) | (with_reducible injection e with e; subst e)
    | (with_reducible injection e; done) | (with_reducible apply ok3_same) | simp only [ok_mk]
    | refine putG_ok (by assumption) ?_ | (intro _ _ _) | (intro _ _) | (intro _) | split at e | split

theorem execLi_ok {a : GReg} {imm : Word} {s : State} {nx : State} (e : execLi a imm s = .next nx) (hs
    : s.memoryOk = true) :
    nx.memoryOk = true := by
  unfold execLi at e
  try dsimp only at e
  repeat' first
    | (with_reducible assumption) | (with_reducible injection e with e; subst e)
    | (with_reducible injection e; done) | (with_reducible apply ok3_same) | simp only [ok_mk]
    | refine putG_ok (by assumption) ?_ | (intro _ _ _) | (intro _ _) | (intro _) | split at e | split

theorem execMov_ok {m : MovOp} {s : State} {nx : State} (e : execMov m s = .next nx) (hs : s.memoryOk = true) :
    nx.memoryOk = true := by
  unfold execMov at e
  try dsimp only at e
  repeat' first
    | (with_reducible assumption) | (with_reducible injection e with e; subst e)
    | (with_reducible injection e; done) | (with_reducible apply ok3_same) | simp only [ok_mk]
    | with_reducible apply retire_ok | with_reducible apply upd_ok | refine putG_ok (by assumption) ?_
    | (intro _ _ _) | (intro _ _) | (intro _) | split at e | split

theorem execLea_ok {a : GReg} {base : GReg} {idx : GReg} {off : BitVec 32} {s : State} {nx : State} (e
    : execLea a base idx off s = .next nx) (hs : s.memoryOk = true) :
    nx.memoryOk = true := by
  unfold execLea at e
  try dsimp only at e
  repeat' first
    | (with_reducible assumption) | (with_reducible injection e with e; subst e)
    | (with_reducible injection e; done) | (with_reducible apply ok3_same) | simp only [ok_mk]
    | refine putG_ok (by assumption) ?_ | (intro _ _ _) | (intro _ _) | (intro _) | split at e | split

theorem execPand_ok {a : PReg} {b : PReg} {c : PReg} {s : State} {nx : State} (e : execPand a b c s = .next nx)
    (hs : s.memoryOk = true) :
    nx.memoryOk = true := by
  unfold execPand at e
  try dsimp only at e
  repeat' first
    | (with_reducible assumption) | (with_reducible injection e with e; subst e)
    | (with_reducible injection e; done) | (with_reducible apply ok3_same) | simp only [ok_mk]
    | refine putP_ok (by assumption) ?_ | (intro _ _ _) | (intro _ _) | (intro _) | split at e | split

theorem execPor_ok {a : PReg} {b : PReg} {c : PReg} {s : State} {nx : State} (e : execPor a b c s = .next nx) (hs
    : s.memoryOk = true) :
    nx.memoryOk = true := by
  unfold execPor at e
  try dsimp only at e
  repeat' first
    | (with_reducible assumption) | (with_reducible injection e with e; subst e)
    | (with_reducible injection e; done) | (with_reducible apply ok3_same) | simp only [ok_mk]
    | refine putP_ok (by assumption) ?_ | (intro _ _ _) | (intro _ _) | (intro _) | split at e | split

theorem execPxor_ok {a : PReg} {b : PReg} {c : PReg} {s : State} {nx : State} (e : execPxor a b c s = .next nx)
    (hs : s.memoryOk = true) :
    nx.memoryOk = true := by
  unfold execPxor at e
  try dsimp only at e
  repeat' first
    | (with_reducible assumption) | (with_reducible injection e with e; subst e)
    | (with_reducible injection e; done) | (with_reducible apply ok3_same) | simp only [ok_mk]
    | refine putP_ok (by assumption) ?_ | (intro _ _ _) | (intro _ _) | (intro _) | split at e | split

theorem execPnot_ok {a : PReg} {b : PReg} {s : State} {nx : State} (e : execPnot a b s = .next nx) (hs
    : s.memoryOk = true) :
    nx.memoryOk = true := by
  unfold execPnot at e
  try dsimp only at e
  repeat' first
    | (with_reducible assumption) | (with_reducible injection e with e; subst e)
    | (with_reducible injection e; done) | (with_reducible apply ok3_same) | simp only [ok_mk]
    | refine putP_ok (by assumption) ?_ | (intro _ _ _) | (intro _ _) | (intro _) | split at e | split

theorem putF_ok {s : State} {a : GReg} {x : Nat × Num.Flags} {nx : State} (e : State.putF s a x = .next nx) (hs
    : s.memoryOk = true) :
    nx.memoryOk = true := by
  unfold State.putF at e
  try dsimp only at e
  repeat' first
    | (with_reducible assumption) | (with_reducible injection e with e; subst e)
    | (with_reducible injection e; done) | (with_reducible apply ok3_same) | simp only [ok_mk]
    | with_reducible apply orFlags_ok | with_reducible apply retire_ok | with_reducible apply setG_ok
    | (intro _ _ _) | (intro _ _) | (intro _) | split at e | split

theorem execFadd_ok {ty : Ty} {a : GReg} {b : GReg} {c : GReg} {s : State} {nx : State} (e
    : execFadd ty a b c s = .next nx) (hs : s.memoryOk = true) :
    nx.memoryOk = true := by
  unfold execFadd at e
  try dsimp only at e
  repeat' first
    | (with_reducible assumption) | (with_reducible injection e with e; subst e)
    | (with_reducible injection e; done) | (with_reducible apply ok3_same) | simp only [ok_mk]
    | refine putF_ok (by assumption) ?_ | (intro _ _ _) | (intro _ _) | (intro _) | split at e | split

theorem execFsub_ok {ty : Ty} {a : GReg} {b : GReg} {c : GReg} {s : State} {nx : State} (e
    : execFsub ty a b c s = .next nx) (hs : s.memoryOk = true) :
    nx.memoryOk = true := by
  unfold execFsub at e
  try dsimp only at e
  repeat' first
    | (with_reducible assumption) | (with_reducible injection e with e; subst e)
    | (with_reducible injection e; done) | (with_reducible apply ok3_same) | simp only [ok_mk]
    | refine putF_ok (by assumption) ?_ | (intro _ _ _) | (intro _ _) | (intro _) | split at e | split

theorem execFmul_ok {ty : Ty} {a : GReg} {b : GReg} {c : GReg} {s : State} {nx : State} (e
    : execFmul ty a b c s = .next nx) (hs : s.memoryOk = true) :
    nx.memoryOk = true := by
  unfold execFmul at e
  try dsimp only at e
  repeat' first
    | (with_reducible assumption) | (with_reducible injection e with e; subst e)
    | (with_reducible injection e; done) | (with_reducible apply ok3_same) | simp only [ok_mk]
    | refine putF_ok (by assumption) ?_ | (intro _ _ _) | (intro _ _) | (intro _) | split at e | split

theorem execFdiv_ok {ty : Ty} {a : GReg} {b : GReg} {c : GReg} {s : State} {nx : State} (e
    : execFdiv ty a b c s = .next nx) (hs : s.memoryOk = true) :
    nx.memoryOk = true := by
  unfold execFdiv at e
  try dsimp only at e
  repeat' first
    | (with_reducible assumption) | (with_reducible injection e with e; subst e)
    | (with_reducible injection e; done) | (with_reducible apply ok3_same) | simp only [ok_mk]
    | refine putF_ok (by assumption) ?_ | (intro _ _ _) | (intro _ _) | (intro _) | split at e | split

theorem execFsqrt_ok {ty : Ty} {a : GReg} {b : GReg} {s : State} {nx : State} (e : execFsqrt ty a b s = .next nx)
    (hs : s.memoryOk = true) :
    nx.memoryOk = true := by
  unfold execFsqrt at e
  try dsimp only at e
  repeat' first
    | (with_reducible assumption) | (with_reducible injection e with e; subst e)
    | (with_reducible injection e; done) | (with_reducible apply ok3_same) | simp only [ok_mk]
    | refine putF_ok (by assumption) ?_ | (intro _ _ _) | (intro _ _) | (intro _) | split at e | split

theorem execFmin_ok {ty : Ty} {a : GReg} {b : GReg} {c : GReg} {s : State} {nx : State} (e
    : execFmin ty a b c s = .next nx) (hs : s.memoryOk = true) :
    nx.memoryOk = true := by
  unfold execFmin at e
  try dsimp only at e
  repeat' first
    | (with_reducible assumption) | (with_reducible injection e with e; subst e)
    | (with_reducible injection e; done) | (with_reducible apply ok3_same) | simp only [ok_mk]
    | refine putF_ok (by assumption) ?_ | (intro _ _ _) | (intro _ _) | (intro _) | split at e | split

theorem execFmax_ok {ty : Ty} {a : GReg} {b : GReg} {c : GReg} {s : State} {nx : State} (e
    : execFmax ty a b c s = .next nx) (hs : s.memoryOk = true) :
    nx.memoryOk = true := by
  unfold execFmax at e
  try dsimp only at e
  repeat' first
    | (with_reducible assumption) | (with_reducible injection e with e; subst e)
    | (with_reducible injection e; done) | (with_reducible apply ok3_same) | simp only [ok_mk]
    | refine putF_ok (by assumption) ?_ | (intro _ _ _) | (intro _ _) | (intro _) | split at e | split

theorem execFma_ok {ty : Ty} {a : GReg} {b : GReg} {c : GReg} {d : GReg} {s : State} {nx : State} (e
    : execFma ty a b c d s = .next nx) (hs : s.memoryOk = true) :
    nx.memoryOk = true := by
  unfold execFma at e
  try dsimp only at e
  repeat' first
    | (with_reducible assumption) | (with_reducible injection e with e; subst e)
    | (with_reducible injection e; done) | (with_reducible apply ok3_same) | simp only [ok_mk]
    | refine putF_ok (by assumption) ?_ | (intro _ _ _) | (intro _ _) | (intro _) | split at e | split

theorem execFcmp_ok {cc : FCc} {ty : Ty} {p : PReg} {b : GReg} {c : GReg} {s : State} {nx : State} (e
    : execFcmp cc ty p b c s = .next nx) (hs : s.memoryOk = true) :
    nx.memoryOk = true := by
  unfold execFcmp at e
  try dsimp only at e
  repeat' first
    | (with_reducible assumption) | (with_reducible injection e with e; subst e)
    | (with_reducible injection e; done) | (with_reducible apply ok3_same) | simp only [ok_mk]
    | with_reducible apply orFlags_ok | with_reducible apply retire_ok | with_reducible apply setP_ok
    | (intro _ _ _) | (intro _ _) | (intro _) | split at e | split

theorem execFcvt_ok {dst : Ty} {src : Ty} {a : GReg} {b : GReg} {s : State} {nx : State} (e
    : execFcvt dst src a b s = .next nx) (hs : s.memoryOk = true) :
    nx.memoryOk = true := by
  unfold execFcvt at e
  try dsimp only at e
  repeat' first
    | (with_reducible assumption) | (with_reducible injection e with e; subst e)
    | (with_reducible injection e; done) | (with_reducible apply ok3_same) | simp only [ok_mk]
    | refine putF_ok (by assumption) ?_ | (intro _ _ _) | (intro _ _) | (intro _) | split at e | split

theorem acceptVector_ok (s : State) (ws : List RegWrite) (hs : s.memoryOk = true) :
    (State.acceptVector s ws).memoryOk = true := by
  unfold State.acceptVector
  try dsimp only
  repeat' first
    | (with_reducible assumption) | (with_reducible apply ok3_same) | simp only [ok_mk]
    | with_reducible apply retire_ok | with_reducible apply upd_ok | (with_reducible apply foldl_ok)
    | refine foldl_pair_eq_ok (by assumption) ?_ ?_ | (with_reducible apply foldl_pair_ok) | dsimp only
    | (intro _ _ _) | (intro _ _) | (intro _) | split

theorem laneOp_ok (s : State) (dty : Ty) (a : Sys2Proof.VReg) (mask : LaneMask) (srcs : List
    (Machine.VReg × List Nat)) (f : Nat → Nat × Num.Flags) (hs : s.memoryOk = true) :
    (State.laneOp s dty a mask srcs f).memoryOk = true := by
  unfold State.laneOp
  try dsimp only
  repeat' first
    | (with_reducible assumption) | (with_reducible apply ok3_same) | simp only [ok_mk]
    | with_reducible apply acceptVector_ok | with_reducible apply trapWith_ok
    | (with_reducible apply foldl_ok) | refine foldl_pair_eq_ok (by assumption) ?_ ?_
    | (with_reducible apply foldl_pair_ok) | dsimp only | (intro _ _ _) | (intro _ _) | (intro _) | split

theorem vop1_ok (s : State) (ty : Ty) (a : Sys2Proof.VReg) (b : Sys2Proof.VReg) (mask : LaneMask) (f
    : Nat → Nat × Num.Flags) (hs : s.memoryOk = true) :
    (State.vop1 s ty a b mask f).memoryOk = true := by
  unfold State.vop1
  try dsimp only
  repeat' first
    | (with_reducible assumption) | (with_reducible apply ok3_same) | simp only [ok_mk]
    | with_reducible apply laneOp_ok | (intro _ _ _) | (intro _ _) | (intro _) | split

theorem vop2_ok (s : State) (ty : Ty) (a : Sys2Proof.VReg) (b : Sys2Proof.VReg) (c : Sys2Proof.VReg) (mask
    : LaneMask) (f : Nat → Nat → Nat × Num.Flags) (hs : s.memoryOk = true) :
    (State.vop2 s ty a b c mask f).memoryOk = true := by
  unfold State.vop2
  try dsimp only
  repeat' first
    | (with_reducible assumption) | (with_reducible apply ok3_same) | simp only [ok_mk]
    | with_reducible apply laneOp_ok | (intro _ _ _) | (intro _ _) | (intro _) | split

theorem vfloat1_ok (s : State) (ty : Ty) (a : Sys2Proof.VReg) (b : Sys2Proof.VReg) (mask : LaneMask) (rnd : Fin 5)
    (f : Num.Fmt → Num.Rm → Num.Val → Nat × Num.Flags) (hs : s.memoryOk = true) :
    (State.vfloat1 s ty a b mask rnd f).memoryOk = true := by
  unfold State.vfloat1
  try dsimp only
  repeat' first
    | (with_reducible assumption) | (with_reducible apply ok3_same) | simp only [ok_mk]
    | with_reducible apply vop1_ok | (intro _ _ _) | (intro _ _) | (intro _) | split

theorem vshift_ok (s : State) (op : ShiftOp) (ty : Ty) (a : Sys2Proof.VReg) (b : Sys2Proof.VReg) (k : ShiftCount)
    (mask : LaneMask) (hs : s.memoryOk = true) :
    (State.vshift s op ty a b k mask).memoryOk = true := by
  unfold State.vshift
  try dsimp only
  repeat' first
    | (with_reducible assumption) | (with_reducible apply ok3_same) | simp only [ok_mk]
    | with_reducible apply vop1_ok | with_reducible apply vop2_ok | (intro _ _ _) | (intro _ _) | (intro _)
    | split

theorem moveOp_ok (s : State) (ty : Ty) (a : Sys2Proof.VReg) (mask : LaneMask) (index : List
    (Machine.VReg × List Nat)) (src : Nat → Nat × Sys2Proof.VReg × Nat) (hs : s.memoryOk = true) :
    (State.moveOp s ty a mask index src).memoryOk = true := by
  unfold State.moveOp
  try dsimp only
  repeat' first
    | (with_reducible assumption) | (with_reducible apply ok3_same) | simp only [ok_mk]
    | with_reducible apply acceptVector_ok | with_reducible apply trapWith_ok | (intro _ _ _) | (intro _ _)
    | (intro _) | split

theorem convertVector_ok (s : State) (d : Ty) (src : Ty) (a : Sys2Proof.VReg) (b : Sys2Proof.VReg) (p : Nat) (sc
    : ScaleOp) (o : VOpt) (hs : s.memoryOk = true) :
    (State.convertVector s d src a b p sc o).memoryOk = true := by
  unfold State.convertVector
  try dsimp only
  repeat' first
    | (with_reducible assumption) | (with_reducible apply ok3_same) | simp only [ok_mk]
    | with_reducible apply acceptVector_ok | with_reducible apply illegal_ok
    | with_reducible apply trapWith_ok | (with_reducible apply foldl_ok)
    | refine foldl_pair_eq_ok (by assumption) ?_ ?_ | (with_reducible apply foldl_pair_ok) | dsimp only
    | with_reducible apply getD_ok | (intro _ _ _) | (intro _ _) | (intro _) | split

theorem execVadd_ok {ty : Ty} {a : Sys2Proof.VReg} {b : Sys2Proof.VReg} {c : Sys2Proof.VReg} {o : VOpt} {s
    : State} {nx : State} (e : execVadd ty a b c o s = .next nx) (hs : s.memoryOk = true) :
    nx.memoryOk = true := by
  unfold execVadd at e
  try dsimp only at e
  repeat' first
    | (with_reducible assumption) | (with_reducible injection e with e; subst e)
    | (with_reducible injection e; done) | (with_reducible apply ok3_same) | simp only [ok_mk]
    | with_reducible apply vop2_ok | (intro _ _ _) | (intro _ _) | (intro _) | split at e | split

theorem execVsub_ok {ty : Ty} {a : Sys2Proof.VReg} {b : Sys2Proof.VReg} {c : Sys2Proof.VReg} {o : VOpt} {s
    : State} {nx : State} (e : execVsub ty a b c o s = .next nx) (hs : s.memoryOk = true) :
    nx.memoryOk = true := by
  unfold execVsub at e
  try dsimp only at e
  repeat' first
    | (with_reducible assumption) | (with_reducible injection e with e; subst e)
    | (with_reducible injection e; done) | (with_reducible apply ok3_same) | simp only [ok_mk]
    | with_reducible apply vop2_ok | (intro _ _ _) | (intro _ _) | (intro _) | split at e | split

theorem execVmul_ok {ty : Ty} {a : Sys2Proof.VReg} {b : Sys2Proof.VReg} {c : Sys2Proof.VReg} {o : VOpt} {s
    : State} {nx : State} (e : execVmul ty a b c o s = .next nx) (hs : s.memoryOk = true) :
    nx.memoryOk = true := by
  unfold execVmul at e
  try dsimp only at e
  repeat' first
    | (with_reducible assumption) | (with_reducible injection e with e; subst e)
    | (with_reducible injection e; done) | (with_reducible apply ok3_same) | simp only [ok_mk]
    | with_reducible apply vop2_ok | (intro _ _ _) | (intro _ _) | (intro _) | split at e | split

theorem execVmin_ok {ty : Ty} {a : Sys2Proof.VReg} {b : Sys2Proof.VReg} {c : Sys2Proof.VReg} {mask : LaneMask} {s
    : State} {nx : State} (e : execVmin ty a b c mask s = .next nx) (hs : s.memoryOk = true) :
    nx.memoryOk = true := by
  unfold execVmin at e
  try dsimp only at e
  repeat' first
    | (with_reducible assumption) | (with_reducible injection e with e; subst e)
    | (with_reducible injection e; done) | (with_reducible apply ok3_same) | simp only [ok_mk]
    | with_reducible apply vop2_ok | (intro _ _ _) | (intro _ _) | (intro _) | split at e | split

theorem execVmax_ok {ty : Ty} {a : Sys2Proof.VReg} {b : Sys2Proof.VReg} {c : Sys2Proof.VReg} {mask : LaneMask} {s
    : State} {nx : State} (e : execVmax ty a b c mask s = .next nx) (hs : s.memoryOk = true) :
    nx.memoryOk = true := by
  unfold execVmax at e
  try dsimp only at e
  repeat' first
    | (with_reducible assumption) | (with_reducible injection e with e; subst e)
    | (with_reducible injection e; done) | (with_reducible apply ok3_same) | simp only [ok_mk]
    | with_reducible apply vop2_ok | (intro _ _ _) | (intro _ _) | (intro _) | split at e | split

theorem execVdiv_ok {ty : Ty} {a : Sys2Proof.VReg} {b : Sys2Proof.VReg} {c : Sys2Proof.VReg} {mask : LaneMask}
    {rnd : Fin 5} {s : State} {nx : State} (e : execVdiv ty a b c mask rnd s = .next nx) (hs : s.memoryOk = true) :
    nx.memoryOk = true := by
  unfold execVdiv at e
  try dsimp only at e
  repeat' first
    | (with_reducible assumption) | (with_reducible injection e with e; subst e)
    | (with_reducible injection e; done) | (with_reducible apply ok3_same) | simp only [ok_mk]
    | with_reducible apply vop2_ok | (intro _ _ _) | (intro _ _) | (intro _) | split at e | split

theorem execVfma_ok {ty : Ty} {a : Sys2Proof.VReg} {b : Sys2Proof.VReg} {c : Sys2Proof.VReg} {d : Sys2Proof.VReg}
    {o : VOpt} {s : State} {nx : State} (e : execVfma ty a b c d o s = .next nx) (hs : s.memoryOk = true) :
    nx.memoryOk = true := by
  unfold execVfma at e
  try dsimp only at e
  repeat' first
    | (with_reducible assumption) | (with_reducible injection e with e; subst e)
    | (with_reducible injection e; done) | (with_reducible apply ok3_same) | simp only [ok_mk]
    | with_reducible apply laneOp_ok | (intro _ _ _) | (intro _ _) | (intro _) | split at e | split

theorem execVsqrt_ok {ty : Ty} {a : Sys2Proof.VReg} {b : Sys2Proof.VReg} {mask : LaneMask} {rnd : Fin 5} {s
    : State} {nx : State} (e : execVsqrt ty a b mask rnd s = .next nx) (hs : s.memoryOk = true) :
    nx.memoryOk = true := by
  unfold execVsqrt at e
  try dsimp only at e
  repeat' first
    | (with_reducible assumption) | (with_reducible injection e with e; subst e)
    | (with_reducible injection e; done) | (with_reducible apply ok3_same) | simp only [ok_mk]
    | with_reducible apply vfloat1_ok | (intro _ _ _) | (intro _ _) | (intro _) | split at e | split

theorem execVrcp_ok {ty : Ty} {a : Sys2Proof.VReg} {b : Sys2Proof.VReg} {mask : LaneMask} {rnd : Fin 5} {s
    : State} {nx : State} (e : execVrcp ty a b mask rnd s = .next nx) (hs : s.memoryOk = true) :
    nx.memoryOk = true := by
  unfold execVrcp at e
  try dsimp only at e
  repeat' first
    | (with_reducible assumption) | (with_reducible injection e with e; subst e)
    | (with_reducible injection e; done) | (with_reducible apply ok3_same) | simp only [ok_mk]
    | with_reducible apply vfloat1_ok | (intro _ _ _) | (intro _ _) | (intro _) | split at e | split

theorem execVrsq_ok {ty : Ty} {a : Sys2Proof.VReg} {b : Sys2Proof.VReg} {mask : LaneMask} {rnd : Fin 5} {s
    : State} {nx : State} (e : execVrsq ty a b mask rnd s = .next nx) (hs : s.memoryOk = true) :
    nx.memoryOk = true := by
  unfold execVrsq at e
  try dsimp only at e
  repeat' first
    | (with_reducible assumption) | (with_reducible injection e with e; subst e)
    | (with_reducible injection e; done) | (with_reducible apply ok3_same) | simp only [ok_mk]
    | with_reducible apply vfloat1_ok | (intro _ _ _) | (intro _ _) | (intro _) | split at e | split

theorem execVexp2_ok {ty : Ty} {a : Sys2Proof.VReg} {b : Sys2Proof.VReg} {mask : LaneMask} {rnd : Fin 5} {s
    : State} {nx : State} (e : execVexp2 ty a b mask rnd s = .next nx) (hs : s.memoryOk = true) :
    nx.memoryOk = true := by
  unfold execVexp2 at e
  try dsimp only at e
  repeat' first
    | (with_reducible assumption) | (with_reducible injection e with e; subst e)
    | (with_reducible injection e; done) | (with_reducible apply ok3_same) | simp only [ok_mk]
    | with_reducible apply vfloat1_ok | (intro _ _ _) | (intro _ _) | (intro _) | split at e | split

theorem execVlog2_ok {ty : Ty} {a : Sys2Proof.VReg} {b : Sys2Proof.VReg} {mask : LaneMask} {rnd : Fin 5} {s
    : State} {nx : State} (e : execVlog2 ty a b mask rnd s = .next nx) (hs : s.memoryOk = true) :
    nx.memoryOk = true := by
  unfold execVlog2 at e
  try dsimp only at e
  repeat' first
    | (with_reducible assumption) | (with_reducible injection e with e; subst e)
    | (with_reducible injection e; done) | (with_reducible apply ok3_same) | simp only [ok_mk]
    | with_reducible apply vfloat1_ok | (intro _ _ _) | (intro _ _) | (intro _) | split at e | split

theorem execVabs_ok {ty : Ty} {a : Sys2Proof.VReg} {b : Sys2Proof.VReg} {mask : LaneMask} {sat : Bool} {s : State}
    {nx : State} (e : execVabs ty a b mask sat s = .next nx) (hs : s.memoryOk = true) :
    nx.memoryOk = true := by
  unfold execVabs at e
  try dsimp only at e
  repeat' first
    | (with_reducible assumption) | (with_reducible injection e with e; subst e)
    | (with_reducible injection e; done) | (with_reducible apply ok3_same) | simp only [ok_mk]
    | with_reducible apply vop1_ok | (intro _ _ _) | (intro _ _) | (intro _) | split at e | split

theorem execVneg_ok {ty : Ty} {a : Sys2Proof.VReg} {b : Sys2Proof.VReg} {mask : LaneMask} {sat : Bool} {s : State}
    {nx : State} (e : execVneg ty a b mask sat s = .next nx) (hs : s.memoryOk = true) :
    nx.memoryOk = true := by
  unfold execVneg at e
  try dsimp only at e
  repeat' first
    | (with_reducible assumption) | (with_reducible injection e with e; subst e)
    | (with_reducible injection e; done) | (with_reducible apply ok3_same) | simp only [ok_mk]
    | with_reducible apply vop1_ok | (intro _ _ _) | (intro _ _) | (intro _) | split at e | split

theorem execVnot_ok {ty : Ty} {a : Sys2Proof.VReg} {b : Sys2Proof.VReg} {mask : LaneMask} {s : State} {nx : State}
    (e : execVnot ty a b mask s = .next nx) (hs : s.memoryOk = true) :
    nx.memoryOk = true := by
  unfold execVnot at e
  try dsimp only at e
  repeat' first
    | (with_reducible assumption) | (with_reducible injection e with e; subst e)
    | (with_reducible injection e; done) | (with_reducible apply ok3_same) | simp only [ok_mk]
    | with_reducible apply vop1_ok | (intro _ _ _) | (intro _ _) | (intro _) | split at e | split

theorem execVand_ok {ty : Ty} {a : Sys2Proof.VReg} {b : Sys2Proof.VReg} {c : Sys2Proof.VReg} {mask : LaneMask} {s
    : State} {nx : State} (e : execVand ty a b c mask s = .next nx) (hs : s.memoryOk = true) :
    nx.memoryOk = true := by
  unfold execVand at e
  try dsimp only at e
  repeat' first
    | (with_reducible assumption) | (with_reducible injection e with e; subst e)
    | (with_reducible injection e; done) | (with_reducible apply ok3_same) | simp only [ok_mk]
    | with_reducible apply vop2_ok | (intro _ _ _) | (intro _ _) | (intro _) | split at e | split

theorem execVor_ok {ty : Ty} {a : Sys2Proof.VReg} {b : Sys2Proof.VReg} {c : Sys2Proof.VReg} {mask : LaneMask} {s
    : State} {nx : State} (e : execVor ty a b c mask s = .next nx) (hs : s.memoryOk = true) :
    nx.memoryOk = true := by
  unfold execVor at e
  try dsimp only at e
  repeat' first
    | (with_reducible assumption) | (with_reducible injection e with e; subst e)
    | (with_reducible injection e; done) | (with_reducible apply ok3_same) | simp only [ok_mk]
    | with_reducible apply vop2_ok | (intro _ _ _) | (intro _ _) | (intro _) | split at e | split

theorem execVxor_ok {ty : Ty} {a : Sys2Proof.VReg} {b : Sys2Proof.VReg} {c : Sys2Proof.VReg} {mask : LaneMask} {s
    : State} {nx : State} (e : execVxor ty a b c mask s = .next nx) (hs : s.memoryOk = true) :
    nx.memoryOk = true := by
  unfold execVxor at e
  try dsimp only at e
  repeat' first
    | (with_reducible assumption) | (with_reducible injection e with e; subst e)
    | (with_reducible injection e; done) | (with_reducible apply ok3_same) | simp only [ok_mk]
    | with_reducible apply vop2_ok | (intro _ _ _) | (intro _ _) | (intro _) | split at e | split

theorem execVshl_ok {ty : Ty} {a : Sys2Proof.VReg} {b : Sys2Proof.VReg} {k : ShiftCount} {mask : LaneMask} {s
    : State} {nx : State} (e : execVshl ty a b k mask s = .next nx) (hs : s.memoryOk = true) :
    nx.memoryOk = true := by
  unfold execVshl at e
  try dsimp only at e
  repeat' first
    | (with_reducible assumption) | (with_reducible injection e with e; subst e)
    | (with_reducible injection e; done) | (with_reducible apply ok3_same) | simp only [ok_mk]
    | with_reducible apply vshift_ok | (intro _ _ _) | (intro _ _) | (intro _) | split at e | split

theorem execVshr_ok {ty : Ty} {a : Sys2Proof.VReg} {b : Sys2Proof.VReg} {k : ShiftCount} {mask : LaneMask} {s
    : State} {nx : State} (e : execVshr ty a b k mask s = .next nx) (hs : s.memoryOk = true) :
    nx.memoryOk = true := by
  unfold execVshr at e
  try dsimp only at e
  repeat' first
    | (with_reducible assumption) | (with_reducible injection e with e; subst e)
    | (with_reducible injection e; done) | (with_reducible apply ok3_same) | simp only [ok_mk]
    | with_reducible apply vshift_ok | (intro _ _ _) | (intro _ _) | (intro _) | split at e | split

theorem execVsar_ok {ty : Ty} {a : Sys2Proof.VReg} {b : Sys2Proof.VReg} {k : ShiftCount} {mask : LaneMask} {s
    : State} {nx : State} (e : execVsar ty a b k mask s = .next nx) (hs : s.memoryOk = true) :
    nx.memoryOk = true := by
  unfold execVsar at e
  try dsimp only at e
  repeat' first
    | (with_reducible assumption) | (with_reducible injection e with e; subst e)
    | (with_reducible injection e; done) | (with_reducible apply ok3_same) | simp only [ok_mk]
    | with_reducible apply vshift_ok | (intro _ _ _) | (intro _ _) | (intro _) | split at e | split

theorem execVdot_ok {ty : Ty} {a : Sys2Proof.VReg} {b : Sys2Proof.VReg} {c : Sys2Proof.VReg} {mask : LaneMask}
    {rnd : Fin 5} {s : State} {nx : State} (e : execVdot ty a b c mask rnd s = .next nx) (hs : s.memoryOk = true) :
    nx.memoryOk = true := by
  unfold execVdot at e
  try dsimp only at e
  repeat' first
    | (with_reducible assumption) | (with_reducible injection e with e; subst e)
    | (with_reducible injection e; done) | (with_reducible apply ok3_same) | simp only [ok_mk]
    | with_reducible apply laneOp_ok | (with_reducible apply foldl_ok)
    | refine foldl_pair_eq_ok (by assumption) ?_ ?_ | (with_reducible apply foldl_pair_ok) | dsimp only
    | (intro _ _ _) | (intro _ _) | (intro _) | split at e | split

theorem execVmacc_ok {ty : Ty} {a : Sys2Proof.VReg} {b : Sys2Proof.VReg} {c : GReg} {o : VOpt} {s : State} {nx
    : State} (e : execVmacc ty a b c o s = .next nx) (hs : s.memoryOk = true) :
    nx.memoryOk = true := by
  unfold execVmacc at e
  try dsimp only at e
  repeat' first
    | (with_reducible assumption) | (with_reducible injection e with e; subst e)
    | (with_reducible injection e; done) | (with_reducible apply ok3_same) | simp only [ok_mk]
    | with_reducible apply laneOp_ok | (intro _ _ _) | (intro _ _) | (intro _) | split at e | split

theorem execVcnt_ok {op : CntOp} {ty : Ty} {a : Sys2Proof.VReg} {b : Sys2Proof.VReg} {mask : LaneMask} {s : State}
    {nx : State} (e : execVcnt op ty a b mask s = .next nx) (hs : s.memoryOk = true) :
    nx.memoryOk = true := by
  unfold execVcnt at e
  try dsimp only at e
  repeat' first
    | (with_reducible assumption) | (with_reducible injection e with e; subst e)
    | (with_reducible injection e; done) | (with_reducible apply ok3_same) | simp only [ok_mk]
    | with_reducible apply vop1_ok | (intro _ _ _) | (intro _ _) | (intro _) | split at e | split

theorem execVcmp_ok {cc : VCc} {ty : Ty} {m : MReg} {b : Sys2Proof.VReg} {c : Sys2Proof.VReg} {mask : LaneMask} {s
    : State} {nx : State} (e : execVcmp cc ty m b c mask s = .next nx) (hs : s.memoryOk = true) :
    nx.memoryOk = true := by
  unfold execVcmp at e
  try dsimp only at e
  repeat' first
    | (with_reducible assumption) | (with_reducible injection e with e; subst e)
    | (with_reducible injection e; done) | (with_reducible apply ok3_same) | simp only [ok_mk]
    | with_reducible apply acceptVector_ok | with_reducible apply trapWith_ok
    | (with_reducible apply foldl_ok) | refine foldl_pair_eq_ok (by assumption) ?_ ?_
    | (with_reducible apply foldl_pair_ok) | dsimp only | (intro _ _ _) | (intro _ _) | (intro _) | split at e
    | split

theorem execVsel_ok {ty : Ty} {a : Sys2Proof.VReg} {m : MReg} {c : Sys2Proof.VReg} {d : Sys2Proof.VReg} {s
    : State} {nx : State} (e : execVsel ty a m c d s = .next nx) (hs : s.memoryOk = true) :
    nx.memoryOk = true := by
  unfold execVsel at e
  try dsimp only at e
  repeat' first
    | (with_reducible assumption) | (with_reducible injection e with e; subst e)
    | (with_reducible injection e; done) | (with_reducible apply ok3_same) | simp only [ok_mk]
    | with_reducible apply moveOp_ok | (intro _ _ _) | (intro _ _) | (intro _) | split at e | split

theorem execVcvt_ok {dst : Ty} {src : Ty} {a : Sys2Proof.VReg} {b : Sys2Proof.VReg} {p : Fin 16} {scale : ScaleOp}
    {o : VOpt} {s : State} {nx : State} (e : execVcvt dst src a b p scale o s = .next nx) (hs : s.memoryOk = true) :
    nx.memoryOk = true := by
  unfold execVcvt at e
  try dsimp only at e
  repeat' first
    | (with_reducible assumption) | (with_reducible injection e with e; subst e)
    | (with_reducible injection e; done) | (with_reducible apply ok3_same) | simp only [ok_mk]
    | with_reducible apply convertVector_ok | (intro _ _ _) | (intro _ _) | (intro _) | split at e | split

theorem execVsat_ok {ty : Ty} {a : Sys2Proof.VReg} {b : Sys2Proof.VReg} {n : Fin 128} {mask : LaneMask} {s
    : State} {nx : State} (e : execVsat ty a b n mask s = .next nx) (hs : s.memoryOk = true) :
    nx.memoryOk = true := by
  unfold execVsat at e
  try dsimp only at e
  repeat' first
    | (with_reducible assumption) | (with_reducible injection e with e; subst e)
    | (with_reducible injection e; done) | (with_reducible apply ok3_same) | simp only [ok_mk]
    | with_reducible apply vop1_ok | (intro _ _ _) | (intro _ _) | (intro _) | split at e | split

theorem execVpack_ok {ty : Ty} {a : Sys2Proof.VReg} {b : Sys2Proof.VReg} {c : Sys2Proof.VReg} {mask : LaneMask}
    {sat : Bool} {s : State} {nx : State} (e : execVpack ty a b c mask sat s = .next nx) (hs : s.memoryOk = true) :
    nx.memoryOk = true := by
  unfold execVpack at e
  try dsimp only at e
  repeat' first
    | (with_reducible assumption) | (with_reducible injection e with e; subst e)
    | (with_reducible injection e; done) | (with_reducible apply ok3_same) | simp only [ok_mk]
    | with_reducible apply laneOp_ok | (intro _ _ _) | (intro _ _) | (intro _) | split at e | split

theorem execVunpk_ok {ty : Ty} {a : Sys2Proof.VReg} {b : Sys2Proof.VReg} {p : Bool} {mask : LaneMask} {s : State}
    {nx : State} (e : execVunpk ty a b p mask s = .next nx) (hs : s.memoryOk = true) :
    nx.memoryOk = true := by
  unfold execVunpk at e
  try dsimp only at e
  repeat' first
    | (with_reducible assumption) | (with_reducible injection e with e; subst e)
    | (with_reducible injection e; done) | (with_reducible apply ok3_same) | simp only [ok_mk]
    | with_reducible apply laneOp_ok | (intro _ _ _) | (intro _ _) | (intro _) | split at e | split

theorem execVred_ok {op : VComb} {ty : Ty} {a : GReg} {b : Sys2Proof.VReg} {mask : LaneMask} {rnd : Fin 5} {s
    : State} {nx : State} (e : execVred op ty a b mask rnd s = .next nx) (hs : s.memoryOk = true) :
    nx.memoryOk = true := by
  unfold execVred at e
  try dsimp only at e
  repeat' first
    | (with_reducible assumption) | (with_reducible injection e with e; subst e)
    | (with_reducible injection e; done) | (with_reducible apply ok3_same) | simp only [ok_mk]
    | with_reducible apply acceptVector_ok | with_reducible apply trapWith_ok | with_reducible apply getD_ok
    | (intro _ _ _) | (intro _ _) | (intro _) | split at e | split

theorem execVscan_ok {op : VComb} {ty : Ty} {a : Sys2Proof.VReg} {b : Sys2Proof.VReg} {mask : LaneMask} {rnd
    : Fin 5} {s : State} {nx : State} (e : execVscan op ty a b mask rnd s = .next nx) (hs : s.memoryOk = true) :
    nx.memoryOk = true := by
  unfold execVscan at e
  try dsimp only at e
  repeat' first
    | (with_reducible assumption) | (with_reducible injection e with e; subst e)
    | (with_reducible injection e; done) | (with_reducible apply ok3_same) | simp only [ok_mk]
    | with_reducible apply acceptVector_ok | with_reducible apply trapWith_ok | with_reducible apply getD_ok
    | (intro _ _ _) | (intro _ _) | (intro _) | split at e | split

theorem execVperm_ok {ty : Ty} {a : Sys2Proof.VReg} {b : Sys2Proof.VReg} {c : Sys2Proof.VReg} {mask : LaneMask} {s
    : State} {nx : State} (e : execVperm ty a b c mask s = .next nx) (hs : s.memoryOk = true) :
    nx.memoryOk = true := by
  unfold execVperm at e
  try dsimp only at e
  repeat' first
    | (with_reducible assumption) | (with_reducible injection e with e; subst e)
    | (with_reducible injection e; done) | (with_reducible apply ok3_same) | simp only [ok_mk]
    | with_reducible apply moveOp_ok | (intro _ _ _) | (intro _ _) | (intro _) | split at e | split

theorem execVshuf_ok {ty : Ty} {a : Sys2Proof.VReg} {b : Sys2Proof.VReg} {c : Sys2Proof.VReg} {mask : LaneMask} {s
    : State} {nx : State} (e : execVshuf ty a b c mask s = .next nx) (hs : s.memoryOk = true) :
    nx.memoryOk = true := by
  unfold execVshuf at e
  try dsimp only at e
  repeat' first
    | (with_reducible assumption) | (with_reducible injection e with e; subst e)
    | (with_reducible injection e; done) | (with_reducible apply ok3_same) | simp only [ok_mk]
    | with_reducible apply moveOp_ok | (intro _ _ _) | (intro _ _) | (intro _) | split at e | split

theorem execVbcast_ok {ty : Ty} {a : Sys2Proof.VReg} {b : GReg} {mask : LaneMask} {s : State} {nx : State} (e
    : execVbcast ty a b mask s = .next nx) (hs : s.memoryOk = true) :
    nx.memoryOk = true := by
  unfold execVbcast at e
  try dsimp only at e
  repeat' first
    | (with_reducible assumption) | (with_reducible injection e with e; subst e)
    | (with_reducible injection e; done) | (with_reducible apply ok3_same) | simp only [ok_mk]
    | with_reducible apply laneOp_ok | (intro _ _ _) | (intro _ _) | (intro _) | split at e | split

theorem execVext_ok {ty : Ty} {a : GReg} {b : Sys2Proof.VReg} {n : LaneIndex} {s : State} {nx : State} (e
    : execVext ty a b n s = .next nx) (hs : s.memoryOk = true) :
    nx.memoryOk = true := by
  unfold execVext at e
  try dsimp only at e
  repeat' first
    | (with_reducible assumption) | (with_reducible injection e with e; subst e)
    | (with_reducible injection e; done) | (with_reducible apply ok3_same) | simp only [ok_mk]
    | with_reducible apply acceptVector_ok | with_reducible apply trapWith_ok | (intro _ _ _) | (intro _ _)
    | (intro _) | split at e | split

theorem execVins_ok {ty : Ty} {a : Sys2Proof.VReg} {b : GReg} {n : LaneIndex} {s : State} {nx : State} (e
    : execVins ty a b n s = .next nx) (hs : s.memoryOk = true) :
    nx.memoryOk = true := by
  unfold execVins at e
  try dsimp only at e
  repeat' first
    | (with_reducible assumption) | (with_reducible injection e with e; subst e)
    | (with_reducible injection e; done) | (with_reducible apply ok3_same) | simp only [ok_mk]
    | with_reducible apply acceptVector_ok | (intro _ _ _) | (intro _ _) | (intro _) | split at e | split

theorem execVmov_ok {a : Sys2Proof.VReg} {b : Sys2Proof.VReg} {s : State} {nx : State} (e
    : execVmov a b s = .next nx) (hs : s.memoryOk = true) :
    nx.memoryOk = true := by
  unfold execVmov at e
  try dsimp only at e
  repeat' first
    | (with_reducible assumption) | (with_reducible injection e with e; subst e)
    | (with_reducible injection e; done) | (with_reducible apply ok3_same) | simp only [ok_mk]
    | with_reducible apply acceptVector_ok | (intro _ _ _) | (intro _ _) | (intro _) | split at e | split

theorem execMand_ok {ty : Ty} {a : MReg} {b : MReg} {c : MReg} {s : State} {nx : State} (e
    : execMand ty a b c s = .next nx) (hs : s.memoryOk = true) :
    nx.memoryOk = true := by
  unfold execMand at e
  try dsimp only at e
  repeat' first
    | (with_reducible assumption) | (with_reducible injection e with e; subst e)
    | (with_reducible injection e; done) | (with_reducible apply ok3_same) | simp only [ok_mk]
    | with_reducible apply acceptVector_ok | (intro _ _ _) | (intro _ _) | (intro _) | split at e | split

theorem execMor_ok {ty : Ty} {a : MReg} {b : MReg} {c : MReg} {s : State} {nx : State} (e
    : execMor ty a b c s = .next nx) (hs : s.memoryOk = true) :
    nx.memoryOk = true := by
  unfold execMor at e
  try dsimp only at e
  repeat' first
    | (with_reducible assumption) | (with_reducible injection e with e; subst e)
    | (with_reducible injection e; done) | (with_reducible apply ok3_same) | simp only [ok_mk]
    | with_reducible apply acceptVector_ok | (intro _ _ _) | (intro _ _) | (intro _) | split at e | split

theorem execMnot_ok {ty : Ty} {a : MReg} {b : MReg} {s : State} {nx : State} (e : execMnot ty a b s = .next nx)
    (hs : s.memoryOk = true) :
    nx.memoryOk = true := by
  unfold execMnot at e
  try dsimp only at e
  repeat' first
    | (with_reducible assumption) | (with_reducible injection e with e; subst e)
    | (with_reducible injection e; done) | (with_reducible apply ok3_same) | simp only [ok_mk]
    | with_reducible apply acceptVector_ok | (intro _ _ _) | (intro _ _) | (intro _) | split at e | split

theorem execMpop_ok {ty : Ty} {a : GReg} {b : MReg} {s : State} {nx : State} (e : execMpop ty a b s = .next nx)
    (hs : s.memoryOk = true) :
    nx.memoryOk = true := by
  unfold execMpop at e
  try dsimp only at e
  repeat' first
    | (with_reducible assumption) | (with_reducible injection e with e; subst e)
    | (with_reducible injection e; done) | (with_reducible apply ok3_same) | simp only [ok_mk]
    | with_reducible apply acceptVector_ok | (intro _ _ _) | (intro _ _) | (intro _) | split at e | split

theorem execMfirst_ok {ty : Ty} {a : GReg} {b : MReg} {s : State} {nx : State} (e
    : execMfirst ty a b s = .next nx) (hs : s.memoryOk = true) :
    nx.memoryOk = true := by
  unfold execMfirst at e
  try dsimp only at e
  repeat' first
    | (with_reducible assumption) | (with_reducible injection e with e; subst e)
    | (with_reducible injection e; done) | (with_reducible apply ok3_same) | simp only [ok_mk]
    | with_reducible apply acceptVector_ok | (intro _ _ _) | (intro _ _) | (intro _) | split at e | split

theorem execVblkRd_ok {a : GReg} {b : Sys2Proof.VReg} {blk : Fin 8} {s : State} {nx : State} (e
    : execVblkRd a b blk s = .next nx) (hs : s.memoryOk = true) :
    nx.memoryOk = true := by
  unfold execVblkRd at e
  try dsimp only at e
  repeat' first
    | (with_reducible assumption) | (with_reducible injection e with e; subst e)
    | (with_reducible injection e; done) | (with_reducible apply ok3_same) | simp only [ok_mk]
    | with_reducible apply acceptVector_ok | (intro _ _ _) | (intro _ _) | (intro _) | split at e | split

theorem execVblkWr_ok {a : Sys2Proof.VReg} {b : GReg} {sel : BitVec 8} {s : State} {nx : State} (e
    : execVblkWr a b sel s = .next nx) (hs : s.memoryOk = true) :
    nx.memoryOk = true := by
  unfold execVblkWr at e
  try dsimp only at e
  repeat' first
    | (with_reducible assumption) | (with_reducible injection e with e; subst e)
    | (with_reducible injection e; done) | (with_reducible apply ok3_same) | simp only [ok_mk]
    | with_reducible apply acceptVector_ok | with_reducible apply trapWith_ok | (intro _ _ _) | (intro _ _)
    | (intro _) | split at e | split

theorem passBlocks_ok (s : State) (vas : List Word) (l : List (Loc × BitVec 16)) (nu : Nat) (hs : s.memoryOk = true) :
    (State.passBlocks s vas l nu).memoryOk = true := by
  unfold State.passBlocks
  try dsimp only
  repeat' first
    | (with_reducible assumption) | (with_reducible apply ok3_same) | simp only [ok_mk]
    | with_reducible apply filled_ok | with_reducible apply useCode_ok | (with_reducible apply foldl_ok)
    | refine foldl_pair_eq_ok (by assumption) ?_ ?_ | (with_reducible apply foldl_pair_ok) | dsimp only
    | (intro _ _ _) | (intro _ _) | (intro _) | split

theorem setOwn_ok (s : State) (a : Nat) (b : Bool) (hs : s.memoryOk = true) :
    (State.setOwn s a b).memoryOk = true := by
  unfold State.setOwn
  try dsimp only
  repeat' first
    | (with_reducible assumption) | (with_reducible apply ok3_same) | simp only [ok_mk]
    | with_reducible apply upd_ok | (intro _ _ _) | (intro _ _) | (intro _) | split

theorem engineBlock_ok {s : State} {r : Option (Nat × Path)} {l : Loc} {n : Nat} {nx : State} {nv : List Byte} (e
    : State.engineBlock s r l n = (nx, nv)) (hs : s.memoryOk = true) :
    nx.memoryOk = true := by
  unfold State.engineBlock at e
  try dsimp only at e
  repeat' first
    | (with_reducible assumption) | (with_reducible injection e with e e2; subst e)
    | (with_reducible apply ok3_same) | simp only [ok_mk] | with_reducible apply readBlock_ok
    | with_reducible apply settleRange_ok | (with_reducible apply foldl_ok)
    | refine foldl_pair_eq_ok (by assumption) ?_ ?_ | (with_reducible apply foldl_pair_ok) | dsimp only
    | with_reducible apply getD_ok | (intro _ _ _) | (intro _ _) | (intro _) | split at e | split

theorem engineBlocks_ok {s : State} {sid : Nat} {l : List Loc} {nx : State} {nv : List (List Byte)} (e
    : State.engineBlocks s sid l = (nx, nv)) (hs : s.memoryOk = true) :
    nx.memoryOk = true := by
  unfold State.engineBlocks at e
  try dsimp only at e
  repeat' first
    | (with_reducible assumption) | (with_reducible injection e with e e2; subst e)
    | (with_reducible apply ok3_same) | simp only [ok_mk] | refine engineBlock_ok (by assumption) ?_
    | refine engineBlock_ok (Prod.eta _).symm ?_ | (with_reducible apply foldl_ok)
    | refine foldl_pair_eq_ok (by assumption) ?_ ?_ | (with_reducible apply foldl_pair_ok) | dsimp only
    | (intro _ _ _) | (intro _ _) | (intro _) | split at e | split

theorem lostCheck_ok (s : State) (sid : Nat) (pc : Word) (bs : List (Loc × BitVec 16)) (x0 : List Nat) (hs
    : s.memoryOk = true) :
    (State.lostCheck s sid pc bs x0).memoryOk = true := by
  unfold State.lostCheck
  try dsimp only
  repeat' first
    | (with_reducible assumption) | (with_reducible apply ok3_same) | simp only [ok_mk]
    | with_reducible apply deferAt_ok | with_reducible apply getD_ok | (intro _ _ _) | (intro _ _) | (intro _)
    | split

theorem loadPanels_ok (s : State) (sid : Nat) (u : Nat) (kb : Nat) (sp : Bool) (bs : List (Loc × BitVec 16)) (hs
    : s.memoryOk = true) :
    (State.loadPanels s sid u kb sp bs).memoryOk = true := by
  unfold State.loadPanels
  try dsimp only
  repeat' first
    | (with_reducible assumption) | (with_reducible apply ok3_same) | simp only [ok_mk]
    | with_reducible apply updSlot_ok | refine engineBlocks_ok (by assumption) ?_
    | refine engineBlocks_ok (Prod.eta _).symm ?_ | (with_reducible apply foldl_ok)
    | refine foldl_pair_eq_ok (by assumption) ?_ ?_ | (with_reducible apply foldl_pair_ok) | dsimp only
    | (intro _ _ _) | (intro _ _) | (intro _) | split

theorem multiply_ok (s : State) (sid : Nat) (pc : Word) (ty : Ty) (a : Nat) (u : Nat) (kb : Nat) (sub : Bool) (bs
    : List (Loc × BitVec 16)) (hs : s.memoryOk = true) :
    (State.multiply s sid pc ty a u kb sub bs).memoryOk = true := by
  unfold State.multiply
  try dsimp only
  repeat' first
    | (with_reducible assumption) | (with_reducible apply ok3_same) | simp only [ok_mk]
    | with_reducible apply lostCheck_ok | with_reducible apply updSlot_ok
    | refine engineBlocks_ok (by assumption) ?_ | refine engineBlocks_ok (Prod.eta _).symm ?_
    | (with_reducible apply foldl_ok) | refine foldl_pair_eq_ok (by assumption) ?_ ?_
    | (with_reducible apply foldl_pair_ok) | dsimp only | with_reducible apply getD_ok | (intro _ _ _)
    | (intro _ _) | (intro _) | split

theorem addTile_ok (s : State) (sid : Nat) (pc : Word) (a : Nat) (bs : List (Loc × BitVec 16)) (hs
    : s.memoryOk = true) :
    (State.addTile s sid pc a bs).memoryOk = true := by
  unfold State.addTile
  try dsimp only
  repeat' first
    | (with_reducible assumption) | (with_reducible apply ok3_same) | simp only [ok_mk]
    | with_reducible apply lostCheck_ok | with_reducible apply updSlot_ok
    | refine engineBlocks_ok (by assumption) ?_ | refine engineBlocks_ok (Prod.eta _).symm ?_
    | with_reducible apply getD_ok | (intro _ _ _) | (intro _ _) | (intro _) | split

theorem writeTileBlock_ok (s : State) (sid : Nat) (l : Loc) (bs : List Byte) (hs : s.memoryOk = true) :
    (State.writeTileBlock s sid l bs).memoryOk = true := by
  unfold State.writeTileBlock
  try dsimp only
  repeat' first
    | (with_reducible assumption) | (with_reducible apply ok3_same) | simp only [ok_mk]
    | with_reducible apply dropAhead_ok | with_reducible apply preWrite_ok | with_reducible apply setDesc_ok
    | with_reducible apply writeLoc_ok | (intro _ _ _) | (intro _ _) | (intro _) | split

theorem writeTile_ok (s : State) (sid : Nat) (a : Nat) (tr : Bool) (bs : List (Loc × BitVec 16)) (hs
    : s.memoryOk = true) :
    (State.writeTile s sid a tr bs).memoryOk = true := by
  unfold State.writeTile
  try dsimp only
  repeat' first
    | (with_reducible assumption) | (with_reducible apply ok3_same) | simp only [ok_mk]
    | with_reducible apply writeTileBlock_ok | (with_reducible apply foldl_ok)
    | refine foldl_pair_eq_ok (by assumption) ?_ ?_ | (with_reducible apply foldl_pair_ok) | dsimp only
    | (intro _ _ _) | (intro _ _) | (intro _) | split

theorem runMatrix_ok (s : State) (sid : Nat) (x : Accepted) (hs : s.memoryOk = true) :
    (State.runMatrix s sid x).memoryOk = true := by
  unfold State.runMatrix
  try dsimp only
  repeat' first
    | (with_reducible assumption) | (with_reducible apply ok3_same) | simp only [ok_mk]
    | with_reducible apply addTile_ok | with_reducible apply loadPanels_ok | with_reducible apply multiply_ok
    | with_reducible apply orFlags_ok | with_reducible apply updSlot_ok | with_reducible apply writeTile_ok
    | (with_reducible apply foldl_ok) | refine foldl_pair_eq_ok (by assumption) ?_ ?_
    | (with_reducible apply foldl_pair_ok) | dsimp only | (intro _ _ _) | (intro _ _) | (intro _) | split

theorem retireMatrix_ok (s : State) (sid : Nat) (hs : s.memoryOk = true) :
    (State.retireMatrix s sid).memoryOk = true := by
  unfold State.retireMatrix
  try dsimp only
  repeat' first
    | (with_reducible assumption) | (with_reducible apply ok3_same) | simp only [ok_mk]
    | with_reducible apply runMatrix_ok | with_reducible apply updSlot_ok | (intro _ _ _) | (intro _ _)
    | (intro _) | split

theorem retireAll_ok (sid : Nat) (x0 : Nat) (x1 : State) (hx1 : x1.memoryOk = true) :
    (State.retireAll sid x0 x1).memoryOk = true := by
  induction x0 generalizing sid x1 with
  | zero => first | exact hx1 | (unfold State.retireAll; exact hx1)
  | succ n ih =>
    unfold State.retireAll
    try dsimp only
    repeat' first
      | (with_reducible assumption) | (with_reducible apply ok3_same) | simp only [ok_mk]
      | with_reducible apply ih | with_reducible apply retireMatrix_ok | (intro _ _ _) | (intro _ _)
      | (intro _) | split

theorem acceptMatrix_ok (s : State) (x : Accepted) (hs : s.memoryOk = true) :
    (State.acceptMatrix s x).memoryOk = true := by
  unfold State.acceptMatrix
  try dsimp only
  repeat' first
    | (with_reducible assumption) | (with_reducible apply ok3_same) | simp only [ok_mk]
    | with_reducible apply retire_ok | with_reducible apply retireAll_ok | with_reducible apply upd_ok
    | (intro _ _ _) | (intro _ _) | (intro _) | split

theorem specBlocks_ok (s : State) (l : List (Loc × BitVec 16)) (f : State → State) (hs : s.memoryOk = true) (hf
    : ∀ t : State, t.memoryOk = true → (f t).memoryOk = true) :
    (State.specBlocks s l f).memoryOk = true := by
  unfold State.specBlocks
  try dsimp only
  repeat' first
    | (with_reducible assumption) | (with_reducible apply ok3_same) | simp only [ok_mk] | apply hf
    | with_reducible apply readBlock_ok | with_reducible apply waitFirm_ok | (with_reducible apply foldl_ok)
    | refine foldl_pair_eq_ok (by assumption) ?_ ?_ | (with_reducible apply foldl_pair_ok) | dsimp only
    | (intro _ _ _) | (intro _ _) | (intro _) | split

theorem multiplyAccumulate_ok (s : State) (i : Instr) (ty : Ty) (a : AReg) (b : GReg) (c : GReg) (u : Fin 128) (kb
    : Fin 64) (hs : s.memoryOk = true) :
    (State.multiplyAccumulate s i ty a b c u kb).memoryOk = true := by
  unfold State.multiplyAccumulate
  try dsimp only
  repeat' first
    | (with_reducible assumption) | (with_reducible apply ok3_same) | simp only [ok_mk]
    | with_reducible apply acceptMatrix_ok | with_reducible apply illegal_ok
    | with_reducible apply passBlocks_ok | with_reducible apply specBlocks_ok | with_reducible apply stall_ok
    | with_reducible apply trapWith_ok | (intro _ _ _) | (intro _ _) | (intro _) | split

theorem execMclr_ok {a : AReg} {s : State} {nx : State} (e : execMclr a s = .next nx) (hs : s.memoryOk = true) :
    nx.memoryOk = true := by
  unfold execMclr at e
  try dsimp only at e
  repeat' first
    | (with_reducible assumption) | (with_reducible injection e with e; subst e)
    | (with_reducible injection e; done) | (with_reducible apply ok3_same) | simp only [ok_mk]
    | with_reducible apply acceptMatrix_ok | with_reducible apply setOwn_ok | (intro _ _ _) | (intro _ _)
    | (intro _) | split at e | split

theorem execMldb_ok {u : Fin 128} {b : GReg} {c : GReg} {d : GReg} {kb : Fin 64} {sp : Bool} {nu : NuCode} {s
    : State} {nx : State} (e : execMldb u b c d kb sp nu s = .next nx) (hs : s.memoryOk = true) :
    nx.memoryOk = true := by
  unfold execMldb at e
  try dsimp only at e
  repeat' first
    | (with_reducible assumption) | (with_reducible injection e with e; subst e)
    | (with_reducible injection e; done) | (with_reducible apply ok3_same) | simp only [ok_mk]
    | with_reducible apply acceptMatrix_ok | with_reducible apply passBlocks_ok
    | with_reducible apply specBlocks_ok | with_reducible apply trapWith_ok | (intro _ _ _) | (intro _ _)
    | (intro _) | split at e | split

theorem execMmac_ok {ty : Ty} {a : AReg} {b : GReg} {c : GReg} {u : Fin 128} {kb : Fin 64} {s : State} {nx
    : State} (e : execMmac ty a b c u kb s = .next nx) (hs : s.memoryOk = true) :
    nx.memoryOk = true := by
  unfold execMmac at e
  try dsimp only at e
  repeat' first
    | (with_reducible assumption) | (with_reducible injection e with e; subst e)
    | (with_reducible injection e; done) | (with_reducible apply ok3_same) | simp only [ok_mk]
    | with_reducible apply multiplyAccumulate_ok | (intro _ _ _) | (intro _ _) | (intro _) | split at e
    | split

theorem execMmacs_ok {ty : Ty} {a : AReg} {b : GReg} {c : GReg} {u : Fin 128} {kb : Fin 64} {s : State} {nx
    : State} (e : execMmacs ty a b c u kb s = .next nx) (hs : s.memoryOk = true) :
    nx.memoryOk = true := by
  unfold execMmacs at e
  try dsimp only at e
  repeat' first
    | (with_reducible assumption) | (with_reducible injection e with e; subst e)
    | (with_reducible injection e; done) | (with_reducible apply ok3_same) | simp only [ok_mk]
    | with_reducible apply multiplyAccumulate_ok | (intro _ _ _) | (intro _ _) | (intro _) | split at e
    | split

theorem execMrd_ok {a : Sys2Proof.VReg} {b : AReg} {q : Fin 32} {c1 : Fin 32} {s : State} {nx : State} (e
    : execMrd a b q c1 s = .next nx) (hs : s.memoryOk = true) :
    nx.memoryOk = true := by
  unfold execMrd at e
  try dsimp only at e
  repeat' first
    | (with_reducible assumption) | (with_reducible injection e with e; subst e)
    | (with_reducible injection e; done) | (with_reducible apply ok3_same) | simp only [ok_mk]
    | with_reducible apply acceptMatrix_ok | with_reducible apply illegal_ok | (intro _ _ _) | (intro _ _)
    | (intro _) | split at e | split

theorem execMwr_ok {a : AReg} {b : Sys2Proof.VReg} {q : Fin 32} {c1 : Fin 32} {s : State} {nx : State} (e
    : execMwr a b q c1 s = .next nx) (hs : s.memoryOk = true) :
    nx.memoryOk = true := by
  unfold execMwr at e
  try dsimp only at e
  repeat' first
    | (with_reducible assumption) | (with_reducible injection e with e; subst e)
    | (with_reducible injection e; done) | (with_reducible apply ok3_same) | simp only [ok_mk]
    | with_reducible apply acceptMatrix_ok | with_reducible apply setOwn_ok | with_reducible apply trapWith_ok
    | (intro _ _ _) | (intro _ _) | (intro _) | split at e | split

theorem execMcvt_ok {ty : Ty} {a : Sys2Proof.VReg} {b : AReg} {q : Fin 16} {scale : ScaleOp} {sat : Bool} {rnd
    : Fin 5} {s : State} {nx : State} (e : execMcvt ty a b q scale sat rnd s = .next nx) (hs : s.memoryOk = true) :
    nx.memoryOk = true := by
  unfold execMcvt at e
  try dsimp only at e
  repeat' first
    | (with_reducible assumption) | (with_reducible injection e with e; subst e)
    | (with_reducible injection e; done) | (with_reducible apply ok3_same) | simp only [ok_mk]
    | with_reducible apply acceptMatrix_ok | with_reducible apply illegal_ok | (intro _ _ _) | (intro _ _)
    | (intro _) | split at e | split

theorem execMsum_ok {a : AReg} {b : GReg} {c : GReg} {s : State} {nx : State} (e : execMsum a b c s = .next nx)
    (hs : s.memoryOk = true) :
    nx.memoryOk = true := by
  unfold execMsum at e
  try dsimp only at e
  repeat' first
    | (with_reducible assumption) | (with_reducible injection e with e; subst e)
    | (with_reducible injection e; done) | (with_reducible apply ok3_same) | simp only [ok_mk]
    | with_reducible apply acceptMatrix_ok | with_reducible apply illegal_ok
    | with_reducible apply passBlocks_ok | with_reducible apply specBlocks_ok
    | with_reducible apply trapWith_ok | (intro _ _ _) | (intro _ _) | (intro _) | split at e | split

theorem execMtr_ok {a : AReg} {b : GReg} {c : GReg} {tr : Bool} {s : State} {nx : State} (e
    : execMtr a b c tr s = .next nx) (hs : s.memoryOk = true) :
    nx.memoryOk = true := by
  unfold execMtr at e
  try dsimp only at e
  repeat' first
    | (with_reducible assumption) | (with_reducible injection e with e; subst e)
    | (with_reducible injection e; done) | (with_reducible apply ok3_same) | simp only [ok_mk]
    | with_reducible apply acceptMatrix_ok | with_reducible apply firmly_ok | with_reducible apply illegal_ok
    | with_reducible apply passBlocks_ok | with_reducible apply trapWith_ok | (intro _ _ _) | (intro _ _)
    | (intro _) | split at e | split

theorem execMfree_ok {a : AReg} {s : State} {nx : State} (e : execMfree a s = .next nx) (hs : s.memoryOk = true) :
    nx.memoryOk = true := by
  unfold execMfree at e
  try dsimp only at e
  repeat' first
    | (with_reducible assumption) | (with_reducible injection e with e; subst e)
    | (with_reducible injection e; done) | (with_reducible apply ok3_same) | simp only [ok_mk]
    | with_reducible apply acceptMatrix_ok | with_reducible apply setOwn_ok | (intro _ _ _) | (intro _ _)
    | (intro _) | split at e | split

theorem execMatrixRetire_ok {sid : Nat} {s : State} {nx : State} (e : execMatrixRetire sid s = .next nx) (hs
    : s.memoryOk = true) :
    nx.memoryOk = true := by
  unfold execMatrixRetire at e
  try dsimp only at e
  repeat' first
    | (with_reducible assumption) | (with_reducible injection e with e; subst e)
    | (with_reducible injection e; done) | (with_reducible apply ok3_same) | simp only [ok_mk]
    | with_reducible apply retireMatrix_ok | (intro _ _ _) | (intro _ _) | (intro _) | split at e | split

theorem jump_ok (s : State) (d : Word) (register : Bool) (mask : Bool) (leaves : Bool) (hs : s.memoryOk = true) :
    (State.jump s d register mask leaves).memoryOk = true := by
  unfold State.jump
  try dsimp only
  repeat' first
    | (with_reducible assumption) | (with_reducible apply ok3_same) | simp only [ok_mk]
    | with_reducible apply register_ok | with_reducible apply transfer_ok | with_reducible apply trapWith_ok
    | (intro _ _ _) | (intro _ _) | (intro _) | split

theorem linkJump_ok (s : State) (a : GReg) (d : Word) (register : Bool) (hs : s.memoryOk = true) :
    (State.linkJump s a d register).memoryOk = true := by
  unfold State.linkJump
  try dsimp only
  repeat' first
    | (with_reducible assumption) | (with_reducible apply ok3_same) | simp only [ok_mk]
    | with_reducible apply register_ok | with_reducible apply setG_ok | with_reducible apply trapWith_ok
    | with_reducible apply transfer_ok | (intro _ _ _) | (intro _ _) | (intro _) | split

theorem openLoop_ok (s : State) (k : LcReg) (c : Word) (rot : Bool) (tick : Bool) (end_ : Word) (hs
    : s.memoryOk = true) :
    (State.openLoop s k c rot tick end_).memoryOk = true := by
  unfold State.openLoop
  try dsimp only
  repeat' first
    | (with_reducible assumption) | (with_reducible apply ok3_same) | simp only [ok_mk]
    | with_reducible apply act_ok | with_reducible apply transfer_ok | with_reducible apply trapWith_ok
    | with_reducible apply upd_ok | with_reducible apply tick_ok | (intro _ _ _) | (intro _ _) | (intro _)
    | split

theorem jumpEntry_ok (s : State) (origin : Word) (a : Word) (d : BitVec 16) (dest : Nat) (hs : s.memoryOk = true) :
    (State.jumpEntry s origin a d dest).memoryOk = true := by
  unfold State.jumpEntry
  try dsimp only
  repeat' first
    | (with_reducible assumption) | (with_reducible apply ok3_same) | simp only [ok_mk]
    | with_reducible apply jump_ok | with_reducible apply trapTo_ok | (intro _ _ _) | (intro _ _) | (intro _)
    | split

theorem jumpTable_ok (s : State) (base : Word) (i : Word) (hs : s.memoryOk = true) :
    (State.jumpTable s base i).memoryOk = true := by
  unfold State.jumpTable
  try dsimp only
  repeat' first
    | (with_reducible assumption) | (with_reducible apply ok3_same) | simp only [ok_mk]
    | with_reducible apply filled_ok | with_reducible apply jumpEntry_ok | with_reducible apply stall_ok
    | with_reducible apply trapWith_ok | with_reducible apply waitFirm_ok
    | refine readPart_ok (by assumption) ?_ | refine readPart_ok (Prod.eta _).symm ?_
    | refine specRead_ok (by assumption) ?_ | refine specRead_ok (Prod.eta _).symm ?_ | (intro _ _ _)
    | (intro _ _) | (intro _) | split

theorem execBr_ok {t : Target} {s : State} {nx : State} (e : execBr t s = .next nx) (hs : s.memoryOk = true) :
    nx.memoryOk = true := by
  unfold execBr at e
  try dsimp only at e
  repeat' first
    | (with_reducible assumption) | (with_reducible injection e with e; subst e)
    | (with_reducible injection e; done) | (with_reducible apply ok3_same) | simp only [ok_mk]
    | with_reducible apply jump_ok | (intro _ _ _) | (intro _ _) | (intro _) | split at e | split

theorem execBri_ok {b : GReg} {s : State} {nx : State} (e : execBri b s = .next nx) (hs : s.memoryOk = true) :
    nx.memoryOk = true := by
  unfold execBri at e
  try dsimp only at e
  repeat' first
    | (with_reducible assumption) | (with_reducible injection e with e; subst e)
    | (with_reducible injection e; done) | (with_reducible apply ok3_same) | simp only [ok_mk]
    | with_reducible apply jump_ok | (intro _ _ _) | (intro _ _) | (intro _) | split at e | split

theorem execCall_ok {a : GReg} {t : Target} {s : State} {nx : State} (e : execCall a t s = .next nx) (hs
    : s.memoryOk = true) :
    nx.memoryOk = true := by
  unfold execCall at e
  try dsimp only at e
  repeat' first
    | (with_reducible assumption) | (with_reducible injection e with e; subst e)
    | (with_reducible injection e; done) | (with_reducible apply ok3_same) | simp only [ok_mk]
    | with_reducible apply linkJump_ok | (intro _ _ _) | (intro _ _) | (intro _) | split at e | split

theorem execCalli_ok {a : GReg} {b : GReg} {s : State} {nx : State} (e : execCalli a b s = .next nx) (hs
    : s.memoryOk = true) :
    nx.memoryOk = true := by
  unfold execCalli at e
  try dsimp only at e
  repeat' first
    | (with_reducible assumption) | (with_reducible injection e with e; subst e)
    | (with_reducible injection e; done) | (with_reducible apply ok3_same) | simp only [ok_mk]
    | with_reducible apply linkJump_ok | (intro _ _ _) | (intro _ _) | (intro _) | split at e | split

theorem execRet_ok {b : GReg} {s : State} {nx : State} (e : execRet b s = .next nx) (hs : s.memoryOk = true) :
    nx.memoryOk = true := by
  unfold execRet at e
  try dsimp only at e
  repeat' first
    | (with_reducible assumption) | (with_reducible injection e with e; subst e)
    | (with_reducible injection e; done) | (with_reducible apply ok3_same) | simp only [ok_mk]
    | with_reducible apply jump_ok | (intro _ _ _) | (intro _ _) | (intro _) | split at e | split

theorem execLp_ok {k : LcReg} {b : GReg} {tick : Bool} {t : Target} {s : State} {nx : State} (e
    : execLp k b tick t s = .next nx) (hs : s.memoryOk = true) :
    nx.memoryOk = true := by
  unfold execLp at e
  try dsimp only at e
  repeat' first
    | (with_reducible assumption) | (with_reducible injection e with e; subst e)
    | (with_reducible injection e; done) | (with_reducible apply ok3_same) | simp only [ok_mk]
    | with_reducible apply openLoop_ok | with_reducible apply tick_ok | (intro _ _ _) | (intro _ _)
    | (intro _) | split at e | split

theorem execLpx_ok {k : LcReg} {n : BitVec 21} {tick : Bool} {t : Target} {s : State} {nx : State} (e
    : execLpx k n tick t s = .next nx) (hs : s.memoryOk = true) :
    nx.memoryOk = true := by
  unfold execLpx at e
  try dsimp only at e
  repeat' first
    | (with_reducible assumption) | (with_reducible injection e with e; subst e)
    | (with_reducible injection e; done) | (with_reducible apply ok3_same) | simp only [ok_mk]
    | with_reducible apply openLoop_ok | with_reducible apply tick_ok | (intro _ _ _) | (intro _ _)
    | (intro _) | split at e | split

theorem execLpr_ok {k : LcReg} {b : GReg} {tick : Bool} {t : Target} {s : State} {nx : State} (e
    : execLpr k b tick t s = .next nx) (hs : s.memoryOk = true) :
    nx.memoryOk = true := by
  unfold execLpr at e
  try dsimp only at e
  repeat' first
    | (with_reducible assumption) | (with_reducible injection e with e; subst e)
    | (with_reducible injection e; done) | (with_reducible apply ok3_same) | simp only [ok_mk]
    | with_reducible apply openLoop_ok | with_reducible apply tick_ok | (intro _ _ _) | (intro _ _)
    | (intro _) | split at e | split

theorem execJt_ok {a : GReg} {b : GReg} {n1 : BitVec 16} {s : State} {nx : State} (e : execJt a b n1 s = .next nx)
    (hs : s.memoryOk = true) :
    nx.memoryOk = true := by
  unfold execJt at e
  try dsimp only at e
  repeat' first
    | (with_reducible assumption) | (with_reducible injection e with e; subst e)
    | (with_reducible injection e; done) | (with_reducible apply ok3_same) | simp only [ok_mk]
    | with_reducible apply jumpTable_ok | with_reducible apply transfer_ok | (intro _ _ _) | (intro _ _)
    | (intro _) | split at e | split

theorem releaseLines_ok (s : State) (a : Word) (len : Word) (nu : Nat) (hs : s.memoryOk = true) :
    (State.releaseLines s a len nu).memoryOk = true := by
  unfold State.releaseLines
  try dsimp only
  repeat' first
    | (with_reducible assumption) | (with_reducible apply ok3_same) | simp only [ok_mk]
    | with_reducible apply release_ok | (with_reducible apply foldl_ok)
    | refine foldl_pair_eq_ok (by assumption) ?_ ?_ | (with_reducible apply foldl_pair_ok) | dsimp only
    | (intro _ _ _) | (intro _ _) | (intro _) | split

theorem quota_ok (s : State) (a : GReg) (x : Word) (w : Bool) (hs : s.memoryOk = true) :
    (State.quota s a x w).memoryOk = true := by
  unfold State.quota
  try dsimp only
  repeat' first
    | (with_reducible assumption) | (with_reducible apply ok3_same) | simp only [ok_mk]
    | with_reducible apply post_ok | with_reducible apply retire_ok | with_reducible apply trap_ok
    | with_reducible apply upd_ok | (intro _ _ _) | (intro _ _) | (intro _) | split

theorem execNutick_ok {n : BitVec 16} {s : State} {nx : State} (e : execNutick n s = .next nx) (hs
    : s.memoryOk = true) :
    nx.memoryOk = true := by
  unfold execNutick at e
  try dsimp only at e
  repeat' first
    | (with_reducible assumption) | (with_reducible injection e with e; subst e)
    | (with_reducible injection e; done) | (with_reducible apply ok3_same) | simp only [ok_mk]
    | with_reducible apply postClock_ok | with_reducible apply retireSeal_ok | (intro _ _ _) | (intro _ _)
    | (intro _) | split at e | split

theorem execNudom_ok {n : BitVec 8} {s : State} {nx : State} (e : execNudom n s = .next nx) (hs : s.memoryOk = true) :
    nx.memoryOk = true := by
  unfold execNudom at e
  try dsimp only at e
  repeat' first
    | (with_reducible assumption) | (with_reducible injection e with e; subst e)
    | (with_reducible injection e; done) | (with_reducible apply ok3_same) | simp only [ok_mk]
    | with_reducible apply retire_ok | with_reducible apply trap_ok | with_reducible apply upd_ok
    | (intro _ _ _) | (intro _ _) | (intro _) | split at e | split

theorem execNuq_ok {a : GReg} {b : GReg} {w : Bool} {s : State} {nx : State} (e : execNuq a b w s = .next nx) (hs
    : s.memoryOk = true) :
    nx.memoryOk = true := by
  unfold execNuq at e
  try dsimp only at e
  repeat' first
    | (with_reducible assumption) | (with_reducible injection e with e; subst e)
    | (with_reducible injection e; done) | (with_reducible apply ok3_same) | simp only [ok_mk]
    | with_reducible apply quota_ok | (intro _ _ _) | (intro _ _) | (intro _) | split at e | split

theorem execNurel_ok {a : GReg} {m : Addr} {s : State} {nx : State} (e : execNurel a m s = .next nx) (hs
    : s.memoryOk = true) :
    nx.memoryOk = true := by
  unfold execNurel at e
  try dsimp only at e
  repeat' first
    | (with_reducible assumption) | (with_reducible injection e with e; subst e)
    | (with_reducible injection e; done) | (with_reducible apply ok3_same) | simp only [ok_mk]
    | with_reducible apply releaseLines_ok | with_reducible apply retire_ok | (intro _ _ _) | (intro _ _)
    | (intro _) | split at e | split

end Sys2Proof.Laws
end

