-- ==== Sys2Proof/Laws/KeepsEngines.lean ====
section
/-! SUPPORT. The canonical form of the memories is kept by every operation of Machine/Copy.lean,
Machine/Stream.lean, Machine/Home.lean, Machine/Schedule.lean. -/

set_option linter.all false

namespace Sys2Proof.Laws

open Sys2Proof.Machine Sys2Proof.Machine.State

theorem walked_ok (s : State) (c : Copy) (va : Word) (hs : s.memoryOk = true) :
    (State.walked s c va).memoryOk = true := by
  unfold State.walked
  try dsimp only
  repeat' first
    | (with_reducible assumption) | (with_reducible apply ok3_same) | simp only [ok_mk]
    | with_reducible apply tlbFill_ok | (intro _ _ _) | (intro _ _) | (intro _) | split

theorem engineRead_ok {s : State} {c : Copy} {l : Loc} {n : Nat} {zero : Bool} {nx : State} {nv
    : List Byte × Option (BitVec 16)} (e : State.engineRead s c l n zero = (nx, nv)) (hs : s.memoryOk = true) :
    nx.memoryOk = true := by
  unfold State.engineRead at e
  try dsimp only at e
  repeat' first
    | (with_reducible assumption) | (with_reducible injection e with e e2; subst e)
    | (with_reducible apply ok3_same) | simp only [ok_mk] | refine engineBlock_ok (by assumption) ?_
    | refine engineBlock_ok (Prod.eta _).symm ?_ | (intro _ _ _) | (intro _ _) | (intro _) | split at e
    | split

theorem engineWrite_ok (s : State) (c : Copy) (l : Loc) (bs : List Byte) (d : Option (BitVec 16)) (hs
    : s.memoryOk = true) :
    (State.engineWrite s c l bs d).memoryOk = true := by
  unfold State.engineWrite
  try dsimp only
  repeat' first
    | (with_reducible assumption) | (with_reducible apply ok3_same) | simp only [ok_mk]
    | with_reducible apply dropAhead_ok | with_reducible apply preWrite_ok | with_reducible apply writeLoc_ok
    | with_reducible apply setDesc_ok | (intro _ _ _) | (intro _ _) | (intro _) | split

theorem engineTouch_ok (s : State) (c : Copy) (l : List (Loc × Nat)) (nu : Nat) (hs : s.memoryOk = true) :
    (State.engineTouch s c l nu).memoryOk = true := by
  unfold State.engineTouch
  try dsimp only
  repeat' first
    | (with_reducible assumption) | (with_reducible apply ok3_same) | simp only [ok_mk]
    | with_reducible apply passCaches_ok | (intro _ _ _) | (intro _ _) | (intro _) | split

theorem subBarrier_ok (s : State) (core : Nat) (off : Nat) (n : Nat) (hs : s.memoryOk = true) :
    (State.subBarrier s core off n).memoryOk = true := by
  unfold State.subBarrier
  try dsimp only
  repeat' first
    | (with_reducible assumption) | (with_reducible apply ok3_same) | simp only [ok_mk]
    | with_reducible apply fillWord_ok | with_reducible apply scrWrite_ok | (intro _ _ _) | (intro _ _)
    | (intro _) | split

theorem pieceDone_ok (s : State) (c : Copy) (n : Nat) (hs : s.memoryOk = true) :
    (State.pieceDone s c n).memoryOk = true := by
  unfold State.pieceDone
  try dsimp only
  repeat' first
    | (with_reducible assumption) | (with_reducible apply ok3_same) | simp only [ok_mk]
    | with_reducible apply subBarrier_ok | (intro _ _ _) | (intro _ _) | (intro _) | split

theorem endCopy_ok (s : State) (k : Nat) (c : Copy) (hs : s.memoryOk = true) :
    (State.endCopy s k c).memoryOk = true := by
  unfold State.endCopy
  try dsimp only
  repeat' first
    | (with_reducible assumption) | (with_reducible apply ok3_same) | simp only [ok_mk]
    | with_reducible apply updSlot_ok | (intro _ _ _) | (intro _ _) | (intro _) | split

theorem writeChunk_ok (s : State) (c : Copy) (x : Chunk) (dst : Loc) (src : List Loc) (hs : s.memoryOk = true) :
    (State.writeChunk s c x dst src).memoryOk = true := by
  unfold State.writeChunk
  try dsimp only
  repeat' first
    | (with_reducible assumption) | (with_reducible apply ok3_same) | simp only [ok_mk]
    | with_reducible apply cleanLine_ok | with_reducible apply engineWrite_ok | with_reducible apply walked_ok
    | refine engineBlock_ok (by assumption) ?_ | refine engineBlock_ok (Prod.eta _).symm ?_
    | (with_reducible apply foldl_ok) | refine foldl_pair_eq_ok (by assumption) ?_ ?_
    | (with_reducible apply foldl_pair_ok) | dsimp only | (intro _ _ _) | (intro _ _) | (intro _) | split

theorem bytePiece_ok {s : State} {k : Nat} {c : Copy} {nx : State} (e : State.bytePiece s k c = .ok nx) (hs
    : s.memoryOk = true) :
    nx.memoryOk = true := by
  unfold State.bytePiece at e
  try dsimp only at e
  repeat' first
    | (with_reducible assumption) | (with_reducible injection e with e; subst e)
    | (with_reducible injection e; done) | (with_reducible apply ok3_same) | simp only [ok_mk]
    | with_reducible apply endCopy_ok | with_reducible apply engineTouch_ok
    | with_reducible apply pieceDone_ok | with_reducible apply walked_ok | with_reducible apply writeChunk_ok
    | (with_reducible apply foldl_ok) | refine foldl_pair_eq_ok (by assumption) ?_ ?_
    | (with_reducible apply foldl_pair_ok) | dsimp only | with_reducible apply elimState_ok
    | with_reducible apply elim_ok | (intro _ _ _) | (intro _ _) | (intro _) | split at e | split

theorem readIndex_ok {s : State} {c : Copy} {ix64 : Bool} {i : Nat} {nx : State} {nv : Int} (e
    : State.readIndex s c ix64 i = .ok (nx, nv)) (hs : s.memoryOk = true) :
    nx.memoryOk = true := by
  unfold State.readIndex at e
  try dsimp only at e
  repeat' first
    | (with_reducible assumption)
    | (with_reducible injection e with e; with_reducible injection e with e e2; subst e)
    | (with_reducible injection e; done) | (with_reducible apply ok3_same) | simp only [ok_mk]
    | with_reducible apply walked_ok | refine engineRead_ok (by assumption) ?_
    | refine engineRead_ok (Prod.eta _).symm ?_ | (intro _ _ _) | (intro _ _) | (intro _) | split at e | split

theorem readItem_ok {s : State} {c : Copy} {l : Loc} {w : Nat} {at_ : Int} {nx : State} {nv : Item} (e
    : State.readItem s c l w at_ = (nx, nv)) (hs : s.memoryOk = true) :
    nx.memoryOk = true := by
  unfold State.readItem at e
  try dsimp only at e
  repeat' first
    | (with_reducible assumption) | (with_reducible injection e with e e2; subst e)
    | (with_reducible apply ok3_same) | simp only [ok_mk] | with_reducible apply engineTouch_ok
    | refine engineRead_ok (by assumption) ?_ | refine engineRead_ok (Prod.eta _).symm ?_ | (intro _ _ _)
    | (intro _ _) | (intro _) | split at e | split

theorem gatherItems_ok {s : State} {c : Copy} {w : Nat} {ix64 : Bool} {x0 : List Nat} {nx : State} {nv
    : List Item} (e : State.gatherItems s c w ix64 x0 = .ok (nx, nv)) (hs : s.memoryOk = true) :
    nx.memoryOk = true := by
  induction x0 generalizing s c w ix64 nx nv with
  | nil =>
    unfold State.gatherItems at e
    repeat' first
      | (with_reducible assumption)
      | (with_reducible injection e with e; with_reducible injection e with e e2; subst e)
      | (with_reducible injection e; done) | (with_reducible apply ok3_same) | simp only [ok_mk]
      | with_reducible apply walked_ok | refine readIndex_ok (by assumption) ?_
      | refine readItem_ok (by assumption) ?_ | refine readItem_ok (Prod.eta _).symm ?_ | (intro _ _ _)
      | (intro _ _) | (intro _) | split at e | split
  | cons b l ih =>
    unfold State.gatherItems at e
    try dsimp only at e
    repeat' first
      | (with_reducible assumption) | refine ih (by assumption) ?_ | refine ih (Prod.eta _).symm ?_
      | (with_reducible injection e with e; with_reducible injection e with e e2; subst e)
      | (with_reducible injection e; done) | (with_reducible apply ok3_same) | simp only [ok_mk]
      | with_reducible apply walked_ok | refine readIndex_ok (by assumption) ?_
      | refine readItem_ok (by assumption) ?_ | refine readItem_ok (Prod.eta _).symm ?_ | (intro _ _ _)
      | (intro _ _) | (intro _) | split at e | split

theorem packedItems_ok {s : State} {c : Copy} {w : Nat} {scatter : Bool} {ix64 : Bool} {x0 : List Nat} {nx
    : State} {nv : List Item} (e : State.packedItems s c w scatter ix64 x0 = .ok (nx, nv)) (hs : s.memoryOk = true) :
    nx.memoryOk = true := by
  induction x0 generalizing s c w scatter ix64 nx nv with
  | nil =>
    unfold State.packedItems at e
    repeat' first
      | (with_reducible assumption)
      | (with_reducible injection e with e; with_reducible injection e with e e2; subst e)
      | (with_reducible injection e; done) | (with_reducible apply ok3_same) | simp only [ok_mk]
      | with_reducible apply walked_ok | refine readIndex_ok (by assumption) ?_
      | refine readItem_ok (by assumption) ?_ | refine readItem_ok (Prod.eta _).symm ?_
      | refine ite_except_ok (by assumption) ?_ ?_ | (intro _ _ _) | (intro _ _) | (intro _) | split at e
      | split
  | cons b l ih =>
    unfold State.packedItems at e
    try dsimp only at e
    repeat' first
      | (with_reducible assumption) | refine ih (by assumption) ?_ | refine ih (Prod.eta _).symm ?_
      | (with_reducible injection e with e; with_reducible injection e with e e2; subst e)
      | (with_reducible injection e; done) | (with_reducible apply ok3_same) | simp only [ok_mk]
      | with_reducible apply walked_ok | refine readIndex_ok (by assumption) ?_
      | refine readItem_ok (by assumption) ?_ | refine readItem_ok (Prod.eta _).symm ?_
      | refine ite_except_ok (by assumption) ?_ ?_ | (intro _ _ _) | (intro _ _) | (intro _) | split at e
      | split

theorem writeParts_ok (s : State) (c : Copy) (l : List (Loc × List Byte × Option (BitVec 16))) (hs
    : s.memoryOk = true) :
    (State.writeParts s c l).memoryOk = true := by
  unfold State.writeParts
  try dsimp only
  repeat' first
    | (with_reducible assumption) | (with_reducible apply ok3_same) | simp only [ok_mk]
    | with_reducible apply engineTouch_ok | with_reducible apply engineWrite_ok
    | (with_reducible apply foldl_ok) | refine foldl_pair_eq_ok (by assumption) ?_ ?_
    | (with_reducible apply foldl_pair_ok) | dsimp only | (intro _ _ _) | (intro _ _) | (intro _) | split

theorem proceed_ok (s : State) (k : Nat) (c : Copy) (done : Nat) (last : Bool) (hs : s.memoryOk = true) :
    (State.proceed s k c done last).memoryOk = true := by
  unfold State.proceed
  try dsimp only
  repeat' first
    | (with_reducible assumption) | (with_reducible apply ok3_same) | simp only [ok_mk]
    | with_reducible apply endCopy_ok | (intro _ _ _) | (intro _ _) | (intro _) | split

theorem gatherPiece_ok {s : State} {k : Nat} {c : Copy} {n : Nat} {ty : Ty} {ix64 : Bool} {nx : State} (e
    : State.gatherPiece s k c n ty ix64 = .ok nx) (hs : s.memoryOk = true) :
    nx.memoryOk = true := by
  unfold State.gatherPiece at e
  try dsimp only at e
  repeat' first
    | (with_reducible assumption) | (with_reducible injection e with e; subst e)
    | (with_reducible injection e; done) | (with_reducible apply ok3_same) | simp only [ok_mk]
    | with_reducible apply pieceDone_ok | with_reducible apply proceed_ok | with_reducible apply walked_ok
    | with_reducible apply writeParts_ok | refine gatherItems_ok (by assumption) ?_ | (intro _ _ _)
    | (intro _ _) | (intro _) | split at e | split

theorem scatterPiece_ok {s : State} {k : Nat} {c : Copy} {ty : Ty} {l : List Item} {nx : State} (e
    : State.scatterPiece s k c ty l = .ok nx) (hs : s.memoryOk = true) :
    nx.memoryOk = true := by
  unfold State.scatterPiece at e
  try dsimp only at e
  repeat' first
    | (with_reducible assumption) | (with_reducible injection e with e; subst e)
    | (with_reducible injection e; done) | (with_reducible apply ok3_same) | simp only [ok_mk]
    | with_reducible apply endCopy_ok | with_reducible apply pieceDone_ok | with_reducible apply proceed_ok
    | with_reducible apply walked_ok | with_reducible apply writeParts_ok | (intro _ _ _) | (intro _ _)
    | (intro _) | split at e | split

theorem compactPiece_ok {s : State} {k : Nat} {c : Copy} {ty : Ty} {idx : Bool} {l : List Item} {nx : State} (e
    : State.compactPiece s k c ty idx l = .ok nx) (hs : s.memoryOk = true) :
    nx.memoryOk = true := by
  unfold State.compactPiece at e
  try dsimp only at e
  repeat' first
    | (with_reducible assumption) | (with_reducible injection e with e; subst e)
    | (with_reducible injection e; done) | (with_reducible apply ok3_same) | simp only [ok_mk]
    | with_reducible apply endCopy_ok | with_reducible apply pieceDone_ok | with_reducible apply proceed_ok
    | with_reducible apply walked_ok | with_reducible apply writeParts_ok | (intro _ _ _) | (intro _ _)
    | (intro _) | split at e | split

theorem nextPiece_ok {s : State} {k : Nat} {c : Copy} {nx : State} (e : State.nextPiece s k c = .ok nx) (hs
    : s.memoryOk = true) :
    nx.memoryOk = true := by
  unfold State.nextPiece at e
  try dsimp only at e
  repeat' first
    | (with_reducible assumption) | (with_reducible injection e with e; subst e)
    | (with_reducible injection e; done) | (with_reducible apply ok3_same) | simp only [ok_mk]
    | refine bytePiece_ok (by assumption) ?_ | refine compactPiece_ok (by assumption) ?_
    | refine gatherPiece_ok (by assumption) ?_ | refine packedItems_ok (by assumption) ?_
    | refine scatterPiece_ok (by assumption) ?_ | (intro _ _ _) | (intro _ _) | (intro _) | split at e | split

theorem beginCopy_ok (s : State) (k : Nat) (c : Copy) (hs : s.memoryOk = true) :
    (State.beginCopy s k c).memoryOk = true := by
  unfold State.beginCopy
  try dsimp only
  repeat' first
    | (with_reducible assumption) | (with_reducible apply ok3_same) | simp only [ok_mk] | (intro _ _ _)
    | (intro _ _) | (intro _) | split

theorem movePiece_ok (s : State) (k : Nat) (hs : s.memoryOk = true) :
    (State.movePiece s k).memoryOk = true := by
  unfold State.movePiece
  try dsimp only
  repeat' first
    | (with_reducible assumption) | (with_reducible apply ok3_same) | simp only [ok_mk]
    | with_reducible apply beginCopy_ok | refine nextPiece_ok (by assumption) ?_ | (intro _ _ _) | (intro _ _)
    | (intro _) | split

theorem meetFault_ok (s : State) (sid : Nat) (va : Word) (hs : s.memoryOk = true) :
    (State.meetFault s sid va).memoryOk = true := by
  unfold State.meetFault
  try dsimp only
  repeat' first
    | (with_reducible assumption) | (with_reducible apply ok3_same) | simp only [ok_mk]
    | with_reducible apply updSlot_ok | (intro _ _ _) | (intro _ _) | (intro _) | split

theorem tellFault_ok (s : State) (core : Nat) (r : RecId) (va : Word) (hs : s.memoryOk = true) :
    (State.tellFault s core r va).memoryOk = true := by
  unfold State.tellFault
  try dsimp only
  repeat' first
    | (with_reducible assumption) | (with_reducible apply ok3_same) | simp only [ok_mk]
    | with_reducible apply tell_ok | (intro _ _ _) | (intro _ _) | (intro _) | split

theorem faultCopy_ok (s : State) (k : Nat) (hs : s.memoryOk = true) :
    (State.faultCopy s k).memoryOk = true := by
  unfold State.faultCopy
  try dsimp only
  repeat' first
    | (with_reducible assumption) | (with_reducible apply ok3_same) | simp only [ok_mk]
    | with_reducible apply failedWalk_ok | with_reducible apply meetFault_ok
    | with_reducible apply tellFault_ok | refine nextPiece_ok (by assumption) ?_ | (intro _ _ _) | (intro _ _)
    | (intro _) | split

theorem runCopy_ok (k : Nat) (x0 : Nat) (x1 : State) (hx1 : x1.memoryOk = true) :
    (State.runCopy k x0 x1).memoryOk = true := by
  induction x0 generalizing k x1 with
  | zero => first | exact hx1 | (unfold State.runCopy; exact hx1)
  | succ n ih =>
    unfold State.runCopy
    try dsimp only
    repeat' first
      | (with_reducible assumption) | (with_reducible apply ok3_same) | simp only [ok_mk]
      | with_reducible apply ih | with_reducible apply faultCopy_ok | refine nextPiece_ok (by assumption) ?_
      | (intro _ _ _) | (intro _ _) | (intro _) | split

theorem runCopies_ok (s : State) (hs : s.memoryOk = true) :
    (State.runCopies s).memoryOk = true := by
  unfold State.runCopies
  try dsimp only
  repeat' first
    | (with_reducible assumption) | (with_reducible apply ok3_same) | simp only [ok_mk]
    | with_reducible apply runCopy_ok | (with_reducible apply foldl_ok)
    | refine foldl_pair_eq_ok (by assumption) ?_ ?_ | (with_reducible apply foldl_pair_ok) | dsimp only
    | (intro _ _ _) | (intro _ _) | (intro _) | split

theorem acceptCopy_ok (s : State) (i : Instr) (a : GReg) (b : GReg) (c : GReg) (d : GReg) (align : List
    (Word × Nat)) (dst : Option EndRange) (src : Option EndRange) (idx : Option EndRange) (hs : s.memoryOk = true) :
    (State.acceptCopy s i a b c d align dst src idx).memoryOk = true := by
  unfold State.acceptCopy
  try dsimp only
  repeat' first
    | (with_reducible assumption) | (with_reducible apply ok3_same) | simp only [ok_mk]
    | with_reducible apply endCopy_ok | with_reducible apply filled_ok | with_reducible apply retire_ok
    | with_reducible apply runCopy_ok | with_reducible apply stall_ok | with_reducible apply trapWith_ok
    | with_reducible apply waitFirm_ok | with_reducible apply upd_ok | with_reducible apply elimState_ok
    | with_reducible apply elim_ok | (intro _ _ _) | (intro _ _) | (intro _) | split

theorem byteCopy_ok (s : State) (i : Instr) (a : GReg) (b : GReg) (c : GReg) (d : GReg) (unit : Nat) (reads
    : Bool) (hs : s.memoryOk = true) :
    (State.byteCopy s i a b c d unit reads).memoryOk = true := by
  unfold State.byteCopy
  try dsimp only
  repeat' first
    | (with_reducible assumption) | (with_reducible apply ok3_same) | simp only [ok_mk]
    | with_reducible apply acceptCopy_ok | (intro _ _ _) | (intro _ _) | (intro _) | split

theorem execCp_ok {a : GReg} {b : GReg} {c : GReg} {d : GReg} {dnu : NuCode} {snu : NuCode} {s : State} {nx
    : State} (e : execCp a b c d dnu snu s = .next nx) (hs : s.memoryOk = true) :
    nx.memoryOk = true := by
  unfold execCp at e
  try dsimp only at e
  repeat' first
    | (with_reducible assumption) | (with_reducible injection e with e; subst e)
    | (with_reducible injection e; done) | (with_reducible apply ok3_same) | simp only [ok_mk]
    | with_reducible apply byteCopy_ok | (intro _ _ _) | (intro _ _) | (intro _) | split at e | split

theorem execCp2d_ok {a : GReg} {b : GReg} {c : GReg} {d : GReg} {rows1 : BitVec 16} {rowq1 : BitVec 16} {dnu
    : NuCode} {snu : NuCode} {s : State} {nx : State} (e : execCp2d a b c d rows1 rowq1 dnu snu s = .next nx) (hs
        : s.memoryOk = true) :
    nx.memoryOk = true := by
  unfold execCp2d at e
  try dsimp only at e
  repeat' first
    | (with_reducible assumption) | (with_reducible injection e with e; subst e)
    | (with_reducible injection e; done) | (with_reducible apply ok3_same) | simp only [ok_mk]
    | with_reducible apply acceptCopy_ok | (intro _ _ _) | (intro _ _) | (intro _) | split at e | split

theorem execCpl_ok {a : GReg} {b : GReg} {c : GReg} {d : GReg} {dnu : NuCode} {s : State} {nx : State} (e
    : execCpl a b c d dnu s = .next nx) (hs : s.memoryOk = true) :
    nx.memoryOk = true := by
  unfold execCpl at e
  try dsimp only at e
  repeat' first
    | (with_reducible assumption) | (with_reducible injection e with e; subst e)
    | (with_reducible injection e; done) | (with_reducible apply ok3_same) | simp only [ok_mk]
    | with_reducible apply byteCopy_ok | (intro _ _ _) | (intro _ _) | (intro _) | split at e | split

theorem execCpc_ok {a : GReg} {b : GReg} {c : GReg} {d : GReg} {dnu : NuCode} {snu : NuCode} {s : State} {nx
    : State} (e : execCpc a b c d dnu snu s = .next nx) (hs : s.memoryOk = true) :
    nx.memoryOk = true := by
  unfold execCpc at e
  try dsimp only at e
  repeat' first
    | (with_reducible assumption) | (with_reducible injection e with e; subst e)
    | (with_reducible injection e; done) | (with_reducible apply ok3_same) | simp only [ok_mk]
    | with_reducible apply byteCopy_ok | (intro _ _ _) | (intro _ _) | (intro _) | split at e | split

theorem execCps_ok {a : GReg} {b : GReg} {c : GReg} {d : GReg} {desc : BitVec 16} {dnu : NuCode} {snu : NuCode} {s
    : State} {nx : State} (e : execCps a b c d desc dnu snu s = .next nx) (hs : s.memoryOk = true) :
    nx.memoryOk = true := by
  unfold execCps at e
  try dsimp only at e
  repeat' first
    | (with_reducible assumption) | (with_reducible injection e with e; subst e)
    | (with_reducible injection e; done) | (with_reducible apply ok3_same) | simp only [ok_mk]
    | with_reducible apply byteCopy_ok | (intro _ _ _) | (intro _ _) | (intro _) | split at e | split

theorem execGth_ok {ty : Ty} {a : GReg} {b : GReg} {c : GReg} {d : GReg} {n1 : BitVec 12} {ix64 : Bool} {dnu
    : NuCode} {snu : NuCode} {s : State} {nx : State} (e : execGth ty a b c d n1 ix64 dnu snu s = .next nx) (hs
        : s.memoryOk = true) :
    nx.memoryOk = true := by
  unfold execGth at e
  try dsimp only at e
  repeat' first
    | (with_reducible assumption) | (with_reducible injection e with e; subst e)
    | (with_reducible injection e; done) | (with_reducible apply ok3_same) | simp only [ok_mk]
    | with_reducible apply acceptCopy_ok | (intro _ _ _) | (intro _ _) | (intro _) | split at e | split

theorem execSct_ok {ty : Ty} {a : GReg} {b : GReg} {c : GReg} {d : GReg} {n1 : BitVec 12} {ix64 : Bool} {dnu
    : NuCode} {snu : NuCode} {s : State} {nx : State} (e : execSct ty a b c d n1 ix64 dnu snu s = .next nx) (hs
        : s.memoryOk = true) :
    nx.memoryOk = true := by
  unfold execSct at e
  try dsimp only at e
  repeat' first
    | (with_reducible assumption) | (with_reducible injection e with e; subst e)
    | (with_reducible injection e; done) | (with_reducible apply ok3_same) | simp only [ok_mk]
    | with_reducible apply acceptCopy_ok | (intro _ _ _) | (intro _ _) | (intro _) | split at e | split

theorem execCmpx_ok {ty : Ty} {a : GReg} {b : GReg} {c : GReg} {d : GReg} {n1 : BitVec 12} {idx : Bool} {dnu
    : NuCode} {snu : NuCode} {s : State} {nx : State} (e : execCmpx ty a b c d n1 idx dnu snu s = .next nx) (hs
        : s.memoryOk = true) :
    nx.memoryOk = true := by
  unfold execCmpx at e
  try dsimp only at e
  repeat' first
    | (with_reducible assumption) | (with_reducible injection e with e; subst e)
    | (with_reducible injection e; done) | (with_reducible apply ok3_same) | simp only [ok_mk]
    | with_reducible apply acceptCopy_ok | (intro _ _ _) | (intro _ _) | (intro _) | split at e | split

theorem execCopyPieceWrite_ok {k : Nat} {s : State} {nx : State} (e : execCopyPieceWrite k s = .next nx) (hs
    : s.memoryOk = true) :
    nx.memoryOk = true := by
  unfold execCopyPieceWrite at e
  try dsimp only at e
  repeat' first
    | (with_reducible assumption) | (with_reducible injection e with e; subst e)
    | (with_reducible injection e; done) | (with_reducible apply ok3_same) | simp only [ok_mk]
    | with_reducible apply movePiece_ok | (intro _ _ _) | (intro _ _) | (intro _) | split at e | split

theorem setFlag_ok (s : State) (x : Stream) (j : Nat) (v : Nat) (hs : s.memoryOk = true) :
    (State.setFlag s x j v).memoryOk = true := by
  unfold State.setFlag
  try dsimp only
  repeat' first
    | (with_reducible assumption) | (with_reducible apply ok3_same) | simp only [ok_mk]
    | with_reducible apply fillWord_ok | with_reducible apply scrWrite_ok | (intro _ _ _) | (intro _ _)
    | (intro _) | split

theorem clearFlag_ok (s : State) (x : Stream) (j : Nat) (hs : s.memoryOk = true) :
    (State.clearFlag s x j).memoryOk = true := by
  unfold State.clearFlag
  try dsimp only
  repeat' first
    | (with_reducible assumption) | (with_reducible apply ok3_same) | simp only [ok_mk]
    | with_reducible apply drainWord_ok | (intro _ _ _) | (intro _ _) | (intro _) | split

theorem putStream_ok (s : State) (k : Nat) (x : Stream) (hs : s.memoryOk = true) :
    (State.putStream s k x).memoryOk = true := by
  unfold State.putStream
  try dsimp only
  repeat' first
    | (with_reducible assumption) | (with_reducible apply ok3_same) | simp only [ok_mk] | (intro _ _ _)
    | (intro _ _) | (intro _) | split

theorem moveBlock_ok (s : State) (x : Stream) (src : Loc) (dst : Loc) (hs : s.memoryOk = true) :
    (State.moveBlock s x src dst).memoryOk = true := by
  unfold State.moveBlock
  try dsimp only
  repeat' first
    | (with_reducible assumption) | (with_reducible apply ok3_same) | simp only [ok_mk]
    | with_reducible apply dropAhead_ok | with_reducible apply preWrite_ok | with_reducible apply setDesc_ok
    | with_reducible apply touch_ok | with_reducible apply writeLoc_ok
    | refine engineBlock_ok (by assumption) ?_ | refine engineBlock_ok (Prod.eta _).symm ?_
    | with_reducible apply elimState_ok | with_reducible apply elim_ok | (intro _ _ _) | (intro _ _)
    | (intro _) | split

theorem moveTile_ok (s : State) (x : Stream) (t : Nat) (l : List (Nat × Loc)) (hs : s.memoryOk = true) :
    (State.moveTile s x t l).memoryOk = true := by
  unfold State.moveTile
  try dsimp only
  repeat' first
    | (with_reducible assumption) | (with_reducible apply ok3_same) | simp only [ok_mk]
    | with_reducible apply moveBlock_ok | (with_reducible apply foldl_ok)
    | refine foldl_pair_eq_ok (by assumption) ?_ ?_ | (with_reducible apply foldl_pair_ok) | dsimp only
    | (intro _ _ _) | (intro _ _) | (intro _) | split

theorem streamRetires_ok (s : State) (x : Stream) (hs : s.memoryOk = true) :
    (State.streamRetires s x).memoryOk = true := by
  unfold State.streamRetires
  try dsimp only
  repeat' first
    | (with_reducible assumption) | (with_reducible apply ok3_same) | simp only [ok_mk]
    | with_reducible apply updSlot_ok | (intro _ _ _) | (intro _ _) | (intro _) | split

theorem finishTile_ok {s : State} {k : Nat} {x : Stream} {nx : State} (e : State.finishTile s k x = .ok nx) (hs
    : s.memoryOk = true) :
    nx.memoryOk = true := by
  unfold State.finishTile at e
  try dsimp only at e
  repeat' first
    | (with_reducible assumption) | (with_reducible injection e with e; subst e)
    | (with_reducible injection e; done) | (with_reducible apply ok3_same) | simp only [ok_mk]
    | with_reducible apply moveTile_ok | with_reducible apply putStream_ok | with_reducible apply setFlag_ok
    | with_reducible apply streamRetires_ok | with_reducible apply tlbFill_ok
    | (with_reducible apply foldl_ok) | refine foldl_pair_eq_ok (by assumption) ?_ ?_
    | (with_reducible apply foldl_pair_ok) | dsimp only | (intro _ _ _) | (intro _ _) | (intro _) | split at e
    | split

theorem moveStream_ok (s : State) (k : Nat) (hs : s.memoryOk = true) :
    (State.moveStream s k).memoryOk = true := by
  unfold State.moveStream
  try dsimp only
  repeat' first
    | (with_reducible assumption) | (with_reducible apply ok3_same) | simp only [ok_mk]
    | refine finishTile_ok (by assumption) ?_ | (intro _ _ _) | (intro _ _) | (intro _) | split

theorem faultStream_ok (s : State) (k : Nat) (hs : s.memoryOk = true) :
    (State.faultStream s k).memoryOk = true := by
  unfold State.faultStream
  try dsimp only
  repeat' first
    | (with_reducible assumption) | (with_reducible apply ok3_same) | simp only [ok_mk]
    | with_reducible apply failedWalk_ok | with_reducible apply updSlot_ok | with_reducible apply tellFault_ok
    | refine finishTile_ok (by assumption) ?_ | (intro _ _ _) | (intro _ _) | (intro _) | split

theorem runStream_ok (k : Nat) (x0 : Nat) (x1 : State) (hx1 : x1.memoryOk = true) :
    (State.runStream k x0 x1).memoryOk = true := by
  induction x0 generalizing k x1 with
  | zero => first | exact hx1 | (unfold State.runStream; exact hx1)
  | succ n ih =>
    unfold State.runStream
    try dsimp only
    repeat' first
      | (with_reducible assumption) | (with_reducible apply ok3_same) | simp only [ok_mk]
      | with_reducible apply ih | with_reducible apply faultStream_ok
      | refine finishTile_ok (by assumption) ?_ | (intro _ _ _) | (intro _ _) | (intro _) | split

theorem runStreams_ok (s : State) (hs : s.memoryOk = true) :
    (State.runStreams s).memoryOk = true := by
  unfold State.runStreams
  try dsimp only
  repeat' first
    | (with_reducible assumption) | (with_reducible apply ok3_same) | simp only [ok_mk]
    | with_reducible apply runStream_ok | (with_reducible apply foldl_ok)
    | refine foldl_pair_eq_ok (by assumption) ?_ ?_ | (with_reducible apply foldl_pair_ok) | dsimp only
    | (intro _ _ _) | (intro _ _) | (intro _) | split

theorem startStream_ok (s : State) (id : Nat) (x : Stream) (hs : s.memoryOk = true) :
    (State.startStream s id x).memoryOk = true := by
  unfold State.startStream
  try dsimp only
  repeat' first
    | (with_reducible assumption) | (with_reducible apply ok3_same) | simp only [ok_mk]
    | with_reducible apply clearFlag_ok | with_reducible apply runStream_ok | with_reducible apply upd_ok
    | with_reducible apply setFlag_ok | (with_reducible apply foldl_ok)
    | refine foldl_pair_eq_ok (by assumption) ?_ ?_ | (with_reducible apply foldl_pair_ok) | dsimp only
    | (intro _ _ _) | (intro _ _) | (intro _) | split

theorem submit_ok (s : State) (a : GReg) (b : GReg) (c : GReg) (out : Bool) (hs : s.memoryOk = true) :
    (State.submit s a b c out).memoryOk = true := by
  unfold State.submit
  try dsimp only
  repeat' first
    | (with_reducible assumption) | (with_reducible apply ok3_same) | simp only [ok_mk]
    | with_reducible apply filled_ok | with_reducible apply firmly_ok | with_reducible apply retire_ok
    | with_reducible apply trap_ok | with_reducible apply trapTo_ok | with_reducible apply trapWith_ok
    | with_reducible apply setG_ok | with_reducible apply startStream_ok
    | refine engineBlock_ok (by assumption) ?_ | refine engineBlock_ok (Prod.eta _).symm ?_
    | (with_reducible apply foldl_ok) | refine foldl_pair_eq_ok (by assumption) ?_ ?_
    | (with_reducible apply foldl_pair_ok) | dsimp only | (intro _ _ _) | (intro _ _) | (intro _) | split

theorem releaseTile_ok (s : State) (b : GReg) (c : GReg) (hs : s.memoryOk = true) :
    (State.releaseTile s b c).memoryOk = true := by
  unfold State.releaseTile
  try dsimp only
  repeat' first
    | (with_reducible assumption) | (with_reducible apply ok3_same) | simp only [ok_mk]
    | with_reducible apply clearFlag_ok | with_reducible apply putStream_ok | with_reducible apply retire_ok
    | with_reducible apply runStream_ok | with_reducible apply setFlag_ok | with_reducible apply trap_ok
    | with_reducible apply waitFirm_ok | with_reducible apply upd_ok | (intro _ _ _) | (intro _ _) | (intro _)
    | split

theorem execTsubLd_ok {a : GReg} {b : GReg} {c : GReg} {s : State} {nx : State} (e
    : execTsubLd a b c s = .next nx) (hs : s.memoryOk = true) :
    nx.memoryOk = true := by
  unfold execTsubLd at e
  try dsimp only at e
  repeat' first
    | (with_reducible assumption) | (with_reducible injection e with e; subst e)
    | (with_reducible injection e; done) | (with_reducible apply ok3_same) | simp only [ok_mk]
    | with_reducible apply submit_ok | (intro _ _ _) | (intro _ _) | (intro _) | split at e | split

theorem execTsubSt_ok {a : GReg} {b : GReg} {c : GReg} {s : State} {nx : State} (e
    : execTsubSt a b c s = .next nx) (hs : s.memoryOk = true) :
    nx.memoryOk = true := by
  unfold execTsubSt at e
  try dsimp only at e
  repeat' first
    | (with_reducible assumption) | (with_reducible injection e with e; subst e)
    | (with_reducible injection e; done) | (with_reducible apply ok3_same) | simp only [ok_mk]
    | with_reducible apply submit_ok | (intro _ _ _) | (intro _ _) | (intro _) | split at e | split

theorem execTrel_ok {b : GReg} {c : GReg} {s : State} {nx : State} (e : execTrel b c s = .next nx) (hs
    : s.memoryOk = true) :
    nx.memoryOk = true := by
  unfold execTrel at e
  try dsimp only at e
  repeat' first
    | (with_reducible assumption) | (with_reducible injection e with e; subst e)
    | (with_reducible injection e; done) | (with_reducible apply ok3_same) | simp only [ok_mk]
    | with_reducible apply releaseTile_ok | (intro _ _ _) | (intro _ _) | (intro _) | split at e | split

theorem execStreamTileDone_ok {k : Nat} {s : State} {nx : State} (e : execStreamTileDone k s = .next nx) (hs
    : s.memoryOk = true) :
    nx.memoryOk = true := by
  unfold execStreamTileDone at e
  try dsimp only at e
  repeat' first
    | (with_reducible assumption) | (with_reducible injection e with e; subst e)
    | (with_reducible injection e; done) | (with_reducible apply ok3_same) | simp only [ok_mk]
    | with_reducible apply moveStream_ok | (intro _ _ _) | (intro _ _) | (intro _) | split at e | split

theorem execEngineTransferFault_ok {k : Nat} {s : State} {nx : State} (e : execEngineTransferFault k s = .next nx)
    (hs : s.memoryOk = true) :
    nx.memoryOk = true := by
  unfold execEngineTransferFault at e
  try dsimp only at e
  repeat' first
    | (with_reducible assumption) | (with_reducible injection e with e; subst e)
    | (with_reducible injection e; done) | (with_reducible apply ok3_same) | simp only [ok_mk]
    | with_reducible apply faultCopy_ok | with_reducible apply faultStream_ok | (intro _ _ _) | (intro _ _)
    | (intro _) | split at e | split

theorem retireVector_ok (s : State) (sid : Nat) (hs : s.memoryOk = true) :
    (State.retireVector s sid).memoryOk = true := by
  unfold State.retireVector
  try dsimp only
  repeat' first
    | (with_reducible assumption) | (with_reducible apply ok3_same) | simp only [ok_mk]
    | with_reducible apply updSlot_ok | (intro _ _ _) | (intro _ _) | (intro _) | split

theorem retirePort_ok (s : State) (sid : Nat) (hs : s.memoryOk = true) :
    (State.retirePort s sid).memoryOk = true := by
  unfold State.retirePort
  try dsimp only
  repeat' first
    | (with_reducible assumption) | (with_reducible apply ok3_same) | simp only [ok_mk]
    | with_reducible apply asSlot_ok | with_reducible apply runPort_ok | with_reducible apply updSlot_ok
    | with_reducible apply settleFrom_ok | (intro _ _ _) | (intro _ _) | (intro _) | split

theorem retireQueues_ok (s : State) (sid : Nat) (hs : s.memoryOk = true) :
    (State.retireQueues s sid).memoryOk = true := by
  unfold State.retireQueues
  try dsimp only
  repeat' first
    | (with_reducible assumption) | (with_reducible apply ok3_same) | simp only [ok_mk]
    | with_reducible apply retireAll_ok | with_reducible apply retirePort_ok
    | with_reducible apply retireVector_ok | (with_reducible apply foldl_ok)
    | refine foldl_pair_eq_ok (by assumption) ?_ ?_ | (with_reducible apply foldl_pair_ok) | dsimp only
    | (intro _ _ _) | (intro _ _) | (intro _) | split

theorem execFullEmptySpinExpiry_ok {sid : Nat} {s : State} {nx : State} (e
    : execFullEmptySpinExpiry sid s = .next nx) (hs : s.memoryOk = true) :
    nx.memoryOk = true := by
  unfold execFullEmptySpinExpiry at e
  try dsimp only at e
  repeat' first
    | (with_reducible assumption) | (with_reducible injection e with e; subst e)
    | (with_reducible injection e; done) | (with_reducible apply ok3_same) | simp only [ok_mk]
    | with_reducible apply updSlot_ok | (intro _ _ _) | (intro _ _) | (intro _) | split at e | split

theorem execEngineInstructionComplete_ok {sid : Nat} {port : Bool} {s : State} {nx : State} (e
    : execEngineInstructionComplete sid port s = .next nx) (hs : s.memoryOk = true) :
    nx.memoryOk = true := by
  unfold execEngineInstructionComplete at e
  try dsimp only at e
  repeat' first
    | (with_reducible assumption) | (with_reducible injection e with e; subst e)
    | (with_reducible injection e; done) | (with_reducible apply ok3_same) | simp only [ok_mk]
    | with_reducible apply retirePort_ok | with_reducible apply retireVector_ok | (intro _ _ _) | (intro _ _)
    | (intro _) | split at e | split

theorem execExactCellArrival_ok {k : Nat} {s : State} {nx : State} (e : execExactCellArrival k s = .next nx) (hs
    : s.memoryOk = true) :
    nx.memoryOk = true := by
  unfold execExactCellArrival at e
  try dsimp only at e
  repeat' first
    | (with_reducible assumption) | (with_reducible injection e with e; subst e)
    | (with_reducible injection e; done) | (with_reducible apply ok3_same) | simp only [ok_mk]
    | with_reducible apply performCell_ok | (intro _ _ _) | (intro _ _) | (intro _) | split at e | split

theorem execStoreRegistration_ok {k : Nat × Nat} {s : State} {nx : State} (e
    : execStoreRegistration k s = .next nx) (hs : s.memoryOk = true) :
    nx.memoryOk = true := by
  unfold execStoreRegistration at e
  try dsimp only at e
  repeat' first
    | (with_reducible assumption) | (with_reducible injection e with e; subst e)
    | (with_reducible injection e; done) | (with_reducible apply ok3_same) | simp only [ok_mk]
    | with_reducible apply registerStore_ok | with_reducible apply stepSnap_ok | (intro _ _ _) | (intro _ _)
    | (intro _) | split at e | split

theorem execStoreAck_ok {k : Nat} {s : State} {nx : State} (e : execStoreAck k s = .next nx) (hs
    : s.memoryOk = true) :
    nx.memoryOk = true := by
  unfold execStoreAck at e
  try dsimp only at e
  repeat' first
    | (with_reducible assumption) | (with_reducible injection e with e; subst e)
    | (with_reducible injection e; done) | (with_reducible apply ok3_same) | simp only [ok_mk]
    | with_reducible apply ackStore_ok | (intro _ _ _) | (intro _ _) | (intro _) | split at e | split

theorem execLoadRequest_ok {k : Nat} {part : Nat} {s : State} {nx : State} (e
    : execLoadRequest k part s = .next nx) (hs : s.memoryOk = true) :
    nx.memoryOk = true := by
  unfold execLoadRequest at e
  try dsimp only at e
  repeat' first
    | (with_reducible assumption) | (with_reducible injection e with e; subst e)
    | (with_reducible injection e; done) | (with_reducible apply ok3_same) | simp only [ok_mk]
    | with_reducible apply requestPart_ok | (intro _ _ _) | (intro _ _) | (intro _) | split at e | split

theorem execLoadReturn_ok {k : Nat} {s : State} {nx : State} (e : execLoadReturn k s = .next nx) (hs
    : s.memoryOk = true) :
    nx.memoryOk = true := by
  unfold execLoadReturn at e
  try dsimp only at e
  repeat' first
    | (with_reducible assumption) | (with_reducible injection e with e; subst e)
    | (with_reducible injection e; done) | (with_reducible apply ok3_same) | simp only [ok_mk]
    | with_reducible apply finishLoad_ok | with_reducible apply removeMsg_ok
    | with_reducible apply stepResult_ok | (intro _ _ _) | (intro _ _) | (intro _) | split at e | split

theorem execPostedUpdateApplied_ok {k : Nat} {s : State} {nx : State} (e : execPostedUpdateApplied k s = .next nx)
    (hs : s.memoryOk = true) :
    nx.memoryOk = true := by
  unfold execPostedUpdateApplied at e
  try dsimp only at e
  repeat' first
    | (with_reducible assumption) | (with_reducible injection e with e; subst e)
    | (with_reducible injection e; done) | (with_reducible apply ok3_same) | simp only [ok_mk]
    | with_reducible apply performRed_ok | with_reducible apply stepLeave_ok
    | with_reducible apply stepQueue_ok | (intro _ _ _) | (intro _ _) | (intro _) | split at e | split

theorem execContributorRegistration_ok {k : Nat} {s : State} {nx : State} (e
    : execContributorRegistration k s = .next nx) (hs : s.memoryOk = true) :
    nx.memoryOk = true := by
  unfold execContributorRegistration at e
  try dsimp only at e
  repeat' first
    | (with_reducible assumption) | (with_reducible injection e with e; subst e)
    | (with_reducible injection e; done) | (with_reducible apply ok3_same) | simp only [ok_mk]
    | with_reducible apply performRed_ok | (intro _ _ _) | (intro _ _) | (intro _) | split at e | split

theorem execPartialCombine_ok {cache : Nat} {line : Nat} {s : State} {nx : State} (e
    : execPartialCombine cache line s = .next nx) (hs : s.memoryOk = true) :
    nx.memoryOk = true := by
  unfold execPartialCombine at e
  try dsimp only at e
  repeat' first
    | (with_reducible assumption) | (with_reducible injection e with e; subst e)
    | (with_reducible injection e; done) | (with_reducible apply ok3_same) | simp only [ok_mk]
    | with_reducible apply flushUpdate_ok | (intro _ _ _) | (intro _ _) | (intro _) | split at e | split

theorem execAtomicAtHome_ok {k : Nat} {s : State} {nx : State} (e : execAtomicAtHome k s = .next nx) (hs
    : s.memoryOk = true) :
    nx.memoryOk = true := by
  unfold execAtomicAtHome at e
  try dsimp only at e
  repeat' first
    | (with_reducible assumption) | (with_reducible injection e with e; subst e)
    | (with_reducible injection e; done) | (with_reducible apply ok3_same) | simp only [ok_mk]
    | with_reducible apply performAtom_ok | (intro _ _ _) | (intro _ _) | (intro _) | split at e | split

theorem execJoinIncrement_ok {k : Nat} {s : State} {nx : State} (e : execJoinIncrement k s = .next nx) (hs
    : s.memoryOk = true) :
    nx.memoryOk = true := by
  unfold execJoinIncrement at e
  try dsimp only at e
  repeat' first
    | (with_reducible assumption) | (with_reducible injection e with e; subst e)
    | (with_reducible injection e; done) | (with_reducible apply ok3_same) | simp only [ok_mk]
    | with_reducible apply stepJoin_ok | (intro _ _ _) | (intro _ _) | (intro _) | split at e | split

theorem execJoinArrival_ok {k : Nat} {s : State} {nx : State} (e : execJoinArrival k s = .next nx) (hs
    : s.memoryOk = true) :
    nx.memoryOk = true := by
  unfold execJoinArrival at e
  try dsimp only at e
  repeat' first
    | (with_reducible assumption) | (with_reducible injection e with e; subst e)
    | (with_reducible injection e; done) | (with_reducible apply ok3_same) | simp only [ok_mk]
    | with_reducible apply stepArrive_ok | (intro _ _ _) | (intro _ _) | (intro _) | split at e | split

theorem execWakeRegistration_ok {k : Nat} {s : State} {nx : State} (e : execWakeRegistration k s = .next nx) (hs
    : s.memoryOk = true) :
    nx.memoryOk = true := by
  unfold execWakeRegistration at e
  try dsimp only at e
  repeat' first
    | (with_reducible assumption) | (with_reducible injection e with e; subst e)
    | (with_reducible injection e; done) | (with_reducible apply ok3_same) | simp only [ok_mk]
    | with_reducible apply stepReg_ok | (intro _ _ _) | (intro _ _) | (intro _) | split at e | split

theorem execReuseClockAdvance_ok {k : Nat} {s : State} {nx : State} (e : execReuseClockAdvance k s = .next nx) (hs
    : s.memoryOk = true) :
    nx.memoryOk = true := by
  unfold execReuseClockAdvance at e
  try dsimp only at e
  repeat' first
    | (with_reducible assumption) | (with_reducible injection e with e; subst e)
    | (with_reducible injection e; done) | (with_reducible apply ok3_same) | simp only [ok_mk]
    | with_reducible apply clockAdd_ok | with_reducible apply quotaNow_ok | with_reducible apply removeMsg_ok
    | (intro _ _ _) | (intro _ _) | (intro _) | split at e | split

theorem execHonestyReport_ok {k : Nat} {s : State} {nx : State} (e : execHonestyReport k s = .next nx) (hs
    : s.memoryOk = true) :
    nx.memoryOk = true := by
  unfold execHonestyReport at e
  try dsimp only at e
  repeat' first
    | (with_reducible assumption) | (with_reducible injection e with e; subst e)
    | (with_reducible injection e; done) | (with_reducible apply ok3_same) | simp only [ok_mk]
    | with_reducible apply judge_ok | with_reducible apply removeMsg_ok | (intro _ _ _) | (intro _ _)
    | (intro _) | split at e | split

theorem adoptCopies_ok (s : State) (sid : Nat) (r : RecId) (hs : s.memoryOk = true) :
    (State.adoptCopies s sid r).memoryOk = true := by
  unfold State.adoptCopies
  try dsimp only
  repeat' first
    | (with_reducible assumption) | (with_reducible apply ok3_same) | simp only [ok_mk]
    | with_reducible apply updSlot_ok | (intro _ _ _) | (intro _ _) | (intro _) | split

theorem dispatchTimed_ok (s : State) (sid : Nat) (r : RecId) (hs : s.memoryOk = true) :
    (State.dispatchTimed s sid r).memoryOk = true := by
  unfold State.dispatchTimed
  try dsimp only
  repeat' first
    | (with_reducible assumption) | (with_reducible apply ok3_same) | simp only [ok_mk]
    | with_reducible apply updEntry_ok | with_reducible apply updCluster_ok | with_reducible apply updSlot_ok
    | (intro _ _ _) | (intro _ _) | (intro _) | split

theorem checkRecord_ok (s : State) (sid : Nat) (r : RecId) (hs : s.memoryOk = true) :
    (State.checkRecord s sid r).memoryOk = true := by
  unfold State.checkRecord
  try dsimp only
  repeat' first
    | (with_reducible assumption) | (with_reducible apply ok3_same) | simp only [ok_mk]
    | with_reducible apply asSlot_ok | with_reducible apply trap_ok | (intro _ _ _) | (intro _ _) | (intro _)
    | split

theorem dispatch_ok (s : State) (sid : Nat) (hs : s.memoryOk = true) :
    (State.dispatch s sid).memoryOk = true := by
  unfold State.dispatch
  try dsimp only
  repeat' first
    | (with_reducible assumption) | (with_reducible apply ok3_same) | simp only [ok_mk]
    | with_reducible apply adoptCopies_ok | with_reducible apply checkRecord_ok
    | with_reducible apply dispatchTimed_ok | with_reducible apply updCluster_ok
    | with_reducible apply startTask_ok | (intro _ _ _) | (intro _ _) | (intro _) | split

theorem ageReady_ok (s : State) (pkg : Nat) (k : Nat) (hs : s.memoryOk = true) :
    (State.ageReady s pkg k).memoryOk = true := by
  unfold State.ageReady
  try dsimp only
  repeat' first
    | (with_reducible assumption) | (with_reducible apply ok3_same) | simp only [ok_mk]
    | with_reducible apply updCluster_ok | (intro _ _ _) | (intro _ _) | (intro _) | split

theorem releaseCrossing_ok (s : State) (pkg : Nat) (hs : s.memoryOk = true) :
    (State.releaseCrossing s pkg).memoryOk = true := by
  unfold State.releaseCrossing
  try dsimp only
  repeat' first
    | (with_reducible assumption) | (with_reducible apply ok3_same) | simp only [ok_mk]
    | with_reducible apply updLark_ok | refine startEvent_ok (by assumption) ?_ | (intro _ _ _) | (intro _ _)
    | (intro _) | split

theorem commitEntry_ok (s : State) (pkg : Nat) (id : Nat) (hs : s.memoryOk = true) :
    (State.commitEntry s pkg id).memoryOk = true := by
  unfold State.commitEntry
  try dsimp only
  repeat' first
    | (with_reducible assumption) | (with_reducible apply ok3_same) | simp only [ok_mk]
    | with_reducible apply commit_ok | with_reducible apply enqueue_ok | with_reducible apply updEntry_ok
    | with_reducible apply settleFrom_ok | (with_reducible apply foldl_ok)
    | refine foldl_pair_eq_ok (by assumption) ?_ ?_ | (with_reducible apply foldl_pair_ok) | dsimp only
    | (intro _ _ _) | (intro _ _) | (intro _) | split

theorem promoteEntry_ok (s : State) (pkg : Nat) (id : Nat) (hs : s.memoryOk = true) :
    (State.promoteEntry s pkg id).memoryOk = true := by
  unfold State.promoteEntry
  try dsimp only
  repeat' first
    | (with_reducible assumption) | (with_reducible apply ok3_same) | simp only [ok_mk]
    | with_reducible apply promote_ok | with_reducible apply settleFrom_ok | (intro _ _ _) | (intro _ _)
    | (intro _) | split

theorem combineDie_ok (s : State) (die : Nat) (hs : s.memoryOk = true) :
    (State.combineDie s die).memoryOk = true := by
  unfold State.combineDie
  try dsimp only
  repeat' first
    | (with_reducible assumption) | (with_reducible apply ok3_same) | simp only [ok_mk]
    | (with_reducible apply foldl_ok) | refine foldl_pair_eq_ok (by assumption) ?_ ?_
    | (with_reducible apply foldl_pair_ok) | dsimp only | (intro _ _ _) | (intro _ _) | (intro _) | split

theorem combinePackage_ok (s : State) (hs : s.memoryOk = true) :
    (State.combinePackage s).memoryOk = true := by
  unfold State.combinePackage
  try dsimp only
  repeat' first
    | (with_reducible assumption) | (with_reducible apply ok3_same) | simp only [ok_mk]
    | with_reducible apply receive_ok | (with_reducible apply foldl_ok)
    | refine foldl_pair_eq_ok (by assumption) ?_ ?_ | (with_reducible apply foldl_pair_ok) | dsimp only
    | (intro _ _ _) | (intro _ _) | (intro _) | split

theorem combineFabric_ok (s : State) (others : List (Key × Key)) (hs : s.memoryOk = true) :
    (State.combineFabric s others).memoryOk = true := by
  unfold State.combineFabric
  try dsimp only
  repeat' first
    | (with_reducible assumption) | (with_reducible apply ok3_same) | simp only [ok_mk]
    | with_reducible apply receive_ok | (with_reducible apply foldl_ok)
    | refine foldl_pair_eq_ok (by assumption) ?_ ?_ | (with_reducible apply foldl_pair_ok) | dsimp only
    | (intro _ _ _) | (intro _ _) | (intro _) | split

theorem execSlotDispatch_ok {sid : Nat} {s : State} {nx : State} (e : execSlotDispatch sid s = .next nx) (hs
    : s.memoryOk = true) :
    nx.memoryOk = true := by
  unfold execSlotDispatch at e
  try dsimp only at e
  repeat' first
    | (with_reducible assumption) | (with_reducible injection e with e; subst e)
    | (with_reducible injection e; done) | (with_reducible apply ok3_same) | simp only [ok_mk]
    | with_reducible apply dispatch_ok | (intro _ _ _) | (intro _ _) | (intro _) | split at e | split

theorem execReadyQueueAgeing_ok {pkg : Nat} {k : Nat} {s : State} {nx : State} (e
    : execReadyQueueAgeing pkg k s = .next nx) (hs : s.memoryOk = true) :
    nx.memoryOk = true := by
  unfold execReadyQueueAgeing at e
  try dsimp only at e
  repeat' first
    | (with_reducible assumption) | (with_reducible injection e with e; subst e)
    | (with_reducible injection e; done) | (with_reducible apply ok3_same) | simp only [ok_mk]
    | with_reducible apply ageReady_ok | (intro _ _ _) | (intro _ _) | (intro _) | split at e | split

theorem execRecordPlacement_ok {k : Nat} {s : State} {nx : State} (e : execRecordPlacement k s = .next nx) (hs
    : s.memoryOk = true) :
    nx.memoryOk = true := by
  unfold execRecordPlacement at e
  try dsimp only at e
  repeat' first
    | (with_reducible assumption) | (with_reducible injection e with e; subst e)
    | (with_reducible injection e; done) | (with_reducible apply ok3_same) | simp only [ok_mk]
    | with_reducible apply stepPlace_ok | (intro _ _ _) | (intro _ _) | (intro _) | split at e | split

theorem execMessageDelivery_ok {k : Nat} {s : State} {nx : State} (e : execMessageDelivery k s = .next nx) (hs
    : s.memoryOk = true) :
    nx.memoryOk = true := by
  unfold execMessageDelivery at e
  try dsimp only at e
  repeat' first
    | (with_reducible assumption) | (with_reducible injection e with e; subst e)
    | (with_reducible injection e; done) | (with_reducible apply ok3_same) | simp only [ok_mk]
    | with_reducible apply stepPlace_ok | (intro _ _ _) | (intro _ _) | (intro _) | split at e | split

theorem execCrossingRelease_ok {pkg : Nat} {s : State} {nx : State} (e : execCrossingRelease pkg s = .next nx) (hs
    : s.memoryOk = true) :
    nx.memoryOk = true := by
  unfold execCrossingRelease at e
  try dsimp only at e
  repeat' first
    | (with_reducible assumption) | (with_reducible injection e with e; subst e)
    | (with_reducible injection e; done) | (with_reducible apply ok3_same) | simp only [ok_mk]
    | with_reducible apply releaseCrossing_ok | (intro _ _ _) | (intro _ _) | (intro _) | split at e | split

theorem execAsterAccept_ok {k : Nat} {s : State} {nx : State} (e : execAsterAccept k s = .next nx) (hs
    : s.memoryOk = true) :
    nx.memoryOk = true := by
  unfold execAsterAccept at e
  try dsimp only at e
  repeat' first
    | (with_reducible assumption) | (with_reducible injection e with e; subst e)
    | (with_reducible injection e; done) | (with_reducible apply ok3_same) | simp only [ok_mk]
    | with_reducible apply servePending_ok | with_reducible apply stepPlace_ok | (intro _ _ _) | (intro _ _)
    | (intro _) | split at e | split

theorem execAsterCommit_ok {pkg : Nat} {k : Nat} {s : State} {nx : State} (e : execAsterCommit pkg k s = .next nx)
    (hs : s.memoryOk = true) :
    nx.memoryOk = true := by
  unfold execAsterCommit at e
  try dsimp only at e
  repeat' first
    | (with_reducible assumption) | (with_reducible injection e with e; subst e)
    | (with_reducible injection e; done) | (with_reducible apply ok3_same) | simp only [ok_mk]
    | with_reducible apply commitEntry_ok | (intro _ _ _) | (intro _ _) | (intro _) | split at e | split

theorem execConflictAbort_ok {k : Nat} {s : State} {nx : State} (e : execConflictAbort k s = .next nx) (hs
    : s.memoryOk = true) :
    nx.memoryOk = true := by
  unfold execConflictAbort at e
  try dsimp only at e
  repeat' first
    | (with_reducible assumption) | (with_reducible injection e with e; subst e)
    | (with_reducible injection e; done) | (with_reducible apply ok3_same) | simp only [ok_mk]
    | with_reducible apply stepAbort_ok | (intro _ _ _) | (intro _ _) | (intro _) | split at e | split

theorem execTaskRestartReady_ok {pkg : Nat} {k : Nat} {s : State} {nx : State} (e
    : execTaskRestartReady pkg k s = .next nx) (hs : s.memoryOk = true) :
    nx.memoryOk = true := by
  unfold execTaskRestartReady at e
  try dsimp only at e
  repeat' first
    | (with_reducible assumption) | (with_reducible injection e with e; subst e)
    | (with_reducible injection e; done) | (with_reducible apply ok3_same) | simp only [ok_mk]
    | with_reducible apply restart_ok | (intro _ _ _) | (intro _ _) | (intro _) | split at e | split

theorem execIrrevocablePromotion_ok {pkg : Nat} {k : Nat} {s : State} {nx : State} (e
    : execIrrevocablePromotion pkg k s = .next nx) (hs : s.memoryOk = true) :
    nx.memoryOk = true := by
  unfold execIrrevocablePromotion at e
  try dsimp only at e
  repeat' first
    | (with_reducible assumption) | (with_reducible injection e with e; subst e)
    | (with_reducible injection e; done) | (with_reducible apply ok3_same) | simp only [ok_mk]
    | with_reducible apply promoteEntry_ok | (intro _ _ _) | (intro _ _) | (intro _) | split at e | split

theorem execHorizonDieCombine_ok {die : Nat} {s : State} {nx : State} (e : execHorizonDieCombine die s = .next nx)
    (hs : s.memoryOk = true) :
    nx.memoryOk = true := by
  unfold execHorizonDieCombine at e
  try dsimp only at e
  repeat' first
    | (with_reducible assumption) | (with_reducible injection e with e; subst e)
    | (with_reducible injection e; done) | (with_reducible apply ok3_same) | simp only [ok_mk]
    | with_reducible apply combineDie_ok | (intro _ _ _) | (intro _ _) | (intro _) | split at e | split

theorem execHorizonPackageCombine_ok {s : State} {nx : State} (e : execHorizonPackageCombine s = .next nx) (hs
    : s.memoryOk = true) :
    nx.memoryOk = true := by
  unfold execHorizonPackageCombine at e
  try dsimp only at e
  repeat' first
    | (with_reducible assumption) | (with_reducible injection e with e; subst e)
    | (with_reducible injection e; done) | (with_reducible apply ok3_same) | simp only [ok_mk]
    | with_reducible apply combinePackage_ok | (intro _ _ _) | (intro _ _) | (intro _) | split at e | split

theorem execHorizonFabricCombine_ok {others : List (Key × Key)} {s : State} {nx : State} (e
    : execHorizonFabricCombine others s = .next nx) (hs : s.memoryOk = true) :
    nx.memoryOk = true := by
  unfold execHorizonFabricCombine at e
  try dsimp only at e
  repeat' first
    | (with_reducible assumption) | (with_reducible injection e with e; subst e)
    | (with_reducible injection e; done) | (with_reducible apply ok3_same) | simp only [ok_mk]
    | with_reducible apply combineFabric_ok | (intro _ _ _) | (intro _ _) | (intro _) | split at e | split

end Sys2Proof.Laws
end

