-- ==== Sys2Proof/Laws/KeepsFirmware.lean ====
section
/-! SUPPORT. The canonical form of the memories is kept by every operation of Machine/Firmware.lean,
Machine/FrontEnd.lean, Machine/Preempt.lean. -/

set_option linter.all false

namespace Sys2Proof.Laws

open Sys2Proof.Machine Sys2Proof.Machine.State

theorem wfFrom_append {lo mid : Nat} {a b : List Host.Cell} (ha : Store.wfFrom (0 : Byte) lo a = true)
    (hk : ∀ e ∈ a, e.1 < mid) (hlo : lo ≤ mid) (hb : Store.wfFrom (0 : Byte) mid b = true) :
    Store.wfFrom (0 : Byte) lo (a ++ b) = true := by
  induction a generalizing lo with
  | nil => exact wfFrom_mono b 0 hlo hb
  | cons e t ih =>
    obtain ⟨i, w⟩ := e
    simp only [Store.wfFrom, List.cons_append, Bool.and_eq_true, decide_eq_true_eq] at ha ⊢
    have : i < mid := hk (i, w) (by simp)
    exact ⟨ha.1, ih ha.2 (fun e h => hk e (by simp [h])) (by omega)⟩

theorem wfFrom_above {lo b : Nat} {m : List Host.Cell} (h : Store.wfFrom (0 : Byte) lo m = true) :
    Store.wfFrom (0 : Byte) b (m.filter (fun e => b ≤ e.1)) = true := by
  induction m generalizing lo with
  | nil => rfl
  | cons e t ih =>
    obtain ⟨i, w⟩ := e
    simp only [Store.wfFrom, Bool.and_eq_true, decide_eq_true_eq] at h
    simp only [List.filter]
    split
    · rename_i hb
      have hb : b ≤ i := by simpa using hb
      simp only [Store.wfFrom, Bool.and_eq_true, decide_eq_true_eq]
      refine ⟨⟨hb, h.1.2⟩, ?_⟩
      exact wfFrom_filter t 0 _ h.2
    · exact ih h.2

theorem wfFrom_shift (src dst n : Nat) {lo lo' : Nat} {m : List Host.Cell}
    (h : Store.wfFrom (0 : Byte) lo m = true) (hl : lo' + src ≤ Nat.max lo src + dst) :
    Store.wfFrom (0 : Byte) lo' (m.filterMap (fun e =>
      if src ≤ e.1 && e.1 < src + n then some (e.1 - src + dst, e.2) else none)) = true := by
  induction m generalizing lo lo' with
  | nil => rfl
  | cons e t ih =>
    obtain ⟨i, w⟩ := e
    simp only [Store.wfFrom, Bool.and_eq_true, decide_eq_true_eq] at h
    by_cases hc : (src ≤ i && i < src + n) = true
    · rw [List.filterMap_cons]
      simp only [hc, if_true]
      rw [Store.wfFrom, Bool.and_eq_true, Bool.and_eq_true, decide_eq_true_eq, decide_eq_true_eq]
      simp only [Bool.and_eq_true, decide_eq_true_eq] at hc
      have hm : Nat.max lo src ≤ i := Nat.max_le.mpr ⟨h.1.1, hc.1⟩
      refine ⟨⟨by omega, h.1.2⟩, ih h.2 ?_⟩
      have : i + 1 ≤ Nat.max (i + 1) src := Nat.le_max_left _ _
      omega
    · simp only [List.filterMap_cons, hc]
      refine ih h.2 ?_
      have : Nat.max lo src ≤ Nat.max (i + 1) src :=
        Nat.max_le.mpr ⟨Nat.le_trans (by omega) (Nat.le_max_left _ _), Nat.le_max_right _ _⟩
      omega

/-- Copying a range of memory keeps the canonical form. -/
theorem moveRange_wf (src dst n : Nat) {m : List Host.Cell} (h : Memory.wf m = true) :
    Memory.wf (moveRange m src dst n) = true := by
  have h : Store.wfFrom (0 : Byte) 0 m = true := h
  have h2 : Store.wfFrom (0 : Byte) dst (m.filterMap (fun e =>
      if src ≤ e.1 && e.1 < src + n then some (e.1 - src + dst, e.2) else none)) = true :=
    wfFrom_shift src dst n h (by have : src ≤ Nat.max 0 src := Nat.le_max_right _ _; omega)
  show Store.wfFrom (0 : Byte) 0 _ = true
  unfold moveRange
  rw [List.append_assoc]
  refine wfFrom_append (mid := dst) (wfFrom_filter m 0 _ h) ?_ (Nat.zero_le _) ?_
  · intro e he; simpa using (List.mem_filter.mp he).2
  · refine wfFrom_append (mid := dst + n) h2 ?_ (Nat.le_add_right _ _) (wfFrom_above h)
    intro e he
    obtain ⟨a, _, ha⟩ := List.mem_filterMap.mp he
    split at ha
    · rename_i hc
      simp only [Bool.and_eq_true, decide_eq_true_eq] at hc
      cases ha
      simp only; omega
    · cases ha

theorem countError_ok (s : State) (code : Nat) (unit : Nat) (uncorrected : Bool) (hs : s.memoryOk = true) :
    (State.countError s code unit uncorrected).memoryOk = true := by
  unfold State.countError
  try dsimp only
  repeat' first
    | (with_reducible assumption) | (with_reducible apply ok3_same) | simp only [ok_mk]
    | with_reducible apply tell_ok | (intro _ _ _) | (intro _ _) | (intro _) | split

theorem poisonBlock_ok (s : State) (code : Nat) (block : Nat) (hs : s.memoryOk = true) :
    (State.poisonBlock s code block).memoryOk = true := by
  unfold State.poisonBlock
  try dsimp only
  repeat' first
    | (with_reducible assumption) | (with_reducible apply ok3_same) | simp only [ok_mk] | (intro _ _ _)
    | (intro _ _) | (intro _) | split

theorem deferCheck_ok (s : State) (sid : Nat) (origin : Nat) (unit : Nat) (code : Nat) (addr : Word) (hs
    : s.memoryOk = true) :
    (State.deferCheck s sid origin unit code addr).memoryOk = true := by
  unfold State.deferCheck
  try dsimp only
  repeat' first
    | (with_reducible assumption) | (with_reducible apply ok3_same) | simp only [ok_mk]
    | with_reducible apply deferAt_ok | (intro _ _ _) | (intro _ _) | (intro _) | split

theorem poisonReg_ok (s : State) (sid : Nat) (reg : Nat) (hs : s.memoryOk = true) :
    (State.poisonReg s sid reg).memoryOk = true := by
  unfold State.poisonReg
  try dsimp only
  repeat' first
    | (with_reducible assumption) | (with_reducible apply ok3_same) | simp only [ok_mk]
    | with_reducible apply updSlot_ok | (intro _ _ _) | (intro _ _) | (intro _) | split

theorem poisonLine_ok (s : State) (code : Nat) (line : Nat) (hs : s.memoryOk = true) :
    (State.poisonLine s code line).memoryOk = true := by
  unfold State.poisonLine
  try dsimp only
  repeat' first
    | (with_reducible assumption) | (with_reducible apply ok3_same) | simp only [ok_mk]
    | with_reducible apply poisonBlock_ok | (with_reducible apply foldl_ok)
    | refine foldl_pair_eq_ok (by assumption) ?_ ?_ | (with_reducible apply foldl_pair_ok) | dsimp only
    | (intro _ _ _) | (intro _ _) | (intro _) | split

theorem poisonPacket_ok (s : State) (k : Nat) (hs : s.memoryOk = true) :
    (State.poisonPacket s k).memoryOk = true := by
  unfold State.poisonPacket
  try dsimp only
  repeat' first
    | (with_reducible assumption) | (with_reducible apply ok3_same) | simp only [ok_mk]
    | with_reducible apply putMsg_ok | with_reducible apply setDesc_ok | with_reducible apply getD_ok
    | (intro _ _ _) | (intro _ _) | (intro _) | split

theorem failPacket_ok (s : State) (k : Nat) (hs : s.memoryOk = true) :
    (State.failPacket s k).memoryOk = true := by
  unfold State.failPacket
  try dsimp only
  repeat' first
    | (with_reducible assumption) | (with_reducible apply ok3_same) | simp only [ok_mk]
    | with_reducible apply poisonPacket_ok | (intro _ _ _) | (intro _ _) | (intro _) | split

theorem softError_ok (s : State) (x0 : ErrPlace) (hs : s.memoryOk = true) :
    (State.softError s x0).memoryOk = true := by
  unfold State.softError
  try dsimp only
  repeat' first
    | (with_reducible assumption) | (with_reducible apply ok3_same) | simp only [ok_mk]
    | with_reducible apply abortList_ok | with_reducible apply deferCheck_ok
    | with_reducible apply failPacket_ok | with_reducible apply l1Evict_ok
    | with_reducible apply poisonBlock_ok | with_reducible apply poisonLine_ok
    | with_reducible apply poisonReg_ok | with_reducible apply setDesc_ok | with_reducible apply tell_ok
    | with_reducible apply updCluster_ok | with_reducible apply updLark_ok | with_reducible apply updSlot_ok
    | (intro _ _ _) | (intro _ _) | (intro _) | split

theorem scrubBlock_ok (s : State) (stack : Nat) (n : Nat) (uncorrected : Bool) (hs : s.memoryOk = true) :
    (State.scrubBlock s stack n uncorrected).memoryOk = true := by
  unfold State.scrubBlock
  try dsimp only
  repeat' first
    | (with_reducible assumption) | (with_reducible apply ok3_same) | simp only [ok_mk]
    | with_reducible apply countError_ok | with_reducible apply poisonBlock_ok | (intro _ _ _) | (intro _ _)
    | (intro _) | split

theorem quiesceFrame_ok (s : State) (frame : Nat) (n : Nat) (hs : s.memoryOk = true) :
    (State.quiesceFrame s frame n).memoryOk = true := by
  unfold State.quiesceFrame
  try dsimp only
  repeat' first
    | (with_reducible assumption) | (with_reducible apply ok3_same) | simp only [ok_mk]
    | with_reducible apply recallWord_ok | with_reducible apply unpin_ok | with_reducible apply settle_ok
    | (with_reducible apply foldl_ok) | refine foldl_pair_eq_ok (by assumption) ?_ ?_
    | (with_reducible apply foldl_pair_ok) | dsimp only | with_reducible refine ok3_of ?_ ?_ ?_
    | with_reducible apply ok_mem | with_reducible apply ok_scr | with_reducible apply ok_host
    | with_reducible apply write_wf | with_reducible apply foldl_write_wf | with_reducible apply filter_wf
    | (intro _ _ _) | (intro _ _) | (intro _) | split

theorem copyFrame_ok (s : State) (src : Nat) (dst : Nat) (n : Nat) (hs : s.memoryOk = true) :
    (State.copyFrame s src dst n).memoryOk = true := by
  unfold State.copyFrame
  try dsimp only
  repeat' first
    | (with_reducible assumption) | (with_reducible apply ok3_same) | simp only [ok_mk]
    | with_reducible refine ok3_of ?_ ?_ ?_ | with_reducible apply ok_mem | with_reducible apply ok_scr
    | with_reducible apply ok_host | with_reducible apply write_wf | with_reducible apply foldl_write_wf
    | with_reducible apply filter_wf | with_reducible apply moveRange_wf | (intro _ _ _) | (intro _ _)
    | (intro _) | split

theorem dropPage_ok (s : State) (launch : Nat) (base : Nat) (hs : s.memoryOk = true) :
    (State.dropPage s launch base).memoryOk = true := by
  unfold State.dropPage
  try dsimp only
  repeat' first
    | (with_reducible assumption) | (with_reducible apply ok3_same) | simp only [ok_mk] | (intro _ _ _)
    | (intro _ _) | (intro _) | split

theorem setEntry_ok (s : State) (a : Nat) (e : Nat) (hs : s.memoryOk = true) :
    (State.setEntry s a e).memoryOk = true := by
  unfold State.setEntry
  try dsimp only
  repeat' first
    | (with_reducible assumption) | (with_reducible apply ok3_same) | simp only [ok_mk]
    | with_reducible apply writeHome_ok | (intro _ _ _) | (intro _ _) | (intro _) | split

theorem unmapPage_ok (s : State) (launch : Nat) (va : Word) (hs : s.memoryOk = true) :
    (State.unmapPage s launch va).memoryOk = true := by
  unfold State.unmapPage
  try dsimp only
  repeat' first
    | (with_reducible assumption) | (with_reducible apply ok3_same) | simp only [ok_mk]
    | with_reducible apply dropPage_ok | with_reducible apply quiesceFrame_ok
    | with_reducible apply setEntry_ok | (intro _ _ _) | (intro _ _) | (intro _) | split

theorem moveCells_ok (s : State) (src : Nat) (dst : Nat) (n : Nat) (hs : s.memoryOk = true) :
    (State.moveCells s src dst n).memoryOk = true := by
  unfold State.moveCells
  try dsimp only
  repeat' first
    | (with_reducible assumption) | (with_reducible apply ok3_same) | simp only [ok_mk] | (intro _ _ _)
    | (intro _ _) | (intro _) | split

theorem migratePage_ok (s : State) (launch : Nat) (va : Word) (frame : Nat) (hs : s.memoryOk = true) :
    (State.migratePage s launch va frame).memoryOk = true := by
  unfold State.migratePage
  try dsimp only
  repeat' first
    | (with_reducible assumption) | (with_reducible apply ok3_same) | simp only [ok_mk]
    | with_reducible apply copyFrame_ok | with_reducible apply dropPage_ok | with_reducible apply moveCells_ok
    | with_reducible apply quiesceFrame_ok | with_reducible apply setEntry_ok | (intro _ _ _) | (intro _ _)
    | (intro _) | split

theorem copyOnWrite_ok (s : State) (launch : Nat) (va : Word) (a : Nat) (e : Nat) (b : Nat) (hs : s.memoryOk = true) :
    (State.copyOnWrite s launch va a e b).memoryOk = true := by
  unfold State.copyOnWrite
  try dsimp only
  repeat' first
    | (with_reducible assumption) | (with_reducible apply ok3_same) | simp only [ok_mk]
    | with_reducible apply copyFrame_ok | with_reducible apply dropPage_ok
    | with_reducible apply quiesceFrame_ok | with_reducible apply setEntry_ok | (intro _ _ _) | (intro _ _)
    | (intro _) | split

theorem faultByFirmware_ok (s : State) (r : RecId) (sid : Nat) (cause : Nat) (va : Word) (pc : Word) (hs
    : s.memoryOk = true) :
    (State.faultByFirmware s r sid cause va pc).memoryOk = true := by
  unfold State.faultByFirmware
  try dsimp only
  repeat' first
    | (with_reducible assumption) | (with_reducible apply ok3_same) | simp only [ok_mk]
    | with_reducible apply entryState_ok | with_reducible apply faultRecord_ok
    | with_reducible apply releaseSlot_ok | with_reducible apply updCluster_ok
    | with_reducible apply writeState_ok | with_reducible apply updLaunch_ok | with_reducible apply tell_ok
    | refine writeCont_ok (by assumption) ?_ | refine writeCont_ok (Prod.eta _).symm ?_
    | with_reducible apply getD_ok | (intro _ _ _) | (intro _ _) | (intro _) | split

theorem freeSlot_ok (s : State) (sid : Nat) (hs : s.memoryOk = true) :
    (State.freeSlot s sid).memoryOk = true := by
  unfold State.freeSlot
  try dsimp only
  repeat' first
    | (with_reducible assumption) | (with_reducible apply ok3_same) | simp only [ok_mk]
    | with_reducible apply updSlot_ok | (intro _ _ _) | (intro _ _) | (intro _) | split

theorem freeCopy_ok (s : State) (k : Nat) (c : Copy) (va : Word) (hs : s.memoryOk = true) :
    (State.freeCopy s k c va).memoryOk = true := by
  unfold State.freeCopy
  try dsimp only
  repeat' first
    | (with_reducible assumption) | (with_reducible apply ok3_same) | simp only [ok_mk]
    | with_reducible apply freeSlot_ok | with_reducible apply wake_ok | with_reducible apply updSlot_ok
    | (intro _ _ _) | (intro _ _) | (intro _) | split

theorem dropVa_ok (s : State) (launch : Nat) (va : Word) (hs : s.memoryOk = true) :
    (State.dropVa s launch va).memoryOk = true := by
  unfold State.dropVa
  try dsimp only
  repeat' first
    | (with_reducible assumption) | (with_reducible apply ok3_same) | simp only [ok_mk]
    | with_reducible apply dropPage_ok | (intro _ _ _) | (intro _ _) | (intro _) | split

theorem resolveCopy_ok (s : State) (k : Nat) (hs : s.memoryOk = true) :
    (State.resolveCopy s k).memoryOk = true := by
  unfold State.resolveCopy
  try dsimp only
  repeat' first
    | (with_reducible assumption) | (with_reducible apply ok3_same) | simp only [ok_mk]
    | with_reducible apply copyOnWrite_ok | with_reducible apply dropVa_ok
    | with_reducible apply faultByFirmware_ok | with_reducible apply freeCopy_ok
    | refine nextPiece_ok (by assumption) ?_ | (intro _ _ _) | (intro _ _) | (intro _) | split

theorem resolveStream_ok (s : State) (k : Nat) (hs : s.memoryOk = true) :
    (State.resolveStream s k).memoryOk = true := by
  unfold State.resolveStream
  try dsimp only
  repeat' first
    | (with_reducible assumption) | (with_reducible apply ok3_same) | simp only [ok_mk]
    | with_reducible apply copyOnWrite_ok | with_reducible apply dropVa_ok
    | with_reducible apply faultByFirmware_ok | with_reducible apply freeSlot_ok | (intro _ _ _) | (intro _ _)
    | (intro _) | split

theorem resolveSaved_ok (s : State) (launch : Nat) (n : Nat) (hs : s.memoryOk = true) :
    (State.resolveSaved s launch n).memoryOk = true := by
  unfold State.resolveSaved
  try dsimp only
  repeat' first
    | (with_reducible assumption) | (with_reducible apply ok3_same) | simp only [ok_mk]
    | with_reducible apply updLaunch_ok | with_reducible apply wake_ok | (intro _ _ _) | (intro _ _)
    | (intro _) | split

theorem execSoftErrorDetected_ok {place : ErrPlace} {corrected : Bool} {s : State} {nx : State} (e
    : execSoftErrorDetected place corrected s = .next nx) (hs : s.memoryOk = true) :
    nx.memoryOk = true := by
  unfold execSoftErrorDetected at e
  try dsimp only at e
  repeat' first
    | (with_reducible assumption) | (with_reducible injection e with e; subst e)
    | (with_reducible injection e; done) | (with_reducible apply ok3_same) | simp only [ok_mk]
    | with_reducible apply countError_ok | with_reducible apply softError_ok | (intro _ _ _) | (intro _ _)
    | (intro _) | split at e | split

theorem execPatrolScrub_ok {stack : Nat} {corrected : List Nat} {uncorrected : List Nat} {s : State} {nx : State}
    (e : execPatrolScrub stack corrected uncorrected s = .next nx) (hs : s.memoryOk = true) :
    nx.memoryOk = true := by
  unfold execPatrolScrub at e
  try dsimp only at e
  repeat' first
    | (with_reducible assumption) | (with_reducible injection e with e; subst e)
    | (with_reducible injection e; done) | (with_reducible apply ok3_same) | simp only [ok_mk]
    | with_reducible apply scrubBlock_ok | (with_reducible apply foldl_ok)
    | refine foldl_pair_eq_ok (by assumption) ?_ ?_ | (with_reducible apply foldl_pair_ok) | dsimp only
    | (intro _ _ _) | (intro _ _) | (intro _) | split at e | split

theorem execPageUnmap_ok {launch : Nat} {va : Word} {s : State} {nx : State} (e
    : execPageUnmap launch va s = .next nx) (hs : s.memoryOk = true) :
    nx.memoryOk = true := by
  unfold execPageUnmap at e
  try dsimp only at e
  repeat' first
    | (with_reducible assumption) | (with_reducible injection e with e; subst e)
    | (with_reducible injection e; done) | (with_reducible apply ok3_same) | simp only [ok_mk]
    | with_reducible apply unmapPage_ok | (intro _ _ _) | (intro _ _) | (intro _) | split at e | split

theorem execPageMigrate_ok {launch : Nat} {va : Word} {frame : Nat} {s : State} {nx : State} (e
    : execPageMigrate launch va frame s = .next nx) (hs : s.memoryOk = true) :
    nx.memoryOk = true := by
  unfold execPageMigrate at e
  try dsimp only at e
  repeat' first
    | (with_reducible assumption) | (with_reducible injection e with e; subst e)
    | (with_reducible injection e; done) | (with_reducible apply ok3_same) | simp only [ok_mk]
    | with_reducible apply migratePage_ok | (intro _ _ _) | (intro _ _) | (intro _) | split at e | split

theorem execEngineFaultResolved_ok {k : Nat} {s : State} {nx : State} (e : execEngineFaultResolved k s = .next nx)
    (hs : s.memoryOk = true) :
    nx.memoryOk = true := by
  unfold execEngineFaultResolved at e
  try dsimp only at e
  repeat' first
    | (with_reducible assumption) | (with_reducible injection e with e; subst e)
    | (with_reducible injection e; done) | (with_reducible apply ok3_same) | simp only [ok_mk]
    | with_reducible apply resolveCopy_ok | with_reducible apply resolveSaved_ok
    | with_reducible apply resolveStream_ok | (intro _ _ _) | (intro _ _) | (intro _) | split at e | split

theorem discard_ok (s : State) (hs : s.memoryOk = true) :
    (State.discard s).memoryOk = true := by
  unfold State.discard
  try dsimp only
  repeat' first
    | (with_reducible assumption) | (with_reducible apply ok3_same) | simp only [ok_mk] | (intro _ _ _)
    | (intro _ _) | (intro _) | split

theorem updQueue_ok (s : State) (q : Nat) (f : Queue → Queue) (hs : s.memoryOk = true) :
    (State.updQueue s q f).memoryOk = true := by
  unfold State.updQueue
  try dsimp only
  repeat' first
    | (with_reducible assumption) | (with_reducible apply ok3_same) | simp only [ok_mk] | (intro _ _ _)
    | (intro _ _) | (intro _) | split

theorem doorbell_ok (s : State) (q : Nat) (p : BitVec 32) (hs : s.memoryOk = true) :
    (State.doorbell s q p).memoryOk = true := by
  unfold State.doorbell
  try dsimp only
  repeat' first
    | (with_reducible assumption) | (with_reducible apply ok3_same) | simp only [ok_mk]
    | with_reducible apply discard_ok | with_reducible apply updQueue_ok | (intro _ _ _) | (intro _ _)
    | (intro _) | split

theorem hostWrite_ok (s : State) (a : Nat) (x0 : List Byte) (hs : s.memoryOk = true) :
    (State.hostWrite s a x0).memoryOk = true := by
  induction x0 generalizing s a with
  | nil => first | exact hs | (unfold State.hostWrite; exact hs)
  | cons b l ih =>
    unfold State.hostWrite
    try dsimp only
    repeat' first
      | (with_reducible assumption) | (with_reducible apply ok3_same) | simp only [ok_mk]
      | with_reducible apply ih | with_reducible refine ok3_of ?_ ?_ ?_ | with_reducible apply ok_mem
      | with_reducible apply ok_scr | with_reducible apply ok_host | with_reducible apply write_wf
      | with_reducible apply foldl_write_wf | with_reducible apply filter_wf | (intro _ _ _) | (intro _ _)
      | (intro _) | split

theorem completion_ok (s : State) (o : Origin) (a : Nat) (id : Nat) (status : Nat) (placed : Nat) (extra : Nat)
    (hs : s.memoryOk = true) :
    (State.completion s o a id status placed extra).memoryOk = true := by
  unfold State.completion
  try dsimp only
  repeat' first
    | (with_reducible assumption) | (with_reducible apply ok3_same) | simp only [ok_mk]
    | with_reducible apply hostWrite_ok | with_reducible apply writeHome_ok | (intro _ _ _) | (intro _ _)
    | (intro _) | split

theorem takeCommand_ok (s : State) (q : Nat) (want : List Byte → Bool) (f : State → List Byte → State) (hs
    : s.memoryOk = true) (hf : ∀ (t : State) b, t.memoryOk = true → (f t b).memoryOk = true) :
    (State.takeCommand s q want f).memoryOk = true := by
  unfold State.takeCommand
  try dsimp only
  repeat' first
    | (with_reducible assumption) | (with_reducible apply ok3_same) | simp only [ok_mk] | apply hf
    | with_reducible apply updQueue_ok | (intro _ _ _) | (intro _ _) | (intro _) | split

theorem reject_ok (s : State) (o : Origin) (b : List Byte) (hs : s.memoryOk = true) :
    (State.reject s o b).memoryOk = true := by
  unfold State.reject
  try dsimp only
  repeat' first
    | (with_reducible assumption) | (with_reducible apply ok3_same) | simp only [ok_mk]
    | with_reducible apply completion_ok | (intro _ _ _) | (intro _ _) | (intro _) | split

theorem queueLaunch_ok (s : State) (o : Origin) (b : List Byte) (hs : s.memoryOk = true) :
    (State.queueLaunch s o b).memoryOk = true := by
  unfold State.queueLaunch
  try dsimp only
  repeat' first
    | (with_reducible assumption) | (with_reducible apply ok3_same) | simp only [ok_mk]
    | with_reducible apply reject_ok | (intro _ _ _) | (intro _ _) | (intro _) | split

theorem beginWalks_ok (s : State) (l : Launch) (cl : List Nat) (hs : s.memoryOk = true) :
    (State.beginWalks s l cl).memoryOk = true := by
  unfold State.beginWalks
  try dsimp only
  repeat' first
    | (with_reducible assumption) | (with_reducible apply ok3_same) | simp only [ok_mk]
    | with_reducible apply failedWalk_ok | (with_reducible apply foldl_ok)
    | refine foldl_pair_eq_ok (by assumption) ?_ ?_ | (with_reducible apply foldl_pair_ok) | dsimp only
    | (intro _ _ _) | (intro _ _) | (intro _) | split

theorem grantLaunch_ok (s : State) (l : Launch) (cl : List Nat) (doms : List Nat) (pa : Nat) (hs
    : s.memoryOk = true) :
    (State.grantLaunch s l cl doms pa).memoryOk = true := by
  unfold State.grantLaunch
  try dsimp only
  repeat' first
    | (with_reducible assumption) | (with_reducible apply ok3_same) | simp only [ok_mk]
    | with_reducible apply updLaunch_ok | with_reducible apply setCell_ok | with_reducible apply updCluster_ok
    | with_reducible apply updDomain_ok | (with_reducible apply foldl_ok)
    | refine foldl_pair_eq_ok (by assumption) ?_ ?_ | (with_reducible apply foldl_pair_ok) | dsimp only
    | (intro _ _ _) | (intro _ _) | (intro _) | split

theorem beginLaunch_ok (s : State) (id : Nat) (first : Nat) (dom : Option Nat) (hs : s.memoryOk = true) :
    (State.beginLaunch s id first dom).memoryOk = true := by
  unfold State.beginLaunch
  try dsimp only
  repeat' first
    | (with_reducible assumption) | (with_reducible apply ok3_same) | simp only [ok_mk]
    | with_reducible apply beginWalks_ok | with_reducible apply completion_ok
    | with_reducible apply grantLaunch_ok | with_reducible apply updLaunch_ok | (intro _ _ _) | (intro _ _)
    | (intro _) | split

theorem startMember_ok (l : Launch) (g : Gang) (p : Nat) (team : Nat) (s : State) (m : Nat × Nat) (hs
    : s.memoryOk = true) :
    (State.startMember l g p team s m).memoryOk = true := by
  unfold State.startMember
  try dsimp only
  repeat' first
    | (with_reducible assumption) | (with_reducible apply ok3_same) | simp only [ok_mk]
    | with_reducible apply assign_ok | with_reducible apply lostRecord_ok | with_reducible apply updCluster_ok
    | with_reducible apply startTask_ok | refine writeRecord_ok (by assumption) ?_ | (intro _ _ _)
    | (intro _ _) | (intro _) | split

theorem placeGang_ok (s : State) (id : Nat) (l : Launch) (g : Gang) (p : Nat) (cores : List Nat) (hs
    : s.memoryOk = true) :
    (State.placeGang s id l g p cores).memoryOk = true := by
  unfold State.placeGang
  try dsimp only
  repeat' first
    | (with_reducible assumption) | (with_reducible apply ok3_same) | simp only [ok_mk]
    | with_reducible apply updCluster_ok | with_reducible apply updLaunch_ok
    | with_reducible apply startMember_ok | (with_reducible apply foldl_ok)
    | refine foldl_pair_eq_ok (by assumption) ?_ ?_ | (with_reducible apply foldl_pair_ok) | dsimp only
    | (intro _ _ _) | (intro _ _) | (intro _) | split

theorem placeOne_ok {s : State} {id : Nat} {nx : State} (e : State.placeOne s id = some nx) (hs : s.memoryOk = true) :
    nx.memoryOk = true := by
  unfold State.placeOne at e
  try dsimp only at e
  repeat' first
    | (with_reducible assumption) | (with_reducible injection e with e; subst e)
    | (with_reducible injection e; done) | (with_reducible apply ok3_same) | simp only [ok_mk]
    | with_reducible apply placeGang_ok | with_reducible apply updLaunch_ok | refine map_ok e ?_
    | (intro _ _ _) | (intro _ _) | (intro _) | split at e | split

theorem placeGangs_ok (id : Nat) (x0 : Nat) (x1 : State) (hx1 : x1.memoryOk = true) :
    (State.placeGangs id x0 x1).memoryOk = true := by
  induction x0 generalizing id x1 with
  | zero => first | exact hx1 | (unfold State.placeGangs; exact hx1)
  | succ n ih =>
    unfold State.placeGangs
    try dsimp only
    repeat' first
      | (with_reducible assumption) | (with_reducible apply ok3_same) | simp only [ok_mk]
      | with_reducible apply ih | refine placeOne_ok (by assumption) ?_ | (intro _ _ _) | (intro _ _)
      | (intro _) | split

theorem reserveGang_ok (s : State) (id : Nat) (hs : s.memoryOk = true) :
    (State.reserveGang s id).memoryOk = true := by
  unfold State.reserveGang
  try dsimp only
  repeat' first
    | (with_reducible assumption) | (with_reducible apply ok3_same) | simp only [ok_mk]
    | with_reducible apply updLaunch_ok | (with_reducible apply foldl_ok)
    | refine foldl_pair_eq_ok (by assumption) ?_ ?_ | (with_reducible apply foldl_pair_ok) | dsimp only
    | with_reducible apply getD_ok | (intro _ _ _) | (intro _ _) | (intro _) | split

theorem placeSeed_ok {s : State} {l : Launch} {p : Nat} {a : Word} {nx : State} (e
    : State.placeSeed s l p a = some nx) (hs : s.memoryOk = true) :
    nx.memoryOk = true := by
  unfold State.placeSeed at e
  try dsimp only at e
  repeat' first
    | (with_reducible assumption) | (with_reducible injection e with e; subst e)
    | (with_reducible injection e; done) | (with_reducible apply ok3_same) | simp only [ok_mk]
    | with_reducible apply enterReady_ok | with_reducible apply incCell_ok
    | with_reducible apply lostRecord_ok | with_reducible apply updLaunch_ok
    | refine accept_ok (by assumption) ?_ | refine writeRecord_ok (by assumption) ?_
    | refine ite_some_ok (by assumption) ?_ ?_ | refine map_ok e ?_ | (intro _ _ _) | (intro _ _) | (intro _)
    | split at e | split

theorem closeLaunch_ok (s : State) (id : Nat) (hs : s.memoryOk = true) :
    (State.closeLaunch s id).memoryOk = true := by
  unfold State.closeLaunch
  try dsimp only
  repeat' first
    | (with_reducible assumption) | (with_reducible apply ok3_same) | simp only [ok_mk]
    | with_reducible apply arriveCell_ok | with_reducible apply updLaunch_ok | (intro _ _ _) | (intro _ _)
    | (intro _) | split

theorem takeSeed_ok {s : State} {l : Launch} {x : Seed} {nx : State} (e : State.takeSeed s l x = some nx) (hs
    : s.memoryOk = true) :
    nx.memoryOk = true := by
  unfold State.takeSeed at e
  try dsimp only at e
  repeat' first
    | (with_reducible assumption) | (with_reducible injection e with e; subst e)
    | (with_reducible injection e; done) | (with_reducible apply ok3_same) | simp only [ok_mk]
    | with_reducible apply incCell_ok | with_reducible apply placeGangs_ok | with_reducible apply updLaunch_ok
    | refine placeSeed_ok (by assumption) ?_ | (with_reducible apply foldl_ok)
    | refine foldl_pair_eq_ok (by assumption) ?_ ?_ | (with_reducible apply foldl_pair_ok) | dsimp only
    | with_reducible refine ok3_of ?_ ?_ ?_ | with_reducible apply ok_mem | with_reducible apply ok_scr
    | with_reducible apply ok_host | with_reducible apply write_wf | with_reducible apply foldl_write_wf
    | with_reducible apply filter_wf | (intro _ _ _) | (intro _ _) | (intro _) | split at e | split

theorem seedStep_ok (s : State) (id : Nat) (hs : s.memoryOk = true) :
    (State.seedStep s id).memoryOk = true := by
  unfold State.seedStep
  try dsimp only
  repeat' first
    | (with_reducible assumption) | (with_reducible apply ok3_same) | simp only [ok_mk]
    | with_reducible apply closeLaunch_ok | with_reducible apply failedWalk_ok
    | with_reducible apply updLaunch_ok | refine takeSeed_ok (by assumption) ?_ | (intro _ _ _) | (intro _ _)
    | (intro _) | split

theorem releaseFlush_ok (s : State) (l : Launch) (hs : s.memoryOk = true) :
    (State.releaseFlush s l).memoryOk = true := by
  unfold State.releaseFlush
  try dsimp only
  repeat' first
    | (with_reducible assumption) | (with_reducible apply ok3_same) | simp only [ok_mk]
    | with_reducible apply flushUpdate_ok | with_reducible apply recallWord_ok
    | (with_reducible apply foldl_ok) | refine foldl_pair_eq_ok (by assumption) ?_ ?_
    | (with_reducible apply foldl_pair_ok) | dsimp only | with_reducible refine ok3_of ?_ ?_ ?_
    | with_reducible apply ok_mem | with_reducible apply ok_scr | with_reducible apply ok_host
    | with_reducible apply write_wf | with_reducible apply foldl_write_wf | with_reducible apply filter_wf
    | (intro _ _ _) | (intro _ _) | (intro _) | split

theorem drainIdle_ok (s : State) (id : Nat) (hs : s.memoryOk = true) :
    (State.drainIdle s id).memoryOk = true := by
  unfold State.drainIdle
  try dsimp only
  repeat' first
    | (with_reducible assumption) | (with_reducible apply ok3_same) | simp only [ok_mk]
    | with_reducible apply retireQueues_ok | (with_reducible apply foldl_ok)
    | refine foldl_pair_eq_ok (by assumption) ?_ ?_ | (with_reducible apply foldl_pair_ok) | dsimp only
    | (intro _ _ _) | (intro _ _) | (intro _) | split

theorem stopLaunch_ok (s : State) (id : Nat) (hs : s.memoryOk = true) :
    (State.stopLaunch s id).memoryOk = true := by
  unfold State.stopLaunch
  try dsimp only
  repeat' first
    | (with_reducible assumption) | (with_reducible apply ok3_same) | simp only [ok_mk]
    | with_reducible apply drainIdle_ok | with_reducible apply releaseSlot_ok
    | (with_reducible apply foldl_ok) | refine foldl_pair_eq_ok (by assumption) ?_ ?_
    | (with_reducible apply foldl_pair_ok) | dsimp only | (intro _ _ _) | (intro _ _) | (intro _) | split

theorem freeGrant_ok (s : State) (l : Launch) (hs : s.memoryOk = true) :
    (State.freeGrant s l).memoryOk = true := by
  unfold State.freeGrant
  try dsimp only
  repeat' first
    | (with_reducible assumption) | (with_reducible apply ok3_same) | simp only [ok_mk]
    | with_reducible apply updCluster_ok | (with_reducible apply foldl_ok)
    | refine foldl_pair_eq_ok (by assumption) ?_ ?_ | (with_reducible apply foldl_pair_ok) | dsimp only
    | (intro _ _ _) | (intro _ _) | (intro _) | split

theorem dropLaunchPages_ok (s : State) (id : Nat) (hs : s.memoryOk = true) :
    (State.dropLaunchPages s id).memoryOk = true := by
  unfold State.dropLaunchPages
  try dsimp only
  repeat' first
    | (with_reducible assumption) | (with_reducible apply ok3_same) | simp only [ok_mk] | (intro _ _ _)
    | (intro _ _) | (intro _) | split

theorem settleQueue_ok (s : State) (q : Nat) (hs : s.memoryOk = true) :
    (State.settleQueue s q).memoryOk = true := by
  unfold State.settleQueue
  try dsimp only
  repeat' first
    | (with_reducible assumption) | (with_reducible apply ok3_same) | simp only [ok_mk]
    | with_reducible apply updQueue_ok | (intro _ _ _) | (intro _ _) | (intro _) | split

theorem settleOrigin_ok (s : State) (x0 : Origin) (hs : s.memoryOk = true) :
    (State.settleOrigin s x0).memoryOk = true := by
  unfold State.settleOrigin
  try dsimp only
  repeat' first
    | (with_reducible assumption) | (with_reducible apply ok3_same) | simp only [ok_mk]
    | with_reducible apply settleQueue_ok | (intro _ _ _) | (intro _ _) | (intro _) | split

theorem waitingFlushes_ok (s : State) (l : Launch) (hs : s.memoryOk = true) :
    (State.waitingFlushes s l).memoryOk = true := by
  unfold State.waitingFlushes
  try dsimp only
  repeat' first
    | (with_reducible assumption) | (with_reducible apply ok3_same) | simp only [ok_mk]
    | with_reducible apply completion_ok | with_reducible apply releaseFlush_ok
    | (with_reducible apply foldl_ok) | refine foldl_pair_eq_ok (by assumption) ?_ ?_
    | (with_reducible apply foldl_pair_ok) | dsimp only | (intro _ _ _) | (intro _ _) | (intro _) | split

theorem finishLaunch_ok (s : State) (id : Nat) (status : Nat) (hs : s.memoryOk = true) :
    (State.finishLaunch s id status).memoryOk = true := by
  unfold State.finishLaunch
  try dsimp only
  repeat' first
    | (with_reducible assumption) | (with_reducible apply ok3_same) | simp only [ok_mk]
    | with_reducible apply completion_ok | with_reducible apply dropLaunchPages_ok
    | with_reducible apply freeGrant_ok | with_reducible apply releaseFlush_ok
    | with_reducible apply stopLaunch_ok | with_reducible apply unpin_ok | with_reducible apply updLaunch_ok
    | with_reducible apply waitingFlushes_ok | with_reducible apply settleOrigin_ok | (intro _ _ _)
    | (intro _ _) | (intro _) | split

theorem endIfZero_ok (s : State) (id : Nat) (hs : s.memoryOk = true) :
    (State.endIfZero s id).memoryOk = true := by
  unfold State.endIfZero
  try dsimp only
  repeat' first
    | (with_reducible assumption) | (with_reducible apply ok3_same) | simp only [ok_mk]
    | with_reducible apply finishLaunch_ok | (intro _ _ _) | (intro _ _) | (intro _) | split

theorem endByCommand_ok (s : State) (o : Origin) (b : List Byte) (hs : s.memoryOk = true) :
    (State.endByCommand s o b).memoryOk = true := by
  unfold State.endByCommand
  try dsimp only
  repeat' first
    | (with_reducible assumption) | (with_reducible apply ok3_same) | simp only [ok_mk]
    | with_reducible apply completion_ok | with_reducible apply finishLaunch_ok
    | with_reducible apply reject_ok | with_reducible apply releaseFlush_ok | (intro _ _ _) | (intro _ _)
    | (intro _) | split

theorem flushByCommand_ok (s : State) (q : Nat) (b : List Byte) (hs : s.memoryOk = true) :
    (State.flushByCommand s q b).memoryOk = true := by
  unfold State.flushByCommand
  try dsimp only
  repeat' first
    | (with_reducible assumption) | (with_reducible apply ok3_same) | simp only [ok_mk]
    | with_reducible apply completion_ok | with_reducible apply reject_ok
    | with_reducible apply releaseFlush_ok | with_reducible apply updLaunch_ok | (intro _ _ _) | (intro _ _)
    | (intro _) | split

theorem destroyQueue_ok (s : State) (q : Nat) (hs : s.memoryOk = true) :
    (State.destroyQueue s q).memoryOk = true := by
  unfold State.destroyQueue
  try dsimp only
  repeat' first
    | (with_reducible assumption) | (with_reducible apply ok3_same) | simp only [ok_mk]
    | with_reducible apply closeLaunch_ok | with_reducible apply completion_ok
    | with_reducible apply discard_ok | with_reducible apply updQueue_ok | with_reducible apply settleQueue_ok
    | with_reducible apply updLaunch_ok | (with_reducible apply foldl_ok)
    | refine foldl_pair_eq_ok (by assumption) ?_ ?_ | (with_reducible apply foldl_pair_ok) | dsimp only
    | (intro _ _ _) | (intro _ _) | (intro _) | split

theorem execQueueDoorbell_ok {q : Nat} {producer : BitVec 32} {s : State} {nx : State} (e
    : execQueueDoorbell q producer s = .next nx) (hs : s.memoryOk = true) :
    nx.memoryOk = true := by
  unfold execQueueDoorbell at e
  try dsimp only at e
  repeat' first
    | (with_reducible assumption) | (with_reducible injection e with e; subst e)
    | (with_reducible injection e; done) | (with_reducible apply ok3_same) | simp only [ok_mk]
    | with_reducible apply doorbell_ok | (intro _ _ _) | (intro _ _) | (intro _) | split at e | split

theorem execQueueStart_ok {q : Nat} {s : State} {nx : State} (e : execQueueStart q s = .next nx) (hs
    : s.memoryOk = true) :
    nx.memoryOk = true := by
  unfold execQueueStart at e
  try dsimp only at e
  repeat' first
    | (with_reducible assumption) | (with_reducible injection e with e; subst e)
    | (with_reducible injection e; done) | (with_reducible apply ok3_same) | simp only [ok_mk]
    | with_reducible apply discard_ok | with_reducible apply updQueue_ok | (intro _ _ _) | (intro _ _)
    | (intro _) | split at e | split

theorem execQueueDestroy_ok {q : Nat} {s : State} {nx : State} (e : execQueueDestroy q s = .next nx) (hs
    : s.memoryOk = true) :
    nx.memoryOk = true := by
  unfold execQueueDestroy at e
  try dsimp only at e
  repeat' first
    | (with_reducible assumption) | (with_reducible injection e with e; subst e)
    | (with_reducible injection e; done) | (with_reducible apply ok3_same) | simp only [ok_mk]
    | with_reducible apply destroyQueue_ok | (intro _ _ _) | (intro _ _) | (intro _) | split at e | split

theorem execQueueReset_ok {q : Nat} {s : State} {nx : State} (e : execQueueReset q s = .next nx) (hs
    : s.memoryOk = true) :
    nx.memoryOk = true := by
  unfold execQueueReset at e
  try dsimp only at e
  repeat' first
    | (with_reducible assumption) | (with_reducible injection e with e; subst e)
    | (with_reducible injection e; done) | (with_reducible apply ok3_same) | simp only [ok_mk]
    | with_reducible apply discard_ok | with_reducible apply updQueue_ok | (intro _ _ _) | (intro _ _)
    | (intro _) | split at e | split

theorem execLaunch_ok {q : Nat} {s : State} {nx : State} (e : execLaunch q s = .next nx) (hs : s.memoryOk = true) :
    nx.memoryOk = true := by
  unfold execLaunch at e
  try dsimp only at e
  repeat' first
    | (with_reducible assumption) | (with_reducible injection e with e; subst e)
    | (with_reducible injection e; done) | (with_reducible apply ok3_same) | simp only [ok_mk]
    | with_reducible apply queueLaunch_ok | with_reducible apply takeCommand_ok | (intro _ _ _) | (intro _ _)
    | (intro _) | split at e | split

theorem execSeedDispatch_ok {id : Nat} {s : State} {nx : State} (e : execSeedDispatch id s = .next nx) (hs
    : s.memoryOk = true) :
    nx.memoryOk = true := by
  unfold execSeedDispatch at e
  try dsimp only at e
  repeat' first
    | (with_reducible assumption) | (with_reducible injection e with e; subst e)
    | (with_reducible injection e; done) | (with_reducible apply ok3_same) | simp only [ok_mk]
    | with_reducible apply seedStep_ok | (intro _ _ _) | (intro _ _) | (intro _) | split at e | split

theorem execGangPlacement_ok {id : Nat} {s : State} {nx : State} (e : execGangPlacement id s = .next nx) (hs
    : s.memoryOk = true) :
    nx.memoryOk = true := by
  unfold execGangPlacement at e
  try dsimp only at e
  repeat' first
    | (with_reducible assumption) | (with_reducible injection e with e; subst e)
    | (with_reducible injection e; done) | (with_reducible apply ok3_same) | simp only [ok_mk]
    | refine placeOne_ok (by assumption) ?_ | with_reducible apply getD_ok | (intro _ _ _) | (intro _ _)
    | (intro _) | split at e | split

theorem execGangReservation_ok {id : Nat} {s : State} {nx : State} (e : execGangReservation id s = .next nx) (hs
    : s.memoryOk = true) :
    nx.memoryOk = true := by
  unfold execGangReservation at e
  try dsimp only at e
  repeat' first
    | (with_reducible assumption) | (with_reducible injection e with e; subst e)
    | (with_reducible injection e; done) | (with_reducible apply ok3_same) | simp only [ok_mk]
    | with_reducible apply reserveGang_ok | (intro _ _ _) | (intro _ _) | (intro _) | split at e | split

theorem execLaunchEnd_ok {id : Nat} {s : State} {nx : State} (e : execLaunchEnd id s = .next nx) (hs
    : s.memoryOk = true) :
    nx.memoryOk = true := by
  unfold execLaunchEnd at e
  try dsimp only at e
  repeat' first
    | (with_reducible assumption) | (with_reducible injection e with e; subst e)
    | (with_reducible injection e; done) | (with_reducible apply ok3_same) | simp only [ok_mk]
    | with_reducible apply endIfZero_ok | (intro _ _ _) | (intro _ _) | (intro _) | split at e | split

theorem execEndLaunch_ok {q : Nat} {s : State} {nx : State} (e : execEndLaunch q s = .next nx) (hs
    : s.memoryOk = true) :
    nx.memoryOk = true := by
  unfold execEndLaunch at e
  try dsimp only at e
  repeat' first
    | (with_reducible assumption) | (with_reducible injection e with e; subst e)
    | (with_reducible injection e; done) | (with_reducible apply ok3_same) | simp only [ok_mk]
    | with_reducible apply endByCommand_ok | with_reducible apply takeCommand_ok | (intro _ _ _) | (intro _ _)
    | (intro _) | split at e | split

theorem execFlushLaunch_ok {q : Nat} {s : State} {nx : State} (e : execFlushLaunch q s = .next nx) (hs
    : s.memoryOk = true) :
    nx.memoryOk = true := by
  unfold execFlushLaunch at e
  try dsimp only at e
  repeat' first
    | (with_reducible assumption) | (with_reducible injection e with e; subst e)
    | (with_reducible injection e; done) | (with_reducible apply ok3_same) | simp only [ok_mk]
    | with_reducible apply flushByCommand_ok | with_reducible apply takeCommand_ok | (intro _ _ _)
    | (intro _ _) | (intro _) | split at e | split

theorem execUnknownOpcodeCommand_ok {q : Nat} {s : State} {nx : State} (e
    : execUnknownOpcodeCommand q s = .next nx) (hs : s.memoryOk = true) :
    nx.memoryOk = true := by
  unfold execUnknownOpcodeCommand at e
  try dsimp only at e
  repeat' first
    | (with_reducible assumption) | (with_reducible injection e with e; subst e)
    | (with_reducible injection e; done) | (with_reducible apply ok3_same) | simp only [ok_mk]
    | with_reducible apply reject_ok | with_reducible apply takeCommand_ok | (intro _ _ _) | (intro _ _)
    | (intro _) | split at e | split

theorem abortDone_ok (s : State) (l : Launch) (hs : s.memoryOk = true) :
    (State.abortDone s l).memoryOk = true := by
  unfold State.abortDone
  try dsimp only
  repeat' first
    | (with_reducible assumption) | (with_reducible apply ok3_same) | simp only [ok_mk]
    | with_reducible apply abortList_ok | (intro _ _ _) | (intro _ _) | (intro _) | split

theorem quiesceCopy_ok (id : Nat) (gi : Nat) (s : State) (k : Nat) (hs : s.memoryOk = true) :
    (State.quiesceCopy id gi s k).memoryOk = true := by
  unfold State.quiesceCopy
  try dsimp only
  repeat' first
    | (with_reducible assumption) | (with_reducible apply ok3_same) | simp only [ok_mk]
    | with_reducible apply runCopy_ok | with_reducible apply updLaunch_ok | (intro _ _ _) | (intro _ _)
    | (intro _) | split

theorem quiesceCore_ok (s : State) (core : Nat) (hs : s.memoryOk = true) :
    (State.quiesceCore s core).memoryOk = true := by
  unfold State.quiesceCore
  try dsimp only
  repeat' first
    | (with_reducible assumption) | (with_reducible apply ok3_same) | simp only [ok_mk]
    | with_reducible apply quiesceCopy_ok | (with_reducible apply foldl_ok)
    | refine foldl_pair_eq_ok (by assumption) ?_ ?_ | (with_reducible apply foldl_pair_ok) | dsimp only
    | with_reducible apply getD_ok | (intro _ _ _) | (intro _ _) | (intro _) | split

theorem writeSave_ok (s : State) (l : Launch) (at_ : Nat) (allocs : List SavedAlloc) (copies : List Copy) (hs
    : s.memoryOk = true) :
    (State.writeSave s l at_ allocs copies).memoryOk = true := by
  unfold State.writeSave
  try dsimp only
  repeat' first
    | (with_reducible assumption) | (with_reducible apply ok3_same) | simp only [ok_mk]
    | with_reducible apply writeHome_ok | (with_reducible apply foldl_ok)
    | refine foldl_pair_eq_ok (by assumption) ?_ ?_ | (with_reducible apply foldl_pair_ok) | dsimp only
    | (intro _ _ _) | (intro _ _) | (intro _) | split

theorem saveLaunch_ok (s0 : State) (id : Nat) (hs0 : s0.memoryOk = true) :
    (State.saveLaunch s0 id).memoryOk = true := by
  unfold State.saveLaunch
  try dsimp only
  repeat' first
    | (with_reducible assumption) | (with_reducible apply ok3_same) | simp only [ok_mk]
    | with_reducible apply completion_ok | with_reducible apply drainIdle_ok
    | with_reducible apply freeGrant_ok | with_reducible apply updLaunch_ok | with_reducible apply unpin_ok
    | with_reducible apply writeSave_ok | (intro _ _ _) | (intro _ _) | (intro _) | split

theorem preemptStep_ok (s : State) (id : Nat) (hs : s.memoryOk = true) :
    (State.preemptStep s id).memoryOk = true := by
  unfold State.preemptStep
  try dsimp only
  repeat' first
    | (with_reducible assumption) | (with_reducible apply ok3_same) | simp only [ok_mk]
    | with_reducible apply abortDone_ok | with_reducible apply saveLaunch_ok | (intro _ _ _) | (intro _ _)
    | (intro _) | split

theorem preemptLaunch_ok (s : State) (id : Nat) (done : Option (Nat × Nat × Origin)) (hs : s.memoryOk = true) :
    (State.preemptLaunch s id done).memoryOk = true := by
  unfold State.preemptLaunch
  try dsimp only
  repeat' first
    | (with_reducible assumption) | (with_reducible apply ok3_same) | simp only [ok_mk]
    | with_reducible apply abortDone_ok | with_reducible apply beginPreempt_ok
    | with_reducible apply preemptSlot_ok | with_reducible apply preemptStep_ok
    | (with_reducible apply foldl_ok) | refine foldl_pair_eq_ok (by assumption) ?_ ?_
    | (with_reducible apply foldl_pair_ok) | dsimp only | (intro _ _ _) | (intro _ _) | (intro _) | split

theorem preemptByCommand_ok (s : State) (q : Nat) (b : List Byte) (hs : s.memoryOk = true) :
    (State.preemptByCommand s q b).memoryOk = true := by
  unfold State.preemptByCommand
  try dsimp only
  repeat' first
    | (with_reducible assumption) | (with_reducible apply ok3_same) | simp only [ok_mk]
    | with_reducible apply preemptLaunch_ok | with_reducible apply reject_ok | (intro _ _ _) | (intro _ _)
    | (intro _) | split

theorem restoreAlloc_ok (s : State) (id : Nat) (old : List Nat) (new : List Nat) (a : SavedAlloc) (hs
    : s.memoryOk = true) :
    (State.restoreAlloc s id old new a).memoryOk = true := by
  unfold State.restoreAlloc
  try dsimp only
  repeat' first
    | (with_reducible assumption) | (with_reducible apply ok3_same) | simp only [ok_mk]
    | with_reducible apply assign_ok | (with_reducible apply foldl_ok)
    | refine foldl_pair_eq_ok (by assumption) ?_ ?_ | (with_reducible apply foldl_pair_ok) | dsimp only
    | with_reducible refine ok3_of ?_ ?_ ?_ | with_reducible apply ok_mem | with_reducible apply ok_scr
    | with_reducible apply ok_host | with_reducible apply write_wf | with_reducible apply foldl_write_wf
    | with_reducible apply filter_wf | (intro _ _ _) | (intro _ _) | (intro _) | split

theorem reissueCopy_ok (s : State) (id : Nat) (old : List Nat) (new : List Nat) (c : Copy) (hs : s.memoryOk = true) :
    (State.reissueCopy s id old new c).memoryOk = true := by
  unfold State.reissueCopy
  try dsimp only
  repeat' first
    | (with_reducible assumption) | (with_reducible apply ok3_same) | simp only [ok_mk] | (intro _ _ _)
    | (intro _ _) | (intro _) | split

theorem rebindReady_ok (s : State) (p : Nat) (hs : s.memoryOk = true) :
    (State.rebindReady s p).memoryOk = true := by
  unfold State.rebindReady
  try dsimp only
  repeat' first
    | (with_reducible assumption) | (with_reducible apply ok3_same) | simp only [ok_mk]
    | with_reducible apply updCluster_ok | (intro _ _ _) | (intro _ _) | (intro _) | split

theorem restoreWaiter_ok (s : State) (id : Nat) (old : List Nat) (new : List Nat) (resolved : List RecId) (w
    : Waiter) (hs : s.memoryOk = true) :
    (State.restoreWaiter s id old new resolved w).memoryOk = true := by
  unfold State.restoreWaiter
  try dsimp only
  repeat' first
    | (with_reducible assumption) | (with_reducible apply ok3_same) | simp only [ok_mk]
    | with_reducible apply makeReady_ok | with_reducible apply register_ok | (intro _ _ _) | (intro _ _)
    | (intro _) | split

theorem restoreTask_ok (s : State) (r : RecId) (p : Nat) (hs : s.memoryOk = true) :
    (State.restoreTask s r p).memoryOk = true := by
  unfold State.restoreTask
  try dsimp only
  repeat' first
    | (with_reducible assumption) | (with_reducible apply ok3_same) | simp only [ok_mk]
    | with_reducible apply makeReady_ok | (intro _ _ _) | (intro _ _) | (intro _) | split

theorem restoreStream_ok (s : State) (id : Nat) (old : List Nat) (new : List Nat) (k : Nat) (x : Stream) (hs
    : s.memoryOk = true) :
    (State.restoreStream s id old new k x).memoryOk = true := by
  unfold State.restoreStream
  try dsimp only
  repeat' first
    | (with_reducible assumption) | (with_reducible apply ok3_same) | simp only [ok_mk] | (intro _ _ _)
    | (intro _ _) | (intro _) | split

theorem restoreMail_ok (s : State) (old : List Nat) (new : List Nat) (p : Placement) (hs : s.memoryOk = true) :
    (State.restoreMail s old new p).memoryOk = true := by
  unfold State.restoreMail
  try dsimp only
  repeat' first
    | (with_reducible assumption) | (with_reducible apply ok3_same) | simp only [ok_mk]
    | with_reducible apply enqueue_ok | (intro _ _ _) | (intro _ _) | (intro _) | split

theorem tryResume_ok (s : State) (id : Nat) (first : Nat) (hs : s.memoryOk = true) :
    (State.tryResume s id first).memoryOk = true := by
  unfold State.tryResume
  try dsimp only
  repeat' first
    | (with_reducible assumption) | (with_reducible apply ok3_same) | simp only [ok_mk]
    | with_reducible apply completion_ok | with_reducible apply rebindReady_ok
    | with_reducible apply reissueCopy_ok | with_reducible apply restoreAlloc_ok
    | with_reducible apply restoreMail_ok | with_reducible apply restoreStream_ok
    | with_reducible apply restoreTask_ok | with_reducible apply restoreWaiter_ok
    | with_reducible apply updLaunch_ok | with_reducible apply updCluster_ok | (with_reducible apply foldl_ok)
    | refine foldl_pair_eq_ok (by assumption) ?_ ?_ | (with_reducible apply foldl_pair_ok) | dsimp only
    | with_reducible apply getD_ok | (intro _ _ _) | (intro _ _) | (intro _) | split

theorem resumeByCommand_ok (s : State) (q : Nat) (b : List Byte) (hs : s.memoryOk = true) :
    (State.resumeByCommand s q b).memoryOk = true := by
  unfold State.resumeByCommand
  try dsimp only
  repeat' first
    | (with_reducible assumption) | (with_reducible apply ok3_same) | simp only [ok_mk]
    | with_reducible apply reject_ok | with_reducible apply updLaunch_ok | with_reducible apply tryResume_ok
    | (intro _ _ _) | (intro _ _) | (intro _) | split

theorem updTt_ok (s : State) (e : Nat) (f : TtEntry → TtEntry) (hs : s.memoryOk = true) :
    (State.updTt s e f).memoryOk = true := by
  unfold State.updTt
  try dsimp only
  repeat' first
    | (with_reducible assumption) | (with_reducible apply ok3_same) | simp only [ok_mk] | (intro _ _ _)
    | (intro _ _) | (intro _) | split

theorem overrun_ok (s : State) (e : Nat) (hs : s.memoryOk = true) :
    (State.overrun s e).memoryOk = true := by
  unfold State.overrun
  try dsimp only
  repeat' first
    | (with_reducible assumption) | (with_reducible apply ok3_same) | simp only [ok_mk]
    | with_reducible apply updTt_ok | (intro _ _ _) | (intro _ _) | (intro _) | split

theorem issueTemplate_ok (s : State) (e : Nat) (k : Nat) (hs : s.memoryOk = true) :
    (State.issueTemplate s e k).memoryOk = true := by
  unfold State.issueTemplate
  try dsimp only
  repeat' first
    | (with_reducible assumption) | (with_reducible apply ok3_same) | simp only [ok_mk]
    | with_reducible apply discard_ok | with_reducible apply queueLaunch_ok | with_reducible apply updTt_ok
    | (intro _ _ _) | (intro _ _) | (intro _) | split

theorem waitFiring_ok (s : State) (e : Nat) (k : Nat) (hs : s.memoryOk = true) :
    (State.waitFiring s e k).memoryOk = true := by
  unfold State.waitFiring
  try dsimp only
  repeat' first
    | (with_reducible assumption) | (with_reducible apply ok3_same) | simp only [ok_mk]
    | with_reducible apply overrun_ok | with_reducible apply updTt_ok | (intro _ _ _) | (intro _ _)
    | (intro _) | split

theorem fire_ok (s : State) (e : Nat) (hs : s.memoryOk = true) :
    (State.fire s e).memoryOk = true := by
  unfold State.fire
  try dsimp only
  repeat' first
    | (with_reducible assumption) | (with_reducible apply ok3_same) | simp only [ok_mk]
    | with_reducible apply issueTemplate_ok | with_reducible apply overrun_ok
    | with_reducible apply preemptLaunch_ok | with_reducible apply updTt_ok
    | with_reducible apply waitFiring_ok | (intro _ _ _) | (intro _ _) | (intro _) | split

theorem enableEntry_ok (s : State) (e : Nat) (hs : s.memoryOk = true) :
    (State.enableEntry s e).memoryOk = true := by
  unfold State.enableEntry
  try dsimp only
  repeat' first
    | (with_reducible assumption) | (with_reducible apply ok3_same) | simp only [ok_mk]
    | with_reducible apply discard_ok | with_reducible apply updTt_ok | (intro _ _ _) | (intro _ _)
    | (intro _) | split

theorem beginQueued_ok (s : State) (e : Nat) (hs : s.memoryOk = true) :
    (State.beginQueued s e).memoryOk = true := by
  unfold State.beginQueued
  try dsimp only
  repeat' first
    | (with_reducible assumption) | (with_reducible apply ok3_same) | simp only [ok_mk]
    | with_reducible apply issueTemplate_ok | with_reducible apply preemptLaunch_ok
    | with_reducible apply updTt_ok | (intro _ _ _) | (intro _ _) | (intro _) | split

theorem execPreemptLaunch_ok {q : Nat} {s : State} {nx : State} (e : execPreemptLaunch q s = .next nx) (hs
    : s.memoryOk = true) :
    nx.memoryOk = true := by
  unfold execPreemptLaunch at e
  try dsimp only at e
  repeat' first
    | (with_reducible assumption) | (with_reducible injection e with e; subst e)
    | (with_reducible injection e; done) | (with_reducible apply ok3_same) | simp only [ok_mk]
    | with_reducible apply preemptByCommand_ok | with_reducible apply takeCommand_ok | (intro _ _ _)
    | (intro _ _) | (intro _) | split at e | split

theorem execSlotPreempt_ok {sid : Nat} {s : State} {nx : State} (e : execSlotPreempt sid s = .next nx) (hs
    : s.memoryOk = true) :
    nx.memoryOk = true := by
  unfold execSlotPreempt at e
  try dsimp only at e
  repeat' first
    | (with_reducible assumption) | (with_reducible injection e with e; subst e)
    | (with_reducible injection e; done) | (with_reducible apply ok3_same) | simp only [ok_mk]
    | with_reducible apply preemptSlot_ok | with_reducible apply preemptStep_ok | (intro _ _ _) | (intro _ _)
    | (intro _) | split at e | split

theorem execCopyQuiesceExpiry_ok {core : Nat} {s : State} {nx : State} (e
    : execCopyQuiesceExpiry core s = .next nx) (hs : s.memoryOk = true) :
    nx.memoryOk = true := by
  unfold execCopyQuiesceExpiry at e
  try dsimp only at e
  repeat' first
    | (with_reducible assumption) | (with_reducible injection e with e; subst e)
    | (with_reducible injection e; done) | (with_reducible apply ok3_same) | simp only [ok_mk]
    | with_reducible apply preemptStep_ok | with_reducible apply quiesceCore_ok | (intro _ _ _) | (intro _ _)
    | (intro _) | split at e | split

theorem execResumeLaunch_ok {q : Nat} {s : State} {nx : State} (e : execResumeLaunch q s = .next nx) (hs
    : s.memoryOk = true) :
    nx.memoryOk = true := by
  unfold execResumeLaunch at e
  try dsimp only at e
  repeat' first
    | (with_reducible assumption) | (with_reducible injection e with e; subst e)
    | (with_reducible injection e; done) | (with_reducible apply ok3_same) | simp only [ok_mk]
    | with_reducible apply resumeByCommand_ok | with_reducible apply takeCommand_ok | (intro _ _ _)
    | (intro _ _) | (intro _) | split at e | split

theorem execLaunchBegin_ok {id : Nat} {s : State} {nx : State} (e : execLaunchBegin id s = .next nx) (hs
    : s.memoryOk = true) :
    nx.memoryOk = true := by
  unfold execLaunchBegin at e
  try dsimp only at e
  repeat' first
    | (with_reducible assumption) | (with_reducible injection e with e; subst e)
    | (with_reducible injection e; done) | (with_reducible apply ok3_same) | simp only [ok_mk]
    | with_reducible apply beginLaunch_ok | with_reducible apply tryResume_ok | (intro _ _ _) | (intro _ _)
    | (intro _) | split at e | split

theorem execTtFire_ok {e : Nat} {s : State} {nx : State} (e : execTtFire e s = .next nx) (hs : s.memoryOk = true) :
    nx.memoryOk = true := by
  unfold execTtFire at e
  try dsimp only at e
  repeat' first
    | (with_reducible assumption) | (with_reducible injection e with e; subst e)
    | (with_reducible injection e; done) | (with_reducible apply ok3_same) | simp only [ok_mk]
    | with_reducible apply fire_ok | (intro _ _ _) | (intro _ _) | (intro _) | split at e | split

theorem execTtEntryEnable_ok {e : Nat} {s : State} {nx : State} (e : execTtEntryEnable e s = .next nx) (hs
    : s.memoryOk = true) :
    nx.memoryOk = true := by
  unfold execTtEntryEnable at e
  try dsimp only at e
  repeat' first
    | (with_reducible assumption) | (with_reducible injection e with e; subst e)
    | (with_reducible injection e; done) | (with_reducible apply ok3_same) | simp only [ok_mk]
    | with_reducible apply discard_ok | with_reducible apply enableEntry_ok | (intro _ _ _) | (intro _ _)
    | (intro _) | split at e | split

theorem execTtQueuedBegin_ok {e : Nat} {s : State} {nx : State} (e : execTtQueuedBegin e s = .next nx) (hs
    : s.memoryOk = true) :
    nx.memoryOk = true := by
  unfold execTtQueuedBegin at e
  try dsimp only at e
  repeat' first
    | (with_reducible assumption) | (with_reducible injection e with e; subst e)
    | (with_reducible injection e; done) | (with_reducible apply ok3_same) | simp only [ok_mk]
    | with_reducible apply beginQueued_ok | (intro _ _ _) | (intro _ _) | (intro _) | split at e | split

end Sys2Proof.Laws
end

