-- ==== Sys2Proof/Laws/KeepsModule.lean ====
section
/-! SUPPORT. The canonical form of the memories is kept by every operation of Machine/Boot.lean,
Machine/Fabric.lean, Machine/Debug.lean, Machine/Drain.lean, Machine/Acts.lean. -/

set_option linter.all false

namespace Sys2Proof.Laws

open Sys2Proof.Machine Sys2Proof.Machine.State

theorem updBoot_ok (s : State) (f : Boot → Boot) (hs : s.memoryOk = true) :
    (State.updBoot s f).memoryOk = true := by
  unfold State.updBoot
  try dsimp only
  repeat' first
    | (with_reducible assumption) | (with_reducible apply ok3_same) | simp only [ok_mk] | (intro _ _ _)
    | (intro _ _) | (intro _) | split

theorem failStart_ok (s : State) (reason : Nat) (hs : s.memoryOk = true) :
    (State.failStart s reason).memoryOk = true := by
  unfold State.failStart
  try dsimp only
  repeat' first
    | (with_reducible assumption) | (with_reducible apply ok3_same) | simp only [ok_mk]
    | with_reducible apply updBoot_ok | (intro _ _ _) | (intro _ _) | (intro _) | split

theorem resetModule_ok (s : State) (hs : s.memoryOk = true) :
    (State.resetModule s).memoryOk = true := by
  unfold State.resetModule
  try dsimp only
  repeat' first
    | (with_reducible assumption) | (with_reducible apply ok3_same) | simp only [ok_mk]
    | with_reducible apply updBoot_ok | rfl | with_reducible refine ok3_of ?_ ?_ ?_
    | with_reducible apply ok_mem | with_reducible apply ok_scr | with_reducible apply ok_host
    | with_reducible apply write_wf | with_reducible apply foldl_write_wf | with_reducible apply filter_wf
    | (intro _ _ _) | (intro _ _) | (intro _) | split

theorem extendRegister_ok (s : State) (n : Nat) (d : BitVec 256) (hs : s.memoryOk = true) :
    (State.extendRegister s n d).memoryOk = true := by
  unfold State.extendRegister
  try dsimp only
  repeat' first
    | (with_reducible assumption) | (with_reducible apply ok3_same) | simp only [ok_mk] | (intro _ _ _)
    | (intro _ _) | (intro _) | split

theorem nextStage_ok (s : State) (hs : s.memoryOk = true) :
    (State.nextStage s).memoryOk = true := by
  unfold State.nextStage
  try dsimp only
  repeat' first
    | (with_reducible assumption) | (with_reducible apply ok3_same) | simp only [ok_mk]
    | with_reducible apply updBoot_ok | (intro _ _ _) | (intro _ _) | (intro _) | split

theorem startRunning_ok (s : State) (hs : s.memoryOk = true) :
    (State.startRunning s).memoryOk = true := by
  unfold State.startRunning
  try dsimp only
  repeat' first
    | (with_reducible assumption) | (with_reducible apply ok3_same) | simp only [ok_mk]
    | with_reducible apply updBoot_ok | (intro _ _ _) | (intro _ _) | (intro _) | split

theorem badImage_ok (s : State) (reason : Nat) (hs : s.memoryOk = true) :
    (State.badImage s reason).memoryOk = true := by
  unfold State.badImage
  try dsimp only
  repeat' first
    | (with_reducible assumption) | (with_reducible apply ok3_same) | simp only [ok_mk]
    | with_reducible apply failStart_ok | with_reducible apply updBoot_ok | (intro _ _ _) | (intro _ _)
    | (intro _) | split

theorem stageTwo_ok (s : State) (contents : List Nat) (hs : s.memoryOk = true) :
    (State.stageTwo s contents).memoryOk = true := by
  unfold State.stageTwo
  try dsimp only
  repeat' first
    | (with_reducible assumption) | (with_reducible apply ok3_same) | simp only [ok_mk]
    | with_reducible apply extendRegister_ok | with_reducible apply failStart_ok
    | with_reducible apply nextStage_ok | with_reducible apply updBoot_ok | (intro _ _ _) | (intro _ _)
    | (intro _) | split

theorem stageResult_ok (s : State) (x0 : StageResult) (hs : s.memoryOk = true) :
    (State.stageResult s x0).memoryOk = true := by
  unfold State.stageResult
  try dsimp only
  repeat' first
    | (with_reducible assumption) | (with_reducible apply ok3_same) | simp only [ok_mk]
    | with_reducible apply badImage_ok | with_reducible apply extendRegister_ok
    | with_reducible apply failStart_ok | with_reducible apply nextStage_ok | with_reducible apply stageTwo_ok
    | with_reducible apply startRunning_ok | with_reducible apply updBoot_ok | (intro _ _ _) | (intro _ _)
    | (intro _) | split

theorem negotiate_ok (s : State) (i : Iface) (lo : Nat × Nat) (hi : Nat × Nat) (hs : s.memoryOk = true) :
    (State.negotiate s i lo hi).memoryOk = true := by
  unfold State.negotiate
  try dsimp only
  repeat' first
    | (with_reducible assumption) | (with_reducible apply ok3_same) | simp only [ok_mk]
    | with_reducible apply failStart_ok | with_reducible apply updBoot_ok | (intro _ _ _) | (intro _ _)
    | (intro _) | split

theorem spdm_ok (s : State) (r : SpdmRequest) (hs : s.memoryOk = true) :
    (State.spdm s r).memoryOk = true := by
  unfold State.spdm
  try dsimp only
  repeat' first
    | (with_reducible assumption) | (with_reducible apply ok3_same) | simp only [ok_mk] | (intro _ _ _)
    | (intro _ _) | (intro _) | split

theorem manage_ok (s : State) (hs : s.memoryOk = true) :
    (State.manage s).memoryOk = true := by
  unfold State.manage
  try dsimp only
  repeat' first
    | (with_reducible assumption) | (with_reducible apply ok3_same) | simp only [ok_mk]
    | with_reducible apply resetModule_ok | with_reducible apply updBoot_ok | (intro _ _ _) | (intro _ _)
    | (intro _) | split

theorem writeCap_ok (s : State) (w : Nat) (hs : s.memoryOk = true) :
    (State.writeCap s w).memoryOk = true := by
  unfold State.writeCap
  try dsimp only
  repeat' first
    | (with_reducible assumption) | (with_reducible apply ok3_same) | simp only [ok_mk] | (intro _ _ _)
    | (intro _ _) | (intro _) | split

theorem power_ok (s : State) (watts : Nat) (hot : Bool) (critical : Bool) (hs : s.memoryOk = true) :
    (State.power s watts hot critical).memoryOk = true := by
  unfold State.power
  try dsimp only
  repeat' first
    | (with_reducible assumption) | (with_reducible apply ok3_same) | simp only [ok_mk]
    | with_reducible apply updBoot_ok | (intro _ _ _) | (intro _ _) | (intro _) | split

theorem ptpLock_ok (s : State) (locked : Bool) (time : Nat) (hs : s.memoryOk = true) :
    (State.ptpLock s locked time).memoryOk = true := by
  unfold State.ptpLock
  try dsimp only
  repeat' first
    | (with_reducible assumption) | (with_reducible apply ok3_same) | simp only [ok_mk] | (intro _ _ _)
    | (intro _ _) | (intro _) | split

theorem execManagementReset_ok {s : State} {nx : State} (e : execManagementReset s = .next nx) (hs
    : s.memoryOk = true) :
    nx.memoryOk = true := by
  unfold execManagementReset at e
  try dsimp only at e
  repeat' first
    | (with_reducible assumption) | (with_reducible injection e with e; subst e)
    | (with_reducible injection e; done) | (with_reducible apply ok3_same) | simp only [ok_mk]
    | with_reducible apply manage_ok | (intro _ _ _) | (intro _ _) | (intro _) | split at e | split

theorem execClearFailCount_ok {s : State} {nx : State} (e : execClearFailCount s = .next nx) (hs
    : s.memoryOk = true) :
    nx.memoryOk = true := by
  unfold execClearFailCount at e
  try dsimp only at e
  repeat' first
    | (with_reducible assumption) | (with_reducible injection e with e; subst e)
    | (with_reducible injection e; done) | (with_reducible apply ok3_same) | simp only [ok_mk]
    | with_reducible apply updBoot_ok | (intro _ _ _) | (intro _ _) | (intro _) | split at e | split

theorem execCapWrite_ok {w : BitVec 32} {s : State} {nx : State} (e : execCapWrite w s = .next nx) (hs
    : s.memoryOk = true) :
    nx.memoryOk = true := by
  unfold execCapWrite at e
  try dsimp only at e
  repeat' first
    | (with_reducible assumption) | (with_reducible injection e with e; subst e)
    | (with_reducible injection e; done) | (with_reducible apply ok3_same) | simp only [ok_mk]
    | with_reducible apply writeCap_ok | (intro _ _ _) | (intro _ _) | (intro _) | split at e | split

theorem execPowerInterval_ok {watts : Nat} {hot : Bool} {critical : Bool} {s : State} {nx : State} (e
    : execPowerInterval watts hot critical s = .next nx) (hs : s.memoryOk = true) :
    nx.memoryOk = true := by
  unfold execPowerInterval at e
  try dsimp only at e
  repeat' first
    | (with_reducible assumption) | (with_reducible injection e with e; subst e)
    | (with_reducible injection e; done) | (with_reducible apply ok3_same) | simp only [ok_mk]
    | with_reducible apply power_ok | (intro _ _ _) | (intro _ _) | (intro _) | split at e | split

theorem execModuleReset_ok {s : State} {nx : State} (e : execModuleReset s = .next nx) (hs : s.memoryOk = true) :
    nx.memoryOk = true := by
  unfold execModuleReset at e
  try dsimp only at e
  repeat' first
    | (with_reducible assumption) | (with_reducible injection e with e; subst e)
    | (with_reducible injection e; done) | (with_reducible apply ok3_same) | simp only [ok_mk]
    | with_reducible apply resetModule_ok | (intro _ _ _) | (intro _ _) | (intro _) | split at e | split

theorem execBootStageComplete_ok {r : StageResult} {s : State} {nx : State} (e
    : execBootStageComplete r s = .next nx) (hs : s.memoryOk = true) :
    nx.memoryOk = true := by
  unfold execBootStageComplete at e
  try dsimp only at e
  repeat' first
    | (with_reducible assumption) | (with_reducible injection e with e; subst e)
    | (with_reducible injection e; done) | (with_reducible apply ok3_same) | simp only [ok_mk]
    | with_reducible apply stageResult_ok | (intro _ _ _) | (intro _ _) | (intro _) | split at e | split

theorem execBootTimeout_ok {s : State} {nx : State} (e : execBootTimeout s = .next nx) (hs : s.memoryOk = true) :
    nx.memoryOk = true := by
  unfold execBootTimeout at e
  try dsimp only at e
  repeat' first
    | (with_reducible assumption) | (with_reducible injection e with e; subst e)
    | (with_reducible injection e; done) | (with_reducible apply ok3_same) | simp only [ok_mk]
    | with_reducible apply failStart_ok | (intro _ _ _) | (intro _ _) | (intro _) | split at e | split

theorem execVersionNegotiation_ok {i : Iface} {lo : Nat × Nat} {hi : Nat × Nat} {s : State} {nx : State} (e
    : execVersionNegotiation i lo hi s = .next nx) (hs : s.memoryOk = true) :
    nx.memoryOk = true := by
  unfold execVersionNegotiation at e
  try dsimp only at e
  repeat' first
    | (with_reducible assumption) | (with_reducible injection e with e; subst e)
    | (with_reducible injection e; done) | (with_reducible apply ok3_same) | simp only [ok_mk]
    | with_reducible apply negotiate_ok | (intro _ _ _) | (intro _ _) | (intro _) | split at e | split

theorem execMeasurementExtend_ok {n : Fin 16} {d : BitVec 256} {s : State} {nx : State} (e
    : execMeasurementExtend n d s = .next nx) (hs : s.memoryOk = true) :
    nx.memoryOk = true := by
  unfold execMeasurementExtend at e
  try dsimp only at e
  repeat' first
    | (with_reducible assumption) | (with_reducible injection e with e; subst e)
    | (with_reducible injection e; done) | (with_reducible apply ok3_same) | simp only [ok_mk]
    | with_reducible apply extendRegister_ok | (intro _ _ _) | (intro _ _) | (intro _) | split at e | split

theorem execSpdmRequest_ok {r : SpdmRequest} {s : State} {nx : State} (e : execSpdmRequest r s = .next nx) (hs
    : s.memoryOk = true) :
    nx.memoryOk = true := by
  unfold execSpdmRequest at e
  try dsimp only at e
  repeat' first
    | (with_reducible assumption) | (with_reducible injection e with e; subst e)
    | (with_reducible injection e; done) | (with_reducible apply ok3_same) | simp only [ok_mk]
    | with_reducible apply spdm_ok | (intro _ _ _) | (intro _ _) | (intro _) | split at e | split

theorem execPtpLockChange_ok {locked : Bool} {time : Nat} {s : State} {nx : State} (e
    : execPtpLockChange locked time s = .next nx) (hs : s.memoryOk = true) :
    nx.memoryOk = true := by
  unfold execPtpLockChange at e
  try dsimp only at e
  repeat' first
    | (with_reducible assumption) | (with_reducible injection e with e; subst e)
    | (with_reducible injection e; done) | (with_reducible apply ok3_same) | simp only [ok_mk]
    | with_reducible apply ptpLock_ok | (intro _ _ _) | (intro _ _) | (intro _) | split at e | split

theorem remoteWrite_ok {s : State} {w : RemoteWrite} {nx : State} {nv : List Byte} (e : State.remoteWrite s w =
    (nx, nv)) (hs : s.memoryOk = true) :
    nx.memoryOk = true := by
  unfold State.remoteWrite at e
  try dsimp only at e
  repeat' first
    | (with_reducible assumption) | (with_reducible injection e with e e2; subst e)
    | (with_reducible apply ok3_same) | simp only [ok_mk] | with_reducible apply recallWord_ok
    | with_reducible apply settleRange_ok | with_reducible apply writeHome_ok
    | with_reducible apply setDesc_ok | (with_reducible apply foldl_ok)
    | refine foldl_pair_eq_ok (by assumption) ?_ ?_ | (with_reducible apply foldl_pair_ok) | dsimp only
    | (intro _ _ _) | (intro _ _) | (intro _) | split at e | split

theorem remoteTouch_ok (s : State) (pa : Nat) (n : Nat) (nu : Nat) (hs : s.memoryOk = true) :
    (State.remoteTouch s pa n nu).memoryOk = true := by
  unfold State.remoteTouch
  try dsimp only
  repeat' first
    | (with_reducible assumption) | (with_reducible apply ok3_same) | simp only [ok_mk]
    | with_reducible apply passCaches_ok | (intro _ _ _) | (intro _ _) | (intro _) | split

theorem trace_ok (s : State) (p : Nat) (w : RemoteWrite) (b : List Byte) (hs : s.memoryOk = true) :
    (State.trace s p w b).memoryOk = true := by
  unfold State.trace
  try dsimp only
  repeat' first
    | (with_reducible assumption) | (with_reducible apply ok3_same) | simp only [ok_mk]
    | with_reducible apply updPort_ok | (intro _ _ _) | (intro _ _) | (intro _) | split

theorem handover_ok (s : State) (p : Nat) (hs : s.memoryOk = true) :
    (State.handover s p).memoryOk = true := by
  unfold State.handover
  try dsimp only
  repeat' first
    | (with_reducible assumption) | (with_reducible apply ok3_same) | simp only [ok_mk]
    | with_reducible apply remoteTouch_ok | with_reducible apply updPort_ok | with_reducible apply trace_ok
    | refine remoteWrite_ok (by assumption) ?_ | refine remoteWrite_ok (Prod.eta _).symm ?_ | (intro _ _ _)
    | (intro _ _) | (intro _) | split

theorem handoverAll_ok (p : Nat) (x0 : Nat) (x1 : State) (hx1 : x1.memoryOk = true) :
    (State.handoverAll p x0 x1).memoryOk = true := by
  induction x0 generalizing p x1 with
  | zero => first | exact hx1 | (unfold State.handoverAll; exact hx1)
  | succ n ih =>
    unfold State.handoverAll
    try dsimp only
    repeat' first
      | (with_reducible assumption) | (with_reducible apply ok3_same) | simp only [ok_mk]
      | with_reducible apply ih | with_reducible apply handover_ok | (intro _ _ _) | (intro _ _) | (intro _)
      | split

theorem postPlace_ok (s : State) (p : Placement) (hs : s.memoryOk = true) :
    (State.postPlace s p).memoryOk = true := by
  unfold State.postPlace
  try dsimp only
  repeat' first
    | (with_reducible assumption) | (with_reducible apply ok3_same) | simp only [ok_mk]
    | with_reducible apply post_ok | (intro _ _ _) | (intro _ _) | (intro _) | split

theorem deliverPacket_ok (s : State) (p : Nat) (x0 : Delivery) (hs : s.memoryOk = true) :
    (State.deliverPacket s p x0).memoryOk = true := by
  unfold State.deliverPacket
  try dsimp only
  repeat' first
    | (with_reducible assumption) | (with_reducible apply ok3_same) | simp only [ok_mk]
    | with_reducible apply post_ok | with_reducible apply postPlace_ok | with_reducible apply remoteTouch_ok
    | with_reducible apply settleRange_ok | with_reducible apply tell_ok | with_reducible apply updPort_ok
    | with_reducible apply getD_ok | (intro _ _ _) | (intro _ _) | (intro _) | split

theorem holdFlit_ok (s : State) (p : Nat) (vc : Nat) (before : Nat) (hs : s.memoryOk = true) :
    (State.holdFlit s p vc before).memoryOk = true := by
  unfold State.holdFlit
  try dsimp only
  repeat' first
    | (with_reducible assumption) | (with_reducible apply ok3_same) | simp only [ok_mk]
    | with_reducible apply updPort_ok | (intro _ _ _) | (intro _ _) | (intro _) | split

theorem sendUnsent_ok (s : State) (p : Nat) (hs : s.memoryOk = true) :
    (State.sendUnsent s p).memoryOk = true := by
  unfold State.sendUnsent
  try dsimp only
  repeat' first
    | (with_reducible assumption) | (with_reducible apply ok3_same) | simp only [ok_mk]
    | with_reducible apply sendFlit_ok | (with_reducible apply foldl_ok)
    | refine foldl_pair_eq_ok (by assumption) ?_ ?_ | (with_reducible apply foldl_pair_ok) | dsimp only
    | (intro _ _ _) | (intro _ _) | (intro _) | split

theorem acceptFlit_ok (s : State) (p : Nat) (f : Flit) (hs : s.memoryOk = true) :
    (State.acceptFlit s p f).memoryOk = true := by
  unfold State.acceptFlit
  try dsimp only
  repeat' first
    | (with_reducible assumption) | (with_reducible apply ok3_same) | simp only [ok_mk]
    | with_reducible apply deliverPacket_ok | with_reducible apply holdFlit_ok
    | with_reducible apply updPort_ok | with_reducible apply sendUnsent_ok | (with_reducible apply foldl_ok)
    | refine foldl_pair_eq_ok (by assumption) ?_ ?_ | (with_reducible apply foldl_pair_ok) | dsimp only
    | (intro _ _ _) | (intro _ _) | (intro _) | split

theorem receive__ok (s : State) (p : Nat) (f : Flit) (hs : s.memoryOk = true) :
    (State.receive_ s p f).memoryOk = true := by
  unfold State.receive_
  try dsimp only
  repeat' first
    | (with_reducible assumption) | (with_reducible apply ok3_same) | simp only [ok_mk]
    | with_reducible apply acceptFlit_ok | with_reducible apply updPort_ok | (intro _ _ _) | (intro _ _)
    | (intro _) | split

theorem losePosted_ok (s : State) (sid : Nat) (c : Option Ctr) (va : Word) (hs : s.memoryOk = true) :
    (State.losePosted s sid c va).memoryOk = true := by
  unfold State.losePosted
  try dsimp only
  repeat' first
    | (with_reducible assumption) | (with_reducible apply ok3_same) | simp only [ok_mk]
    | with_reducible apply updSlot_ok | (intro _ _ _) | (intro _ _) | (intro _) | split

theorem losePacket_ok (s : State) (k : Nat) (hs : s.memoryOk = true) :
    (State.losePacket s k).memoryOk = true := by
  unfold State.losePacket
  try dsimp only
  repeat' first
    | (with_reducible assumption) | (with_reducible apply ok3_same) | simp only [ok_mk]
    | with_reducible apply losePosted_ok | with_reducible apply removeMsg_ok | with_reducible apply updSlot_ok
    | (intro _ _ _) | (intro _ _) | (intro _) | split

theorem moveResidues_ok (s : State) (p : Nat) (hs : s.memoryOk = true) :
    (State.moveResidues s p).memoryOk = true := by
  unfold State.moveResidues
  try dsimp only
  repeat' first
    | (with_reducible assumption) | (with_reducible apply ok3_same) | simp only [ok_mk] | (intro _ _ _)
    | (intro _ _) | (intro _) | split

theorem portDown_ok (s : State) (p : Nat) (hs : s.memoryOk = true) :
    (State.portDown s p).memoryOk = true := by
  unfold State.portDown
  try dsimp only
  repeat' first
    | (with_reducible assumption) | (with_reducible apply ok3_same) | simp only [ok_mk]
    | with_reducible apply handoverAll_ok | with_reducible apply losePacket_ok
    | with_reducible apply moveResidues_ok | with_reducible apply updPort_ok
    | with_reducible apply sendFlit_ok | (with_reducible apply foldl_ok)
    | refine foldl_pair_eq_ok (by assumption) ?_ ?_ | (with_reducible apply foldl_pair_ok) | dsimp only
    | (intro _ _ _) | (intro _ _) | (intro _) | split

theorem retrained_ok (s : State) (p : Nat) (lanes : Nat) (hs : s.memoryOk = true) :
    (State.retrained s p lanes).memoryOk = true := by
  unfold State.retrained
  try dsimp only
  repeat' first
    | (with_reducible assumption) | (with_reducible apply ok3_same) | simp only [ok_mk]
    | with_reducible apply portDown_ok | with_reducible apply updPort_ok | with_reducible apply sendUnsent_ok
    | (intro _ _ _) | (intro _ _) | (intro _) | split

theorem enableTrace_ok (s : State) (p : Nat) (hs : s.memoryOk = true) :
    (State.enableTrace s p).memoryOk = true := by
  unfold State.enableTrace
  try dsimp only
  repeat' first
    | (with_reducible assumption) | (with_reducible apply ok3_same) | simp only [ok_mk]
    | with_reducible apply updPort_ok | (intro _ _ _) | (intro _ _) | (intro _) | split

theorem throughWrite_ok (s : State) (pa : Nat) (x0 : List Byte) (hs : s.memoryOk = true) :
    (State.throughWrite s pa x0).memoryOk = true := by
  induction x0 generalizing s pa with
  | nil => first | exact hs | (unfold State.throughWrite; exact hs)
  | cons b l ih =>
    unfold State.throughWrite
    try dsimp only
    repeat' first
      | (with_reducible assumption) | (with_reducible apply ok3_same) | simp only [ok_mk]
      | with_reducible apply ih | with_reducible apply recallWord_ok | with_reducible apply settle_ok
      | with_reducible refine ok3_of ?_ ?_ ?_ | with_reducible apply ok_mem | with_reducible apply ok_scr
      | with_reducible apply ok_host | with_reducible apply write_wf | with_reducible apply foldl_write_wf
      | with_reducible apply filter_wf | (intro _ _ _) | (intro _ _) | (intro _) | split

theorem hostWriteMem_ok (s : State) (off : Nat) (data : List Byte) (hs : s.memoryOk = true) :
    (State.hostWriteMem s off data).memoryOk = true := by
  unfold State.hostWriteMem
  try dsimp only
  repeat' first
    | (with_reducible assumption) | (with_reducible apply ok3_same) | simp only [ok_mk]
    | with_reducible apply throughWrite_ok | with_reducible apply setDesc_ok | (with_reducible apply foldl_ok)
    | refine foldl_pair_eq_ok (by assumption) ?_ ?_ | (with_reducible apply foldl_pair_ok) | dsimp only
    | (intro _ _ _) | (intro _ _) | (intro _) | split

theorem hostReadMem_ok (s : State) (off : Nat) (n : Nat) (hs : s.memoryOk = true) :
    (State.hostReadMem s off n).memoryOk = true := by
  unfold State.hostReadMem
  try dsimp only
  repeat' first
    | (with_reducible assumption) | (with_reducible apply ok3_same) | simp only [ok_mk] | (intro _ _ _)
    | (intro _ _) | (intro _) | split

theorem breakQueue_ok (s : State) (q : Nat) (hs : s.memoryOk = true) :
    (State.breakQueue s q).memoryOk = true := by
  unfold State.breakQueue
  try dsimp only
  repeat' first
    | (with_reducible assumption) | (with_reducible apply ok3_same) | simp only [ok_mk]
    | with_reducible apply discard_ok | with_reducible apply updQueue_ok | (intro _ _ _) | (intro _ _)
    | (intro _) | split

theorem writeQueueState_ok (s : State) (q : Nat) (v : Nat) (hs : s.memoryOk = true) :
    (State.writeQueueState s q v).memoryOk = true := by
  unfold State.writeQueueState
  try dsimp only
  repeat' first
    | (with_reducible assumption) | (with_reducible apply ok3_same) | simp only [ok_mk]
    | with_reducible apply destroyQueue_ok | with_reducible apply discard_ok
    | with_reducible apply updQueue_ok | (intro _ _ _) | (intro _ _) | (intro _) | split

theorem writeQueue_ok (s : State) (q : Nat) (off : Nat) (f : Nat → Nat) (hs : s.memoryOk = true) :
    (State.writeQueue s q off f).memoryOk = true := by
  unfold State.writeQueue
  try dsimp only
  repeat' first
    | (with_reducible assumption) | (with_reducible apply ok3_same) | simp only [ok_mk]
    | with_reducible apply breakQueue_ok | with_reducible apply discard_ok | with_reducible apply doorbell_ok
    | with_reducible apply updQueue_ok | with_reducible apply writeQueueState_ok | (intro _ _ _) | (intro _ _)
    | (intro _) | split

theorem writeEntry_ok (s : State) (e : Nat) (off : Nat) (f : Nat → Nat) (hs : s.memoryOk = true) :
    (State.writeEntry s e off f).memoryOk = true := by
  unfold State.writeEntry
  try dsimp only
  repeat' first
    | (with_reducible assumption) | (with_reducible apply ok3_same) | simp only [ok_mk]
    | with_reducible apply discard_ok | with_reducible apply enableEntry_ok | with_reducible apply updTt_ok
    | (intro _ _ _) | (intro _ _) | (intro _) | split

theorem writeTrace_ok (s : State) (p : Nat) (off : Nat) (f : Nat → Nat) (hs : s.memoryOk = true) :
    (State.writeTrace s p off f).memoryOk = true := by
  unfold State.writeTrace
  try dsimp only
  repeat' first
    | (with_reducible assumption) | (with_reducible apply ok3_same) | simp only [ok_mk]
    | with_reducible apply discard_ok | with_reducible apply enableTrace_ok | with_reducible apply updPort_ok
    | (intro _ _ _) | (intro _ _) | (intro _) | split

theorem writeReg_ok (s : State) (off : Nat) (f : Nat → Nat) (hs : s.memoryOk = true) :
    (State.writeReg s off f).memoryOk = true := by
  unfold State.writeReg
  try dsimp only
  repeat' first
    | (with_reducible assumption) | (with_reducible apply ok3_same) | simp only [ok_mk]
    | with_reducible apply discard_ok | with_reducible apply manage_ok | with_reducible apply updBoot_ok
    | with_reducible apply writeCap_ok | with_reducible apply writeEntry_ok
    | with_reducible apply writeQueue_ok | with_reducible apply writeTrace_ok | (intro _ _ _) | (intro _ _)
    | (intro _) | split

theorem writeRegs_ok (s : State) (off : Nat) (size : Nat) (value : Word) (hs : s.memoryOk = true) :
    (State.writeRegs s off size value).memoryOk = true := by
  unfold State.writeRegs
  try dsimp only
  repeat' first
    | (with_reducible assumption) | (with_reducible apply ok3_same) | simp only [ok_mk]
    | with_reducible apply writeReg_ok | (with_reducible apply foldl_ok)
    | refine foldl_pair_eq_ok (by assumption) ?_ ?_ | (with_reducible apply foldl_pair_ok) | dsimp only
    | (intro _ _ _) | (intro _ _) | (intro _) | split

theorem writeBar0_ok (s : State) (off : Nat) (size : Nat) (value : Word) (hs : s.memoryOk = true) :
    (State.writeBar0 s off size value).memoryOk = true := by
  unfold State.writeBar0
  try dsimp only
  repeat' first
    | (with_reducible assumption) | (with_reducible apply ok3_same) | simp only [ok_mk]
    | with_reducible apply writeRegs_ok | (intro _ _ _) | (intro _ _) | (intro _) | split

theorem execFlitReceive_ok {port : Nat} {f : Flit} {s : State} {nx : State} (e
    : execFlitReceive port f s = .next nx) (hs : s.memoryOk = true) :
    nx.memoryOk = true := by
  unfold execFlitReceive at e
  try dsimp only at e
  repeat' first
    | (with_reducible assumption) | (with_reducible injection e with e; subst e)
    | (with_reducible injection e; done) | (with_reducible apply ok3_same) | simp only [ok_mk]
    | with_reducible apply receive__ok | (intro _ _ _) | (intro _ _) | (intro _) | split at e | split

theorem execLinkRetrain_ok {port : Nat} {s : State} {nx : State} (e : execLinkRetrain port s = .next nx) (hs
    : s.memoryOk = true) :
    nx.memoryOk = true := by
  unfold execLinkRetrain at e
  try dsimp only at e
  repeat' first
    | (with_reducible assumption) | (with_reducible injection e with e; subst e)
    | (with_reducible injection e; done) | (with_reducible apply ok3_same) | simp only [ok_mk]
    | with_reducible apply updPort_ok | (intro _ _ _) | (intro _ _) | (intro _) | split at e | split

theorem execRetrainingEnd_ok {port : Nat} {lanes : Nat} {s : State} {nx : State} (e
    : execRetrainingEnd port lanes s = .next nx) (hs : s.memoryOk = true) :
    nx.memoryOk = true := by
  unfold execRetrainingEnd at e
  try dsimp only at e
  repeat' first
    | (with_reducible assumption) | (with_reducible injection e with e; subst e)
    | (with_reducible injection e; done) | (with_reducible apply ok3_same) | simp only [ok_mk]
    | with_reducible apply retrained_ok | (intro _ _ _) | (intro _ _) | (intro _) | split at e | split

theorem execRemoteWriteHandover_ok {port : Nat} {s : State} {nx : State} (e
    : execRemoteWriteHandover port s = .next nx) (hs : s.memoryOk = true) :
    nx.memoryOk = true := by
  unfold execRemoteWriteHandover at e
  try dsimp only at e
  repeat' first
    | (with_reducible assumption) | (with_reducible injection e with e; subst e)
    | (with_reducible injection e; done) | (with_reducible apply ok3_same) | simp only [ok_mk]
    | with_reducible apply handover_ok | (intro _ _ _) | (intro _ _) | (intro _) | split at e | split

theorem execTraceEnable_ok {port : Nat} {s : State} {nx : State} (e : execTraceEnable port s = .next nx) (hs
    : s.memoryOk = true) :
    nx.memoryOk = true := by
  unfold execTraceEnable at e
  try dsimp only at e
  repeat' first
    | (with_reducible assumption) | (with_reducible injection e with e; subst e)
    | (with_reducible injection e; done) | (with_reducible apply ok3_same) | simp only [ok_mk]
    | with_reducible apply discard_ok | with_reducible apply enableTrace_ok | (intro _ _ _) | (intro _ _)
    | (intro _) | split at e | split

theorem execHostBar2Write_ok {off : Nat} {data : List Byte} {s : State} {nx : State} (e
    : execHostBar2Write off data s = .next nx) (hs : s.memoryOk = true) :
    nx.memoryOk = true := by
  unfold execHostBar2Write at e
  try dsimp only at e
  repeat' first
    | (with_reducible assumption) | (with_reducible injection e with e; subst e)
    | (with_reducible injection e; done) | (with_reducible apply ok3_same) | simp only [ok_mk]
    | with_reducible apply hostWriteMem_ok | (intro _ _ _) | (intro _ _) | (intro _) | split at e | split

theorem execHostBar2Read_ok {off : Nat} {n : Nat} {s : State} {nx : State} (e
    : execHostBar2Read off n s = .next nx) (hs : s.memoryOk = true) :
    nx.memoryOk = true := by
  unfold execHostBar2Read at e
  try dsimp only at e
  repeat' first
    | (with_reducible assumption) | (with_reducible injection e with e; subst e)
    | (with_reducible injection e; done) | (with_reducible apply ok3_same) | simp only [ok_mk]
    | with_reducible apply hostReadMem_ok | (intro _ _ _) | (intro _ _) | (intro _) | split at e | split

theorem execRegisterWrite_ok {off : Nat} {size : Fin 9} {value : Word} {s : State} {nx : State} (e
    : execRegisterWrite off size value s = .next nx) (hs : s.memoryOk = true) :
    nx.memoryOk = true := by
  unfold execRegisterWrite at e
  try dsimp only at e
  repeat' first
    | (with_reducible assumption) | (with_reducible injection e with e; subst e)
    | (with_reducible injection e; done) | (with_reducible apply ok3_same) | simp only [ok_mk]
    | with_reducible apply writeBar0_ok | (intro _ _ _) | (intro _ _) | (intro _) | split at e | split

theorem debugStore_ok (s : State) (sid : Nat) (va : Word) (x0 : List Byte) (hs : s.memoryOk = true) :
    (State.debugStore s sid va x0).memoryOk = true := by
  induction x0 generalizing s sid va with
  | nil => first | exact hs | (unfold State.debugStore; exact hs)
  | cons b l ih =>
    unfold State.debugStore
    try dsimp only
    repeat' first
      | (with_reducible assumption) | (with_reducible apply ok3_same) | simp only [ok_mk]
      | with_reducible apply ih | with_reducible apply applyPiece_ok | (intro _ _ _) | (intro _ _) | (intro _)
      | split

theorem debugRead_ok (s : State) (sid : Nat) (r : DebugRead) (hs : s.memoryOk = true) :
    (State.debugRead s sid r).memoryOk = true := by
  unfold State.debugRead
  try dsimp only
  repeat' first
    | (with_reducible assumption) | (with_reducible apply ok3_same) | simp only [ok_mk] | (intro _ _ _)
    | (intro _ _) | (intro _) | split

theorem debugResume_ok (s : State) (id : Nat) (first : Nat) (dom : Option Nat) (hs : s.memoryOk = true) :
    (State.debugResume s id first dom).memoryOk = true := by
  unfold State.debugResume
  try dsimp only
  repeat' first
    | (with_reducible assumption) | (with_reducible apply ok3_same) | simp only [ok_mk]
    | with_reducible apply beginLaunch_ok | with_reducible apply tryResume_ok
    | with_reducible apply updLaunch_ok | (intro _ _ _) | (intro _ _) | (intro _) | split

theorem debug_ok (s : State) (x0 : DebugRequest) (hs : s.memoryOk = true) :
    (State.debug s x0).memoryOk = true := by
  unfold State.debug
  try dsimp only
  repeat' first
    | (with_reducible assumption) | (with_reducible apply ok3_same) | simp only [ok_mk]
    | with_reducible apply debugRead_ok | with_reducible apply debugResume_ok
    | with_reducible apply debugStore_ok | with_reducible apply hold_ok
    | with_reducible apply preemptLaunch_ok | with_reducible apply release_ok
    | with_reducible apply updCluster_ok | with_reducible apply updSlot_ok | (intro _ _ _) | (intro _ _)
    | (intro _) | split

theorem execDebugInterfaceRequest_ok {r : DebugRequest} {s : State} {nx : State} (e
    : execDebugInterfaceRequest r s = .next nx) (hs : s.memoryOk = true) :
    nx.memoryOk = true := by
  unfold execDebugInterfaceRequest at e
  try dsimp only at e
  repeat' first
    | (with_reducible assumption) | (with_reducible injection e with e; subst e)
    | (with_reducible injection e; done) | (with_reducible apply ok3_same) | simp only [ok_mk]
    | with_reducible apply debug_ok | (intro _ _ _) | (intro _ _) | (intro _) | split at e | split

theorem drainFlight_ok (s : State) (hs : s.memoryOk = true) :
    (State.drainFlight s).memoryOk = true := by
  unfold State.drainFlight
  try dsimp only
  repeat' first
    | (with_reducible assumption) | (with_reducible apply ok3_same) | simp only [ok_mk]
    | with_reducible apply perform_ok | (with_reducible apply foldl_ok)
    | refine foldl_pair_eq_ok (by assumption) ?_ ?_ | (with_reducible apply foldl_pair_ok) | dsimp only
    | (intro _ _ _) | (intro _ _) | (intro _) | split

theorem drainQueues_ok (s : State) (hs : s.memoryOk = true) :
    (State.drainQueues s).memoryOk = true := by
  unfold State.drainQueues
  try dsimp only
  repeat' first
    | (with_reducible assumption) | (with_reducible apply ok3_same) | simp only [ok_mk]
    | with_reducible apply retireQueues_ok | (with_reducible apply foldl_ok)
    | refine foldl_pair_eq_ok (by assumption) ?_ ?_ | (with_reducible apply foldl_pair_ok) | dsimp only
    | (intro _ _ _) | (intro _ _) | (intro _) | split

theorem drainClusters_ok (s : State) (hs : s.memoryOk = true) :
    (State.drainClusters s).memoryOk = true := by
  unfold State.drainClusters
  try dsimp only
  repeat' first
    | (with_reducible assumption) | (with_reducible apply ok3_same) | simp only [ok_mk]
    | with_reducible apply restart_ok | with_reducible apply servePending_ok | (with_reducible apply foldl_ok)
    | refine foldl_pair_eq_ok (by assumption) ?_ ?_ | (with_reducible apply foldl_pair_ok) | dsimp only
    | (intro _ _ _) | (intro _ _) | (intro _) | split

theorem drain_ok (s : State) (hs : s.memoryOk = true) :
    (State.drain s).memoryOk = true := by
  unfold State.drain
  try dsimp only
  repeat' first
    | (with_reducible assumption) | (with_reducible apply ok3_same) | simp only [ok_mk]
    | with_reducible apply drainClusters_ok | with_reducible apply drainFlight_ok
    | with_reducible apply drainQueues_ok | with_reducible apply runCopies_ok
    | with_reducible apply runStreams_ok | (intro _ _ _) | (intro _ _) | (intro _) | split

theorem placeTask_ok (s : State) (hs : s.memoryOk = true) :
    (State.placeTask s).memoryOk = true := by
  unfold State.placeTask
  try dsimp only
  repeat' first
    | (with_reducible assumption) | (with_reducible apply ok3_same) | simp only [ok_mk]
    | with_reducible apply updCore_ok | with_reducible apply updCluster_ok | with_reducible apply setSlot_ok
    | (intro _ _ _) | (intro _ _) | (intro _) | split

theorem storeFetch_ok (s : State) (w : Nat) (hs : s.memoryOk = true) :
    (State.storeFetch s w).memoryOk = true := by
  unfold State.storeFetch
  try dsimp only
  repeat' first
    | (with_reducible assumption) | (with_reducible apply ok3_same) | simp only [ok_mk]
    | with_reducible apply writeHome_ok | (intro _ _ _) | (intro _ _) | (intro _) | split

theorem clearWay_ok (s : State) (hs : s.memoryOk = true) :
    (State.clearWay s).memoryOk = true := by
  unfold State.clearWay
  try dsimp only
  repeat' first
    | (with_reducible assumption) | (with_reducible apply ok3_same) | simp only [ok_mk]
    | with_reducible apply upd_ok | (intro _ _ _) | (intro _ _) | (intro _) | split

theorem placeWord_ok (s : State) (w : Nat) (hs : s.memoryOk = true) :
    (State.placeWord s w).memoryOk = true := by
  unfold State.placeWord
  try dsimp only
  repeat' first
    | (with_reducible assumption) | (with_reducible apply ok3_same) | simp only [ok_mk]
    | with_reducible apply clearWay_ok | with_reducible apply placeTask_ok
    | with_reducible apply storeFetch_ok | (intro _ _ _) | (intro _ _) | (intro _) | split

theorem clearErrors_ok (s : State) (code : Nat) (unit : Nat) (uncorrected : Bool) (hs : s.memoryOk = true) :
    (State.clearErrors s code unit uncorrected).memoryOk = true := by
  unfold State.clearErrors
  try dsimp only
  repeat' first
    | (with_reducible assumption) | (with_reducible apply ok3_same) | simp only [ok_mk] | (intro _ _ _)
    | (intro _ _) | (intro _) | split

theorem act_ok (s : State) (x0 : Act) (hs : s.memoryOk = true) :
    (State.act s x0).memoryOk = true := by
  unfold State.act
  try dsimp only
  repeat' first
    | (with_reducible assumption) | (with_reducible apply ok3_same) | simp only [ok_mk]
    | with_reducible apply clearErrors_ok | with_reducible apply copyDomain_ok
    | with_reducible apply readAhead_ok | with_reducible apply setQuota_ok | (intro _ _ _) | (intro _ _)
    | (intro _) | split

theorem turn_ok (s : State) (hs : s.memoryOk = true) :
    (State.turn s).memoryOk = true := by
  unfold State.turn
  try dsimp only
  repeat' first
    | (with_reducible assumption) | (with_reducible apply ok3_same) | simp only [ok_mk]
    | refine prepare_ok (by assumption) ?_ | refine prepare_ok (Prod.eta _).symm ?_ | (intro _ _ _)
    | (intro _ _) | (intro _) | split

end Sys2Proof.Laws
end

