-- ==== Sys2Proof/Laws/RoundTrip.lean ====
section
/-! SUPPORT. How a word is read back: the lemmas with which decoding undoes encoding, for one operand form at a time
(R42, R44 to R47, R167, R219). -/

namespace Sys2Proof.Laws

@[simp] theorem ty_code (t : Ty) : Decode.ty t.code = t := by cases t <;> rfl
@[simp] theorem code_le (t : Ty) : t.code ≤ 16 := by cases t <;> decide
theorem code_lt (t : Ty) : t.code < 32 := by cases t <;> decide
@[simp] theorem g_val (a : Fin 64) : Decode.g a.val = a := by simp [Decode.g]
@[simp] theorem p_val (a : Fin 8) : Decode.p a.val = a := by simp [Decode.p]
@[simp] theorem ac_val (a : Fin 2) : Decode.ac a.val = a := by simp [Decode.ac]
@[simp] theorem lc_val (a : Fin 3) : Decode.lc a.val = a := by simp [Decode.lc]
@[simp] theorem path_code (c : Path) : Decode.path c.code = c := by cases c <;> rfl
@[simp] theorem cc_code (c : Cc) : Decode.cc c.code = c := by cases c <;> rfl
@[simp] theorem fcc_code (c : FCc) : Decode.fcc c.code = c := by cases c <;> rfl
@[simp] theorem vcc_code (c : VCc) : Decode.vcc c.code = c := by cases c <;> rfl
@[simp] theorem vcomb_code (c : VComb) : Decode.vcomb c.code = c := by cases c <;> rfl
@[simp] theorem cntOp_code (c : CntOp) : Decode.cntOp c.code = c := by cases c <;> rfl
@[simp] theorem amoOp_code (c : AmoOp) : Decode.amoOp c.code = c := by cases c <;> rfl
@[simp] theorem redOp_code (c : RedOp) : Decode.redOp c.code = c := by cases c <;> rfl
@[simp] theorem ord4_code (c : Ord4) : Decode.ord4 c.code = c := by cases c <;> rfl
theorem path_code_lt (c : Path) : c.code < 6 := by cases c <;> decide
theorem cc_code_lt (c : Cc) : c.code < 6 := by cases c <;> decide
theorem fcc_code_lt (c : FCc) : c.code < 4 := by cases c <;> decide
theorem vcc_code_lt (c : VCc) : c.code < 7 := by cases c <;> decide
theorem vcomb_code_lt (c : VComb) : c.code < 6 := by cases c <;> decide
theorem cntOp_code_lt (c : CntOp) : c.code < 3 := by cases c <;> decide
theorem amoOp_code_lt (c : AmoOp) : c.code < 13 := by cases c <;> decide
theorem redOp_code_lt (c : RedOp) : c.code < 11 := by cases c <;> decide
theorem ord4_code_lt (c : Ord4) : c.code < 4 := by cases c <;> decide

theorem g_iff (x : Nat) (a : Fin 64) : Decode.g x = a ↔ x % 64 = a.val := by simp [Decode.g, Fin.ext_iff]
theorem fin_iff (n : Nat) [NeZero n] (x : Nat) (a : Fin n) : Fin.ofNat n x = a ↔ x % n = a.val := by
  simp [Fin.ext_iff]
theorem bv_iff (n x : Nat) (a : BitVec n) : BitVec.ofNat n x = a ↔ x % 2 ^ n = a.toNat := by
  rw [← BitVec.toNat_inj, BitVec.toNat_ofNat]
theorem target_eq (maj gs gp mn A B C D T hi : Nat) (g : Target) :
    Decode.target ⟨maj, gs, gp, mn, A, B, C, D, T, hi * 2048 + g.tslot.val * 256 + g.disp.toNat / 4294967296,
      g.disp.toNat % 4294967296⟩ = g := by
  have := g.tslot.isLt; have := g.disp.isLt
  have e1 : bits (hi * 2048 + g.tslot.val * 256 + g.disp.toNat / 4294967296) 10 8 = g.tslot.val := by
    simp only [bits]; omega
  have e2 : (hi * 2048 + g.tslot.val * 256 + g.disp.toNat / 4294967296) % 256 * 4294967296 +
      g.disp.toNat % 4294967296 = g.disp.toNat := by omega
  simp [Decode.target, e1, e2]
theorem target_zero (maj gs gp mn A B C D T : Nat) (g : Target) :
    Decode.target ⟨maj, gs, gp, mn, A, B, C, D, T, g.tslot.val * 256 + g.disp.toNat / 4294967296,
      g.disp.toNat % 4294967296⟩ = g := by
  simpa using target_eq maj gs gp mn A B C D T 0 g

/-- A word whose fields are those of `raw i` under a guard decodes to that guard and instruction, when its skeleton is
the instruction's, with nothing amiss, and no reason of R57 makes it illegal. -/
theorem decode_of {i : Instr} {r : Raw} (s : Nat) (q : Guard) (hr : Encode.raw i = some r)
    (hb : { r with gs := Encode.b1 q.sense, gp := q.pred.val }.inRange) (h0 : 0 < r.maj) (h1 : r.maj < 255)
    (hs : Decode.skel { r with gs := Encode.b1 q.sense, gp := q.pred.val } = .ok ⟨true, true, true, i⟩)
    (hq : q.ok = true) (hw : i.wf s) : decode s (encode q i) = .ok (q, i) := by
  have hu := Raw.unpack_pack hb
  have e : encode q i = ({ r with gs := Encode.b1 q.sense, gp := q.pred.val } : Raw).pack := by
    unfold encode; rw [hr]
  have n0 : encode q i ≠ 0 := by rw [e]; unfold Raw.pack; simp only; omega
  have n1 : encode q i ≠ 2 ^ 96 - 1 := by
    intro h
    have : (Raw.unpack (encode q i)).maj = r.maj := by rw [e, hu]
    rw [h] at this
    simp [Raw.unpack] at this
    omega
  unfold decode
  have z0 : (encode q i == 0) = false := by simpa using n0
  have z1 : (encode q i == 2 ^ 96 - 1) = false := by simpa using n1
  have hw' : i.illegal s = none := hw
  rw [z0, z1, e, hu]
  simp only [Bool.or_self, Bool.false_eq_true, if_false, hs, hw', Option.isSome_none, Bool.not_true]
  obtain ⟨sense, pred⟩ := q
  cases sense
  · simp [Encode.b1]
  · have : pred ≠ 0 := by simpa [Guard.ok] using hq
    have h' : pred.val ≠ 0 := fun h => this (Fin.ext h)
    simp [Encode.b1, h']

theorem b1_lt (b : Bool) : Encode.b1 b < 2 := by cases b <;> decide
@[simp] theorem b1_ne (b : Bool) : (Encode.b1 b != 0) = b := by cases b <;> rfl
theorem vm_le (k : LaneMask) : Encode.vm k ≤ 493568 := by
  rcases k with _ | ⟨m, s⟩
  · decide
  · have := m.isLt; have := b1_lt s; simp only [Encode.vm]; omega
theorem vo_le (o : VOpt) : Encode.vo o ≤ 510464 := by
  obtain ⟨k, r, s⟩ := o
  have := r.isLt; have := b1_lt s; have := vm_le k
  simp only [Encode.vo]; omega
theorem mm_le (k : LaneMask) : Encode.mm k ≤ 126976 := by
  rcases k with _ | ⟨m, s⟩
  · decide
  · have := m.isLt; have := b1_lt s; simp only [Encode.mm]; omega
theorem scX_lt (k : ScaleOp) : Encode.scX k ≤ 32 := by cases k <;> simp [Encode.scX]
theorem scI_lt (k : ScaleOp) : Encode.scI k < 2 ^ 16 := by
  cases k with
  | auto => decide
  | given s => have := s.isLt; simp only [Encode.scI]; omega

/-! ### Format E (R167): the fields of X, from a mask, rnd and sat with further bits `e` of ix, sub and the conversion
fields. -/

section E
variable (maj gs gp mn A B C D T I : Nat)

theorem vmk_some (m : MReg) (s : Bool) (e : Nat) (h : e < 2 ^ 11 ∨ ∃ r : Fin 5, ∃ f, f < 2 ^ 11 ∧ e = r.val * 2 ^ 12 + f) :
    Decode.vmask ⟨maj, gs, gp, mn, A, B, C, D, T, Encode.vm (some (m, s)) + e, I⟩ = some (m, s) := by
  have := m.isLt; have := b1_lt s
  have e1 : bits (Encode.vm (some (m, s)) + e) 11 11 = 1 := by
    rcases h with h | ⟨r, f, hf, rfl⟩ <;> simp only [Encode.vm, bits] <;> omega
  have e2 : bits (Encode.vm (some (m, s)) + e) 18 16 = m.val := by
    rcases h with h | ⟨r, f, hf, rfl⟩ <;> simp only [Encode.vm, bits] <;> omega
  have e3 : bits (Encode.vm (some (m, s)) + e) 15 15 = Encode.b1 s := by
    rcases h with h | ⟨r, f, hf, rfl⟩ <;> simp only [Encode.vm, bits] <;> omega
  simp [Decode.vmask, Decode.vmk, Decode.laneMask, e1, e2, e3]

theorem vmk_none (e : Nat) (h : e < 2 ^ 11 ∨ ∃ r : Fin 5, ∃ f, f < 2 ^ 11 ∧ e = r.val * 2 ^ 12 + f) :
    Decode.vmask ⟨maj, gs, gp, mn, A, B, C, D, T, Encode.vm none + e, I⟩ = none := by
  have e1 : bits (Encode.vm none + e) 11 11 = 0 := by
    rcases h with h | ⟨r, f, hf, rfl⟩ <;> simp only [Encode.vm, bits] <;> omega
  simp [Decode.vmask, Decode.vmk, Decode.laneMask, e1]

/-- The lane mask is read back, whatever the bits below it. -/
theorem vmask_add (k : LaneMask) (e : Nat)
    (h : e < 2 ^ 11 ∨ ∃ r : Fin 5, ∃ f, f < 2 ^ 11 ∧ e = r.val * 2 ^ 12 + f) :
    Decode.vmask ⟨maj, gs, gp, mn, A, B, C, D, T, Encode.vm k + e, I⟩ = k := by
  rcases k with _ | ⟨m, s⟩
  · exact vmk_none _ _ _ _ _ _ _ _ _ _ e h
  · exact vmk_some _ _ _ _ _ _ _ _ _ _ m s e h

@[simp] theorem vmask_vm (k : LaneMask) :
    Decode.vmask ⟨maj, gs, gp, mn, A, B, C, D, T, Encode.vm k, I⟩ = k := by
  simpa using vmask_add maj gs gp mn A B C D T I k 0 (.inl (by decide))

/-- Options, with conversion fields `e` below bit 9. -/
theorem vopt_add (o : VOpt) (e : Nat) (h : e < 2 ^ 9) :
    Decode.vopt ⟨maj, gs, gp, mn, A, B, C, D, T, Encode.vo o + e, I⟩ = o := by
  obtain ⟨k, r, s⟩ := o
  have hr := r.isLt; have hs := b1_lt s
  have e1 : Decode.vmask ⟨maj, gs, gp, mn, A, B, C, D, T, Encode.vo ⟨k, r, s⟩ + e, I⟩ = k := by
    have := vmask_add maj gs gp mn A B C D T I k (r.val * 2 ^ 12 + (Encode.b1 s * 2 ^ 9 + e))
      (.inr ⟨r, _, by omega, rfl⟩)
    simpa [Encode.vo, Nat.add_assoc] using this
  have e2 : bits (Encode.vo ⟨k, r, s⟩ + e) 14 12 = r.val := by
    rcases k with _ | ⟨m, t⟩
    · simp only [Encode.vo, Encode.vm, bits]; omega
    · have := m.isLt; have := b1_lt t
      simp only [Encode.vo, Encode.vm, bits]; omega
  have e3 : bits (Encode.vo ⟨k, r, s⟩ + e) 9 9 = Encode.b1 s := by
    rcases k with _ | ⟨m, t⟩
    · simp only [Encode.vo, Encode.vm, bits]; omega
    · have := m.isLt; have := b1_lt t
      simp only [Encode.vo, Encode.vm, bits]; omega
  simp only [Decode.vopt, e1, Decode.vrnd, Decode.vsatBit, e2, e3, b1_ne, VOpt.mk.injEq, true_and, and_true]
  exact Fin.ext (by simp only [Fin.ofNat]; omega)

/-- rnd is read back, with conversion fields `e` below bit 9. -/
theorem rnd_add (o : VOpt) (e : Nat) (h : e < 2 ^ 9) : bits (Encode.vo o + e) 14 12 = o.rnd.val := by
  obtain ⟨k, r, s⟩ := o
  have hr := r.isLt; have hs := b1_lt s
  rcases k with _ | ⟨m, t⟩
  · simp only [Encode.vo, Encode.vm, bits]; omega
  · have := m.isLt; have := b1_lt t
    simp only [Encode.vo, Encode.vm, bits]; omega

@[simp] theorem vopt_vo (o : VOpt) :
    Decode.vopt ⟨maj, gs, gp, mn, A, B, C, D, T, Encode.vo o, I⟩ = o := by
  simpa using vopt_add maj gs gp mn A B C D T I o 0 (by decide)
@[simp] theorem vmask_vo (o : VOpt) :
    Decode.vmask ⟨maj, gs, gp, mn, A, B, C, D, T, Encode.vo o, I⟩ = o.mask :=
  congrArg VOpt.mask (vopt_vo maj gs gp mn A B C D T I o)
@[simp] theorem vrnd_vo (o : VOpt) :
    Decode.vrnd ⟨maj, gs, gp, mn, A, B, C, D, T, Encode.vo o, I⟩ = o.rnd :=
  congrArg VOpt.rnd (vopt_vo maj gs gp mn A B C D T I o)
@[simp] theorem vsat_vo (o : VOpt) :
    Decode.vsatBit ⟨maj, gs, gp, mn, A, B, C, D, T, Encode.vo o, I⟩ = o.sat :=
  congrArg VOpt.sat (vopt_vo maj gs gp mn A B C D T I o)
@[simp] theorem rndOk_vo (o : VOpt) :
    Decode.rndOk ⟨maj, gs, gp, mn, A, B, C, D, T, Encode.vo o, I⟩ = true := by
  have := rnd_add o 0 (by decide); have := o.rnd.isLt
  simp_all [Decode.rndOk]

/-- The bits that must be zero: only rnd, where it is not used. -/
@[simp] theorem vz_vo (o : VOpt) (fl : Bool) :
    Decode.vz ⟨maj, gs, gp, mn, A, B, C, D, T, Encode.vo o, I⟩ true fl false false false =
      if fl then 0 else o.rnd.val := by
  have h := rnd_add o 0 (by decide)
  simp only [Nat.add_zero] at h
  have hz : bits (Encode.vo o) 10 10 = 0 ∧ bits (Encode.vo o) 8 8 = 0 ∧ bits (Encode.vo o) 7 6 = 0 ∧
      bits (Encode.vo o) 5 0 = 0 ∧ (bits (Encode.vo o) 11 11 = 0 → bits (Encode.vo o) 18 15 = 0) := by
    obtain ⟨k, r, s⟩ := o
    have hr := r.isLt; have hs := b1_lt s
    rcases k with _ | ⟨m, t⟩
    · simp only [Encode.vo, Encode.vm, bits]; omega
    · have := m.isLt; have := b1_lt t
      simp only [Encode.vo, Encode.vm, bits]; omega
  obtain ⟨h1, h2, h3, h4, h5⟩ := hz
  simp only [Decode.vz, Decode.vmk, h, h1, h2, h3, h4]
  by_cases hk : bits (Encode.vo o) 11 11 = 0
  · cases fl <;> simp [hk, h5 hk]
  · cases fl <;> simp [hk]

/-- A mask alone, with further bits of X below bit 11. -/
theorem vm_bits (k : LaneMask) (e : Nat) (h : e < 2 ^ 11) :
    bits (Encode.vm k + e) 14 12 = 0 ∧ bits (Encode.vm k + e) 10 10 = e / 2 ^ 10 ∧
    bits (Encode.vm k + e) 9 9 = e / 2 ^ 9 % 2 ∧ bits (Encode.vm k + e) 8 8 = e / 2 ^ 8 % 2 ∧
    bits (Encode.vm k + e) 7 6 = e / 2 ^ 6 % 4 ∧ bits (Encode.vm k + e) 5 0 = e % 64 ∧
    (bits (Encode.vm k + e) 11 11 = 0 → bits (Encode.vm k + e) 18 15 = 0) := by
  rcases k with _ | ⟨m, t⟩
  · simp only [Encode.vm, bits]; omega
  · have := m.isLt; have := b1_lt t
    simp only [Encode.vm, bits]; omega

theorem vz_add (k : LaneMask) (e : Nat) (ix sub : Bool) (h : e < 2 ^ 11) (h8 : e / 2 ^ 8 % 2 = 0) (h5 : e % 64 = 0)
    (hi : ix = true ∨ e / 2 ^ 10 = 0) (hs : sub = true ∨ e / 2 ^ 6 % 4 = 0) :
    Decode.vz ⟨maj, gs, gp, mn, A, B, C, D, T, Encode.vm k + e, I⟩ true false ix sub false = 0 := by
  obtain ⟨b1, b2, -, b4, b5, b6, b7⟩ := vm_bits k e h
  simp only [Decode.vz, Decode.vmk, b1, b2, b4, b5, b6, h8, h5]
  by_cases hk : bits (Encode.vm k + e) 11 11 = 0
  · rcases hi with rfl | hi <;> rcases hs with rfl | hs <;> simp_all
  · rcases hi with rfl | hi <;> rcases hs with rfl | hs <;> simp_all

@[simp] theorem vz_vm (k : LaneMask) :
    Decode.vz ⟨maj, gs, gp, mn, A, B, C, D, T, Encode.vm k, I⟩ true false false false false = 0 := by
  simpa using vz_add maj gs gp mn A B C D T I k 0 false false (by decide) (by decide) (by decide) (.inr rfl) (.inr rfl)
@[simp] theorem vz_ix (k : LaneMask) :
    Decode.vz ⟨maj, gs, gp, mn, A, B, C, D, T, Encode.vm k, I⟩ true false true false false = 0 := by
  simpa using vz_add maj gs gp mn A B C D T I k 0 true false (by decide) (by decide) (by decide) (.inr rfl) (.inr rfl)
@[simp] theorem vz_ix1 (k : LaneMask) :
    Decode.vz ⟨maj, gs, gp, mn, A, B, C, D, T, Encode.vm k + 1024, I⟩ true false true false false = 0 :=
  vz_add maj gs gp mn A B C D T I k 1024 true false (by decide) (by decide) (by decide) (.inl rfl) (.inr rfl)
@[simp] theorem vz_sat (k : LaneMask) (s : Bool) :
    Decode.vz ⟨maj, gs, gp, mn, A, B, C, D, T, Encode.vm k + Encode.b1 s * 512, I⟩ true false false false false = 0 :=
  vz_add maj gs gp mn A B C D T I k _ false false (by cases s <;> decide) (by cases s <;> decide)
    (by cases s <;> decide) (.inr (by cases s <;> decide)) (.inr (by cases s <;> decide))
@[simp] theorem vz_sub (k : LaneMask) (n : CntOp) :
    Decode.vz ⟨maj, gs, gp, mn, A, B, C, D, T, Encode.vm k + n.code * 64, I⟩ true false false true false = 0 :=
  vz_add maj gs gp mn A B C D T I k _ false true (by cases n <;> decide) (by cases n <;> decide)
    (by cases n <;> decide) (.inr (by cases n <;> decide)) (.inl rfl)
@[simp] theorem sub_vm (k : LaneMask) (n : CntOp) : bits (Encode.vm k + n.code * 64) 7 6 = n.code := by
  have := (vm_bits k (n.code * 64) (by cases n <;> decide)).2.2.2.2.1
  rw [this]; cases n <;> decide
@[simp] theorem vmask_sub (k : LaneMask) (n : CntOp) :
    Decode.vmask ⟨maj, gs, gp, mn, A, B, C, D, T, Encode.vm k + n.code * 64, I⟩ = k :=
  vmask_add maj gs gp mn A B C D T I k _ (.inl (by cases n <;> decide))
@[simp] theorem vsat_sub (k : LaneMask) (n : CntOp) :
    Decode.vsatBit ⟨maj, gs, gp, mn, A, B, C, D, T, Encode.vm k + n.code * 64, I⟩ = false := by
  have := (vm_bits k (n.code * 64) (by cases n <;> decide)).2.2.1
  unfold Decode.vsatBit; simp only [this]; cases n <;> rfl
@[simp] theorem vmask_ix1 (k : LaneMask) :
    Decode.vmask ⟨maj, gs, gp, mn, A, B, C, D, T, Encode.vm k + 1024, I⟩ = k :=
  vmask_add maj gs gp mn A B C D T I k _ (.inl (by decide))
@[simp] theorem vmask_sat (k : LaneMask) (s : Bool) :
    Decode.vmask ⟨maj, gs, gp, mn, A, B, C, D, T, Encode.vm k + Encode.b1 s * 512, I⟩ = k :=
  vmask_add maj gs gp mn A B C D T I k _ (.inl (by cases s <;> decide))
@[simp] theorem vsat_vm (k : LaneMask) :
    Decode.vsatBit ⟨maj, gs, gp, mn, A, B, C, D, T, Encode.vm k, I⟩ = false := by
  have := (vm_bits k 0 (by decide)).2.2.1
  unfold Decode.vsatBit; simp only [Nat.add_zero] at this; simp only [this]; rfl
@[simp] theorem vsat_ix1 (k : LaneMask) :
    Decode.vsatBit ⟨maj, gs, gp, mn, A, B, C, D, T, Encode.vm k + 1024, I⟩ = false := by
  have := (vm_bits k 1024 (by decide)).2.2.1
  unfold Decode.vsatBit; simp only [this]; rfl
@[simp] theorem vsat_sat (k : LaneMask) (s : Bool) :
    Decode.vsatBit ⟨maj, gs, gp, mn, A, B, C, D, T, Encode.vm k + Encode.b1 s * 512, I⟩ = s := by
  have := (vm_bits k (Encode.b1 s * 512) (by cases s <;> decide)).2.2.1
  unfold Decode.vsatBit; simp only [this]; cases s <;> rfl
@[simp] theorem vix_vm (k : LaneMask) : Decode.vix ⟨maj, gs, gp, mn, A, B, C, D, T, Encode.vm k, I⟩ = false := by
  have := (vm_bits k 0 (by decide)).2.1
  unfold Decode.vix; simp only [Nat.add_zero] at this; simp only [this]; rfl
@[simp] theorem vix_ix1 (k : LaneMask) :
    Decode.vix ⟨maj, gs, gp, mn, A, B, C, D, T, Encode.vm k + 1024, I⟩ = true := by
  have := (vm_bits k 1024 (by decide)).2.1
  unfold Decode.vix; simp only [this]; rfl

end E

/-- Bits of the options that a conversion does not use for its own fields. -/
theorem vo_bits (o : VOpt) : Encode.vo o % 512 = 0 ∧ Encode.vo o / 1024 % 2 = 0 ∧
    (Encode.vo o / 2048 % 2 = 0 → Encode.vo o / 32768 % 16 = 0) := by
  obtain ⟨k, r, s⟩ := o
  have hr := r.isLt; have hs := b1_lt s
  rcases k with _ | ⟨m, t⟩
  · simp only [Encode.vo, Encode.vm]; omega
  · have := m.isLt; have := b1_lt t
    simp only [Encode.vo, Encode.vm]; omega

/-! ### Format M (R45, R219) -/

section M
variable (maj gs gp mn A C aux : Nat) (m : Addr) (n : BaseAddr)

theorem tyM_eq (B C D I t g : Nat) (ht : t < 32) (ha : aux < 2 ^ 17) :
    Decode.tyM ⟨maj, gs, gp, mn, A, B, C, D, g * 8 + t / 4, t % 4 * 131072 + aux, I⟩ = t := by
  simp only [Decode.tyM]; omega
theorem auxM_eq (B C D I T t : Nat) (ha : aux < 2 ^ 17) :
    Decode.auxM ⟨maj, gs, gp, mn, A, B, C, D, T, t * 131072 + aux, I⟩ = aux := by
  simp only [Decode.auxM]; omega
theorem tyM_zero (B C D I t g : Nat) (ht : t < 32) :
    Decode.tyM ⟨maj, gs, gp, mn, A, B, C, D, g * 8 + t / 4, t % 4 * 131072, I⟩ = t := by
  simp only [Decode.tyM]; omega
theorem auxM_zero (B C D I T t : Nat) :
    Decode.auxM ⟨maj, gs, gp, mn, A, B, C, D, T, t * 131072, I⟩ = 0 := by
  simp only [Decode.auxM]; omega
theorem addr_eq (T X : Nat) (ht : T / 8 = m.gate.val) :
    Decode.addr ⟨maj, gs, gp, mn, A, m.base.val, m.idx.val, m.nu.val, T, X, m.off.toNat⟩ = m := by
  simp [Decode.addr, ht]
theorem baseAddr_eq (T X : Nat) (ht : T / 8 = n.gate.val) :
    Decode.baseAddr ⟨maj, gs, gp, mn, A, n.base.val, C, n.nu.val, T, X, n.off.toNat⟩ = n := by
  simp [Decode.baseAddr, ht]

/-- The mask of a vector memory form is read back; `e` are the bits below it. -/
theorem maskM_eq (k : LaneMask) (B C D I T t e : Nat) (he : e < 2 ^ 12) :
    Decode.maskM ⟨maj, gs, gp, mn, A, B, C, D, T, t * 131072 + (Encode.mm k + e), I⟩ = k ∧
    Decode.maskMz ⟨maj, gs, gp, mn, A, B, C, D, T, t * 131072 + (Encode.mm k + e), I⟩ = 0 ∧
    (Encode.mm k + e) % 2 ^ 12 = e := by
  rcases k with _ | ⟨m, s⟩
  · have e1 : bits (t * 131072 + (Encode.mm none + e)) 16 16 = 0 := by simp only [Encode.mm, bits]; omega
    have e2 : bits (t * 131072 + (Encode.mm none + e)) 15 12 = 0 := by simp only [Encode.mm, bits]; omega
    refine ⟨?_, ?_, by simp only [Encode.mm]; omega⟩
    · simp only [Decode.maskM, e1, Decode.laneMask]; rfl
    · simp only [Decode.maskMz, e1, e2]; rfl
  · have := m.isLt; have := b1_lt s
    have e1 : bits (t * 131072 + (Encode.mm (some (m, s)) + e)) 16 16 = 1 := by simp only [Encode.mm, bits]; omega
    have e2 : bits (t * 131072 + (Encode.mm (some (m, s)) + e)) 15 13 = m.val := by simp only [Encode.mm, bits]; omega
    have e3 : bits (t * 131072 + (Encode.mm (some (m, s)) + e)) 12 12 = Encode.b1 s := by
      simp only [Encode.mm, bits]; omega
    refine ⟨?_, ?_, by simp only [Encode.mm]; omega⟩
    · simp [Decode.maskM, e1, e2, e3, Decode.laneMask]
    · simp [Decode.maskMz, e1]

theorem maskM_zero (k : LaneMask) (B C D I T t : Nat) :
    Decode.maskM ⟨maj, gs, gp, mn, A, B, C, D, T, t * 131072 + Encode.mm k, I⟩ = k := by
  simpa using (maskM_eq maj gs gp mn A k B C D I T t 0 (by decide)).1
theorem maskMz_zero (k : LaneMask) (B C D I T t : Nat) :
    Decode.maskMz ⟨maj, gs, gp, mn, A, B, C, D, T, t * 131072 + Encode.mm k, I⟩ = 0 := by
  simpa using (maskM_eq maj gs gp mn A k B C D I T t 0 (by decide)).2.1
theorem maskM_add (k : LaneMask) (B C D I T t : Nat) (x : Bool) :
    Decode.maskM ⟨maj, gs, gp, mn, A, B, C, D, T, t * 131072 + (Encode.mm k + Encode.b1 x * 2048), I⟩ = k :=
  (maskM_eq maj gs gp mn A k B C D I T t _ (by cases x <;> decide)).1
theorem maskMz_add (k : LaneMask) (B C D I T t : Nat) (x : Bool) :
    Decode.maskMz ⟨maj, gs, gp, mn, A, B, C, D, T, t * 131072 + (Encode.mm k + Encode.b1 x * 2048), I⟩ = 0 :=
  (maskM_eq maj gs gp mn A k B C D I T t _ (by cases x <;> decide)).2.1
theorem mm_mod (k : LaneMask) : Encode.mm k % 4096 = 0 := by
  simpa using (maskM_eq 0 0 0 0 0 k 0 0 0 0 0 0 0 (by decide)).2.2
theorem mm_mod_half (k : LaneMask) : Encode.mm k % 2048 = 0 := by have := mm_mod k; omega
theorem mm_mod_ix (k : LaneMask) (x : Bool) : (Encode.mm k + Encode.b1 x * 2048) % 2048 = 0 := by
  have := mm_mod k; omega
theorem mm_ix (k : LaneMask) (x : Bool) : bits (Encode.mm k + Encode.b1 x * 2048) 11 11 = Encode.b1 x := by
  have := mm_mod k; have := b1_lt x
  simp only [bits]; omega

end M

/-- imm64 of format W is read back (R45). -/
theorem imm64_fW (maj gs gp mn A B x : Nat) (h : x < 2 ^ 64) :
    Decode.imm64 ⟨maj, gs, gp, mn, A, B, x / 4611686018427387904, x / 72057594037927936 % 64,
      x / 2251799813685248 % 32, x / 4294967296 % 524288, x % 4294967296⟩ = x := by
  simp only [Decode.imm64]; omega
/-- The scale operand is read back (R184). -/
theorem scaleOp_eq (maj gs gp mn A B C D T e q : Nat) (sc : ScaleOp) (he : e % 64 < 32) (hq : q < 256) :
    Decode.scaleOp ⟨maj, gs, gp, mn, A, B, C, D, T, e + Encode.scX sc, Encode.scI sc + q⟩ = sc ∧
    Decode.scalez ⟨maj, gs, gp, mn, A, B, C, D, T, e + Encode.scX sc, Encode.scI sc + q⟩ = 0 := by
  cases sc with
  | auto =>
    have h1 : bits (e + Encode.scX .auto) 5 5 = 1 := by simp only [Encode.scX, bits]; omega
    have h2 : bits (Encode.scI .auto + q) 15 8 = 0 := by simp only [Encode.scI, bits]; omega
    exact ⟨by simp [Decode.scaleOp, h1], by simp [Decode.scalez, h1, h2]⟩
  | given s =>
    have h1 : bits (e + Encode.scX (.given s)) 5 5 = 0 := by simp only [Encode.scX, bits]; omega
    have h2 : bits (Encode.scI (.given s) + q) 15 8 = s.toNat := by
      have := s.isLt
      simp only [Encode.scI, bits]; omega
    exact ⟨by simp [Decode.scaleOp, h1, h2], by simp [Decode.scalez, h1]⟩

end Sys2Proof.Laws
end

