-- ==== Sys2Proof/Laws/PerInstr.lean ====
section
/-! SUPPORT. The family `Word` of statements about every instruction: the word that the encoder writes for a well-formed
instruction, under any guard that a word can carry, decodes to that guard and that instruction. -/

set_option linter.all false
set_option linter.unusedSimpArgs false
namespace Sys2Proof.Laws

/-- `rgn` carries no guard (R67). -/
def Word.guardable : Instr → Bool
  | .rgn .. => false
  | _ => true

/-- A well-formed instruction that has a word is read back from it. -/
def Word.Statement (i : Instr) : Prop :=
  ∀ (s : Nat) (q : Guard), i.hasWord = true → i.wf s → q.ok = true → (Word.guardable i = true ∨ q = Guard.none) →
    decode s (encode q i) = .ok (q, i)

theorem badVec_rnd {t : Ty} {ok so : Bool} {o : VOpt} (h : Instr.badVec t ok so o = none) :
    (if (!t.isInt) = true then 0 else o.rnd.val) = 0 := by
  by_cases hi : t.isInt = true
  · by_cases hr : o.rnd = 0
    · simp [hr]
    · simp [Instr.badVec, firstReason, hi, hr] at h
  · simp [hi]

theorem isFloat_rnd {t : Ty} (h : t.isFloat = true) (n : Nat) : (if (!t.isInt) = true then 0 else n) = 0 := by
  cases t <;> simp_all [Ty.isFloat, Ty.isInt, Ty.isI, Ty.isZ]

theorem cvt_rnd {d s : Ty} {a b : VReg} {p : Fin 16} {sc : ScaleOp} {o : VOpt} {n : Nat}
    (h : Instr.wf n (.vcvt d s a b p sc o)) (hd : d.isInt = true) (hs : s.isInt = true) : o.rnd = 0 := by
  have h' : Instr.badCvt d s p.val sc o = none := h
  refine Decidable.byContradiction fun hr => ?_
  simp [Instr.badCvt, firstReason, hd, hs, hr] at h'

theorem badType_ok {ok : Bool} (h : Instr.badType ok = none) : ok = true := by
  cases ok <;> simp_all [Instr.badType, firstReason]


theorem Word.nop : Word.Statement (.nop) := by
  intro sl gd _ hw hq hg
  refine decode_of sl gd rfl ?_ (by simp [Encode.z]) (by simp [Encode.z]) ?_ hq hw
  · have := gd.pred.isLt; have := b1_lt gd.sense
    simp only [Raw.inRange, Encode.z]; omega
  · simp (disch := omega) [bits, Nat.div_eq_of_lt, Nat.mod_eq_of_lt, Encode.z, Decode.skel, Decode.system,
      Decode.mk, Decode.one, g_iff, -Fin.ofNat_eq_cast, fin_iff, bv_iff]
    try omega

theorem Word.brk (n : BitVec 16) : Word.Statement (.brk n) := by
  intro sl gd _ hw hq hg
  have := n.isLt
  refine decode_of sl gd rfl ?_ (by simp [Encode.fK]) (by simp [Encode.fK]) ?_ hq hw
  · have := gd.pred.isLt; have := b1_lt gd.sense
    simp only [Raw.inRange, Encode.fK]; omega
  · simp (disch := omega) [bits, Nat.div_eq_of_lt, Nat.mod_eq_of_lt, Encode.fK, Decode.skel, Decode.system,
      Decode.mk, Decode.one, g_iff, -Fin.ofNat_eq_cast, fin_iff, bv_iff]
    try omega

theorem Word.trap (n : BitVec 16) : Word.Statement (.trap n) := by
  intro sl gd _ hw hq hg
  have := n.isLt
  refine decode_of sl gd rfl ?_ (by simp [Encode.fK]) (by simp [Encode.fK]) ?_ hq hw
  · have := gd.pred.isLt; have := b1_lt gd.sense
    simp only [Raw.inRange, Encode.fK]; omega
  · simp (disch := omega) [bits, Nat.div_eq_of_lt, Nat.mod_eq_of_lt, Encode.fK, Decode.skel, Decode.system,
      Decode.mk, Decode.one, g_iff, -Fin.ofNat_eq_cast, fin_iff, bv_iff]
    try omega

theorem Word.sret : Word.Statement (.sret) := by
  intro sl gd _ hw hq hg
  refine decode_of sl gd rfl ?_ (by simp [Encode.z]) (by simp [Encode.z]) ?_ hq hw
  · have := gd.pred.isLt; have := b1_lt gd.sense
    simp only [Raw.inRange, Encode.z]; omega
  · simp (disch := omega) [bits, Nat.div_eq_of_lt, Nat.mod_eq_of_lt, Encode.z, Decode.skel, Decode.system,
      Decode.mk, Decode.one, g_iff, -Fin.ofNat_eq_cast, fin_iff, bv_iff]
    try omega

theorem Word.sys (n : BitVec 16) : Word.Statement (.sys n) := by
  intro sl gd _ hw hq hg
  have := n.isLt
  refine decode_of sl gd rfl ?_ (by simp [Encode.fK]) (by simp [Encode.fK]) ?_ hq hw
  · have := gd.pred.isLt; have := b1_lt gd.sense
    simp only [Raw.inRange, Encode.fK]; omega
  · simp (disch := omega) [bits, Nat.div_eq_of_lt, Nat.mod_eq_of_lt, Encode.fK, Decode.skel, Decode.system,
      Decode.mk, Decode.one, g_iff, -Fin.ofNat_eq_cast, fin_iff, bv_iff]
    try omega

theorem Word.rgn (gin : BitVec 64) (lcin : BitVec 3) : Word.Statement (.rgn gin lcin) := by
  intro sl gd _ hw hq hg
  have := gin.isLt; have := lcin.isLt
  refine decode_of sl gd rfl ?_ (by simp [Encode.fW]) (by simp [Encode.fW]) ?_ hq hw
  · have := gd.pred.isLt; have := b1_lt gd.sense
    simp only [Raw.inRange, Encode.fW]; omega
  · obtain rfl : gd = Guard.none := by simpa [Word.guardable] using hg
    have he : gin.toNat % 2 = 0 := by
      refine Decidable.byContradiction fun h => ?_
      have h1 : gin.toNat % 2 = 1 := by omega
      have hw' : firstReason (gin.toNat % 2 != 0) false
          (16 < Instr.popLow gin.toNat 64 + Instr.popLow lcin.toNat 3) = none := hw
      simp [firstReason, h1] at hw'
    simp (disch := omega) [Encode.fW, Decode.skel, Decode.system, Decode.mk, Decode.one, imm64_fW, Guard.none,
        Encode.b1,
      Nat.div_eq_of_lt]
    omega

theorem Word.fence : Word.Statement (.fence) := by
  intro sl gd _ hw hq hg
  refine decode_of sl gd rfl ?_ (by simp [Encode.z]) (by simp [Encode.z]) ?_ hq hw
  · have := gd.pred.isLt; have := b1_lt gd.sense
    simp only [Raw.inRange, Encode.z]; omega
  · simp (disch := omega) [bits, Nat.div_eq_of_lt, Nat.mod_eq_of_lt, Encode.z, Decode.skel, Decode.system,
      Decode.mk, Decode.one, g_iff, -Fin.ofNat_eq_cast, fin_iff, bv_iff]
    try omega

theorem Word.fenceAcq : Word.Statement (.fenceAcq) := by
  intro sl gd _ hw hq hg
  refine decode_of sl gd rfl ?_ (by simp [Encode.z]) (by simp [Encode.z]) ?_ hq hw
  · have := gd.pred.isLt; have := b1_lt gd.sense
    simp only [Raw.inRange, Encode.z]; omega
  · simp (disch := omega) [bits, Nat.div_eq_of_lt, Nat.mod_eq_of_lt, Encode.z, Decode.skel, Decode.system,
      Decode.mk, Decode.one, g_iff, -Fin.ofNat_eq_cast, fin_iff, bv_iff]
    try omega

theorem Word.fenceRel : Word.Statement (.fenceRel) := by
  intro sl gd _ hw hq hg
  refine decode_of sl gd rfl ?_ (by simp [Encode.z]) (by simp [Encode.z]) ?_ hq hw
  · have := gd.pred.isLt; have := b1_lt gd.sense
    simp only [Raw.inRange, Encode.z]; omega
  · simp (disch := omega) [bits, Nat.div_eq_of_lt, Nat.mod_eq_of_lt, Encode.z, Decode.skel, Decode.system,
      Decode.mk, Decode.one, g_iff, -Fin.ofNat_eq_cast, fin_iff, bv_iff]
    try omega

theorem Word.fenceAr : Word.Statement (.fenceAr) := by
  intro sl gd _ hw hq hg
  refine decode_of sl gd rfl ?_ (by simp [Encode.z]) (by simp [Encode.z]) ?_ hq hw
  · have := gd.pred.isLt; have := b1_lt gd.sense
    simp only [Raw.inRange, Encode.z]; omega
  · simp (disch := omega) [bits, Nat.div_eq_of_lt, Nat.mod_eq_of_lt, Encode.z, Decode.skel, Decode.system,
      Decode.mk, Decode.one, g_iff, -Fin.ofNat_eq_cast, fin_iff, bv_iff]
    try omega

theorem Word.xf (c1 c2 : Path) : Word.Statement (.xf c1 c2) := by
  intro sl gd _ hw hq hg
  have := path_code_lt c1; have := path_code_lt c2
  refine decode_of sl gd rfl ?_ (by simp [Encode.fK]) (by simp [Encode.fK]) ?_ hq hw
  · have := gd.pred.isLt; have := b1_lt gd.sense
    simp only [Raw.inRange, Encode.fK]; omega
  · have h1 : bits (c2.code * 8 + c1.code) 2 0 = c1.code := by simp only [bits]; omega
    have h2 : bits (c2.code * 8 + c1.code) 5 3 = c2.code := by simp only [bits]; omega
    simp (disch := omega) [Encode.fK, Decode.skel, Decode.system, Decode.mk, Decode.one, h1, h2, path_code_lt,
      Nat.div_eq_of_lt]

theorem Word.wait (l s c t : Fin 16) : Word.Statement (.wait l s c t) := by
  intro sl gd _ hw hq hg
  have := l.isLt; have := s.isLt; have := c.isLt; have := t.isLt
  refine decode_of sl gd rfl ?_ (by simp [Encode.fK]) (by simp [Encode.fK]) ?_ hq hw
  · have := gd.pred.isLt; have := b1_lt gd.sense
    simp only [Raw.inRange, Encode.fK]; omega
  · simp (disch := omega) [bits, Nat.div_eq_of_lt, Nat.mod_eq_of_lt, Encode.fK, Decode.skel, Decode.system,
      Decode.mk, Decode.one, g_iff, -Fin.ofNat_eq_cast, fin_iff, bv_iff]
    try omega

theorem Word.susFull (b : GReg) : Word.Statement (.susFull b) := by
  intro sl gd _ hw hq hg
  have := b.isLt
  refine decode_of sl gd rfl ?_ (by simp [Encode.fI]) (by simp [Encode.fI]) ?_ hq hw
  · have := gd.pred.isLt; have := b1_lt gd.sense
    simp only [Raw.inRange, Encode.fI]; omega
  · simp (disch := omega) [bits, Nat.div_eq_of_lt, Nat.mod_eq_of_lt, Encode.fI, Decode.skel, Decode.system,
      Decode.mk, Decode.one, g_iff, -Fin.ofNat_eq_cast, fin_iff, bv_iff]
    try omega

theorem Word.susEmpty (b : GReg) : Word.Statement (.susEmpty b) := by
  intro sl gd _ hw hq hg
  have := b.isLt
  refine decode_of sl gd rfl ?_ (by simp [Encode.fI]) (by simp [Encode.fI]) ?_ hq hw
  · have := gd.pred.isLt; have := b1_lt gd.sense
    simp only [Raw.inRange, Encode.fI]; omega
  · simp (disch := omega) [bits, Nat.div_eq_of_lt, Nat.mod_eq_of_lt, Encode.fI, Decode.skel, Decode.system,
      Decode.mk, Decode.one, g_iff, -Fin.ofNat_eq_cast, fin_iff, bv_iff]
    try omega

theorem Word.susJoin (b : GReg) : Word.Statement (.susJoin b) := by
  intro sl gd _ hw hq hg
  have := b.isLt
  refine decode_of sl gd rfl ?_ (by simp [Encode.fI]) (by simp [Encode.fI]) ?_ hq hw
  · have := gd.pred.isLt; have := b1_lt gd.sense
    simp only [Raw.inRange, Encode.fI]; omega
  · simp (disch := omega) [bits, Nat.div_eq_of_lt, Nat.mod_eq_of_lt, Encode.fI, Decode.skel, Decode.system,
      Decode.mk, Decode.one, g_iff, -Fin.ofNat_eq_cast, fin_iff, bv_iff]
    try omega

theorem Word.fin : Word.Statement (.fin) := by
  intro sl gd _ hw hq hg
  refine decode_of sl gd rfl ?_ (by simp [Encode.z]) (by simp [Encode.z]) ?_ hq hw
  · have := gd.pred.isLt; have := b1_lt gd.sense
    simp only [Raw.inRange, Encode.z]; omega
  · simp (disch := omega) [bits, Nat.div_eq_of_lt, Nat.mod_eq_of_lt, Encode.z, Decode.skel, Decode.system,
      Decode.mk, Decode.one, g_iff, -Fin.ofNat_eq_cast, fin_iff, bv_iff]
    try omega

theorem Word.yld : Word.Statement (.yld) := by
  intro sl gd _ hw hq hg
  refine decode_of sl gd rfl ?_ (by simp [Encode.z]) (by simp [Encode.z]) ?_ hq hw
  · have := gd.pred.isLt; have := b1_lt gd.sense
    simp only [Raw.inRange, Encode.z]; omega
  · simp (disch := omega) [bits, Nat.div_eq_of_lt, Nat.mod_eq_of_lt, Encode.z, Decode.skel, Decode.system,
      Decode.mk, Decode.one, g_iff, -Fin.ofNat_eq_cast, fin_iff, bv_iff]
    try omega

theorem Word.csrr (a : GReg) (n : BitVec 12) : Word.Statement (.csrr a n) := by
  intro sl gd _ hw hq hg
  have := a.isLt; have := n.isLt
  refine decode_of sl gd rfl ?_ (by simp [Encode.fI]) (by simp [Encode.fI]) ?_ hq hw
  · have := gd.pred.isLt; have := b1_lt gd.sense
    simp only [Raw.inRange, Encode.fI]; omega
  · simp (disch := omega) [bits, Nat.div_eq_of_lt, Nat.mod_eq_of_lt, Encode.fI, Decode.skel, Decode.system,
      Decode.mk, Decode.one, g_iff, -Fin.ofNat_eq_cast, fin_iff, bv_iff]
    try omega

theorem Word.csrw (n : BitVec 12) (b : GReg) : Word.Statement (.csrw n b) := by
  intro sl gd _ hw hq hg
  have := n.isLt; have := b.isLt
  refine decode_of sl gd rfl ?_ (by simp [Encode.fI]) (by simp [Encode.fI]) ?_ hq hw
  · have := gd.pred.isLt; have := b1_lt gd.sense
    simp only [Raw.inRange, Encode.fI]; omega
  · simp (disch := omega) [bits, Nat.div_eq_of_lt, Nat.mod_eq_of_lt, Encode.fI, Decode.skel, Decode.system,
      Decode.mk, Decode.one, g_iff, -Fin.ofNat_eq_cast, fin_iff, bv_iff]
    try omega

theorem Word.csrx (a : GReg) (n : BitVec 12) (b : GReg) : Word.Statement (.csrx a n b) := by
  intro sl gd _ hw hq hg
  have := a.isLt; have := n.isLt; have := b.isLt
  refine decode_of sl gd rfl ?_ (by simp [Encode.fI]) (by simp [Encode.fI]) ?_ hq hw
  · have := gd.pred.isLt; have := b1_lt gd.sense
    simp only [Raw.inRange, Encode.fI]; omega
  · simp (disch := omega) [bits, Nat.div_eq_of_lt, Nat.mod_eq_of_lt, Encode.fI, Decode.skel, Decode.system,
      Decode.mk, Decode.one, g_iff, -Fin.ofNat_eq_cast, fin_iff, bv_iff]
    try omega

theorem Word.csrs (a : GReg) (n : BitVec 12) (b : GReg) : Word.Statement (.csrs a n b) := by
  intro sl gd _ hw hq hg
  have := a.isLt; have := n.isLt; have := b.isLt
  refine decode_of sl gd rfl ?_ (by simp [Encode.fI]) (by simp [Encode.fI]) ?_ hq hw
  · have := gd.pred.isLt; have := b1_lt gd.sense
    simp only [Raw.inRange, Encode.fI]; omega
  · simp (disch := omega) [bits, Nat.div_eq_of_lt, Nat.mod_eq_of_lt, Encode.fI, Decode.skel, Decode.system,
      Decode.mk, Decode.one, g_iff, -Fin.ofNat_eq_cast, fin_iff, bv_iff]
    try omega

theorem Word.csrc (a : GReg) (n : BitVec 12) (b : GReg) : Word.Statement (.csrc a n b) := by
  intro sl gd _ hw hq hg
  have := a.isLt; have := n.isLt; have := b.isLt
  refine decode_of sl gd rfl ?_ (by simp [Encode.fI]) (by simp [Encode.fI]) ?_ hq hw
  · have := gd.pred.isLt; have := b1_lt gd.sense
    simp only [Raw.inRange, Encode.fI]; omega
  · simp (disch := omega) [bits, Nat.div_eq_of_lt, Nat.mod_eq_of_lt, Encode.fI, Decode.skel, Decode.system,
      Decode.mk, Decode.one, g_iff, -Fin.ofNat_eq_cast, fin_iff, bv_iff]
    try omega

theorem Word.add (a b c : GReg) : Word.Statement (.add a b c) := by
  intro sl gd _ hw hq hg
  have := a.isLt; have := b.isLt; have := c.isLt
  refine decode_of sl gd rfl ?_ (by simp [Encode.fG]) (by simp [Encode.fG]) ?_ hq hw
  · have := gd.pred.isLt; have := b1_lt gd.sense
    simp only [Raw.inRange, Encode.fG]; omega
  · simp (disch := omega) [bits, Nat.div_eq_of_lt, Nat.mod_eq_of_lt, Encode.fG, Decode.skel, Decode.scalar,
      Decode.mk, Decode.one, g_iff, -Fin.ofNat_eq_cast, fin_iff, bv_iff]
    try omega

theorem Word.sub (a b c : GReg) : Word.Statement (.sub a b c) := by
  intro sl gd _ hw hq hg
  have := a.isLt; have := b.isLt; have := c.isLt
  refine decode_of sl gd rfl ?_ (by simp [Encode.fG]) (by simp [Encode.fG]) ?_ hq hw
  · have := gd.pred.isLt; have := b1_lt gd.sense
    simp only [Raw.inRange, Encode.fG]; omega
  · simp (disch := omega) [bits, Nat.div_eq_of_lt, Nat.mod_eq_of_lt, Encode.fG, Decode.skel, Decode.scalar,
      Decode.mk, Decode.one, g_iff, -Fin.ofNat_eq_cast, fin_iff, bv_iff]
    try omega

theorem Word.mul (a b c : GReg) : Word.Statement (.mul a b c) := by
  intro sl gd _ hw hq hg
  have := a.isLt; have := b.isLt; have := c.isLt
  refine decode_of sl gd rfl ?_ (by simp [Encode.fG]) (by simp [Encode.fG]) ?_ hq hw
  · have := gd.pred.isLt; have := b1_lt gd.sense
    simp only [Raw.inRange, Encode.fG]; omega
  · simp (disch := omega) [bits, Nat.div_eq_of_lt, Nat.mod_eq_of_lt, Encode.fG, Decode.skel, Decode.scalar,
      Decode.mk, Decode.one, g_iff, -Fin.ofNat_eq_cast, fin_iff, bv_iff]
    try omega

theorem Word.mulh (a b c : GReg) : Word.Statement (.mulh a b c) := by
  intro sl gd _ hw hq hg
  have := a.isLt; have := b.isLt; have := c.isLt
  refine decode_of sl gd rfl ?_ (by simp [Encode.fG]) (by simp [Encode.fG]) ?_ hq hw
  · have := gd.pred.isLt; have := b1_lt gd.sense
    simp only [Raw.inRange, Encode.fG]; omega
  · simp (disch := omega) [bits, Nat.div_eq_of_lt, Nat.mod_eq_of_lt, Encode.fG, Decode.skel, Decode.scalar,
      Decode.mk, Decode.one, g_iff, -Fin.ofNat_eq_cast, fin_iff, bv_iff]
    try omega

theorem Word.mulhz (a b c : GReg) : Word.Statement (.mulhz a b c) := by
  intro sl gd _ hw hq hg
  have := a.isLt; have := b.isLt; have := c.isLt
  refine decode_of sl gd rfl ?_ (by simp [Encode.fG]) (by simp [Encode.fG]) ?_ hq hw
  · have := gd.pred.isLt; have := b1_lt gd.sense
    simp only [Raw.inRange, Encode.fG]; omega
  · simp (disch := omega) [bits, Nat.div_eq_of_lt, Nat.mod_eq_of_lt, Encode.fG, Decode.skel, Decode.scalar,
      Decode.mk, Decode.one, g_iff, -Fin.ofNat_eq_cast, fin_iff, bv_iff]
    try omega

theorem Word.div (a b c : GReg) : Word.Statement (.div a b c) := by
  intro sl gd _ hw hq hg
  have := a.isLt; have := b.isLt; have := c.isLt
  refine decode_of sl gd rfl ?_ (by simp [Encode.fG]) (by simp [Encode.fG]) ?_ hq hw
  · have := gd.pred.isLt; have := b1_lt gd.sense
    simp only [Raw.inRange, Encode.fG]; omega
  · simp (disch := omega) [bits, Nat.div_eq_of_lt, Nat.mod_eq_of_lt, Encode.fG, Decode.skel, Decode.scalar,
      Decode.mk, Decode.one, g_iff, -Fin.ofNat_eq_cast, fin_iff, bv_iff]
    try omega

theorem Word.divz (a b c : GReg) : Word.Statement (.divz a b c) := by
  intro sl gd _ hw hq hg
  have := a.isLt; have := b.isLt; have := c.isLt
  refine decode_of sl gd rfl ?_ (by simp [Encode.fG]) (by simp [Encode.fG]) ?_ hq hw
  · have := gd.pred.isLt; have := b1_lt gd.sense
    simp only [Raw.inRange, Encode.fG]; omega
  · simp (disch := omega) [bits, Nat.div_eq_of_lt, Nat.mod_eq_of_lt, Encode.fG, Decode.skel, Decode.scalar,
      Decode.mk, Decode.one, g_iff, -Fin.ofNat_eq_cast, fin_iff, bv_iff]
    try omega

theorem Word.rem (a b c : GReg) : Word.Statement (.rem a b c) := by
  intro sl gd _ hw hq hg
  have := a.isLt; have := b.isLt; have := c.isLt
  refine decode_of sl gd rfl ?_ (by simp [Encode.fG]) (by simp [Encode.fG]) ?_ hq hw
  · have := gd.pred.isLt; have := b1_lt gd.sense
    simp only [Raw.inRange, Encode.fG]; omega
  · simp (disch := omega) [bits, Nat.div_eq_of_lt, Nat.mod_eq_of_lt, Encode.fG, Decode.skel, Decode.scalar,
      Decode.mk, Decode.one, g_iff, -Fin.ofNat_eq_cast, fin_iff, bv_iff]
    try omega

theorem Word.remz (a b c : GReg) : Word.Statement (.remz a b c) := by
  intro sl gd _ hw hq hg
  have := a.isLt; have := b.isLt; have := c.isLt
  refine decode_of sl gd rfl ?_ (by simp [Encode.fG]) (by simp [Encode.fG]) ?_ hq hw
  · have := gd.pred.isLt; have := b1_lt gd.sense
    simp only [Raw.inRange, Encode.fG]; omega
  · simp (disch := omega) [bits, Nat.div_eq_of_lt, Nat.mod_eq_of_lt, Encode.fG, Decode.skel, Decode.scalar,
      Decode.mk, Decode.one, g_iff, -Fin.ofNat_eq_cast, fin_iff, bv_iff]
    try omega

theorem Word.min (a b c : GReg) : Word.Statement (.min a b c) := by
  intro sl gd _ hw hq hg
  have := a.isLt; have := b.isLt; have := c.isLt
  refine decode_of sl gd rfl ?_ (by simp [Encode.fG]) (by simp [Encode.fG]) ?_ hq hw
  · have := gd.pred.isLt; have := b1_lt gd.sense
    simp only [Raw.inRange, Encode.fG]; omega
  · simp (disch := omega) [bits, Nat.div_eq_of_lt, Nat.mod_eq_of_lt, Encode.fG, Decode.skel, Decode.scalar,
      Decode.mk, Decode.one, g_iff, -Fin.ofNat_eq_cast, fin_iff, bv_iff]
    try omega

theorem Word.max (a b c : GReg) : Word.Statement (.max a b c) := by
  intro sl gd _ hw hq hg
  have := a.isLt; have := b.isLt; have := c.isLt
  refine decode_of sl gd rfl ?_ (by simp [Encode.fG]) (by simp [Encode.fG]) ?_ hq hw
  · have := gd.pred.isLt; have := b1_lt gd.sense
    simp only [Raw.inRange, Encode.fG]; omega
  · simp (disch := omega) [bits, Nat.div_eq_of_lt, Nat.mod_eq_of_lt, Encode.fG, Decode.skel, Decode.scalar,
      Decode.mk, Decode.one, g_iff, -Fin.ofNat_eq_cast, fin_iff, bv_iff]
    try omega

theorem Word.minz (a b c : GReg) : Word.Statement (.minz a b c) := by
  intro sl gd _ hw hq hg
  have := a.isLt; have := b.isLt; have := c.isLt
  refine decode_of sl gd rfl ?_ (by simp [Encode.fG]) (by simp [Encode.fG]) ?_ hq hw
  · have := gd.pred.isLt; have := b1_lt gd.sense
    simp only [Raw.inRange, Encode.fG]; omega
  · simp (disch := omega) [bits, Nat.div_eq_of_lt, Nat.mod_eq_of_lt, Encode.fG, Decode.skel, Decode.scalar,
      Decode.mk, Decode.one, g_iff, -Fin.ofNat_eq_cast, fin_iff, bv_iff]
    try omega

theorem Word.maxz (a b c : GReg) : Word.Statement (.maxz a b c) := by
  intro sl gd _ hw hq hg
  have := a.isLt; have := b.isLt; have := c.isLt
  refine decode_of sl gd rfl ?_ (by simp [Encode.fG]) (by simp [Encode.fG]) ?_ hq hw
  · have := gd.pred.isLt; have := b1_lt gd.sense
    simp only [Raw.inRange, Encode.fG]; omega
  · simp (disch := omega) [bits, Nat.div_eq_of_lt, Nat.mod_eq_of_lt, Encode.fG, Decode.skel, Decode.scalar,
      Decode.mk, Decode.one, g_iff, -Fin.ofNat_eq_cast, fin_iff, bv_iff]
    try omega

theorem Word.addi (a b : GReg) (imm : BitVec 32) : Word.Statement (.addi a b imm) := by
  intro sl gd _ hw hq hg
  have := a.isLt; have := b.isLt; have := imm.isLt
  refine decode_of sl gd rfl ?_ (by simp [Encode.fI]) (by simp [Encode.fI]) ?_ hq hw
  · have := gd.pred.isLt; have := b1_lt gd.sense
    simp only [Raw.inRange, Encode.fI]; omega
  · simp (disch := omega) [bits, Nat.div_eq_of_lt, Nat.mod_eq_of_lt, Encode.fI, Decode.skel, Decode.scalar,
      Decode.mk, Decode.one, g_iff, -Fin.ofNat_eq_cast, fin_iff, bv_iff]
    try omega

theorem Word.and (a b c : GReg) : Word.Statement (.and a b c) := by
  intro sl gd _ hw hq hg
  have := a.isLt; have := b.isLt; have := c.isLt
  refine decode_of sl gd rfl ?_ (by simp [Encode.fG]) (by simp [Encode.fG]) ?_ hq hw
  · have := gd.pred.isLt; have := b1_lt gd.sense
    simp only [Raw.inRange, Encode.fG]; omega
  · simp (disch := omega) [bits, Nat.div_eq_of_lt, Nat.mod_eq_of_lt, Encode.fG, Decode.skel, Decode.scalar,
      Decode.mk, Decode.one, g_iff, -Fin.ofNat_eq_cast, fin_iff, bv_iff]
    try omega

theorem Word.or (a b c : GReg) : Word.Statement (.or a b c) := by
  intro sl gd _ hw hq hg
  have := a.isLt; have := b.isLt; have := c.isLt
  refine decode_of sl gd rfl ?_ (by simp [Encode.fG]) (by simp [Encode.fG]) ?_ hq hw
  · have := gd.pred.isLt; have := b1_lt gd.sense
    simp only [Raw.inRange, Encode.fG]; omega
  · simp (disch := omega) [bits, Nat.div_eq_of_lt, Nat.mod_eq_of_lt, Encode.fG, Decode.skel, Decode.scalar,
      Decode.mk, Decode.one, g_iff, -Fin.ofNat_eq_cast, fin_iff, bv_iff]
    try omega

theorem Word.xor (a b c : GReg) : Word.Statement (.xor a b c) := by
  intro sl gd _ hw hq hg
  have := a.isLt; have := b.isLt; have := c.isLt
  refine decode_of sl gd rfl ?_ (by simp [Encode.fG]) (by simp [Encode.fG]) ?_ hq hw
  · have := gd.pred.isLt; have := b1_lt gd.sense
    simp only [Raw.inRange, Encode.fG]; omega
  · simp (disch := omega) [bits, Nat.div_eq_of_lt, Nat.mod_eq_of_lt, Encode.fG, Decode.skel, Decode.scalar,
      Decode.mk, Decode.one, g_iff, -Fin.ofNat_eq_cast, fin_iff, bv_iff]
    try omega

theorem Word.andn (a b c : GReg) : Word.Statement (.andn a b c) := by
  intro sl gd _ hw hq hg
  have := a.isLt; have := b.isLt; have := c.isLt
  refine decode_of sl gd rfl ?_ (by simp [Encode.fG]) (by simp [Encode.fG]) ?_ hq hw
  · have := gd.pred.isLt; have := b1_lt gd.sense
    simp only [Raw.inRange, Encode.fG]; omega
  · simp (disch := omega) [bits, Nat.div_eq_of_lt, Nat.mod_eq_of_lt, Encode.fG, Decode.skel, Decode.scalar,
      Decode.mk, Decode.one, g_iff, -Fin.ofNat_eq_cast, fin_iff, bv_iff]
    try omega

theorem Word.orn (a b c : GReg) : Word.Statement (.orn a b c) := by
  intro sl gd _ hw hq hg
  have := a.isLt; have := b.isLt; have := c.isLt
  refine decode_of sl gd rfl ?_ (by simp [Encode.fG]) (by simp [Encode.fG]) ?_ hq hw
  · have := gd.pred.isLt; have := b1_lt gd.sense
    simp only [Raw.inRange, Encode.fG]; omega
  · simp (disch := omega) [bits, Nat.div_eq_of_lt, Nat.mod_eq_of_lt, Encode.fG, Decode.skel, Decode.scalar,
      Decode.mk, Decode.one, g_iff, -Fin.ofNat_eq_cast, fin_iff, bv_iff]
    try omega

theorem Word.shl (a b c : GReg) : Word.Statement (.shl a b c) := by
  intro sl gd _ hw hq hg
  have := a.isLt; have := b.isLt; have := c.isLt
  refine decode_of sl gd rfl ?_ (by simp [Encode.fG]) (by simp [Encode.fG]) ?_ hq hw
  · have := gd.pred.isLt; have := b1_lt gd.sense
    simp only [Raw.inRange, Encode.fG]; omega
  · simp (disch := omega) [bits, Nat.div_eq_of_lt, Nat.mod_eq_of_lt, Encode.fG, Decode.skel, Decode.scalar,
      Decode.mk, Decode.one, g_iff, -Fin.ofNat_eq_cast, fin_iff, bv_iff]
    try omega

theorem Word.shr (a b c : GReg) : Word.Statement (.shr a b c) := by
  intro sl gd _ hw hq hg
  have := a.isLt; have := b.isLt; have := c.isLt
  refine decode_of sl gd rfl ?_ (by simp [Encode.fG]) (by simp [Encode.fG]) ?_ hq hw
  · have := gd.pred.isLt; have := b1_lt gd.sense
    simp only [Raw.inRange, Encode.fG]; omega
  · simp (disch := omega) [bits, Nat.div_eq_of_lt, Nat.mod_eq_of_lt, Encode.fG, Decode.skel, Decode.scalar,
      Decode.mk, Decode.one, g_iff, -Fin.ofNat_eq_cast, fin_iff, bv_iff]
    try omega

theorem Word.sar (a b c : GReg) : Word.Statement (.sar a b c) := by
  intro sl gd _ hw hq hg
  have := a.isLt; have := b.isLt; have := c.isLt
  refine decode_of sl gd rfl ?_ (by simp [Encode.fG]) (by simp [Encode.fG]) ?_ hq hw
  · have := gd.pred.isLt; have := b1_lt gd.sense
    simp only [Raw.inRange, Encode.fG]; omega
  · simp (disch := omega) [bits, Nat.div_eq_of_lt, Nat.mod_eq_of_lt, Encode.fG, Decode.skel, Decode.scalar,
      Decode.mk, Decode.one, g_iff, -Fin.ofNat_eq_cast, fin_iff, bv_iff]
    try omega

theorem Word.rot (a b c : GReg) : Word.Statement (.rot a b c) := by
  intro sl gd _ hw hq hg
  have := a.isLt; have := b.isLt; have := c.isLt
  refine decode_of sl gd rfl ?_ (by simp [Encode.fG]) (by simp [Encode.fG]) ?_ hq hw
  · have := gd.pred.isLt; have := b1_lt gd.sense
    simp only [Raw.inRange, Encode.fG]; omega
  · simp (disch := omega) [bits, Nat.div_eq_of_lt, Nat.mod_eq_of_lt, Encode.fG, Decode.skel, Decode.scalar,
      Decode.mk, Decode.one, g_iff, -Fin.ofNat_eq_cast, fin_iff, bv_iff]
    try omega

theorem Word.andi (a b : GReg) (imm : BitVec 32) : Word.Statement (.andi a b imm) := by
  intro sl gd _ hw hq hg
  have := a.isLt; have := b.isLt; have := imm.isLt
  refine decode_of sl gd rfl ?_ (by simp [Encode.fI]) (by simp [Encode.fI]) ?_ hq hw
  · have := gd.pred.isLt; have := b1_lt gd.sense
    simp only [Raw.inRange, Encode.fI]; omega
  · simp (disch := omega) [bits, Nat.div_eq_of_lt, Nat.mod_eq_of_lt, Encode.fI, Decode.skel, Decode.scalar,
      Decode.mk, Decode.one, g_iff, -Fin.ofNat_eq_cast, fin_iff, bv_iff]
    try omega

theorem Word.ori (a b : GReg) (imm : BitVec 32) : Word.Statement (.ori a b imm) := by
  intro sl gd _ hw hq hg
  have := a.isLt; have := b.isLt; have := imm.isLt
  refine decode_of sl gd rfl ?_ (by simp [Encode.fI]) (by simp [Encode.fI]) ?_ hq hw
  · have := gd.pred.isLt; have := b1_lt gd.sense
    simp only [Raw.inRange, Encode.fI]; omega
  · simp (disch := omega) [bits, Nat.div_eq_of_lt, Nat.mod_eq_of_lt, Encode.fI, Decode.skel, Decode.scalar,
      Decode.mk, Decode.one, g_iff, -Fin.ofNat_eq_cast, fin_iff, bv_iff]
    try omega

theorem Word.xori (a b : GReg) (imm : BitVec 32) : Word.Statement (.xori a b imm) := by
  intro sl gd _ hw hq hg
  have := a.isLt; have := b.isLt; have := imm.isLt
  refine decode_of sl gd rfl ?_ (by simp [Encode.fI]) (by simp [Encode.fI]) ?_ hq hw
  · have := gd.pred.isLt; have := b1_lt gd.sense
    simp only [Raw.inRange, Encode.fI]; omega
  · simp (disch := omega) [bits, Nat.div_eq_of_lt, Nat.mod_eq_of_lt, Encode.fI, Decode.skel, Decode.scalar,
      Decode.mk, Decode.one, g_iff, -Fin.ofNat_eq_cast, fin_iff, bv_iff]
    try omega

theorem Word.andni (a b : GReg) (imm : BitVec 32) : Word.Statement (.andni a b imm) := by
  intro sl gd _ hw hq hg
  have := a.isLt; have := b.isLt; have := imm.isLt
  refine decode_of sl gd rfl ?_ (by simp [Encode.fI]) (by simp [Encode.fI]) ?_ hq hw
  · have := gd.pred.isLt; have := b1_lt gd.sense
    simp only [Raw.inRange, Encode.fI]; omega
  · simp (disch := omega) [bits, Nat.div_eq_of_lt, Nat.mod_eq_of_lt, Encode.fI, Decode.skel, Decode.scalar,
      Decode.mk, Decode.one, g_iff, -Fin.ofNat_eq_cast, fin_iff, bv_iff]
    try omega

theorem Word.orni (a b : GReg) (imm : BitVec 32) : Word.Statement (.orni a b imm) := by
  intro sl gd _ hw hq hg
  have := a.isLt; have := b.isLt; have := imm.isLt
  refine decode_of sl gd rfl ?_ (by simp [Encode.fI]) (by simp [Encode.fI]) ?_ hq hw
  · have := gd.pred.isLt; have := b1_lt gd.sense
    simp only [Raw.inRange, Encode.fI]; omega
  · simp (disch := omega) [bits, Nat.div_eq_of_lt, Nat.mod_eq_of_lt, Encode.fI, Decode.skel, Decode.scalar,
      Decode.mk, Decode.one, g_iff, -Fin.ofNat_eq_cast, fin_iff, bv_iff]
    try omega

theorem Word.shli (a b : GReg) (k : Fin 64) : Word.Statement (.shli a b k) := by
  intro sl gd _ hw hq hg
  have := a.isLt; have := b.isLt; have := k.isLt
  refine decode_of sl gd rfl ?_ (by simp [Encode.fI]) (by simp [Encode.fI]) ?_ hq hw
  · have := gd.pred.isLt; have := b1_lt gd.sense
    simp only [Raw.inRange, Encode.fI]; omega
  · simp (disch := omega) [bits, Nat.div_eq_of_lt, Nat.mod_eq_of_lt, Encode.fI, Decode.skel, Decode.scalar,
      Decode.mk, Decode.one, g_iff, -Fin.ofNat_eq_cast, fin_iff, bv_iff]
    try omega

theorem Word.shri (a b : GReg) (k : Fin 64) : Word.Statement (.shri a b k) := by
  intro sl gd _ hw hq hg
  have := a.isLt; have := b.isLt; have := k.isLt
  refine decode_of sl gd rfl ?_ (by simp [Encode.fI]) (by simp [Encode.fI]) ?_ hq hw
  · have := gd.pred.isLt; have := b1_lt gd.sense
    simp only [Raw.inRange, Encode.fI]; omega
  · simp (disch := omega) [bits, Nat.div_eq_of_lt, Nat.mod_eq_of_lt, Encode.fI, Decode.skel, Decode.scalar,
      Decode.mk, Decode.one, g_iff, -Fin.ofNat_eq_cast, fin_iff, bv_iff]
    try omega

theorem Word.sari (a b : GReg) (k : Fin 64) : Word.Statement (.sari a b k) := by
  intro sl gd _ hw hq hg
  have := a.isLt; have := b.isLt; have := k.isLt
  refine decode_of sl gd rfl ?_ (by simp [Encode.fI]) (by simp [Encode.fI]) ?_ hq hw
  · have := gd.pred.isLt; have := b1_lt gd.sense
    simp only [Raw.inRange, Encode.fI]; omega
  · simp (disch := omega) [bits, Nat.div_eq_of_lt, Nat.mod_eq_of_lt, Encode.fI, Decode.skel, Decode.scalar,
      Decode.mk, Decode.one, g_iff, -Fin.ofNat_eq_cast, fin_iff, bv_iff]
    try omega

theorem Word.roti (a b : GReg) (k : Fin 64) : Word.Statement (.roti a b k) := by
  intro sl gd _ hw hq hg
  have := a.isLt; have := b.isLt; have := k.isLt
  refine decode_of sl gd rfl ?_ (by simp [Encode.fI]) (by simp [Encode.fI]) ?_ hq hw
  · have := gd.pred.isLt; have := b1_lt gd.sense
    simp only [Raw.inRange, Encode.fI]; omega
  · simp (disch := omega) [bits, Nat.div_eq_of_lt, Nat.mod_eq_of_lt, Encode.fI, Decode.skel, Decode.scalar,
      Decode.mk, Decode.one, g_iff, -Fin.ofNat_eq_cast, fin_iff, bv_iff]
    try omega

theorem Word.clz (a b : GReg) : Word.Statement (.clz a b) := by
  intro sl gd _ hw hq hg
  have := a.isLt; have := b.isLt
  refine decode_of sl gd rfl ?_ (by simp [Encode.fG]) (by simp [Encode.fG]) ?_ hq hw
  · have := gd.pred.isLt; have := b1_lt gd.sense
    simp only [Raw.inRange, Encode.fG]; omega
  · simp (disch := omega) [bits, Nat.div_eq_of_lt, Nat.mod_eq_of_lt, Encode.fG, Decode.skel, Decode.scalar,
      Decode.mk, Decode.one, g_iff, -Fin.ofNat_eq_cast, fin_iff, bv_iff]
    try omega

theorem Word.ctz (a b : GReg) : Word.Statement (.ctz a b) := by
  intro sl gd _ hw hq hg
  have := a.isLt; have := b.isLt
  refine decode_of sl gd rfl ?_ (by simp [Encode.fG]) (by simp [Encode.fG]) ?_ hq hw
  · have := gd.pred.isLt; have := b1_lt gd.sense
    simp only [Raw.inRange, Encode.fG]; omega
  · simp (disch := omega) [bits, Nat.div_eq_of_lt, Nat.mod_eq_of_lt, Encode.fG, Decode.skel, Decode.scalar,
      Decode.mk, Decode.one, g_iff, -Fin.ofNat_eq_cast, fin_iff, bv_iff]
    try omega

theorem Word.pop (a b : GReg) : Word.Statement (.pop a b) := by
  intro sl gd _ hw hq hg
  have := a.isLt; have := b.isLt
  refine decode_of sl gd rfl ?_ (by simp [Encode.fG]) (by simp [Encode.fG]) ?_ hq hw
  · have := gd.pred.isLt; have := b1_lt gd.sense
    simp only [Raw.inRange, Encode.fG]; omega
  · simp (disch := omega) [bits, Nat.div_eq_of_lt, Nat.mod_eq_of_lt, Encode.fG, Decode.skel, Decode.scalar,
      Decode.mk, Decode.one, g_iff, -Fin.ofNat_eq_cast, fin_iff, bv_iff]
    try omega

theorem Word.sext (ty : Ty) (a b : GReg) : Word.Statement (.sext ty a b) := by
  intro sl gd _ hw hq hg
  have := code_lt ty; have := a.isLt; have := b.isLt
  refine decode_of sl gd rfl ?_ (by simp [Encode.fG]) (by simp [Encode.fG]) ?_ hq hw
  · have := gd.pred.isLt; have := b1_lt gd.sense
    simp only [Raw.inRange, Encode.fG]; omega
  · simp (disch := omega) [bits, Nat.div_eq_of_lt, Nat.mod_eq_of_lt, Encode.fG, Decode.skel, Decode.scalar,
      Decode.mk, Decode.one, g_iff, -Fin.ofNat_eq_cast, fin_iff, bv_iff]
    try omega

theorem Word.zext (ty : Ty) (a b : GReg) : Word.Statement (.zext ty a b) := by
  intro sl gd _ hw hq hg
  have := code_lt ty; have := a.isLt; have := b.isLt
  refine decode_of sl gd rfl ?_ (by simp [Encode.fG]) (by simp [Encode.fG]) ?_ hq hw
  · have := gd.pred.isLt; have := b1_lt gd.sense
    simp only [Raw.inRange, Encode.fG]; omega
  · simp (disch := omega) [bits, Nat.div_eq_of_lt, Nat.mod_eq_of_lt, Encode.fG, Decode.skel, Decode.scalar,
      Decode.mk, Decode.one, g_iff, -Fin.ofNat_eq_cast, fin_iff, bv_iff]
    try omega

theorem Word.bswp (ty : Ty) (a b : GReg) : Word.Statement (.bswp ty a b) := by
  intro sl gd _ hw hq hg
  have := code_lt ty; have := a.isLt; have := b.isLt
  refine decode_of sl gd rfl ?_ (by simp [Encode.fG]) (by simp [Encode.fG]) ?_ hq hw
  · have := gd.pred.isLt; have := b1_lt gd.sense
    simp only [Raw.inRange, Encode.fG]; omega
  · simp (disch := omega) [bits, Nat.div_eq_of_lt, Nat.mod_eq_of_lt, Encode.fG, Decode.skel, Decode.scalar,
      Decode.mk, Decode.one, g_iff, -Fin.ofNat_eq_cast, fin_iff, bv_iff]
    try omega

theorem Word.bfx (ty : Ty) (a b : GReg) (lo : Fin 64) (w : Fin 128) : Word.Statement (.bfx ty a b lo w) := by
  intro sl gd _ hw hq hg
  have := code_lt ty; have := a.isLt; have := b.isLt; have := lo.isLt; have := w.isLt
  refine decode_of sl gd rfl ?_ (by simp [Encode.fI]) (by simp [Encode.fI]) ?_ hq hw
  · have := gd.pred.isLt; have := b1_lt gd.sense
    simp only [Raw.inRange, Encode.fI]; omega
  · simp (disch := omega) [bits, Nat.div_eq_of_lt, Nat.mod_eq_of_lt, Encode.fI, Decode.skel, Decode.scalar,
      Decode.mk, Decode.one, g_iff, -Fin.ofNat_eq_cast, fin_iff, bv_iff]
    try omega

theorem Word.bfi (a b : GReg) (lo : Fin 64) (w : Fin 128) : Word.Statement (.bfi a b lo w) := by
  intro sl gd _ hw hq hg
  have := a.isLt; have := b.isLt; have := lo.isLt; have := w.isLt
  refine decode_of sl gd rfl ?_ (by simp [Encode.fI]) (by simp [Encode.fI]) ?_ hq hw
  · have := gd.pred.isLt; have := b1_lt gd.sense
    simp only [Raw.inRange, Encode.fI]; omega
  · simp (disch := omega) [bits, Nat.div_eq_of_lt, Nat.mod_eq_of_lt, Encode.fI, Decode.skel, Decode.scalar,
      Decode.mk, Decode.one, g_iff, -Fin.ofNat_eq_cast, fin_iff, bv_iff]
    try omega

theorem Word.cmp (cc : Cc) (p : PReg) (b c : GReg) : Word.Statement (.cmp cc p b c) := by
  intro sl gd _ hw hq hg
  have := cc_code_lt cc; have := p.isLt; have := b.isLt; have := c.isLt
  refine decode_of sl gd rfl ?_ (by simp [Encode.fG]) (by simp [Encode.fG]) ?_ hq hw
  · have := gd.pred.isLt; have := b1_lt gd.sense
    simp only [Raw.inRange, Encode.fG]; omega
  · simp (disch := omega) [bits, Nat.div_eq_of_lt, Nat.mod_eq_of_lt, Encode.fG, Decode.skel, Decode.scalar,
      Decode.mk, Decode.one, cc_code_lt cc, g_iff, -Fin.ofNat_eq_cast, fin_iff, bv_iff]
    try omega

theorem Word.cmpi (cc : Cc) (p : PReg) (b : GReg) (imm : BitVec 32) : Word.Statement (.cmpi cc p b imm) := by
  intro sl gd _ hw hq hg
  have := cc_code_lt cc; have := p.isLt; have := b.isLt; have := imm.isLt
  refine decode_of sl gd rfl ?_ (by simp [Encode.fI]) (by simp [Encode.fI]) ?_ hq hw
  · have := gd.pred.isLt; have := b1_lt gd.sense
    simp only [Raw.inRange, Encode.fI]; omega
  · simp (disch := omega) [bits, Nat.div_eq_of_lt, Nat.mod_eq_of_lt, Encode.fI, Decode.skel, Decode.scalar,
      Decode.mk, Decode.one, cc_code_lt cc, g_iff, -Fin.ofNat_eq_cast, fin_iff, bv_iff]
    try omega

theorem Word.sel (a : GReg) (p : PReg) (c d : GReg) : Word.Statement (.sel a p c d) := by
  intro sl gd _ hw hq hg
  have := a.isLt; have := p.isLt; have := c.isLt; have := d.isLt
  refine decode_of sl gd rfl ?_ (by simp [Encode.fG]) (by simp [Encode.fG]) ?_ hq hw
  · have := gd.pred.isLt; have := b1_lt gd.sense
    simp only [Raw.inRange, Encode.fG]; omega
  · simp (disch := omega) [bits, Nat.div_eq_of_lt, Nat.mod_eq_of_lt, Encode.fG, Decode.skel, Decode.scalar,
      Decode.mk, Decode.one, g_iff, -Fin.ofNat_eq_cast, fin_iff, bv_iff]
    try omega

theorem Word.li (a : GReg) (imm : Word) : Word.Statement (.li a imm) := by
  intro sl gd _ hw hq hg
  have := a.isLt; have := imm.isLt
  refine decode_of sl gd rfl ?_ (by simp [Encode.fW]) (by simp [Encode.fW]) ?_ hq hw
  · have := gd.pred.isLt; have := b1_lt gd.sense
    simp only [Raw.inRange, Encode.fW]; omega
  · simp (disch := omega) [bits, Nat.div_eq_of_lt, Nat.mod_eq_of_lt, Encode.fW, Decode.skel, Decode.scalar,
      Decode.mk, Decode.one, imm64_fW, g_iff, -Fin.ofNat_eq_cast, fin_iff, bv_iff]
    try omega

theorem Word.mov (m : MovOp) : Word.Statement (.mov m) := by
  intro sl gd _ hw hq hg
  have := gd.pred.isLt; have := b1_lt gd.sense
  rcases m with ⟨a, b⟩ | ⟨a, b⟩ | ⟨a, b⟩
  · have := a.isLt; have := b.isLt
    refine decode_of sl gd rfl ?_ (by simp [Encode.fE]) (by simp [Encode.fE]) ?_ hq hw
    · simp only [Raw.inRange, Encode.fE]; omega
    · simp [Encode.fE, Decode.skel, Decode.scalar, Decode.mk, Decode.one]
  · have := a.isLt; have := b.isLt
    refine decode_of sl gd rfl ?_ (by simp [Encode.fE]) (by simp [Encode.fE]) ?_ hq hw
    · simp only [Raw.inRange, Encode.fE]; omega
    · simp [Encode.fE, Decode.skel, Decode.scalar, Decode.mk, Decode.one]
  · have := a.isLt; have := b.isLt
    refine decode_of sl gd rfl ?_ (by simp [Encode.fE]) (by simp [Encode.fE]) ?_ hq hw
    · simp only [Raw.inRange, Encode.fE]; omega
    · simp [Encode.fE, Decode.skel, Decode.scalar, Decode.mk, Decode.one]

theorem Word.lea (a base idx : GReg) (off : BitVec 32) : Word.Statement (.lea a base idx off) := by
  intro sl gd _ hw hq hg
  have := a.isLt; have := base.isLt; have := idx.isLt; have := off.isLt
  refine decode_of sl gd rfl ?_ (by simp [Encode.fE]) (by simp [Encode.fE]) ?_ hq hw
  · have := gd.pred.isLt; have := b1_lt gd.sense
    simp only [Raw.inRange, Encode.fE]; omega
  · simp (disch := omega) [bits, Nat.div_eq_of_lt, Nat.mod_eq_of_lt, Encode.fE, Decode.skel, Decode.scalar,
      Decode.mk, Decode.one, g_iff, -Fin.ofNat_eq_cast, fin_iff, bv_iff]
    try omega

theorem Word.pand (a b c : PReg) : Word.Statement (.pand a b c) := by
  intro sl gd _ hw hq hg
  have := a.isLt; have := b.isLt; have := c.isLt
  refine decode_of sl gd rfl ?_ (by simp [Encode.fG]) (by simp [Encode.fG]) ?_ hq hw
  · have := gd.pred.isLt; have := b1_lt gd.sense
    simp only [Raw.inRange, Encode.fG]; omega
  · simp (disch := omega) [bits, Nat.div_eq_of_lt, Nat.mod_eq_of_lt, Encode.fG, Decode.skel, Decode.scalar,
      Decode.mk, Decode.one, g_iff, -Fin.ofNat_eq_cast, fin_iff, bv_iff]
    try omega

theorem Word.por (a b c : PReg) : Word.Statement (.por a b c) := by
  intro sl gd _ hw hq hg
  have := a.isLt; have := b.isLt; have := c.isLt
  refine decode_of sl gd rfl ?_ (by simp [Encode.fG]) (by simp [Encode.fG]) ?_ hq hw
  · have := gd.pred.isLt; have := b1_lt gd.sense
    simp only [Raw.inRange, Encode.fG]; omega
  · simp (disch := omega) [bits, Nat.div_eq_of_lt, Nat.mod_eq_of_lt, Encode.fG, Decode.skel, Decode.scalar,
      Decode.mk, Decode.one, g_iff, -Fin.ofNat_eq_cast, fin_iff, bv_iff]
    try omega

theorem Word.pxor (a b c : PReg) : Word.Statement (.pxor a b c) := by
  intro sl gd _ hw hq hg
  have := a.isLt; have := b.isLt; have := c.isLt
  refine decode_of sl gd rfl ?_ (by simp [Encode.fG]) (by simp [Encode.fG]) ?_ hq hw
  · have := gd.pred.isLt; have := b1_lt gd.sense
    simp only [Raw.inRange, Encode.fG]; omega
  · simp (disch := omega) [bits, Nat.div_eq_of_lt, Nat.mod_eq_of_lt, Encode.fG, Decode.skel, Decode.scalar,
      Decode.mk, Decode.one, g_iff, -Fin.ofNat_eq_cast, fin_iff, bv_iff]
    try omega

theorem Word.pnot (a b : PReg) : Word.Statement (.pnot a b) := by
  intro sl gd _ hw hq hg
  have := a.isLt; have := b.isLt
  refine decode_of sl gd rfl ?_ (by simp [Encode.fG]) (by simp [Encode.fG]) ?_ hq hw
  · have := gd.pred.isLt; have := b1_lt gd.sense
    simp only [Raw.inRange, Encode.fG]; omega
  · simp (disch := omega) [bits, Nat.div_eq_of_lt, Nat.mod_eq_of_lt, Encode.fG, Decode.skel, Decode.scalar,
      Decode.mk, Decode.one, g_iff, -Fin.ofNat_eq_cast, fin_iff, bv_iff]
    try omega

theorem Word.fadd (ty : Ty) (a b c : GReg) : Word.Statement (.fadd ty a b c) := by
  intro sl gd _ hw hq hg
  have := code_lt ty; have := a.isLt; have := b.isLt; have := c.isLt
  refine decode_of sl gd rfl ?_ (by simp [Encode.fG]) (by simp [Encode.fG]) ?_ hq hw
  · have := gd.pred.isLt; have := b1_lt gd.sense
    simp only [Raw.inRange, Encode.fG]; omega
  · simp (disch := omega) [bits, Nat.div_eq_of_lt, Nat.mod_eq_of_lt, Encode.fG, Decode.skel, Decode.scalar,
      Decode.mk, Decode.one, g_iff, -Fin.ofNat_eq_cast, fin_iff, bv_iff]
    try omega

theorem Word.fsub (ty : Ty) (a b c : GReg) : Word.Statement (.fsub ty a b c) := by
  intro sl gd _ hw hq hg
  have := code_lt ty; have := a.isLt; have := b.isLt; have := c.isLt
  refine decode_of sl gd rfl ?_ (by simp [Encode.fG]) (by simp [Encode.fG]) ?_ hq hw
  · have := gd.pred.isLt; have := b1_lt gd.sense
    simp only [Raw.inRange, Encode.fG]; omega
  · simp (disch := omega) [bits, Nat.div_eq_of_lt, Nat.mod_eq_of_lt, Encode.fG, Decode.skel, Decode.scalar,
      Decode.mk, Decode.one, g_iff, -Fin.ofNat_eq_cast, fin_iff, bv_iff]
    try omega

theorem Word.fmul (ty : Ty) (a b c : GReg) : Word.Statement (.fmul ty a b c) := by
  intro sl gd _ hw hq hg
  have := code_lt ty; have := a.isLt; have := b.isLt; have := c.isLt
  refine decode_of sl gd rfl ?_ (by simp [Encode.fG]) (by simp [Encode.fG]) ?_ hq hw
  · have := gd.pred.isLt; have := b1_lt gd.sense
    simp only [Raw.inRange, Encode.fG]; omega
  · simp (disch := omega) [bits, Nat.div_eq_of_lt, Nat.mod_eq_of_lt, Encode.fG, Decode.skel, Decode.scalar,
      Decode.mk, Decode.one, g_iff, -Fin.ofNat_eq_cast, fin_iff, bv_iff]
    try omega

theorem Word.fdiv (ty : Ty) (a b c : GReg) : Word.Statement (.fdiv ty a b c) := by
  intro sl gd _ hw hq hg
  have := code_lt ty; have := a.isLt; have := b.isLt; have := c.isLt
  refine decode_of sl gd rfl ?_ (by simp [Encode.fG]) (by simp [Encode.fG]) ?_ hq hw
  · have := gd.pred.isLt; have := b1_lt gd.sense
    simp only [Raw.inRange, Encode.fG]; omega
  · simp (disch := omega) [bits, Nat.div_eq_of_lt, Nat.mod_eq_of_lt, Encode.fG, Decode.skel, Decode.scalar,
      Decode.mk, Decode.one, g_iff, -Fin.ofNat_eq_cast, fin_iff, bv_iff]
    try omega

theorem Word.fsqrt (ty : Ty) (a b : GReg) : Word.Statement (.fsqrt ty a b) := by
  intro sl gd _ hw hq hg
  have := code_lt ty; have := a.isLt; have := b.isLt
  refine decode_of sl gd rfl ?_ (by simp [Encode.fG]) (by simp [Encode.fG]) ?_ hq hw
  · have := gd.pred.isLt; have := b1_lt gd.sense
    simp only [Raw.inRange, Encode.fG]; omega
  · simp (disch := omega) [bits, Nat.div_eq_of_lt, Nat.mod_eq_of_lt, Encode.fG, Decode.skel, Decode.scalar,
      Decode.mk, Decode.one, g_iff, -Fin.ofNat_eq_cast, fin_iff, bv_iff]
    try omega

theorem Word.fmin (ty : Ty) (a b c : GReg) : Word.Statement (.fmin ty a b c) := by
  intro sl gd _ hw hq hg
  have := code_lt ty; have := a.isLt; have := b.isLt; have := c.isLt
  refine decode_of sl gd rfl ?_ (by simp [Encode.fG]) (by simp [Encode.fG]) ?_ hq hw
  · have := gd.pred.isLt; have := b1_lt gd.sense
    simp only [Raw.inRange, Encode.fG]; omega
  · simp (disch := omega) [bits, Nat.div_eq_of_lt, Nat.mod_eq_of_lt, Encode.fG, Decode.skel, Decode.scalar,
      Decode.mk, Decode.one, g_iff, -Fin.ofNat_eq_cast, fin_iff, bv_iff]
    try omega

theorem Word.fmax (ty : Ty) (a b c : GReg) : Word.Statement (.fmax ty a b c) := by
  intro sl gd _ hw hq hg
  have := code_lt ty; have := a.isLt; have := b.isLt; have := c.isLt
  refine decode_of sl gd rfl ?_ (by simp [Encode.fG]) (by simp [Encode.fG]) ?_ hq hw
  · have := gd.pred.isLt; have := b1_lt gd.sense
    simp only [Raw.inRange, Encode.fG]; omega
  · simp (disch := omega) [bits, Nat.div_eq_of_lt, Nat.mod_eq_of_lt, Encode.fG, Decode.skel, Decode.scalar,
      Decode.mk, Decode.one, g_iff, -Fin.ofNat_eq_cast, fin_iff, bv_iff]
    try omega

theorem Word.fma (ty : Ty) (a b c d : GReg) : Word.Statement (.fma ty a b c d) := by
  intro sl gd _ hw hq hg
  have := code_lt ty; have := a.isLt; have := b.isLt; have := c.isLt; have := d.isLt
  refine decode_of sl gd rfl ?_ (by simp [Encode.fG]) (by simp [Encode.fG]) ?_ hq hw
  · have := gd.pred.isLt; have := b1_lt gd.sense
    simp only [Raw.inRange, Encode.fG]; omega
  · simp (disch := omega) [bits, Nat.div_eq_of_lt, Nat.mod_eq_of_lt, Encode.fG, Decode.skel, Decode.scalar,
      Decode.mk, Decode.one, g_iff, -Fin.ofNat_eq_cast, fin_iff, bv_iff]
    try omega

theorem Word.fcmp (cc : FCc) (ty : Ty) (p : PReg) (b c : GReg) : Word.Statement (.fcmp cc ty p b c) := by
  intro sl gd _ hw hq hg
  have := fcc_code_lt cc; have := code_lt ty; have := p.isLt; have := b.isLt; have := c.isLt
  refine decode_of sl gd rfl ?_ (by simp [Encode.fG]) (by simp [Encode.fG]) ?_ hq hw
  · have := gd.pred.isLt; have := b1_lt gd.sense
    simp only [Raw.inRange, Encode.fG]; omega
  · simp (disch := omega) [bits, Nat.div_eq_of_lt, Nat.mod_eq_of_lt, Encode.fG, Decode.skel, Decode.scalar,
      Decode.mk, Decode.one, fcc_code_lt cc, g_iff, -Fin.ofNat_eq_cast, fin_iff, bv_iff]
    try omega

theorem Word.fcvt (dst src : Ty) (a b : GReg) : Word.Statement (.fcvt dst src a b) := by
  intro sl gd _ hw hq hg
  have := code_lt dst; have := code_lt src; have := a.isLt; have := b.isLt
  refine decode_of sl gd rfl ?_ (by simp [Encode.fE]) (by simp [Encode.fE]) ?_ hq hw
  · have := gd.pred.isLt; have := b1_lt gd.sense
    simp only [Raw.inRange, Encode.fE]; omega
  · simp (disch := omega) [bits, Nat.div_eq_of_lt, Nat.mod_eq_of_lt, Encode.fE, Decode.skel, Decode.scalar,
      Decode.mk, Decode.one, g_iff, -Fin.ofNat_eq_cast, fin_iff, bv_iff]
    try omega

theorem Word.br (tgt : Target) : Word.Statement (.br tgt) := by
  intro sl gd _ hw hq hg
  have := tgt.tslot.isLt; have := tgt.disp.isLt
  refine decode_of sl gd rfl ?_ (by simp [Encode.fB]) (by simp [Encode.fB]) ?_ hq hw
  · have := gd.pred.isLt; have := b1_lt gd.sense
    simp only [Raw.inRange, Encode.fB]; omega
  · simp (disch := omega) [bits, Nat.div_eq_of_lt, Nat.mod_eq_of_lt, Encode.fB, Decode.skel, Decode.control,
      Decode.mk, Decode.one, Decode.auxB, Decode.tslotOk, target_eq, target_zero, g_iff, -Fin.ofNat_eq_cast,
        fin_iff, bv_iff]
    try omega

theorem Word.bri (b : GReg) : Word.Statement (.bri b) := by
  intro sl gd _ hw hq hg
  have := b.isLt
  refine decode_of sl gd rfl ?_ (by simp [Encode.fI]) (by simp [Encode.fI]) ?_ hq hw
  · have := gd.pred.isLt; have := b1_lt gd.sense
    simp only [Raw.inRange, Encode.fI]; omega
  · simp (disch := omega) [bits, Nat.div_eq_of_lt, Nat.mod_eq_of_lt, Encode.fI, Decode.skel, Decode.control,
      Decode.mk, Decode.one, Decode.auxB, Decode.tslotOk, target_eq, target_zero, g_iff, -Fin.ofNat_eq_cast,
        fin_iff, bv_iff]
    try omega

theorem Word.call (a : GReg) (tgt : Target) : Word.Statement (.call a tgt) := by
  intro sl gd _ hw hq hg
  have := a.isLt; have := tgt.tslot.isLt; have := tgt.disp.isLt
  refine decode_of sl gd rfl ?_ (by simp [Encode.fB]) (by simp [Encode.fB]) ?_ hq hw
  · have := gd.pred.isLt; have := b1_lt gd.sense
    simp only [Raw.inRange, Encode.fB]; omega
  · simp (disch := omega) [bits, Nat.div_eq_of_lt, Nat.mod_eq_of_lt, Encode.fB, Decode.skel, Decode.control,
      Decode.mk, Decode.one, Decode.auxB, Decode.tslotOk, target_eq, target_zero, g_iff, -Fin.ofNat_eq_cast,
        fin_iff, bv_iff]
    try omega

theorem Word.calli (a b : GReg) : Word.Statement (.calli a b) := by
  intro sl gd _ hw hq hg
  have := a.isLt; have := b.isLt
  refine decode_of sl gd rfl ?_ (by simp [Encode.fI]) (by simp [Encode.fI]) ?_ hq hw
  · have := gd.pred.isLt; have := b1_lt gd.sense
    simp only [Raw.inRange, Encode.fI]; omega
  · simp (disch := omega) [bits, Nat.div_eq_of_lt, Nat.mod_eq_of_lt, Encode.fI, Decode.skel, Decode.control,
      Decode.mk, Decode.one, Decode.auxB, Decode.tslotOk, target_eq, target_zero, g_iff, -Fin.ofNat_eq_cast,
        fin_iff, bv_iff]
    try omega

theorem Word.ret (b : GReg) : Word.Statement (.ret b) := by
  intro sl gd _ hw hq hg
  have := b.isLt
  refine decode_of sl gd rfl ?_ (by simp [Encode.fI]) (by simp [Encode.fI]) ?_ hq hw
  · have := gd.pred.isLt; have := b1_lt gd.sense
    simp only [Raw.inRange, Encode.fI]; omega
  · simp (disch := omega) [bits, Nat.div_eq_of_lt, Nat.mod_eq_of_lt, Encode.fI, Decode.skel, Decode.control,
      Decode.mk, Decode.one, Decode.auxB, Decode.tslotOk, target_eq, target_zero, g_iff, -Fin.ofNat_eq_cast,
        fin_iff, bv_iff]
    try omega

theorem Word.lp (k : LcReg) (b : GReg) (tick : Bool) (tgt : Target) : Word.Statement (.lp k b tick tgt) := by
  intro sl gd _ hw hq hg
  have := k.isLt; have := b.isLt; have := tgt.tslot.isLt; have := tgt.disp.isLt; have := b1_lt tick
  refine decode_of sl gd rfl ?_ (by simp [Encode.fB]) (by simp [Encode.fB]) ?_ hq hw
  · have := gd.pred.isLt; have := b1_lt gd.sense
    simp only [Raw.inRange, Encode.fB]; omega
  · simp (disch := omega) [bits, Nat.div_eq_of_lt, Nat.mod_eq_of_lt, Encode.fB, Decode.skel, Decode.control,
      Decode.mk, Decode.one, Decode.auxB, Decode.tslotOk, target_eq, target_zero, g_iff, -Fin.ofNat_eq_cast,
        fin_iff, bv_iff]
    try omega

theorem Word.lpx (k : LcReg) (n : BitVec 21) (tick : Bool) (tgt : Target) : Word.Statement (.lpx k n tick tgt) := by
  intro sl gd _ hw hq hg
  have := k.isLt; have := n.isLt; have := b1_lt tick; have := tgt.tslot.isLt; have := tgt.disp.isLt
  refine decode_of sl gd rfl ?_ (by simp [Encode.fB]) (by simp [Encode.fB]) ?_ hq hw
  · have := gd.pred.isLt; have := b1_lt gd.sense
    simp only [Raw.inRange, Encode.fB]; omega
  · have h1 : bits (n.toNat % 256 * 2048 + tgt.tslot.val * 256 + tgt.disp.toNat / 4294967296) 10 8 = tgt.tslot.val
      := by
      simp only [bits]; omega
    have h2 : (Encode.b1 tick * 32 + n.toNat / 524288) / 32 = Encode.b1 tick := by omega
    simp (disch := omega) [Encode.fB, Decode.skel, Decode.control, Decode.mk, Decode.one, Decode.tslotOk,
        target_eq, h1, h2,
      bv_iff]
    omega

theorem Word.lpr (k : LcReg) (b : GReg) (tick : Bool) (tgt : Target) : Word.Statement (.lpr k b tick tgt) := by
  intro sl gd _ hw hq hg
  have := k.isLt; have := b.isLt; have := tgt.tslot.isLt; have := tgt.disp.isLt; have := b1_lt tick
  refine decode_of sl gd rfl ?_ (by simp [Encode.fB]) (by simp [Encode.fB]) ?_ hq hw
  · have := gd.pred.isLt; have := b1_lt gd.sense
    simp only [Raw.inRange, Encode.fB]; omega
  · simp (disch := omega) [bits, Nat.div_eq_of_lt, Nat.mod_eq_of_lt, Encode.fB, Decode.skel, Decode.control,
      Decode.mk, Decode.one, Decode.auxB, Decode.tslotOk, target_eq, target_zero, g_iff, -Fin.ofNat_eq_cast,
        fin_iff, bv_iff]
    try omega

theorem Word.jt (a b : GReg) (n1 : BitVec 16) : Word.Statement (.jt a b n1) := by
  intro sl gd _ hw hq hg
  have := a.isLt; have := b.isLt; have := n1.isLt
  refine decode_of sl gd rfl ?_ (by simp [Encode.fE]) (by simp [Encode.fE]) ?_ hq hw
  · have := gd.pred.isLt; have := b1_lt gd.sense
    simp only [Raw.inRange, Encode.fE]; omega
  · simp (disch := omega) [bits, Nat.div_eq_of_lt, Nat.mod_eq_of_lt, Encode.fE, Decode.skel, Decode.control,
      Decode.mk, Decode.one, Decode.auxB, Decode.tslotOk, target_eq, target_zero, g_iff, -Fin.ofNat_eq_cast,
        fin_iff, bv_iff]
    try omega

theorem Word.spawn (a b c : GReg) : Word.Statement (.spawn a b c) := by
  intro sl gd _ hw hq hg
  have := a.isLt; have := b.isLt; have := c.isLt
  refine decode_of sl gd rfl ?_ (by simp [Encode.fE]) (by simp [Encode.fE]) ?_ hq hw
  · have := gd.pred.isLt; have := b1_lt gd.sense
    simp only [Raw.inRange, Encode.fE]; omega
  · simp (disch := omega) [bits, Nat.div_eq_of_lt, Nat.mod_eq_of_lt, Encode.fE, Decode.skel, Decode.task,
      Decode.mk, Decode.one, g_iff, -Fin.ofNat_eq_cast, fin_iff, bv_iff]
    try omega

theorem Word.spawnt (a b c : GReg) : Word.Statement (.spawnt a b c) := by
  intro sl gd _ hw hq hg
  have := a.isLt; have := b.isLt; have := c.isLt
  refine decode_of sl gd rfl ?_ (by simp [Encode.fE]) (by simp [Encode.fE]) ?_ hq hw
  · have := gd.pred.isLt; have := b1_lt gd.sense
    simp only [Raw.inRange, Encode.fE]; omega
  · simp (disch := omega) [bits, Nat.div_eq_of_lt, Nat.mod_eq_of_lt, Encode.fE, Decode.skel, Decode.task,
      Decode.mk, Decode.one, g_iff, -Fin.ofNat_eq_cast, fin_iff, bv_iff]
    try omega

theorem Word.send (a b c d : GReg) : Word.Statement (.send a b c d) := by
  intro sl gd _ hw hq hg
  have := a.isLt; have := b.isLt; have := c.isLt; have := d.isLt
  refine decode_of sl gd rfl ?_ (by simp [Encode.fE]) (by simp [Encode.fE]) ?_ hq hw
  · have := gd.pred.isLt; have := b1_lt gd.sense
    simp only [Raw.inRange, Encode.fE]; omega
  · simp (disch := omega) [bits, Nat.div_eq_of_lt, Nat.mod_eq_of_lt, Encode.fE, Decode.skel, Decode.task,
      Decode.mk, Decode.one, g_iff, -Fin.ofNat_eq_cast, fin_iff, bv_iff]
    try omega

theorem Word.sendv (a b c : GReg) (d : VReg) (n : Fin 32) : Word.Statement (.sendv a b c d n) := by
  intro sl gd _ hw hq hg
  have := a.isLt; have := b.isLt; have := c.isLt; have := d.isLt; have := n.isLt
  refine decode_of sl gd rfl ?_ (by simp [Encode.fE]) (by simp [Encode.fE]) ?_ hq hw
  · have := gd.pred.isLt; have := b1_lt gd.sense
    simp only [Raw.inRange, Encode.fE]; omega
  · simp (disch := omega) [bits, Nat.div_eq_of_lt, Nat.mod_eq_of_lt, Encode.fE, Decode.skel, Decode.task,
      Decode.mk, Decode.one, g_iff, -Fin.ofNat_eq_cast, fin_iff, bv_iff]
    try omega

theorem Word.jinit (b c : GReg) (n : BitVec 32) : Word.Statement (.jinit b c n) := by
  intro sl gd _ hw hq hg
  have := b.isLt; have := c.isLt; have := n.isLt
  refine decode_of sl gd rfl ?_ (by simp [Encode.fE]) (by simp [Encode.fE]) ?_ hq hw
  · have := gd.pred.isLt; have := b1_lt gd.sense
    simp only [Raw.inRange, Encode.fE]; omega
  · simp (disch := omega) [bits, Nat.div_eq_of_lt, Nat.mod_eq_of_lt, Encode.fE, Decode.skel, Decode.task,
      Decode.mk, Decode.one, g_iff, -Fin.ofNat_eq_cast, fin_iff, bv_iff]
    try omega

theorem Word.arr (b : GReg) (n : BitVec 32) : Word.Statement (.arr b n) := by
  intro sl gd _ hw hq hg
  have := b.isLt; have := n.isLt
  refine decode_of sl gd rfl ?_ (by simp [Encode.fE]) (by simp [Encode.fE]) ?_ hq hw
  · have := gd.pred.isLt; have := b1_lt gd.sense
    simp only [Raw.inRange, Encode.fE]; omega
  · simp (disch := omega) [bits, Nat.div_eq_of_lt, Nat.mod_eq_of_lt, Encode.fE, Decode.skel, Decode.task,
      Decode.mk, Decode.one, g_iff, -Fin.ofNat_eq_cast, fin_iff, bv_iff]
    try omega

theorem Word.tjoin (a b : GReg) : Word.Statement (.tjoin a b) := by
  intro sl gd _ hw hq hg
  have := a.isLt; have := b.isLt
  refine decode_of sl gd rfl ?_ (by simp [Encode.fE]) (by simp [Encode.fE]) ?_ hq hw
  · have := gd.pred.isLt; have := b1_lt gd.sense
    simp only [Raw.inRange, Encode.fE]; omega
  · simp (disch := omega) [bits, Nat.div_eq_of_lt, Nat.mod_eq_of_lt, Encode.fE, Decode.skel, Decode.task,
      Decode.mk, Decode.one, g_iff, -Fin.ofNat_eq_cast, fin_iff, bv_iff]
    try omega

theorem Word.tleave : Word.Statement (.tleave) := by
  intro sl gd _ hw hq hg
  refine decode_of sl gd rfl ?_ (by simp [Encode.z]) (by simp [Encode.z]) ?_ hq hw
  · have := gd.pred.isLt; have := b1_lt gd.sense
    simp only [Raw.inRange, Encode.z]; omega
  · simp (disch := omega) [bits, Nat.div_eq_of_lt, Nat.mod_eq_of_lt, Encode.z, Decode.skel, Decode.task, Decode.mk,
      Decode.one, g_iff, -Fin.ofNat_eq_cast, fin_iff, bv_iff]
    try omega

theorem Word.tarr : Word.Statement (.tarr) := by
  intro sl gd _ hw hq hg
  refine decode_of sl gd rfl ?_ (by simp [Encode.z]) (by simp [Encode.z]) ?_ hq hw
  · have := gd.pred.isLt; have := b1_lt gd.sense
    simp only [Raw.inRange, Encode.z]; omega
  · simp (disch := omega) [bits, Nat.div_eq_of_lt, Nat.mod_eq_of_lt, Encode.z, Decode.skel, Decode.task, Decode.mk,
      Decode.one, g_iff, -Fin.ofNat_eq_cast, fin_iff, bv_iff]
    try omega

theorem Word.twait (a : GReg) : Word.Statement (.twait a) := by
  intro sl gd _ hw hq hg
  have := a.isLt
  refine decode_of sl gd rfl ?_ (by simp [Encode.fE]) (by simp [Encode.fE]) ?_ hq hw
  · have := gd.pred.isLt; have := b1_lt gd.sense
    simp only [Raw.inRange, Encode.fE]; omega
  · simp (disch := omega) [bits, Nat.div_eq_of_lt, Nat.mod_eq_of_lt, Encode.fE, Decode.skel, Decode.task,
      Decode.mk, Decode.one, g_iff, -Fin.ofNat_eq_cast, fin_iff, bv_iff]
    try omega

theorem Word.tinfo (a : GReg) (sel : Fin 4) : Word.Statement (.tinfo a sel) := by
  intro sl gd _ hw hq hg
  have := a.isLt; have := sel.isLt
  refine decode_of sl gd rfl ?_ (by simp [Encode.fE]) (by simp [Encode.fE]) ?_ hq hw
  · have := gd.pred.isLt; have := b1_lt gd.sense
    simp only [Raw.inRange, Encode.fE]; omega
  · simp (disch := omega) [bits, Nat.div_eq_of_lt, Nat.mod_eq_of_lt, Encode.fE, Decode.skel, Decode.task,
      Decode.mk, Decode.one, g_iff, -Fin.ofNat_eq_cast, fin_iff, bv_iff]
    try omega

theorem Word.enq (a : PReg) (b : GReg) (q : Fin 4) : Word.Statement (.enq a b q) := by
  intro sl gd _ hw hq hg
  have := a.isLt; have := b.isLt; have := q.isLt
  refine decode_of sl gd rfl ?_ (by simp [Encode.fE]) (by simp [Encode.fE]) ?_ hq hw
  · have := gd.pred.isLt; have := b1_lt gd.sense
    simp only [Raw.inRange, Encode.fE]; omega
  · simp (disch := omega) [bits, Nat.div_eq_of_lt, Nat.mod_eq_of_lt, Encode.fE, Decode.skel, Decode.task,
      Decode.mk, Decode.one, g_iff, -Fin.ofNat_eq_cast, fin_iff, bv_iff]
    try omega

theorem Word.deq (a : GReg) (b : PReg) (q : Fin 4) : Word.Statement (.deq a b q) := by
  intro sl gd _ hw hq hg
  have := a.isLt; have := b.isLt; have := q.isLt
  refine decode_of sl gd rfl ?_ (by simp [Encode.fE]) (by simp [Encode.fE]) ?_ hq hw
  · have := gd.pred.isLt; have := b1_lt gd.sense
    simp only [Raw.inRange, Encode.fE]; omega
  · simp (disch := omega) [bits, Nat.div_eq_of_lt, Nat.mod_eq_of_lt, Encode.fE, Decode.skel, Decode.task,
      Decode.mk, Decode.one, g_iff, -Fin.ofNat_eq_cast, fin_iff, bv_iff]
    try omega

theorem Word.deqw (a : GReg) (q : Fin 4) : Word.Statement (.deqw a q) := by
  intro sl gd _ hw hq hg
  have := a.isLt; have := q.isLt
  refine decode_of sl gd rfl ?_ (by simp [Encode.fE]) (by simp [Encode.fE]) ?_ hq hw
  · have := gd.pred.isLt; have := b1_lt gd.sense
    simp only [Raw.inRange, Encode.fE]; omega
  · simp (disch := omega) [bits, Nat.div_eq_of_lt, Nat.mod_eq_of_lt, Encode.fE, Decode.skel, Decode.task,
      Decode.mk, Decode.one, g_iff, -Fin.ofNat_eq_cast, fin_iff, bv_iff]
    try omega

theorem Word.qinfo (a : GReg) (q : Fin 4) : Word.Statement (.qinfo a q) := by
  intro sl gd _ hw hq hg
  have := a.isLt; have := q.isLt
  refine decode_of sl gd rfl ?_ (by simp [Encode.fE]) (by simp [Encode.fE]) ?_ hq hw
  · have := gd.pred.isLt; have := b1_lt gd.sense
    simp only [Raw.inRange, Encode.fE]; omega
  · simp (disch := omega) [bits, Nat.div_eq_of_lt, Nat.mod_eq_of_lt, Encode.fE, Decode.skel, Decode.task,
      Decode.mk, Decode.one, g_iff, -Fin.ofNat_eq_cast, fin_iff, bv_iff]
    try omega

theorem Word.gvt (a b : GReg) (sel : Fin 4) : Word.Statement (.gvt a b sel) := by
  intro sl gd _ hw hq hg
  have := a.isLt; have := b.isLt; have := sel.isLt
  refine decode_of sl gd rfl ?_ (by simp [Encode.fE]) (by simp [Encode.fE]) ?_ hq hw
  · have := gd.pred.isLt; have := b1_lt gd.sense
    simp only [Raw.inRange, Encode.fE]; omega
  · simp (disch := omega) [bits, Nat.div_eq_of_lt, Nat.mod_eq_of_lt, Encode.fE, Decode.skel, Decode.task,
      Decode.mk, Decode.one, g_iff, -Fin.ofNat_eq_cast, fin_iff, bv_iff]
    try omega

theorem Word.ld (ty : Ty) (a : GReg) (m : Addr) : Word.Statement (.ld ty a m) := by
  intro sl gd _ hw hq hg
  have := code_lt ty; have := a.isLt; have := m.base.isLt; have := m.idx.isLt; have := m.off.isLt; have
      := m.nu.isLt; have := m.gate.isLt
  refine decode_of sl gd rfl ?_ (by simp [Encode.fM]) (by simp [Encode.fM]) ?_ hq hw
  · have := gd.pred.isLt; have := b1_lt gd.sense
    simp only [Raw.inRange, Encode.fM]; omega
  · simp (disch := omega) [bits, Nat.div_eq_of_lt, Nat.mod_eq_of_lt, Encode.fM, Decode.skel, Decode.memory,
      Decode.mk, Decode.one, tyM_eq, auxM_eq, tyM_zero, auxM_zero, addr_eq, baseAddr_eq, g_iff, -Fin.ofNat_eq_cast,
        fin_iff, bv_iff]
    try omega

theorem Word.ldAcq (ty : Ty) (a : GReg) (m : Addr) : Word.Statement (.ldAcq ty a m) := by
  intro sl gd _ hw hq hg
  have := code_lt ty; have := a.isLt; have := m.base.isLt; have := m.idx.isLt; have := m.off.isLt; have
      := m.nu.isLt; have := m.gate.isLt
  refine decode_of sl gd rfl ?_ (by simp [Encode.fM]) (by simp [Encode.fM]) ?_ hq hw
  · have := gd.pred.isLt; have := b1_lt gd.sense
    simp only [Raw.inRange, Encode.fM]; omega
  · simp (disch := omega) [bits, Nat.div_eq_of_lt, Nat.mod_eq_of_lt, Encode.fM, Decode.skel, Decode.memory,
      Decode.mk, Decode.one, tyM_eq, auxM_eq, tyM_zero, auxM_zero, addr_eq, baseAddr_eq, g_iff, -Fin.ofNat_eq_cast,
        fin_iff, bv_iff]
    try omega

theorem Word.st (ty : Ty) (a : GReg) (m : Addr) : Word.Statement (.st ty a m) := by
  intro sl gd _ hw hq hg
  have := code_lt ty; have := a.isLt; have := m.base.isLt; have := m.idx.isLt; have := m.off.isLt; have
      := m.nu.isLt; have := m.gate.isLt
  refine decode_of sl gd rfl ?_ (by simp [Encode.fM]) (by simp [Encode.fM]) ?_ hq hw
  · have := gd.pred.isLt; have := b1_lt gd.sense
    simp only [Raw.inRange, Encode.fM]; omega
  · simp (disch := omega) [bits, Nat.div_eq_of_lt, Nat.mod_eq_of_lt, Encode.fM, Decode.skel, Decode.memory,
      Decode.mk, Decode.one, tyM_eq, auxM_eq, tyM_zero, auxM_zero, addr_eq, baseAddr_eq, g_iff, -Fin.ofNat_eq_cast,
        fin_iff, bv_iff]
    try omega

theorem Word.stRel (ty : Ty) (a : GReg) (m : Addr) : Word.Statement (.stRel ty a m) := by
  intro sl gd _ hw hq hg
  have := code_lt ty; have := a.isLt; have := m.base.isLt; have := m.idx.isLt; have := m.off.isLt; have
      := m.nu.isLt; have := m.gate.isLt
  refine decode_of sl gd rfl ?_ (by simp [Encode.fM]) (by simp [Encode.fM]) ?_ hq hw
  · have := gd.pred.isLt; have := b1_lt gd.sense
    simp only [Raw.inRange, Encode.fM]; omega
  · simp (disch := omega) [bits, Nat.div_eq_of_lt, Nat.mod_eq_of_lt, Encode.fM, Decode.skel, Decode.memory,
      Decode.mk, Decode.one, tyM_eq, auxM_eq, tyM_zero, auxM_zero, addr_eq, baseAddr_eq, g_iff, -Fin.ofNat_eq_cast,
        fin_iff, bv_iff]
    try omega

theorem Word.ldc (ty : Ty) (a : GReg) (m : Addr) : Word.Statement (.ldc ty a m) := by
  intro sl gd _ hw hq hg
  have := code_lt ty; have := a.isLt; have := m.base.isLt; have := m.idx.isLt; have := m.off.isLt; have
      := m.nu.isLt; have := m.gate.isLt
  refine decode_of sl gd rfl ?_ (by simp [Encode.fM]) (by simp [Encode.fM]) ?_ hq hw
  · have := gd.pred.isLt; have := b1_lt gd.sense
    simp only [Raw.inRange, Encode.fM]; omega
  · simp (disch := omega) [bits, Nat.div_eq_of_lt, Nat.mod_eq_of_lt, Encode.fM, Decode.skel, Decode.memory,
      Decode.mk, Decode.one, tyM_eq, auxM_eq, tyM_zero, auxM_zero, addr_eq, baseAddr_eq, g_iff, -Fin.ofNat_eq_cast,
        fin_iff, bv_iff]
    try omega

theorem Word.ldv (ty : Ty) (a : VReg) (m : Addr) (mask : LaneMask) : Word.Statement (.ldv ty a m mask) := by
  intro sl gd _ hw hq hg
  have := code_lt ty; have := a.isLt; have := m.base.isLt; have := m.idx.isLt; have := m.off.isLt; have
      := m.nu.isLt; have := m.gate.isLt; have := mm_le mask; have := vm_le mask
  refine decode_of sl gd rfl ?_ (by simp [Encode.fM]) (by simp [Encode.fM]) ?_ hq hw
  · have := gd.pred.isLt; have := b1_lt gd.sense
    simp only [Raw.inRange, Encode.fM]; omega
  · simp (disch := omega) [Nat.div_eq_of_lt, Nat.mod_eq_of_lt, Encode.fM, Decode.skel, Decode.memory, Decode.mk,
      Decode.one, maskM_zero, maskMz_zero, maskM_add, maskMz_add, mm_mod, mm_mod_half, mm_mod_ix, mm_ix, tyM_eq,
      auxM_eq, tyM_zero, auxM_zero, addr_eq, baseAddr_eq, g_iff, -Fin.ofNat_eq_cast, fin_iff, bv_iff]
    try omega

theorem Word.stv (ty : Ty) (a : VReg) (m : Addr) (mask : LaneMask) : Word.Statement (.stv ty a m mask) := by
  intro sl gd _ hw hq hg
  have := code_lt ty; have := a.isLt; have := m.base.isLt; have := m.idx.isLt; have := m.off.isLt; have
      := m.nu.isLt; have := m.gate.isLt; have := mm_le mask; have := vm_le mask
  refine decode_of sl gd rfl ?_ (by simp [Encode.fM]) (by simp [Encode.fM]) ?_ hq hw
  · have := gd.pred.isLt; have := b1_lt gd.sense
    simp only [Raw.inRange, Encode.fM]; omega
  · simp (disch := omega) [Nat.div_eq_of_lt, Nat.mod_eq_of_lt, Encode.fM, Decode.skel, Decode.memory, Decode.mk,
      Decode.one, maskM_zero, maskMz_zero, maskM_add, maskMz_add, mm_mod, mm_mod_half, mm_mod_ix, mm_ix, tyM_eq,
      auxM_eq, tyM_zero, auxM_zero, addr_eq, baseAddr_eq, g_iff, -Fin.ofNat_eq_cast, fin_iff, bv_iff]
    try omega

theorem Word.ldvs (ty : Ty) (a : VReg) (m : BaseAddr) (c : GReg) (mask : LaneMask) : Word.Statement
    (.ldvs ty a m c mask) := by
  intro sl gd _ hw hq hg
  have := code_lt ty; have := a.isLt; have := m.base.isLt; have := m.off.isLt; have := m.nu.isLt; have
      := m.gate.isLt; have := c.isLt; have := mm_le mask; have := vm_le mask
  refine decode_of sl gd rfl ?_ (by simp [Encode.fMb]) (by simp [Encode.fMb]) ?_ hq hw
  · have := gd.pred.isLt; have := b1_lt gd.sense
    simp only [Raw.inRange, Encode.fMb]; omega
  · simp (disch := omega) [Nat.div_eq_of_lt, Nat.mod_eq_of_lt, Encode.fMb, Decode.skel, Decode.memory, Decode.mk,
      Decode.one, maskM_zero, maskMz_zero, maskM_add, maskMz_add, mm_mod, mm_mod_half, mm_mod_ix, mm_ix, tyM_eq,
      auxM_eq, tyM_zero, auxM_zero, addr_eq, baseAddr_eq, g_iff, -Fin.ofNat_eq_cast, fin_iff, bv_iff]
    try omega

theorem Word.stvs (ty : Ty) (a : VReg) (m : BaseAddr) (c : GReg) (mask : LaneMask) : Word.Statement
    (.stvs ty a m c mask) := by
  intro sl gd _ hw hq hg
  have := code_lt ty; have := a.isLt; have := m.base.isLt; have := m.off.isLt; have := m.nu.isLt; have
      := m.gate.isLt; have := c.isLt; have := mm_le mask; have := vm_le mask
  refine decode_of sl gd rfl ?_ (by simp [Encode.fMb]) (by simp [Encode.fMb]) ?_ hq hw
  · have := gd.pred.isLt; have := b1_lt gd.sense
    simp only [Raw.inRange, Encode.fMb]; omega
  · simp (disch := omega) [Nat.div_eq_of_lt, Nat.mod_eq_of_lt, Encode.fMb, Decode.skel, Decode.memory, Decode.mk,
      Decode.one, maskM_zero, maskMz_zero, maskM_add, maskMz_add, mm_mod, mm_mod_half, mm_mod_ix, mm_ix, tyM_eq,
      auxM_eq, tyM_zero, auxM_zero, addr_eq, baseAddr_eq, g_iff, -Fin.ofNat_eq_cast, fin_iff, bv_iff]
    try omega

theorem Word.ldvx (ty : Ty) (a : VReg) (m : BaseAddr) (c : VReg) (ix64 : Bool) (mask : LaneMask) : Word.Statement
    (.ldvx ty a m c ix64 mask) := by
  intro sl gd _ hw hq hg
  have := code_lt ty; have := a.isLt; have := m.base.isLt; have := m.off.isLt; have := m.nu.isLt; have
      := m.gate.isLt; have := c.isLt; have := b1_lt ix64; have := mm_le mask; have := vm_le mask
  refine decode_of sl gd rfl ?_ (by simp [Encode.fMb]) (by simp [Encode.fMb]) ?_ hq hw
  · have := gd.pred.isLt; have := b1_lt gd.sense
    simp only [Raw.inRange, Encode.fMb]; omega
  · simp (disch := omega) [Nat.div_eq_of_lt, Nat.mod_eq_of_lt, Encode.fMb, Decode.skel, Decode.memory, Decode.mk,
      Decode.one, maskM_zero, maskMz_zero, maskM_add, maskMz_add, mm_mod, mm_mod_half, mm_mod_ix, mm_ix, tyM_eq,
      auxM_eq, tyM_zero, auxM_zero, addr_eq, baseAddr_eq, g_iff, -Fin.ofNat_eq_cast, fin_iff, bv_iff]
    try omega

theorem Word.stvx (ty : Ty) (a : VReg) (m : BaseAddr) (c : VReg) (ix64 : Bool) (mask : LaneMask) : Word.Statement
    (.stvx ty a m c ix64 mask) := by
  intro sl gd _ hw hq hg
  have := code_lt ty; have := a.isLt; have := m.base.isLt; have := m.off.isLt; have := m.nu.isLt; have
      := m.gate.isLt; have := c.isLt; have := b1_lt ix64; have := mm_le mask; have := vm_le mask
  refine decode_of sl gd rfl ?_ (by simp [Encode.fMb]) (by simp [Encode.fMb]) ?_ hq hw
  · have := gd.pred.isLt; have := b1_lt gd.sense
    simp only [Raw.inRange, Encode.fMb]; omega
  · simp (disch := omega) [Nat.div_eq_of_lt, Nat.mod_eq_of_lt, Encode.fMb, Decode.skel, Decode.memory, Decode.mk,
      Decode.one, maskM_zero, maskMz_zero, maskM_add, maskMz_add, mm_mod, mm_mod_half, mm_mod_ix, mm_ix, tyM_eq,
      auxM_eq, tyM_zero, auxM_zero, addr_eq, baseAddr_eq, g_iff, -Fin.ofNat_eq_cast, fin_iff, bv_iff]
    try omega

theorem Word.ldf (ty : Ty) (a : GReg) (m : Addr) : Word.Statement (.ldf ty a m) := by
  intro sl gd _ hw hq hg
  have := code_lt ty; have := a.isLt; have := m.base.isLt; have := m.idx.isLt; have := m.off.isLt; have
      := m.nu.isLt; have := m.gate.isLt
  refine decode_of sl gd rfl ?_ (by simp [Encode.fM]) (by simp [Encode.fM]) ?_ hq hw
  · have := gd.pred.isLt; have := b1_lt gd.sense
    simp only [Raw.inRange, Encode.fM]; omega
  · simp (disch := omega) [bits, Nat.div_eq_of_lt, Nat.mod_eq_of_lt, Encode.fM, Decode.skel, Decode.memory,
      Decode.mk, Decode.one, tyM_eq, auxM_eq, tyM_zero, auxM_zero, addr_eq, baseAddr_eq, g_iff, -Fin.ofNat_eq_cast,
        fin_iff, bv_iff]
    try omega

theorem Word.ldfe (ty : Ty) (a : GReg) (m : Addr) : Word.Statement (.ldfe ty a m) := by
  intro sl gd _ hw hq hg
  have := code_lt ty; have := a.isLt; have := m.base.isLt; have := m.idx.isLt; have := m.off.isLt; have
      := m.nu.isLt; have := m.gate.isLt
  refine decode_of sl gd rfl ?_ (by simp [Encode.fM]) (by simp [Encode.fM]) ?_ hq hw
  · have := gd.pred.isLt; have := b1_lt gd.sense
    simp only [Raw.inRange, Encode.fM]; omega
  · simp (disch := omega) [bits, Nat.div_eq_of_lt, Nat.mod_eq_of_lt, Encode.fM, Decode.skel, Decode.memory,
      Decode.mk, Decode.one, tyM_eq, auxM_eq, tyM_zero, auxM_zero, addr_eq, baseAddr_eq, g_iff, -Fin.ofNat_eq_cast,
        fin_iff, bv_iff]
    try omega

theorem Word.stef (ty : Ty) (a : GReg) (m : Addr) : Word.Statement (.stef ty a m) := by
  intro sl gd _ hw hq hg
  have := code_lt ty; have := a.isLt; have := m.base.isLt; have := m.idx.isLt; have := m.off.isLt; have
      := m.nu.isLt; have := m.gate.isLt
  refine decode_of sl gd rfl ?_ (by simp [Encode.fM]) (by simp [Encode.fM]) ?_ hq hw
  · have := gd.pred.isLt; have := b1_lt gd.sense
    simp only [Raw.inRange, Encode.fM]; omega
  · simp (disch := omega) [bits, Nat.div_eq_of_lt, Nat.mod_eq_of_lt, Encode.fM, Decode.skel, Decode.memory,
      Decode.mk, Decode.one, tyM_eq, auxM_eq, tyM_zero, auxM_zero, addr_eq, baseAddr_eq, g_iff, -Fin.ofNat_eq_cast,
        fin_iff, bv_iff]
    try omega

theorem Word.stff (ty : Ty) (a : GReg) (m : Addr) : Word.Statement (.stff ty a m) := by
  intro sl gd _ hw hq hg
  have := code_lt ty; have := a.isLt; have := m.base.isLt; have := m.idx.isLt; have := m.off.isLt; have
      := m.nu.isLt; have := m.gate.isLt
  refine decode_of sl gd rfl ?_ (by simp [Encode.fM]) (by simp [Encode.fM]) ?_ hq hw
  · have := gd.pred.isLt; have := b1_lt gd.sense
    simp only [Raw.inRange, Encode.fM]; omega
  · simp (disch := omega) [bits, Nat.div_eq_of_lt, Nat.mod_eq_of_lt, Encode.fM, Decode.skel, Decode.memory,
      Decode.mk, Decode.one, tyM_eq, auxM_eq, tyM_zero, auxM_zero, addr_eq, baseAddr_eq, g_iff, -Fin.ofNat_eq_cast,
        fin_iff, bv_iff]
    try omega

theorem Word.pf (m : Addr) : Word.Statement (.pf m) := by
  intro sl gd _ hw hq hg
  have := m.base.isLt; have := m.idx.isLt; have := m.off.isLt; have := m.nu.isLt; have := m.gate.isLt
  refine decode_of sl gd rfl ?_ (by simp [Encode.fM]) (by simp [Encode.fM]) ?_ hq hw
  · have := gd.pred.isLt; have := b1_lt gd.sense
    simp only [Raw.inRange, Encode.fM]; omega
  · simp (disch := omega) [bits, Nat.div_eq_of_lt, Nat.mod_eq_of_lt, Encode.fM, Decode.skel, Decode.memory,
      Decode.mk, Decode.one, Decode.tyM, Decode.auxM, Decode.maskMz, addr_eq, baseAddr_eq, g_iff,
        -Fin.ofNat_eq_cast, fin_iff, bv_iff]
    try omega

theorem Word.cln (m : Addr) : Word.Statement (.cln m) := by
  intro sl gd _ hw hq hg
  have := m.base.isLt; have := m.idx.isLt; have := m.off.isLt; have := m.nu.isLt; have := m.gate.isLt
  refine decode_of sl gd rfl ?_ (by simp [Encode.fM]) (by simp [Encode.fM]) ?_ hq hw
  · have := gd.pred.isLt; have := b1_lt gd.sense
    simp only [Raw.inRange, Encode.fM]; omega
  · simp (disch := omega) [bits, Nat.div_eq_of_lt, Nat.mod_eq_of_lt, Encode.fM, Decode.skel, Decode.memory,
      Decode.mk, Decode.one, Decode.tyM, Decode.auxM, Decode.maskMz, addr_eq, baseAddr_eq, g_iff,
        -Fin.ofNat_eq_cast, fin_iff, bv_iff]
    try omega

theorem Word.inv (m : Addr) : Word.Statement (.inv m) := by
  intro sl gd _ hw hq hg
  have := m.base.isLt; have := m.idx.isLt; have := m.off.isLt; have := m.nu.isLt; have := m.gate.isLt
  refine decode_of sl gd rfl ?_ (by simp [Encode.fM]) (by simp [Encode.fM]) ?_ hq hw
  · have := gd.pred.isLt; have := b1_lt gd.sense
    simp only [Raw.inRange, Encode.fM]; omega
  · simp (disch := omega) [bits, Nat.div_eq_of_lt, Nat.mod_eq_of_lt, Encode.fM, Decode.skel, Decode.memory,
      Decode.mk, Decode.one, Decode.tyM, Decode.auxM, Decode.maskMz, addr_eq, baseAddr_eq, g_iff,
        -Fin.ofNat_eq_cast, fin_iff, bv_iff]
    try omega

theorem Word.amo (op : AmoOp) (ord : Ord4) (ty : Ty) (a : GReg) (m : Addr) (s : GReg) : Word.Statement
    (.amo op ord ty a m s) := by
  intro sl gd _ hw hq hg
  have := op.code.zero_le; have := amoOp_code_lt op; have := ord4_code_lt ord; have := code_lt ty; have := a.isLt;
      have := m.base.isLt; have := m.idx.isLt; have := m.off.isLt; have := m.nu.isLt; have := m.gate.isLt; have
      := s.isLt
  refine decode_of sl gd rfl ?_ (by simp [Encode.fM]) (by simp [Encode.fM]) ?_ hq hw
  · have := gd.pred.isLt; have := b1_lt gd.sense
    simp only [Raw.inRange, Encode.fM]; omega
  · have h1 : bits (s.val * 64 + ord.code * 16) 5 4 = ord.code := by simp only [bits]; omega
    have h2 : bits (s.val * 64 + ord.code * 16) 11 6 = s.val := by simp only [bits]; omega
    have h3 : (s.val * 64 + ord.code * 16) / 4096 = 0 := by omega
    have h4 : (s.val * 64 + ord.code * 16) % 16 = 0 := by omega
    simp (disch := omega) [Encode.fM, Decode.skel, Decode.memory, Decode.mk, amoOp_code_lt op, tyM_eq, auxM_eq,
        addr_eq,
      h1, h2, h3, h4]

theorem Word.red (op : RedOp) (rel : Bool) (ty : Ty) (a : GReg) (m : Addr) : Word.Statement (.red op rel ty a m) := by
  intro sl gd _ hw hq hg
  have := redOp_code_lt op; have := b1_lt rel; have := code_lt ty; have := a.isLt; have := m.base.isLt; have
      := m.idx.isLt; have := m.off.isLt; have := m.nu.isLt; have := m.gate.isLt
  refine decode_of sl gd rfl ?_ (by simp [Encode.fM]) (by simp [Encode.fM]) ?_ hq hw
  · have := gd.pred.isLt; have := b1_lt gd.sense
    simp only [Raw.inRange, Encode.fM]; omega
  · have h1 : bits (Encode.b1 rel * 32) 5 4 / 2 = Encode.b1 rel := by simp only [bits]; omega
    have h2 : bits (Encode.b1 rel * 32) 5 4 % 2 = 0 := by simp only [bits]; omega
    have h3 : Encode.b1 rel * 32 / 64 = 0 := by omega
    have h4 : Encode.b1 rel * 32 % 16 = 0 := by omega
    simp (disch := omega) [Encode.fM, Decode.skel, Decode.memory, Decode.mk, redOp_code_lt op, tyM_eq, auxM_eq,
        addr_eq,
      h1, h2, h3, h4]

theorem Word.redXs (rel : Bool) (a : GReg) (m : Addr) (s : GReg) : Word.Statement (.redXs rel a m s) := by
  intro sl gd _ hw hq hg
  have := b1_lt rel; have := s.isLt; have := a.isLt; have := m.base.isLt; have := m.idx.isLt; have := m.off.isLt;
      have := m.nu.isLt; have := m.gate.isLt
  refine decode_of sl gd rfl ?_ (by simp [Encode.fM]) (by simp [Encode.fM]) ?_ hq hw
  · have := gd.pred.isLt; have := b1_lt gd.sense
    simp only [Raw.inRange, Encode.fM]; omega
  · have h0 (B C D I T : Nat) (gs gp : Nat) : Decode.auxM ⟨0x4C, gs, gp, 11, a.val, B, C, D, T,
        131072 + (s.val * 64 + Encode.b1 rel * 32), I⟩ = s.val * 64 + Encode.b1 rel * 32 := by
      simp only [Decode.auxM]; omega
    have h5 (B C D I : Nat) (gs gp : Nat) : Decode.tyM ⟨0x4C, gs, gp, 11, a.val, B, C, D, m.gate.val * 8 + 1,
        131072 + (s.val * 64 + Encode.b1 rel * 32), I⟩ = 5 := by
      simp only [Decode.tyM]; omega
    have h1 : bits (s.val * 64 + Encode.b1 rel * 32) 5 4 / 2 = Encode.b1 rel := by simp only [bits]; omega
    have h2 : bits (s.val * 64 + Encode.b1 rel * 32) 5 4 % 2 = 0 := by simp only [bits]; omega
    have h3 : (s.val * 64 + Encode.b1 rel * 32) / 4096 = 0 := by omega
    have h4 : (s.val * 64 + Encode.b1 rel * 32) % 16 = 0 := by omega
    have h6 : bits (s.val * 64 + Encode.b1 rel * 32) 11 6 = s.val := by simp only [bits]; omega
    simp (disch := omega) [Encode.fM, Decode.skel, Decode.memory, Decode.mk, h5, h0, addr_eq, h1, h2, h3, h4, h6]

theorem Word.redXcvt (rel : Bool) (a : GReg) (m : Addr) : Word.Statement (.redXcvt rel a m) := by
  intro sl gd _ hw hq hg
  have := b1_lt rel; have := a.isLt; have := m.base.isLt; have := m.idx.isLt; have := m.off.isLt; have
      := m.nu.isLt; have := m.gate.isLt
  refine decode_of sl gd rfl ?_ (by simp [Encode.fM]) (by simp [Encode.fM]) ?_ hq hw
  · have := gd.pred.isLt; have := b1_lt gd.sense
    simp only [Raw.inRange, Encode.fM]; omega
  · have h0 (B C D I T : Nat) (gs gp : Nat) : Decode.auxM ⟨0x4C, gs, gp, 12, a.val, B, C, D, T,
        131072 + Encode.b1 rel * 32, I⟩ = Encode.b1 rel * 32 := by
      simp only [Decode.auxM]; omega
    have h5 (B C D I : Nat) (gs gp : Nat) : Decode.tyM ⟨0x4C, gs, gp, 12, a.val, B, C, D, m.gate.val * 8 + 3,
        131072 + Encode.b1 rel * 32, I⟩ = 13 := by
      simp only [Decode.tyM]; omega
    have h1 : bits (Encode.b1 rel * 32) 5 4 / 2 = Encode.b1 rel := by simp only [bits]; omega
    have h2 : bits (Encode.b1 rel * 32) 5 4 % 2 = 0 := by simp only [bits]; omega
    have h3 : Encode.b1 rel * 32 / 64 = 0 := by omega
    have h4 : Encode.b1 rel * 32 % 16 = 0 := by omega
    simp (disch := omega) [Encode.fM, Decode.skel, Decode.memory, Decode.mk, h5, h0, addr_eq, h1, h2, h3, h4]

theorem Word.ldbd (a : GReg) (m : Addr) : Word.Statement (.ldbd a m) := by
  intro sl gd _ hw hq hg
  have := a.isLt; have := m.base.isLt; have := m.idx.isLt; have := m.off.isLt; have := m.nu.isLt; have := m.gate.isLt
  refine decode_of sl gd rfl ?_ (by simp [Encode.fM]) (by simp [Encode.fM]) ?_ hq hw
  · have := gd.pred.isLt; have := b1_lt gd.sense
    simp only [Raw.inRange, Encode.fM]; omega
  · simp (disch := omega) [bits, Nat.div_eq_of_lt, Nat.mod_eq_of_lt, Encode.fM, Decode.skel, Decode.memory,
      Decode.mk, Decode.one, Decode.tyM, Decode.auxM, Decode.maskMz, addr_eq, baseAddr_eq, g_iff,
        -Fin.ofNat_eq_cast, fin_iff, bv_iff]
    try omega

theorem Word.stbd (a : GReg) (m : Addr) : Word.Statement (.stbd a m) := by
  intro sl gd _ hw hq hg
  have := a.isLt; have := m.base.isLt; have := m.idx.isLt; have := m.off.isLt; have := m.nu.isLt; have := m.gate.isLt
  refine decode_of sl gd rfl ?_ (by simp [Encode.fM]) (by simp [Encode.fM]) ?_ hq hw
  · have := gd.pred.isLt; have := b1_lt gd.sense
    simp only [Raw.inRange, Encode.fM]; omega
  · simp (disch := omega) [bits, Nat.div_eq_of_lt, Nat.mod_eq_of_lt, Encode.fM, Decode.skel, Decode.memory,
      Decode.mk, Decode.one, Decode.tyM, Decode.auxM, Decode.maskMz, addr_eq, baseAddr_eq, g_iff,
        -Fin.ofNat_eq_cast, fin_iff, bv_iff]
    try omega

theorem Word.bbar (a : GReg) (m : Addr) : Word.Statement (.bbar a m) := by
  intro sl gd _ hw hq hg
  have := a.isLt; have := m.base.isLt; have := m.idx.isLt; have := m.off.isLt; have := m.nu.isLt; have := m.gate.isLt
  refine decode_of sl gd rfl ?_ (by simp [Encode.fM]) (by simp [Encode.fM]) ?_ hq hw
  · have := gd.pred.isLt; have := b1_lt gd.sense
    simp only [Raw.inRange, Encode.fM]; omega
  · simp (disch := omega) [bits, Nat.div_eq_of_lt, Nat.mod_eq_of_lt, Encode.fM, Decode.skel, Decode.memory,
      Decode.mk, Decode.one, Decode.tyM, Decode.auxM, Decode.maskMz, addr_eq, baseAddr_eq, g_iff,
        -Fin.ofNat_eq_cast, fin_iff, bv_iff]
    try omega

theorem Word.nutick (n : BitVec 16) : Word.Statement (.nutick n) := by
  intro sl gd _ hw hq hg
  have := n.isLt
  refine decode_of sl gd rfl ?_ (by simp [Encode.fK]) (by simp [Encode.fK]) ?_ hq hw
  · have := gd.pred.isLt; have := b1_lt gd.sense
    simp only [Raw.inRange, Encode.fK]; omega
  · simp (disch := omega) [bits, Nat.div_eq_of_lt, Nat.mod_eq_of_lt, Encode.fK, Decode.skel, Decode.memory,
      Decode.mk, Decode.one, g_iff, -Fin.ofNat_eq_cast, fin_iff, bv_iff]
    try omega

theorem Word.nudom (n : BitVec 8) : Word.Statement (.nudom n) := by
  intro sl gd _ hw hq hg
  have := n.isLt
  refine decode_of sl gd rfl ?_ (by simp [Encode.fK]) (by simp [Encode.fK]) ?_ hq hw
  · have := gd.pred.isLt; have := b1_lt gd.sense
    simp only [Raw.inRange, Encode.fK]; omega
  · simp (disch := omega) [bits, Nat.div_eq_of_lt, Nat.mod_eq_of_lt, Encode.fK, Decode.skel, Decode.memory,
      Decode.mk, Decode.one, g_iff, -Fin.ofNat_eq_cast, fin_iff, bv_iff]
    try omega

theorem Word.nuq (a b : GReg) (w : Bool) : Word.Statement (.nuq a b w) := by
  intro sl gd _ hw hq hg
  have := a.isLt; have := b.isLt; have := b1_lt w
  refine decode_of sl gd rfl ?_ (by simp [Encode.fI]) (by simp [Encode.fI]) ?_ hq hw
  · have := gd.pred.isLt; have := b1_lt gd.sense
    simp only [Raw.inRange, Encode.fI]; omega
  · simp (disch := omega) [bits, Nat.div_eq_of_lt, Nat.mod_eq_of_lt, Encode.fI, Decode.skel, Decode.memory,
      Decode.mk, Decode.one, g_iff, -Fin.ofNat_eq_cast, fin_iff, bv_iff]
    try omega

theorem Word.nurel (a : GReg) (m : Addr) : Word.Statement (.nurel a m) := by
  intro sl gd _ hw hq hg
  have := a.isLt; have := m.base.isLt; have := m.idx.isLt; have := m.off.isLt; have := m.nu.isLt; have := m.gate.isLt
  refine decode_of sl gd rfl ?_ (by simp [Encode.fM]) (by simp [Encode.fM]) ?_ hq hw
  · have := gd.pred.isLt; have := b1_lt gd.sense
    simp only [Raw.inRange, Encode.fM]; omega
  · simp (disch := omega) [bits, Nat.div_eq_of_lt, Nat.mod_eq_of_lt, Encode.fM, Decode.skel, Decode.memory,
      Decode.mk, Decode.one, Decode.tyM, Decode.auxM, Decode.maskMz, addr_eq, baseAddr_eq, g_iff,
        -Fin.ofNat_eq_cast, fin_iff, bv_iff]
    try omega

theorem Word.abrt : Word.Statement (.abrt) := by
  intro sl gd _ hw hq hg
  refine decode_of sl gd rfl ?_ (by simp [Encode.z]) (by simp [Encode.z]) ?_ hq hw
  · have := gd.pred.isLt; have := b1_lt gd.sense
    simp only [Raw.inRange, Encode.z]; omega
  · simp (disch := omega) [bits, Nat.div_eq_of_lt, Nat.mod_eq_of_lt, Encode.z, Decode.skel, Decode.memory,
      Decode.mk, Decode.one, g_iff, -Fin.ofNat_eq_cast, fin_iff, bv_iff]
    try omega

theorem Word.abrtRec (a b : GReg) : Word.Statement (.abrtRec a b) := by
  intro sl gd _ hw hq hg
  have := a.isLt; have := b.isLt
  refine decode_of sl gd rfl ?_ (by simp [Encode.fI]) (by simp [Encode.fI]) ?_ hq hw
  · have := gd.pred.isLt; have := b1_lt gd.sense
    simp only [Raw.inRange, Encode.fI]; omega
  · simp (disch := omega) [bits, Nat.div_eq_of_lt, Nat.mod_eq_of_lt, Encode.fI, Decode.skel, Decode.memory,
      Decode.mk, Decode.one, g_iff, -Fin.ofNat_eq_cast, fin_iff, bv_iff]
    try omega

theorem Word.astat (a : GReg) (sel : Fin 8) : Word.Statement (.astat a sel) := by
  intro sl gd _ hw hq hg
  have := a.isLt; have := sel.isLt
  refine decode_of sl gd rfl ?_ (by simp [Encode.fI]) (by simp [Encode.fI]) ?_ hq hw
  · have := gd.pred.isLt; have := b1_lt gd.sense
    simp only [Raw.inRange, Encode.fI]; omega
  · simp (disch := omega) [bits, Nat.div_eq_of_lt, Nat.mod_eq_of_lt, Encode.fI, Decode.skel, Decode.memory,
      Decode.mk, Decode.one, g_iff, -Fin.ofNat_eq_cast, fin_iff, bv_iff]
    try omega

theorem Word.vadd (ty : Ty) (a b c : VReg) (o : VOpt) : Word.Statement (.vadd ty a b c o) := by
  intro sl gd _ hw hq hg
  have := code_lt ty; have := a.isLt; have := b.isLt; have := c.isLt; have := vo_le o
  refine decode_of sl gd rfl ?_ (by simp [Encode.fE]) (by simp [Encode.fE]) ?_ hq hw
  · have := gd.pred.isLt; have := b1_lt gd.sense
    simp only [Raw.inRange, Encode.fE]; omega
  · have hz := badVec_rnd hw
    simp only [Bool.not_eq_true'] at hz
    simp (disch := omega) [Encode.fE, Decode.skel, Decode.vector, Decode.mk, Decode.one, hz, g_iff,
      -Fin.ofNat_eq_cast, fin_iff, bv_iff]
    try omega

theorem Word.vsub (ty : Ty) (a b c : VReg) (o : VOpt) : Word.Statement (.vsub ty a b c o) := by
  intro sl gd _ hw hq hg
  have := code_lt ty; have := a.isLt; have := b.isLt; have := c.isLt; have := vo_le o
  refine decode_of sl gd rfl ?_ (by simp [Encode.fE]) (by simp [Encode.fE]) ?_ hq hw
  · have := gd.pred.isLt; have := b1_lt gd.sense
    simp only [Raw.inRange, Encode.fE]; omega
  · have hz := badVec_rnd hw
    simp only [Bool.not_eq_true'] at hz
    simp (disch := omega) [Encode.fE, Decode.skel, Decode.vector, Decode.mk, Decode.one, hz, g_iff,
      -Fin.ofNat_eq_cast, fin_iff, bv_iff]
    try omega

theorem Word.vmul (ty : Ty) (a b c : VReg) (o : VOpt) : Word.Statement (.vmul ty a b c o) := by
  intro sl gd _ hw hq hg
  have := code_lt ty; have := a.isLt; have := b.isLt; have := c.isLt; have := vo_le o
  refine decode_of sl gd rfl ?_ (by simp [Encode.fE]) (by simp [Encode.fE]) ?_ hq hw
  · have := gd.pred.isLt; have := b1_lt gd.sense
    simp only [Raw.inRange, Encode.fE]; omega
  · have hz := badVec_rnd hw
    simp only [Bool.not_eq_true'] at hz
    simp (disch := omega) [Encode.fE, Decode.skel, Decode.vector, Decode.mk, Decode.one, hz, g_iff,
      -Fin.ofNat_eq_cast, fin_iff, bv_iff]
    try omega

theorem Word.vmin (ty : Ty) (a b c : VReg) (mask : LaneMask) : Word.Statement (.vmin ty a b c mask) := by
  intro sl gd _ hw hq hg
  have := code_lt ty; have := a.isLt; have := b.isLt; have := c.isLt; have := mm_le mask; have := vm_le mask
  refine decode_of sl gd rfl ?_ (by simp [Encode.fE]) (by simp [Encode.fE]) ?_ hq hw
  · have := gd.pred.isLt; have := b1_lt gd.sense
    simp only [Raw.inRange, Encode.fE]; omega
  · simp (disch := omega) [Encode.fE, Decode.skel, Decode.vector, Decode.mk, Decode.one, g_iff, -Fin.ofNat_eq_cast,
    fin_iff, bv_iff]
    try omega

theorem Word.vmax (ty : Ty) (a b c : VReg) (mask : LaneMask) : Word.Statement (.vmax ty a b c mask) := by
  intro sl gd _ hw hq hg
  have := code_lt ty; have := a.isLt; have := b.isLt; have := c.isLt; have := mm_le mask; have := vm_le mask
  refine decode_of sl gd rfl ?_ (by simp [Encode.fE]) (by simp [Encode.fE]) ?_ hq hw
  · have := gd.pred.isLt; have := b1_lt gd.sense
    simp only [Raw.inRange, Encode.fE]; omega
  · simp (disch := omega) [Encode.fE, Decode.skel, Decode.vector, Decode.mk, Decode.one, g_iff, -Fin.ofNat_eq_cast,
    fin_iff, bv_iff]
    try omega

theorem Word.vdiv (ty : Ty) (a b c : VReg) (mask : LaneMask) (rnd : Fin 5) : Word.Statement
    (.vdiv ty a b c mask rnd) := by
  intro sl gd _ hw hq hg
  have := code_lt ty; have := a.isLt; have := b.isLt; have := c.isLt; have := rnd.isLt; have := mm_le mask; have
      := vm_le mask; have := vo_le ⟨mask, rnd, false⟩
  refine decode_of sl gd rfl ?_ (by simp [Encode.fE]) (by simp [Encode.fE]) ?_ hq hw
  · have := gd.pred.isLt; have := b1_lt gd.sense
    simp only [Raw.inRange, Encode.fE]; omega
  · have hz := badVec_rnd hw
    simp only [Bool.not_eq_true'] at hz
    simp (disch := omega) [Encode.fE, Decode.skel, Decode.vector, Decode.mk, Decode.one, hz, g_iff,
      -Fin.ofNat_eq_cast, fin_iff, bv_iff]
    try omega

theorem Word.vfma (ty : Ty) (a b c d : VReg) (o : VOpt) : Word.Statement (.vfma ty a b c d o) := by
  intro sl gd _ hw hq hg
  have := code_lt ty; have := a.isLt; have := b.isLt; have := c.isLt; have := d.isLt; have := vo_le o
  refine decode_of sl gd rfl ?_ (by simp [Encode.fE]) (by simp [Encode.fE]) ?_ hq hw
  · have := gd.pred.isLt; have := b1_lt gd.sense
    simp only [Raw.inRange, Encode.fE]; omega
  · have hz := badVec_rnd hw
    simp only [Bool.not_eq_true'] at hz
    simp (disch := omega) [Encode.fE, Decode.skel, Decode.vector, Decode.mk, Decode.one, hz, g_iff,
      -Fin.ofNat_eq_cast, fin_iff, bv_iff]
    try omega

theorem Word.vsqrt (ty : Ty) (a b : VReg) (mask : LaneMask) (rnd : Fin 5) : Word.Statement
    (.vsqrt ty a b mask rnd) := by
  intro sl gd _ hw hq hg
  have := code_lt ty; have := a.isLt; have := b.isLt; have := rnd.isLt; have := mm_le mask; have := vm_le mask;
      have := vo_le ⟨mask, rnd, false⟩
  refine decode_of sl gd rfl ?_ (by simp [Encode.fE]) (by simp [Encode.fE]) ?_ hq hw
  · have := gd.pred.isLt; have := b1_lt gd.sense
    simp only [Raw.inRange, Encode.fE]; omega
  · have hz := isFloat_rnd (badType_ok hw) rnd.val
    simp only [Bool.not_eq_true'] at hz
    simp (disch := omega) [Encode.fE, Decode.skel, Decode.vector, Decode.mk, Decode.one, hz, g_iff,
      -Fin.ofNat_eq_cast, fin_iff, bv_iff]
    try omega

theorem Word.vrcp (ty : Ty) (a b : VReg) (mask : LaneMask) (rnd : Fin 5) : Word.Statement (.vrcp ty a b mask rnd)
    := by
  intro sl gd _ hw hq hg
  have := code_lt ty; have := a.isLt; have := b.isLt; have := rnd.isLt; have := mm_le mask; have := vm_le mask;
      have := vo_le ⟨mask, rnd, false⟩
  refine decode_of sl gd rfl ?_ (by simp [Encode.fE]) (by simp [Encode.fE]) ?_ hq hw
  · have := gd.pred.isLt; have := b1_lt gd.sense
    simp only [Raw.inRange, Encode.fE]; omega
  · have hz := isFloat_rnd (badType_ok hw) rnd.val
    simp only [Bool.not_eq_true'] at hz
    simp (disch := omega) [Encode.fE, Decode.skel, Decode.vector, Decode.mk, Decode.one, hz, g_iff,
      -Fin.ofNat_eq_cast, fin_iff, bv_iff]
    try omega

theorem Word.vrsq (ty : Ty) (a b : VReg) (mask : LaneMask) (rnd : Fin 5) : Word.Statement (.vrsq ty a b mask rnd)
    := by
  intro sl gd _ hw hq hg
  have := code_lt ty; have := a.isLt; have := b.isLt; have := rnd.isLt; have := mm_le mask; have := vm_le mask;
      have := vo_le ⟨mask, rnd, false⟩
  refine decode_of sl gd rfl ?_ (by simp [Encode.fE]) (by simp [Encode.fE]) ?_ hq hw
  · have := gd.pred.isLt; have := b1_lt gd.sense
    simp only [Raw.inRange, Encode.fE]; omega
  · have hz := isFloat_rnd (badType_ok hw) rnd.val
    simp only [Bool.not_eq_true'] at hz
    simp (disch := omega) [Encode.fE, Decode.skel, Decode.vector, Decode.mk, Decode.one, hz, g_iff,
      -Fin.ofNat_eq_cast, fin_iff, bv_iff]
    try omega

theorem Word.vexp2 (ty : Ty) (a b : VReg) (mask : LaneMask) (rnd : Fin 5) : Word.Statement
    (.vexp2 ty a b mask rnd) := by
  intro sl gd _ hw hq hg
  have := code_lt ty; have := a.isLt; have := b.isLt; have := rnd.isLt; have := mm_le mask; have := vm_le mask;
      have := vo_le ⟨mask, rnd, false⟩
  refine decode_of sl gd rfl ?_ (by simp [Encode.fE]) (by simp [Encode.fE]) ?_ hq hw
  · have := gd.pred.isLt; have := b1_lt gd.sense
    simp only [Raw.inRange, Encode.fE]; omega
  · have hz := isFloat_rnd (badType_ok hw) rnd.val
    simp only [Bool.not_eq_true'] at hz
    simp (disch := omega) [Encode.fE, Decode.skel, Decode.vector, Decode.mk, Decode.one, hz, g_iff,
      -Fin.ofNat_eq_cast, fin_iff, bv_iff]
    try omega

theorem Word.vlog2 (ty : Ty) (a b : VReg) (mask : LaneMask) (rnd : Fin 5) : Word.Statement
    (.vlog2 ty a b mask rnd) := by
  intro sl gd _ hw hq hg
  have := code_lt ty; have := a.isLt; have := b.isLt; have := rnd.isLt; have := mm_le mask; have := vm_le mask;
      have := vo_le ⟨mask, rnd, false⟩
  refine decode_of sl gd rfl ?_ (by simp [Encode.fE]) (by simp [Encode.fE]) ?_ hq hw
  · have := gd.pred.isLt; have := b1_lt gd.sense
    simp only [Raw.inRange, Encode.fE]; omega
  · have hz := isFloat_rnd (badType_ok hw) rnd.val
    simp only [Bool.not_eq_true'] at hz
    simp (disch := omega) [Encode.fE, Decode.skel, Decode.vector, Decode.mk, Decode.one, hz, g_iff,
      -Fin.ofNat_eq_cast, fin_iff, bv_iff]
    try omega

theorem Word.vabs (ty : Ty) (a b : VReg) (mask : LaneMask) (sat : Bool) : Word.Statement (.vabs ty a b mask sat) := by
  intro sl gd _ hw hq hg
  have := code_lt ty; have := a.isLt; have := b.isLt; have := mm_le mask; have := vm_le mask; have := b1_lt sat
  refine decode_of sl gd rfl ?_ (by simp [Encode.fE]) (by simp [Encode.fE]) ?_ hq hw
  · have := gd.pred.isLt; have := b1_lt gd.sense
    simp only [Raw.inRange, Encode.fE]; omega
  · simp (disch := omega) [Encode.fE, Decode.skel, Decode.vector, Decode.mk, Decode.one, g_iff, -Fin.ofNat_eq_cast,
    fin_iff, bv_iff]
    try omega

theorem Word.vneg (ty : Ty) (a b : VReg) (mask : LaneMask) (sat : Bool) : Word.Statement (.vneg ty a b mask sat) := by
  intro sl gd _ hw hq hg
  have := code_lt ty; have := a.isLt; have := b.isLt; have := mm_le mask; have := vm_le mask; have := b1_lt sat
  refine decode_of sl gd rfl ?_ (by simp [Encode.fE]) (by simp [Encode.fE]) ?_ hq hw
  · have := gd.pred.isLt; have := b1_lt gd.sense
    simp only [Raw.inRange, Encode.fE]; omega
  · simp (disch := omega) [Encode.fE, Decode.skel, Decode.vector, Decode.mk, Decode.one, g_iff, -Fin.ofNat_eq_cast,
    fin_iff, bv_iff]
    try omega

theorem Word.vnot (ty : Ty) (a b : VReg) (mask : LaneMask) : Word.Statement (.vnot ty a b mask) := by
  intro sl gd _ hw hq hg
  have := code_lt ty; have := a.isLt; have := b.isLt; have := mm_le mask; have := vm_le mask
  refine decode_of sl gd rfl ?_ (by simp [Encode.fE]) (by simp [Encode.fE]) ?_ hq hw
  · have := gd.pred.isLt; have := b1_lt gd.sense
    simp only [Raw.inRange, Encode.fE]; omega
  · simp (disch := omega) [Encode.fE, Decode.skel, Decode.vector, Decode.mk, Decode.one, g_iff, -Fin.ofNat_eq_cast,
    fin_iff, bv_iff]
    try omega

theorem Word.vand (ty : Ty) (a b c : VReg) (mask : LaneMask) : Word.Statement (.vand ty a b c mask) := by
  intro sl gd _ hw hq hg
  have := code_lt ty; have := a.isLt; have := b.isLt; have := c.isLt; have := mm_le mask; have := vm_le mask
  refine decode_of sl gd rfl ?_ (by simp [Encode.fE]) (by simp [Encode.fE]) ?_ hq hw
  · have := gd.pred.isLt; have := b1_lt gd.sense
    simp only [Raw.inRange, Encode.fE]; omega
  · simp (disch := omega) [Encode.fE, Decode.skel, Decode.vector, Decode.mk, Decode.one, g_iff, -Fin.ofNat_eq_cast,
    fin_iff, bv_iff]
    try omega

theorem Word.vor (ty : Ty) (a b c : VReg) (mask : LaneMask) : Word.Statement (.vor ty a b c mask) := by
  intro sl gd _ hw hq hg
  have := code_lt ty; have := a.isLt; have := b.isLt; have := c.isLt; have := mm_le mask; have := vm_le mask
  refine decode_of sl gd rfl ?_ (by simp [Encode.fE]) (by simp [Encode.fE]) ?_ hq hw
  · have := gd.pred.isLt; have := b1_lt gd.sense
    simp only [Raw.inRange, Encode.fE]; omega
  · simp (disch := omega) [Encode.fE, Decode.skel, Decode.vector, Decode.mk, Decode.one, g_iff, -Fin.ofNat_eq_cast,
    fin_iff, bv_iff]
    try omega

theorem Word.vxor (ty : Ty) (a b c : VReg) (mask : LaneMask) : Word.Statement (.vxor ty a b c mask) := by
  intro sl gd _ hw hq hg
  have := code_lt ty; have := a.isLt; have := b.isLt; have := c.isLt; have := mm_le mask; have := vm_le mask
  refine decode_of sl gd rfl ?_ (by simp [Encode.fE]) (by simp [Encode.fE]) ?_ hq hw
  · have := gd.pred.isLt; have := b1_lt gd.sense
    simp only [Raw.inRange, Encode.fE]; omega
  · simp (disch := omega) [Encode.fE, Decode.skel, Decode.vector, Decode.mk, Decode.one, g_iff, -Fin.ofNat_eq_cast,
    fin_iff, bv_iff]
    try omega

theorem Word.vshl (ty : Ty) (a b : VReg) (k : ShiftCount) (mask : LaneMask) : Word.Statement (.vshl ty a b k mask)
    := by
  intro sl gd _ hw hq hg
  have := gd.pred.isLt; have := b1_lt gd.sense; have := code_lt ty; have := a.isLt; have := b.isLt; have := vm_le mask
  rcases k with k | k
  · have := k.isLt
    refine decode_of sl gd rfl ?_ (by simp [Encode.fE]) (by simp [Encode.fE]) ?_ hq hw
    · simp only [Raw.inRange, Encode.fE]; omega
    · simp (disch := omega) [Encode.fE, Decode.skel, Decode.vector, Decode.mk, Decode.shiftCount, Nat.div_eq_of_lt]
  · have := k.isLt
    refine decode_of sl gd rfl ?_ (by simp [Encode.fE]) (by simp [Encode.fE]) ?_ hq hw
    · simp only [Raw.inRange, Encode.fE]; omega
    · simp (disch := omega) [Encode.fE, Decode.skel, Decode.vector, Decode.mk, Decode.shiftCount, Nat.div_eq_of_lt]

theorem Word.vshr (ty : Ty) (a b : VReg) (k : ShiftCount) (mask : LaneMask) : Word.Statement (.vshr ty a b k mask)
    := by
  intro sl gd _ hw hq hg
  have := gd.pred.isLt; have := b1_lt gd.sense; have := code_lt ty; have := a.isLt; have := b.isLt; have := vm_le mask
  rcases k with k | k
  · have := k.isLt
    refine decode_of sl gd rfl ?_ (by simp [Encode.fE]) (by simp [Encode.fE]) ?_ hq hw
    · simp only [Raw.inRange, Encode.fE]; omega
    · simp (disch := omega) [Encode.fE, Decode.skel, Decode.vector, Decode.mk, Decode.shiftCount, Nat.div_eq_of_lt]
  · have := k.isLt
    refine decode_of sl gd rfl ?_ (by simp [Encode.fE]) (by simp [Encode.fE]) ?_ hq hw
    · simp only [Raw.inRange, Encode.fE]; omega
    · simp (disch := omega) [Encode.fE, Decode.skel, Decode.vector, Decode.mk, Decode.shiftCount, Nat.div_eq_of_lt]

theorem Word.vsar (ty : Ty) (a b : VReg) (k : ShiftCount) (mask : LaneMask) : Word.Statement (.vsar ty a b k mask)
    := by
  intro sl gd _ hw hq hg
  have := gd.pred.isLt; have := b1_lt gd.sense; have := code_lt ty; have := a.isLt; have := b.isLt; have := vm_le mask
  rcases k with k | k
  · have := k.isLt
    refine decode_of sl gd rfl ?_ (by simp [Encode.fE]) (by simp [Encode.fE]) ?_ hq hw
    · simp only [Raw.inRange, Encode.fE]; omega
    · simp (disch := omega) [Encode.fE, Decode.skel, Decode.vector, Decode.mk, Decode.shiftCount, Nat.div_eq_of_lt]
  · have := k.isLt
    refine decode_of sl gd rfl ?_ (by simp [Encode.fE]) (by simp [Encode.fE]) ?_ hq hw
    · simp only [Raw.inRange, Encode.fE]; omega
    · simp (disch := omega) [Encode.fE, Decode.skel, Decode.vector, Decode.mk, Decode.shiftCount, Nat.div_eq_of_lt]

theorem Word.vcmp (cc : VCc) (ty : Ty) (m : MReg) (b c : VReg) (mask : LaneMask) : Word.Statement
    (.vcmp cc ty m b c mask) := by
  intro sl gd _ hw hq hg
  have := vcc_code_lt cc; have := code_lt ty; have := m.isLt; have := b.isLt; have := c.isLt; have := mm_le mask;
      have := vm_le mask
  refine decode_of sl gd rfl ?_ (by simp [Encode.fE]) (by simp [Encode.fE]) ?_ hq hw
  · have := gd.pred.isLt; have := b1_lt gd.sense
    simp only [Raw.inRange, Encode.fE]; omega
  · simp (disch := omega) [Encode.fE, Decode.skel, Decode.vector, Decode.mk, Decode.one, vcc_code_lt cc, g_iff,
      -Fin.ofNat_eq_cast, fin_iff, bv_iff]
    try omega

theorem Word.vsel (ty : Ty) (a : VReg) (m : MReg) (c d : VReg) : Word.Statement (.vsel ty a m c d) := by
  intro sl gd _ hw hq hg
  have := code_lt ty; have := a.isLt; have := m.isLt; have := c.isLt; have := d.isLt
  refine decode_of sl gd rfl ?_ (by simp [Encode.fE]) (by simp [Encode.fE]) ?_ hq hw
  · have := gd.pred.isLt; have := b1_lt gd.sense
    simp only [Raw.inRange, Encode.fE]; omega
  · simp (disch := omega) [bits, Nat.div_eq_of_lt, Nat.mod_eq_of_lt, Encode.fE, Decode.skel, Decode.vector,
      Decode.mk, Decode.one, Decode.vz, Decode.vmk, Decode.vsatBit, g_iff, -Fin.ofNat_eq_cast, fin_iff, bv_iff]
    try omega

theorem Word.vcvt (dst src : Ty) (a b : VReg) (p : Fin 16) (scale : ScaleOp) (o : VOpt) : Word.Statement
    (.vcvt dst src a b p scale o) := by
  intro sl gd _ hw hq hg
  have := code_lt dst; have := code_lt src; have := a.isLt; have := b.isLt; have := p.isLt; have := vo_le o; have
      := scX_lt scale; have := scI_lt scale
  refine decode_of sl gd rfl ?_ (by simp [Encode.fE]) (by simp [Encode.fE]) ?_ hq hw
  · have := gd.pred.isLt; have := b1_lt gd.sense
    simp only [Raw.inRange, Encode.fE]; omega
  · have e : Encode.scX scale = 0 ∨ Encode.scX scale = 32 := by cases scale <;> simp [Encode.scX]
    have e' : Encode.scI scale % 256 = 0 := by
      cases scale with
      | auto => rfl
      | given s => simp only [Encode.scI]; omega
    have hz := cvt_rnd hw
    have hb := vo_bits o
    have hv := vopt_add 0x76 (Encode.b1 gd.sense) gd.pred.val 0 a.val b.val 0 0 dst.code (Encode.scI scale + p.val) o
      (Encode.scX scale + src.code) (by omega)
    have hr := rnd_add o (Encode.scX scale + src.code) (by omega)
    have hs := scaleOp_eq 0x76 (Encode.b1 gd.sense) gd.pred.val 0 a.val b.val 0 0 dst.code
      (Encode.vo o + src.code) p.val scale (by omega) (by omega)
    have hc : Encode.vo o + src.code + Encode.scX scale = Encode.vo o + Encode.scX scale + src.code := by omega
    rw [hc] at hs
    rw [← Nat.add_assoc] at hv hr
    have h0 : bits (Encode.vo o + Encode.scX scale + src.code) 4 0 = src.code := by simp only [bits]; omega
    have h1 : bits (Encode.vo o + Encode.scX scale + src.code) 10 10 = 0 := by
      have := hb.2.1; simp only [bits] at *; omega
    have h2 : bits (Encode.vo o + Encode.scX scale + src.code) 8 8 = 0 := by simp only [bits]; omega
    have h3 : bits (Encode.vo o + Encode.scX scale + src.code) 7 6 = 0 := by simp only [bits]; omega
    have h4 : bits (Encode.vo o + Encode.scX scale + src.code) 11 11 = 0 →
        bits (Encode.vo o + Encode.scX scale + src.code) 18 15 = 0 := by
      have := hb.2.2; simp only [bits] at *; omega
    have h7 : bits (Encode.scI scale + p.val) 7 4 = 0 := by simp only [bits]; omega
    have h8 : (Encode.scI scale + p.val) / 65536 = 0 := by
      cases scale with
      | auto => simp only [Encode.scI]; omega
      | given s => have := s.isLt; simp only [Encode.scI]; omega
    have h9 : (Encode.scI scale + p.val) % 16 = p.val := by omega
    have hlt := o.rnd.isLt
    simp only [Encode.fE, Decode.skel, Decode.vector, Decode.mk, Decode.one]
    simp [Decode.vz, Decode.vmk, Decode.rndOk, hs, hv, hr, h0, h1, h2, h3, h7, h8, h9, -Fin.ofNat_eq_cast, fin_iff]
    exact ⟨fun hm => ⟨hm, h4 hm⟩, fun x y => by simp [hz x y]⟩

theorem Word.vsat (ty : Ty) (a b : VReg) (n : Fin 128) (mask : LaneMask) : Word.Statement (.vsat ty a b n mask) := by
  intro sl gd _ hw hq hg
  have := code_lt ty; have := a.isLt; have := b.isLt; have := n.isLt; have := mm_le mask; have := vm_le mask
  refine decode_of sl gd rfl ?_ (by simp [Encode.fE]) (by simp [Encode.fE]) ?_ hq hw
  · have := gd.pred.isLt; have := b1_lt gd.sense
    simp only [Raw.inRange, Encode.fE]; omega
  · simp (disch := omega) [Encode.fE, Decode.skel, Decode.vector, Decode.mk, Decode.one, g_iff, -Fin.ofNat_eq_cast,
    fin_iff, bv_iff]
    try omega

theorem Word.vpack (ty : Ty) (a b c : VReg) (mask : LaneMask) (sat : Bool) : Word.Statement
    (.vpack ty a b c mask sat) := by
  intro sl gd _ hw hq hg
  have := code_lt ty; have := a.isLt; have := b.isLt; have := c.isLt; have := mm_le mask; have := vm_le mask; have
      := b1_lt sat
  refine decode_of sl gd rfl ?_ (by simp [Encode.fE]) (by simp [Encode.fE]) ?_ hq hw
  · have := gd.pred.isLt; have := b1_lt gd.sense
    simp only [Raw.inRange, Encode.fE]; omega
  · simp (disch := omega) [Encode.fE, Decode.skel, Decode.vector, Decode.mk, Decode.one, g_iff, -Fin.ofNat_eq_cast,
    fin_iff, bv_iff]
    try omega

theorem Word.vunpk (ty : Ty) (a b : VReg) (p : Bool) (mask : LaneMask) : Word.Statement (.vunpk ty a b p mask) := by
  intro sl gd _ hw hq hg
  have := code_lt ty; have := a.isLt; have := b.isLt; have := b1_lt p; have := mm_le mask; have := vm_le mask
  refine decode_of sl gd rfl ?_ (by simp [Encode.fE]) (by simp [Encode.fE]) ?_ hq hw
  · have := gd.pred.isLt; have := b1_lt gd.sense
    simp only [Raw.inRange, Encode.fE]; omega
  · simp (disch := omega) [Encode.fE, Decode.skel, Decode.vector, Decode.mk, Decode.one, g_iff, -Fin.ofNat_eq_cast,
    fin_iff, bv_iff]
    cases p <;> simp [Encode.b1]

theorem Word.vred (op : VComb) (ty : Ty) (a : GReg) (b : VReg) (mask : LaneMask) (rnd : Fin 5) : Word.Statement
    (.vred op ty a b mask rnd) := by
  intro sl gd _ hw hq hg
  have := vcomb_code_lt op; have := code_lt ty; have := a.isLt; have := b.isLt; have := rnd.isLt; have
      := vo_le ⟨mask, rnd, false⟩
  refine decode_of sl gd rfl ?_ (by simp [Encode.fE]) (by simp [Encode.fE]) ?_ hq hw
  · have := gd.pred.isLt; have := b1_lt gd.sense
    simp only [Raw.inRange, Encode.fE]; omega
  · have hz : (if (op.code == 0 && !ty.isInt) = true then 0 else rnd.val) = 0 := by
      by_cases hr : rnd = 0
      · simp [hr]
      · have hw' : firstReason (rnd != 0 && (op != .add || ty.isInt))
            (!(ty.isInt || (ty.isFloat && (op == .add || op == .min || op == .max)))) false = none := hw
        cases hi : ty.isInt <;> cases op <;> simp_all [firstReason, VComb.code]
    simp only [Encode.fE, Decode.skel, Decode.vector, Decode.mk, Decode.one]
    simp [vcomb_code_lt op, hz]
    simpa using hz

theorem Word.vscan (op : VComb) (ty : Ty) (a b : VReg) (mask : LaneMask) (rnd : Fin 5) : Word.Statement
    (.vscan op ty a b mask rnd) := by
  intro sl gd _ hw hq hg
  have := vcomb_code_lt op; have := code_lt ty; have := a.isLt; have := b.isLt; have := rnd.isLt; have
      := vo_le ⟨mask, rnd, false⟩
  refine decode_of sl gd rfl ?_ (by simp [Encode.fE]) (by simp [Encode.fE]) ?_ hq hw
  · have := gd.pred.isLt; have := b1_lt gd.sense
    simp only [Raw.inRange, Encode.fE]; omega
  · have hz : (if (op.code == 0 && !ty.isInt) = true then 0 else rnd.val) = 0 := by
      by_cases hr : rnd = 0
      · simp [hr]
      · have hw' : firstReason (rnd != 0 && (op != .add || ty.isInt))
            (!(ty.isInt || (ty.isFloat && (op == .add || op == .min || op == .max)))) false = none := hw
        cases hi : ty.isInt <;> cases op <;> simp_all [firstReason, VComb.code]
    simp only [Encode.fE, Decode.skel, Decode.vector, Decode.mk, Decode.one]
    simp [vcomb_code_lt op, hz]
    simpa using hz

theorem Word.vdot (ty : Ty) (a b c : VReg) (mask : LaneMask) (rnd : Fin 5) : Word.Statement
    (.vdot ty a b c mask rnd) := by
  intro sl gd _ hw hq hg
  have := code_lt ty; have := a.isLt; have := b.isLt; have := c.isLt; have := rnd.isLt; have := mm_le mask; have
      := vm_le mask; have := vo_le ⟨mask, rnd, false⟩
  refine decode_of sl gd rfl ?_ (by simp [Encode.fE]) (by simp [Encode.fE]) ?_ hq hw
  · have := gd.pred.isLt; have := b1_lt gd.sense
    simp only [Raw.inRange, Encode.fE]; omega
  · have hz := badVec_rnd hw
    simp only [Bool.not_eq_true'] at hz
    simp (disch := omega) [Encode.fE, Decode.skel, Decode.vector, Decode.mk, Decode.one, hz, g_iff,
      -Fin.ofNat_eq_cast, fin_iff, bv_iff]
    try omega

theorem Word.vmacc (ty : Ty) (a b : VReg) (c : GReg) (o : VOpt) : Word.Statement (.vmacc ty a b c o) := by
  intro sl gd _ hw hq hg
  have := code_lt ty; have := a.isLt; have := b.isLt; have := c.isLt; have := vo_le o
  refine decode_of sl gd rfl ?_ (by simp [Encode.fE]) (by simp [Encode.fE]) ?_ hq hw
  · have := gd.pred.isLt; have := b1_lt gd.sense
    simp only [Raw.inRange, Encode.fE]; omega
  · have hz := badVec_rnd hw
    simp only [Bool.not_eq_true'] at hz
    simp (disch := omega) [Encode.fE, Decode.skel, Decode.vector, Decode.mk, Decode.one, hz, g_iff,
      -Fin.ofNat_eq_cast, fin_iff, bv_iff]
    try omega

theorem Word.vperm (ty : Ty) (a b c : VReg) (mask : LaneMask) : Word.Statement (.vperm ty a b c mask) := by
  intro sl gd _ hw hq hg
  have := code_lt ty; have := a.isLt; have := b.isLt; have := c.isLt; have := mm_le mask; have := vm_le mask
  refine decode_of sl gd rfl ?_ (by simp [Encode.fE]) (by simp [Encode.fE]) ?_ hq hw
  · have := gd.pred.isLt; have := b1_lt gd.sense
    simp only [Raw.inRange, Encode.fE]; omega
  · simp (disch := omega) [Encode.fE, Decode.skel, Decode.vector, Decode.mk, Decode.one, g_iff, -Fin.ofNat_eq_cast,
    fin_iff, bv_iff]
    try omega

theorem Word.vshuf (ty : Ty) (a b c : VReg) (mask : LaneMask) : Word.Statement (.vshuf ty a b c mask) := by
  intro sl gd _ hw hq hg
  have := code_lt ty; have := a.isLt; have := b.isLt; have := c.isLt; have := mm_le mask; have := vm_le mask
  refine decode_of sl gd rfl ?_ (by simp [Encode.fE]) (by simp [Encode.fE]) ?_ hq hw
  · have := gd.pred.isLt; have := b1_lt gd.sense
    simp only [Raw.inRange, Encode.fE]; omega
  · simp (disch := omega) [Encode.fE, Decode.skel, Decode.vector, Decode.mk, Decode.one, g_iff, -Fin.ofNat_eq_cast,
    fin_iff, bv_iff]
    try omega

theorem Word.vbcast (ty : Ty) (a : VReg) (b : GReg) (mask : LaneMask) : Word.Statement (.vbcast ty a b mask) := by
  intro sl gd _ hw hq hg
  have := code_lt ty; have := a.isLt; have := b.isLt; have := mm_le mask; have := vm_le mask
  refine decode_of sl gd rfl ?_ (by simp [Encode.fE]) (by simp [Encode.fE]) ?_ hq hw
  · have := gd.pred.isLt; have := b1_lt gd.sense
    simp only [Raw.inRange, Encode.fE]; omega
  · simp (disch := omega) [Encode.fE, Decode.skel, Decode.vector, Decode.mk, Decode.one, g_iff, -Fin.ofNat_eq_cast,
    fin_iff, bv_iff]
    try omega

theorem Word.vext (ty : Ty) (a : GReg) (b : VReg) (n : LaneIndex) : Word.Statement (.vext ty a b n) := by
  intro sl gd _ hw hq hg
  have := gd.pred.isLt; have := b1_lt gd.sense; have := code_lt ty; have := a.isLt; have := b.isLt
  rcases n with n | n
  · have := n.isLt
    refine decode_of sl gd rfl ?_ (by simp [Encode.fE]) (by simp [Encode.fE]) ?_ hq hw
    · simp only [Raw.inRange, Encode.fE]; omega
    · simp [Encode.fE, Decode.skel, Decode.vector, Decode.mk, Decode.one, Decode.laneIndex, Decode.vix, Decode.vz,
        Decode.vmk,
        Decode.vsatBit, bits]
  · have := n.isLt
    refine decode_of sl gd rfl ?_ (by simp [Encode.fE]) (by simp [Encode.fE]) ?_ hq hw
    · simp only [Raw.inRange, Encode.fE]; omega
    · simp [Encode.fE, Decode.skel, Decode.vector, Decode.mk, Decode.one, Decode.laneIndex, Decode.vix, Decode.vz,
        Decode.vmk,
        Decode.vsatBit, bits]

theorem Word.vins (ty : Ty) (a : VReg) (b : GReg) (n : LaneIndex) : Word.Statement (.vins ty a b n) := by
  intro sl gd _ hw hq hg
  have := gd.pred.isLt; have := b1_lt gd.sense; have := code_lt ty; have := a.isLt; have := b.isLt
  rcases n with n | n
  · have := n.isLt
    refine decode_of sl gd rfl ?_ (by simp [Encode.fE]) (by simp [Encode.fE]) ?_ hq hw
    · simp only [Raw.inRange, Encode.fE]; omega
    · simp [Encode.fE, Decode.skel, Decode.vector, Decode.mk, Decode.one, Decode.laneIndex, Decode.vix, Decode.vz,
        Decode.vmk,
        Decode.vsatBit, bits]
  · have := n.isLt
    refine decode_of sl gd rfl ?_ (by simp [Encode.fE]) (by simp [Encode.fE]) ?_ hq hw
    · simp only [Raw.inRange, Encode.fE]; omega
    · simp [Encode.fE, Decode.skel, Decode.vector, Decode.mk, Decode.one, Decode.laneIndex, Decode.vix, Decode.vz,
        Decode.vmk,
        Decode.vsatBit, bits]

theorem Word.vmov (a b : VReg) : Word.Statement (.vmov a b) := by
  intro sl gd _ hw hq hg
  have := a.isLt; have := b.isLt
  refine decode_of sl gd rfl ?_ (by simp [Encode.fE]) (by simp [Encode.fE]) ?_ hq hw
  · have := gd.pred.isLt; have := b1_lt gd.sense
    simp only [Raw.inRange, Encode.fE]; omega
  · simp (disch := omega) [bits, Nat.div_eq_of_lt, Nat.mod_eq_of_lt, Encode.fE, Decode.skel, Decode.vector,
      Decode.mk, Decode.one, Decode.vz, Decode.vmk, Decode.vsatBit, g_iff, -Fin.ofNat_eq_cast, fin_iff, bv_iff]
    try omega

theorem Word.vcnt (op : CntOp) (ty : Ty) (a b : VReg) (mask : LaneMask) : Word.Statement (.vcnt op ty a b mask) := by
  intro sl gd _ hw hq hg
  have := cntOp_code_lt op; have := code_lt ty; have := a.isLt; have := b.isLt; have := mm_le mask; have := vm_le mask
  refine decode_of sl gd rfl ?_ (by simp [Encode.fE]) (by simp [Encode.fE]) ?_ hq hw
  · have := gd.pred.isLt; have := b1_lt gd.sense
    simp only [Raw.inRange, Encode.fE]; omega
  · simp (disch := omega) [Encode.fE, Decode.skel, Decode.vector, Decode.mk, Decode.one, g_iff, -Fin.ofNat_eq_cast,
    fin_iff, bv_iff]
    try omega

theorem Word.mand (ty : Ty) (a b c : MReg) : Word.Statement (.mand ty a b c) := by
  intro sl gd _ hw hq hg
  have := code_lt ty; have := a.isLt; have := b.isLt; have := c.isLt
  refine decode_of sl gd rfl ?_ (by simp [Encode.fE]) (by simp [Encode.fE]) ?_ hq hw
  · have := gd.pred.isLt; have := b1_lt gd.sense
    simp only [Raw.inRange, Encode.fE]; omega
  · simp (disch := omega) [bits, Nat.div_eq_of_lt, Nat.mod_eq_of_lt, Encode.fE, Decode.skel, Decode.vector,
      Decode.mk, Decode.one, Decode.vz, Decode.vmk, Decode.vsatBit, g_iff, -Fin.ofNat_eq_cast, fin_iff, bv_iff]
    try omega

theorem Word.mor (ty : Ty) (a b c : MReg) : Word.Statement (.mor ty a b c) := by
  intro sl gd _ hw hq hg
  have := code_lt ty; have := a.isLt; have := b.isLt; have := c.isLt
  refine decode_of sl gd rfl ?_ (by simp [Encode.fE]) (by simp [Encode.fE]) ?_ hq hw
  · have := gd.pred.isLt; have := b1_lt gd.sense
    simp only [Raw.inRange, Encode.fE]; omega
  · simp (disch := omega) [bits, Nat.div_eq_of_lt, Nat.mod_eq_of_lt, Encode.fE, Decode.skel, Decode.vector,
      Decode.mk, Decode.one, Decode.vz, Decode.vmk, Decode.vsatBit, g_iff, -Fin.ofNat_eq_cast, fin_iff, bv_iff]
    try omega

theorem Word.mnot (ty : Ty) (a b : MReg) : Word.Statement (.mnot ty a b) := by
  intro sl gd _ hw hq hg
  have := code_lt ty; have := a.isLt; have := b.isLt
  refine decode_of sl gd rfl ?_ (by simp [Encode.fE]) (by simp [Encode.fE]) ?_ hq hw
  · have := gd.pred.isLt; have := b1_lt gd.sense
    simp only [Raw.inRange, Encode.fE]; omega
  · simp (disch := omega) [bits, Nat.div_eq_of_lt, Nat.mod_eq_of_lt, Encode.fE, Decode.skel, Decode.vector,
      Decode.mk, Decode.one, Decode.vz, Decode.vmk, Decode.vsatBit, g_iff, -Fin.ofNat_eq_cast, fin_iff, bv_iff]
    try omega

theorem Word.mpop (ty : Ty) (a : GReg) (b : MReg) : Word.Statement (.mpop ty a b) := by
  intro sl gd _ hw hq hg
  have := code_lt ty; have := a.isLt; have := b.isLt
  refine decode_of sl gd rfl ?_ (by simp [Encode.fE]) (by simp [Encode.fE]) ?_ hq hw
  · have := gd.pred.isLt; have := b1_lt gd.sense
    simp only [Raw.inRange, Encode.fE]; omega
  · simp (disch := omega) [bits, Nat.div_eq_of_lt, Nat.mod_eq_of_lt, Encode.fE, Decode.skel, Decode.vector,
      Decode.mk, Decode.one, Decode.vz, Decode.vmk, Decode.vsatBit, g_iff, -Fin.ofNat_eq_cast, fin_iff, bv_iff]
    try omega

theorem Word.mfirst (ty : Ty) (a : GReg) (b : MReg) : Word.Statement (.mfirst ty a b) := by
  intro sl gd _ hw hq hg
  have := code_lt ty; have := a.isLt; have := b.isLt
  refine decode_of sl gd rfl ?_ (by simp [Encode.fE]) (by simp [Encode.fE]) ?_ hq hw
  · have := gd.pred.isLt; have := b1_lt gd.sense
    simp only [Raw.inRange, Encode.fE]; omega
  · simp (disch := omega) [bits, Nat.div_eq_of_lt, Nat.mod_eq_of_lt, Encode.fE, Decode.skel, Decode.vector,
      Decode.mk, Decode.one, Decode.vz, Decode.vmk, Decode.vsatBit, g_iff, -Fin.ofNat_eq_cast, fin_iff, bv_iff]
    try omega

theorem Word.vblkRd (a : GReg) (b : VReg) (blk : Fin 8) : Word.Statement (.vblkRd a b blk) := by
  intro sl gd _ hw hq hg
  have := a.isLt; have := b.isLt; have := blk.isLt
  refine decode_of sl gd rfl ?_ (by simp [Encode.fE]) (by simp [Encode.fE]) ?_ hq hw
  · have := gd.pred.isLt; have := b1_lt gd.sense
    simp only [Raw.inRange, Encode.fE]; omega
  · simp (disch := omega) [bits, Nat.div_eq_of_lt, Nat.mod_eq_of_lt, Encode.fE, Decode.skel, Decode.vector,
      Decode.mk, Decode.one, Decode.vz, Decode.vmk, Decode.vsatBit, g_iff, -Fin.ofNat_eq_cast, fin_iff, bv_iff]
    try omega

theorem Word.vblkWr (a : VReg) (b : GReg) (sel : BitVec 8) : Word.Statement (.vblkWr a b sel) := by
  intro sl gd _ hw hq hg
  have := a.isLt; have := b.isLt; have := sel.isLt
  refine decode_of sl gd rfl ?_ (by simp [Encode.fE]) (by simp [Encode.fE]) ?_ hq hw
  · have := gd.pred.isLt; have := b1_lt gd.sense
    simp only [Raw.inRange, Encode.fE]; omega
  · simp (disch := omega) [bits, Nat.div_eq_of_lt, Nat.mod_eq_of_lt, Encode.fE, Decode.skel, Decode.vector,
      Decode.mk, Decode.one, Decode.vz, Decode.vmk, Decode.vsatBit, g_iff, -Fin.ofNat_eq_cast, fin_iff, bv_iff]
    try omega

theorem Word.mclr (a : AReg) : Word.Statement (.mclr a) := by
  intro sl gd _ hw hq hg
  have := a.isLt
  refine decode_of sl gd rfl ?_ (by simp [Encode.fE]) (by simp [Encode.fE]) ?_ hq hw
  · have := gd.pred.isLt; have := b1_lt gd.sense
    simp only [Raw.inRange, Encode.fE]; omega
  · simp (disch := omega) [bits, Nat.div_eq_of_lt, Nat.mod_eq_of_lt, Encode.fE, Decode.skel, Decode.engine,
      Decode.mk, Decode.one, g_iff, -Fin.ofNat_eq_cast, fin_iff, bv_iff]
    try omega

theorem Word.mldb (u : Fin 128) (b c d : GReg) (kb : Fin 64) (sp : Bool) (nu : NuCode) : Word.Statement
    (.mldb u b c d kb sp nu) := by
  intro sl gd _ hw hq hg
  have := u.isLt; have := b.isLt; have := c.isLt; have := d.isLt; have := kb.isLt; have := nu.isLt; have := b1_lt sp
  refine decode_of sl gd rfl ?_ (by simp [Encode.fE]) (by simp [Encode.fE]) ?_ hq hw
  · have := gd.pred.isLt; have := b1_lt gd.sense
    simp only [Raw.inRange, Encode.fE]; omega
  · obtain ⟨h3, h4, h7, h8⟩ : (Encode.b1 sp * 2048 + nu.val) / 4096 = 0 ∧
        (Encode.b1 sp * 2048 + nu.val) % 64 = nu.val ∧ (u.val * 256 + kb.val) / 32768 = 0 ∧
        (u.val * 256 + kb.val) % 64 = kb.val := by refine ⟨?_, ?_, ?_, ?_⟩ <;> omega
    have h1 : bits (Encode.b1 sp * 2048 + nu.val) 11 11 = Encode.b1 sp := by simp only [bits]; omega
    have h2 : bits (Encode.b1 sp * 2048 + nu.val) 10 6 = 0 := by simp only [bits]; omega
    have h5 : bits (u.val * 256 + kb.val) 7 6 = 0 := by simp only [bits]; omega
    have h6 : bits (u.val * 256 + kb.val) 14 8 = u.val := by simp only [bits]; omega
    simp [Encode.fE, Decode.skel, Decode.engine, Decode.mk, Decode.one, h1, h2, h3, h4, h5, h6, h7, h8, g_iff,
        -Fin.ofNat_eq_cast, fin_iff]

theorem Word.mmac (ty : Ty) (a : AReg) (b c : GReg) (u : Fin 128) (kb : Fin 64) : Word.Statement
    (.mmac ty a b c u kb) := by
  intro sl gd _ hw hq hg
  have := code_lt ty; have := a.isLt; have := b.isLt; have := c.isLt; have := u.isLt; have := kb.isLt
  refine decode_of sl gd rfl ?_ (by simp [Encode.fE]) (by simp [Encode.fE]) ?_ hq hw
  · have := gd.pred.isLt; have := b1_lt gd.sense
    simp only [Raw.inRange, Encode.fE]; omega
  · simp (disch := omega) [bits, Nat.div_eq_of_lt, Nat.mod_eq_of_lt, Encode.fE, Decode.skel, Decode.engine,
      Decode.mk, Decode.one, g_iff, -Fin.ofNat_eq_cast, fin_iff, bv_iff]
    try omega

theorem Word.mmacs (ty : Ty) (a : AReg) (b c : GReg) (u : Fin 128) (kb : Fin 64) : Word.Statement
    (.mmacs ty a b c u kb) := by
  intro sl gd _ hw hq hg
  have := code_lt ty; have := a.isLt; have := b.isLt; have := c.isLt; have := u.isLt; have := kb.isLt
  refine decode_of sl gd rfl ?_ (by simp [Encode.fE]) (by simp [Encode.fE]) ?_ hq hw
  · have := gd.pred.isLt; have := b1_lt gd.sense
    simp only [Raw.inRange, Encode.fE]; omega
  · simp (disch := omega) [bits, Nat.div_eq_of_lt, Nat.mod_eq_of_lt, Encode.fE, Decode.skel, Decode.engine,
      Decode.mk, Decode.one, g_iff, -Fin.ofNat_eq_cast, fin_iff, bv_iff]
    try omega

theorem Word.mrd (a : VReg) (b : AReg) (q : Fin 32) (c1 : Fin 32) : Word.Statement (.mrd a b q c1) := by
  intro sl gd _ hw hq hg
  have := a.isLt; have := b.isLt; have := q.isLt; have := c1.isLt
  refine decode_of sl gd rfl ?_ (by simp [Encode.fE]) (by simp [Encode.fE]) ?_ hq hw
  · have := gd.pred.isLt; have := b1_lt gd.sense
    simp only [Raw.inRange, Encode.fE]; omega
  · simp (disch := omega) [bits, Nat.div_eq_of_lt, Nat.mod_eq_of_lt, Encode.fE, Decode.skel, Decode.engine,
      Decode.mk, Decode.one, g_iff, -Fin.ofNat_eq_cast, fin_iff, bv_iff]
    try omega

theorem Word.mwr (a : AReg) (b : VReg) (q : Fin 32) (c1 : Fin 32) : Word.Statement (.mwr a b q c1) := by
  intro sl gd _ hw hq hg
  have := a.isLt; have := b.isLt; have := q.isLt; have := c1.isLt
  refine decode_of sl gd rfl ?_ (by simp [Encode.fE]) (by simp [Encode.fE]) ?_ hq hw
  · have := gd.pred.isLt; have := b1_lt gd.sense
    simp only [Raw.inRange, Encode.fE]; omega
  · simp (disch := omega) [bits, Nat.div_eq_of_lt, Nat.mod_eq_of_lt, Encode.fE, Decode.skel, Decode.engine,
      Decode.mk, Decode.one, g_iff, -Fin.ofNat_eq_cast, fin_iff, bv_iff]
    try omega

theorem Word.mcvt (ty : Ty) (a : VReg) (b : AReg) (q : Fin 16) (scale : ScaleOp) (sat : Bool) (rnd : Fin 5)
    : Word.Statement (.mcvt ty a b q scale sat rnd) := by
  intro sl gd _ hw hq hg
  have := code_lt ty; have := a.isLt; have := b.isLt; have := q.isLt; have := rnd.isLt; have := b1_lt sat; have
      := scX_lt scale; have := scI_lt scale
  refine decode_of sl gd rfl ?_ (by simp [Encode.fE]) (by simp [Encode.fE]) ?_ hq hw
  · have := gd.pred.isLt; have := b1_lt gd.sense
    simp only [Raw.inRange, Encode.fE]; omega
  · have hs := scaleOp_eq 0xA6 (Encode.b1 gd.sense) gd.pred.val 0 a.val b.val 0 0 ty.code
      (rnd.val * 4096 + Encode.b1 sat * 512) q.val scale (by omega) (by omega)
    have h8 : (Encode.scI scale + q.val) / 65536 = 0 := by
      cases scale with
      | auto => simp only [Encode.scI]; omega
      | given s => have := s.isLt; simp only [Encode.scI]; omega
    have e : Encode.scX scale = 0 ∨ Encode.scX scale = 32 := by cases scale <;> simp [Encode.scX]
    have e' : Encode.scI scale % 256 = 0 := by
      cases scale with
      | auto => rfl
      | given s => simp only [Encode.scI]; omega
    have h1 : (rnd.val * 4096 + Encode.b1 sat * 512 + Encode.scX scale) / 32768 = 0 := by omega
    have h2 : bits (rnd.val * 4096 + Encode.b1 sat * 512 + Encode.scX scale) 11 10 = 0 := by simp only [bits]; omega
    have h3 : bits (rnd.val * 4096 + Encode.b1 sat * 512 + Encode.scX scale) 8 6 = 0 := by simp only [bits]; omega
    have h4 : bits (rnd.val * 4096 + Encode.b1 sat * 512 + Encode.scX scale) 4 0 = 0 := by simp only [bits]; omega
    have h5 : bits (rnd.val * 4096 + Encode.b1 sat * 512 + Encode.scX scale) 14 12 = rnd.val := by
      simp only [bits]; omega
    have h6 : bits (rnd.val * 4096 + Encode.b1 sat * 512 + Encode.scX scale) 9 9 = Encode.b1 sat := by
      simp only [bits]; omega
    have h7 : bits (Encode.scI scale + q.val) 7 4 = 0 := by simp only [bits]; omega
    have h9 : (Encode.scI scale + q.val) % 16 = q.val := by omega
    simp [Encode.fE, Decode.skel, Decode.engine, Decode.mk, Decode.one, Decode.rndOk, Decode.vsatBit, Decode.vrnd,
        hs, h1, h2,
      h3, h4, h5, h6, h7, h8, -Fin.ofNat_eq_cast, fin_iff, h9]
    omega

theorem Word.msum (a : AReg) (b c : GReg) : Word.Statement (.msum a b c) := by
  intro sl gd _ hw hq hg
  have := a.isLt; have := b.isLt; have := c.isLt
  refine decode_of sl gd rfl ?_ (by simp [Encode.fE]) (by simp [Encode.fE]) ?_ hq hw
  · have := gd.pred.isLt; have := b1_lt gd.sense
    simp only [Raw.inRange, Encode.fE]; omega
  · simp (disch := omega) [bits, Nat.div_eq_of_lt, Nat.mod_eq_of_lt, Encode.fE, Decode.skel, Decode.engine,
      Decode.mk, Decode.one, g_iff, -Fin.ofNat_eq_cast, fin_iff, bv_iff]
    try omega

theorem Word.mtr (a : AReg) (b c : GReg) (tr : Bool) : Word.Statement (.mtr a b c tr) := by
  intro sl gd _ hw hq hg
  have := a.isLt; have := b.isLt; have := c.isLt; have := b1_lt tr
  refine decode_of sl gd rfl ?_ (by simp [Encode.fE]) (by simp [Encode.fE]) ?_ hq hw
  · have := gd.pred.isLt; have := b1_lt gd.sense
    simp only [Raw.inRange, Encode.fE]; omega
  · simp (disch := omega) [bits, Nat.div_eq_of_lt, Nat.mod_eq_of_lt, Encode.fE, Decode.skel, Decode.engine,
      Decode.mk, Decode.one, g_iff, -Fin.ofNat_eq_cast, fin_iff, bv_iff]
    try omega

theorem Word.mfree (a : AReg) : Word.Statement (.mfree a) := by
  intro sl gd _ hw hq hg
  have := a.isLt
  refine decode_of sl gd rfl ?_ (by simp [Encode.fE]) (by simp [Encode.fE]) ?_ hq hw
  · have := gd.pred.isLt; have := b1_lt gd.sense
    simp only [Raw.inRange, Encode.fE]; omega
  · simp (disch := omega) [bits, Nat.div_eq_of_lt, Nat.mod_eq_of_lt, Encode.fE, Decode.skel, Decode.engine,
      Decode.mk, Decode.one, g_iff, -Fin.ofNat_eq_cast, fin_iff, bv_iff]
    try omega

theorem Word.cp (a b c d : GReg) (dnu snu : NuCode) : Word.Statement (.cp a b c d dnu snu) := by
  intro sl gd _ hw hq hg
  have := a.isLt; have := b.isLt; have := c.isLt; have := d.isLt; have := dnu.isLt; have := snu.isLt
  refine decode_of sl gd rfl ?_ (by simp [Encode.fE]) (by simp [Encode.fE]) ?_ hq hw
  · have := gd.pred.isLt; have := b1_lt gd.sense
    simp only [Raw.inRange, Encode.fE]; omega
  · simp (disch := omega) [bits, Nat.div_eq_of_lt, Nat.mod_eq_of_lt, Encode.fE, Decode.skel, Decode.engine,
      Decode.mk, Decode.one, g_iff, -Fin.ofNat_eq_cast, fin_iff, bv_iff]
    try omega

theorem Word.cp2d (a b c d : GReg) (rows1 rowq1 : BitVec 16) (dnu snu : NuCode) : Word.Statement
    (.cp2d a b c d rows1 rowq1 dnu snu) := by
  intro sl gd _ hw hq hg
  have := a.isLt; have := b.isLt; have := c.isLt; have := d.isLt; have := rows1.isLt; have := rowq1.isLt; have
      := dnu.isLt; have := snu.isLt
  refine decode_of sl gd rfl ?_ (by simp [Encode.fE]) (by simp [Encode.fE]) ?_ hq hw
  · have := gd.pred.isLt; have := b1_lt gd.sense
    simp only [Raw.inRange, Encode.fE]; omega
  · simp (disch := omega) [bits, Nat.div_eq_of_lt, Nat.mod_eq_of_lt, Encode.fE, Decode.skel, Decode.engine,
      Decode.mk, Decode.one, g_iff, -Fin.ofNat_eq_cast, fin_iff, bv_iff]
    try omega

theorem Word.cpl (a b c d : GReg) (dnu : NuCode) : Word.Statement (.cpl a b c d dnu) := by
  intro sl gd _ hw hq hg
  have := a.isLt; have := b.isLt; have := c.isLt; have := d.isLt; have := dnu.isLt
  refine decode_of sl gd rfl ?_ (by simp [Encode.fE]) (by simp [Encode.fE]) ?_ hq hw
  · have := gd.pred.isLt; have := b1_lt gd.sense
    simp only [Raw.inRange, Encode.fE]; omega
  · simp (disch := omega) [bits, Nat.div_eq_of_lt, Nat.mod_eq_of_lt, Encode.fE, Decode.skel, Decode.engine,
      Decode.mk, Decode.one, g_iff, -Fin.ofNat_eq_cast, fin_iff, bv_iff]
    try omega

theorem Word.cpc (a b c d : GReg) (dnu snu : NuCode) : Word.Statement (.cpc a b c d dnu snu) := by
  intro sl gd _ hw hq hg
  have := a.isLt; have := b.isLt; have := c.isLt; have := d.isLt; have := dnu.isLt; have := snu.isLt
  refine decode_of sl gd rfl ?_ (by simp [Encode.fE]) (by simp [Encode.fE]) ?_ hq hw
  · have := gd.pred.isLt; have := b1_lt gd.sense
    simp only [Raw.inRange, Encode.fE]; omega
  · simp (disch := omega) [bits, Nat.div_eq_of_lt, Nat.mod_eq_of_lt, Encode.fE, Decode.skel, Decode.engine,
      Decode.mk, Decode.one, g_iff, -Fin.ofNat_eq_cast, fin_iff, bv_iff]
    try omega

theorem Word.cps (a b c d : GReg) (desc : BitVec 16) (dnu snu : NuCode) : Word.Statement
    (.cps a b c d desc dnu snu) := by
  intro sl gd _ hw hq hg
  have := a.isLt; have := b.isLt; have := c.isLt; have := d.isLt; have := desc.isLt; have := dnu.isLt; have
      := snu.isLt
  refine decode_of sl gd rfl ?_ (by simp [Encode.fE]) (by simp [Encode.fE]) ?_ hq hw
  · have := gd.pred.isLt; have := b1_lt gd.sense
    simp only [Raw.inRange, Encode.fE]; omega
  · simp (disch := omega) [bits, Nat.div_eq_of_lt, Nat.mod_eq_of_lt, Encode.fE, Decode.skel, Decode.engine,
      Decode.mk, Decode.one, g_iff, -Fin.ofNat_eq_cast, fin_iff, bv_iff]
    try omega

theorem Word.gth (ty : Ty) (a b c d : GReg) (n1 : BitVec 12) (ix64 : Bool) (dnu snu : NuCode) : Word.Statement
    (.gth ty a b c d n1 ix64 dnu snu) := by
  intro sl gd _ hw hq hg
  have := code_lt ty; have := a.isLt; have := b.isLt; have := c.isLt; have := d.isLt; have := n1.isLt; have
      := b1_lt ix64; have := dnu.isLt; have := snu.isLt
  refine decode_of sl gd rfl ?_ (by simp [Encode.fE]) (by simp [Encode.fE]) ?_ hq hw
  · have := gd.pred.isLt; have := b1_lt gd.sense
    simp only [Raw.inRange, Encode.fE]; omega
  · have h1 : bits (Encode.b1 ix64 * 65536 + n1.toNat) 16 16 = Encode.b1 ix64 := by simp only [bits]; omega
    have h2 : bits (Encode.b1 ix64 * 65536 + n1.toNat) 17 17 = 0 := by simp only [bits]; omega
    have h3 : bits (Encode.b1 ix64 * 65536 + n1.toNat) 15 12 = 0 := by simp only [bits]; omega
    have h4 : (Encode.b1 ix64 * 65536 + n1.toNat) / 262144 = 0 := by omega
    have h5 : (Encode.b1 ix64 * 65536 + n1.toNat) % 4096 = n1.toNat := by omega
    have h6 : bits (dnu.val * 64 + snu.val) 11 6 = dnu.val := by simp only [bits]; omega
    have h7 : (dnu.val * 64 + snu.val) / 4096 = 0 := by omega
    have h8 : (dnu.val * 64 + snu.val) % 64 = snu.val := by omega
    simp [Encode.fE, Decode.skel, Decode.engine, Decode.mk, Decode.one, h1, h2, h3, h4, h5, h6, h7, h8, g_iff, bv_iff]

theorem Word.sct (ty : Ty) (a b c d : GReg) (n1 : BitVec 12) (ix64 : Bool) (dnu snu : NuCode) : Word.Statement
    (.sct ty a b c d n1 ix64 dnu snu) := by
  intro sl gd _ hw hq hg
  have := code_lt ty; have := a.isLt; have := b.isLt; have := c.isLt; have := d.isLt; have := n1.isLt; have
      := b1_lt ix64; have := dnu.isLt; have := snu.isLt
  refine decode_of sl gd rfl ?_ (by simp [Encode.fE]) (by simp [Encode.fE]) ?_ hq hw
  · have := gd.pred.isLt; have := b1_lt gd.sense
    simp only [Raw.inRange, Encode.fE]; omega
  · have h1 : bits (Encode.b1 ix64 * 65536 + n1.toNat) 16 16 = Encode.b1 ix64 := by simp only [bits]; omega
    have h2 : bits (Encode.b1 ix64 * 65536 + n1.toNat) 17 17 = 0 := by simp only [bits]; omega
    have h3 : bits (Encode.b1 ix64 * 65536 + n1.toNat) 15 12 = 0 := by simp only [bits]; omega
    have h4 : (Encode.b1 ix64 * 65536 + n1.toNat) / 262144 = 0 := by omega
    have h5 : (Encode.b1 ix64 * 65536 + n1.toNat) % 4096 = n1.toNat := by omega
    have h6 : bits (dnu.val * 64 + snu.val) 11 6 = dnu.val := by simp only [bits]; omega
    have h7 : (dnu.val * 64 + snu.val) / 4096 = 0 := by omega
    have h8 : (dnu.val * 64 + snu.val) % 64 = snu.val := by omega
    simp [Encode.fE, Decode.skel, Decode.engine, Decode.mk, Decode.one, h1, h2, h3, h4, h5, h6, h7, h8, g_iff, bv_iff]

theorem Word.cmpx (ty : Ty) (a b c d : GReg) (n1 : BitVec 12) (idx : Bool) (dnu snu : NuCode) : Word.Statement
    (.cmpx ty a b c d n1 idx dnu snu) := by
  intro sl gd _ hw hq hg
  have := code_lt ty; have := a.isLt; have := b.isLt; have := c.isLt; have := d.isLt; have := n1.isLt; have
      := b1_lt idx; have := dnu.isLt; have := snu.isLt
  refine decode_of sl gd rfl ?_ (by simp [Encode.fE]) (by simp [Encode.fE]) ?_ hq hw
  · have := gd.pred.isLt; have := b1_lt gd.sense
    simp only [Raw.inRange, Encode.fE]; omega
  · have h1 : bits (Encode.b1 idx * 131072 + n1.toNat) 17 17 = Encode.b1 idx := by simp only [bits]; omega
    have h2 : bits (Encode.b1 idx * 131072 + n1.toNat) 16 16 = 0 := by simp only [bits]; omega
    have h3 : bits (Encode.b1 idx * 131072 + n1.toNat) 15 12 = 0 := by simp only [bits]; omega
    have h4 : (Encode.b1 idx * 131072 + n1.toNat) / 262144 = 0 := by omega
    have h5 : (Encode.b1 idx * 131072 + n1.toNat) % 4096 = n1.toNat := by omega
    have h6 : bits (dnu.val * 64 + snu.val) 11 6 = dnu.val := by simp only [bits]; omega
    have h7 : (dnu.val * 64 + snu.val) / 4096 = 0 := by omega
    have h8 : (dnu.val * 64 + snu.val) % 64 = snu.val := by omega
    simp [Encode.fE, Decode.skel, Decode.engine, Decode.mk, Decode.one, h1, h2, h3, h4, h5, h6, h7, h8, g_iff, bv_iff]

theorem Word.tsubLd (a b c : GReg) : Word.Statement (.tsubLd a b c) := by
  intro sl gd _ hw hq hg
  have := a.isLt; have := b.isLt; have := c.isLt
  refine decode_of sl gd rfl ?_ (by simp [Encode.fE]) (by simp [Encode.fE]) ?_ hq hw
  · have := gd.pred.isLt; have := b1_lt gd.sense
    simp only [Raw.inRange, Encode.fE]; omega
  · simp (disch := omega) [bits, Nat.div_eq_of_lt, Nat.mod_eq_of_lt, Encode.fE, Decode.skel, Decode.engine,
      Decode.mk, Decode.one, g_iff, -Fin.ofNat_eq_cast, fin_iff, bv_iff]
    try omega

theorem Word.tsubSt (a b c : GReg) : Word.Statement (.tsubSt a b c) := by
  intro sl gd _ hw hq hg
  have := a.isLt; have := b.isLt; have := c.isLt
  refine decode_of sl gd rfl ?_ (by simp [Encode.fE]) (by simp [Encode.fE]) ?_ hq hw
  · have := gd.pred.isLt; have := b1_lt gd.sense
    simp only [Raw.inRange, Encode.fE]; omega
  · simp (disch := omega) [bits, Nat.div_eq_of_lt, Nat.mod_eq_of_lt, Encode.fE, Decode.skel, Decode.engine,
      Decode.mk, Decode.one, g_iff, -Fin.ofNat_eq_cast, fin_iff, bv_iff]
    try omega

theorem Word.trel (b c : GReg) : Word.Statement (.trel b c) := by
  intro sl gd _ hw hq hg
  have := b.isLt; have := c.isLt
  refine decode_of sl gd rfl ?_ (by simp [Encode.fE]) (by simp [Encode.fE]) ?_ hq hw
  · have := gd.pred.isLt; have := b1_lt gd.sense
    simp only [Raw.inRange, Encode.fE]; omega
  · simp (disch := omega) [bits, Nat.div_eq_of_lt, Nat.mod_eq_of_lt, Encode.fE, Decode.skel, Decode.engine,
      Decode.mk, Decode.one, g_iff, -Fin.ofNat_eq_cast, fin_iff, bv_iff]
    try omega

theorem Word.qbase (b c d : GReg) : Word.Statement (.qbase b c d) := by
  intro sl gd _ hw hq hg
  have := b.isLt; have := c.isLt; have := d.isLt
  refine decode_of sl gd rfl ?_ (by simp [Encode.fE]) (by simp [Encode.fE]) ?_ hq hw
  · have := gd.pred.isLt; have := b1_lt gd.sense
    simp only [Raw.inRange, Encode.fE]; omega
  · simp (disch := omega) [bits, Nat.div_eq_of_lt, Nat.mod_eq_of_lt, Encode.fE, Decode.skel, Decode.port,
      Decode.mk, Decode.one, g_iff, -Fin.ofNat_eq_cast, fin_iff, bv_iff]
    try omega

theorem Word.qdef (a b c : GReg) (n : BitVec 15) : Word.Statement (.qdef a b c n) := by
  intro sl gd _ hw hq hg
  have := a.isLt; have := b.isLt; have := c.isLt; have := n.isLt
  refine decode_of sl gd rfl ?_ (by simp [Encode.fE]) (by simp [Encode.fE]) ?_ hq hw
  · have := gd.pred.isLt; have := b1_lt gd.sense
    simp only [Raw.inRange, Encode.fE]; omega
  · simp (disch := omega) [bits, Nat.div_eq_of_lt, Nat.mod_eq_of_lt, Encode.fE, Decode.skel, Decode.port,
      Decode.mk, Decode.one, g_iff, -Fin.ofNat_eq_cast, fin_iff, bv_iff]
    try omega

theorem Word.qget (sel : Fin 13) (a b : GReg) : Word.Statement (.qget sel a b) := by
  intro sl gd _ hw hq hg
  have := sel.isLt; have := a.isLt; have := b.isLt
  refine decode_of sl gd rfl ?_ (by simp [Encode.fE]) (by simp [Encode.fE]) ?_ hq hw
  · have := gd.pred.isLt; have := b1_lt gd.sense
    simp only [Raw.inRange, Encode.fE]; omega
  · simp (disch := omega) [bits, Nat.div_eq_of_lt, Nat.mod_eq_of_lt, Encode.fE, Decode.skel, Decode.port,
      Decode.mk, Decode.one, g_iff, -Fin.ofNat_eq_cast, fin_iff, bv_iff]
    try omega

theorem Word.qset (sel : Fin 13) (b c : GReg) : Word.Statement (.qset sel b c) := by
  intro sl gd _ hw hq hg
  have := sel.isLt; have := b.isLt; have := c.isLt
  refine decode_of sl gd rfl ?_ (by simp [Encode.fE]) (by simp [Encode.fE]) ?_ hq hw
  · have := gd.pred.isLt; have := b1_lt gd.sense
    simp only [Raw.inRange, Encode.fE]; omega
  · simp (disch := omega) [bits, Nat.div_eq_of_lt, Nat.mod_eq_of_lt, Encode.fE, Decode.skel, Decode.port,
      Decode.mk, Decode.one, g_iff, -Fin.ofNat_eq_cast, fin_iff, bv_iff]
    try omega

theorem Word.qslope (b c d : GReg) : Word.Statement (.qslope b c d) := by
  intro sl gd _ hw hq hg
  have := b.isLt; have := c.isLt; have := d.isLt
  refine decode_of sl gd rfl ?_ (by simp [Encode.fE]) (by simp [Encode.fE]) ?_ hq hw
  · have := gd.pred.isLt; have := b1_lt gd.sense
    simp only [Raw.inRange, Encode.fE]; omega
  · simp (disch := omega) [bits, Nat.div_eq_of_lt, Nat.mod_eq_of_lt, Encode.fE, Decode.skel, Decode.port,
      Decode.mk, Decode.one, g_iff, -Fin.ofNat_eq_cast, fin_iff, bv_iff]
    try omega

theorem Word.qcross (b : GReg) : Word.Statement (.qcross b) := by
  intro sl gd _ hw hq hg
  have := b.isLt
  refine decode_of sl gd rfl ?_ (by simp [Encode.fE]) (by simp [Encode.fE]) ?_ hq hw
  · have := gd.pred.isLt; have := b1_lt gd.sense
    simp only [Raw.inRange, Encode.fE]; omega
  · simp (disch := omega) [bits, Nat.div_eq_of_lt, Nat.mod_eq_of_lt, Encode.fE, Decode.skel, Decode.port,
      Decode.mk, Decode.one, g_iff, -Fin.ofNat_eq_cast, fin_iff, bv_iff]
    try omega

theorem Word.qdeps (b c d : GReg) : Word.Statement (.qdeps b c d) := by
  intro sl gd _ hw hq hg
  have := b.isLt; have := c.isLt; have := d.isLt
  refine decode_of sl gd rfl ?_ (by simp [Encode.fE]) (by simp [Encode.fE]) ?_ hq hw
  · have := gd.pred.isLt; have := b1_lt gd.sense
    simp only [Raw.inRange, Encode.fE]; omega
  · simp (disch := omega) [bits, Nat.div_eq_of_lt, Nat.mod_eq_of_lt, Encode.fE, Decode.skel, Decode.port,
      Decode.mk, Decode.one, g_iff, -Fin.ofNat_eq_cast, fin_iff, bv_iff]
    try omega

theorem Word.qnext (a : GReg) : Word.Statement (.qnext a) := by
  intro sl gd _ hw hq hg
  have := a.isLt
  refine decode_of sl gd rfl ?_ (by simp [Encode.fE]) (by simp [Encode.fE]) ?_ hq hw
  · have := gd.pred.isLt; have := b1_lt gd.sense
    simp only [Raw.inRange, Encode.fE]; omega
  · simp (disch := omega) [bits, Nat.div_eq_of_lt, Nat.mod_eq_of_lt, Encode.fE, Decode.skel, Decode.port,
      Decode.mk, Decode.one, g_iff, -Fin.ofNat_eq_cast, fin_iff, bv_iff]
    try omega

theorem Word.qrun (b c d : GReg) : Word.Statement (.qrun b c d) := by
  intro sl gd _ hw hq hg
  have := b.isLt; have := c.isLt; have := d.isLt
  refine decode_of sl gd rfl ?_ (by simp [Encode.fE]) (by simp [Encode.fE]) ?_ hq hw
  · have := gd.pred.isLt; have := b1_lt gd.sense
    simp only [Raw.inRange, Encode.fE]; omega
  · simp (disch := omega) [bits, Nat.div_eq_of_lt, Nat.mod_eq_of_lt, Encode.fE, Decode.skel, Decode.port,
      Decode.mk, Decode.one, g_iff, -Fin.ofNat_eq_cast, fin_iff, bv_iff]
    try omega

theorem Word.qstop (a : GReg) : Word.Statement (.qstop a) := by
  intro sl gd _ hw hq hg
  have := a.isLt
  refine decode_of sl gd rfl ?_ (by simp [Encode.fE]) (by simp [Encode.fE]) ?_ hq hw
  · have := gd.pred.isLt; have := b1_lt gd.sense
    simp only [Raw.inRange, Encode.fE]; omega
  · simp (disch := omega) [bits, Nat.div_eq_of_lt, Nat.mod_eq_of_lt, Encode.fE, Decode.skel, Decode.port,
      Decode.mk, Decode.one, g_iff, -Fin.ofNat_eq_cast, fin_iff, bv_iff]
    try omega

theorem Word.qsnap (b c : GReg) (n : BitVec 15) : Word.Statement (.qsnap b c n) := by
  intro sl gd _ hw hq hg
  have := b.isLt; have := c.isLt; have := n.isLt
  refine decode_of sl gd rfl ?_ (by simp [Encode.fE]) (by simp [Encode.fE]) ?_ hq hw
  · have := gd.pred.isLt; have := b1_lt gd.sense
    simp only [Raw.inRange, Encode.fE]; omega
  · simp (disch := omega) [bits, Nat.div_eq_of_lt, Nat.mod_eq_of_lt, Encode.fE, Decode.skel, Decode.port,
      Decode.mk, Decode.one, g_iff, -Fin.ofNat_eq_cast, fin_iff, bv_iff]
    try omega

theorem Word.qstat (a : GReg) (sel : Fin 8) : Word.Statement (.qstat a sel) := by
  intro sl gd _ hw hq hg
  have := a.isLt; have := sel.isLt
  refine decode_of sl gd rfl ?_ (by simp [Encode.fE]) (by simp [Encode.fE]) ?_ hq hw
  · have := gd.pred.isLt; have := b1_lt gd.sense
    simp only [Raw.inRange, Encode.fE]; omega
  · simp (disch := omega) [bits, Nat.div_eq_of_lt, Nat.mod_eq_of_lt, Encode.fE, Decode.skel, Decode.port,
      Decode.mk, Decode.one, g_iff, -Fin.ofNat_eq_cast, fin_iff, bv_iff]
    try omega

theorem Word.qstorm (sel : Fin 4) (b c : GReg) : Word.Statement (.qstorm sel b c) := by
  intro sl gd _ hw hq hg
  have := sel.isLt; have := b.isLt; have := c.isLt
  refine decode_of sl gd rfl ?_ (by simp [Encode.fE]) (by simp [Encode.fE]) ?_ hq hw
  · have := gd.pred.isLt; have := b1_lt gd.sense
    simp only [Raw.inRange, Encode.fE]; omega
  · simp (disch := omega) [bits, Nat.div_eq_of_lt, Nat.mod_eq_of_lt, Encode.fE, Decode.skel, Decode.port,
      Decode.mk, Decode.one, g_iff, -Fin.ofNat_eq_cast, fin_iff, bv_iff]
    try omega

theorem Word.pclr : Word.Statement (.pclr) := by
  intro sl gd _ hw hq hg
  refine decode_of sl gd rfl ?_ (by simp [Encode.z]) (by simp [Encode.z]) ?_ hq hw
  · have := gd.pred.isLt; have := b1_lt gd.sense
    simp only [Raw.inRange, Encode.z]; omega
  · simp (disch := omega) [bits, Nat.div_eq_of_lt, Nat.mod_eq_of_lt, Encode.z, Decode.skel, Decode.port, Decode.mk,
      Decode.one, g_iff, -Fin.ofNat_eq_cast, fin_iff, bv_iff]
    try omega

theorem Word.pcol (a : GReg) (b : VReg) : Word.Statement (.pcol a b) := by
  intro sl gd _ hw hq hg
  have := a.isLt; have := b.isLt
  refine decode_of sl gd rfl ?_ (by simp [Encode.fE]) (by simp [Encode.fE]) ?_ hq hw
  · have := gd.pred.isLt; have := b1_lt gd.sense
    simp only [Raw.inRange, Encode.fE]; omega
  · simp (disch := omega) [bits, Nat.div_eq_of_lt, Nat.mod_eq_of_lt, Encode.fE, Decode.skel, Decode.port,
      Decode.mk, Decode.one, g_iff, -Fin.ofNat_eq_cast, fin_iff, bv_iff]
    try omega

theorem Word.pcolAt (a : GReg) (b : VReg) (c : GReg) : Word.Statement (.pcolAt a b c) := by
  intro sl gd _ hw hq hg
  have := a.isLt; have := b.isLt; have := c.isLt
  refine decode_of sl gd rfl ?_ (by simp [Encode.fE]) (by simp [Encode.fE]) ?_ hq hw
  · have := gd.pred.isLt; have := b1_lt gd.sense
    simp only [Raw.inRange, Encode.fE]; omega
  · simp (disch := omega) [bits, Nat.div_eq_of_lt, Nat.mod_eq_of_lt, Encode.fE, Decode.skel, Decode.port,
      Decode.mk, Decode.one, g_iff, -Fin.ofNat_eq_cast, fin_iff, bv_iff]
    try omega

theorem Word.pcolrRd (a : VReg) (b : GReg) : Word.Statement (.pcolrRd a b) := by
  intro sl gd _ hw hq hg
  have := a.isLt; have := b.isLt
  refine decode_of sl gd rfl ?_ (by simp [Encode.fE]) (by simp [Encode.fE]) ?_ hq hw
  · have := gd.pred.isLt; have := b1_lt gd.sense
    simp only [Raw.inRange, Encode.fE]; omega
  · simp (disch := omega) [bits, Nat.div_eq_of_lt, Nat.mod_eq_of_lt, Encode.fE, Decode.skel, Decode.port,
      Decode.mk, Decode.one, g_iff, -Fin.ofNat_eq_cast, fin_iff, bv_iff]
    try omega

theorem Word.pcolrFr (a b : GReg) : Word.Statement (.pcolrFr a b) := by
  intro sl gd _ hw hq hg
  have := a.isLt; have := b.isLt
  refine decode_of sl gd rfl ?_ (by simp [Encode.fE]) (by simp [Encode.fE]) ?_ hq hw
  · have := gd.pred.isLt; have := b1_lt gd.sense
    simp only [Raw.inRange, Encode.fE]; omega
  · simp (disch := omega) [bits, Nat.div_eq_of_lt, Nat.mod_eq_of_lt, Encode.fE, Decode.skel, Decode.port,
      Decode.mk, Decode.one, g_iff, -Fin.ofNat_eq_cast, fin_iff, bv_iff]
    try omega

theorem Word.pdec (a b : GReg) : Word.Statement (.pdec a b) := by
  intro sl gd _ hw hq hg
  have := a.isLt; have := b.isLt
  refine decode_of sl gd rfl ?_ (by simp [Encode.fE]) (by simp [Encode.fE]) ?_ hq hw
  · have := gd.pred.isLt; have := b1_lt gd.sense
    simp only [Raw.inRange, Encode.fE]; omega
  · simp (disch := omega) [bits, Nat.div_eq_of_lt, Nat.mod_eq_of_lt, Encode.fE, Decode.skel, Decode.port,
      Decode.mk, Decode.one, g_iff, -Fin.ofNat_eq_cast, fin_iff, bv_iff]
    try omega

theorem Word.pprop (a : GReg) : Word.Statement (.pprop a) := by
  intro sl gd _ hw hq hg
  have := a.isLt
  refine decode_of sl gd rfl ?_ (by simp [Encode.fE]) (by simp [Encode.fE]) ?_ hq hw
  · have := gd.pred.isLt; have := b1_lt gd.sense
    simp only [Raw.inRange, Encode.fE]; omega
  · simp (disch := omega) [bits, Nat.div_eq_of_lt, Nat.mod_eq_of_lt, Encode.fE, Decode.skel, Decode.port,
      Decode.mk, Decode.one, g_iff, -Fin.ofNat_eq_cast, fin_iff, bv_iff]
    try omega

theorem Word.pbt (a b : GReg) : Word.Statement (.pbt a b) := by
  intro sl gd _ hw hq hg
  have := a.isLt; have := b.isLt
  refine decode_of sl gd rfl ?_ (by simp [Encode.fE]) (by simp [Encode.fE]) ?_ hq hw
  · have := gd.pred.isLt; have := b1_lt gd.sense
    simp only [Raw.inRange, Encode.fE]; omega
  · simp (disch := omega) [bits, Nat.div_eq_of_lt, Nat.mod_eq_of_lt, Encode.fE, Decode.skel, Decode.port,
      Decode.mk, Decode.one, g_iff, -Fin.ofNat_eq_cast, fin_iff, bv_iff]
    try omega

theorem Word.prow (a b : GReg) : Word.Statement (.prow a b) := by
  intro sl gd _ hw hq hg
  have := a.isLt; have := b.isLt
  refine decode_of sl gd rfl ?_ (by simp [Encode.fE]) (by simp [Encode.fE]) ?_ hq hw
  · have := gd.pred.isLt; have := b1_lt gd.sense
    simp only [Raw.inRange, Encode.fE]; omega
  · simp (disch := omega) [bits, Nat.div_eq_of_lt, Nat.mod_eq_of_lt, Encode.fE, Decode.skel, Decode.port,
      Decode.mk, Decode.one, g_iff, -Fin.ofNat_eq_cast, fin_iff, bv_iff]
    try omega

theorem Word.ptrl (a b : GReg) : Word.Statement (.ptrl a b) := by
  intro sl gd _ hw hq hg
  have := a.isLt; have := b.isLt
  refine decode_of sl gd rfl ?_ (by simp [Encode.fE]) (by simp [Encode.fE]) ?_ hq hw
  · have := gd.pred.isLt; have := b1_lt gd.sense
    simp only [Raw.inRange, Encode.fE]; omega
  · simp (disch := omega) [bits, Nat.div_eq_of_lt, Nat.mod_eq_of_lt, Encode.fE, Decode.skel, Decode.port,
      Decode.mk, Decode.one, g_iff, -Fin.ofNat_eq_cast, fin_iff, bv_iff]
    try omega

theorem Word.pconf (a : GReg) : Word.Statement (.pconf a) := by
  intro sl gd _ hw hq hg
  have := a.isLt
  refine decode_of sl gd rfl ?_ (by simp [Encode.fE]) (by simp [Encode.fE]) ?_ hq hw
  · have := gd.pred.isLt; have := b1_lt gd.sense
    simp only [Raw.inRange, Encode.fE]; omega
  · simp (disch := omega) [bits, Nat.div_eq_of_lt, Nat.mod_eq_of_lt, Encode.fE, Decode.skel, Decode.port,
      Decode.mk, Decode.one, g_iff, -Fin.ofNat_eq_cast, fin_iff, bv_iff]
    try omega

theorem Word.plvl (a : GReg) : Word.Statement (.plvl a) := by
  intro sl gd _ hw hq hg
  have := a.isLt
  refine decode_of sl gd rfl ?_ (by simp [Encode.fE]) (by simp [Encode.fE]) ?_ hq hw
  · have := gd.pred.isLt; have := b1_lt gd.sense
    simp only [Raw.inRange, Encode.fE]; omega
  · simp (disch := omega) [bits, Nat.div_eq_of_lt, Nat.mod_eq_of_lt, Encode.fE, Decode.skel, Decode.port,
      Decode.mk, Decode.one, g_iff, -Fin.ofNat_eq_cast, fin_iff, bv_iff]
    try omega

theorem Word.pset (a b : GReg) : Word.Statement (.pset a b) := by
  intro sl gd _ hw hq hg
  have := a.isLt; have := b.isLt
  refine decode_of sl gd rfl ?_ (by simp [Encode.fE]) (by simp [Encode.fE]) ?_ hq hw
  · have := gd.pred.isLt; have := b1_lt gd.sense
    simp only [Raw.inRange, Encode.fE]; omega
  · simp (disch := omega) [bits, Nat.div_eq_of_lt, Nat.mod_eq_of_lt, Encode.fE, Decode.skel, Decode.port,
      Decode.mk, Decode.one, g_iff, -Fin.ofNat_eq_cast, fin_iff, bv_iff]
    try omega

theorem Word.pstat (a : GReg) (sel : Fin 7) : Word.Statement (.pstat a sel) := by
  intro sl gd _ hw hq hg
  have := a.isLt; have := sel.isLt
  refine decode_of sl gd rfl ?_ (by simp [Encode.fE]) (by simp [Encode.fE]) ?_ hq hw
  · have := gd.pred.isLt; have := b1_lt gd.sense
    simp only [Raw.inRange, Encode.fE]; omega
  · simp (disch := omega) [bits, Nat.div_eq_of_lt, Nat.mod_eq_of_lt, Encode.fE, Decode.skel, Decode.port,
      Decode.mk, Decode.one, g_iff, -Fin.ofNat_eq_cast, fin_iff, bv_iff]
    try omega

theorem Word.fullEmptySpinExpiry (sid : Nat) : Word.Statement (.fullEmptySpinExpiry sid) :=
  fun _ _ h => (Bool.false_ne_true h).elim

theorem Word.engineInstructionComplete (sid : Nat) (port : Bool) : Word.Statement
    (.engineInstructionComplete sid port) :=
  fun _ _ h => (Bool.false_ne_true h).elim

theorem Word.matrixRetire (sid : Nat) : Word.Statement (.matrixRetire sid) :=
  fun _ _ h => (Bool.false_ne_true h).elim

theorem Word.copyPieceWrite (k : Nat) : Word.Statement (.copyPieceWrite k) :=
  fun _ _ h => (Bool.false_ne_true h).elim

theorem Word.streamTileDone (k : Nat) : Word.Statement (.streamTileDone k) :=
  fun _ _ h => (Bool.false_ne_true h).elim

theorem Word.engineTransferFault (k : Nat) : Word.Statement (.engineTransferFault k) :=
  fun _ _ h => (Bool.false_ne_true h).elim

theorem Word.engineFaultResolved (k : Nat) : Word.Statement (.engineFaultResolved k) :=
  fun _ _ h => (Bool.false_ne_true h).elim

theorem Word.exactCellArrival (k : Nat) : Word.Statement (.exactCellArrival k) :=
  fun _ _ h => (Bool.false_ne_true h).elim

theorem Word.storeRegistration (k : Nat × Nat) : Word.Statement (.storeRegistration k) :=
  fun _ _ h => (Bool.false_ne_true h).elim

theorem Word.storeAck (k : Nat) : Word.Statement (.storeAck k) :=
  fun _ _ h => (Bool.false_ne_true h).elim

theorem Word.loadRequest (k part : Nat) : Word.Statement (.loadRequest k part) :=
  fun _ _ h => (Bool.false_ne_true h).elim

theorem Word.loadReturn (k : Nat) : Word.Statement (.loadReturn k) :=
  fun _ _ h => (Bool.false_ne_true h).elim

theorem Word.postedUpdateApplied (k : Nat) : Word.Statement (.postedUpdateApplied k) :=
  fun _ _ h => (Bool.false_ne_true h).elim

theorem Word.contributorRegistration (k : Nat) : Word.Statement (.contributorRegistration k) :=
  fun _ _ h => (Bool.false_ne_true h).elim

theorem Word.partialCombine (cache line : Nat) : Word.Statement (.partialCombine cache line) :=
  fun _ _ h => (Bool.false_ne_true h).elim

theorem Word.atomicAtHome (k : Nat) : Word.Statement (.atomicAtHome k) :=
  fun _ _ h => (Bool.false_ne_true h).elim

theorem Word.joinIncrement (k : Nat) : Word.Statement (.joinIncrement k) :=
  fun _ _ h => (Bool.false_ne_true h).elim

theorem Word.joinArrival (k : Nat) : Word.Statement (.joinArrival k) :=
  fun _ _ h => (Bool.false_ne_true h).elim

theorem Word.wakeRegistration (k : Nat) : Word.Statement (.wakeRegistration k) :=
  fun _ _ h => (Bool.false_ne_true h).elim

theorem Word.reuseClockAdvance (k : Nat) : Word.Statement (.reuseClockAdvance k) :=
  fun _ _ h => (Bool.false_ne_true h).elim

theorem Word.honestyReport (k : Nat) : Word.Statement (.honestyReport k) :=
  fun _ _ h => (Bool.false_ne_true h).elim

theorem Word.slotDispatch (sid : Nat) : Word.Statement (.slotDispatch sid) :=
  fun _ _ h => (Bool.false_ne_true h).elim

theorem Word.readyQueueAgeing (pkg k : Nat) : Word.Statement (.readyQueueAgeing pkg k) :=
  fun _ _ h => (Bool.false_ne_true h).elim

theorem Word.recordPlacement (k : Nat) : Word.Statement (.recordPlacement k) :=
  fun _ _ h => (Bool.false_ne_true h).elim

theorem Word.messageDelivery (k : Nat) : Word.Statement (.messageDelivery k) :=
  fun _ _ h => (Bool.false_ne_true h).elim

theorem Word.slotPreempt (sid : Nat) : Word.Statement (.slotPreempt sid) :=
  fun _ _ h => (Bool.false_ne_true h).elim

theorem Word.crossingRelease (pkg : Nat) : Word.Statement (.crossingRelease pkg) :=
  fun _ _ h => (Bool.false_ne_true h).elim

theorem Word.eventMessageArrival (k : Nat) : Word.Statement (.eventMessageArrival k) :=
  fun _ _ h => (Bool.false_ne_true h).elim

theorem Word.larkspurRunEnd (pkg : Nat) : Word.Statement (.larkspurRunEnd pkg) :=
  fun _ _ h => (Bool.false_ne_true h).elim

theorem Word.asterAccept (k : Nat) : Word.Statement (.asterAccept k) :=
  fun _ _ h => (Bool.false_ne_true h).elim

theorem Word.asterCommit (pkg k : Nat) : Word.Statement (.asterCommit pkg k) :=
  fun _ _ h => (Bool.false_ne_true h).elim

theorem Word.conflictAbort (k : Nat) : Word.Statement (.conflictAbort k) :=
  fun _ _ h => (Bool.false_ne_true h).elim

theorem Word.taskRestartReady (pkg k : Nat) : Word.Statement (.taskRestartReady pkg k) :=
  fun _ _ h => (Bool.false_ne_true h).elim

theorem Word.irrevocablePromotion (pkg k : Nat) : Word.Statement (.irrevocablePromotion pkg k) :=
  fun _ _ h => (Bool.false_ne_true h).elim

theorem Word.horizonDieCombine (die : Nat) : Word.Statement (.horizonDieCombine die) :=
  fun _ _ h => (Bool.false_ne_true h).elim

theorem Word.horizonPackageCombine : Word.Statement (.horizonPackageCombine) :=
  fun _ _ h => (Bool.false_ne_true h).elim

theorem Word.horizonFabricCombine (others : List (Key × Key)) : Word.Statement (.horizonFabricCombine others) :=
  fun _ _ h => (Bool.false_ne_true h).elim

theorem Word.softErrorDetected (place : ErrPlace) (corrected : Bool) : Word.Statement
    (.softErrorDetected place corrected) :=
  fun _ _ h => (Bool.false_ne_true h).elim

theorem Word.patrolScrub (stack : Nat) (corrected uncorrected : List Nat) : Word.Statement
    (.patrolScrub stack corrected uncorrected) :=
  fun _ _ h => (Bool.false_ne_true h).elim

theorem Word.pageUnmap (launch : Nat) (va : Word) : Word.Statement (.pageUnmap launch va) :=
  fun _ _ h => (Bool.false_ne_true h).elim

theorem Word.pageMigrate (launch : Nat) (va : Word) (frame : Nat) : Word.Statement (.pageMigrate launch va frame) :=
  fun _ _ h => (Bool.false_ne_true h).elim

theorem Word.queueDoorbell (q : Nat) (producer : BitVec 32) : Word.Statement (.queueDoorbell q producer) :=
  fun _ _ h => (Bool.false_ne_true h).elim

theorem Word.queueStart (q : Nat) : Word.Statement (.queueStart q) :=
  fun _ _ h => (Bool.false_ne_true h).elim

theorem Word.queueDestroy (q : Nat) : Word.Statement (.queueDestroy q) :=
  fun _ _ h => (Bool.false_ne_true h).elim

theorem Word.queueReset (q : Nat) : Word.Statement (.queueReset q) :=
  fun _ _ h => (Bool.false_ne_true h).elim

theorem Word.launch (q : Nat) : Word.Statement (.launch q) :=
  fun _ _ h => (Bool.false_ne_true h).elim

theorem Word.launchBegin (id : Nat) : Word.Statement (.launchBegin id) :=
  fun _ _ h => (Bool.false_ne_true h).elim

theorem Word.seedDispatch (id : Nat) : Word.Statement (.seedDispatch id) :=
  fun _ _ h => (Bool.false_ne_true h).elim

theorem Word.gangPlacement (id : Nat) : Word.Statement (.gangPlacement id) :=
  fun _ _ h => (Bool.false_ne_true h).elim

theorem Word.gangReservation (id : Nat) : Word.Statement (.gangReservation id) :=
  fun _ _ h => (Bool.false_ne_true h).elim

theorem Word.launchEnd (id : Nat) : Word.Statement (.launchEnd id) :=
  fun _ _ h => (Bool.false_ne_true h).elim

theorem Word.preemptLaunch (q : Nat) : Word.Statement (.preemptLaunch q) :=
  fun _ _ h => (Bool.false_ne_true h).elim

theorem Word.copyQuiesceExpiry (core : Nat) : Word.Statement (.copyQuiesceExpiry core) :=
  fun _ _ h => (Bool.false_ne_true h).elim

theorem Word.resumeLaunch (q : Nat) : Word.Statement (.resumeLaunch q) :=
  fun _ _ h => (Bool.false_ne_true h).elim

theorem Word.endLaunch (q : Nat) : Word.Statement (.endLaunch q) :=
  fun _ _ h => (Bool.false_ne_true h).elim

theorem Word.flushLaunch (q : Nat) : Word.Statement (.flushLaunch q) :=
  fun _ _ h => (Bool.false_ne_true h).elim

theorem Word.unknownOpcodeCommand (q : Nat) : Word.Statement (.unknownOpcodeCommand q) :=
  fun _ _ h => (Bool.false_ne_true h).elim

theorem Word.ttFire (e : Nat) : Word.Statement (.ttFire e) :=
  fun _ _ h => (Bool.false_ne_true h).elim

theorem Word.ttEntryEnable (e : Nat) : Word.Statement (.ttEntryEnable e) :=
  fun _ _ h => (Bool.false_ne_true h).elim

theorem Word.ttQueuedBegin (e : Nat) : Word.Statement (.ttQueuedBegin e) :=
  fun _ _ h => (Bool.false_ne_true h).elim

theorem Word.managementReset : Word.Statement (.managementReset) :=
  fun _ _ h => (Bool.false_ne_true h).elim

theorem Word.clearFailCount : Word.Statement (.clearFailCount) :=
  fun _ _ h => (Bool.false_ne_true h).elim

theorem Word.capWrite (w : BitVec 32) : Word.Statement (.capWrite w) :=
  fun _ _ h => (Bool.false_ne_true h).elim

theorem Word.powerInterval (watts : Nat) (hot critical : Bool) : Word.Statement (.powerInterval watts hot critical) :=
  fun _ _ h => (Bool.false_ne_true h).elim

theorem Word.moduleReset : Word.Statement (.moduleReset) :=
  fun _ _ h => (Bool.false_ne_true h).elim

theorem Word.bootStageComplete (r : StageResult) : Word.Statement (.bootStageComplete r) :=
  fun _ _ h => (Bool.false_ne_true h).elim

theorem Word.bootTimeout : Word.Statement (.bootTimeout) :=
  fun _ _ h => (Bool.false_ne_true h).elim

theorem Word.versionNegotiation (i : Iface) (lo hi : Nat × Nat) : Word.Statement (.versionNegotiation i lo hi) :=
  fun _ _ h => (Bool.false_ne_true h).elim

theorem Word.measurementExtend (n : Fin 16) (d : BitVec 256) : Word.Statement (.measurementExtend n d) :=
  fun _ _ h => (Bool.false_ne_true h).elim

theorem Word.spdmRequest (r : SpdmRequest) : Word.Statement (.spdmRequest r) :=
  fun _ _ h => (Bool.false_ne_true h).elim

theorem Word.ptpLockChange (locked : Bool) (time : Nat) : Word.Statement (.ptpLockChange locked time) :=
  fun _ _ h => (Bool.false_ne_true h).elim

theorem Word.flitReceive (port : Nat) (f : Flit) : Word.Statement (.flitReceive port f) :=
  fun _ _ h => (Bool.false_ne_true h).elim

theorem Word.linkRetrain (port : Nat) : Word.Statement (.linkRetrain port) :=
  fun _ _ h => (Bool.false_ne_true h).elim

theorem Word.retrainingEnd (port lanes : Nat) : Word.Statement (.retrainingEnd port lanes) :=
  fun _ _ h => (Bool.false_ne_true h).elim

theorem Word.remoteWriteHandover (port : Nat) : Word.Statement (.remoteWriteHandover port) :=
  fun _ _ h => (Bool.false_ne_true h).elim

theorem Word.traceEnable (port : Nat) : Word.Statement (.traceEnable port) :=
  fun _ _ h => (Bool.false_ne_true h).elim

theorem Word.hostBar2Write (off : Nat) (data : List Byte) : Word.Statement (.hostBar2Write off data) :=
  fun _ _ h => (Bool.false_ne_true h).elim

theorem Word.hostBar2Read (off n : Nat) : Word.Statement (.hostBar2Read off n) :=
  fun _ _ h => (Bool.false_ne_true h).elim

theorem Word.registerWrite (off : Nat) (size : Fin 9) (value : Word) : Word.Statement
    (.registerWrite off size value) :=
  fun _ _ h => (Bool.false_ne_true h).elim

theorem Word.debugInterfaceRequest (r : DebugRequest) : Word.Statement (.debugInterfaceRequest r) :=
  fun _ _ h => (Bool.false_ne_true h).elim

end Sys2Proof.Laws
end

