-- ==== Sys2Proof/Laws/State.lean ====
section
/-! SUPPORT. One lemma per field of the state, and of a slot, per update: what an update leaves alone, and what it
writes. -/

namespace Sys2Proof.Laws

open Sys2Proof.Machine

section State
variable (s : State)

/-! `setSlot` -/

@[simp] theorem setSlot_agenda (sid : Nat) (x : Slot) : (s.setSlot sid x).agenda = s.agenda := rfl
@[simp] theorem setSlot_cur (sid : Nat) (x : Slot) : (s.setSlot sid x).cur = s.cur := rfl
@[simp] theorem setSlot_lag (sid : Nat) (x : Slot) : (s.setSlot sid x).lag = s.lag := rfl
@[simp] theorem setSlot_nonce (sid : Nat) (x : Slot) : (s.setSlot sid x).nonce = s.nonce := rfl
@[simp] theorem setSlot_dev (sid : Nat) (x : Slot) : (s.setSlot sid x).dev = s.dev := rfl
@[simp] theorem setSlot_cyc (sid : Nat) (x : Slot) : (s.setSlot sid x).cyc = s.cyc := rfl
@[simp] theorem setSlot_cores (sid : Nat) (x : Slot) : (s.setSlot sid x).cores = s.cores := rfl
@[simp] theorem setSlot_clusters (sid : Nat) (x : Slot) : (s.setSlot sid x).clusters = s.clusters := rfl
@[simp] theorem setSlot_launches (sid : Nat) (x : Slot) : (s.setSlot sid x).launches = s.launches := rfl
@[simp] theorem setSlot_mem (sid : Nat) (x : Slot) : (s.setSlot sid x).mem = s.mem := rfl
@[simp] theorem setSlot_l2 (sid : Nat) (x : Slot) : (s.setSlot sid x).l2 = s.l2 := rfl
@[simp] theorem setSlot_memDesc (sid : Nat) (x : Slot) : (s.setSlot sid x).memDesc = s.memDesc := rfl
@[simp] theorem setSlot_scr (sid : Nat) (x : Slot) : (s.setSlot sid x).scr = s.scr := rfl
@[simp] theorem setSlot_tags (sid : Nat) (x : Slot) : (s.setSlot sid x).tags = s.tags := rfl
@[simp] theorem setSlot_scrDesc (sid : Nat) (x : Slot) : (s.setSlot sid x).scrDesc = s.scrDesc := rfl
@[simp] theorem setSlot_l1 (sid : Nat) (x : Slot) : (s.setSlot sid x).l1 = s.l1 := rfl
@[simp] theorem setSlot_owners (sid : Nat) (x : Slot) : (s.setSlot sid x).owners = s.owners := rfl
@[simp] theorem setSlot_regLines (sid : Nat) (x : Slot) : (s.setSlot sid x).regLines = s.regLines := rfl
@[simp] theorem setSlot_contrib (sid : Nat) (x : Slot) : (s.setSlot sid x).contrib = s.contrib := rfl
@[simp] theorem setSlot_updLines (sid : Nat) (x : Slot) : (s.setSlot sid x).updLines = s.updLines := rfl
@[simp] theorem setSlot_flight (sid : Nat) (x : Slot) : (s.setSlot sid x).flight = s.flight := rfl
@[simp] theorem setSlot_nextMsg (sid : Nat) (x : Slot) : (s.setSlot sid x).nextMsg = s.nextMsg := rfl
@[simp] theorem setSlot_waiters (sid : Nat) (x : Slot) : (s.setSlot sid x).waiters = s.waiters := rfl
@[simp] theorem setSlot_allocs (sid : Nat) (x : Slot) : (s.setSlot sid x).allocs = s.allocs := rfl
@[simp] theorem setSlot_reports (sid : Nat) (x : Slot) : (s.setSlot sid x).reports = s.reports := rfl
@[simp] theorem setSlot_walkers (sid : Nat) (x : Slot) : (s.setSlot sid x).walkers = s.walkers := rfl
@[simp] theorem setSlot_l1Sets (sid : Nat) (x : Slot) : (s.setSlot sid x).l1Sets = s.l1Sets := rfl
@[simp] theorem setSlot_l2Sets (sid : Nat) (x : Slot) : (s.setSlot sid x).l2Sets = s.l2Sets := rfl
@[simp] theorem setSlot_llcSets (sid : Nat) (x : Slot) : (s.setSlot sid x).llcSets = s.llcSets := rfl
@[simp] theorem setSlot_domains (sid : Nat) (x : Slot) : (s.setSlot sid x).domains = s.domains := rfl
@[simp] theorem setSlot_domainOld (sid : Nat) (x : Slot) : (s.setSlot sid x).domainOld = s.domainOld := rfl
@[simp] theorem setSlot_domainCopy (sid : Nat) (x : Slot) : (s.setSlot sid x).domainCopy = s.domainCopy := rfl
@[simp] theorem setSlot_copies (sid : Nat) (x : Slot) : (s.setSlot sid x).copies = s.copies := rfl
@[simp] theorem setSlot_nextCopy (sid : Nat) (x : Slot) : (s.setSlot sid x).nextCopy = s.nextCopy := rfl
@[simp] theorem setSlot_streams (sid : Nat) (x : Slot) : (s.setSlot sid x).streams = s.streams := rfl
@[simp] theorem setSlot_peers (sid : Nat) (x : Slot) : (s.setSlot sid x).peers = s.peers := rfl
@[simp] theorem setSlot_dieKeys (sid : Nat) (x : Slot) : (s.setSlot sid x).dieKeys = s.dieKeys := rfl
@[simp] theorem setSlot_pkgKeys (sid : Nat) (x : Slot) : (s.setSlot sid x).pkgKeys = s.pkgKeys := rfl
@[simp] theorem setSlot_outbox (sid : Nat) (x : Slot) : (s.setSlot sid x).outbox = s.outbox := rfl
@[simp] theorem setSlot_unacked (sid : Nat) (x : Slot) : (s.setSlot sid x).unacked = s.unacked := rfl
@[simp] theorem setSlot_queues (sid : Nat) (x : Slot) : (s.setSlot sid x).queues = s.queues := rfl
@[simp] theorem setSlot_discards (sid : Nat) (x : Slot) : (s.setSlot sid x).discards = s.discards := rfl
@[simp] theorem setSlot_hostMem (sid : Nat) (x : Slot) : (s.setSlot sid x).hostMem = s.hostMem := rfl
@[simp] theorem setSlot_msix (sid : Nat) (x : Slot) : (s.setSlot sid x).msix = s.msix := rfl
@[simp] theorem setSlot_clock (sid : Nat) (x : Slot) : (s.setSlot sid x).clock = s.clock := rfl
@[simp] theorem setSlot_ptp (sid : Nat) (x : Slot) : (s.setSlot sid x).ptp = s.ptp := rfl
@[simp] theorem setSlot_tt (sid : Nat) (x : Slot) : (s.setSlot sid x).tt = s.tt := rfl
@[simp] theorem setSlot_errors (sid : Nat) (x : Slot) : (s.setSlot sid x).errors = s.errors := rfl
@[simp] theorem setSlot_thresholds (sid : Nat) (x : Slot) : (s.setSlot sid x).thresholds = s.thresholds := rfl
@[simp] theorem setSlot_retries (sid : Nat) (x : Slot) : (s.setSlot sid x).retries = s.retries := rfl
@[simp] theorem setSlot_boot (sid : Nat) (x : Slot) : (s.setSlot sid x).boot = s.boot := rfl
@[simp] theorem setSlot_ports (sid : Nat) (x : Slot) : (s.setSlot sid x).ports = s.ports := rfl
@[simp] theorem setSlot_portMap (sid : Nat) (x : Slot) : (s.setSlot sid x).portMap = s.portMap := rfl
@[simp] theorem setSlot_breaks (sid : Nat) (x : Slot) : (s.setSlot sid x).breaks = s.breaks := rfl
@[simp] theorem setSlot_readOut (sid : Nat) (x : Slot) : (s.setSlot sid x).readOut = s.readOut := rfl

/-! `updSlot` -/

@[simp] theorem updSlot_agenda (sid : Nat) (f : Slot → Slot) : (s.updSlot sid f).agenda = s.agenda := rfl
@[simp] theorem updSlot_cur (sid : Nat) (f : Slot → Slot) : (s.updSlot sid f).cur = s.cur := rfl
@[simp] theorem updSlot_lag (sid : Nat) (f : Slot → Slot) : (s.updSlot sid f).lag = s.lag := rfl
@[simp] theorem updSlot_nonce (sid : Nat) (f : Slot → Slot) : (s.updSlot sid f).nonce = s.nonce := rfl
@[simp] theorem updSlot_dev (sid : Nat) (f : Slot → Slot) : (s.updSlot sid f).dev = s.dev := rfl
@[simp] theorem updSlot_cyc (sid : Nat) (f : Slot → Slot) : (s.updSlot sid f).cyc = s.cyc := rfl
@[simp] theorem updSlot_cores (sid : Nat) (f : Slot → Slot) : (s.updSlot sid f).cores = s.cores := rfl
@[simp] theorem updSlot_clusters (sid : Nat) (f : Slot → Slot) : (s.updSlot sid f).clusters = s.clusters := rfl
@[simp] theorem updSlot_launches (sid : Nat) (f : Slot → Slot) : (s.updSlot sid f).launches = s.launches := rfl
@[simp] theorem updSlot_mem (sid : Nat) (f : Slot → Slot) : (s.updSlot sid f).mem = s.mem := rfl
@[simp] theorem updSlot_l2 (sid : Nat) (f : Slot → Slot) : (s.updSlot sid f).l2 = s.l2 := rfl
@[simp] theorem updSlot_memDesc (sid : Nat) (f : Slot → Slot) : (s.updSlot sid f).memDesc = s.memDesc := rfl
@[simp] theorem updSlot_scr (sid : Nat) (f : Slot → Slot) : (s.updSlot sid f).scr = s.scr := rfl
@[simp] theorem updSlot_tags (sid : Nat) (f : Slot → Slot) : (s.updSlot sid f).tags = s.tags := rfl
@[simp] theorem updSlot_scrDesc (sid : Nat) (f : Slot → Slot) : (s.updSlot sid f).scrDesc = s.scrDesc := rfl
@[simp] theorem updSlot_l1 (sid : Nat) (f : Slot → Slot) : (s.updSlot sid f).l1 = s.l1 := rfl
@[simp] theorem updSlot_owners (sid : Nat) (f : Slot → Slot) : (s.updSlot sid f).owners = s.owners := rfl
@[simp] theorem updSlot_regLines (sid : Nat) (f : Slot → Slot) : (s.updSlot sid f).regLines = s.regLines := rfl
@[simp] theorem updSlot_contrib (sid : Nat) (f : Slot → Slot) : (s.updSlot sid f).contrib = s.contrib := rfl
@[simp] theorem updSlot_updLines (sid : Nat) (f : Slot → Slot) : (s.updSlot sid f).updLines = s.updLines := rfl
@[simp] theorem updSlot_flight (sid : Nat) (f : Slot → Slot) : (s.updSlot sid f).flight = s.flight := rfl
@[simp] theorem updSlot_nextMsg (sid : Nat) (f : Slot → Slot) : (s.updSlot sid f).nextMsg = s.nextMsg := rfl
@[simp] theorem updSlot_waiters (sid : Nat) (f : Slot → Slot) : (s.updSlot sid f).waiters = s.waiters := rfl
@[simp] theorem updSlot_allocs (sid : Nat) (f : Slot → Slot) : (s.updSlot sid f).allocs = s.allocs := rfl
@[simp] theorem updSlot_reports (sid : Nat) (f : Slot → Slot) : (s.updSlot sid f).reports = s.reports := rfl
@[simp] theorem updSlot_walkers (sid : Nat) (f : Slot → Slot) : (s.updSlot sid f).walkers = s.walkers := rfl
@[simp] theorem updSlot_l1Sets (sid : Nat) (f : Slot → Slot) : (s.updSlot sid f).l1Sets = s.l1Sets := rfl
@[simp] theorem updSlot_l2Sets (sid : Nat) (f : Slot → Slot) : (s.updSlot sid f).l2Sets = s.l2Sets := rfl
@[simp] theorem updSlot_llcSets (sid : Nat) (f : Slot → Slot) : (s.updSlot sid f).llcSets = s.llcSets := rfl
@[simp] theorem updSlot_domains (sid : Nat) (f : Slot → Slot) : (s.updSlot sid f).domains = s.domains := rfl
@[simp] theorem updSlot_domainOld (sid : Nat) (f : Slot → Slot) : (s.updSlot sid f).domainOld = s.domainOld := rfl
@[simp] theorem updSlot_domainCopy (sid : Nat) (f : Slot → Slot) : (s.updSlot sid f).domainCopy = s.domainCopy := rfl
@[simp] theorem updSlot_copies (sid : Nat) (f : Slot → Slot) : (s.updSlot sid f).copies = s.copies := rfl
@[simp] theorem updSlot_nextCopy (sid : Nat) (f : Slot → Slot) : (s.updSlot sid f).nextCopy = s.nextCopy := rfl
@[simp] theorem updSlot_streams (sid : Nat) (f : Slot → Slot) : (s.updSlot sid f).streams = s.streams := rfl
@[simp] theorem updSlot_peers (sid : Nat) (f : Slot → Slot) : (s.updSlot sid f).peers = s.peers := rfl
@[simp] theorem updSlot_dieKeys (sid : Nat) (f : Slot → Slot) : (s.updSlot sid f).dieKeys = s.dieKeys := rfl
@[simp] theorem updSlot_pkgKeys (sid : Nat) (f : Slot → Slot) : (s.updSlot sid f).pkgKeys = s.pkgKeys := rfl
@[simp] theorem updSlot_outbox (sid : Nat) (f : Slot → Slot) : (s.updSlot sid f).outbox = s.outbox := rfl
@[simp] theorem updSlot_unacked (sid : Nat) (f : Slot → Slot) : (s.updSlot sid f).unacked = s.unacked := rfl
@[simp] theorem updSlot_queues (sid : Nat) (f : Slot → Slot) : (s.updSlot sid f).queues = s.queues := rfl
@[simp] theorem updSlot_discards (sid : Nat) (f : Slot → Slot) : (s.updSlot sid f).discards = s.discards := rfl
@[simp] theorem updSlot_hostMem (sid : Nat) (f : Slot → Slot) : (s.updSlot sid f).hostMem = s.hostMem := rfl
@[simp] theorem updSlot_msix (sid : Nat) (f : Slot → Slot) : (s.updSlot sid f).msix = s.msix := rfl
@[simp] theorem updSlot_clock (sid : Nat) (f : Slot → Slot) : (s.updSlot sid f).clock = s.clock := rfl
@[simp] theorem updSlot_ptp (sid : Nat) (f : Slot → Slot) : (s.updSlot sid f).ptp = s.ptp := rfl
@[simp] theorem updSlot_tt (sid : Nat) (f : Slot → Slot) : (s.updSlot sid f).tt = s.tt := rfl
@[simp] theorem updSlot_errors (sid : Nat) (f : Slot → Slot) : (s.updSlot sid f).errors = s.errors := rfl
@[simp] theorem updSlot_thresholds (sid : Nat) (f : Slot → Slot) : (s.updSlot sid f).thresholds = s.thresholds := rfl
@[simp] theorem updSlot_retries (sid : Nat) (f : Slot → Slot) : (s.updSlot sid f).retries = s.retries := rfl
@[simp] theorem updSlot_boot (sid : Nat) (f : Slot → Slot) : (s.updSlot sid f).boot = s.boot := rfl
@[simp] theorem updSlot_ports (sid : Nat) (f : Slot → Slot) : (s.updSlot sid f).ports = s.ports := rfl
@[simp] theorem updSlot_portMap (sid : Nat) (f : Slot → Slot) : (s.updSlot sid f).portMap = s.portMap := rfl
@[simp] theorem updSlot_breaks (sid : Nat) (f : Slot → Slot) : (s.updSlot sid f).breaks = s.breaks := rfl
@[simp] theorem updSlot_readOut (sid : Nat) (f : Slot → Slot) : (s.updSlot sid f).readOut = s.readOut := rfl

/-! `upd` -/

@[simp] theorem upd_agenda (f : Slot → Slot) : (s.upd f).agenda = s.agenda := rfl
@[simp] theorem upd_cur (f : Slot → Slot) : (s.upd f).cur = s.cur := rfl
@[simp] theorem upd_lag (f : Slot → Slot) : (s.upd f).lag = s.lag := rfl
@[simp] theorem upd_nonce (f : Slot → Slot) : (s.upd f).nonce = s.nonce := rfl
@[simp] theorem upd_dev (f : Slot → Slot) : (s.upd f).dev = s.dev := rfl
@[simp] theorem upd_cyc (f : Slot → Slot) : (s.upd f).cyc = s.cyc := rfl
@[simp] theorem upd_cores (f : Slot → Slot) : (s.upd f).cores = s.cores := rfl
@[simp] theorem upd_clusters (f : Slot → Slot) : (s.upd f).clusters = s.clusters := rfl
@[simp] theorem upd_launches (f : Slot → Slot) : (s.upd f).launches = s.launches := rfl
@[simp] theorem upd_mem (f : Slot → Slot) : (s.upd f).mem = s.mem := rfl
@[simp] theorem upd_l2 (f : Slot → Slot) : (s.upd f).l2 = s.l2 := rfl
@[simp] theorem upd_memDesc (f : Slot → Slot) : (s.upd f).memDesc = s.memDesc := rfl
@[simp] theorem upd_scr (f : Slot → Slot) : (s.upd f).scr = s.scr := rfl
@[simp] theorem upd_tags (f : Slot → Slot) : (s.upd f).tags = s.tags := rfl
@[simp] theorem upd_scrDesc (f : Slot → Slot) : (s.upd f).scrDesc = s.scrDesc := rfl
@[simp] theorem upd_l1 (f : Slot → Slot) : (s.upd f).l1 = s.l1 := rfl
@[simp] theorem upd_owners (f : Slot → Slot) : (s.upd f).owners = s.owners := rfl
@[simp] theorem upd_regLines (f : Slot → Slot) : (s.upd f).regLines = s.regLines := rfl
@[simp] theorem upd_contrib (f : Slot → Slot) : (s.upd f).contrib = s.contrib := rfl
@[simp] theorem upd_updLines (f : Slot → Slot) : (s.upd f).updLines = s.updLines := rfl
@[simp] theorem upd_flight (f : Slot → Slot) : (s.upd f).flight = s.flight := rfl
@[simp] theorem upd_nextMsg (f : Slot → Slot) : (s.upd f).nextMsg = s.nextMsg := rfl
@[simp] theorem upd_waiters (f : Slot → Slot) : (s.upd f).waiters = s.waiters := rfl
@[simp] theorem upd_allocs (f : Slot → Slot) : (s.upd f).allocs = s.allocs := rfl
@[simp] theorem upd_reports (f : Slot → Slot) : (s.upd f).reports = s.reports := rfl
@[simp] theorem upd_walkers (f : Slot → Slot) : (s.upd f).walkers = s.walkers := rfl
@[simp] theorem upd_l1Sets (f : Slot → Slot) : (s.upd f).l1Sets = s.l1Sets := rfl
@[simp] theorem upd_l2Sets (f : Slot → Slot) : (s.upd f).l2Sets = s.l2Sets := rfl
@[simp] theorem upd_llcSets (f : Slot → Slot) : (s.upd f).llcSets = s.llcSets := rfl
@[simp] theorem upd_domains (f : Slot → Slot) : (s.upd f).domains = s.domains := rfl
@[simp] theorem upd_domainOld (f : Slot → Slot) : (s.upd f).domainOld = s.domainOld := rfl
@[simp] theorem upd_domainCopy (f : Slot → Slot) : (s.upd f).domainCopy = s.domainCopy := rfl
@[simp] theorem upd_copies (f : Slot → Slot) : (s.upd f).copies = s.copies := rfl
@[simp] theorem upd_nextCopy (f : Slot → Slot) : (s.upd f).nextCopy = s.nextCopy := rfl
@[simp] theorem upd_streams (f : Slot → Slot) : (s.upd f).streams = s.streams := rfl
@[simp] theorem upd_peers (f : Slot → Slot) : (s.upd f).peers = s.peers := rfl
@[simp] theorem upd_dieKeys (f : Slot → Slot) : (s.upd f).dieKeys = s.dieKeys := rfl
@[simp] theorem upd_pkgKeys (f : Slot → Slot) : (s.upd f).pkgKeys = s.pkgKeys := rfl
@[simp] theorem upd_outbox (f : Slot → Slot) : (s.upd f).outbox = s.outbox := rfl
@[simp] theorem upd_unacked (f : Slot → Slot) : (s.upd f).unacked = s.unacked := rfl
@[simp] theorem upd_queues (f : Slot → Slot) : (s.upd f).queues = s.queues := rfl
@[simp] theorem upd_discards (f : Slot → Slot) : (s.upd f).discards = s.discards := rfl
@[simp] theorem upd_hostMem (f : Slot → Slot) : (s.upd f).hostMem = s.hostMem := rfl
@[simp] theorem upd_msix (f : Slot → Slot) : (s.upd f).msix = s.msix := rfl
@[simp] theorem upd_clock (f : Slot → Slot) : (s.upd f).clock = s.clock := rfl
@[simp] theorem upd_ptp (f : Slot → Slot) : (s.upd f).ptp = s.ptp := rfl
@[simp] theorem upd_tt (f : Slot → Slot) : (s.upd f).tt = s.tt := rfl
@[simp] theorem upd_errors (f : Slot → Slot) : (s.upd f).errors = s.errors := rfl
@[simp] theorem upd_thresholds (f : Slot → Slot) : (s.upd f).thresholds = s.thresholds := rfl
@[simp] theorem upd_retries (f : Slot → Slot) : (s.upd f).retries = s.retries := rfl
@[simp] theorem upd_boot (f : Slot → Slot) : (s.upd f).boot = s.boot := rfl
@[simp] theorem upd_ports (f : Slot → Slot) : (s.upd f).ports = s.ports := rfl
@[simp] theorem upd_portMap (f : Slot → Slot) : (s.upd f).portMap = s.portMap := rfl
@[simp] theorem upd_breaks (f : Slot → Slot) : (s.upd f).breaks = s.breaks := rfl
@[simp] theorem upd_readOut (f : Slot → Slot) : (s.upd f).readOut = s.readOut := rfl

/-! `updCore` -/

@[simp] theorem updCore_agenda (c : Nat) (f : Machine.Core → Machine.Core) : (s.updCore c f).agenda = s.agenda := rfl
@[simp] theorem updCore_cur (c : Nat) (f : Machine.Core → Machine.Core) : (s.updCore c f).cur = s.cur := rfl
@[simp] theorem updCore_lag (c : Nat) (f : Machine.Core → Machine.Core) : (s.updCore c f).lag = s.lag := rfl
@[simp] theorem updCore_nonce (c : Nat) (f : Machine.Core → Machine.Core) : (s.updCore c f).nonce = s.nonce := rfl
@[simp] theorem updCore_dev (c : Nat) (f : Machine.Core → Machine.Core) : (s.updCore c f).dev = s.dev := rfl
@[simp] theorem updCore_cyc (c : Nat) (f : Machine.Core → Machine.Core) : (s.updCore c f).cyc = s.cyc := rfl
@[simp] theorem updCore_slots (c : Nat) (f : Machine.Core → Machine.Core) : (s.updCore c f).slots = s.slots := rfl
@[simp] theorem updCore_clusters (c : Nat) (f : Machine.Core → Machine.Core) : (s.updCore c f).clusters = s.clusters := rfl
@[simp] theorem updCore_launches (c : Nat) (f : Machine.Core → Machine.Core) : (s.updCore c f).launches = s.launches := rfl
@[simp] theorem updCore_mem (c : Nat) (f : Machine.Core → Machine.Core) : (s.updCore c f).mem = s.mem := rfl
@[simp] theorem updCore_l2 (c : Nat) (f : Machine.Core → Machine.Core) : (s.updCore c f).l2 = s.l2 := rfl
@[simp] theorem updCore_memDesc (c : Nat) (f : Machine.Core → Machine.Core) : (s.updCore c f).memDesc = s.memDesc := rfl
@[simp] theorem updCore_scr (c : Nat) (f : Machine.Core → Machine.Core) : (s.updCore c f).scr = s.scr := rfl
@[simp] theorem updCore_tags (c : Nat) (f : Machine.Core → Machine.Core) : (s.updCore c f).tags = s.tags := rfl
@[simp] theorem updCore_scrDesc (c : Nat) (f : Machine.Core → Machine.Core) : (s.updCore c f).scrDesc = s.scrDesc := rfl
@[simp] theorem updCore_l1 (c : Nat) (f : Machine.Core → Machine.Core) : (s.updCore c f).l1 = s.l1 := rfl
@[simp] theorem updCore_owners (c : Nat) (f : Machine.Core → Machine.Core) : (s.updCore c f).owners = s.owners := rfl
@[simp] theorem updCore_regLines (c : Nat) (f : Machine.Core → Machine.Core) : (s.updCore c f).regLines = s.regLines := rfl
@[simp] theorem updCore_contrib (c : Nat) (f : Machine.Core → Machine.Core) : (s.updCore c f).contrib = s.contrib := rfl
@[simp] theorem updCore_updLines (c : Nat) (f : Machine.Core → Machine.Core) : (s.updCore c f).updLines = s.updLines := rfl
@[simp] theorem updCore_flight (c : Nat) (f : Machine.Core → Machine.Core) : (s.updCore c f).flight = s.flight := rfl
@[simp] theorem updCore_nextMsg (c : Nat) (f : Machine.Core → Machine.Core) : (s.updCore c f).nextMsg = s.nextMsg := rfl
@[simp] theorem updCore_waiters (c : Nat) (f : Machine.Core → Machine.Core) : (s.updCore c f).waiters = s.waiters := rfl
@[simp] theorem updCore_allocs (c : Nat) (f : Machine.Core → Machine.Core) : (s.updCore c f).allocs = s.allocs := rfl
@[simp] theorem updCore_reports (c : Nat) (f : Machine.Core → Machine.Core) : (s.updCore c f).reports = s.reports := rfl
@[simp] theorem updCore_walkers (c : Nat) (f : Machine.Core → Machine.Core) : (s.updCore c f).walkers = s.walkers := rfl
@[simp] theorem updCore_l1Sets (c : Nat) (f : Machine.Core → Machine.Core) : (s.updCore c f).l1Sets = s.l1Sets := rfl
@[simp] theorem updCore_l2Sets (c : Nat) (f : Machine.Core → Machine.Core) : (s.updCore c f).l2Sets = s.l2Sets := rfl
@[simp] theorem updCore_llcSets (c : Nat) (f : Machine.Core → Machine.Core) : (s.updCore c f).llcSets = s.llcSets := rfl
@[simp] theorem updCore_domains (c : Nat) (f : Machine.Core → Machine.Core) : (s.updCore c f).domains = s.domains := rfl
@[simp] theorem updCore_domainOld (c : Nat) (f : Machine.Core → Machine.Core) : (s.updCore c f).domainOld = s.domainOld := rfl
@[simp] theorem updCore_domainCopy (c : Nat) (f : Machine.Core → Machine.Core) : (s.updCore c f).domainCopy = s.domainCopy := rfl
@[simp] theorem updCore_copies (c : Nat) (f : Machine.Core → Machine.Core) : (s.updCore c f).copies = s.copies := rfl
@[simp] theorem updCore_nextCopy (c : Nat) (f : Machine.Core → Machine.Core) : (s.updCore c f).nextCopy = s.nextCopy := rfl
@[simp] theorem updCore_streams (c : Nat) (f : Machine.Core → Machine.Core) : (s.updCore c f).streams = s.streams := rfl
@[simp] theorem updCore_peers (c : Nat) (f : Machine.Core → Machine.Core) : (s.updCore c f).peers = s.peers := rfl
@[simp] theorem updCore_dieKeys (c : Nat) (f : Machine.Core → Machine.Core) : (s.updCore c f).dieKeys = s.dieKeys := rfl
@[simp] theorem updCore_pkgKeys (c : Nat) (f : Machine.Core → Machine.Core) : (s.updCore c f).pkgKeys = s.pkgKeys := rfl
@[simp] theorem updCore_outbox (c : Nat) (f : Machine.Core → Machine.Core) : (s.updCore c f).outbox = s.outbox := rfl
@[simp] theorem updCore_unacked (c : Nat) (f : Machine.Core → Machine.Core) : (s.updCore c f).unacked = s.unacked := rfl
@[simp] theorem updCore_queues (c : Nat) (f : Machine.Core → Machine.Core) : (s.updCore c f).queues = s.queues := rfl
@[simp] theorem updCore_discards (c : Nat) (f : Machine.Core → Machine.Core) : (s.updCore c f).discards = s.discards := rfl
@[simp] theorem updCore_hostMem (c : Nat) (f : Machine.Core → Machine.Core) : (s.updCore c f).hostMem = s.hostMem := rfl
@[simp] theorem updCore_msix (c : Nat) (f : Machine.Core → Machine.Core) : (s.updCore c f).msix = s.msix := rfl
@[simp] theorem updCore_clock (c : Nat) (f : Machine.Core → Machine.Core) : (s.updCore c f).clock = s.clock := rfl
@[simp] theorem updCore_ptp (c : Nat) (f : Machine.Core → Machine.Core) : (s.updCore c f).ptp = s.ptp := rfl
@[simp] theorem updCore_tt (c : Nat) (f : Machine.Core → Machine.Core) : (s.updCore c f).tt = s.tt := rfl
@[simp] theorem updCore_errors (c : Nat) (f : Machine.Core → Machine.Core) : (s.updCore c f).errors = s.errors := rfl
@[simp] theorem updCore_thresholds (c : Nat) (f : Machine.Core → Machine.Core) : (s.updCore c f).thresholds = s.thresholds := rfl
@[simp] theorem updCore_retries (c : Nat) (f : Machine.Core → Machine.Core) : (s.updCore c f).retries = s.retries := rfl
@[simp] theorem updCore_boot (c : Nat) (f : Machine.Core → Machine.Core) : (s.updCore c f).boot = s.boot := rfl
@[simp] theorem updCore_ports (c : Nat) (f : Machine.Core → Machine.Core) : (s.updCore c f).ports = s.ports := rfl
@[simp] theorem updCore_portMap (c : Nat) (f : Machine.Core → Machine.Core) : (s.updCore c f).portMap = s.portMap := rfl
@[simp] theorem updCore_breaks (c : Nat) (f : Machine.Core → Machine.Core) : (s.updCore c f).breaks = s.breaks := rfl
@[simp] theorem updCore_readOut (c : Nat) (f : Machine.Core → Machine.Core) : (s.updCore c f).readOut = s.readOut := rfl

/-! `updCluster` -/

@[simp] theorem updCluster_agenda (p : Nat) (f : Cluster → Cluster) : (s.updCluster p f).agenda = s.agenda := rfl
@[simp] theorem updCluster_cur (p : Nat) (f : Cluster → Cluster) : (s.updCluster p f).cur = s.cur := rfl
@[simp] theorem updCluster_lag (p : Nat) (f : Cluster → Cluster) : (s.updCluster p f).lag = s.lag := rfl
@[simp] theorem updCluster_nonce (p : Nat) (f : Cluster → Cluster) : (s.updCluster p f).nonce = s.nonce := rfl
@[simp] theorem updCluster_dev (p : Nat) (f : Cluster → Cluster) : (s.updCluster p f).dev = s.dev := rfl
@[simp] theorem updCluster_cyc (p : Nat) (f : Cluster → Cluster) : (s.updCluster p f).cyc = s.cyc := rfl
@[simp] theorem updCluster_slots (p : Nat) (f : Cluster → Cluster) : (s.updCluster p f).slots = s.slots := rfl
@[simp] theorem updCluster_cores (p : Nat) (f : Cluster → Cluster) : (s.updCluster p f).cores = s.cores := rfl
@[simp] theorem updCluster_launches (p : Nat) (f : Cluster → Cluster) : (s.updCluster p f).launches = s.launches := rfl
@[simp] theorem updCluster_mem (p : Nat) (f : Cluster → Cluster) : (s.updCluster p f).mem = s.mem := rfl
@[simp] theorem updCluster_l2 (p : Nat) (f : Cluster → Cluster) : (s.updCluster p f).l2 = s.l2 := rfl
@[simp] theorem updCluster_memDesc (p : Nat) (f : Cluster → Cluster) : (s.updCluster p f).memDesc = s.memDesc := rfl
@[simp] theorem updCluster_scr (p : Nat) (f : Cluster → Cluster) : (s.updCluster p f).scr = s.scr := rfl
@[simp] theorem updCluster_tags (p : Nat) (f : Cluster → Cluster) : (s.updCluster p f).tags = s.tags := rfl
@[simp] theorem updCluster_scrDesc (p : Nat) (f : Cluster → Cluster) : (s.updCluster p f).scrDesc = s.scrDesc := rfl
@[simp] theorem updCluster_l1 (p : Nat) (f : Cluster → Cluster) : (s.updCluster p f).l1 = s.l1 := rfl
@[simp] theorem updCluster_owners (p : Nat) (f : Cluster → Cluster) : (s.updCluster p f).owners = s.owners := rfl
@[simp] theorem updCluster_regLines (p : Nat) (f : Cluster → Cluster) : (s.updCluster p f).regLines = s.regLines := rfl
@[simp] theorem updCluster_contrib (p : Nat) (f : Cluster → Cluster) : (s.updCluster p f).contrib = s.contrib := rfl
@[simp] theorem updCluster_updLines (p : Nat) (f : Cluster → Cluster) : (s.updCluster p f).updLines = s.updLines := rfl
@[simp] theorem updCluster_flight (p : Nat) (f : Cluster → Cluster) : (s.updCluster p f).flight = s.flight := rfl
@[simp] theorem updCluster_nextMsg (p : Nat) (f : Cluster → Cluster) : (s.updCluster p f).nextMsg = s.nextMsg := rfl
@[simp] theorem updCluster_waiters (p : Nat) (f : Cluster → Cluster) : (s.updCluster p f).waiters = s.waiters := rfl
@[simp] theorem updCluster_allocs (p : Nat) (f : Cluster → Cluster) : (s.updCluster p f).allocs = s.allocs := rfl
@[simp] theorem updCluster_reports (p : Nat) (f : Cluster → Cluster) : (s.updCluster p f).reports = s.reports := rfl
@[simp] theorem updCluster_walkers (p : Nat) (f : Cluster → Cluster) : (s.updCluster p f).walkers = s.walkers := rfl
@[simp] theorem updCluster_l1Sets (p : Nat) (f : Cluster → Cluster) : (s.updCluster p f).l1Sets = s.l1Sets := rfl
@[simp] theorem updCluster_l2Sets (p : Nat) (f : Cluster → Cluster) : (s.updCluster p f).l2Sets = s.l2Sets := rfl
@[simp] theorem updCluster_llcSets (p : Nat) (f : Cluster → Cluster) : (s.updCluster p f).llcSets = s.llcSets := rfl
@[simp] theorem updCluster_domains (p : Nat) (f : Cluster → Cluster) : (s.updCluster p f).domains = s.domains := rfl
@[simp] theorem updCluster_domainOld (p : Nat) (f : Cluster → Cluster) : (s.updCluster p f).domainOld = s.domainOld := rfl
@[simp] theorem updCluster_domainCopy (p : Nat) (f : Cluster → Cluster) : (s.updCluster p f).domainCopy = s.domainCopy := rfl
@[simp] theorem updCluster_copies (p : Nat) (f : Cluster → Cluster) : (s.updCluster p f).copies = s.copies := rfl
@[simp] theorem updCluster_nextCopy (p : Nat) (f : Cluster → Cluster) : (s.updCluster p f).nextCopy = s.nextCopy := rfl
@[simp] theorem updCluster_streams (p : Nat) (f : Cluster → Cluster) : (s.updCluster p f).streams = s.streams := rfl
@[simp] theorem updCluster_peers (p : Nat) (f : Cluster → Cluster) : (s.updCluster p f).peers = s.peers := rfl
@[simp] theorem updCluster_dieKeys (p : Nat) (f : Cluster → Cluster) : (s.updCluster p f).dieKeys = s.dieKeys := rfl
@[simp] theorem updCluster_pkgKeys (p : Nat) (f : Cluster → Cluster) : (s.updCluster p f).pkgKeys = s.pkgKeys := rfl
@[simp] theorem updCluster_outbox (p : Nat) (f : Cluster → Cluster) : (s.updCluster p f).outbox = s.outbox := rfl
@[simp] theorem updCluster_unacked (p : Nat) (f : Cluster → Cluster) : (s.updCluster p f).unacked = s.unacked := rfl
@[simp] theorem updCluster_queues (p : Nat) (f : Cluster → Cluster) : (s.updCluster p f).queues = s.queues := rfl
@[simp] theorem updCluster_discards (p : Nat) (f : Cluster → Cluster) : (s.updCluster p f).discards = s.discards := rfl
@[simp] theorem updCluster_hostMem (p : Nat) (f : Cluster → Cluster) : (s.updCluster p f).hostMem = s.hostMem := rfl
@[simp] theorem updCluster_msix (p : Nat) (f : Cluster → Cluster) : (s.updCluster p f).msix = s.msix := rfl
@[simp] theorem updCluster_clock (p : Nat) (f : Cluster → Cluster) : (s.updCluster p f).clock = s.clock := rfl
@[simp] theorem updCluster_ptp (p : Nat) (f : Cluster → Cluster) : (s.updCluster p f).ptp = s.ptp := rfl
@[simp] theorem updCluster_tt (p : Nat) (f : Cluster → Cluster) : (s.updCluster p f).tt = s.tt := rfl
@[simp] theorem updCluster_errors (p : Nat) (f : Cluster → Cluster) : (s.updCluster p f).errors = s.errors := rfl
@[simp] theorem updCluster_thresholds (p : Nat) (f : Cluster → Cluster) : (s.updCluster p f).thresholds = s.thresholds := rfl
@[simp] theorem updCluster_retries (p : Nat) (f : Cluster → Cluster) : (s.updCluster p f).retries = s.retries := rfl
@[simp] theorem updCluster_boot (p : Nat) (f : Cluster → Cluster) : (s.updCluster p f).boot = s.boot := rfl
@[simp] theorem updCluster_ports (p : Nat) (f : Cluster → Cluster) : (s.updCluster p f).ports = s.ports := rfl
@[simp] theorem updCluster_portMap (p : Nat) (f : Cluster → Cluster) : (s.updCluster p f).portMap = s.portMap := rfl
@[simp] theorem updCluster_breaks (p : Nat) (f : Cluster → Cluster) : (s.updCluster p f).breaks = s.breaks := rfl
@[simp] theorem updCluster_readOut (p : Nat) (f : Cluster → Cluster) : (s.updCluster p f).readOut = s.readOut := rfl

/-! `updLaunch` -/

@[simp] theorem updLaunch_agenda (i : Nat) (f : Launch → Launch) : (s.updLaunch i f).agenda = s.agenda := rfl
@[simp] theorem updLaunch_cur (i : Nat) (f : Launch → Launch) : (s.updLaunch i f).cur = s.cur := rfl
@[simp] theorem updLaunch_lag (i : Nat) (f : Launch → Launch) : (s.updLaunch i f).lag = s.lag := rfl
@[simp] theorem updLaunch_nonce (i : Nat) (f : Launch → Launch) : (s.updLaunch i f).nonce = s.nonce := rfl
@[simp] theorem updLaunch_dev (i : Nat) (f : Launch → Launch) : (s.updLaunch i f).dev = s.dev := rfl
@[simp] theorem updLaunch_cyc (i : Nat) (f : Launch → Launch) : (s.updLaunch i f).cyc = s.cyc := rfl
@[simp] theorem updLaunch_slots (i : Nat) (f : Launch → Launch) : (s.updLaunch i f).slots = s.slots := rfl
@[simp] theorem updLaunch_cores (i : Nat) (f : Launch → Launch) : (s.updLaunch i f).cores = s.cores := rfl
@[simp] theorem updLaunch_clusters (i : Nat) (f : Launch → Launch) : (s.updLaunch i f).clusters = s.clusters := rfl
@[simp] theorem updLaunch_mem (i : Nat) (f : Launch → Launch) : (s.updLaunch i f).mem = s.mem := rfl
@[simp] theorem updLaunch_l2 (i : Nat) (f : Launch → Launch) : (s.updLaunch i f).l2 = s.l2 := rfl
@[simp] theorem updLaunch_memDesc (i : Nat) (f : Launch → Launch) : (s.updLaunch i f).memDesc = s.memDesc := rfl
@[simp] theorem updLaunch_scr (i : Nat) (f : Launch → Launch) : (s.updLaunch i f).scr = s.scr := rfl
@[simp] theorem updLaunch_tags (i : Nat) (f : Launch → Launch) : (s.updLaunch i f).tags = s.tags := rfl
@[simp] theorem updLaunch_scrDesc (i : Nat) (f : Launch → Launch) : (s.updLaunch i f).scrDesc = s.scrDesc := rfl
@[simp] theorem updLaunch_l1 (i : Nat) (f : Launch → Launch) : (s.updLaunch i f).l1 = s.l1 := rfl
@[simp] theorem updLaunch_owners (i : Nat) (f : Launch → Launch) : (s.updLaunch i f).owners = s.owners := rfl
@[simp] theorem updLaunch_regLines (i : Nat) (f : Launch → Launch) : (s.updLaunch i f).regLines = s.regLines := rfl
@[simp] theorem updLaunch_contrib (i : Nat) (f : Launch → Launch) : (s.updLaunch i f).contrib = s.contrib := rfl
@[simp] theorem updLaunch_updLines (i : Nat) (f : Launch → Launch) : (s.updLaunch i f).updLines = s.updLines := rfl
@[simp] theorem updLaunch_flight (i : Nat) (f : Launch → Launch) : (s.updLaunch i f).flight = s.flight := rfl
@[simp] theorem updLaunch_nextMsg (i : Nat) (f : Launch → Launch) : (s.updLaunch i f).nextMsg = s.nextMsg := rfl
@[simp] theorem updLaunch_waiters (i : Nat) (f : Launch → Launch) : (s.updLaunch i f).waiters = s.waiters := rfl
@[simp] theorem updLaunch_allocs (i : Nat) (f : Launch → Launch) : (s.updLaunch i f).allocs = s.allocs := rfl
@[simp] theorem updLaunch_reports (i : Nat) (f : Launch → Launch) : (s.updLaunch i f).reports = s.reports := rfl
@[simp] theorem updLaunch_walkers (i : Nat) (f : Launch → Launch) : (s.updLaunch i f).walkers = s.walkers := rfl
@[simp] theorem updLaunch_l1Sets (i : Nat) (f : Launch → Launch) : (s.updLaunch i f).l1Sets = s.l1Sets := rfl
@[simp] theorem updLaunch_l2Sets (i : Nat) (f : Launch → Launch) : (s.updLaunch i f).l2Sets = s.l2Sets := rfl
@[simp] theorem updLaunch_llcSets (i : Nat) (f : Launch → Launch) : (s.updLaunch i f).llcSets = s.llcSets := rfl
@[simp] theorem updLaunch_domains (i : Nat) (f : Launch → Launch) : (s.updLaunch i f).domains = s.domains := rfl
@[simp] theorem updLaunch_domainOld (i : Nat) (f : Launch → Launch) : (s.updLaunch i f).domainOld = s.domainOld := rfl
@[simp] theorem updLaunch_domainCopy (i : Nat) (f : Launch → Launch) : (s.updLaunch i f).domainCopy = s.domainCopy := rfl
@[simp] theorem updLaunch_copies (i : Nat) (f : Launch → Launch) : (s.updLaunch i f).copies = s.copies := rfl
@[simp] theorem updLaunch_nextCopy (i : Nat) (f : Launch → Launch) : (s.updLaunch i f).nextCopy = s.nextCopy := rfl
@[simp] theorem updLaunch_streams (i : Nat) (f : Launch → Launch) : (s.updLaunch i f).streams = s.streams := rfl
@[simp] theorem updLaunch_peers (i : Nat) (f : Launch → Launch) : (s.updLaunch i f).peers = s.peers := rfl
@[simp] theorem updLaunch_dieKeys (i : Nat) (f : Launch → Launch) : (s.updLaunch i f).dieKeys = s.dieKeys := rfl
@[simp] theorem updLaunch_pkgKeys (i : Nat) (f : Launch → Launch) : (s.updLaunch i f).pkgKeys = s.pkgKeys := rfl
@[simp] theorem updLaunch_outbox (i : Nat) (f : Launch → Launch) : (s.updLaunch i f).outbox = s.outbox := rfl
@[simp] theorem updLaunch_unacked (i : Nat) (f : Launch → Launch) : (s.updLaunch i f).unacked = s.unacked := rfl
@[simp] theorem updLaunch_queues (i : Nat) (f : Launch → Launch) : (s.updLaunch i f).queues = s.queues := rfl
@[simp] theorem updLaunch_discards (i : Nat) (f : Launch → Launch) : (s.updLaunch i f).discards = s.discards := rfl
@[simp] theorem updLaunch_hostMem (i : Nat) (f : Launch → Launch) : (s.updLaunch i f).hostMem = s.hostMem := rfl
@[simp] theorem updLaunch_msix (i : Nat) (f : Launch → Launch) : (s.updLaunch i f).msix = s.msix := rfl
@[simp] theorem updLaunch_clock (i : Nat) (f : Launch → Launch) : (s.updLaunch i f).clock = s.clock := rfl
@[simp] theorem updLaunch_ptp (i : Nat) (f : Launch → Launch) : (s.updLaunch i f).ptp = s.ptp := rfl
@[simp] theorem updLaunch_tt (i : Nat) (f : Launch → Launch) : (s.updLaunch i f).tt = s.tt := rfl
@[simp] theorem updLaunch_errors (i : Nat) (f : Launch → Launch) : (s.updLaunch i f).errors = s.errors := rfl
@[simp] theorem updLaunch_thresholds (i : Nat) (f : Launch → Launch) : (s.updLaunch i f).thresholds = s.thresholds := rfl
@[simp] theorem updLaunch_retries (i : Nat) (f : Launch → Launch) : (s.updLaunch i f).retries = s.retries := rfl
@[simp] theorem updLaunch_boot (i : Nat) (f : Launch → Launch) : (s.updLaunch i f).boot = s.boot := rfl
@[simp] theorem updLaunch_ports (i : Nat) (f : Launch → Launch) : (s.updLaunch i f).ports = s.ports := rfl
@[simp] theorem updLaunch_portMap (i : Nat) (f : Launch → Launch) : (s.updLaunch i f).portMap = s.portMap := rfl
@[simp] theorem updLaunch_breaks (i : Nat) (f : Launch → Launch) : (s.updLaunch i f).breaks = s.breaks := rfl
@[simp] theorem updLaunch_readOut (i : Nat) (f : Launch → Launch) : (s.updLaunch i f).readOut = s.readOut := rfl

/-! `setG` -/

@[simp] theorem setG_agenda (n : Nat) (x : Word) : (s.setG n x).agenda = s.agenda := rfl
@[simp] theorem setG_cur (n : Nat) (x : Word) : (s.setG n x).cur = s.cur := rfl
@[simp] theorem setG_lag (n : Nat) (x : Word) : (s.setG n x).lag = s.lag := rfl
@[simp] theorem setG_nonce (n : Nat) (x : Word) : (s.setG n x).nonce = s.nonce := rfl
@[simp] theorem setG_dev (n : Nat) (x : Word) : (s.setG n x).dev = s.dev := rfl
@[simp] theorem setG_cyc (n : Nat) (x : Word) : (s.setG n x).cyc = s.cyc := rfl
@[simp] theorem setG_cores (n : Nat) (x : Word) : (s.setG n x).cores = s.cores := rfl
@[simp] theorem setG_clusters (n : Nat) (x : Word) : (s.setG n x).clusters = s.clusters := rfl
@[simp] theorem setG_launches (n : Nat) (x : Word) : (s.setG n x).launches = s.launches := rfl
@[simp] theorem setG_mem (n : Nat) (x : Word) : (s.setG n x).mem = s.mem := rfl
@[simp] theorem setG_l2 (n : Nat) (x : Word) : (s.setG n x).l2 = s.l2 := rfl
@[simp] theorem setG_memDesc (n : Nat) (x : Word) : (s.setG n x).memDesc = s.memDesc := rfl
@[simp] theorem setG_scr (n : Nat) (x : Word) : (s.setG n x).scr = s.scr := rfl
@[simp] theorem setG_tags (n : Nat) (x : Word) : (s.setG n x).tags = s.tags := rfl
@[simp] theorem setG_scrDesc (n : Nat) (x : Word) : (s.setG n x).scrDesc = s.scrDesc := rfl
@[simp] theorem setG_l1 (n : Nat) (x : Word) : (s.setG n x).l1 = s.l1 := rfl
@[simp] theorem setG_owners (n : Nat) (x : Word) : (s.setG n x).owners = s.owners := rfl
@[simp] theorem setG_regLines (n : Nat) (x : Word) : (s.setG n x).regLines = s.regLines := rfl
@[simp] theorem setG_contrib (n : Nat) (x : Word) : (s.setG n x).contrib = s.contrib := rfl
@[simp] theorem setG_updLines (n : Nat) (x : Word) : (s.setG n x).updLines = s.updLines := rfl
@[simp] theorem setG_flight (n : Nat) (x : Word) : (s.setG n x).flight = s.flight := rfl
@[simp] theorem setG_nextMsg (n : Nat) (x : Word) : (s.setG n x).nextMsg = s.nextMsg := rfl
@[simp] theorem setG_waiters (n : Nat) (x : Word) : (s.setG n x).waiters = s.waiters := rfl
@[simp] theorem setG_allocs (n : Nat) (x : Word) : (s.setG n x).allocs = s.allocs := rfl
@[simp] theorem setG_reports (n : Nat) (x : Word) : (s.setG n x).reports = s.reports := rfl
@[simp] theorem setG_walkers (n : Nat) (x : Word) : (s.setG n x).walkers = s.walkers := rfl
@[simp] theorem setG_l1Sets (n : Nat) (x : Word) : (s.setG n x).l1Sets = s.l1Sets := rfl
@[simp] theorem setG_l2Sets (n : Nat) (x : Word) : (s.setG n x).l2Sets = s.l2Sets := rfl
@[simp] theorem setG_llcSets (n : Nat) (x : Word) : (s.setG n x).llcSets = s.llcSets := rfl
@[simp] theorem setG_domains (n : Nat) (x : Word) : (s.setG n x).domains = s.domains := rfl
@[simp] theorem setG_domainOld (n : Nat) (x : Word) : (s.setG n x).domainOld = s.domainOld := rfl
@[simp] theorem setG_domainCopy (n : Nat) (x : Word) : (s.setG n x).domainCopy = s.domainCopy := rfl
@[simp] theorem setG_copies (n : Nat) (x : Word) : (s.setG n x).copies = s.copies := rfl
@[simp] theorem setG_nextCopy (n : Nat) (x : Word) : (s.setG n x).nextCopy = s.nextCopy := rfl
@[simp] theorem setG_streams (n : Nat) (x : Word) : (s.setG n x).streams = s.streams := rfl
@[simp] theorem setG_peers (n : Nat) (x : Word) : (s.setG n x).peers = s.peers := rfl
@[simp] theorem setG_dieKeys (n : Nat) (x : Word) : (s.setG n x).dieKeys = s.dieKeys := rfl
@[simp] theorem setG_pkgKeys (n : Nat) (x : Word) : (s.setG n x).pkgKeys = s.pkgKeys := rfl
@[simp] theorem setG_outbox (n : Nat) (x : Word) : (s.setG n x).outbox = s.outbox := rfl
@[simp] theorem setG_unacked (n : Nat) (x : Word) : (s.setG n x).unacked = s.unacked := rfl
@[simp] theorem setG_queues (n : Nat) (x : Word) : (s.setG n x).queues = s.queues := rfl
@[simp] theorem setG_discards (n : Nat) (x : Word) : (s.setG n x).discards = s.discards := rfl
@[simp] theorem setG_hostMem (n : Nat) (x : Word) : (s.setG n x).hostMem = s.hostMem := rfl
@[simp] theorem setG_msix (n : Nat) (x : Word) : (s.setG n x).msix = s.msix := rfl
@[simp] theorem setG_clock (n : Nat) (x : Word) : (s.setG n x).clock = s.clock := rfl
@[simp] theorem setG_ptp (n : Nat) (x : Word) : (s.setG n x).ptp = s.ptp := rfl
@[simp] theorem setG_tt (n : Nat) (x : Word) : (s.setG n x).tt = s.tt := rfl
@[simp] theorem setG_errors (n : Nat) (x : Word) : (s.setG n x).errors = s.errors := rfl
@[simp] theorem setG_thresholds (n : Nat) (x : Word) : (s.setG n x).thresholds = s.thresholds := rfl
@[simp] theorem setG_retries (n : Nat) (x : Word) : (s.setG n x).retries = s.retries := rfl
@[simp] theorem setG_boot (n : Nat) (x : Word) : (s.setG n x).boot = s.boot := rfl
@[simp] theorem setG_ports (n : Nat) (x : Word) : (s.setG n x).ports = s.ports := rfl
@[simp] theorem setG_portMap (n : Nat) (x : Word) : (s.setG n x).portMap = s.portMap := rfl
@[simp] theorem setG_breaks (n : Nat) (x : Word) : (s.setG n x).breaks = s.breaks := rfl
@[simp] theorem setG_readOut (n : Nat) (x : Word) : (s.setG n x).readOut = s.readOut := rfl

/-! `setP` -/

@[simp] theorem setP_agenda (n : Nat) (b : Bool) : (s.setP n b).agenda = s.agenda := rfl
@[simp] theorem setP_cur (n : Nat) (b : Bool) : (s.setP n b).cur = s.cur := rfl
@[simp] theorem setP_lag (n : Nat) (b : Bool) : (s.setP n b).lag = s.lag := rfl
@[simp] theorem setP_nonce (n : Nat) (b : Bool) : (s.setP n b).nonce = s.nonce := rfl
@[simp] theorem setP_dev (n : Nat) (b : Bool) : (s.setP n b).dev = s.dev := rfl
@[simp] theorem setP_cyc (n : Nat) (b : Bool) : (s.setP n b).cyc = s.cyc := rfl
@[simp] theorem setP_cores (n : Nat) (b : Bool) : (s.setP n b).cores = s.cores := rfl
@[simp] theorem setP_clusters (n : Nat) (b : Bool) : (s.setP n b).clusters = s.clusters := rfl
@[simp] theorem setP_launches (n : Nat) (b : Bool) : (s.setP n b).launches = s.launches := rfl
@[simp] theorem setP_mem (n : Nat) (b : Bool) : (s.setP n b).mem = s.mem := rfl
@[simp] theorem setP_l2 (n : Nat) (b : Bool) : (s.setP n b).l2 = s.l2 := rfl
@[simp] theorem setP_memDesc (n : Nat) (b : Bool) : (s.setP n b).memDesc = s.memDesc := rfl
@[simp] theorem setP_scr (n : Nat) (b : Bool) : (s.setP n b).scr = s.scr := rfl
@[simp] theorem setP_tags (n : Nat) (b : Bool) : (s.setP n b).tags = s.tags := rfl
@[simp] theorem setP_scrDesc (n : Nat) (b : Bool) : (s.setP n b).scrDesc = s.scrDesc := rfl
@[simp] theorem setP_l1 (n : Nat) (b : Bool) : (s.setP n b).l1 = s.l1 := rfl
@[simp] theorem setP_owners (n : Nat) (b : Bool) : (s.setP n b).owners = s.owners := rfl
@[simp] theorem setP_regLines (n : Nat) (b : Bool) : (s.setP n b).regLines = s.regLines := rfl
@[simp] theorem setP_contrib (n : Nat) (b : Bool) : (s.setP n b).contrib = s.contrib := rfl
@[simp] theorem setP_updLines (n : Nat) (b : Bool) : (s.setP n b).updLines = s.updLines := rfl
@[simp] theorem setP_flight (n : Nat) (b : Bool) : (s.setP n b).flight = s.flight := rfl
@[simp] theorem setP_nextMsg (n : Nat) (b : Bool) : (s.setP n b).nextMsg = s.nextMsg := rfl
@[simp] theorem setP_waiters (n : Nat) (b : Bool) : (s.setP n b).waiters = s.waiters := rfl
@[simp] theorem setP_allocs (n : Nat) (b : Bool) : (s.setP n b).allocs = s.allocs := rfl
@[simp] theorem setP_reports (n : Nat) (b : Bool) : (s.setP n b).reports = s.reports := rfl
@[simp] theorem setP_walkers (n : Nat) (b : Bool) : (s.setP n b).walkers = s.walkers := rfl
@[simp] theorem setP_l1Sets (n : Nat) (b : Bool) : (s.setP n b).l1Sets = s.l1Sets := rfl
@[simp] theorem setP_l2Sets (n : Nat) (b : Bool) : (s.setP n b).l2Sets = s.l2Sets := rfl
@[simp] theorem setP_llcSets (n : Nat) (b : Bool) : (s.setP n b).llcSets = s.llcSets := rfl
@[simp] theorem setP_domains (n : Nat) (b : Bool) : (s.setP n b).domains = s.domains := rfl
@[simp] theorem setP_domainOld (n : Nat) (b : Bool) : (s.setP n b).domainOld = s.domainOld := rfl
@[simp] theorem setP_domainCopy (n : Nat) (b : Bool) : (s.setP n b).domainCopy = s.domainCopy := rfl
@[simp] theorem setP_copies (n : Nat) (b : Bool) : (s.setP n b).copies = s.copies := rfl
@[simp] theorem setP_nextCopy (n : Nat) (b : Bool) : (s.setP n b).nextCopy = s.nextCopy := rfl
@[simp] theorem setP_streams (n : Nat) (b : Bool) : (s.setP n b).streams = s.streams := rfl
@[simp] theorem setP_peers (n : Nat) (b : Bool) : (s.setP n b).peers = s.peers := rfl
@[simp] theorem setP_dieKeys (n : Nat) (b : Bool) : (s.setP n b).dieKeys = s.dieKeys := rfl
@[simp] theorem setP_pkgKeys (n : Nat) (b : Bool) : (s.setP n b).pkgKeys = s.pkgKeys := rfl
@[simp] theorem setP_outbox (n : Nat) (b : Bool) : (s.setP n b).outbox = s.outbox := rfl
@[simp] theorem setP_unacked (n : Nat) (b : Bool) : (s.setP n b).unacked = s.unacked := rfl
@[simp] theorem setP_queues (n : Nat) (b : Bool) : (s.setP n b).queues = s.queues := rfl
@[simp] theorem setP_discards (n : Nat) (b : Bool) : (s.setP n b).discards = s.discards := rfl
@[simp] theorem setP_hostMem (n : Nat) (b : Bool) : (s.setP n b).hostMem = s.hostMem := rfl
@[simp] theorem setP_msix (n : Nat) (b : Bool) : (s.setP n b).msix = s.msix := rfl
@[simp] theorem setP_clock (n : Nat) (b : Bool) : (s.setP n b).clock = s.clock := rfl
@[simp] theorem setP_ptp (n : Nat) (b : Bool) : (s.setP n b).ptp = s.ptp := rfl
@[simp] theorem setP_tt (n : Nat) (b : Bool) : (s.setP n b).tt = s.tt := rfl
@[simp] theorem setP_errors (n : Nat) (b : Bool) : (s.setP n b).errors = s.errors := rfl
@[simp] theorem setP_thresholds (n : Nat) (b : Bool) : (s.setP n b).thresholds = s.thresholds := rfl
@[simp] theorem setP_retries (n : Nat) (b : Bool) : (s.setP n b).retries = s.retries := rfl
@[simp] theorem setP_boot (n : Nat) (b : Bool) : (s.setP n b).boot = s.boot := rfl
@[simp] theorem setP_ports (n : Nat) (b : Bool) : (s.setP n b).ports = s.ports := rfl
@[simp] theorem setP_portMap (n : Nat) (b : Bool) : (s.setP n b).portMap = s.portMap := rfl
@[simp] theorem setP_breaks (n : Nat) (b : Bool) : (s.setP n b).breaks = s.breaks := rfl
@[simp] theorem setP_readOut (n : Nat) (b : Bool) : (s.setP n b).readOut = s.readOut := rfl

/-! `orFlags` -/

@[simp] theorem orFlags_agenda (f : BitVec 5) : (s.orFlags f).agenda = s.agenda := rfl
@[simp] theorem orFlags_cur (f : BitVec 5) : (s.orFlags f).cur = s.cur := rfl
@[simp] theorem orFlags_lag (f : BitVec 5) : (s.orFlags f).lag = s.lag := rfl
@[simp] theorem orFlags_nonce (f : BitVec 5) : (s.orFlags f).nonce = s.nonce := rfl
@[simp] theorem orFlags_dev (f : BitVec 5) : (s.orFlags f).dev = s.dev := rfl
@[simp] theorem orFlags_cyc (f : BitVec 5) : (s.orFlags f).cyc = s.cyc := rfl
@[simp] theorem orFlags_cores (f : BitVec 5) : (s.orFlags f).cores = s.cores := rfl
@[simp] theorem orFlags_clusters (f : BitVec 5) : (s.orFlags f).clusters = s.clusters := rfl
@[simp] theorem orFlags_launches (f : BitVec 5) : (s.orFlags f).launches = s.launches := rfl
@[simp] theorem orFlags_mem (f : BitVec 5) : (s.orFlags f).mem = s.mem := rfl
@[simp] theorem orFlags_l2 (f : BitVec 5) : (s.orFlags f).l2 = s.l2 := rfl
@[simp] theorem orFlags_memDesc (f : BitVec 5) : (s.orFlags f).memDesc = s.memDesc := rfl
@[simp] theorem orFlags_scr (f : BitVec 5) : (s.orFlags f).scr = s.scr := rfl
@[simp] theorem orFlags_tags (f : BitVec 5) : (s.orFlags f).tags = s.tags := rfl
@[simp] theorem orFlags_scrDesc (f : BitVec 5) : (s.orFlags f).scrDesc = s.scrDesc := rfl
@[simp] theorem orFlags_l1 (f : BitVec 5) : (s.orFlags f).l1 = s.l1 := rfl
@[simp] theorem orFlags_owners (f : BitVec 5) : (s.orFlags f).owners = s.owners := rfl
@[simp] theorem orFlags_regLines (f : BitVec 5) : (s.orFlags f).regLines = s.regLines := rfl
@[simp] theorem orFlags_contrib (f : BitVec 5) : (s.orFlags f).contrib = s.contrib := rfl
@[simp] theorem orFlags_updLines (f : BitVec 5) : (s.orFlags f).updLines = s.updLines := rfl
@[simp] theorem orFlags_flight (f : BitVec 5) : (s.orFlags f).flight = s.flight := rfl
@[simp] theorem orFlags_nextMsg (f : BitVec 5) : (s.orFlags f).nextMsg = s.nextMsg := rfl
@[simp] theorem orFlags_waiters (f : BitVec 5) : (s.orFlags f).waiters = s.waiters := rfl
@[simp] theorem orFlags_allocs (f : BitVec 5) : (s.orFlags f).allocs = s.allocs := rfl
@[simp] theorem orFlags_reports (f : BitVec 5) : (s.orFlags f).reports = s.reports := rfl
@[simp] theorem orFlags_walkers (f : BitVec 5) : (s.orFlags f).walkers = s.walkers := rfl
@[simp] theorem orFlags_l1Sets (f : BitVec 5) : (s.orFlags f).l1Sets = s.l1Sets := rfl
@[simp] theorem orFlags_l2Sets (f : BitVec 5) : (s.orFlags f).l2Sets = s.l2Sets := rfl
@[simp] theorem orFlags_llcSets (f : BitVec 5) : (s.orFlags f).llcSets = s.llcSets := rfl
@[simp] theorem orFlags_domains (f : BitVec 5) : (s.orFlags f).domains = s.domains := rfl
@[simp] theorem orFlags_domainOld (f : BitVec 5) : (s.orFlags f).domainOld = s.domainOld := rfl
@[simp] theorem orFlags_domainCopy (f : BitVec 5) : (s.orFlags f).domainCopy = s.domainCopy := rfl
@[simp] theorem orFlags_copies (f : BitVec 5) : (s.orFlags f).copies = s.copies := rfl
@[simp] theorem orFlags_nextCopy (f : BitVec 5) : (s.orFlags f).nextCopy = s.nextCopy := rfl
@[simp] theorem orFlags_streams (f : BitVec 5) : (s.orFlags f).streams = s.streams := rfl
@[simp] theorem orFlags_peers (f : BitVec 5) : (s.orFlags f).peers = s.peers := rfl
@[simp] theorem orFlags_dieKeys (f : BitVec 5) : (s.orFlags f).dieKeys = s.dieKeys := rfl
@[simp] theorem orFlags_pkgKeys (f : BitVec 5) : (s.orFlags f).pkgKeys = s.pkgKeys := rfl
@[simp] theorem orFlags_outbox (f : BitVec 5) : (s.orFlags f).outbox = s.outbox := rfl
@[simp] theorem orFlags_unacked (f : BitVec 5) : (s.orFlags f).unacked = s.unacked := rfl
@[simp] theorem orFlags_queues (f : BitVec 5) : (s.orFlags f).queues = s.queues := rfl
@[simp] theorem orFlags_discards (f : BitVec 5) : (s.orFlags f).discards = s.discards := rfl
@[simp] theorem orFlags_hostMem (f : BitVec 5) : (s.orFlags f).hostMem = s.hostMem := rfl
@[simp] theorem orFlags_msix (f : BitVec 5) : (s.orFlags f).msix = s.msix := rfl
@[simp] theorem orFlags_clock (f : BitVec 5) : (s.orFlags f).clock = s.clock := rfl
@[simp] theorem orFlags_ptp (f : BitVec 5) : (s.orFlags f).ptp = s.ptp := rfl
@[simp] theorem orFlags_tt (f : BitVec 5) : (s.orFlags f).tt = s.tt := rfl
@[simp] theorem orFlags_errors (f : BitVec 5) : (s.orFlags f).errors = s.errors := rfl
@[simp] theorem orFlags_thresholds (f : BitVec 5) : (s.orFlags f).thresholds = s.thresholds := rfl
@[simp] theorem orFlags_retries (f : BitVec 5) : (s.orFlags f).retries = s.retries := rfl
@[simp] theorem orFlags_boot (f : BitVec 5) : (s.orFlags f).boot = s.boot := rfl
@[simp] theorem orFlags_ports (f : BitVec 5) : (s.orFlags f).ports = s.ports := rfl
@[simp] theorem orFlags_portMap (f : BitVec 5) : (s.orFlags f).portMap = s.portMap := rfl
@[simp] theorem orFlags_breaks (f : BitVec 5) : (s.orFlags f).breaks = s.breaks := rfl
@[simp] theorem orFlags_readOut (f : BitVec 5) : (s.orFlags f).readOut = s.readOut := rfl

/-! `countIns` -/

@[simp] theorem countIns_agenda : (s.countIns).agenda = s.agenda := rfl
@[simp] theorem countIns_cur : (s.countIns).cur = s.cur := rfl
@[simp] theorem countIns_lag : (s.countIns).lag = s.lag := rfl
@[simp] theorem countIns_nonce : (s.countIns).nonce = s.nonce := rfl
@[simp] theorem countIns_dev : (s.countIns).dev = s.dev := rfl
@[simp] theorem countIns_cyc : (s.countIns).cyc = s.cyc := rfl
@[simp] theorem countIns_cores : (s.countIns).cores = s.cores := rfl
@[simp] theorem countIns_clusters : (s.countIns).clusters = s.clusters := rfl
@[simp] theorem countIns_launches : (s.countIns).launches = s.launches := rfl
@[simp] theorem countIns_mem : (s.countIns).mem = s.mem := rfl
@[simp] theorem countIns_l2 : (s.countIns).l2 = s.l2 := rfl
@[simp] theorem countIns_memDesc : (s.countIns).memDesc = s.memDesc := rfl
@[simp] theorem countIns_scr : (s.countIns).scr = s.scr := rfl
@[simp] theorem countIns_tags : (s.countIns).tags = s.tags := rfl
@[simp] theorem countIns_scrDesc : (s.countIns).scrDesc = s.scrDesc := rfl
@[simp] theorem countIns_l1 : (s.countIns).l1 = s.l1 := rfl
@[simp] theorem countIns_owners : (s.countIns).owners = s.owners := rfl
@[simp] theorem countIns_regLines : (s.countIns).regLines = s.regLines := rfl
@[simp] theorem countIns_contrib : (s.countIns).contrib = s.contrib := rfl
@[simp] theorem countIns_updLines : (s.countIns).updLines = s.updLines := rfl
@[simp] theorem countIns_flight : (s.countIns).flight = s.flight := rfl
@[simp] theorem countIns_nextMsg : (s.countIns).nextMsg = s.nextMsg := rfl
@[simp] theorem countIns_waiters : (s.countIns).waiters = s.waiters := rfl
@[simp] theorem countIns_allocs : (s.countIns).allocs = s.allocs := rfl
@[simp] theorem countIns_reports : (s.countIns).reports = s.reports := rfl
@[simp] theorem countIns_walkers : (s.countIns).walkers = s.walkers := rfl
@[simp] theorem countIns_l1Sets : (s.countIns).l1Sets = s.l1Sets := rfl
@[simp] theorem countIns_l2Sets : (s.countIns).l2Sets = s.l2Sets := rfl
@[simp] theorem countIns_llcSets : (s.countIns).llcSets = s.llcSets := rfl
@[simp] theorem countIns_domains : (s.countIns).domains = s.domains := rfl
@[simp] theorem countIns_domainOld : (s.countIns).domainOld = s.domainOld := rfl
@[simp] theorem countIns_domainCopy : (s.countIns).domainCopy = s.domainCopy := rfl
@[simp] theorem countIns_copies : (s.countIns).copies = s.copies := rfl
@[simp] theorem countIns_nextCopy : (s.countIns).nextCopy = s.nextCopy := rfl
@[simp] theorem countIns_streams : (s.countIns).streams = s.streams := rfl
@[simp] theorem countIns_peers : (s.countIns).peers = s.peers := rfl
@[simp] theorem countIns_dieKeys : (s.countIns).dieKeys = s.dieKeys := rfl
@[simp] theorem countIns_pkgKeys : (s.countIns).pkgKeys = s.pkgKeys := rfl
@[simp] theorem countIns_outbox : (s.countIns).outbox = s.outbox := rfl
@[simp] theorem countIns_unacked : (s.countIns).unacked = s.unacked := rfl
@[simp] theorem countIns_queues : (s.countIns).queues = s.queues := rfl
@[simp] theorem countIns_discards : (s.countIns).discards = s.discards := rfl
@[simp] theorem countIns_hostMem : (s.countIns).hostMem = s.hostMem := rfl
@[simp] theorem countIns_msix : (s.countIns).msix = s.msix := rfl
@[simp] theorem countIns_clock : (s.countIns).clock = s.clock := rfl
@[simp] theorem countIns_ptp : (s.countIns).ptp = s.ptp := rfl
@[simp] theorem countIns_tt : (s.countIns).tt = s.tt := rfl
@[simp] theorem countIns_errors : (s.countIns).errors = s.errors := rfl
@[simp] theorem countIns_thresholds : (s.countIns).thresholds = s.thresholds := rfl
@[simp] theorem countIns_retries : (s.countIns).retries = s.retries := rfl
@[simp] theorem countIns_boot : (s.countIns).boot = s.boot := rfl
@[simp] theorem countIns_ports : (s.countIns).ports = s.ports := rfl
@[simp] theorem countIns_portMap : (s.countIns).portMap = s.portMap := rfl
@[simp] theorem countIns_breaks : (s.countIns).breaks = s.breaks := rfl
@[simp] theorem countIns_readOut : (s.countIns).readOut = s.readOut := rfl

/-! `after` -/

@[simp] theorem after_agenda (f : Slot → Slot) : (s.after f).agenda = s.agenda := rfl
@[simp] theorem after_cur (f : Slot → Slot) : (s.after f).cur = s.cur := rfl
@[simp] theorem after_lag (f : Slot → Slot) : (s.after f).lag = s.lag := rfl
@[simp] theorem after_nonce (f : Slot → Slot) : (s.after f).nonce = s.nonce := rfl
@[simp] theorem after_dev (f : Slot → Slot) : (s.after f).dev = s.dev := rfl
@[simp] theorem after_cyc (f : Slot → Slot) : (s.after f).cyc = s.cyc := rfl
@[simp] theorem after_cores (f : Slot → Slot) : (s.after f).cores = s.cores := rfl
@[simp] theorem after_clusters (f : Slot → Slot) : (s.after f).clusters = s.clusters := rfl
@[simp] theorem after_launches (f : Slot → Slot) : (s.after f).launches = s.launches := rfl
@[simp] theorem after_mem (f : Slot → Slot) : (s.after f).mem = s.mem := rfl
@[simp] theorem after_l2 (f : Slot → Slot) : (s.after f).l2 = s.l2 := rfl
@[simp] theorem after_memDesc (f : Slot → Slot) : (s.after f).memDesc = s.memDesc := rfl
@[simp] theorem after_scr (f : Slot → Slot) : (s.after f).scr = s.scr := rfl
@[simp] theorem after_tags (f : Slot → Slot) : (s.after f).tags = s.tags := rfl
@[simp] theorem after_scrDesc (f : Slot → Slot) : (s.after f).scrDesc = s.scrDesc := rfl
@[simp] theorem after_l1 (f : Slot → Slot) : (s.after f).l1 = s.l1 := rfl
@[simp] theorem after_owners (f : Slot → Slot) : (s.after f).owners = s.owners := rfl
@[simp] theorem after_regLines (f : Slot → Slot) : (s.after f).regLines = s.regLines := rfl
@[simp] theorem after_contrib (f : Slot → Slot) : (s.after f).contrib = s.contrib := rfl
@[simp] theorem after_updLines (f : Slot → Slot) : (s.after f).updLines = s.updLines := rfl
@[simp] theorem after_flight (f : Slot → Slot) : (s.after f).flight = s.flight := rfl
@[simp] theorem after_nextMsg (f : Slot → Slot) : (s.after f).nextMsg = s.nextMsg := rfl
@[simp] theorem after_waiters (f : Slot → Slot) : (s.after f).waiters = s.waiters := rfl
@[simp] theorem after_allocs (f : Slot → Slot) : (s.after f).allocs = s.allocs := rfl
@[simp] theorem after_reports (f : Slot → Slot) : (s.after f).reports = s.reports := rfl
@[simp] theorem after_walkers (f : Slot → Slot) : (s.after f).walkers = s.walkers := rfl
@[simp] theorem after_l1Sets (f : Slot → Slot) : (s.after f).l1Sets = s.l1Sets := rfl
@[simp] theorem after_l2Sets (f : Slot → Slot) : (s.after f).l2Sets = s.l2Sets := rfl
@[simp] theorem after_llcSets (f : Slot → Slot) : (s.after f).llcSets = s.llcSets := rfl
@[simp] theorem after_domains (f : Slot → Slot) : (s.after f).domains = s.domains := rfl
@[simp] theorem after_domainOld (f : Slot → Slot) : (s.after f).domainOld = s.domainOld := rfl
@[simp] theorem after_domainCopy (f : Slot → Slot) : (s.after f).domainCopy = s.domainCopy := rfl
@[simp] theorem after_copies (f : Slot → Slot) : (s.after f).copies = s.copies := rfl
@[simp] theorem after_nextCopy (f : Slot → Slot) : (s.after f).nextCopy = s.nextCopy := rfl
@[simp] theorem after_streams (f : Slot → Slot) : (s.after f).streams = s.streams := rfl
@[simp] theorem after_peers (f : Slot → Slot) : (s.after f).peers = s.peers := rfl
@[simp] theorem after_dieKeys (f : Slot → Slot) : (s.after f).dieKeys = s.dieKeys := rfl
@[simp] theorem after_pkgKeys (f : Slot → Slot) : (s.after f).pkgKeys = s.pkgKeys := rfl
@[simp] theorem after_outbox (f : Slot → Slot) : (s.after f).outbox = s.outbox := rfl
@[simp] theorem after_unacked (f : Slot → Slot) : (s.after f).unacked = s.unacked := rfl
@[simp] theorem after_queues (f : Slot → Slot) : (s.after f).queues = s.queues := rfl
@[simp] theorem after_discards (f : Slot → Slot) : (s.after f).discards = s.discards := rfl
@[simp] theorem after_hostMem (f : Slot → Slot) : (s.after f).hostMem = s.hostMem := rfl
@[simp] theorem after_msix (f : Slot → Slot) : (s.after f).msix = s.msix := rfl
@[simp] theorem after_clock (f : Slot → Slot) : (s.after f).clock = s.clock := rfl
@[simp] theorem after_ptp (f : Slot → Slot) : (s.after f).ptp = s.ptp := rfl
@[simp] theorem after_tt (f : Slot → Slot) : (s.after f).tt = s.tt := rfl
@[simp] theorem after_errors (f : Slot → Slot) : (s.after f).errors = s.errors := rfl
@[simp] theorem after_thresholds (f : Slot → Slot) : (s.after f).thresholds = s.thresholds := rfl
@[simp] theorem after_retries (f : Slot → Slot) : (s.after f).retries = s.retries := rfl
@[simp] theorem after_boot (f : Slot → Slot) : (s.after f).boot = s.boot := rfl
@[simp] theorem after_ports (f : Slot → Slot) : (s.after f).ports = s.ports := rfl
@[simp] theorem after_portMap (f : Slot → Slot) : (s.after f).portMap = s.portMap := rfl
@[simp] theorem after_breaks (f : Slot → Slot) : (s.after f).breaks = s.breaks := rfl
@[simp] theorem after_readOut (f : Slot → Slot) : (s.after f).readOut = s.readOut := rfl

end State

section Slot
variable (x : Slot)

/-! `setLc` -/

@[simp] theorem slot_setLc_run (k : Nat) (v : Word) : (x.setLc k v).run = x.run := rfl
@[simp] theorem slot_setLc_rid (k : Nat) (v : Word) : (x.setLc k v).rid = x.rid := rfl
@[simp] theorem slot_setLc_head (k : Nat) (v : Word) : (x.setLc k v).head = x.head := rfl
@[simp] theorem slot_setLc_pc (k : Nat) (v : Word) : (x.setLc k v).pc = x.pc := rfl
@[simp] theorem slot_setLc_g (k : Nat) (v : Word) : (x.setLc k v).g = x.g := rfl
@[simp] theorem slot_setLc_p (k : Nat) (v : Word) : (x.setLc k v).p = x.p := rfl
@[simp] theorem slot_setLc_v (k : Nat) (v : Word) : (x.setLc k v).v = x.v := rfl
@[simp] theorem slot_setLc_m (k : Nat) (v : Word) : (x.setLc k v).m = x.m := rfl
@[simp] theorem slot_setLc_acc (k : Nat) (v : Word) : (x.setLc k v).acc = x.acc := rfl
@[simp] theorem slot_setLc_own (k : Nat) (v : Word) : (x.setLc k v).own = x.own := rfl
@[simp] theorem slot_setLc_panels (k : Nat) (v : Word) : (x.setLc k v).panels = x.panels := rfl
@[simp] theorem slot_setLc_epoch (k : Nat) (v : Word) : (x.setLc k v).epoch = x.epoch := rfl
@[simp] theorem slot_setLc_csr (k : Nat) (v : Word) : (x.setLc k v).csr = x.csr := rfl
@[simp] theorem slot_setLc_tkey (k : Nat) (v : Word) : (x.setLc k v).tkey = x.tkey := rfl
@[simp] theorem slot_setLc_loops (k : Nat) (v : Word) : (x.setLc k v).loops = x.loops := rfl
@[simp] theorem slot_setLc_order (k : Nat) (v : Word) : (x.setLc k v).order = x.order := rfl
@[simp] theorem slot_setLc_shLoops (k : Nat) (v : Word) : (x.setLc k v).shLoops = x.shLoops := rfl
@[simp] theorem slot_setLc_shOrder (k : Nat) (v : Word) : (x.setLc k v).shOrder = x.shOrder := rfl
@[simp] theorem slot_setLc_shVrb (k : Nat) (v : Word) : (x.setLc k v).shVrb = x.shVrb := rfl
@[simp] theorem slot_setLc_cnt (k : Nat) (v : Word) : (x.setLc k v).cnt = x.cnt := rfl
@[simp] theorem slot_setLc_region (k : Nat) (v : Word) : (x.setLc k v).region = x.region := rfl
@[simp] theorem slot_setLc_deferred (k : Nat) (v : Word) : (x.setLc k v).deferred = x.deferred := rfl
@[simp] theorem slot_setLc_holds (k : Nat) (v : Word) : (x.setLc k v).holds = x.holds := rfl
@[simp] theorem slot_setLc_vq (k : Nat) (v : Word) : (x.setLc k v).vq = x.vq := rfl
@[simp] theorem slot_setLc_mq (k : Nat) (v : Word) : (x.setLc k v).mq = x.mq := rfl
@[simp] theorem slot_setLc_pq (k : Nat) (v : Word) : (x.setLc k v).pq = x.pq := rfl
@[simp] theorem slot_setLc_spin (k : Nat) (v : Word) : (x.setLc k v).spin = x.spin := rfl
@[simp] theorem slot_setLc_expired (k : Nat) (v : Word) : (x.setLc k v).expired = x.expired := rfl
@[simp] theorem slot_setLc_icopy (k : Nat) (v : Word) : (x.setLc k v).icopy = x.icopy := rfl
@[simp] theorem slot_setLc_armed (k : Nat) (v : Word) : (x.setLc k v).armed = x.armed := rfl
@[simp] theorem slot_setLc_preReq (k : Nat) (v : Word) : (x.setLc k v).preReq = x.preReq := rfl
@[simp] theorem slot_setLc_rcheck (k : Nat) (v : Word) : (x.setLc k v).rcheck = x.rcheck := rfl
@[simp] theorem slot_setLc_engFault (k : Nat) (v : Word) : (x.setLc k v).engFault = x.engFault := rfl
@[simp] theorem slot_setLc_mPoison (k : Nat) (v : Word) : (x.setLc k v).mPoison = x.mPoison := rfl
@[simp] theorem slot_setLc_pass (k : Nat) (v : Word) : (x.setLc k v).pass = x.pass := rfl
@[simp] theorem slot_setLc_counted (k : Nat) (v : Word) : (x.setLc k v).counted = x.counted := rfl
@[simp] theorem slot_setLc_after (k : Nat) (v : Word) : (x.setLc k v).after = x.after := rfl
@[simp] theorem slot_setLc_ahead (k : Nat) (v : Word) : (x.setLc k v).ahead = x.ahead := rfl
@[simp] theorem slot_setLc_freed (k : Nat) (v : Word) : (x.setLc k v).freed = x.freed := rfl

/-! `setVphys` -/

@[simp] theorem slot_setVphys_run (n : Nat) (v : Machine.VReg) : (x.setVphys n v).run = x.run := rfl
@[simp] theorem slot_setVphys_rid (n : Nat) (v : Machine.VReg) : (x.setVphys n v).rid = x.rid := rfl
@[simp] theorem slot_setVphys_head (n : Nat) (v : Machine.VReg) : (x.setVphys n v).head = x.head := rfl
@[simp] theorem slot_setVphys_pc (n : Nat) (v : Machine.VReg) : (x.setVphys n v).pc = x.pc := rfl
@[simp] theorem slot_setVphys_g (n : Nat) (v : Machine.VReg) : (x.setVphys n v).g = x.g := rfl
@[simp] theorem slot_setVphys_p (n : Nat) (v : Machine.VReg) : (x.setVphys n v).p = x.p := rfl
@[simp] theorem slot_setVphys_lc (n : Nat) (v : Machine.VReg) : (x.setVphys n v).lc = x.lc := rfl
@[simp] theorem slot_setVphys_m (n : Nat) (v : Machine.VReg) : (x.setVphys n v).m = x.m := rfl
@[simp] theorem slot_setVphys_acc (n : Nat) (v : Machine.VReg) : (x.setVphys n v).acc = x.acc := rfl
@[simp] theorem slot_setVphys_own (n : Nat) (v : Machine.VReg) : (x.setVphys n v).own = x.own := rfl
@[simp] theorem slot_setVphys_panels (n : Nat) (v : Machine.VReg) : (x.setVphys n v).panels = x.panels := rfl
@[simp] theorem slot_setVphys_epoch (n : Nat) (v : Machine.VReg) : (x.setVphys n v).epoch = x.epoch := rfl
@[simp] theorem slot_setVphys_csr (n : Nat) (v : Machine.VReg) : (x.setVphys n v).csr = x.csr := rfl
@[simp] theorem slot_setVphys_tkey (n : Nat) (v : Machine.VReg) : (x.setVphys n v).tkey = x.tkey := rfl
@[simp] theorem slot_setVphys_loops (n : Nat) (v : Machine.VReg) : (x.setVphys n v).loops = x.loops := rfl
@[simp] theorem slot_setVphys_order (n : Nat) (v : Machine.VReg) : (x.setVphys n v).order = x.order := rfl
@[simp] theorem slot_setVphys_shLoops (n : Nat) (v : Machine.VReg) : (x.setVphys n v).shLoops = x.shLoops := rfl
@[simp] theorem slot_setVphys_shOrder (n : Nat) (v : Machine.VReg) : (x.setVphys n v).shOrder = x.shOrder := rfl
@[simp] theorem slot_setVphys_shVrb (n : Nat) (v : Machine.VReg) : (x.setVphys n v).shVrb = x.shVrb := rfl
@[simp] theorem slot_setVphys_cnt (n : Nat) (v : Machine.VReg) : (x.setVphys n v).cnt = x.cnt := rfl
@[simp] theorem slot_setVphys_region (n : Nat) (v : Machine.VReg) : (x.setVphys n v).region = x.region := rfl
@[simp] theorem slot_setVphys_deferred (n : Nat) (v : Machine.VReg) : (x.setVphys n v).deferred = x.deferred := rfl
@[simp] theorem slot_setVphys_holds (n : Nat) (v : Machine.VReg) : (x.setVphys n v).holds = x.holds := rfl
@[simp] theorem slot_setVphys_vq (n : Nat) (v : Machine.VReg) : (x.setVphys n v).vq = x.vq := rfl
@[simp] theorem slot_setVphys_mq (n : Nat) (v : Machine.VReg) : (x.setVphys n v).mq = x.mq := rfl
@[simp] theorem slot_setVphys_pq (n : Nat) (v : Machine.VReg) : (x.setVphys n v).pq = x.pq := rfl
@[simp] theorem slot_setVphys_spin (n : Nat) (v : Machine.VReg) : (x.setVphys n v).spin = x.spin := rfl
@[simp] theorem slot_setVphys_expired (n : Nat) (v : Machine.VReg) : (x.setVphys n v).expired = x.expired := rfl
@[simp] theorem slot_setVphys_icopy (n : Nat) (v : Machine.VReg) : (x.setVphys n v).icopy = x.icopy := rfl
@[simp] theorem slot_setVphys_armed (n : Nat) (v : Machine.VReg) : (x.setVphys n v).armed = x.armed := rfl
@[simp] theorem slot_setVphys_preReq (n : Nat) (v : Machine.VReg) : (x.setVphys n v).preReq = x.preReq := rfl
@[simp] theorem slot_setVphys_rcheck (n : Nat) (v : Machine.VReg) : (x.setVphys n v).rcheck = x.rcheck := rfl
@[simp] theorem slot_setVphys_engFault (n : Nat) (v : Machine.VReg) : (x.setVphys n v).engFault = x.engFault := rfl
@[simp] theorem slot_setVphys_mPoison (n : Nat) (v : Machine.VReg) : (x.setVphys n v).mPoison = x.mPoison := rfl
@[simp] theorem slot_setVphys_pass (n : Nat) (v : Machine.VReg) : (x.setVphys n v).pass = x.pass := rfl
@[simp] theorem slot_setVphys_counted (n : Nat) (v : Machine.VReg) : (x.setVphys n v).counted = x.counted := rfl
@[simp] theorem slot_setVphys_after (n : Nat) (v : Machine.VReg) : (x.setVphys n v).after = x.after := rfl
@[simp] theorem slot_setVphys_ahead (n : Nat) (v : Machine.VReg) : (x.setVphys n v).ahead = x.ahead := rfl
@[simp] theorem slot_setVphys_freed (n : Nat) (v : Machine.VReg) : (x.setVphys n v).freed = x.freed := rfl

/-! `setM` -/

@[simp] theorem slot_setM_run (n : Nat) (v : BitVec 1024) : (x.setM n v).run = x.run := rfl
@[simp] theorem slot_setM_rid (n : Nat) (v : BitVec 1024) : (x.setM n v).rid = x.rid := rfl
@[simp] theorem slot_setM_head (n : Nat) (v : BitVec 1024) : (x.setM n v).head = x.head := rfl
@[simp] theorem slot_setM_pc (n : Nat) (v : BitVec 1024) : (x.setM n v).pc = x.pc := rfl
@[simp] theorem slot_setM_g (n : Nat) (v : BitVec 1024) : (x.setM n v).g = x.g := rfl
@[simp] theorem slot_setM_p (n : Nat) (v : BitVec 1024) : (x.setM n v).p = x.p := rfl
@[simp] theorem slot_setM_lc (n : Nat) (v : BitVec 1024) : (x.setM n v).lc = x.lc := rfl
@[simp] theorem slot_setM_v (n : Nat) (v : BitVec 1024) : (x.setM n v).v = x.v := rfl
@[simp] theorem slot_setM_acc (n : Nat) (v : BitVec 1024) : (x.setM n v).acc = x.acc := rfl
@[simp] theorem slot_setM_own (n : Nat) (v : BitVec 1024) : (x.setM n v).own = x.own := rfl
@[simp] theorem slot_setM_panels (n : Nat) (v : BitVec 1024) : (x.setM n v).panels = x.panels := rfl
@[simp] theorem slot_setM_epoch (n : Nat) (v : BitVec 1024) : (x.setM n v).epoch = x.epoch := rfl
@[simp] theorem slot_setM_csr (n : Nat) (v : BitVec 1024) : (x.setM n v).csr = x.csr := rfl
@[simp] theorem slot_setM_tkey (n : Nat) (v : BitVec 1024) : (x.setM n v).tkey = x.tkey := rfl
@[simp] theorem slot_setM_loops (n : Nat) (v : BitVec 1024) : (x.setM n v).loops = x.loops := rfl
@[simp] theorem slot_setM_order (n : Nat) (v : BitVec 1024) : (x.setM n v).order = x.order := rfl
@[simp] theorem slot_setM_shLoops (n : Nat) (v : BitVec 1024) : (x.setM n v).shLoops = x.shLoops := rfl
@[simp] theorem slot_setM_shOrder (n : Nat) (v : BitVec 1024) : (x.setM n v).shOrder = x.shOrder := rfl
@[simp] theorem slot_setM_shVrb (n : Nat) (v : BitVec 1024) : (x.setM n v).shVrb = x.shVrb := rfl
@[simp] theorem slot_setM_cnt (n : Nat) (v : BitVec 1024) : (x.setM n v).cnt = x.cnt := rfl
@[simp] theorem slot_setM_region (n : Nat) (v : BitVec 1024) : (x.setM n v).region = x.region := rfl
@[simp] theorem slot_setM_deferred (n : Nat) (v : BitVec 1024) : (x.setM n v).deferred = x.deferred := rfl
@[simp] theorem slot_setM_holds (n : Nat) (v : BitVec 1024) : (x.setM n v).holds = x.holds := rfl
@[simp] theorem slot_setM_vq (n : Nat) (v : BitVec 1024) : (x.setM n v).vq = x.vq := rfl
@[simp] theorem slot_setM_mq (n : Nat) (v : BitVec 1024) : (x.setM n v).mq = x.mq := rfl
@[simp] theorem slot_setM_pq (n : Nat) (v : BitVec 1024) : (x.setM n v).pq = x.pq := rfl
@[simp] theorem slot_setM_spin (n : Nat) (v : BitVec 1024) : (x.setM n v).spin = x.spin := rfl
@[simp] theorem slot_setM_expired (n : Nat) (v : BitVec 1024) : (x.setM n v).expired = x.expired := rfl
@[simp] theorem slot_setM_icopy (n : Nat) (v : BitVec 1024) : (x.setM n v).icopy = x.icopy := rfl
@[simp] theorem slot_setM_armed (n : Nat) (v : BitVec 1024) : (x.setM n v).armed = x.armed := rfl
@[simp] theorem slot_setM_preReq (n : Nat) (v : BitVec 1024) : (x.setM n v).preReq = x.preReq := rfl
@[simp] theorem slot_setM_rcheck (n : Nat) (v : BitVec 1024) : (x.setM n v).rcheck = x.rcheck := rfl
@[simp] theorem slot_setM_engFault (n : Nat) (v : BitVec 1024) : (x.setM n v).engFault = x.engFault := rfl
@[simp] theorem slot_setM_pass (n : Nat) (v : BitVec 1024) : (x.setM n v).pass = x.pass := rfl
@[simp] theorem slot_setM_counted (n : Nat) (v : BitVec 1024) : (x.setM n v).counted = x.counted := rfl
@[simp] theorem slot_setM_after (n : Nat) (v : BitVec 1024) : (x.setM n v).after = x.after := rfl
@[simp] theorem slot_setM_ahead (n : Nat) (v : BitVec 1024) : (x.setM n v).ahead = x.ahead := rfl
@[simp] theorem slot_setM_freed (n : Nat) (v : BitVec 1024) : (x.setM n v).freed = x.freed := rfl

/-! `orFlags` -/

@[simp] theorem slot_orFlags_run (f : BitVec 5) : (x.orFlags f).run = x.run := rfl
@[simp] theorem slot_orFlags_rid (f : BitVec 5) : (x.orFlags f).rid = x.rid := rfl
@[simp] theorem slot_orFlags_head (f : BitVec 5) : (x.orFlags f).head = x.head := rfl
@[simp] theorem slot_orFlags_pc (f : BitVec 5) : (x.orFlags f).pc = x.pc := rfl
@[simp] theorem slot_orFlags_g (f : BitVec 5) : (x.orFlags f).g = x.g := rfl
@[simp] theorem slot_orFlags_p (f : BitVec 5) : (x.orFlags f).p = x.p := rfl
@[simp] theorem slot_orFlags_lc (f : BitVec 5) : (x.orFlags f).lc = x.lc := rfl
@[simp] theorem slot_orFlags_v (f : BitVec 5) : (x.orFlags f).v = x.v := rfl
@[simp] theorem slot_orFlags_m (f : BitVec 5) : (x.orFlags f).m = x.m := rfl
@[simp] theorem slot_orFlags_acc (f : BitVec 5) : (x.orFlags f).acc = x.acc := rfl
@[simp] theorem slot_orFlags_own (f : BitVec 5) : (x.orFlags f).own = x.own := rfl
@[simp] theorem slot_orFlags_panels (f : BitVec 5) : (x.orFlags f).panels = x.panels := rfl
@[simp] theorem slot_orFlags_epoch (f : BitVec 5) : (x.orFlags f).epoch = x.epoch := rfl
@[simp] theorem slot_orFlags_tkey (f : BitVec 5) : (x.orFlags f).tkey = x.tkey := rfl
@[simp] theorem slot_orFlags_loops (f : BitVec 5) : (x.orFlags f).loops = x.loops := rfl
@[simp] theorem slot_orFlags_order (f : BitVec 5) : (x.orFlags f).order = x.order := rfl
@[simp] theorem slot_orFlags_shLoops (f : BitVec 5) : (x.orFlags f).shLoops = x.shLoops := rfl
@[simp] theorem slot_orFlags_shOrder (f : BitVec 5) : (x.orFlags f).shOrder = x.shOrder := rfl
@[simp] theorem slot_orFlags_shVrb (f : BitVec 5) : (x.orFlags f).shVrb = x.shVrb := rfl
@[simp] theorem slot_orFlags_cnt (f : BitVec 5) : (x.orFlags f).cnt = x.cnt := rfl
@[simp] theorem slot_orFlags_region (f : BitVec 5) : (x.orFlags f).region = x.region := rfl
@[simp] theorem slot_orFlags_deferred (f : BitVec 5) : (x.orFlags f).deferred = x.deferred := rfl
@[simp] theorem slot_orFlags_holds (f : BitVec 5) : (x.orFlags f).holds = x.holds := rfl
@[simp] theorem slot_orFlags_vq (f : BitVec 5) : (x.orFlags f).vq = x.vq := rfl
@[simp] theorem slot_orFlags_mq (f : BitVec 5) : (x.orFlags f).mq = x.mq := rfl
@[simp] theorem slot_orFlags_pq (f : BitVec 5) : (x.orFlags f).pq = x.pq := rfl
@[simp] theorem slot_orFlags_spin (f : BitVec 5) : (x.orFlags f).spin = x.spin := rfl
@[simp] theorem slot_orFlags_expired (f : BitVec 5) : (x.orFlags f).expired = x.expired := rfl
@[simp] theorem slot_orFlags_icopy (f : BitVec 5) : (x.orFlags f).icopy = x.icopy := rfl
@[simp] theorem slot_orFlags_armed (f : BitVec 5) : (x.orFlags f).armed = x.armed := rfl
@[simp] theorem slot_orFlags_preReq (f : BitVec 5) : (x.orFlags f).preReq = x.preReq := rfl
@[simp] theorem slot_orFlags_rcheck (f : BitVec 5) : (x.orFlags f).rcheck = x.rcheck := rfl
@[simp] theorem slot_orFlags_engFault (f : BitVec 5) : (x.orFlags f).engFault = x.engFault := rfl
@[simp] theorem slot_orFlags_mPoison (f : BitVec 5) : (x.orFlags f).mPoison = x.mPoison := rfl
@[simp] theorem slot_orFlags_pass (f : BitVec 5) : (x.orFlags f).pass = x.pass := rfl
@[simp] theorem slot_orFlags_counted (f : BitVec 5) : (x.orFlags f).counted = x.counted := rfl
@[simp] theorem slot_orFlags_after (f : BitVec 5) : (x.orFlags f).after = x.after := rfl
@[simp] theorem slot_orFlags_ahead (f : BitVec 5) : (x.orFlags f).ahead = x.ahead := rfl
@[simp] theorem slot_orFlags_freed (f : BitVec 5) : (x.orFlags f).freed = x.freed := rfl

/-! `updCtr` -/

@[simp] theorem slot_updCtr_run (c : Ctr) (f : BitVec 6 → BitVec 6) : (x.updCtr c f).run = x.run := rfl
@[simp] theorem slot_updCtr_rid (c : Ctr) (f : BitVec 6 → BitVec 6) : (x.updCtr c f).rid = x.rid := rfl
@[simp] theorem slot_updCtr_head (c : Ctr) (f : BitVec 6 → BitVec 6) : (x.updCtr c f).head = x.head := rfl
@[simp] theorem slot_updCtr_pc (c : Ctr) (f : BitVec 6 → BitVec 6) : (x.updCtr c f).pc = x.pc := rfl
@[simp] theorem slot_updCtr_g (c : Ctr) (f : BitVec 6 → BitVec 6) : (x.updCtr c f).g = x.g := rfl
@[simp] theorem slot_updCtr_p (c : Ctr) (f : BitVec 6 → BitVec 6) : (x.updCtr c f).p = x.p := rfl
@[simp] theorem slot_updCtr_lc (c : Ctr) (f : BitVec 6 → BitVec 6) : (x.updCtr c f).lc = x.lc := rfl
@[simp] theorem slot_updCtr_v (c : Ctr) (f : BitVec 6 → BitVec 6) : (x.updCtr c f).v = x.v := rfl
@[simp] theorem slot_updCtr_m (c : Ctr) (f : BitVec 6 → BitVec 6) : (x.updCtr c f).m = x.m := rfl
@[simp] theorem slot_updCtr_acc (c : Ctr) (f : BitVec 6 → BitVec 6) : (x.updCtr c f).acc = x.acc := rfl
@[simp] theorem slot_updCtr_own (c : Ctr) (f : BitVec 6 → BitVec 6) : (x.updCtr c f).own = x.own := rfl
@[simp] theorem slot_updCtr_panels (c : Ctr) (f : BitVec 6 → BitVec 6) : (x.updCtr c f).panels = x.panels := rfl
@[simp] theorem slot_updCtr_epoch (c : Ctr) (f : BitVec 6 → BitVec 6) : (x.updCtr c f).epoch = x.epoch := rfl
@[simp] theorem slot_updCtr_csr (c : Ctr) (f : BitVec 6 → BitVec 6) : (x.updCtr c f).csr = x.csr := rfl
@[simp] theorem slot_updCtr_tkey (c : Ctr) (f : BitVec 6 → BitVec 6) : (x.updCtr c f).tkey = x.tkey := rfl
@[simp] theorem slot_updCtr_loops (c : Ctr) (f : BitVec 6 → BitVec 6) : (x.updCtr c f).loops = x.loops := rfl
@[simp] theorem slot_updCtr_order (c : Ctr) (f : BitVec 6 → BitVec 6) : (x.updCtr c f).order = x.order := rfl
@[simp] theorem slot_updCtr_shLoops (c : Ctr) (f : BitVec 6 → BitVec 6) : (x.updCtr c f).shLoops = x.shLoops := rfl
@[simp] theorem slot_updCtr_shOrder (c : Ctr) (f : BitVec 6 → BitVec 6) : (x.updCtr c f).shOrder = x.shOrder := rfl
@[simp] theorem slot_updCtr_shVrb (c : Ctr) (f : BitVec 6 → BitVec 6) : (x.updCtr c f).shVrb = x.shVrb := rfl
@[simp] theorem slot_updCtr_region (c : Ctr) (f : BitVec 6 → BitVec 6) : (x.updCtr c f).region = x.region := rfl
@[simp] theorem slot_updCtr_deferred (c : Ctr) (f : BitVec 6 → BitVec 6) : (x.updCtr c f).deferred = x.deferred := rfl
@[simp] theorem slot_updCtr_holds (c : Ctr) (f : BitVec 6 → BitVec 6) : (x.updCtr c f).holds = x.holds := rfl
@[simp] theorem slot_updCtr_vq (c : Ctr) (f : BitVec 6 → BitVec 6) : (x.updCtr c f).vq = x.vq := rfl
@[simp] theorem slot_updCtr_mq (c : Ctr) (f : BitVec 6 → BitVec 6) : (x.updCtr c f).mq = x.mq := rfl
@[simp] theorem slot_updCtr_pq (c : Ctr) (f : BitVec 6 → BitVec 6) : (x.updCtr c f).pq = x.pq := rfl
@[simp] theorem slot_updCtr_spin (c : Ctr) (f : BitVec 6 → BitVec 6) : (x.updCtr c f).spin = x.spin := rfl
@[simp] theorem slot_updCtr_expired (c : Ctr) (f : BitVec 6 → BitVec 6) : (x.updCtr c f).expired = x.expired := rfl
@[simp] theorem slot_updCtr_icopy (c : Ctr) (f : BitVec 6 → BitVec 6) : (x.updCtr c f).icopy = x.icopy := rfl
@[simp] theorem slot_updCtr_armed (c : Ctr) (f : BitVec 6 → BitVec 6) : (x.updCtr c f).armed = x.armed := rfl
@[simp] theorem slot_updCtr_preReq (c : Ctr) (f : BitVec 6 → BitVec 6) : (x.updCtr c f).preReq = x.preReq := rfl
@[simp] theorem slot_updCtr_rcheck (c : Ctr) (f : BitVec 6 → BitVec 6) : (x.updCtr c f).rcheck = x.rcheck := rfl
@[simp] theorem slot_updCtr_engFault (c : Ctr) (f : BitVec 6 → BitVec 6) : (x.updCtr c f).engFault = x.engFault := rfl
@[simp] theorem slot_updCtr_mPoison (c : Ctr) (f : BitVec 6 → BitVec 6) : (x.updCtr c f).mPoison = x.mPoison := rfl
@[simp] theorem slot_updCtr_pass (c : Ctr) (f : BitVec 6 → BitVec 6) : (x.updCtr c f).pass = x.pass := rfl
@[simp] theorem slot_updCtr_counted (c : Ctr) (f : BitVec 6 → BitVec 6) : (x.updCtr c f).counted = x.counted := rfl
@[simp] theorem slot_updCtr_after (c : Ctr) (f : BitVec 6 → BitVec 6) : (x.updCtr c f).after = x.after := rfl
@[simp] theorem slot_updCtr_ahead (c : Ctr) (f : BitVec 6 → BitVec 6) : (x.updCtr c f).ahead = x.ahead := rfl
@[simp] theorem slot_updCtr_freed (c : Ctr) (f : BitVec 6 → BitVec 6) : (x.updCtr c f).freed = x.freed := rfl

/-! `setLevel` -/

@[simp] theorem slot_setLevel_run (k : Nat) (l : Level) : (x.setLevel k l).run = x.run := rfl
@[simp] theorem slot_setLevel_rid (k : Nat) (l : Level) : (x.setLevel k l).rid = x.rid := rfl
@[simp] theorem slot_setLevel_head (k : Nat) (l : Level) : (x.setLevel k l).head = x.head := rfl
@[simp] theorem slot_setLevel_pc (k : Nat) (l : Level) : (x.setLevel k l).pc = x.pc := rfl
@[simp] theorem slot_setLevel_g (k : Nat) (l : Level) : (x.setLevel k l).g = x.g := rfl
@[simp] theorem slot_setLevel_p (k : Nat) (l : Level) : (x.setLevel k l).p = x.p := rfl
@[simp] theorem slot_setLevel_lc (k : Nat) (l : Level) : (x.setLevel k l).lc = x.lc := rfl
@[simp] theorem slot_setLevel_v (k : Nat) (l : Level) : (x.setLevel k l).v = x.v := rfl
@[simp] theorem slot_setLevel_m (k : Nat) (l : Level) : (x.setLevel k l).m = x.m := rfl
@[simp] theorem slot_setLevel_acc (k : Nat) (l : Level) : (x.setLevel k l).acc = x.acc := rfl
@[simp] theorem slot_setLevel_own (k : Nat) (l : Level) : (x.setLevel k l).own = x.own := rfl
@[simp] theorem slot_setLevel_panels (k : Nat) (l : Level) : (x.setLevel k l).panels = x.panels := rfl
@[simp] theorem slot_setLevel_epoch (k : Nat) (l : Level) : (x.setLevel k l).epoch = x.epoch := rfl
@[simp] theorem slot_setLevel_csr (k : Nat) (l : Level) : (x.setLevel k l).csr = x.csr := rfl
@[simp] theorem slot_setLevel_tkey (k : Nat) (l : Level) : (x.setLevel k l).tkey = x.tkey := rfl
@[simp] theorem slot_setLevel_order (k : Nat) (l : Level) : (x.setLevel k l).order = x.order := rfl
@[simp] theorem slot_setLevel_shLoops (k : Nat) (l : Level) : (x.setLevel k l).shLoops = x.shLoops := rfl
@[simp] theorem slot_setLevel_shOrder (k : Nat) (l : Level) : (x.setLevel k l).shOrder = x.shOrder := rfl
@[simp] theorem slot_setLevel_shVrb (k : Nat) (l : Level) : (x.setLevel k l).shVrb = x.shVrb := rfl
@[simp] theorem slot_setLevel_cnt (k : Nat) (l : Level) : (x.setLevel k l).cnt = x.cnt := rfl
@[simp] theorem slot_setLevel_region (k : Nat) (l : Level) : (x.setLevel k l).region = x.region := rfl
@[simp] theorem slot_setLevel_deferred (k : Nat) (l : Level) : (x.setLevel k l).deferred = x.deferred := rfl
@[simp] theorem slot_setLevel_holds (k : Nat) (l : Level) : (x.setLevel k l).holds = x.holds := rfl
@[simp] theorem slot_setLevel_vq (k : Nat) (l : Level) : (x.setLevel k l).vq = x.vq := rfl
@[simp] theorem slot_setLevel_mq (k : Nat) (l : Level) : (x.setLevel k l).mq = x.mq := rfl
@[simp] theorem slot_setLevel_pq (k : Nat) (l : Level) : (x.setLevel k l).pq = x.pq := rfl
@[simp] theorem slot_setLevel_spin (k : Nat) (l : Level) : (x.setLevel k l).spin = x.spin := rfl
@[simp] theorem slot_setLevel_expired (k : Nat) (l : Level) : (x.setLevel k l).expired = x.expired := rfl
@[simp] theorem slot_setLevel_icopy (k : Nat) (l : Level) : (x.setLevel k l).icopy = x.icopy := rfl
@[simp] theorem slot_setLevel_armed (k : Nat) (l : Level) : (x.setLevel k l).armed = x.armed := rfl
@[simp] theorem slot_setLevel_preReq (k : Nat) (l : Level) : (x.setLevel k l).preReq = x.preReq := rfl
@[simp] theorem slot_setLevel_rcheck (k : Nat) (l : Level) : (x.setLevel k l).rcheck = x.rcheck := rfl
@[simp] theorem slot_setLevel_engFault (k : Nat) (l : Level) : (x.setLevel k l).engFault = x.engFault := rfl
@[simp] theorem slot_setLevel_mPoison (k : Nat) (l : Level) : (x.setLevel k l).mPoison = x.mPoison := rfl
@[simp] theorem slot_setLevel_pass (k : Nat) (l : Level) : (x.setLevel k l).pass = x.pass := rfl
@[simp] theorem slot_setLevel_counted (k : Nat) (l : Level) : (x.setLevel k l).counted = x.counted := rfl
@[simp] theorem slot_setLevel_after (k : Nat) (l : Level) : (x.setLevel k l).after = x.after := rfl
@[simp] theorem slot_setLevel_ahead (k : Nat) (l : Level) : (x.setLevel k l).ahead = x.ahead := rfl
@[simp] theorem slot_setLevel_freed (k : Nat) (l : Level) : (x.setLevel k l).freed = x.freed := rfl

/-! `closeLevel` -/

@[simp] theorem slot_closeLevel_run (k : Nat) : (x.closeLevel k).run = x.run := rfl
@[simp] theorem slot_closeLevel_rid (k : Nat) : (x.closeLevel k).rid = x.rid := rfl
@[simp] theorem slot_closeLevel_head (k : Nat) : (x.closeLevel k).head = x.head := rfl
@[simp] theorem slot_closeLevel_pc (k : Nat) : (x.closeLevel k).pc = x.pc := rfl
@[simp] theorem slot_closeLevel_g (k : Nat) : (x.closeLevel k).g = x.g := rfl
@[simp] theorem slot_closeLevel_p (k : Nat) : (x.closeLevel k).p = x.p := rfl
@[simp] theorem slot_closeLevel_lc (k : Nat) : (x.closeLevel k).lc = x.lc := rfl
@[simp] theorem slot_closeLevel_v (k : Nat) : (x.closeLevel k).v = x.v := rfl
@[simp] theorem slot_closeLevel_m (k : Nat) : (x.closeLevel k).m = x.m := rfl
@[simp] theorem slot_closeLevel_acc (k : Nat) : (x.closeLevel k).acc = x.acc := rfl
@[simp] theorem slot_closeLevel_own (k : Nat) : (x.closeLevel k).own = x.own := rfl
@[simp] theorem slot_closeLevel_panels (k : Nat) : (x.closeLevel k).panels = x.panels := rfl
@[simp] theorem slot_closeLevel_epoch (k : Nat) : (x.closeLevel k).epoch = x.epoch := rfl
@[simp] theorem slot_closeLevel_csr (k : Nat) : (x.closeLevel k).csr = x.csr := rfl
@[simp] theorem slot_closeLevel_tkey (k : Nat) : (x.closeLevel k).tkey = x.tkey := rfl
@[simp] theorem slot_closeLevel_shLoops (k : Nat) : (x.closeLevel k).shLoops = x.shLoops := rfl
@[simp] theorem slot_closeLevel_shOrder (k : Nat) : (x.closeLevel k).shOrder = x.shOrder := rfl
@[simp] theorem slot_closeLevel_shVrb (k : Nat) : (x.closeLevel k).shVrb = x.shVrb := rfl
@[simp] theorem slot_closeLevel_cnt (k : Nat) : (x.closeLevel k).cnt = x.cnt := rfl
@[simp] theorem slot_closeLevel_region (k : Nat) : (x.closeLevel k).region = x.region := rfl
@[simp] theorem slot_closeLevel_deferred (k : Nat) : (x.closeLevel k).deferred = x.deferred := rfl
@[simp] theorem slot_closeLevel_holds (k : Nat) : (x.closeLevel k).holds = x.holds := rfl
@[simp] theorem slot_closeLevel_vq (k : Nat) : (x.closeLevel k).vq = x.vq := rfl
@[simp] theorem slot_closeLevel_mq (k : Nat) : (x.closeLevel k).mq = x.mq := rfl
@[simp] theorem slot_closeLevel_pq (k : Nat) : (x.closeLevel k).pq = x.pq := rfl
@[simp] theorem slot_closeLevel_spin (k : Nat) : (x.closeLevel k).spin = x.spin := rfl
@[simp] theorem slot_closeLevel_expired (k : Nat) : (x.closeLevel k).expired = x.expired := rfl
@[simp] theorem slot_closeLevel_icopy (k : Nat) : (x.closeLevel k).icopy = x.icopy := rfl
@[simp] theorem slot_closeLevel_armed (k : Nat) : (x.closeLevel k).armed = x.armed := rfl
@[simp] theorem slot_closeLevel_preReq (k : Nat) : (x.closeLevel k).preReq = x.preReq := rfl
@[simp] theorem slot_closeLevel_rcheck (k : Nat) : (x.closeLevel k).rcheck = x.rcheck := rfl
@[simp] theorem slot_closeLevel_engFault (k : Nat) : (x.closeLevel k).engFault = x.engFault := rfl
@[simp] theorem slot_closeLevel_mPoison (k : Nat) : (x.closeLevel k).mPoison = x.mPoison := rfl
@[simp] theorem slot_closeLevel_pass (k : Nat) : (x.closeLevel k).pass = x.pass := rfl
@[simp] theorem slot_closeLevel_counted (k : Nat) : (x.closeLevel k).counted = x.counted := rfl
@[simp] theorem slot_closeLevel_after (k : Nat) : (x.closeLevel k).after = x.after := rfl
@[simp] theorem slot_closeLevel_ahead (k : Nat) : (x.closeLevel k).ahead = x.ahead := rfl
@[simp] theorem slot_closeLevel_freed (k : Nat) : (x.closeLevel k).freed = x.freed := rfl

/-! `ended` -/

@[simp] theorem slot_ended_run : (x.ended).run = x.run := rfl
@[simp] theorem slot_ended_rid : (x.ended).rid = x.rid := rfl
@[simp] theorem slot_ended_head : (x.ended).head = x.head := rfl
@[simp] theorem slot_ended_g : (x.ended).g = x.g := rfl
@[simp] theorem slot_ended_p : (x.ended).p = x.p := rfl
@[simp] theorem slot_ended_lc : (x.ended).lc = x.lc := rfl
@[simp] theorem slot_ended_v : (x.ended).v = x.v := rfl
@[simp] theorem slot_ended_m : (x.ended).m = x.m := rfl
@[simp] theorem slot_ended_acc : (x.ended).acc = x.acc := rfl
@[simp] theorem slot_ended_own : (x.ended).own = x.own := rfl
@[simp] theorem slot_ended_panels : (x.ended).panels = x.panels := rfl
@[simp] theorem slot_ended_epoch : (x.ended).epoch = x.epoch := rfl
@[simp] theorem slot_ended_tkey : (x.ended).tkey = x.tkey := rfl
@[simp] theorem slot_ended_loops : (x.ended).loops = x.loops := rfl
@[simp] theorem slot_ended_order : (x.ended).order = x.order := rfl
@[simp] theorem slot_ended_shLoops : (x.ended).shLoops = x.shLoops := rfl
@[simp] theorem slot_ended_shOrder : (x.ended).shOrder = x.shOrder := rfl
@[simp] theorem slot_ended_shVrb : (x.ended).shVrb = x.shVrb := rfl
@[simp] theorem slot_ended_cnt : (x.ended).cnt = x.cnt := rfl
@[simp] theorem slot_ended_region : (x.ended).region = x.region := rfl
@[simp] theorem slot_ended_deferred : (x.ended).deferred = x.deferred := rfl
@[simp] theorem slot_ended_holds : (x.ended).holds = x.holds := rfl
@[simp] theorem slot_ended_vq : (x.ended).vq = x.vq := rfl
@[simp] theorem slot_ended_mq : (x.ended).mq = x.mq := rfl
@[simp] theorem slot_ended_pq : (x.ended).pq = x.pq := rfl
@[simp] theorem slot_ended_icopy : (x.ended).icopy = x.icopy := rfl
@[simp] theorem slot_ended_armed : (x.ended).armed = x.armed := rfl
@[simp] theorem slot_ended_preReq : (x.ended).preReq = x.preReq := rfl
@[simp] theorem slot_ended_rcheck : (x.ended).rcheck = x.rcheck := rfl
@[simp] theorem slot_ended_engFault : (x.ended).engFault = x.engFault := rfl
@[simp] theorem slot_ended_mPoison : (x.ended).mPoison = x.mPoison := rfl
@[simp] theorem slot_ended_ahead : (x.ended).ahead = x.ahead := rfl
@[simp] theorem slot_ended_freed : (x.ended).freed = x.freed := rfl
@[simp] theorem slot_ended_after : (x.ended).after = none := rfl

/-! `setG` -/

@[simp] theorem slot_setG_run (n : Nat) (v : Word) : (x.setG n v).run = x.run := by unfold Slot.setG; split <;> rfl
@[simp] theorem slot_setG_rid (n : Nat) (v : Word) : (x.setG n v).rid = x.rid := by unfold Slot.setG; split <;> rfl
@[simp] theorem slot_setG_head (n : Nat) (v : Word) : (x.setG n v).head = x.head := by unfold Slot.setG; split <;> rfl
@[simp] theorem slot_setG_pc (n : Nat) (v : Word) : (x.setG n v).pc = x.pc := by unfold Slot.setG; split <;> rfl
@[simp] theorem slot_setG_p (n : Nat) (v : Word) : (x.setG n v).p = x.p := by unfold Slot.setG; split <;> rfl
@[simp] theorem slot_setG_lc (n : Nat) (v : Word) : (x.setG n v).lc = x.lc := by unfold Slot.setG; split <;> rfl
@[simp] theorem slot_setG_v (n : Nat) (v : Word) : (x.setG n v).v = x.v := by unfold Slot.setG; split <;> rfl
@[simp] theorem slot_setG_m (n : Nat) (v : Word) : (x.setG n v).m = x.m := by unfold Slot.setG; split <;> rfl
@[simp] theorem slot_setG_acc (n : Nat) (v : Word) : (x.setG n v).acc = x.acc := by unfold Slot.setG; split <;> rfl
@[simp] theorem slot_setG_own (n : Nat) (v : Word) : (x.setG n v).own = x.own := by unfold Slot.setG; split <;> rfl
@[simp] theorem slot_setG_panels (n : Nat) (v : Word) : (x.setG n v).panels = x.panels := by unfold Slot.setG; split <;> rfl
@[simp] theorem slot_setG_epoch (n : Nat) (v : Word) : (x.setG n v).epoch = x.epoch := by unfold Slot.setG; split <;> rfl
@[simp] theorem slot_setG_csr (n : Nat) (v : Word) : (x.setG n v).csr = x.csr := by unfold Slot.setG; split <;> rfl
@[simp] theorem slot_setG_tkey (n : Nat) (v : Word) : (x.setG n v).tkey = x.tkey := by unfold Slot.setG; split <;> rfl
@[simp] theorem slot_setG_loops (n : Nat) (v : Word) : (x.setG n v).loops = x.loops := by unfold Slot.setG; split <;> rfl
@[simp] theorem slot_setG_order (n : Nat) (v : Word) : (x.setG n v).order = x.order := by unfold Slot.setG; split <;> rfl
@[simp] theorem slot_setG_shLoops (n : Nat) (v : Word) : (x.setG n v).shLoops = x.shLoops := by unfold Slot.setG; split <;> rfl
@[simp] theorem slot_setG_shOrder (n : Nat) (v : Word) : (x.setG n v).shOrder = x.shOrder := by unfold Slot.setG; split <;> rfl
@[simp] theorem slot_setG_shVrb (n : Nat) (v : Word) : (x.setG n v).shVrb = x.shVrb := by unfold Slot.setG; split <;> rfl
@[simp] theorem slot_setG_cnt (n : Nat) (v : Word) : (x.setG n v).cnt = x.cnt := by unfold Slot.setG; split <;> rfl
@[simp] theorem slot_setG_region (n : Nat) (v : Word) : (x.setG n v).region = x.region := by unfold Slot.setG; split <;> rfl
@[simp] theorem slot_setG_deferred (n : Nat) (v : Word) : (x.setG n v).deferred = x.deferred := by unfold Slot.setG; split <;> rfl
@[simp] theorem slot_setG_holds (n : Nat) (v : Word) : (x.setG n v).holds = x.holds := by unfold Slot.setG; split <;> rfl
@[simp] theorem slot_setG_vq (n : Nat) (v : Word) : (x.setG n v).vq = x.vq := by unfold Slot.setG; split <;> rfl
@[simp] theorem slot_setG_mq (n : Nat) (v : Word) : (x.setG n v).mq = x.mq := by unfold Slot.setG; split <;> rfl
@[simp] theorem slot_setG_pq (n : Nat) (v : Word) : (x.setG n v).pq = x.pq := by unfold Slot.setG; split <;> rfl
@[simp] theorem slot_setG_spin (n : Nat) (v : Word) : (x.setG n v).spin = x.spin := by unfold Slot.setG; split <;> rfl
@[simp] theorem slot_setG_expired (n : Nat) (v : Word) : (x.setG n v).expired = x.expired := by unfold Slot.setG; split <;> rfl
@[simp] theorem slot_setG_icopy (n : Nat) (v : Word) : (x.setG n v).icopy = x.icopy := by unfold Slot.setG; split <;> rfl
@[simp] theorem slot_setG_armed (n : Nat) (v : Word) : (x.setG n v).armed = x.armed := by unfold Slot.setG; split <;> rfl
@[simp] theorem slot_setG_preReq (n : Nat) (v : Word) : (x.setG n v).preReq = x.preReq := by unfold Slot.setG; split <;> rfl
@[simp] theorem slot_setG_rcheck (n : Nat) (v : Word) : (x.setG n v).rcheck = x.rcheck := by unfold Slot.setG; split <;> rfl
@[simp] theorem slot_setG_engFault (n : Nat) (v : Word) : (x.setG n v).engFault = x.engFault := by unfold Slot.setG; split <;> rfl
@[simp] theorem slot_setG_mPoison (n : Nat) (v : Word) : (x.setG n v).mPoison = x.mPoison := by unfold Slot.setG; split <;> rfl
@[simp] theorem slot_setG_pass (n : Nat) (v : Word) : (x.setG n v).pass = x.pass := by unfold Slot.setG; split <;> rfl
@[simp] theorem slot_setG_counted (n : Nat) (v : Word) : (x.setG n v).counted = x.counted := by unfold Slot.setG; split <;> rfl
@[simp] theorem slot_setG_after (n : Nat) (v : Word) : (x.setG n v).after = x.after := by unfold Slot.setG; split <;> rfl
@[simp] theorem slot_setG_ahead (n : Nat) (v : Word) : (x.setG n v).ahead = x.ahead := by unfold Slot.setG; split <;> rfl
@[simp] theorem slot_setG_freed (n : Nat) (v : Word) : (x.setG n v).freed = x.freed := by unfold Slot.setG; split <;> rfl

/-! `setP` -/

@[simp] theorem slot_setP_run (n : Nat) (b : Bool) : (x.setP n b).run = x.run := by unfold Slot.setP; split <;> rfl
@[simp] theorem slot_setP_rid (n : Nat) (b : Bool) : (x.setP n b).rid = x.rid := by unfold Slot.setP; split <;> rfl
@[simp] theorem slot_setP_head (n : Nat) (b : Bool) : (x.setP n b).head = x.head := by unfold Slot.setP; split <;> rfl
@[simp] theorem slot_setP_pc (n : Nat) (b : Bool) : (x.setP n b).pc = x.pc := by unfold Slot.setP; split <;> rfl
@[simp] theorem slot_setP_g (n : Nat) (b : Bool) : (x.setP n b).g = x.g := by unfold Slot.setP; split <;> rfl
@[simp] theorem slot_setP_lc (n : Nat) (b : Bool) : (x.setP n b).lc = x.lc := by unfold Slot.setP; split <;> rfl
@[simp] theorem slot_setP_v (n : Nat) (b : Bool) : (x.setP n b).v = x.v := by unfold Slot.setP; split <;> rfl
@[simp] theorem slot_setP_m (n : Nat) (b : Bool) : (x.setP n b).m = x.m := by unfold Slot.setP; split <;> rfl
@[simp] theorem slot_setP_acc (n : Nat) (b : Bool) : (x.setP n b).acc = x.acc := by unfold Slot.setP; split <;> rfl
@[simp] theorem slot_setP_own (n : Nat) (b : Bool) : (x.setP n b).own = x.own := by unfold Slot.setP; split <;> rfl
@[simp] theorem slot_setP_panels (n : Nat) (b : Bool) : (x.setP n b).panels = x.panels := by unfold Slot.setP; split <;> rfl
@[simp] theorem slot_setP_epoch (n : Nat) (b : Bool) : (x.setP n b).epoch = x.epoch := by unfold Slot.setP; split <;> rfl
@[simp] theorem slot_setP_csr (n : Nat) (b : Bool) : (x.setP n b).csr = x.csr := by unfold Slot.setP; split <;> rfl
@[simp] theorem slot_setP_tkey (n : Nat) (b : Bool) : (x.setP n b).tkey = x.tkey := by unfold Slot.setP; split <;> rfl
@[simp] theorem slot_setP_loops (n : Nat) (b : Bool) : (x.setP n b).loops = x.loops := by unfold Slot.setP; split <;> rfl
@[simp] theorem slot_setP_order (n : Nat) (b : Bool) : (x.setP n b).order = x.order := by unfold Slot.setP; split <;> rfl
@[simp] theorem slot_setP_shLoops (n : Nat) (b : Bool) : (x.setP n b).shLoops = x.shLoops := by unfold Slot.setP; split <;> rfl
@[simp] theorem slot_setP_shOrder (n : Nat) (b : Bool) : (x.setP n b).shOrder = x.shOrder := by unfold Slot.setP; split <;> rfl
@[simp] theorem slot_setP_shVrb (n : Nat) (b : Bool) : (x.setP n b).shVrb = x.shVrb := by unfold Slot.setP; split <;> rfl
@[simp] theorem slot_setP_cnt (n : Nat) (b : Bool) : (x.setP n b).cnt = x.cnt := by unfold Slot.setP; split <;> rfl
@[simp] theorem slot_setP_region (n : Nat) (b : Bool) : (x.setP n b).region = x.region := by unfold Slot.setP; split <;> rfl
@[simp] theorem slot_setP_deferred (n : Nat) (b : Bool) : (x.setP n b).deferred = x.deferred := by unfold Slot.setP; split <;> rfl
@[simp] theorem slot_setP_holds (n : Nat) (b : Bool) : (x.setP n b).holds = x.holds := by unfold Slot.setP; split <;> rfl
@[simp] theorem slot_setP_vq (n : Nat) (b : Bool) : (x.setP n b).vq = x.vq := by unfold Slot.setP; split <;> rfl
@[simp] theorem slot_setP_mq (n : Nat) (b : Bool) : (x.setP n b).mq = x.mq := by unfold Slot.setP; split <;> rfl
@[simp] theorem slot_setP_pq (n : Nat) (b : Bool) : (x.setP n b).pq = x.pq := by unfold Slot.setP; split <;> rfl
@[simp] theorem slot_setP_spin (n : Nat) (b : Bool) : (x.setP n b).spin = x.spin := by unfold Slot.setP; split <;> rfl
@[simp] theorem slot_setP_expired (n : Nat) (b : Bool) : (x.setP n b).expired = x.expired := by unfold Slot.setP; split <;> rfl
@[simp] theorem slot_setP_icopy (n : Nat) (b : Bool) : (x.setP n b).icopy = x.icopy := by unfold Slot.setP; split <;> rfl
@[simp] theorem slot_setP_armed (n : Nat) (b : Bool) : (x.setP n b).armed = x.armed := by unfold Slot.setP; split <;> rfl
@[simp] theorem slot_setP_preReq (n : Nat) (b : Bool) : (x.setP n b).preReq = x.preReq := by unfold Slot.setP; split <;> rfl
@[simp] theorem slot_setP_rcheck (n : Nat) (b : Bool) : (x.setP n b).rcheck = x.rcheck := by unfold Slot.setP; split <;> rfl
@[simp] theorem slot_setP_engFault (n : Nat) (b : Bool) : (x.setP n b).engFault = x.engFault := by unfold Slot.setP; split <;> rfl
@[simp] theorem slot_setP_mPoison (n : Nat) (b : Bool) : (x.setP n b).mPoison = x.mPoison := by unfold Slot.setP; split <;> rfl
@[simp] theorem slot_setP_pass (n : Nat) (b : Bool) : (x.setP n b).pass = x.pass := by unfold Slot.setP; split <;> rfl
@[simp] theorem slot_setP_counted (n : Nat) (b : Bool) : (x.setP n b).counted = x.counted := by unfold Slot.setP; split <;> rfl
@[simp] theorem slot_setP_after (n : Nat) (b : Bool) : (x.setP n b).after = x.after := by unfold Slot.setP; split <;> rfl
@[simp] theorem slot_setP_ahead (n : Nat) (b : Bool) : (x.setP n b).ahead = x.ahead := by unfold Slot.setP; split <;> rfl
@[simp] theorem slot_setP_freed (n : Nat) (b : Bool) : (x.setP n b).freed = x.freed := by unfold Slot.setP; split <;> rfl

end Slot

end Sys2Proof.Laws
end

