-- ==== Sys2Proof/Laws/Retire.lean ====
section
/-! SUPPORT. The slots of a state under updates, and what retirement and a transfer of control do (R141, R143). -/

namespace Sys2Proof.Laws

open Sys2Proof.Machine

variable (s : State)

@[simp] theorem slotAt_setSlot (n : Nat) (x : Slot) : (s.setSlot n x).slotAt n = x := by
  simp [State.setSlot, State.slotAt]
theorem slotAt_setSlot_other (n m : Nat) (x : Slot) (h : m ≠ n) : (s.setSlot n x).slotAt m = s.slotAt m := by
  simp [State.setSlot, State.slotAt, get_set_other _ _ _ _ _ h]
@[simp] theorem slot_setSlot (x : Slot) : (s.setSlot s.cur x).slot = x := slotAt_setSlot s s.cur x
@[simp] theorem setSlot_setSlot (n : Nat) (x y : Slot) : (s.setSlot n x).setSlot n y = s.setSlot n y := by
  simp [State.setSlot]
@[simp] theorem slot_upd (f : Slot → Slot) : (s.upd f).slot = f s.slot := slotAt_setSlot s s.cur _
theorem slotAt_upd_other (f : Slot → Slot) (n : Nat) (h : n ≠ s.cur) : (s.upd f).slotAt n = s.slotAt n :=
  slotAt_setSlot_other s _ _ _ h

/-- Two changes of the issuing slot are one. -/
theorem upd_upd (f g : Slot → Slot) : (s.upd f).upd g = s.upd (fun t => g (f t)) := by
  show ((s.setSlot s.cur (f s.slot)).setSlot s.cur (g ((s.upd f).slot))) = _
  rw [slot_upd, setSlot_setSlot]; rfl

@[simp] theorem slot_after (f : Slot → Slot) : (s.after f).slot = (f s.slot).ended := slot_setSlot s _
theorem slotAt_after_other (f : Slot → Slot) (n : Nat) (h : n ≠ s.cur) : (s.after f).slotAt n = s.slotAt n :=
  slotAt_setSlot_other s _ _ _ h
theorem upd_eq (f : Slot → Slot) : s.upd f = s.setSlot s.cur (f s.slot) := rfl

/-! ### Retirement -/

/-- No level of a list ends here: the iteration step does nothing. -/
theorem iterate_none (pc : Word) (l : List Nat)
    (h : ∀ k ∈ l, ¬((s.slot.level k).act = true ∧ (s.slot.level k).stop = pc)) :
    State.iterate pc l s = (none, s) := by
  induction l with
  | nil => rfl
  | cons k t ih =>
    have hk := h k (by simp)
    unfold State.iterate
    have : (!(s.slot.level k).act || (s.slot.level k).stop != pc) = true := by
      cases ha : (s.slot.level k).act
      · rfl
      · have : (s.slot.level k).stop ≠ pc := fun e => hk ⟨ha, e⟩
        simp [this]
    simp only [this, if_true]
    exact ih (fun k hk => h k (by simp [hk]))

theorem straight_iff : s.straight = true ↔
    ∀ k ∈ s.slot.order, ¬((s.slot.level k).act = true ∧ (s.slot.level k).stop = s.slot.pc) := by
  simp only [State.straight, State.pc, List.all_eq_true, Bool.not_eq_true', Bool.and_eq_false_iff, beq_eq_false_iff_ne]
  constructor
  · intro h k hk ⟨ha, he⟩
    rcases h k hk with h | h
    · rw [ha] at h; cases h
    · exact h he
  · intro h k hk
    by_cases ha : (s.slot.level k).act = true
    · exact .inr (fun e => h k hk ⟨ha, e⟩)
    · exact .inl (by simpa using ha)

/-- The slot of `countIns`. -/
def countSlot (x : Slot) : Slot :=
  { x with csr := { x.csr with ins := x.csr.ins + 1 }, spin := none, expired := false, pass := false, counted := false
           after := none }

theorem countIns_eq : s.countIns = s.upd countSlot := rfl

/-- An instruction retires where no level ends. -/
theorem retire_free (h : s.straight = true) : s.retire = s.setSlot s.cur s.slot.ended := by
  have hs := (straight_iff s).mp h
  unfold State.retire
  rw [countIns_eq]
  dsimp only
  rw [iterate_none]
  · dsimp only
    rw [upd_upd]
    have : (s.upd countSlot).pc = s.slot.pc := by unfold State.pc; rw [slot_upd]; rfl
    rw [this]; rfl
  · intro k hk
    rw [slot_upd] at hk
    have : (s.upd countSlot).pc = s.slot.pc := by unfold State.pc; rw [slot_upd]; rfl
    rw [this, slot_upd]
    exact hs k hk

/-- An instruction that changes the issuing slot by `f`, and neither its address nor its loops, and retires where no
level ends. -/
theorem retire_upd {f : Slot → Slot} (h : s.straight = true) (hp : (f s.slot).pc = s.slot.pc)
    (ho : (f s.slot).order = s.slot.order) (hl : (f s.slot).loops = s.slot.loops) :
    (s.upd f).retire = s.after f := by
  have hs := (straight_iff s).mp h
  rw [retire_free]
  · rw [slot_upd]; show (s.setSlot s.cur _).setSlot s.cur _ = _; rw [setSlot_setSlot]; rfl
  · rw [straight_iff, slot_upd, ho, hp]
    intro k hk
    have : (f s.slot).level k = s.slot.level k := by unfold Slot.level; rw [hl]
    rw [this]; exact hs k hk

/-- A change that leaves the address and the loops alone. -/
theorem retire_same (h : s.straight = true) : s.retire = s.after id := retire_free s h

theorem retire_setG (h : s.straight = true) (n : Nat) (x : Word) :
    (s.setG n x).retire = s.after (fun t => t.setG n x) := by
  apply retire_upd s h <;> simp
theorem retire_setP (h : s.straight = true) (n : Nat) (b : Bool) :
    (s.setP n b).retire = s.after (fun t => t.setP n b) := by
  apply retire_upd s h <;> simp

/-- A transfer that closes no level. -/
theorem transfer_free (d : Word) (leaves : Bool) (h : s.straight = true)
    (hl : leaves = true → ∀ k ∈ s.slot.order, (s.slot.level k).act = true →
      (s.slot.level k).start.toNat ≤ d.toNat ∧ d.toNat ≤ (s.slot.level k).stop.toNat) :
    s.transfer d leaves = s.setSlot s.cur { s.slot.ended with pc := d } := by
  have hs := (straight_iff s).mp h
  unfold State.transfer
  have hf : s.countIns.slot = countSlot s.slot := slot_upd s _
  dsimp only
  have he : (s.countIns.slot.order.filter (fun k => (s.countIns.slot.level k).act &&
      ((s.countIns.slot.level k).stop == s.countIns.pc || (leaves &&
        !((s.countIns.slot.level k).start.toNat ≤ d.toNat && d.toNat ≤ (s.countIns.slot.level k).stop.toNat))))) = [] := by
    rw [List.filter_eq_nil_iff]
    intro k hk
    have hk' : k ∈ s.slot.order := by rw [hf] at hk; exact hk
    have hlev : s.countIns.slot.level k = s.slot.level k := by rw [hf]; rfl
    have hpc : s.countIns.pc = s.slot.pc := by unfold State.pc; rw [hf]; rfl
    rw [hlev, hpc]
    have h1 := hs k hk'
    cases ha : (s.slot.level k).act
    · simp
    · have h2 : (s.slot.level k).stop ≠ s.slot.pc := fun e => h1 ⟨ha, e⟩
      cases leaves
      · simp [h2]
      · have := hl rfl k hk' ha
        simp [h2, this.1, this.2]
  rw [he]
  simp only [List.getLast?_nil]
  rw [countIns_eq, upd_upd]; rfl

end Sys2Proof.Laws
end

