-- ==== Sys2Proof/Tests/Slice0.lean ====
section
/-! SUPPORT. Tests: words written out from the encodings of the manual, ill-formed terms, single steps with results that the
manual gives, and witnesses that the hypotheses of the statements can be met together. -/

set_option Elab.async false

namespace Sys2Proof.Tests

open Sys2Proof.Machine

/-! ### Words (R42 to R47, and the encoding of each family) -/

/-- A word of three groups of 32 bits, high to low, as the manual prints them. -/
def groups (a b c : Nat) : Nat := a * 2 ^ 64 + b * 2 ^ 32 + c

/-- The word decodes to the instruction, without a guard. -/
def reads (a b c : Nat) (i : Instr) : Prop := decode 0 (groups a b c) = .ok (Guard.none, i)

theorem test_word_add : reads 0x10001020 0xC0000000 0 (.add 4 2 3) := rfl
theorem test_word_addi : reads 0x11000C30 0 0xFFFFFFFF (.addi 3 3 (-1)) := rfl
theorem test_word_st : reads 0x41001060 0x000A0000 0 (.st .i64 4 ⟨6, 0, 0, 0, 0⟩) := rfl
theorem test_word_wait : reads 0x09000000 0 0xFF0F (.wait 15 0 15 15) := rfl
theorem test_word_fin : reads 0x0B000000 0 0 .fin := rfl
theorem test_word_rgn : reads 0x06000400 0 6 (.rgn 6 1) := rfl
theorem test_word_csrw : reads 0x0D010010 0 0x10 (.csrw 0x10 1) := rfl
theorem test_word_xf : reads 0x08000000 0 0x10 (.xf .core .copy) := rfl
theorem test_word_ldfe : reads 0x49011490 0x00120000 4 (.ldfe .z32 5 ⟨9, 0, 4, 0, 0⟩) := rfl
theorem test_word_amo : reads 0x4B090C40 0x000A0170 0 (.amo .cas .ar .i64 3 ⟨4, 0, 0, 0, 0⟩ 5) := rfl
theorem test_word_nutick : reads 0xE0000000 0 0x60 (.nutick 96) := rfl
theorem test_word_nudom : reads 0xE1000000 0 5 (.nudom 5) := rfl
theorem test_word_nuq : reads 0xE2000C20 0 0 (.nuq 3 2 false) := rfl
theorem test_word_nurel : reads 0xE3001440 0 0 (.nurel 5 ⟨4, 0, 0, 0, 0⟩) := rfl
theorem test_word_tjoin : reads 0x64000810 0 0 (.tjoin 2 1) := rfl
theorem test_word_tarr : reads 0x64020000 0 0 .tarr := rfl
theorem test_word_enq : reads 0x65000410 0 0 (.enq 1 1 0) := rfl
theorem test_word_deq : reads 0x65010C30 0 0 (.deq 3 3 0) := rfl
theorem test_word_mmac : reads 0xA2000010 0x00800000 2 (.mmac .t8 0 1 0 0 2) := rfl
theorem test_word_mldb : reads 0xA1000020 0xC0000000 2 (.mldb 0 2 3 0 2 false 0) := rfl
theorem test_word_cp : reads 0xB0000420 0xC4000000 0 (.cp 1 2 3 4 0 0) := rfl
theorem test_word_gth : reads 0xB5000420 0xC4600000 0xF (.gth .f32 1 2 3 4 15 false 0 0) := rfl
theorem test_word_qcross : reads 0xC5000010 0 0 (.qcross 1) := rfl
theorem test_word_qget : reads 0xC20038C0 0 4 (.qget 4 14 12) := rfl
/-- All zeros and all ones are illegal with reason 1, a reserved major with 2, an unassigned minor with 3 (R57, R58). -/
theorem test_word_illegal : decode 0 0 = .error 1 ∧ decode 0 (2 ^ 96 - 1) = .error 1 ∧ decode 0 (groups 0x0E000000 0 0) = .error 2 ∧
    decode 0 (groups 0xAA010000 0 0) = .error 2 ∧ decode 0 (groups 0x100D0000 0 0) = .error 3 := ⟨rfl, rfl, rfl, rfl, rfl⟩
/-- The guard `(!p0)` is illegal with reason 5 (R43). -/
theorem test_word_guard : decode 0 (groups 0x01800000 0 0) = .error 5 := rfl

/-! ### Ill-formed terms, one for each check of `Instr.illegal` -/

theorem test_ill_rgn : Instr.illegal 0 (.rgn 1 0) = some 4 ∧ Instr.illegal 0 (.rgn 0x3FFFE 1) = some 6 := ⟨rfl, rfl⟩
theorem test_ill_xf : Instr.illegal 0 (.xf .core .core) = some 6 := rfl
theorem test_ill_extensions : Instr.illegal 0 (.sext .i64 1 2) = some 5 ∧ Instr.illegal 0 (.zext .i8 1 2) = some 5 ∧
    Instr.illegal 0 (.bswp .z8 1 2) = some 5 := ⟨rfl, rfl, rfl⟩
theorem test_ill_fields : Instr.illegal 0 (.bfx .z64 1 2 63 2) = some 5 ∧ Instr.illegal 0 (.bfi 1 2 0 0) = some 5 := ⟨rfl, rfl⟩
/-- A control-register word names an assigned number, and a write one that is not read only, whatever its guard (R99). -/
theorem test_ill_csr : Instr.illegal 0 (.csrr 1 0x014) = some 5 ∧ Instr.illegal 0 (.csrw 0x0FF 1) = some 5 ∧
    Instr.illegal 0 (.csrs 1 0x040 2) = some 6 ∧ Instr.illegal 0 (.csrw 0x010 1) = none := ⟨rfl, rfl, rfl, rfl⟩
theorem test_ill_float : Instr.illegal 0 (.fadd .f16 1 2 3) = some 5 ∧ Instr.illegal 0 (.fcvt .i32 .i64 1 2) = some 6 ∧
    Instr.illegal 0 (.fcvt .f32 .i8 1 2) = some 5 := ⟨rfl, rfl, rfl⟩
theorem test_ill_loops : Instr.illegal 4 (.lpx 0 3 false ⟨0, 0⟩) = some 6 ∧ Instr.illegal 2 (.lp 0 1 false ⟨2, 0⟩) = some 6 := ⟨rfl, rfl⟩
theorem test_ill_tasks : Instr.illegal 0 (.sendv 1 2 3 0 0) = some 5 ∧ Instr.illegal 0 (.sendv 1 2 3 0 17) = some 5 ∧
    Instr.illegal 0 (.arr 1 0) = some 5 := ⟨rfl, rfl, rfl⟩
theorem test_ill_memory : Instr.illegal 0 (.ld .z4 1 ⟨0, 0, 0, 0, 0⟩) = some 5 ∧ Instr.illegal 0 (.ldv .none 1 ⟨0, 0, 0, 0, 0⟩ (some (1, false))) = some 6 ∧
    Instr.illegal 0 (.ldvs .t6 1 ⟨0, 0, 0, 0⟩ 2 none) = some 5 ∧ Instr.illegal 0 (.ldf .i16 1 ⟨0, 0, 0, 0, 0⟩) = some 5 := ⟨rfl, rfl, rfl, rfl⟩
theorem test_ill_atomics : Instr.illegal 0 (.amo .fadd .relaxed .i64 1 ⟨0, 0, 0, 0, 0⟩ 2) = some 6 ∧
    Instr.illegal 0 (.red .add false .i16 1 ⟨0, 0, 0, 0, 0⟩) = some 5 ∧ Instr.illegal 0 (.nutick 0) = some 5 := ⟨rfl, rfl, rfl⟩
theorem test_ill_vector : Instr.illegal 0 (.vadd .i32 1 2 3 ⟨none, 1, false⟩) = some 4 ∧ Instr.illegal 0 (.vadd .f32 1 2 3 ⟨none, 0, true⟩) = some 6 ∧
    Instr.illegal 0 (.vmacc .i4 1 2 3 ⟨none, 0, false⟩) = some 5 ∧ Instr.illegal 0 (.vdiv .i16 1 2 3 none 0) = some 5 := ⟨rfl, rfl, rfl, rfl⟩
theorem test_ill_lanes : Instr.illegal 0 (.vmin .t8 1 2 3 none) = some 5 ∧ Instr.illegal 0 (.vsqrt .i32 1 2 none 0) = some 5 ∧
    Instr.illegal 0 (.vabs .z8 1 2 none false) = some 5 ∧ Instr.illegal 0 (.vabs .f32 1 2 none true) = some 6 ∧
    Instr.illegal 0 (.vnot .f32 1 2 none) = some 5 ∧ Instr.illegal 0 (.vshl .i8 1 2 (.imm 8) none) = some 5 := ⟨rfl, rfl, rfl, rfl, rfl, rfl⟩
theorem test_ill_compares : Instr.illegal 0 (.vcmp .un .i32 1 2 3 none) = some 6 ∧ Instr.illegal 0 (.vsel .none 1 2 3 4) = some 5 ∧
    Instr.illegal 0 (.vsat .i8 1 2 9 none) = some 5 := ⟨rfl, rfl, rfl⟩
theorem test_ill_conversions : Instr.illegal 0 (.vcvt .f32 .f32 1 2 0 (.given 0) ⟨none, 0, false⟩) = some 6 ∧
    Instr.illegal 0 (.vpack .i4 1 2 3 none false) = some 5 ∧ Instr.illegal 0 (.vunpk .i64 1 2 false none) = some 5 := ⟨rfl, rfl, rfl⟩
theorem test_ill_reductions : Instr.illegal 0 (.vred .and .f32 1 2 none 0) = some 5 ∧ Instr.illegal 0 (.vred .min .f32 1 2 none 1) = some 4 ∧
    Instr.illegal 0 (.vdot .i32 1 2 3 none 0) = some 5 := ⟨rfl, rfl, rfl⟩
theorem test_ill_moves : Instr.illegal 0 (.vperm .i8 1 2 3 none) = some 5 ∧ Instr.illegal 0 (.vshuf .i4 1 2 3 none) = some 5 ∧
    Instr.illegal 0 (.vext .i64 1 2 (.imm 64)) = some 5 ∧ Instr.illegal 0 (.mpop .none 1 2) = some 6 ∧ Instr.illegal 0 (.vblkWr 1 2 0) = some 5 :=
  ⟨rfl, rfl, rfl, rfl, rfl⟩
theorem test_ill_matrix : Instr.illegal 0 (.mldb 121 1 2 3 1 false 0) = some 5 ∧ Instr.illegal 0 (.mmac .i16 0 1 2 0 1) = some 5 ∧
    Instr.illegal 0 (.mmac .t8 0 1 2 0 26) = some 5 ∧ Instr.illegal 0 (.mrd 63 0 0 1) = some 5 ∧ Instr.illegal 0 (.mcvt .f32 1 0 0 .auto false 0) = some 5 :=
  ⟨rfl, rfl, rfl, rfl, rfl⟩
theorem test_ill_engines : Instr.illegal 0 (.cps 1 2 3 4 0x000C 0 0) = some 6 ∧ Instr.illegal 0 (.gth .z4 1 2 3 4 0 false 0 0) = some 5 ∧
    Instr.illegal 0 (.qset 4 1 2) = some 6 ∧ Instr.illegal 0 (.qstorm 0 1 2) = some 4 := ⟨rfl, rfl, rfl, rfl⟩

/-! ### Single steps, with results from the manual's tables -/

/-- A task on slot 0 of cluster 0, at 0x1000 of a page of 64 KiB whose frame begins at 0x100000, with 4 KiB of scratchpad. -/
def base : State := State.reset.placeTask.upd (fun x => { x with head := { x.head with scratch := 0x00040000 } })

/-- The task with registers g1, g2, … holding words. -/
def regs (l : List Word) : State := base.upd (fun x => { x with g := l.zipIdx.map (fun e => (e.2 + 1, e.1)) })

/-- What a register holds after an instruction. -/
def after (i : Instr) (s : State) (n : Nat) : Option Word :=
  match exec i s with
  | .next t => some (t.g n)
  | _ => none

/-- What is read of the issuing slot after an instruction. -/
def slotAfter {α : Type} (i : Instr) (s : State) (f : Slot → α) : Option α :=
  match exec i s with
  | .next t => some (f t.slot)
  | _ => none

/-- R121: the corners of division. -/
theorem test_div_corners : after (.div 3 1 2) (regs [0x8000000000000000, -1]) 3 = some 0x8000000000000000 ∧
    after (.rem 3 1 2) (regs [0x8000000000000000, -1]) 3 = some 0 ∧ after (.div 3 1 2) (regs [7, 0]) 3 = some (-1) ∧
    after (.remz 3 1 2) (regs [7, 0]) 3 = some 7 := by decide +kernel
theorem test_div_signs : after (.div 3 1 2) (regs [-7, 2]) 3 = some (-3) ∧ after (.rem 3 1 2) (regs [-7, 2]) 3 = some (-1) := by decide +kernel
theorem test_mulh : after (.mulh 3 1 2) (regs [-1, -1]) 3 = some 0 ∧ after (.mulhz 3 1 2) (regs [-1, -1]) 3 = some 0xFFFFFFFFFFFFFFFE := by
  decide +kernel
theorem test_add_wraps : after (.add 1 1 2) (regs [-1, 2]) 1 = some 1 ∧ after (.addi 0 1 5) (regs [1]) 0 = some 0 := by decide +kernel
/-- R123: the amount is bits 5:0. -/
theorem test_shift_amount : after (.shl 3 1 2) (regs [1, 65]) 3 = some 2 ∧ after (.sar 3 1 2) (regs [-8, 2]) 3 = some (-2) ∧
    after (.rot 3 1 2) (regs [0x8000000000000001, 1]) 3 = some 3 := by decide +kernel
theorem test_counts : after (.clz 2 1) (regs [0]) 2 = some 64 ∧ after (.ctz 2 1) (regs [8]) 2 = some 3 ∧
    after (.bswp .z32 2 1) (regs [0x11223344AABBCCDD]) 2 = some 0xDDCCBBAA := by decide +kernel
theorem test_fields : after (.bfx .i64 2 1 4 4) (regs [0x80]) 2 = some (-8) ∧ after (.bfi 2 1 8 8) (regs [0xAB, 0x1111]) 2 = some 0xAB11 := by
  decide +kernel
theorem test_compares : slotAfter (.cmp .lt 1 1 2) (regs [-1, 1]) (·.p.getLsbD 1) = some true ∧
    slotAfter (.cmp .ltz 1 1 2) (regs [-1, 1]) (·.p.getLsbD 1) = some false := by decide +kernel
/-- The table of R132. -/
theorem test_fmin_table : after (.fmin .f64 3 1 2) (regs [0x8000000000000000, 0]) 3 = some 0x8000000000000000 ∧
    after (.fmax .f64 3 1 2) (regs [0x8000000000000000, 0]) 3 = some 0 ∧
    after (.fmin .f64 3 1 2) (regs [0x7FF8000000000000, 0x4008000000000000]) 3 = some 0x4008000000000000 ∧
    after (.fmax .f64 3 1 2) (regs [0x7FF8000000000000, 0x7FF0000000000001]) 3 = some 0x7FF8000000000000 := by decide +kernel
theorem test_fmin_flags : slotAfter (.fmin .f64 3 1 2) (regs [0x7FF8000000000000, 0x4008000000000000]) (·.csr.fflags) = some 0 ∧
    slotAfter (.fmin .f64 3 1 2) (regs [0x7FF0000000000001, 0x4008000000000000]) (·.csr.fflags) = some 16 := by decide +kernel
/-- 1 + 2 = 3, 1 / 3 rounded, the root of 2, in f64. -/
theorem test_float : after (.fadd .f64 3 1 2) (regs [0x3FF0000000000000, 0x4000000000000000]) 3 = some 0x4008000000000000 ∧
    after (.fdiv .f64 3 1 2) (regs [0x3FF0000000000000, 0x4008000000000000]) 3 = some 0x3FD5555555555555 ∧
    after (.fsqrt .f64 3 1) (regs [0x4000000000000000]) 3 = some 0x3FF6A09E667F3BCD := by decide +kernel
theorem test_fcvt : after (.fcvt .i32 .f64 2 1) (regs [0xC004000000000000]) 2 = some (-2) ∧
    after (.fcvt .f32 .f64 2 1) (regs [0x3FF0000000000000]) 2 = some 0x3F800000 := by decide +kernel
/-- A store is read back with its sign; the byte above it is as before. -/
theorem test_store_load : (match exec (.st .i16 1 ⟨2, 0, 0, 0, 0⟩) (regs [0x1234FFFE, 0xFFFFFF0000000100]) with
    | .next t => (after (.ld .i16 3 ⟨2, 0, 0, 0, 0⟩) t 3, after (.ld .z32 3 ⟨2, 0, 0, 0, 0⟩) t 3)
    | _ => (none, none)) = (some (-2), some 0xFFFE) := by decide +kernel
/-- A misaligned access traps: without a handler the task leaves its slot (R107). -/
theorem test_misaligned : slotAfter (.ld .i32 1 ⟨2, 0, 1, 0, 0⟩) (regs [0, 0x2000]) (·.run) = some .idle := by decide +kernel
/-- With a handler the slot enters it (R107, R109). -/
theorem test_trap_entry : (match exec (.trap 7) (base.upd (fun x => { x with csr := { x.csr with tvec := 0x3000 } })) with
    | .next t => some (t.pc, t.slot.csr.tepc, t.slot.csr.tval, t.slot.csr.tcause)
    | _ => none) = some (0x3000, 0x1001, 7, 0x8000000000000011) := by decide +kernel
/-- A loop of two iterations goes back once, then ends (R141). -/
theorem test_loop : (match (base.upd (fun x => { x with lc := [(0, 2)], order := [0], loops := [(0, { act := true, start := 0x0FC0, stop := 0x1000 })] })).retire with
    | t => (t.pc, t.slot.lcr 0, (t.upd (fun x => { x with pc := 0x1000 })).retire.pc)) = (0x0FC0, 1, 0x1001) := by decide +kernel
/-- `amo.cas` returns the old word and swaps on equality (R232). -/
theorem test_cas : (match exec (.amo .cas .relaxed .z64 1 ⟨3, 0, 0, 0, 0⟩ 2) (regs [0, 9, 0x2000]) with
    | .next t => (t.g 1, t.peekBytes 0x102000 1)
    | _ => (0, [])) = (0, [9]) := by decide +kernel
/-- The first member of a team is member 0, and it has created it (R272). -/
theorem test_tjoin : after (.tjoin 2 1) (regs [5]) 2 = some 0x100 := by decide +kernel
/-- An instruction whose guard does not hold only retires (R43). -/
theorem test_guard_off : (match step (base.withFetchWord 96 (groups 0x11100C30 0 0xFFFFFFFF)) with
    | .next t => (t.g 3, t.pc, t.slot.csr.ins)
    | _ => (0, 0, 0)) = (0, 0x1001, 1) := by decide +kernel
/-- A placed word is the next instruction (log 6). -/
theorem test_step : (match step (State.reset.withFetchWord 96 (groups 0x11000C30 0 0xFFFFFFFF)) with
    | .next t => (t.g 3, t.pc)
    | _ => (0, 0)) = (0xFFFFFFFFFFFFFFFF, 0x1001) := by decide +kernel
/-- An illegal word reports its reason and its head (R57). -/
theorem test_step_illegal : (match step ((base.upd (fun x => { x with csr := { x.csr with tvec := 0x3000 } })).withFetchWord 96 (groups 0x100D0000 0 0)) with
    | .next t => (t.pc, t.slot.csr.tval, t.slot.csr.tcause)
    | _ => (0, 0, 0)) = (0x3000, 0x3100D, 0x8000000000000001) := by decide +kernel
/-- SHA-256 of no bytes, and of "abc" (FIPS 180-4, log 25). -/
theorem test_sha : Sha.digest [] = 0xe3b0c44298fc1c149afbf4c8996fb92427ae41e4649b934ca495991b7852b855 ∧
    Sha.digest [0x61, 0x62, 0x63] = 0xba7816bf8f01cfea414140de5dae2223b00361a396177a9cb410ff61f20015ad := by decide +kernel

/-! ### Witnesses: concrete states and operands that meet the hypotheses of the statements, clause by clause -/

open Sys2Proof.Claims

theorem of_ok {α β : Type} [DecidableEq β] {x : Except α β} {b : β}
    (h : (match x with | .ok y => decide (y = b) | .error _ => false) = true) : x = .ok b := by
  cases x with
  | ok y => simpa using h
  | error e => simp at h

theorem of_error {α β : Type} [DecidableEq α] {x : Except α β} {a : α}
    (h : (match x with | .error y => decide (y = a) | .ok _ => false) = true) : x = .error a := by
  cases x with
  | ok y => simp at h
  | error e => simpa using h

/-- Empty caches agree with an empty registry. -/
theorem settled_bare (s : State) (h : s.contrib = [] ∧ s.updLines = [] ∧ s.l2 = [] ∧ s.l1 = [] ∧ s.owners = []) : Settled s where
  contrib := h.1
  updates := h.2.1
  rising := by rw [h.2.2.1, h.2.2.2.1, h.2.2.2.2]; simp [Rising]
  bounds := by simp [h.2.2.2.2]
  whole := by intro c w x _ hx; simp [State.l1At, h.2.2.2.1, Store.find?] at hx
  owned := by intro c w _; simp [State.l1At, h.2.2.2.1, h.2.2.2.2, Store.find?]

theorem calm_bare (s : State) (h : s.lag = false ∧ s.flight = [] ∧ s.ports = [] ∧ s.copies = [] ∧ s.slot.head.spec = false ∧
    s.entryOf s.cur = none ∧ s.slot.holds = [] ∧ s.slot.ahead = [] ∧ [Ctr.ld, .st, .rpe, .rdi, .rpk, .rfa, .cp, .tl].all (fun c => !s.slot.full c) = true) :
    Calm s where
  lag := h.1
  flight := h.2.1
  ports := by simp [h.2.2.1]
  copies := by simp [h.2.2.2.1]
  plain := h.2.2.2.2.1
  entry := h.2.2.2.2.2.1
  holds := h.2.2.2.2.2.2.1
  ahead := h.2.2.2.2.2.2.2.1
  room := by intro c; have := h.2.2.2.2.2.2.2.2; cases c <;> simp_all

theorem settled_base (f : Slot → Slot) : Settled (base.upd f) := settled_bare _ ⟨rfl, rfl, rfl, rfl, rfl⟩

/-- Nothing is in flight on the small states of these tests. -/
theorem calm_regs : Calm (regs [0x2000]) := calm_bare _ (by decide +kernel)
theorem settled_regs (l : List Word) : Settled (regs l) := settled_bare _ ⟨rfl, rfl, rfl, rfl, rfl⟩

/-! #### Scalar and control -/

theorem test_meets_bit_fields : ∃ lo : Fin 64, ∃ w : Fin 128, 1 ≤ w.val ∧ lo.val + w.val = 64 := ⟨63, 1, by decide⟩
theorem test_meets_selection : base.p 0 = true ∧ base.p 7 = false := by decide +kernel
theorem test_meets_illegal_shift : ∃ z : BitVec 32, z.toNat = 64 := ⟨64, by decide⟩
theorem test_meets_float_types : (Ty.f32 = .f32 ∨ Ty.f32 = .f64) ∧ Ty.f64 = .f64 := ⟨.inl rfl, rfl⟩
theorem test_meets_retirement : base.straight = true ∧ base.pc.toNat % 8 ≠ 4 ∧
    (base.upd (fun x => { x with pc := 0x1004 })).pc.toNat % 8 = 4 := by decide +kernel

/-- A slot in two loop levels, level 1 the inner one. -/
def loops (n0 n1 : Word) : State := base.upd (fun x => { x with
  lc := [(0, n0), (1, n1)], order := [1, 0]
  loops := [(0, { act := true, start := 0x0FC0, stop := 0x1000 }), (1, { act := true, start := 0x0FC2, stop := 0x1000 })] })

theorem test_meets_loops_end : ((loops 1 0).slot.order.filter (endsHere (loops 1 0))) = [1, 0] ∧
    ∀ k ∈ [1, 0], ((loops 1 0).slot.lcr k).toNat ≤ 1 := by decide +kernel
theorem test_meets_loop_continues : (loops 2 1).slot.order = [1] ++ 0 :: [] ∧ endsHere (loops 2 1) 0 = true ∧
    (∀ k ∈ ([1].filter (endsHere (loops 2 1))), ((loops 2 1).slot.lcr k).toNat ≤ 1) ∧ 1 < ((loops 2 1).slot.lcr 0).toNat := by decide +kernel

/-- The task's line holds a `nop` of which every slot is a target. -/
def lined : State := base.storeFetch (groups 0x01000000 0 0)

theorem test_meets_loops_open : base.marked (nextPc base.pc) = false ∧ lined.marked (nextPc lined.pc) = true ∧ lined.straight = true ∧
    0 ∉ lined.slot.order := by decide +kernel
theorem test_meets_transfer : (loops 1 1).slot.order = [1] ++ 0 :: [] ∧ (0 ∉ [1]) ∧ ((loops 1 1).slot.level 0).act = true ∧
    ((loops 1 1).slot.level 0).stop = (loops 1 1).pc ∧ ∀ m ∈ ([] : List Nat), m = 0 := by decide +kernel
theorem test_meets_transfer_closes_nothing : ∀ k ∈ base.slot.order, (base.slot.level k).act = false := by decide +kernel
theorem test_meets_branches : lined.marked 0x1004 = true ∧ base.marked 0x1004 = false ∧ (0x1004 / 8 % 8 = 0 ∧ 0x1004 % 8 ≤ 4) ∧
    ¬(0x1005 / 8 % 8 = 0 ∧ 0x1005 % 8 ≤ 4) := by decide +kernel

/-- A table of one entry, 0x1002, in the own scratchpad. -/
def tabled : State := { lined.upd (fun x => { x with g := [(1, 0), (2, 0xFFFFFF0000000100)] }) with scr := [(0x100, 2), (0x101, 0x10)] }

theorem test_meets_table_jump : (tabled.g 2).toNat % 8 = 0 ∧ tabled.slot.head.spec = false ∧
    tabled.mustWait (.scr 0 0x100) 8 = false ∧ (tabled.descAt (.scr 0 0x100)).toNat % 256 ≠ 255 ∧
    leNat ((List.range 8).map (fun k => Memory.read tabled.scr (State.scrKey 0 0x100 + k))) = 0x1002 := by decide +kernel
theorem test_meets_table_window : tabled.window tabled.cur (tabled.g 2 + 8 * tabled.g 1) 8 .load = .ok (some (0, 0x100, false)) :=
  of_ok (by decide +kernel)
theorem test_meets_table_corners : (7 : Nat) % 8 ≠ 0 ∧ (0 : Nat) + 1 ≤ (1 : Nat) := by decide

/-- A task with a handler, and one that runs it. -/
def handled : State := base.upd (fun x => { x with csr := { x.csr with tvec := 0x3000 } })
def handling : State := base.upd (fun x => { x with csr := { x.csr with tvec := 0x3000, tcause := 0x8000000000000011, tepc := 0x1001 } })

theorem test_meets_trap_entry : HasHandler handled ∧ (17 : Nat) < 256 := by unfold HasHandler; decide +kernel
theorem test_meets_no_handler : ¬HasHandler base ∧ ¬HasHandler handling := by unfold HasHandler; decide +kernel
theorem test_meets_armed : handled.slot.armed = false ∧ (base.upd (fun x => { x with armed := true })).slot.armed = true := by decide +kernel
theorem test_meets_trap_return : handling.slot.csr.tcause.getLsbD 63 = true ∧ handling.slot.csr.tepc.toNat / 8 % 8 = 0 ∧
    handling.slot.csr.tepc.toNat % 8 ≤ 4 ∧ base.slot.csr.tcause.getLsbD 63 = false := by decide +kernel
theorem test_meets_trap_then_return : HasHandler handled ∧ handled.pc.toNat / 8 % 8 = 0 ∧ handled.pc.toNat % 8 ≤ 4 := by
  unfold HasHandler; decide +kernel
theorem test_meets_csr_reads : (∃ n : BitVec 12, n.toNat = 0x061) ∧ ∃ n : BitVec 12, n.toNat = 0x007 := ⟨⟨0x061, rfl⟩, ⟨0x007, rfl⟩⟩
theorem test_meets_csr_writes : [0x010, 0x011, 0x012, 0x013, 0x030, 0x050, 0x051, 0x060, 0x000, 0x061].all (fun n => (base.csrRead n).isSome) = true ∧
    base.grantedDomain 0 = true ∧ base.grantedDomain 255 = false := by decide +kernel
theorem test_meets_csr_values : (0x3004 / 8 % 8 = 0 ∧ 0x3004 % 8 ≤ 4) ∧ ¬(0x3005 / 8 % 8 = 0 ∧ 0x3005 % 8 ≤ 4) ∧ 0xFF / 2 ^ 8 % 2 ^ 54 = 0 ∧
    0x100 / 2 ^ 8 % 2 ^ 54 ≠ 0 ∧ 31 < 32 ∧ 3 < 4 := by decide

/-- A slot with a load, a store and a copy outstanding. -/
def busy : State := base.upd (fun x => { x with cnt := { x.cnt with ld := 1, st := 1, cp := 1 } })

theorem test_meets_waits : base.slot.holds = [] ∧ base.slot.cnt.ld = 0 ∧ busy.slot.cnt.ld ≠ 0 ∧ busy.slot.stores ≠ 0 ∧
    base.pathBusy base.cur .core = false := by decide +kernel
theorem test_meets_path_busy : ({ base with flight := [(0, .load { sid := 0, pc := 0x1000, va := 0x2000, dest := .g 1 .i32, parts := [⟨.glob 0x102000, 4, 0⟩], todo := [0] })] } : State).pathBusy 0 .core = true := by decide +kernel
theorem test_meets_held : Hold.fence ∈ (base.upd (fun x => { x with holds := [.fence] })).slot.holds ∧ (0x40 ≤ 0x4E ∧ 0x4E ≤ 0x4E) := by
  decide +kernel
theorem test_meets_regions : base.slot.order = [] ∧ (loops 1 1).slot.order ≠ [] := by decide +kernel

/-! #### Floats -/

theorem test_meets_float_exceptions : (nanP Num.f64 0x7FF8000000000000 = true ∧ snanP Num.f64 0x7FF0000000000001 = true) ∧
    (infP Num.f64 0x7FF0000000000000 = true ∧ infP Num.f64 0xFFF0000000000000 = true) ∧ zeroP Num.f64 0x8000000000000000 = true ∧
    (nanP Num.f64 0xBFF0000000000000 = false ∧ infP Num.f64 0xBFF0000000000000 = false ∧ zeroP Num.f64 0xBFF0000000000000 = false ∧
      negP Num.f64 0xBFF0000000000000 = true) := by decide +kernel
theorem test_meets_float_results : Num.unpack Num.f64 0x3FF0000000000000 = .fin false (2 ^ 52) (-52) ∧
    Num.unpack Num.f32 0x80000000 = .fin true 0 (-149) := by decide +kernel
theorem test_meets_exact_values : Num.b16 ∈ [Num.f16, Num.b16, Num.f32, Num.f64] ∧ 0x3F80 < 2 ^ Num.b16.width ∧
    Num.unpack Num.b16 0x3F80 = .fin false 128 (-7) := by decide +kernel
theorem test_meets_float_minmax : nanP Num.f32 0x7FC00000 = true ∧ nanP Num.f32 0x7F800000 = false := by decide +kernel
theorem test_meets_conversions : Ty.f16 ∈ [Ty.f16, .b16, .f32, .f64] ∧ Ty.z32 ∈ [Ty.i32, .i64, .z32, .z64] ∧
    nanP Num.f64 0x7FF8000000000000 = true ∧ infP Num.f64 0xFFF0000000000000 = true ∧
    (Num.cut .rne false (2 ^ 52) (-52) 0 false).1 = 1 ∧ (-1 : Int) < 0 ∧ (2 ^ 32 - 1 : Int) < 2 ^ 32 ∧
    (Num.unpack Num.f64 0xBFF0000000000000 = .fin true (2 ^ 52) (-52)) ∧
    (Num.unpack Num.f64 0x41F0000000000000 = .fin false (2 ^ 52) (-20)) := by decide +kernel

/-! #### Vectors -/

/-- The task with vector registers v0, v1, … as given, and a mask register m1 with lane 0 set. -/
def vecs (l : List Machine.VReg) : State := base.upd (fun x => { x with v := l.zipIdx.map (fun e => (e.2, e.1)), m := [(1, 1), (2, 0)] })

theorem test_meets_acceptance : base.lag = false ∧ base.slot.vq = [] ∧ ({ base with lag := true } : State).lag = true ∧
    ((base.upd (fun x => { x with vq := [[.g 1 2]] })).slotAt 0).vq = [.g 1 2] :: [] := by decide +kernel
theorem test_meets_lanes : Readable (vecs [{}, {}, {}]) .i32 none [0, 1, 2] ∧ Ty.i32.isInt = true ∧ (31 : Nat) < Ty.i32.width := by
  refine ⟨?_, rfl, by decide⟩
  unfold Readable; decide +kernel
theorem test_meets_masked : active (vecs []) (some (1, false)) 0 = true ∧ active (vecs []) (some (1, false)) 1 = false ∧
    Readable (vecs [{ desc := 0xFF0000 }]) .f64 (some (1, false)) [0] := by
  refine ⟨by decide +kernel, by decide +kernel, ?_⟩
  unfold Readable; decide +kernel
theorem test_meets_counts : (∃ f : Nat → Nat, ∀ j, f j ≤ 8 ∧ (∀ k < f j, (0 : Nat).testBit (7 - k) = false) ∧
    (f j < 8 → (0 : Nat).testBit (7 - f j) = true)) := ⟨fun _ => 8, by simp⟩
theorem test_meets_float_lanes : Ty.isFloat .f64 = true ∧ Num.unpack Num.f64 0x4008000000000000 = .fin false (3 * 2 ^ 51) (-51) ∧
    3 * 2 ^ 51 = 3 * 2 ^ (-(-51 : Int)).toNat ∧ Num.unpack Num.f64 0xFFF0000000000000 = .inf true := by decide +kernel
theorem test_meets_poison : active (vecs [{ desc := 0xFF }]) none 0 = true ∧
    State.isPoison (((vecs [{ desc := 0xFF }]).v 0).descOf (laneBlock .f64 0)) = true ∧
    (((vecs [{ desc := 0x8000 }]).v 0).descOf (laneBlock .f64 0)).toNat / 256 = 0x80 ∧
    State.isPoison (((vecs [{ desc := 0x8000 }]).v 0).descOf (laneBlock .f64 0)) = false := by decide +kernel
theorem test_meets_clean : Clean (vecs [{}]) 0 ∧ Ty.isScaled .t8 = true ∧ scaleOk (descFor .t8).toNat = true ∧
    Clean (vecs [{ desc := 0x00010001000100010001000100010001 }]) 0 ∧
    ∀ k < 8, ((vecs [{ desc := 0x00010001000100010001000100010001 }]).v 0).descOf k = (0 : BitVec 8) ++ (descFor .t8).setWidth 8 := by
  unfold Clean; decide +kernel
theorem test_meets_extract : ((regs [63]).g 1).toNat < Ty.f64.lanes ∧ Ty.f64.lanes ≤ ((regs [64]).g 1).toNat := by decide +kernel
theorem test_meets_narrowing : Ty.isInt .i8 = true ∧ Ty.isInt .i32 = true ∧
    3 < Nat.max Ty.i8.lanes Ty.i32.lanes / Nat.min Ty.i8.lanes Ty.i32.lanes ∧ (1 ≤ Ty.i8.width ∧ 8 ≤ Ty.i8.width ∧ Ty.i32.width ≤ 32) := by
  decide
theorem test_meets_descriptor : descOk 1 = true ∧ descOk 0xFF = false ∧ (65535 < 65536 ∧ ¬(65536 < 65536)) := by decide +kernel

/-! #### Memory -/

/-- Addresses of this module exist everywhere below 2^48; the tests use the own scratchpad and the task's page. -/
theorem range_scr : InRange (.scr 0 0x100) 64 := by simp [InRange]
theorem range_glob : InRange (.glob 0x102000) 64 := by simp [InRange]

theorem test_meets_scratchpad : Good (regs [0xFFFFFF0000000100]) 0xFFFFFF0000000100 8 8 .store (.scr 0 0x100) :=
  ⟨of_ok (by decide +kernel), by simp [InRange], by unfold Reaches; decide +kernel⟩
theorem test_meets_global : Good (regs [0x2000]) 0x2000 64 64 .load (.glob 0x102000) :=
  ⟨of_ok (by decide +kernel), by simp [InRange], by unfold Reaches; decide +kernel⟩
theorem test_meets_global_store : Good (regs [0x2000]) 0x2000 64 64 .store (.glob 0x102000) ∧ AlignedTo (.glob 0x102000) 64 :=
  ⟨⟨of_ok (by decide +kernel), by simp [InRange], by unfold Reaches; decide +kernel⟩, by simp [AlignedTo]⟩

theorem test_meets_windows : (0xFFFFFF0000000100#64).toNat % 8 = 0 ∧ (0xFFFFFF0000000100#64).toNat / 2 ^ 32 = 0xFFFFFF00 ∧
    0x100 + 8 ≤ base.slot.head.scratch.toNat / 65536 * 1024 ∧ base.slot.head.scratch.toNat / 65536 * 1024 < 0xFFC + 8 ∧
    base.teamOf base.cur = none ∧ (0x2001#64).toNat % 8 ≠ 0 := by decide +kernel

/-- The task is member 0 of team 5 and holds its 4 KiB in core 0; a second member has none yet. -/
def teamed : State := { base.upd (fun x => { x with head := { x.head with team := 5 } }) with
  clusters := [(0, { launch := 1, teams := [{ id := 5, members := 3, lead := [(0, 1)], phase := 5, recs := [(0, ⟨1, 0x8000, none⟩), (1, ⟨1, 0x9000, none⟩)] }] })]
  allocs := [⟨⟨1, 0x8000, none⟩, 0, 0, 4⟩] }

theorem test_meets_team_window : (teamed.teamOf 0).isSome = true ∧ teamed.allocOf ⟨1, 0x8000, none⟩ = some ⟨⟨1, 0x8000, none⟩, 0, 0, 4⟩ ∧
    teamed.allocOf ⟨1, 0x9000, none⟩ = none ∧ (3 : BitVec 64).getLsbD 0 = true := by decide +kernel
theorem test_meets_walks : (base.lookup 0 1 0x2000).1 = .leaf 0x100017 16 ∧ (base.lookup 0 1 0x20000).1 = .absent ∧
    (0x100017 : Nat).testBit 2 = true ∧ (0x100017 : Nat).testBit 3 = false ∧ (0x20000 / 2 ^ 56 = 0) := by decide +kernel
theorem test_meets_check_failure : (regs [0x2001]).checkAt 0x2001 8 8 .load = .error ⟨3, 0x2001⟩ := of_error (by decide +kernel)
theorem test_meets_checks_order : (regs [0x20000]).checkAt 0x20000 8 8 .store = .error ⟨6, 0x20000⟩ := of_error (by decide +kernel)

/-- The scratchpad words at 0x100 and 0x104 are full. -/
def full : State := { regs [0, 0xFFFFFF0000000100] with tags := [(0x40, true), (0x41, true)] }

theorem test_meets_full : (List.range 2).all (tagOf full 0 0x100) = true ∧ (List.range 2).all (fun j => !tagOf (regs []) 0 0x100 j) = true ∧
    full.slot.expired = false ∧ (0xFFFFFF0000000100#64).toNat % 8 = 0 := by decide +kernel
theorem test_meets_no_waiter : NoWaiter full 0 0x100 8 := by intro w hw; simp [full, regs, base, State.upd] at hw; cases hw
theorem test_meets_full_window : full.window full.cur 0xFFFFFF0000000100 8 .store = .ok (some (0, 0x100, false)) := of_ok (by decide +kernel)
theorem test_meets_line : (regs [0x2000]).translate 0 1 0x2000 .load = .ok 0x102000 ∧ (regs []).translate 0 1 0x20000 .load = .error ⟨5, 0x20000⟩ :=
  ⟨of_ok (by decide +kernel), of_error (by decide +kernel)⟩
theorem test_meets_bar : (0xFFFFFF0000000100#64).toNat % 2 ^ 32 < 0x40000 ∧ (0xFFFFFF0001000000#64).toNat % 2 ^ 32 = 0x1000000 := by decide
theorem test_meets_descriptors : descOk 1 = true ∧ (255 % 256 = 255 ∧ 255 < 65536) ∧ ¬(65536 < 65536) := by decide
theorem test_meets_cell : Good (regs [0x2000]) 0x2000 32 32 .store (.glob 0x102000) ∧ AlignedTo (.glob 0x102000) 32 ∧
    (cellFlags 0).testBit 0 = false ∧ (cellFlags (3 * 2 ^ 144)).testBit 1 = true ∧ (cellFlags (2 ^ 144)).testBit 0 = true :=
  ⟨⟨of_ok (by decide +kernel), by simp [InRange], by unfold Reaches; decide +kernel⟩, by simp [AlignedTo], by decide, by decide, by decide⟩
theorem test_meets_atomics : Ty.width .z32 = 32 ∧ RedOp.fadd = .fadd ∧ Ty.isFloat .f64 = true ∧
    State.deviceOf 0x102000 = base.dev ∧ Good (regs [0x2000]) 0x2000 8 8 .store (.glob 0x102000) :=
  ⟨rfl, rfl, rfl, by decide, of_ok (by decide +kernel), by simp [InRange], by unfold Reaches; decide +kernel⟩

/-- The state has the task, scratchpad and page of `base`. -/
structure Placed (s : State) : Prop where
  cur : s.cur = 0
  scratch : (s.slotAt 0).head.scratch = 0x00040000
  launch : (s.slotAt 0).rid.launch = 1
  tlb : (s.coreAt 0).tlb = [⟨1, 0, 16, 0x100017⟩]

theorem Placed.locate_own {s : State} (p : Placed s) (va : Word) (o n : Nat) (k : Access) (hv : va.toNat = 0xFFFFFF0000000000 + o) (hn : o + n ≤ 4096) :
    s.locate s.cur va n k = .ok (.scr 0 o) := by
  have h1 : va.toNat / 2 ^ 32 = 0xFFFFFF00 := by omega
  have h2 : va.toNat % 2 ^ 32 = o := by omega
  have h3 : State.scratchOf (s.slotAt 0).head = (0, 4) := by simp [State.scratchOf, p.scratch]
  have h4 : s.window s.cur va n k = .ok (some (0, o, false)) := by
    unfold State.window
    simp only [h1, h2, p.cur, h3]
    simp only [bne_self_eq_false, Bool.false_eq_true, if_false]
    rw [if_pos (by omega), if_pos (by omega)]
    simp [coreOf]
  unfold State.locate
  rw [h4]

theorem Placed.translate_page {s : State} (p : Placed s) (va : Word) (k : Access) (hv : va.toNat < 0x10000) :
    s.translate (s.cur / 2) s.slot.rid.launch va k = .ok (0x100000 + va.toNat) := by
  have hs : s.slot = s.slotAt 0 := by rw [State.slot, p.cur]
  have h1 : (s.lookup 0 1 va.toNat).1 = .leaf 0x100017 16 := by
    unfold State.lookup
    rw [p.tlb]
    have : va.toNat / 2 ^ 16 = 0 := by omega
    simp [this, hv]
  have h2 : canonical va.toNat = true := by unfold canonical; simp; omega
  have h3 : State.pageAddr 0x100017 16 va.toNat = 0x100000 + va.toNat := by
    unfold State.pageAddr
    have : Sys2Proof.bits 0x100017 51 8 = 0x1000 := by decide
    rw [this]; omega
  unfold State.translate
  rw [p.cur, hs, p.launch]
  simp only [h1, h2, h3]
  rw [if_neg (by simp; omega)]
  cases k <;> rfl

theorem at_own (o : Nat) (h : o < 2 ^ 32) : (0xFFFFFF0000000000 + BitVec.ofNat 64 o : Word).toNat = 0xFFFFFF0000000000 + o := by
  rw [BitVec.toNat_add, BitVec.toNat_ofNat, show (0xFFFFFF0000000000 : Word).toNat = 0xFFFFFF0000000000 from rfl]; omega
theorem at_page (b o : Nat) (h : b + o < 0x10000) : (BitVec.ofNat 64 b + BitVec.ofNat 64 o : Word).toNat = b + o := by
  rw [BitVec.toNat_add, BitVec.toNat_ofNat, BitVec.toNat_ofNat]; omega

theorem placed_regs (l : List Word) : Placed (regs l) := ⟨rfl, rfl, rfl, rfl⟩

/-- Blocks and lanes at the scratchpad's start. -/
theorem test_meets_blocks : BlocksAt (regs [0xFFFFFF0000000000]) .f64 0xFFFFFF0000000000 none .store (fun b => .scr 0 (64 * b)) ∧
    (∀ b < 8, ∀ c < 8, b ≠ c → overlaps (.scr 0 (64 * b)) 64 (.scr 0 (64 * c)) 64 = false) := by
  refine ⟨⟨by decide, fun b hb _ => ⟨?_, ?_, ?_, trivial⟩⟩, by decide⟩
  · exact (placed_regs _).locate_own _ _ _ _ (at_own _ (by omega)) (by omega)
  · simp [InRange]; omega
  · simp [AlignedTo]
theorem test_meets_element_lanes : LanesAt (regs [0xFFFFFF0000000000, 8]) .i64 none (fun j => 0xFFFFFF0000000000 + BitVec.ofNat 64 j * 8) .load
    (fun j => .scr 0 (8 * j)) ∧ someOn (regs []) .i64 none = true ∧ Ty.isByteLane .i64 = true := by
  refine ⟨fun j hj _ => ⟨?_, ?_, trivial⟩, by decide +kernel, rfl⟩
  · have : Ty.lanes .i64 = 64 := by decide
    have h : (0xFFFFFF0000000000 + BitVec.ofNat 64 j * 8).toNat = 0xFFFFFF0000000000 + 8 * j := by
      have e : BitVec.ofNat 64 j * 8 = BitVec.ofNat 64 (8 * j) := by
        apply BitVec.eq_of_toNat_eq
        rw [BitVec.toNat_mul, BitVec.toNat_ofNat, BitVec.toNat_ofNat, show (8 : Word).toNat = 8 from rfl]; omega
      rw [e]; exact at_own _ (by omega)
    show State.checkAt _ _ 8 8 _ = _
    unfold State.checkAt
    rw [if_neg (by rw [h]; simp [Nat.add_mod])]
    exact (placed_regs _).locate_own _ _ _ _ h (by omega)
  · have : Ty.lanes .i64 = 64 := by decide
    have : Ty.width .i64 = 64 := by decide
    simp [InRange]; omega
theorem test_meets_fresh (l : List Word) : Fresh (regs l) := by intro q _; simp [State.l1Byte, State.l1At, regs, base, State.upd]; rfl
theorem test_meets_indices : lane (vecs [{}]) .i64 0 5 = 0 ∧ State.isPoison (((vecs [{}]).v 0).descOf (laneBlock .i64 5)) = false ∧ 5 < Ty.lanes .i64 := by
  decide +kernel
theorem test_meets_no_lane : (∀ b < 8, blockOn (vecs []) .f64 (some (2, false)) b = false) ∧ blockOn (vecs []) .f64 (some (1, false)) 0 = true ∧
    blockOn (vecs []) .f64 (some (1, false)) 1 = false := by decide +kernel

/-! #### Tasks -/

theorem exists_of_some {α : Type} {x : Option α} (h : x.isSome = true) : ∃ w, x = some w := Option.isSome_iff_exists.mp h

theorem test_meets_record : (regs []).translate 0 1 0x8000 .store = .ok 0x108000 ∧ (regs []).translate 0 1 0x8040 .store = .ok 0x108040 ∧
    (regs []).translate 0 1 0x8080 .store = .ok 0x108080 ∧ (regs []).slot.rid.pool = none :=
  ⟨of_ok (by decide +kernel), of_ok (by decide +kernel), of_ok (by decide +kernel), rfl⟩
theorem test_meets_at_rest : AtRest base ∧ ¬AtRest busy ∧ base.slot.run = .running := by unfold AtRest; decide +kernel

/-- The task's next line begins with an `rgn` of input g1 (R67). -/
def beforeRgn (l : List Word) : State := { (regs l).upd (fun x => { x with pc := 0x1001 }) |>.storeFetch (groups 0x06000000 0 2) with
  } |>.upd (fun x => { x with pc := 0x1000 })

theorem test_meets_suspension : (beforeRgn [0xFFFFFF0000000100]).nextRgn = some (2, 0) ∧ base.nextRgn = none ∧
    (beforeRgn []).slot.csr.tcause.getLsbD 63 = false := by decide +kernel
theorem test_meets_suspension_calm : Calm (beforeRgn [0x2000]) ∧ AtRest (beforeRgn []) :=
  ⟨calm_bare _ (by decide +kernel), by unfold AtRest; decide +kernel⟩
theorem test_meets_continuation : ∃ w, (let r := contOf (beforeRgn [0xFFFFFF0000000100]) 2 0 3 2 0xFFFFFF0000000100
    (beforeRgn [0xFFFFFF0000000100]).writeRecord 0 (beforeRgn []).slot.rid r.1 r.2) = some w := exists_of_some (by decide +kernel)
theorem test_meets_empty_word : (Store.get false (beforeRgn []).tags (State.scrKey 0 0x100 / 4) == decide (1 = 1)) = false ∧
    (Store.get false (beforeRgn []).tags (State.scrKey 0 0x100 / 4) == decide (2 = 1)) = true := by decide +kernel
theorem test_meets_join_cell : CellAt (regs [0x2000]) 0x2000 0x102000 ∧ wordAt (regs []) 0x102000 8 = 0 := by
  refine ⟨⟨by decide, by decide, of_ok (by decide +kernel), by decide⟩, by decide +kernel⟩
theorem test_meets_cells : cellDown 1 1 = 0 ∧ cellDown 2 1 % 2 ^ 40 ≠ 0 ∧ cellUp 0 = 1 := by decide
theorem test_meets_no_cell : (regs []).translate 0 1 0x20000 .store = .error ⟨6, 0x20000⟩ ∧ (0xFFFFFF0000000100#64).toNat / 2 ^ 32 = 0xFFFFFF00 :=
  ⟨of_error (by decide +kernel), by decide⟩
theorem test_meets_finish : base.slot.head.team.toNat % 65536 = 0 ∧ base.entryOf base.cur = none ∧ base.slot.head.parent = 0 ∧ base.waiters = [] ∧
    (∃ r, base.readRecord 0 base.slot.rid = some r) ∧ ∃ w, base.writeRecord 0 base.slot.rid {} [] = some w :=
  ⟨by decide +kernel, by decide +kernel, rfl, rfl, exists_of_some (by decide +kernel), exists_of_some (by decide +kernel)⟩

/-- A record that may be placed lies at 0x9000: version 1, ready, kind `k`, at 0x4000. -/
def spawnable (k : Nat) : State := { regs [0x9000, 7] with
  mem := [(0x109001, 0x40), (0x109010, BitVec.ofNat 8 (1 + 16 * k)), (0x109013, 0x10)].map (fun e => (e.1, e.2))
  clusters := [(0, { launch := 1, poolSize := 2 })] }

theorem test_meets_spawn : (let h (k : Nat) := Head.ofBytes (((spawnable k).settleRange 0x109000 64).peekBytes 0x109000 64)
    placeable (h 0) [0, 1] = true ∧ placeable (h 2) [2] = true ∧ placeable (h 2) [0, 1] = false ∧ placeable (h 1) [1] = true ∧
      (h 1).live = 0) := by decide +kernel
theorem test_meets_spawn_record : ∃ r, ((spawnable 0).filled 0x9000).readRecord 0 ⟨1, 0x9000, none⟩ = some r ∧
    ∃ w, ((spawnable 0).filled 0x9000).writeRecord 0 ⟨1, 0x9000, none⟩ { r.1 with parent := 0 } [] = some w := by
  obtain ⟨r, h⟩ := exists_of_some (x := ((spawnable 0).filled 0x9000).readRecord 0 ⟨1, 0x9000, none⟩) (by decide +kernel)
  refine ⟨r, h, exists_of_some ?_⟩
  have : r = (((spawnable 0).filled 0x9000).readRecord 0 ⟨1, 0x9000, none⟩).getD ({}, []) := by rw [h]; rfl
  rw [this]; decide +kernel
theorem test_meets_pool : 0 < ((spawnable 1).clusterAt 0).poolSize ∧ Store.find? ((spawnable 1).clusterAt 0).pool 0 = none ∧
    State.entriesUsed ((spawnable 2).clusterAt 0) < 512 ∧ (spawnable 1).slot.stores = 0 ∧ (spawnable 1).slot.head.kind ≠ 2 ∧
    ((spawnable 1).filled 0x9000 |>.clusterAt 0).launch = (spawnable 1).slot.rid.launch := by decide +kernel
theorem test_meets_target_out : 2 ^ 20 ≤ (0x100000#64).toNat ∧ 767 < (768#64).toNat % 1024 := by decide

/-! #### Teams, queues, domains, the horizon -/

theorem test_meets_no_team : base.slot.head.spec = false ∧ base.teamOf base.cur = none ∧ 1 ≤ ((regs [65535]).g 1).toNat ∧
    ((regs [65535]).g 1).toNat ≤ 65535 ∧ (teamsOf base).all (fun t => t.id != 5) = true ∧ (teamsOf base).length < 64 := by decide +kernel
theorem test_meets_tjoin_member : (∃ T, (teamsOf teamed).find? (fun t => t.id == 5) = some T ∧ T.members.getLsbD 2 = false ∧
    ∀ j < 2, T.members.getLsbD j = true) := by
  refine ⟨_, rfl, ?_⟩; decide +kernel
theorem test_meets_member : ∃ T, Member teamed T 0 ∧ T.members ≠ 0 ∧ Store.get 0 T.lead 0 = 1 ∧ rounds T = 0 := by
  refine ⟨_, ⟨by decide +kernel, rfl, by decide +kernel⟩, ?_⟩; decide +kernel
theorem test_meets_queue : (let s : State := { regs [9] with clusters := [(0, { launch := 1, queues := 1, fifo := [(0, [7])] })] }
    (s.clusterAt 0).launch = s.slot.rid.launch ∧ (s.clusterAt 0).queues.getLsbD 0 = true ∧ s.queueOf 0 = 7 :: [] ∧ s.queueOf 1 = [] ∧
      (s.queueOf 0).length < 512 ∧ s.slot.stores = 0) := by decide +kernel
theorem test_meets_parked : (let x := (base.upd (fun y => { y with expired := true })).slot
    x.expired = true ∧ x.region.sealed = false ∧ x.cnt = {} ∧ base.entryOf base.cur = none ∧ ¬Owed base base.nextMsg base.cur) := by
  unfold Owed; decide +kernel
theorem test_meets_park_record : ∃ w, (let x := (base.upd (fun y => { y with expired := true })).slot
    base.writeRecord 0 x.rid (State.contHead x x.region.pc x.region.gin x.region.lcin.toNat (x.region.pred.toNat / 2) x.region.isRgn 3 5 0)
      x.region.vals) = some w := exists_of_some (by decide +kernel)
theorem test_meets_domains : (let s : State := { regs [3] with launches := [(1, { id := 1, domains := [3] })] }
    3 ∈ (s.launchAt s.slot.rid.launch).domains ∧ ¬(4 ∈ (s.launchAt s.slot.rid.launch).domains) ∧ s.lag = false ∧ s.flight = []) := by decide +kernel

/-- The entry of a timestamped task of key 9, and that task alone in the module with the L of its cluster. -/
def entryOf (st : EntryState) : Entry :=
  { id := 0, rid := ⟨1, 0x8000, none⟩, head := { pc := 0x1000, flags := 0x10000822, key := 9 }, vals := [], st := st }
def timedTask (e : Entry) (l : Option Key) : State := { regs [0x2000, 5] with clusters := [(0, { launch := 1, entries := [e], serial := 1, ll := l })] }
  |>.upd (fun x => { x with head := { x.head with flags := 0x10000822 }, tkey := 9 })

theorem test_meets_horizon : (let s := timedTask (entryOf .running) none
    timeField (s.clusterAt 0).ll = 2 ^ 64 - 1 ∧ s.slot.head.spec = true ∧ min (s.g 2).toNat s.slot.tkey.toNat = 5) := by decide +kernel

theorem test_meets_alone : (let s := timedTask (entryOf .running) none; Alone s 0 (entryOf .running) ∧ s.slotRunning (entryOf .running).rid = some s.cur ∧
    (entryOf .running).rid = s.slot.rid) := by
  refine ⟨⟨?_, ?_, rfl, rfl, ?_⟩, ?_, rfl⟩ <;> decide +kernel
theorem test_meets_abort_other : (let s := timedTask { entryOf .ready with rid := ⟨1, 0x9000, none⟩ } none
    Alone s 0 { entryOf .ready with rid := ⟨1, 0x9000, none⟩ } ∧ (s.launchAt 1).id = (s.launchAt 1).id) := by
  refine ⟨⟨?_, ?_, rfl, rfl, ?_⟩, rfl⟩ <;> decide +kernel

/-! #### The matrix engine -/

theorem test_meets_matrix : Idle base ∧ base.slot.own.getLsbD 0 = false ∧ (base.upd (fun x => { x with own := 1 })).slot.own.getLsbD 0 = true ∧
    ((60 : Nat) + 3 ≤ 63 ∧ (28 : Nat) + 3 ≤ 31) := ⟨⟨rfl, rfl, rfl, by decide +kernel⟩, by decide +kernel⟩
theorem test_meets_mwr : (∀ b < 8, State.isPoison (((vecs [{}]).slot.vr 0).descOf b) = false ∧ formatAccepted .f32 (((vecs [{ desc := 0x00080008000800080008000800080008 }]).slot.vr 0).descOf b) = true) := by
  decide +kernel
theorem test_meets_mcvt : autoScale .i8 ((List.range 64).map (fun _ => Num.unpack Num.f32 0x3F800000)) = some (-6) := by decide +kernel

/-- The task owns a0 and has a panel of 64 columns of i8 ones at unit 0; row and column blocks in its scratchpad. -/
def paneled : State := { (regs [0xFFFFFF0000000000, 0, 64]).upd (fun x => { x with
  own := 1
  panels := [(0, { data := (List.range 64).map (fun k => (k, 1)), desc := (List.range 64).map (fun k => (k, 3)), sp := false })] }) with
  scrDesc := (List.range 64).map (fun k => (k, 3)) }

theorem placed_paneled : Placed paneled := ⟨rfl, rfl, rfl, rfl⟩

theorem test_meets_blocks_matrix : BlocksOk paneled [0xFFFFFF0000000000, 0, 64] .load
    (fun p n => 0xFFFFFF0000000000 + BitVec.ofNat 64 p * 0 + BitVec.ofNat 64 n * 64) 1 64 (fun _ n => .scr 0 (64 * n)) := by
  refine ⟨by simp, fun i hi j hj => ⟨?_, ?_, ?_⟩⟩
  · have : i = 0 := by omega
    subst this
    exact placed_paneled.locate_own _ _ _ _ (by rw [← at_own (64 * j) (by omega)]; congr 1; simp; apply BitVec.eq_of_toNat_eq; simp; omega) (by omega)
  · simp [InRange]; omega
  · simp [AlignedTo]
theorem test_meets_panel : (∃ P, Store.find? paneled.slot.panels 0 = some P ∧ panelGood .i8 P) ∧ 1 ≤ (1 : Nat) ∧
    formatAccepted .i8 (paneled.descAt (.scr 0 0)) = true := by
  refine ⟨⟨_, rfl, ?_⟩, by decide, by decide +kernel⟩
  unfold panelGood; decide +kernel
theorem test_meets_tile : BlocksOk paneled [0xFFFFFF0000000000, 0] .store (tileAt paneled 1 2) 64 4 (fun _ k => .scr 0 (64 * k)) := by
  refine ⟨by simp, fun i hi j hj => ⟨?_, ?_, ?_⟩⟩
  · exact placed_paneled.locate_own _ _ _ _ (by
      rw [← at_own (64 * j) (by omega)]; congr 1) (by omega)
  · simp [InRange]; omega
  · simp [AlignedTo]
theorem test_meets_kblock : State.isZeroBlock 0x8000 = true ∧ State.isZeroBlock 3 = false ∧ productVal .i8 2 3 = some (.fin false 6 0) ∧
    nanP Num.f32 0x7FC00000 = true ∧ productVal .f16 0x7C00 0x3C00 = some (.inf false) ∧ productVal .f16 0x7C00 0 = none ∧
    Num.unpack Num.f32 0x3F800000 = .fin false (2 ^ 23) (-23) := by decide +kernel
/-- 1 + 2 × 3 = 7 (R204). -/
theorem test_kblock : macBlock .i8 false 0x3F800000 (3, [2]) (3, [3]) = 0x40E00000 := by decide +kernel

/-! #### Copies, gather, streams -/

theorem cur_regs (l : List Word) : (regs l).cur = 0 := rfl

theorem resident_page (l : List Word) (va : Word) (n : Nat) (h : va.toNat + n ≤ 0x10000) : Resident (regs l) va n := by
  intro i hi
  right
  refine ⟨⟨1, 0, 16, 0x100017⟩, ?_, by decide, by decide⟩
  have h1 : (va + BitVec.ofNat 64 i).toNat / 2 ^ 16 = 0 := by
    rw [BitVec.toNat_add, BitVec.toNat_ofNat]; omega
  have h2 : ((regs l).coreAt ((regs l).cur / 2)).tlb = [⟨1, 0, 16, 0x100017⟩] := by
    rw [cur_regs]; exact (placed_regs l).tlb
  rw [h2]
  simp only [List.find?_cons, List.find?_nil]
  have h3 : (regs l).slot.rid.launch = 1 := rfl
  rw [h3, h1]; rfl
theorem copy_ready : CopyReady (regs [0x2000, 0x3000, 64]) := ⟨calm_bare _ (by decide +kernel), settled_regs _, rfl⟩
theorem test_meets_span : Span (regs [0x2000, 0x3000, 64]) 0x2000 64 .store (fun i => .glob (0x102000 + i)) ∧
    Clear 64 (fun i => .glob (0x102000 + i)) 64 (fun i => .glob (0x103000 + i)) := by
  refine ⟨⟨fun i hi => by simp [InRange]; omega, .inr ⟨by decide, by decide, by decide, resident_page _ _ _ (by decide), fun i hi => ⟨_, ?_, rfl⟩⟩⟩, ?_⟩
  · have h := at_page 0x2000 i (by omega)
    have := (placed_regs [0x2000, 0x3000, 64]).translate_page (BitVec.ofNat 64 0x2000 + BitVec.ofNat 64 i) .store (by omega)
    rw [h, ← Nat.add_assoc] at this
    exact this
  · intro i hi j hj h; simp at h; omega
theorem test_meets_span_window : Span (regs []) 0xFFFFFF0000000100 16 .load (fun i => .scr 0 (0x100 + i)) :=
  ⟨fun i hi => by simp [InRange]; omega, .inl ⟨0, 0x100, false, of_ok (by decide +kernel), fun _ _ => rfl⟩⟩
theorem test_meets_barrier : (let s : State := { regs [0x2000, 0x3000, 64, 0xFFFFFF0000000200] with scr := [(0x200, 64)] }
    leNat (s.readLocs (.scr 0 0x200) 8) = 64) ∧
    (regs []).window 0 0xFFFFFF0000000200 8 .store = .ok (some (0, 0x200, false)) := ⟨by decide +kernel, of_ok (by decide +kernel)⟩
theorem test_meets_element : ElementAt (regs []) 0x3004 4 .load (.glob 0x103004) ∧
    indexAt ({ regs [] with scr := [(0x100, 0xFF), (0x101, 0xFF), (0x102, 0xFF), (0x103, 0xFF)] } : State) (fun i => .scr 0 (0x100 + i)) 4 0 = -1 :=
  ⟨⟨by decide, by decide, resident_page _ _ _ (by decide), _, (placed_regs _).translate_page 0x3004 .load (by decide), by decide, rfl⟩, by decide +kernel⟩
/-- A copy of four bytes, a gather of one element, run to their end (R242, R411). -/
theorem test_copy : (match exec (.cpl 1 2 3 0 0) (regs [0x2004, 0x1122334455667788, 4]) with
    | .next t => t.peekBytes 0x102003 6
    | _ => []) = [0, 0x44, 0x33, 0x22, 0x11, 0] := by decide +kernel
theorem test_gather : (match exec (.gth .z32 1 2 3 0 0 false 0 0) { regs [0xFFFFFF0000000200, 0x3000, 0xFFFFFF0000000100] with scr := [(0x100, 2)], mem := [(0x103008, 0x5A)] } with
    | .next t => t.readLocs (.scr 0 0x200) 4
    | _ => []) = [0x5A, 0, 0, 0] := by decide +kernel

/-- A stream of three tiles of 64 bytes at 0x2000 into two slots, as its descriptor, and the task that starts it with a ring
at its scratchpad's start. -/
def streamed : State := { regs [0, 0xFFFFFF0000000000, 0xFFFFFF0000000800] with
  scr := [(0x801, 0x20), (0x808, 64), (0x80C, 1), (0x818, 64), (0x820, 3), (0x824, 2)], mem := [(0x102000, 7), (0x102040, 8), (0x102080, 9)] }
def streamBytes : List Byte := streamed.readLocs (.scr 0 0x800) 64

theorem placed_streamed : Placed streamed := ⟨rfl, rfl, rfl, rfl⟩

theorem test_meets_stream : (readStream streamBytes).isSome = true ∧ Store.find? streamed.streams 0 = none ∧
    streamed.slot.run = .running ∧ streamed.waiters = [] ∧ 0 + (128 + 2 * (1 * 64)) ≤ streamed.slot.head.scratch.toNat / 2 ^ 16 * 1024 := by decide +kernel
theorem test_meets_stream_tile : ∀ y, readStream streamBytes = some y → TileAt streamed y 0 (fun o => 0x102000 + o) := by
  intro y hy
  have h : readStream streamBytes = some { rid := y.rid, sid := y.sid, out := y.out, base := 0x2000, rowbytes := 64, rows := 1, rowstride := 0, tilestride := 64, count := 3, slots := 2, nu := 0, dom := y.dom, core := y.core, ring := y.ring } := by
    have h0 : (readStream streamBytes).map (fun y => ({ rid := y.rid, sid := y.sid, out := y.out, base := 0x2000, rowbytes := 64, rows := 1, rowstride := 0, tilestride := 64, count := 3, slots := 2, nu := 0, dom := y.dom, core := y.core, ring := y.ring } : Stream)) = readStream streamBytes := by decide +kernel
    rw [hy] at h0; rw [hy]; exact h0.symm
  rw [hy] at h
  have hx := Option.some.inj h
  intro o ho _
  have e : o = 0 := by rw [hx] at ho; simp at ho; omega
  subst e
  refine ⟨by decide, by decide, ?_, ?_⟩
  · have : y.base + BitVec.ofNat 64 0 * y.tilestride + BitVec.ofNat 64 (0 / y.rowbytes) * y.rowstride + BitVec.ofNat 64 (0 % y.rowbytes) = 0x2000 := by rw [hx]; rfl
    rw [this]; exact resident_page _ _ _ (by decide)
  · have : y.base + BitVec.ofNat 64 0 * y.tilestride + BitVec.ofNat 64 (0 / y.rowbytes) * y.rowstride + BitVec.ofNat 64 (0 % y.rowbytes) = 0x2000 := by rw [hx]; rfl
    rw [this]
    have h2 : y.out = false := by rw [show y.out = (((readStream streamBytes).map (·.out)).getD true) by rw [hy]; rfl]; decide +kernel
    rw [h2]
    exact placed_streamed.translate_page 0x2000 .load (by decide)

/-! #### Larkspur -/

/-- A variable with q = 0, x = 0, slope 1, quantum 1, as `qdef` leaves it at tick length 1. -/
def ramp : Var := { d1 := 0x3FF0000000000000, dq := 0x3F800000, dtmin := 1, mf := 0x10, tn := 1 }

theorem test_meets_crossing : Num.unpack Num.f64 ramp.d1.toNat = .fin false (2 ^ 52) (-52) ∧ ramp.method = 0 ∧
    Num.unpack Num.f64 ramp.q.toNat = .fin false 0 (-1074) ∧ Num.unpack Num.f32 ramp.dq.toNat = .fin false (2 ^ 23) (-23) ∧
    Num.unpack Num.f64 0x7FF0000000000000 = .inf false := by decide +kernel
/-- From 0 at slope 1 the quantum 1 is passed after one tick (R295, R296). -/
theorem test_crossing : (Var.next 0x3FF0000000000000 ramp).tn = 1 ∧ (Var.next 0x3FF0000000000000 ramp).storm = 0 ∧
    (Var.next 0x3FE0000000000000 ramp).tn = 2 ∧ ramp.xAt 0x3FF0000000000000 3 = 0x4008000000000000 := by decide +kernel

/-- Larkspur of cluster 0 stopped, with variable 3; a head for events at 0x9000, a row table at 0xA000. -/
def larked (l : Lark) : State := { regs [3, 0x3FF0000000000000, 0x9000] with
  mem := [(0x109001, 0x40), (0x109010, 0x21), (0x109013, 0x10)], clusters := [(0, { launch := 1, lark := l, poolSize := 2 })] }
def stoppedLark : Lark := { h := some 0x3FF0000000000000, table := 0x9000, tmpl := 0x9000, deps := some (0xA000, 0xB000, 2, 0), launch := 1, vars := [(3, ramp)] }

theorem test_meets_stopped : Stopped (larked stoppedLark) ∧ Names (larked stoppedLark) 3 3 := by
  refine ⟨⟨⟨rfl, rfl, by decide +kernel, by decide +kernel⟩, ?_, ?_, rfl, ?_, ?_, rfl⟩, ⟨by decide, by decide, by decide, by decide, ?_, ?_⟩⟩ <;> decide +kernel
theorem placed_larked (l : Lark) : Placed (larked l) := ⟨rfl, rfl, rfl, rfl⟩
theorem test_meets_event_head : eventHead (larked stoppedLark) 0x9000 := by
  refine ⟨0x109000, ?_, ?_⟩
  · exact (placed_larked _).translate_page 0x9000 .load (by decide)
  · decide +kernel
theorem test_meets_fields : fieldGood (larked stoppedLark) 6 0x3F800000 ∧ ¬fieldGood (larked stoppedLark) 6 0x7F800000 ∧
    fieldGood (larked stoppedLark) 9 2 ∧ ¬fieldGood (larked stoppedLark) 9 3 ∧ ¬fieldGood (larked stoppedLark) 7 0 := by
  refine ⟨?_, ?_, ?_, ?_, ?_⟩ <;> (simp only [fieldGood]; decide)
theorem test_meets_storm : (Var.isHeld { ramp with mf := 0x50 }) = true ∧ (Var.isHeld ramp) = false ∧
    (larkOf (larked { stoppedLark with h := none })).h = none ∧ (larkOf (larked stoppedLark)).deps.isSome = true ∧
    openCrossings (larkOf (larked stoppedLark)) = [1] := by decide +kernel
theorem test_meets_qbase : 0x0010000000000000 ≤ (0x3FF0000000000000#64).toNat ∧ ¬(0x0010000000000000 ≤ (0#64).toNat) ∧
    (0x9000#64).toNat % 64 = 0 ∧ (0x9001#64).toNat % 64 ≠ 0 := by decide

/-- An irrevocable task of a phase at key 9, whose event `ev` is. -/
def firmEntry (phase : Nat) (ev : Event) : Entry := { id := 0, rid := ⟨1, 0x8000, none⟩, head := { pc := 0x1000, flags := 0x10000022, key := 9, tail := BitVec.ofNat 64 (phase * 2 ^ 56) }, vals := [], st := .running, firm := true, ev := ev }
def firmTask (phase : Nat) (ev : Event) (run : Nat) : State := { larked stoppedLark with
  clusters := [(0, { launch := 1, lark := { stoppedLark with run := run }, entries := [firmEntry phase ev], ll := some ⟨9, phase, 0, (0, 0)⟩ })] }
  |>.upd (fun x => { x with head := (firmEntry phase ev).head, tkey := 9 })

theorem test_meets_firm : Firm (firmTask 0 .other 1) (firmEntry 0 .other) 0 ∧ Firm (firmTask 2 .other 1) (firmEntry 2 .other) 2 := by
  refine ⟨⟨⟨rfl, rfl, ?_, ?_⟩, ?_, ?_, ?_, ?_, rfl, ?_, ?_, ?_, rfl⟩, ⟨⟨rfl, rfl, ?_, ?_⟩, ?_, ?_, ?_, ?_, rfl, ?_, ?_, ?_, rfl⟩⟩ <;> decide +kernel
theorem test_meets_row : (firmTask 0 .other 1).readRow 0 3 = .ok [] ∧ ((firmTask 2 .other 1).clusterAt 0).ll = some ((firmTask 2 .other 1).entryKey 0 (firmEntry 2 .other)) :=
  ⟨of_ok (by decide +kernel), by decide +kernel⟩
theorem test_meets_firm_event : (firmEntry 1 (.reeval 3 [] 1)).ev ≠ .other ∧ (larkOf (firmTask 1 (.reeval 3 [] 1) 1)).run = 1 ∧
    ((ramp.cross 0x3FF0000000000000 9).isHeld = false ∧ ramp.tx.toNat ≤ 9) := by decide +kernel

/-! #### Phlox -/

/-- Column 0 is the clause (x0 or x1), column 1 the clause (not x0), column 2 the clause (x2). -/
def clauses (cols : List (Nat × Nat)) (rows : Store PRow) (trail : List Nat) (level : Nat) : State := { regs [] with
  clusters := [(0, { launch := 1, phlox := { cols := cols.map (fun e => (e.1, { cells := BitVec.ofNat 1024 e.2 })), rows := rows, trail := trail, level := level } })] }
def sat3 : State := clauses [(0, 5), (1, 2), (2, 16)] [] [] 0

theorem test_meets_phlox : PhloxReady sat3 ∧ (∀ e ∈ sat3.phlox.cols, ¬isConflict sat3.phlox e.2) := by
  refine ⟨⟨rfl, ?_, ?_, ?_, ?_⟩, ?_⟩
  · decide +kernel
  · decide +kernel
  · decide +kernel
  · decide +kernel
  · unfold isConflict; decide +kernel
/-- A clause (x0) with x0 false is in conflict. -/
theorem test_meets_conflict : (let s := clauses [(0, 1)] [(0, { val := false, level := 0, reason := 0, nr := true, tpos := 0 })] [0] 0
    PhloxReady s ∧ firstConflict s.phlox 0) := by
  refine ⟨⟨rfl, ?_, ?_, ?_, ?_⟩, ⟨[], _, [], rfl, ?_, by simp⟩⟩
  · decide +kernel
  · decide +kernel
  · decide +kernel
  · decide +kernel
  · unfold isConflict; decide +kernel
theorem test_meets_phlox_operands : (Store.find? sat3.phlox.cols 3).isSome = false ∧ (Store.find? sat3.phlox.cols 2).isSome = true ∧
    valueOf sat3.phlox 0 = none ∧ (∀ e ∈ sat3.phlox.cols, e.2.fmt = false) ∧ sat3.phlox.level = 0 ∧ (511 < 512 ∧ 1023 < 1024 ∧ 4095 < 4096) := by decide +kernel
/-- Propagation: not x0, x2 in the first wave, x1 in the second; every clause is then true (R353, R354). -/
theorem test_pprop : (match exec (.pprop 1) sat3 with
    | .next t => (t.g 1, t.phlox.trail, [0, 1, 2].map (valueOf t.phlox))
    | _ => (0, [], [])) = (BitVec.ofNat 64 (2 * 2 ^ 62 + 2 * 2 ^ 32 + 3 * 2 ^ 16), [0, 2, 1], [some false, some true, some true]) := by decide +kernel

/-! #### In flight -/

/-- The task with messages in flight. -/
def flying (l : List Msg) : State := { regs [] with flight := l.zipIdx.map (fun e => (e.2, e.1)) }
def atom1 (rel : Bool) : AtomOp := { sid := 0, pc := 0x1000, op := .add, ty := .z64, dest := 1, loc := .glob 0x102000, s := 5, cmp := 0, acq := false, rel := rel }
def store1 (rel done : Bool) : StoreOp :=
  { sid := 0, ctr := some .st, pieces := [{ loc := .glob 0x102000, bytes := [1, 2, 3, 4] }], rel := rel, late := if rel then [0] else [], todo := if done then [] else [0] }
def load1 (todo : List Nat) (got : List Answer) : LoadOp := { sid := 0, pc := 0x1000, va := 0x2000, dest := .g 1 .i32, parts := [⟨.glob 0x102000, 4, 0⟩], todo := todo, got := got }

theorem settled_flying (l : List Msg) : Settled (flying l) := settled_bare _ ⟨rfl, rfl, rfl, rfl, rfl⟩
theorem test_meets_atom : Untimed (flying [.atom (atom1 false)]) ∧ (flying [.atom (atom1 false)]).msg 0 = some (.atom (atom1 false)) ∧
    InRange (.glob 0x102000) 8 ∧ AlignedTo (.glob 0x102000) 8 ∧ (flying [.store (store1 false false), .atom (atom1 true)]).msg 1 = some (.atom (atom1 true)) :=
  ⟨rfl, rfl, by simp [InRange], by simp [AlignedTo], rfl⟩
theorem test_meets_release_waits : Waits (flying [.store (store1 false false), .atom (atom1 true)]) 1 0 ∧ ¬Waits (flying [.atom (atom1 true)]) 0 0 := by
  unfold Waits; decide +kernel
theorem test_meets_red : (flying [.red ⟨0, some .rpe, .add, .z64, .glob 0x102000, 5, true⟩]).msg 0 = some (.red ⟨0, some .rpe, .add, .z64, .glob 0x102000, 5, true⟩) := rfl
theorem test_meets_contributor : (let s : State := { flying [.red ⟨0, some .rpe, .add, .z64, .glob 0x102000, 5, false⟩] with regLines := [0x408], updLines := [(0x408, .add, .z64)] }
    s.regLines.contains (0x102000 / 1024) = true ∧ (Store.find? s.updLines (State.updKey (s.cacheOf 0) (0x102000 / 1024))).isSome = true ∧
      s.cacheOf 0 ∉ Store.get [] s.contrib (0x102000 / 1024) ∧ State.deviceOf 0x102000 = s.dev) := by decide +kernel
theorem test_meets_cell_arrival : (flying [.cell ⟨0, some .rpe, .glob 0x102000, .inl (5, 1), false, 0, false⟩]).msg 0 = some (.cell ⟨0, some .rpe, .glob 0x102000, .inl (5, 1), false, 0, false⟩) := rfl
theorem test_meets_load_request : (flying [.load (load1 [0] [])]).msg 0 = some (.load (load1 [0] [])) ∧ (load1 [0] []).parts[0]? = some ⟨.glob 0x102000, 4, 0⟩ ∧
    (flying [.load (load1 [] [⟨0, 7, 0, false, 0⟩])]).msg 0 = some (.load (load1 [] [⟨0, 7, 0, false, 0⟩])) ∧ (load1 [0] []).todo ≠ [] := ⟨rfl, rfl, rfl, by decide⟩
/-- An answer is extended by its type and lowers the counter (R101, R222). -/
theorem test_load_return : (match exec (.loadReturn 0) ((flying [.load (load1 [] [⟨0, 0xFFFFFFFE, 0, false, 0⟩])]).upd (fun x => { x with cnt := { x.cnt with ld := 1 } })) with
    | .next t => (t.g 1, t.slot.cnt.ld, t.flight.length)
    | _ => (0, 9, 9)) = (-2, 0, 0) := by decide +kernel
theorem test_meets_store_registration : (flying [.store (store1 false false)]).msg 0 = some (.store (store1 false false)) ∧ (store1 true false).rel = true ∧
    (flying [.store (store1 false true)]).msg 0 = some (.store (store1 false true)) ∧ InRange (.glob 0x102000) 4 := ⟨rfl, rfl, rfl, by simp [InRange]⟩
/-- The core has the word of its store in its cache, and registers it. -/
def owning : State := { flying [.store (store1 false false)] with regLines := [0x408], l1 := [(0x40800, { st := .owned, data := 0x04030201, reg := false })] }
theorem test_meets_ownership : owning.regLines.contains (0x40800 / 256) = true ∧ Store.find? owning.owners 0x40800 = none ∧
    owning.l1At (owning.cacheOf 0) 0x40800 = some { st := .owned, data := 0x04030201, reg := false } ∧ 0x102000 / 4 = 0x40800 ∧
    owning.contrib = [] ∧ owning.updLines = [] := by decide +kernel
theorem test_meets_spin : ((base.upd (fun x => { x with spin := some ⟨1, 0xFFFFFF0000000100, none⟩ })).slotAt 0).spin = some ⟨1, 0xFFFFFF0000000100, none⟩ := by decide +kernel
theorem test_meets_reuse_home : (flying [.clock 0 3 1]).msg 0 = some (.clock 0 3 1) ∧ (flying [.quota 0 1 3 none true]).msg 0 = some (.quota 0 1 3 none true) ∧
    (flying [.clock 0 3 1, .quota 0 1 3 none true]).msg 1 = some (.quota 0 1 3 none true) ∧ (flying [.honesty 3 true]).msg 0 = some (.honesty 3 true) ∧
    (63 : Int) + 1 = 64 := ⟨rfl, rfl, rfl, rfl, rfl⟩

/-- A record of the template at 0x9000, on its way to cluster 0. -/
def place1 (counted timed : Bool) (join : Word) (m : Option (Head × List Word)) : Placement :=
  { sid := 0, launch := 1, target := 0, record := 0x9000, timed := timed, message := m, join := join, counted := counted }
def placing (p : Placement) : State := { flying [.place p] with
  mem := [(0x109001, 0x40), (0x109010, if p.timed then 0x21 else 1), (0x109013, 0x10)], clusters := [(0, { launch := 1, poolSize := 2 })] }

theorem test_meets_placement : (placing (place1 false false 0 none)).msg 0 = some (.place (place1 false false 0 none)) ∧
    (∀ e ∈ (placing (place1 true false 0 none)).flight, 0 ≤ e.1) ∧ (place1 true false 0 none).target / 1024 = (placing (place1 true false 0 none)).dev ∧
    ((placing (place1 true false 0 none)).clusterAt 0).launch = 1 := by
  refine ⟨rfl, by simp, by decide, by decide +kernel⟩
theorem test_meets_placed_record : (∃ r, (placing (place1 true false 0 none)).readRecord 0 ⟨1, 0x9000, none⟩ = some r) ∧
    (∃ r, (placing (place1 true true 0 none)).readRecord 0 ⟨1, 0x9000, none⟩ = some r) ∧
    ∃ w, (placing (place1 true false 0 none)).writeRecord 0 ⟨1, 0x9000, none⟩ {} [] = some w :=
  ⟨exists_of_some (by decide +kernel), exists_of_some (by decide +kernel), exists_of_some (by decide +kernel)⟩
theorem test_meets_delivery : (place1 true false 0 (some ({}, [7]))).message = some ({}, [7]) ∧ ([7] : List Word).length ≤ 16 ∧
    Store.find? ((placing (place1 true false 0 (some ({}, [7])))).clusterAt 0).pool 0 = none := by decide +kernel
theorem test_meets_increment : (let s := placing (place1 false false 0x2000 none); ¬Waits s 0 0 ∧ (place1 false false 0x2000 none).join ≠ 0 ∧ 0x102000 % 8 = 0) := by
  unfold Waits; decide +kernel
theorem test_meets_arrival : (flying [.arrive 0 0x102000 1]).msg 0 = some (.arrive 0 0x102000 1) ∧ ¬Waits (flying [.arrive 0 0x102000 1]) 0 0 ∧
    ¬Owed (flying [.arrive 0 0x102000 1]) 0 0 ∧ Owed (placing (place1 false false 0x2000 none)) 1 0 := by
  unfold Waits Owed; exact ⟨rfl, by decide +kernel, by decide +kernel, by decide +kernel⟩
theorem test_meets_registration : (flying [.reg 0 1 0x40 0xFFFFFF0000000100 0 0]).msg 0 = some (.reg 0 1 0x40 0xFFFFFF0000000100 0 0) ∧
    Store.get false full.tags 0x40 = true ∧ Store.get false (flying []).tags 0x40 = false := ⟨rfl, by decide +kernel, by decide +kernel⟩

/-! #### Dispatch -/

/-- A ready task of the record at 0x9000, and slot 1 of core 0 free. -/
def ready1 : Ready := { rid := ⟨1, 0x9000, none⟩, level := 3, timed := false, key := (0, 0, 0), bound := none, fresh := false, seq := 0, since := 0, resumed := false }
def waitingTask : State := { regs [] with
  mem := [(0x109001, 0x40), (0x109010, 1), (0x109013, 0x10)], clusters := [(0, { launch := 1, ready := [ready1] })]
  launches := [(1, { id := 1, st := .running, tvec := 0x3000 })] }

theorem test_meets_dispatch : (waitingTask.slotAt 1).run = .idle ∧ (waitingTask.clusterAt 0).launch ≠ 0 ∧ (waitingTask.launchAt 1).st = .running ∧
    (waitingTask.launchAt 1).reserved = none ∧ (waitingTask.clusterAt 0).ready = [ready1] ∧ waitingTask.copies = [] ∧
    (∃ r, waitingTask.readRecord 0 ready1.rid = some r) ∧ (waitingTask.slotAt 0).run ≠ .idle := by
  refine ⟨by decide +kernel, by decide +kernel, by decide +kernel, by decide +kernel, by decide +kernel, by decide +kernel,
    exists_of_some (by decide +kernel), by decide +kernel⟩
/-- The task starts at its record's address with the launch's trap vector (R63, R100). -/
theorem test_dispatch : (match exec (.slotDispatch 1) waitingTask with
    | .next t => ((t.slotAt 1).run, (t.slotAt 1).pc, (t.slotAt 1).csr.tvec, (t.slotAt 1).head.flags, t.peekBytes 0x109010 1)
    | _ => (.idle, 0, 0, 0, [])) = (.running, 0x4000, 0x3000, 0x10000002, [2]) := by decide +kernel

/-! #### Events of Larkspur, Aster and the horizon -/

/-- Larkspur of cluster 0 runs to the end 100, with the crossing of variable 3 next, and a message for variable `v`. -/
def runningLark (run : Nat) (l : List Msg) (es : List Entry) : State := { larked stoppedLark with
  clusters := [(0, { launch := 1, poolSize := 2, lark := { stoppedLark with run := run, end_ := 100, halt := 0, join := some 0 }, entries := es })]
  flight := l.zipIdx.map (fun e => (e.2, e.1)) }

theorem test_meets_release : (let l := ((runningLark 1 [] []).clusterAt 0).lark
    l.run = 1 ∧ l.versions = [] ∧ (3, ramp) ∈ l.vars ∧ ramp.defined = true ∧ (l.var 3).tn.toNat ≤ l.end_.toNat ∧ (l.var 3).rel = false ∧ l.window = 0) ∧
    State.entriesUsed ((runningLark 1 [] []).clusterAt 0) < 512 := by decide +kernel
theorem test_meets_template : ∃ h, TemplateAt (runningLark 1 [] []) 0 1 0x9000 h ∧ LowestFree ((runningLark 1 [] []).clusterAt 0) 0 := by
  refine ⟨_, ⟨⟨0x109000, ?_, rfl⟩, ?_⟩, ⟨?_, ?_, ?_⟩⟩
  · have p : Placed (runningLark 1 [] []) := ⟨rfl, rfl, rfl, rfl⟩
    exact p.translate_page 0x9000 .load (by decide)
  · decide +kernel
  · decide +kernel
  · decide +kernel
  · simp
theorem test_meets_event_message : (runningLark 1 [.event 0 3 7] []).msg 0 = some (.event 0 3 7) ∧ (runningLark 1 [.event 0 4 7] []).msg 0 = some (.event 0 4 7) ∧
    (((runningLark 1 [] []).clusterAt 0).lark.var 3).defined = true ∧ (((runningLark 1 [] []).clusterAt 0).lark.var 4).defined = false :=
  ⟨rfl, rfl, by decide +kernel, by decide +kernel⟩
theorem test_meets_run_end : ((runningLark 2 [] []).clusterAt 0).lark.run = 2 ∧ ((runningLark 2 [] []).clusterAt 0).lark.pending = [] ∧
    ((runningLark 2 [] []).clusterAt 0).lark.join = some 0 ∧ (firmEntry 0 (.crossing 3 none)).ev ≠ .other := by decide +kernel
/-- The crossing is started at its time, as variable id, phase 0 (R299, R301). -/
theorem test_crossing_release : (match exec (.crossingRelease 0) (runningLark 1 [] []) with
    | .next t => (t.clusterAt 0).entries.map (fun e => (e.head.key, e.head.tail, e.vals, (t.clusterAt 0).lark.var 3 |>.rel))
    | _ => []) = [(1, 3, [3, 1], true)] := by decide +kernel

/-- A finished task with a byte in its buffer, in record 0 of the pool of cluster 0. -/
def buffering (st : EntryState) : Entry := { id := 0, rid := ⟨1, 0, some (0, 0)⟩, head := { pc := 0x1000, flags := 0x10000822, key := 9 }, vals := [], st := st, buf := [(0x4080, { bytes := [(3, 0x55)] })] }
def finished (st : EntryState) (hh ll : Option Key) (l : List Msg) : State := { regs [] with
  clusters := [(0, { launch := 1, entries := [buffering st], serial := 1, hh := hh, ll := ll, poolSize := 1, pool := [(0, ((buffering st).head, []))] })]
  flight := l.zipIdx.map (fun e => (e.2, e.1)) }

theorem test_meets_commit : Only (finished .done none none []) 0 (buffering .done) ∧ keyLtO (some ⟨9, 0, 0, (0, 0)⟩) ((finished .done none none []).clusterAt 0).hh = true ∧
    BufferOk (buffering .done).buf ∧ (∀ b ∈ (buffering .done).buf, b.1 < 2 ^ 46) ∧ (finished .done none none []).allocOf (buffering .done).rid = none ∧
    (finished .done none none []).flight = [] ∧ (∀ x ∈ (finished .done none none []).clusters, x.2.lark.run = 0 ∧ x.2.lark.pending = []) := by
  refine ⟨⟨?_, ?_, rfl, rfl, rfl, ?_, rfl, rfl⟩, ?_, ⟨?_, ?_⟩, ?_, ?_, rfl, ?_⟩
  · decide +kernel
  · decide +kernel
  · decide +kernel
  · decide +kernel
  · simp [Rising, buffering]
  · simp [Rising, buffering]
  · decide
  · decide +kernel
  · simp [finished]
/-- The byte is written at the commit, and the entry is free (R331). -/
theorem test_commit : (match exec (.asterCommit 0 0) (finished .done none none []) with
    | .next t => (t.peekBytes 0x102002 3, (t.clusterAt 0).entries.length, (t.clusterAt 0).aster.commits, (t.clusterAt 0).pool.length)
    | _ => ([], 9, 0, 9)) = ([0, 0x55, 0], 0, 1, 0) := by decide +kernel
theorem test_meets_abort : (finished .ready none none [.abort 0 0 none]).msg 0 = some (.abort 0 0 none) ∧
    ({ finished .ready none none [.abort 0 0 none] with lag := true } : State).lag = true := ⟨rfl, rfl⟩
theorem test_meets_restart : (let s := timedTask (entryOf .aborted) (some ⟨9, 0, 0, (0, 0)⟩)
    s.entryAt 0 0 = some (entryOf .aborted) ∧ (s.clusterAt 0).ll = some ⟨9, 0, 0, (0, 0)⟩) ∧
    ∃ w, (timedTask (entryOf .aborted) none).writeRecord 0 (entryOf .aborted).rid (entryOf .aborted).head [] = some w :=
  ⟨by decide +kernel, exists_of_some (by decide +kernel)⟩
theorem test_meets_promotion : (timedTask (entryOf .running) (some ⟨9, 0, 0, (0, 0)⟩)).slotRunning (entryOf .running).rid = some 0 := by decide +kernel
theorem test_meets_combine : (base.clusterAt 5).entries = [] ∧ (base.clusterAt 5).lark.run = 0 ∧ base.flight = [] ∧ base.peers = [] ∧
    (buffering .done).late = false := by decide +kernel

/-! #### Soft errors, pages, engines -/

theorem test_meets_soft_error : ({ base with l1 := [(0x40800, { st := .valid, data := 7 })] } : State).l1At 0 0x40800 = some { st := .valid, data := 7 } ∧
    Store.find? paneled.slot.panels 0 ≠ none := by decide +kernel
theorem test_meets_soft_error_entry : ((finished .ready none none []).clusterAt 0).entries[0]? = some (buffering .ready) := by decide +kernel
/-- An uncorrectable error in a scratchpad poisons its block and is counted (R397). -/
theorem test_soft_error : (match exec (.softErrorDetected (.scratch 0 0x100) false) base with
    | .next t => (Store.get 0 t.scrDesc 4, countOf t 1 0 true, countOf t 1 0 false, t.msix)
    | _ => (0, 0, 0, [])) = (0x01FF, 1, 0, [64]) := by decide +kernel

/-- A launch with a table of one page of 2 MiB at 0x200000, its tables at 0x110000 to 0x113000. -/
def mapped (e : Nat) : State := { regs [] with
  mem := [(0x110000, 1), (0x110001, 0x10), (0x110002, 0x11), (0x111000, 1), (0x111001, 0x20), (0x111002, 0x11), (0x112000, 1), (0x112001, 0x30), (0x112002, 0x11),
    (0x113008, BitVec.ofNat 8 e), (0x11300A, 0x20)]
  launches := [(1, { id := 1, root := 0x110000, st := .running })] }
theorem test_meets_page : LeafAt (mapped 7) 1 0x200000 0x113008 0x200007 21 ∧ 0x113008 + 8 ≤ 0x200000 := by
  unfold LeafAt; decide +kernel
theorem test_meets_quiet : Quiet (mapped 7) ∧ (frameAt 0x200007 21 = 0x200000) ∧ 0x200007 / 2 ^ 5 % 2 = 0 ∧ (mapped 7).inDomain 0 = true := by
  unfold Quiet; decide +kernel

def copying (done : Nat) (fault : Option (Word × Bool)) : Copy :=
  { sid := 0, rid := ⟨1, 0x8000, none⟩, i := .cp 1 2 3 0 0 0, pc := 0x1000, a := 0x2000, b := 0x3000, c := 256, d := 0, dom := 0, inst := 0, done := done, fault := fault }
def copyingTask (done : Nat) (fault : Option (Word × Bool)) : State := { regs [] with copies := [(0, copying done fault)] }

theorem test_meets_midway : Midway (copyingTask 128 none) 0 (copying 128 none) ∧ pieceLen (copying 128 none) = 128 := by
  unfold Midway; refine ⟨⟨rfl, rfl, ?_⟩, ?_⟩ <;> decide +kernel
theorem test_meets_piece : EndAt (copyingTask 128 none) (copying 128 none) none 0x2000 (pieceDst (copying 128 none)) 128 .store (fun i => .glob (0x102080 + i)) := by
  have p : Placed (copyingTask 128 none) := ⟨rfl, rfl, rfl, rfl⟩
  have e : pieceDst (copying 128 none) = BitVec.ofNat 64 0x2080 := by decide +kernel
  rw [e]
  refine ⟨fun i hi => by simp [InRange]; omega, .inr ⟨rfl, by decide, by decide, by decide, ?_, fun i hi => ⟨_, ?_, rfl⟩⟩⟩
  · intro i hi
    right
    refine ⟨⟨1, 0, 16, 0x100017⟩, ?_, by decide, by decide⟩
    have h1 : (BitVec.ofNat 64 0x2080 + BitVec.ofNat 64 i : Word).toNat / 2 ^ 16 = 0 := by rw [at_page _ _ (by omega)]; omega
    have h2 : ((copyingTask 128 none).coreAt ((copying 128 none).sid / 2)).tlb = [⟨1, 0, 16, 0x100017⟩] := p.tlb
    rw [h2]
    simp only [List.find?_cons, List.find?_nil]
    rw [show (copying 128 none).rid.launch = 1 from rfl, h1]; rfl
  · have h := at_page 0x2080 i (by omega)
    have := p.translate_page (BitVec.ofNat 64 0x2080 + BitVec.ofNat 64 i) .store (by omega)
    rw [h, ← Nat.add_assoc] at this
    exact this
theorem test_meets_accepted : (let s := base.upd (fun x => { x with mq := [{ i := .mclr 0 }], pq := [{ i := .plvl 1 }] })
    (s.slotAt 0).mq = [{ i := .mclr 0 }] ∧ (s.slotAt 0).pq = [{ i := .plvl 1 }] ∧ base.straight = true ∧ base.lag = false) := by decide +kernel
theorem test_meets_stream_transfer : (let x : Stream := { rid := ⟨1, 0x8000, none⟩, sid := 0, out := false, base := 0x2000, rowbytes := 64, rows := 1, rowstride := 0, tilestride := 64, count := 3, slots := 2, nu := 0, dom := 0, core := 0, ring := 0, todo := [(0, false)] }
    Store.find? ({ regs [] with streams := [(0, x)] } : State).streams 0 = some x ∧ x.ring + (128 + x.slots * (x.rows * x.rowbytes)) ≤ 0x40000) := by decide +kernel
theorem test_meets_engine_fault : (copyingTask 0 (some (0x20000, false))).copies = [(0, copying 0 (some (0x20000, false)))] ∧
    ((copyingTask 0 none).translate 0 1 0x20000 .load).isOk = false ∧ canonical 0x20000 = true := by decide +kernel

/-! #### The front end -/

/-- The bytes of a command: opcode, bytes 1 to 3, launch, and the completion address in host memory. -/
def command (op : Nat) (rest : List Nat) (id : Nat) (tail : List Byte) : List Byte :=
  (BitVec.ofNat 8 op :: rest.map (BitVec.ofNat 8)) ++ leBytes id 4 ++ tail ++ List.replicate (48 - tail.length) 0 ++ leBytes (2 * 2 ^ 40 + 0x40) 8
/-- A launch command for one cluster, with one seed, table at 0xC000, root cell at 0xD000. -/
def launchCmd : List Byte := command 1 [0, 1, 0] 7 (leBytes 0 8 ++ leBytes 0x110000 8 ++ leBytes 0x3000 8 ++ leBytes 0xD000 8 ++ leBytes 0xC000 8 ++ leBytes 1 4)
def cells (pa : Nat) (bs : List Byte) : List Host.Cell := (bs.zipIdx.map (fun e => (pa + e.2, e.1))).filter (fun c => c.2 != 0)
/-- Queue 0 runs with one entry, `b`, at offset 0x120000; launch 5 is `l`. -/
def queued (b : List Byte) (l : Option Launch) : State := { regs [] with
  boot := { mode := 1 }, queues := [(0, { base := 0x120000, state := 1, producer := 1 })], mem := cells 0x120000 b
  launches := match l with | some l => [(l.id, l)] | none => [] }

theorem test_meets_queue_states : (queued launchCmd none).boot.mode = 1 ∧ ((queued launchCmd none).queueAt 0).state = 1 ∧ ((queued launchCmd none).queueAt 1).state = 0 ∧
    12 ≤ (12 : Nat) ∧ ¬(2 ^ (0 + 4) < (16#32 - 0).toNat) ∧ 2 ^ (0 + 4) < (17#32 - 0).toNat := by decide +kernel
theorem test_meets_entry : entryAddr (queued launchCmd none) 0 = some 0x120000 ∧ entryAddr (queued launchCmd none) 1 = none := by
  constructor
  · unfold entryAddr; exact if_pos (by decide +kernel)
  · unfold entryAddr; exact if_neg (by decide +kernel)
theorem test_meets_command : CommandAt (queued launchCmd none) 0 launchCmd ∧ LaunchGood launchCmd ∧ Machine.fieldAt launchCmd 4 4 = 7 := by
  refine ⟨⟨0x120000, test_meets_entry.1, by decide, ⟨by decide, by decide, by decide, ?_, ?_⟩, ⟨?_, ?_, ?_, ?_⟩⟩, ?_, ?_⟩
  · decide +kernel
  · decide +kernel
  · decide +kernel
  · decide +kernel
  · decide +kernel
  · decide +kernel
  · unfold LaunchGood; decide +kernel
  · decide +kernel
theorem test_meets_plain : (∀ op ∈ [2, 3, 4, 5], PlainGood (command op [0, 0, 0] 5 []) op) ∧ ¬LaunchGood (command 9 [0, 0, 0] 5 []) := by
  refine ⟨fun op h => ⟨?_, ?_, fun i h1 h2 => ?_⟩, by unfold LaunchGood; simp only []; decide +kernel⟩
  · revert op; decide +kernel
  · revert op; decide +kernel
  · have : ∀ op ∈ [2, 3, 4, 5], ∀ i < 56, 8 ≤ i → (command op [0, 0, 0] 5 []).getD i 0 = 0 := by decide +kernel
    exact this op h i h2 h1
/-- The launch waits for its turn, and the entry has been taken (R430, R431). -/
theorem test_launch : (match exec (.launch 0) (queued launchCmd none) with
    | .next t => ((t.queueAt 0).consumer, (t.launchAt 7).st, (t.launchAt 7).rootCell, (t.launchAt 7).seeds, (t.launchAt 7).complete)
    | _ => (0, .ended, 0, 0, 0)) = (1, .waiting, 0xD000, 1, 2 * 2 ^ 40 + 0x40) := by decide +kernel
/-- A command for a launch that is not there is rejected with status 3 (R426, R429). -/
theorem test_reject : (match exec (.endLaunch 0) (queued (command 4 [0, 0, 0] 5 []) none) with
    | .next t => (hostOr t (2 * 2 ^ 40 + 0x40) 4, hostOr t (2 * 2 ^ 40 + 0x44) 4, t.msix)
    | _ => (0, 0, [])) = (5, 3, [0]) := by decide +kernel

/-- Launch 1 of the task, on cluster 0. -/
def launch1 (st : LaunchState) : Launch := { id := 1, root := 0x110000, tvec := 0x3000, st := st, origin := .queue 0, want := 1, grant := [0], seeds := 1, seedTab := 0xC000, rootCell := 0xD000, rootPa := 0x10D000, complete := 2 * 2 ^ 40 + 0x40, closed := true }
theorem test_meets_known : Known (queued launchCmd (some (launch1 .running))) 1 (launch1 .running) ∧ Live (queued launchCmd (some (launch1 .running))) 1 ∧
    wordAt (queued launchCmd (some (launch1 .running))) 0x10D000 8 % 2 ^ 40 = 0 := by
  refine ⟨⟨?_, rfl, rfl, rfl, ?_, ⟨by decide, by decide, by decide, by decide⟩, ?_⟩, ⟨launch1 .running, ?_, by decide⟩, ?_⟩
  · decide +kernel
  · simp [Rising]; decide +kernel
  · unfold EnginesDone; decide +kernel
  · decide +kernel
  · decide +kernel

/-- Launch 7 waits with its seed, a record of kind 0 at 0x9000, and its clusters free. -/
def beginning : State := { regs [] with
  boot := { mode := 1 }
  mem := cells 0x109000 (leBytes 0x4000 8 ++ leBytes 0 8 ++ leBytes 0x10000001 4) ++ cells 0x10C000 (leBytes 0x9000 8 ++ leBytes 0 8 ++ leBytes 0xFFFF 2 ++ leBytes 0x100 2)
  cores := [(0, { tlb := [⟨1, 0, 16, 0x100017⟩, ⟨7, 0, 16, 0x100017⟩] })], clusters := []
  launches := [(7, { (launch1 .waiting) with id := 7, grant := [], rootPa := 0, closed := false })] }

theorem test_meets_turn : Turn beginning { (launch1 .waiting) with id := 7, grant := [], rootPa := 0, closed := false } := by
  refine ⟨fun q _ x hx _ => ?_, .inl rfl⟩
  simp [beginning] at hx
  rw [hx]; exact .inl (Nat.le_refl _)
theorem test_meets_lowest : LowestClusters beginning [0] ∧ LowestDomains beginning [] ∧ LowestClusters beginning (List.range 768) := by
  have free : ∀ p, (beginning.clusterAt p).launch = 0 := fun p => rfl
  refine ⟨⟨by simp, ?_, ?_⟩, ⟨by simp, by simp, by simp⟩, ⟨?_, ?_, ?_⟩⟩
  · intro p hp; simp at hp; subst hp; exact ⟨by decide, rfl⟩
  · intro p _ _ hp c hc; simp at hp hc; omega
  · exact List.pairwise_lt_range
  · intro p hp; exact ⟨by simpa using hp, free p⟩
  · intro p hp _ h; simp at h; omega
theorem test_meets_seed : ∃ b, SeedAt beginning 0 { (launch1 .waiting) with id := 7 } 0 b := by
  refine ⟨_, 0x10C000, of_ok (by decide +kernel), ?_, rfl⟩
  decide +kernel

/-- The entry of `beginning`'s seed table. -/
def seed1 : List Byte := beginning.peekBytes 0x10C000 32
theorem test_meets_seed_good : SeedGood beginning 0 7 1 [] seed1 := by
  refine ⟨.inl ?_, ?_, .inr ⟨?_, ?_, ?_, ?_, ?_, ?_, ?_, ?_, 0x109000, ?_, ?_⟩⟩
  all_goals first | decide +kernel | exact of_ok (by decide +kernel)
/-- It begins on the lowest free cluster with its root cell at 1 (R431, R433). -/
theorem test_launch_begin : (match exec (.launchBegin 7) beginning with
    | .next t => ((t.launchAt 7).st, (t.launchAt 7).grant, (t.clusterAt 0).launch, wordAt t 0x10D000 8)
    | _ => (.ended, [], 0, 0)) = (.dispatching, [0], 7, 1) := by decide +kernel

/-- Launch 1 dispatches its seed. -/
def dispatching : State := { beginning with
  launches := [(1, { (launch1 .dispatching) with closed := false })], clusters := [(0, { launch := 1 })] }
theorem test_meets_dispatching : (∃ r, dispatching.readRecord 0 ⟨1, 0x9000, none⟩ = some r) ∧
    (∃ b, SeedAt dispatching 0 { (launch1 .dispatching) with closed := false } 0 b) ∧ 0x10D000 % 8 = 0 := by
  refine ⟨exists_of_some (by decide +kernel), ⟨_, 0x10C000, of_ok (by decide +kernel), by decide +kernel, rfl⟩, by decide⟩
def gang1 : Gang := { pc := 0x4000, area := 0x9000, grant := none, members := 2, prio := 3, scr := 0, dom := 0 }
/-- Its cluster has seven free cores: the task holds core 0. -/
theorem test_meets_gang : GoesTo dispatching { (launch1 .running) with primary := [gang1] } gang1 0 ∧ ¬Fits dispatching 0 8 ∧
    (freeOn dispatching 0).take 2 = [1, 2] := by
  refine ⟨⟨⟨?_, ?_⟩, 0, rfl, by simp⟩, ?_, ?_⟩
  · decide +kernel
  · decide +kernel
  · unfold Fits; decide +kernel
  · decide +kernel
theorem test_meets_preempting : Runs base 1 0 ∧ ¬Runs base 2 0 ∧ NothingRuns base 2 ∧ base.slot.preReq = false ∧ base.slot.region.sealed = false := by
  refine ⟨⟨_, rfl, by decide +kernel, by decide +kernel⟩, ?_, ⟨?_, ?_, ?_, ?_⟩, by decide +kernel, by decide +kernel⟩
  · rintro ⟨x, h, _, hx⟩
    have : (Store.find? base.slots 0).map (fun x => x.rid.launch) = some 1 := by decide +kernel
    rw [h] at this; simp at this; omega
  · decide +kernel
  · decide +kernel
  · unfold EnginesDone; decide +kernel
  · intro m hm; exact absurd hm (by rw [show base.flight = [] from rfl]; simp)
def saved1 : Saved := { addr := 0, clusters := [{ launch := 1 }], waiters := [], allocs := [], copies := [], streams := [], tasks := [], mail := [] }
theorem test_meets_asleep : Asleep { (launch1 .preempted) with saved := some saved1 } saved1 := by
  refine ⟨rfl, rfl, rfl, rfl, rfl, rfl, rfl, ?_⟩
  decide

/-- Entry 0 of the table, with the launch command as its template. -/
def ticking (enable : Bool) (last : Nat) (waiting : Option Nat) (l : Option Launch) : State := { queued launchCmd l with
  tt := [(0, { period := 1000, offset := 500, template := 0x120000, enable := enable, last := last, waiting := waiting })] }
theorem test_meets_table : ((ticking true 0 none none).ttAt 0).enable = true ∧ ((ticking true 0 none none).ttAt 0).offset.toNat + 0 * 1000 < 2 ^ 64 ∧
    firingId launchCmd 3 = 3 ∧ firingId launchCmd 0 = 0 ∧ ((ticking false 0 (some 3) none).ttAt 0).waiting = some 3 ∧
    1000 ≤ ((ticking false 0 none none).ttAt 0).period.toNat := by decide +kernel
theorem test_meets_template_command : TemplateCmd (ticking true 0 none none) ((ticking true 0 none none).ttAt 0) launchCmd ∧ MayIssue (ticking true 0 none none) launchCmd 3 := by
  refine ⟨⟨⟨?_, ?_, ?_, ?_, ?_⟩, ?_, ⟨?_, ?_, ?_, ?_⟩⟩, ?_, ?_, ?_⟩
  all_goals first | decide +kernel | (unfold LaunchGood; decide +kernel) | (rintro ⟨l, h, _⟩; simp [ticking, queued, Store.find?] at h)
theorem test_meets_instance : Store.find? (ticking true 1 none (some (launch1 .running))).launches 1 = some (launch1 .running) ∧
    (launch1 .running).st ≠ .ended := by decide +kernel
/-- The first firing lies at the offset; the clock is set to it (R438). -/
theorem test_fire : (match exec (.ttFire 0) { ticking true 0 none none with tt := [(0, { period := 1000, offset := 500, template := 0x120000, enable := true, k := 3 })] } with
    | .next t => (t.clock, (t.ttAt 0).k, (t.ttAt 0).last, (t.launchAt 3).st)
    | _ => (0, 0, 0, .ended)) = (3500, 4, 3, .waiting) := by decide +kernel

/-! #### Boot, management, links, host, debugger -/

def starting (stage images : Nat) : State := { State.reset with boot := { stage := stage, images := images, agreed := [(0, (1, 0)), (3, (1, 1))] } }

theorem test_meets_start : (starting 0 0).boot.mode = 0 ∧ (starting 0 0).boot.failed = false ∧ (starting 3 0).boot.stage = 3 ∧ (starting 4 0).boot.stage = 4 ∧
    Store.find? (starting 4 0).boot.agreed 0 = some (1, 0) ∧ Store.find? (starting 4 0).boot.agreed 3 = some (1, 1) ∧ (starting 2 8).boot.images = 8 ∧
    ¬((queued launchCmd none).boot.mode = 0) := by decide +kernel
theorem test_meets_negotiation : Negotiates (starting 4 0) .host ∧ ¬Negotiates (starting 3 0) .host ∧ (1, 0).1 ≤ 1 ∧ (2 : Nat) > 1 := by
  unfold Negotiates; decide +kernel
/-- Stage 4 ends the start: full mode, the count of failed starts cleared (R450, R455). -/
theorem test_boot : (match exec (.bootStageComplete .done) { starting 4 0 with boot := { stage := 4, fails := 2, reason := 6, agreed := [(0, (1, 0)), (3, (1, 1))] } } with
    | .next t => (t.boot.mode, t.boot.fails, t.boot.reason, t.boot.stage)
    | _ => (9, 9, 9, 9)) = (1, 0, 0, 5) := by decide +kernel
/-- The third failed start in a row ends in minimal mode at the next reset (R455). -/
theorem test_minimal : (match exec .bootTimeout { starting 1 0 with boot := { stage := 1, fails := 2 } } with
    | .next t => (match exec .moduleReset t with
      | .next u => (t.boot.failed, t.boot.fails, u.boot.mode, u.boot.fails)
      | _ => (false, 0, 0, 0))
    | _ => (false, 0, 0, 0)) = (true, 3, 2, 3) := by decide +kernel
theorem test_meets_measurement : ((6 : Fin 16).val < 6 ∨ (starting 2 0).boot.stage < 2) = False ∧ (5 : Fin 16).val < 6 ∧ (starting 2 0).boot.down.getLsbD 4 = false := by
  decide +kernel

/-- A flit of sequence 1 with its own CRC. -/
def flit1 (l : List Delivery) : Flit := { bytes := leBytes 1 8, crc := crc64 (leBytes 1 8), vc := 0, packets := l }
theorem test_meets_flit : Takes base 0 ∧ Intact (base.portAt 0) (flit1 []) ∧ ¬Intact (base.portAt 0) { flit1 [] with crc := 0 } ∧ (18 ≤ 18) := by
  unfold Takes Intact; decide +kernel
/-- CRC-64 of "123456789" with the polynomial of ECMA-182 (log 25). -/
theorem test_crc : crc64 [0x31, 0x32, 0x33, 0x34, 0x35, 0x36, 0x37, 0x38, 0x39] = 0x6C40DF5F0B497347 := by decide +kernel
def write1 (op : Option (AmoOp × Ty × Nat)) : RemoteWrite := { pa := 0x102000, data := [5, 0, 0, 0], desc := none, op := op, kind := 0, module_ := 1, cluster := 0, core := 0, slot := 0 }
def receiving (x : Port) : State := { base with ports := [(0, x)] }
theorem test_meets_delivery_write : (flit1 [.write (write1 none)]).packets = [.write (write1 none)] ∧ (write1 none).pa / 2 ^ 42 = base.dev ∧
    (write1 none).pa / 2 ^ 40 % 4 = 0 ∧ base.dev < 1024 := by decide +kernel
theorem test_meets_retraining : 16 ≤ (({ failed := 16 } : Port)).failed ∧ ((receiving { failed := 16 }).portAt 0).up = true ∧
    ((receiving { retraining := true }).portAt 0).retraining = true ∧ ((receiving { retraining := true }).portAt 0).unsent = [] ∧
    ((receiving { retraining := true }).portAt 1).up = true := by decide +kernel
theorem test_meets_lost : Store.find? (flying [.load (load1 [0] [])]).flight 0 = some (.load (load1 [0] [])) ∧ (load1 [0] []).acq = false ∧
    Store.find? (flying [.store (store1 false false)]).flight 0 = some (.store (store1 false false)) := ⟨rfl, rfl, rfl⟩
theorem test_meets_handover : ((receiving { arrived := [(write1 none, some 0)], enable := true, hi := 0x200000 }).portAt 0).arrived = (write1 none, some 0) :: [] ∧
    (write1 none).pa + 128 ≤ 2 ^ 52 ∧ (0#64).toNat ≤ (write1 none).pa % 2 ^ 40 ∧ (write1 none).pa % 2 ^ 40 < (0x200000#64).toNat ∧
    (write1 (some (.add, .z32, 0))).pa % (Ty.width .z32 / 8) = 0 := by decide +kernel
/-- A remote addition is performed at the home and logged (R470, R472). -/
theorem test_handover : (match exec (.remoteWriteHandover 0) { receiving { arrived := [(write1 (some (.add, .z32, 0)), some 0)], enable := true, hi := 0x200000 } with mem := [(0x102000, 2)] } with
    | .next t => (t.peekBytes 0x102000 4, (t.portAt 0).head, (t.portAt 0).ring.map (fun e => (e.2.pa, e.2.data)))
    | _ => ([], 0, [])) = ([7, 0, 0, 0], 1, [(0x102000, 7)]) := by decide +kernel
theorem test_meets_host : 0x1000 + 4 ≤ 2 ^ 40 ∧ 2 ^ 40 < 2 ^ 40 + 1 ∧ (base.queueAt 0).lsz < 12 ∧ (base.queueAt 0).vmin < 256 ∧ base.boot.capNow < 2 ^ 32 ∧
    (base.ttAt 0).enable = false ∧ (base.queueAt 0).state = 0 ∧ (1#64).toNat % 2 ^ 32 = 1 ∧ (0x1000000#64).toNat % 2 ^ 32 = (base.queueAt 0).vmaj * 2 ^ 24 := by decide +kernel
/-- A doorbell through the register file of R425 (R427, R460). -/
theorem test_doorbell : (match exec (.registerWrite 0x100010 4 3) base with
    | .next t => ((t.queueAt 0).producer, (t.queueAt 0).state)
    | _ => (0, 9)) = (3, 0) := by decide +kernel
theorem test_meets_debug_write : (base.locate 0 0xFFFFFF0000000100 1 .store = .ok (.scr 0 0x100)) ∧ base.locate 0 0x20000 1 .store = .error ⟨6, 0x20000⟩ ∧
    base.mayPreempt 1 = false ∧ base.entryOf 0 = none ∧ (base.launchAt 1).st = .waiting ∧ (waitingTask.launchAt 1).st = .running :=
  ⟨of_ok (by decide +kernel), of_error (by decide +kernel), by decide +kernel, by decide +kernel, by decide +kernel, by decide +kernel⟩

/-! #### Steps and encoding -/

/-- The slot is to take its turn at a word that `placeWord` has stored. -/
def turning (w : Nat) : State := State.reset.withFetchWord 96 w

theorem test_meets_turn_of : (∃ t, TurnOf (turning 0) t) ∧ ∃ t, TurnOf base t :=
  ⟨⟨_, .inl ⟨0, false, [], by decide +kernel, rfl⟩⟩, ⟨_, .inr ⟨rfl, rfl⟩⟩⟩
theorem test_meets_undisturbed : Undisturbed (({ turning (groups 0x11000C30 0 5) with agenda := [], cur := 0, lag := false } : State).tick) := by
  unfold Undisturbed; decide +kernel
theorem test_meets_line_is : ∃ line, LineIs (({ turning (groups 0x11000C30 0 5) with agenda := [], cur := 0, lag := false } : State).tick) line ∧
    lineReserved line = true ∧ linePairs line = true ∧ parityOk line 0 = true ∧ slotWord line 0 = groups 0x11000C30 0 5 := by
  refine ⟨State.lineWith 0 0 (groups 0x11000C30 0 5), ?_, by decide +kernel, by decide +kernel, by decide +kernel, by decide +kernel⟩
  unfold LineIs
  exact of_ok (by decide +kernel)
theorem test_meets_bad_lines : parityOk (State.lineWith 0 0 1 + 2) 0 = false ∧ lineReserved (State.lineWith 0 0 1 + 2 ^ 495) = false ∧
    parityOk (State.lineWith 0 0 1 + 2 ^ 495) 0 = true ∧ linePairs (State.lineWith 0 0 1 + 2 ^ 504) = false ∧
    lineReserved (State.lineWith 0 0 1 + 2 ^ 504) = true ∧ (decode 0 0).toOption = none := by decide +kernel
theorem test_meets_event : (Instr.hasWord (.slotDispatch 0)) = false ∧ (Instr.hasWord .nop) = true ∧
    ({ base with agenda := [.event .nop false] } : State).agenda = .event .nop false :: [] := ⟨rfl, rfl, rfl⟩
theorem test_meets_encode : (Instr.addi 3 3 5).hasWord = true ∧ (Instr.addi 3 3 5).wf 0 ∧ Guard.none.ok = true := by
  refine ⟨rfl, ?_, rfl⟩; decide +kernel
theorem test_meets_canonical : base.memoryOk = true ∧ ∃ t, step (turning (groups 0x11000C30 0 5)) = .next t := by
  refine ⟨by decide +kernel, ?_⟩
  have h : (match step (turning (groups 0x11000C30 0 5)) with | .next _ => true | _ => false) = true := by decide +kernel
  revert h
  cases step (turning (groups 0x11000C30 0 5)) <;> simp
theorem test_meets_frame : scalarWrites (.add 3 1 2) = some (.g 3) ∧ ∃ t, exec (.add 3 1 2) base = .next t := ⟨rfl, _, rfl⟩

/-! #### Packets, waits at ports, what has been asked for before -/

/-- The rest of the packet has issued: the instruction's end goes past it (R228). -/
theorem test_after : ((base.upd (fun x => { x with after := some 0x1003 })).retire).pc = 0x1003 ∧ base.retire.pc = 0x1001 := by decide +kernel
/-- Messages in flight, of which the slot numbers the next one 9. -/
def sent (l : List Msg) : State := { flying l with nextMsg := 9, clusters := [(0, { launch := 1, queues := 1, teams := [{ id := 1, members := 1, faulted := 0, phase := 0, lead := [], recs := [] }] })] }
theorem test_meets_writing : Writing (sent [.store (store1 false false)]) ∧ (sent [.store (store1 false false)]).queueTrap 0 = none ∧
    (sent [.queue 0 0 5 (some 1)]).queueTrap 0 = none ∧ (sent [.queue 0 0 5 (some 1)]).enqBefore 9 0 0 = true ∧
    (sent [.leave 0 ⟨1, 0x8000, none⟩ 1 0]).leaving = true ∧ (sent [.store (store1 false false)]).leaving = false := by
  unfold Writing; decide +kernel
theorem test_meets_paths : base.pathBusy 0 .core = false ∧ base.pathBusy 0 .copy = false ∧ (flying [.store (store1 false false)]).pathBusy 0 .core = true ∧
    (base.crossed 0 .core .copy).slot.ahead = [] := by decide +kernel
/-- A waiting form keeps the port that it has reached (R228, R216). -/
theorem test_meets_port : full.feWindow .ldf 0xFFFFFF0000000100 8 = .ok (some (0, 0x100, false)) ∧
    (full.upd (fun x => { x with spin := some ⟨1, 0xFFFFFF0000000100, some (3, 0x40)⟩ })).feWindow .ldf 0xFFFFFF0000000100 8 = .ok (some (3, 0x40, true)) :=
  ⟨of_ok (by decide +kernel), of_ok (by decide +kernel)⟩
theorem test_meets_not_late : notLate base 0 {} ∧ ¬notLate ({ base with clusters := [(0, { hh := some ⟨9, 0, 0, (0, 0)⟩ })] } : State) 0 { key := 3 } := by
  constructor
  · intro k hk; exact absurd hk (by rw [show (base.clusterAt 0).hh = none from by decide +kernel]; simp)
  · intro h; exact absurd (h ⟨9, 0, 0, (0, 0)⟩ (by decide +kernel)) (by decide +kernel)
theorem test_meets_firm_named : (∀ x ∈ (firmTask 0 .other 1).allEntries, x.2.rid.launch = 1 → x.2.rid.addr = 0x8000 → x.2.firm = true) := by decide +kernel

theorem test_meets_clock_behind : ClockBehind (flying [.clock 0 3 1, .quota 0 1 3 none true]) 1 0 3 ∧ ¬ClockBehind (flying [.clock 0 3 1]) 0 0 3 := by
  constructor
  · exact ⟨(0, .clock 0 3 1), by simp [flying], by decide, .inl ⟨1, rfl⟩⟩
  · rintro ⟨e, _, h, _⟩; omega
theorem test_meets_arrives : (flying [.store (store1 false false), .atom (atom1 false)]).arrivesLate 1 0 (.glob 0x102000) 8 = true ∧
    (flying [.atom (atom1 false)]).arrivesLate 0 0 (.glob 0x102000) 8 = false ∧ (flying [.load (load1 [0] [])]).partWaits 0 (load1 [0] []) ⟨.glob 0x102000, 4, 0⟩ = false ∧
    (flying [.store (store1 true false)]).pieceWaits 0 (store1 true false) 0 { loc := .glob 0x102000, bytes := [1, 2, 3, 4] } = false ∧
    0 ∈ (store1 true false).late ∧ 0 ∉ (store1 false false).late ∧ (store1 false false).todo ≠ [] ∧ (store1 false true).todo = [] ∧
    (flying [.store (store1 false true)]).msg 0 = some (.store (store1 false true)) := by decide +kernel

/-! #### Slots, runs, errors, engines -/

/-- Both slots of core 0 are idle, slot 0 since later. -/
def idleCore : State := { waitingTask with slots := [(0, { freed := 5 }), (1, { freed := 2 })] }
theorem test_meets_first_slot : (waitingTask.slotAt 0).run ≠ .idle ∧ (waitingTask.slotAt 1).mq = [] ∧ (waitingTask.slotAt 1).pq = [] ∧
    (idleCore.slotAt 0).run = .idle ∧ (idleCore.slotAt 1).freed < (idleCore.slotAt 0).freed := by decide +kernel
/-- The slot that became free first takes the task (R282). -/
theorem test_first_slot : (match exec (.slotDispatch 0) idleCore, exec (.slotDispatch 1) idleCore with
    | .next t, .next u => ((t.slotAt 0).run, (u.slotAt 1).run)
    | _, _ => (.held, .held)) = (.idle, .running) := by decide +kernel
theorem test_meets_ageing : ready1.level < 7 ∧ (∀ y ∈ (waitingTask.clusterAt 0).ready, ready1.since ≤ y.since) := by decide +kernel
theorem test_meets_arrived : ({ stoppedLark with join := none } : Lark).join = none ∧ ({ stoppedLark with arrived := true } : Lark).arrived = true ∧
    ({ stoppedLark with arrived := false } : Lark).arrived = false := by decide +kernel
theorem test_meets_commit_rest : (finished .done none none []).unacked = [] ∧ (∀ x ∈ (finished .done none none []).launches, x.2.sent = none) ∧
    ({ commitStop := some 0 } : Cluster).commitStop = some 0 ∧ ((finished .done none none []).clusterAt 0).commitStop = none ∧
    (buffering .done).rid.pool = some (0, 0) ∧ (buffering .done).head.parent = 0 := by decide +kernel
theorem test_meets_lost_entries : { buffering .running with firm := true }.firm = true ∧ (buffering .running).rid.pool = some (0, 0) ∧
    ({ versions := [⟨3, ⟨9, 0, 0, (0, 0)⟩, 0, ramp⟩] } : Lark).versions[0]? = some ⟨3, ⟨9, 0, 0, (0, 0)⟩, 0, ramp⟩ ∧
    Store.get 0 base.retries 0 = 0 ∧ Store.get 0 ({ base with retries := [(0, 8)] } : State).retries 0 = 8 := by decide +kernel
theorem test_meets_llc_copy : base.llcCopy 0 = none ∧ ∀ d, ({ base with llcSets := [(State.setKey .llc 0 0, [(0, { line := 0, dirty := d })])] } : State).llcCopy 0 = some d := by
  refine ⟨?_, fun d => ?_⟩
  · have : base.llcSets = [] := by decide +kernel
    simp [State.llcCopy, this, Store.get, Store.find?]
  · simp [State.llcCopy, Store.get, Store.find?]
/-- A flit is tried again, and the packet is poisoned after its ninth failure (R397). -/
theorem test_packet : (match exec (.softErrorDetected (.packet 0) false) (flying [.red ⟨0, some .rpe, .add, .z64, .glob 0x102000, 5, true⟩]) with
    | .next t => (Store.get 0 t.retries 0, t.flight.length, t.memDesc.length)
    | _ => (0, 0, 9)) = (1, 1, 0) := by decide +kernel
theorem test_meets_retire : ((base.upd (fun x => { x with mq := [{ i := .mclr 0 }] })).slotAt 0).mq = { i := .mclr 0 } :: [] ∧
    (base.upd (fun x => { x with mq := [{ i := .mclr 0 }] })).allEntries = [] := by decide +kernel
theorem test_meets_engines_idle : EnginesDone base 1 ∧ (∀ e ∈ base.streams, e.2.fault = none) ∧ (∀ e ∈ base.copies, e.2.fault = none) := by
  unfold EnginesDone; decide +kernel
theorem test_meets_far : (copyingTask 0 (some (0x20000, false))).farElement (copying 0 (some (0x20000, false))) = false ∧
    ({ base with copies := [] } : State).farElement { copying 0 none with i := .sct .f32 1 2 3 4 15 false 0 0, data := some [{ at_ := -4, x := 0, poison := none }] } = true := by decide +kernel
/-- A task parked for a page that has no entry. -/
def parked6 : State := { regs [] with waiters := [{ rid := ⟨1, 0x9000, none⟩, pkg := 0, kind := 6, key := 0x20000 }], launches := [(1, { id := 1, root := 0x110000, st := .running })]
                                      mem := [(0x109001, 0x40), (0x109010, 0x65), (0x109013, 0x10)] }
theorem test_meets_parked_engine : parked6.copies = [] ∧ canonical 0x20000 = true ∧ (parked6.launchAt 1).saved = none ∧
    (∃ r, parked6.readRecord 0 ⟨1, 0x9000, none⟩ = some r) := ⟨rfl, by decide, by decide +kernel, exists_of_some (by decide +kernel)⟩

/-! #### Links, debugger, steps -/

theorem test_meets_packets : (flit1 [.load 0x102000 8 3]).packets = [.load 0x102000 8 3] ∧ 0x102000 + 8 ≤ 2 ^ 52 ∧ base.lag = false ∧
    (flit1 [.record 1 0 1 0x9000 none 0]).packets = [.record 1 0 1 0x9000 none 0] ∧ (flit1 [.message 1 0 1 [] [7] 0]).packets = [.message 1 0 1 [] [7] 0] ∧
    (flit1 [.event 3 7]).packets = [.event 3 7] ∧ (flit1 [.refusal 1 2]).packets = [.refusal 1 2] ∧ ({ base with lag := true } : State).lag = true := by decide +kernel
/-- A remote load is answered from the home (R468). -/
theorem test_remote_load : (match exec (.flitReceive 0 (flit1 [.load 0x102000 4 3])) { base with mem := [(0x102000, 5)] } with
    | .next t => (t.outbox, t.peekBytes 0x102000 1)
    | _ => ([], [])) = ([.data 0x102000 [5, 0, 0, 0] 0], [5]) := by decide +kernel
def cell1 : RemoteWrite := { write1 none with cell := some (5, 1), data := List.replicate 32 0 }
theorem test_meets_cell_handover : ((receiving { arrived := [(cell1, none)] }).portAt 0).arrived = (cell1, none) :: [] ∧ cell1.pa % 32 = 0 ∧
    cell1.data.length ≤ 128 ∧ cell1.op = none := by decide +kernel
/-- Another module's arrival at an exact cell (R164). -/
theorem test_cell_handover : (match exec (.remoteWriteHandover 0) (receiving { arrived := [(cell1, none)] }) with
    | .next t => t.peekBytes 0x102000 24
    | _ => []) = [5] ++ List.replicate 15 0 ++ [1, 0, 1, 0, 0, 0, 0, 0] := by decide +kernel
theorem test_meets_drained : base.drained 0 = true ∧ (base.upd (fun x => { x with pq := [{ i := .plvl 1 }] })).slot.pq ≠ [] ∧
    base.snapping 0 = false ∧ base.translate 0 1 0x2000 .load = .ok 0x102000 := ⟨by decide +kernel, by decide +kernel, by decide +kernel, of_ok (by decide +kernel)⟩
/-- A register and a scratchpad byte with its tag (R380). -/
theorem test_debug_read : (match exec (.debugInterfaceRequest (.read 0 (.g 1))) (regs [7]), exec (.debugInterfaceRequest (.read 0 (.tag 0xFFFFFF0000000100))) full with
    | .next t, .next u => (t.readOut, u.readOut)
    | _, _ => ([], [])) = ([[7, 0, 0, 0, 0, 0, 0, 0]], [[1]]) := by decide +kernel

/-- A line of slots 0 and 1 as one packet: `ldf` at slot 0, `addi` at slot 1. -/
def packetLine : Nat :=
  let body := groups 0x49001490 0x00120000 0 + groups 0x11000C30 0 5 * 2 ^ 96
  let par := (List.range 5).foldl (fun x j => x + Instr.popLow (slotWord body j) 96 % 2 * 2 ^ (8 + j)) 0
  body + (29 * 2 ^ 27 + 1 * 2 ^ 24 + par) * 2 ^ 480
/-- The `ldf` waits at an empty word; the `addi` has not issued. -/
def waitingPacket : State := ({ regs [] with mem := cells 0x101000 (leBytes packetLine 64) }).upd (fun x =>
  { x with g := [(9, 0xFFFFFF0000000100)], spin := some ⟨1, 0xFFFFFF0000000100, some (0, 0x100)⟩ })
theorem test_meets_mate : linePairs packetLine = true ∧ (waitingPacket.prepareMate.map (·.2)) = some (.addi 3 3 5) := by decide +kernel
/-- The other member takes effect while the first waits on (R228). -/
theorem test_mate : (match step { waitingPacket with agenda := [.issue 0 false] } with
    | .next t => (t.g 3, t.pc, t.slot.after, t.slot.spin.isSome)
    | _ => (0, 0, none, false)) = (5, 0x1000, some 0x1002, true) := by decide +kernel
theorem test_meets_busy_guard : (flying [.queue 0 0 5 (some 1)]).pBusy 0 1 = true ∧ base.pBusy 0 1 = false ∧ base.pBusy 0 0 = false ∧
    ({ base with agenda := [.act (.accepted 0)] } : State).agenda = .act (.accepted 0) :: [] := by decide +kernel
/-- Firmware reads a counter of errors and clears it (R400). -/
theorem test_act : (match step { base with errors := [(State.errorKey 17 3 true, 6)], agenda := [.act (.readErrors 17 3 true)] } with
    | .next t => countOf t 17 3 true
    | _ => 9) = 0 := by decide +kernel
end Sys2Proof.Tests
end

section
/-! SUPPORT. The words of R44 and their instructions: the word that an encoding lists is the one that the encoder writes,
and the encoder's words are read back (`Word.Statement`). -/

namespace Sys2Proof.Proofs

open Sys2Proof.Machine Sys2Proof.Claims Sys2Proof.Laws

/-! ### Words of formats G and I -/

theorem pack_fG (maj mn a b c d t : Nat) :
    (Encode.fG maj mn a b c d t).pack = word maj mn a b c d (t * 2 ^ 51) := by
  simp [Raw.pack, Encode.fG, word]

theorem pack_fI (maj mn a b t x : Nat) :
    (Encode.fI maj mn a b t x).pack = word maj mn a b 0 0 (t * 2 ^ 51 + x) := by
  simp [Raw.pack, Encode.fI, word, Nat.add_assoc]

/-- A word is an instruction's when its fields are those that the encoder writes for the instruction. -/
theorem means_pack {i : Instr} {r : Raw} (hs : Word.Statement i) (hr : Encode.raw i = some r)
    (hg : ({ r with gs := 0, gp := 0 } : Raw) = r) (hwf : ∀ k, i.wf k) : Means r.pack i := by
  have hw : i.hasWord = true := by rw [Instr.hasWord, hr]; rfl
  have he : encode Guard.none i = r.pack := by
    rw [encode, hr]; exact congrArg Raw.pack hg
  exact fun k => he ▸ hs k Guard.none hw (hwf k) rfl (.inr rfl)

section Means
variable {i : Instr} {maj mn a b c d t x : Nat} (hs : Word.Statement i)
include hs

theorem means_typed (hr : Encode.raw i = some (Encode.fG maj mn a b c d t)) (hwf : ∀ k, i.wf k) :
    Means (word maj mn a b c d (t * 2 ^ 51)) i :=
  pack_fG .. ▸ means_pack hs hr rfl hwf

theorem means_plain (hr : Encode.raw i = some (Encode.fG maj mn a b c d 0)) (hwf : ∀ k, i.wf k) :
    Means (word maj mn a b c d 0) i := by
  simpa using means_typed hs hr hwf

theorem means_typed_imm (hr : Encode.raw i = some (Encode.fI maj mn a b t x)) (hwf : ∀ k, i.wf k) :
    Means (word maj mn a b 0 0 (t * 2 ^ 51 + x)) i :=
  pack_fI .. ▸ means_pack hs hr rfl hwf

theorem means_imm (hr : Encode.raw i = some (Encode.fI maj mn a b 0 x)) (hwf : ∀ k, i.wf k) :
    Means (word maj mn a b 0 0 x) i := by
  simpa using means_typed_imm hs hr hwf

theorem means_field {w lo : Nat} (hr : Encode.raw i = some (Encode.fI maj mn a b t (w * 2 ^ 8 + lo))) (hwf : ∀ k, i.wf k) :
    Means (word maj mn a b 0 0 (t * 2 ^ 51 + w * 256 + lo)) i := by
  rw [Nat.add_assoc]; exact means_typed_imm hs hr hwf

end Means

/-! ### Words that are illegal with reason 5 (R57) -/

/-- The zero fields of the word are zero, no bit is forbidden, and a field out of its range or an operand is what the word
fails on. -/
theorem illegal5_of_skel {r : Raw} {zs : List Nat} {rg cb : Bool} {i : Instr} (hb : r.inRange) (h0 : 0 < r.maj)
    (h1 : r.maj < 255) (hg : r.gs = 0) (hs : Decode.skel r = Decode.mk zs rg cb i) (hz : ∀ z ∈ zs, z = 0)
    (h4 : ∀ k, i.illegal k ≠ some 4) (h5 : rg = false ∨ ∀ k, i.illegal k = some 5) : IllegalWith r.pack 5 := by
  intro k
  have hn : (r.pack == 0 || r.pack == 2 ^ 96 - 1) = false := by
    simp only [Raw.inRange] at hb
    simp only [Raw.pack, Bool.or_eq_false_iff, beq_eq_false_iff_ne]; omega
  have hz' : zs.all (· == 0) = true := by simpa using hz
  have hr : ((!rg || (r.gs == 1 && r.gp == 0)) || i.illegal k == some 5) = true := by
    rcases h5 with h | h
    · simp [h]
    · simp [h k]
  unfold decode
  rw [hn, Raw.unpack_pack hb]
  simp only [Bool.false_eq_true, if_false, hs, Decode.mk, hz']
  rw [if_neg (by simpa using h4 k), if_pos hr]

theorem badType_ne_four (ok : Bool) : Instr.badType ok ≠ some 4 := by cases ok <;> decide

/-- R57: a shift by an immediate above 63. -/
theorem shiftImmediate_illegal (a b : GReg) {n z : Nat} (h5 : 5 ≤ n) (h8 : n ≤ 8) (hz : 63 < z) (hl : z < 2 ^ 32) :
    IllegalWith (word 0x13 n a b 0 0 z) 5 := by
  have hs : ∃ i : Instr, (∀ k, i.illegal k = none) ∧
      Decode.skel (Encode.fI 0x13 n a b 0 z) = Decode.mk [0, 0, 0, 0] (decide (z < 64)) true i := by
    obtain rfl | rfl | rfl | rfl : n = 5 ∨ n = 6 ∨ n = 7 ∨ n = 8 := by omega
    all_goals exact ⟨_, fun _ => rfl, rfl⟩
  obtain ⟨i, hi, hs⟩ := hs
  have hw : word 0x13 n a b 0 0 z = (Encode.fI 0x13 n a b 0 z).pack := by rw [pack_fI]; simp
  rw [hw]
  refine illegal5_of_skel ?_ (Nat.zero_lt_succ _) (by simp [Encode.fI]) rfl hs (by simp) (by simp [hi])
    (.inl (by simp; omega))
  simp only [Raw.inRange, Encode.fI]; omega

theorem code_ty {code : Nat} (h : code < 17) : (Decode.ty code).code = code := by
  revert code; decide

/-- R124: a word of major 0x14 whose type code is reserved, or is that of a type outside the instruction's row. -/
theorem typeCode_illegal (a b : GReg) {n code : Nat} {row : List Ty} {i : Ty → Instr} (hn : n < 16) (hc : code < 32)
    (hs : Decode.skel (Encode.fG 0x14 n a b 0 0 code) =
      Decode.mk [0, 0, 0, 0] (decide (code ≤ 16)) true (i (Decode.ty code)))
    (hi : ∀ k t, (i t).illegal k = Instr.badType (row.contains t)) (h : code ∉ row.map Ty.code) :
    IllegalWith (word 0x14 n a b 0 0 (code * 2 ^ 51)) 5 := by
  have h5 : decide (code ≤ 16) = false ∨ ∀ k, (i (Decode.ty code)).illegal k = some 5 := by
    by_cases hle : code ≤ 16
    · have ht : Decode.ty code ∉ row := fun hm => h (List.mem_map.mpr ⟨_, hm, code_ty (Nat.lt_succ_of_le hle)⟩)
      exact .inr (fun k => by rw [hi]; simp [ht, Instr.badType, firstReason])
    · exact .inl (by simpa using hle)
  rw [← pack_fG]
  refine illegal5_of_skel ?_ (Nat.zero_lt_succ _) (by simp [Encode.fG]) rfl hs (by simp)
    (fun k => hi k _ ▸ badType_ne_four _) h5
  simp only [Raw.inRange, Encode.fG]; omega

/-- R124: the bit counts carry no type. -/
theorem countType_illegal (a b : GReg) {n code : Nat} (hn : n < 3) (hc : code < 32) (h : code ≠ 0) :
    IllegalWith (word 0x14 n a b 0 0 (code * 2 ^ 51)) 5 := by
  have hs : ∃ i : Instr, (∀ k, i.illegal k = none) ∧
      Decode.skel (Encode.fG 0x14 n a b 0 0 code) = Decode.mk [0, 0, 0, 0] (code == 0) true i := by
    obtain rfl | rfl | rfl : n = 0 ∨ n = 1 ∨ n = 2 := by omega
    all_goals exact ⟨_, fun _ => rfl, rfl⟩
  obtain ⟨i, hi, hs⟩ := hs
  rw [← pack_fG]
  refine illegal5_of_skel ?_ (Nat.zero_lt_succ _) (by simp [Encode.fG]) rfl hs (by simp) (by simp [hi])
    (.inl (by simpa using h))
  simp only [Raw.inRange, Encode.fG]; omega

/-- R125: a field of no bits, or one that passes bit 63. -/
theorem field_illegal {lo : Fin 64} {w : Fin 128} (h : w.val = 0 ∨ 64 < lo.val + w.val) (ok : Bool) :
    Instr.badType (ok && w.val != 0 && decide (lo.val + w.val ≤ 64)) = some 5 := by
  have : (ok && w.val != 0 && decide (lo.val + w.val ≤ 64)) = false := by
    rcases h with h | h
    · simp [h]
    · simp; omega
  rw [this]; rfl

/-- A word of bit fields, of major 0x15 or 0x16, whose field is illegal. -/
theorem bitField_illegal (a b : GReg) {maj t : Nat} {lo : Fin 64} {w : Fin 128} {i : Fin 64 → Fin 128 → Instr}
    {rg : Bool} (hm : 0 < maj ∧ maj < 255) (ht : t < 32)
    (hs : let x := w.val * 256 + lo.val
      Decode.skel (Encode.fI maj 0 a b t x) =
        Decode.mk [0, 0, 0, bits x 7 6, x / 2 ^ 15] rg true (i (Decode.g x) (Fin.ofNat 128 (bits x 14 8))))
    (hi : ∀ k, (i lo w).illegal k = some 5) :
    IllegalWith (word maj 0 a b 0 0 (t * 2 ^ 51 + w * 256 + lo)) 5 := by
  have hg : Decode.g (w.val * 256 + lo.val) = lo := by rw [g_iff]; omega
  have hw : Fin.ofNat 128 (bits (w.val * 256 + lo.val) 14 8) = w := by rw [fin_iff]; simp only [bits]; omega
  dsimp only at hs
  rw [hg, hw] at hs
  rw [Nat.add_assoc, ← pack_fI]
  refine illegal5_of_skel ?_ hm.1 hm.2 rfl hs (by simp [bits]; omega) (by simp [hi]) (.inr hi)
  simp only [Raw.inRange, Encode.fI]; omega

/-! ### The encodings of R121 to R125, R127 to R129, R132 and R133 -/

theorem integerEncodings : IntegerEncodings := fun a b c =>
  ⟨means_plain (Word.add a b c) rfl (fun _ => rfl), means_plain (Word.sub a b c) rfl (fun _ => rfl),
    means_plain (Word.mul a b c) rfl (fun _ => rfl), means_plain (Word.mulh a b c) rfl (fun _ => rfl),
    means_plain (Word.mulhz a b c) rfl (fun _ => rfl), means_plain (Word.div a b c) rfl (fun _ => rfl),
    means_plain (Word.divz a b c) rfl (fun _ => rfl), means_plain (Word.rem a b c) rfl (fun _ => rfl),
    means_plain (Word.remz a b c) rfl (fun _ => rfl), means_plain (Word.min a b c) rfl (fun _ => rfl),
    means_plain (Word.max a b c) rfl (fun _ => rfl), means_plain (Word.minz a b c) rfl (fun _ => rfl),
    means_plain (Word.maxz a b c) rfl (fun _ => rfl)⟩

theorem logicEncodings : LogicEncodings := fun a b c imm k =>
  ⟨means_imm (Word.addi a b imm) rfl (fun _ => rfl),
    means_plain (Word.and a b c) rfl (fun _ => rfl), means_plain (Word.or a b c) rfl (fun _ => rfl),
    means_plain (Word.xor a b c) rfl (fun _ => rfl), means_plain (Word.andn a b c) rfl (fun _ => rfl),
    means_plain (Word.orn a b c) rfl (fun _ => rfl), means_plain (Word.shl a b c) rfl (fun _ => rfl),
    means_plain (Word.shr a b c) rfl (fun _ => rfl), means_plain (Word.sar a b c) rfl (fun _ => rfl),
    means_plain (Word.rot a b c) rfl (fun _ => rfl),
    means_imm (Word.andi a b imm) rfl (fun _ => rfl), means_imm (Word.ori a b imm) rfl (fun _ => rfl),
    means_imm (Word.xori a b imm) rfl (fun _ => rfl), means_imm (Word.andni a b imm) rfl (fun _ => rfl),
    means_imm (Word.orni a b imm) rfl (fun _ => rfl), means_imm (Word.shli a b k) rfl (fun _ => rfl),
    means_imm (Word.shri a b k) rfl (fun _ => rfl), means_imm (Word.sari a b k) rfl (fun _ => rfl),
    means_imm (Word.roti a b k) rfl (fun _ => rfl),
    fun _ h5 h8 hz => shiftImmediate_illegal a b h5 h8 hz imm.isLt⟩

/-- The illegal type codes of major 0x14, minor by minor. -/
theorem otherTypes_illegal (a b : GReg) {n code : Nat} (hn : n < 6) (hc : code < 32)
    (h : code ∉ (if n < 3 then [Ty.none] else if n = 3 then [.i8, .i16, .i32] else
      if n = 4 then [.z8, .z16, .z32] else [.z16, .z32, .z64]).map Ty.code) :
    IllegalWith (word 0x14 n a b 0 0 (code * 2 ^ 51)) 5 := by
  obtain h3 | rfl | rfl | rfl : n < 3 ∨ n = 3 ∨ n = 4 ∨ n = 5 := by omega
  · rw [if_pos h3] at h
    exact countType_illegal a b h3 hc (by simpa [Ty.code] using h)
  · exact typeCode_illegal a b (i := fun t => .sext t (Decode.g a) (Decode.g b)) (by decide) hc rfl
      (fun _ t => by cases t <;> rfl) h
  · exact typeCode_illegal a b (i := fun t => .zext t (Decode.g a) (Decode.g b)) (by decide) hc rfl
      (fun _ t => by cases t <;> rfl) h
  · exact typeCode_illegal a b (i := fun t => .bswp t (Decode.g a) (Decode.g b)) (by decide) hc rfl
      (fun _ t => by cases t <;> rfl) h

theorem fieldEncodings : FieldEncodings := by
  intro a b lo w v x y types
  refine ⟨means_typed (Word.clz a b) rfl (fun _ => rfl), means_typed (Word.ctz a b) rfl (fun _ => rfl),
    means_typed (Word.pop a b) rfl (fun _ => rfl), fun ty h => means_typed (Word.sext ty a b) rfl (fun _ => ?_),
    fun ty h => means_typed (Word.zext ty a b) rfl (fun _ => ?_),
    fun ty h => means_typed (Word.bswp ty a b) rfl (fun _ => ?_),
    fun n hn code hc h k => ⟨5, otherTypes_illegal a b hn hc h k⟩, fun h1 h64 => ?_, fun h => ⟨?_, ?_, ?_⟩⟩
  · change ty ∈ [Ty.i8, .i16, .i32] at h; fin_cases h <;> rfl
  · change ty ∈ [Ty.z8, .z16, .z32] at h; fin_cases h <;> rfl
  · change ty ∈ [Ty.z16, .z32, .z64] at h; fin_cases h <;> rfl
  · have hwf : ∀ ok, ok = true → Instr.badType (ok && w.val != 0 && decide (lo.val + w.val ≤ 64)) = none := by
      rintro _ rfl
      have : (w.val != 0) = true := by simp; omega
      simp [this, h64, Instr.badType, firstReason]
    exact ⟨means_field (Word.bfx .z64 a b lo w) rfl (fun _ => hwf _ rfl),
      means_field (Word.bfx .i64 a b lo w) rfl (fun _ => hwf _ rfl),
      means_imm (Word.bfi a b lo w) rfl (fun _ => hwf true rfl)⟩
  · exact bitField_illegal a b (i := .bfx .z64 (Decode.g a) (Decode.g b)) (by decide) (by decide) rfl
      (fun _ => field_illegal h true)
  · exact bitField_illegal a b (i := .bfx .i64 (Decode.g a) (Decode.g b)) (by decide) (by decide) rfl
      (fun _ => field_illegal h true)
  · simpa using bitField_illegal a b (t := 0) (i := .bfi (Decode.g a) (Decode.g b)) (by decide) (by decide) rfl
      (fun _ => field_illegal h true)

theorem compareEncodings : CompareEncodings := by
  intro a c d p q r imm w codes
  refine ⟨?_, means_plain (Word.sel a p c d) rfl (fun _ => rfl), means_plain (Word.pand p q r) rfl (fun _ => rfl),
    means_plain (Word.por p q r) rfl (fun _ => rfl), means_plain (Word.pxor p q r) rfl (fun _ => rfl),
    means_plain (Word.pnot p q) rfl (fun _ => rfl)⟩
  have key (cc : Cc) : Means (word 0x17 cc.code p a c 0 0) (.cmp cc p a c) ∧
      Means (word 0x18 cc.code p a 0 0 imm.toNat) (.cmpi cc p a imm) :=
    ⟨means_plain (Word.cmp cc p a c) rfl (fun _ => rfl), means_imm (Word.cmpi cc p a imm) rfl (fun _ => rfl)⟩
  have hcode : ∀ e ∈ codes, e.2 = e.1.code := by decide
  exact fun e he => hcode e he ▸ key e.1

theorem floatEncodings : FloatEncodings := by
  intro ty a b c p hty t
  have hwf : Instr.badType (ty == .f32 || ty == .f64) = none := by rcases hty with rfl | rfl <;> rfl
  exact ⟨means_typed (Word.fmin ty a b c) rfl (fun _ => hwf), means_typed (Word.fmax ty a b c) rfl (fun _ => hwf),
    means_typed (Word.fcmp .eq ty p b c) rfl (fun _ => hwf), means_typed (Word.fcmp .lt ty p b c) rfl (fun _ => hwf),
    means_typed (Word.fcmp .le ty p b c) rfl (fun _ => hwf), means_typed (Word.fcmp .un ty p b c) rfl (fun _ => hwf)⟩

end Sys2Proof.Proofs
end

section
/-! SUPPORT. The scalar integer arithmetic (R121): the number that each operation computes. -/

namespace Sys2Proof.Proofs

open Sys2Proof.Machine Sys2Proof.Claims

/-! ### Arithmetic and the corners of division (R121) -/

section Arithmetic
variable (x y : Word)

theorem toInt_bounds : -(2 ^ 63) ≤ x.toInt ∧ x.toInt < 2 ^ 63 :=
  ⟨by simpa using BitVec.le_toInt x, by simpa using BitVec.toInt_lt (x := x)⟩

theorem toInt_ofInt_of_bounds {n : Int} (h : -(2 ^ 63) ≤ n) (h' : n < 2 ^ 63) : (BitVec.ofInt 64 n).toInt = n :=
  BitVec.toInt_ofInt_eq_self (by decide) (by simpa using h) (by simpa using h')

theorem toInt_ne_zero {y : Word} (h : y ≠ 0) : y.toInt ≠ 0 :=
  fun e => h (BitVec.toInt_inj.mp (by simpa using e))

theorem toInt_minWord : minWord.toInt = -(2 ^ 63) := by decide

theorem mulHigh_toInt : (mulHigh x y).toInt = x.toInt * y.toInt / 2 ^ 64 := by
  have hx := toInt_bounds x
  have hy := toInt_bounds y
  have : |x.toInt * y.toInt| ≤ 2 ^ 63 * 2 ^ 63 := by
    rw [abs_mul]
    exact mul_le_mul (abs_le.mpr ⟨hx.1, hx.2.le⟩) (abs_le.mpr ⟨hy.1, hy.2.le⟩) (abs_nonneg _) (by norm_num)
  have := abs_le.mp this
  exact toInt_ofInt_of_bounds (by omega) (by omega)

theorem mulHighU_toNat : (mulHighU x y).toNat = x.toNat * y.toNat / 2 ^ 64 := by
  have : x.toNat * y.toNat < 2 ^ 64 * 2 ^ 64 := Nat.mul_lt_mul'' x.isLt y.isLt
  rw [mulHighU, BitVec.toNat_ofNat]; omega

theorem divS_zero : divS x 0 = BitVec.allOnes 64 := rfl
theorem divU_zero : divU x 0 = BitVec.allOnes 64 := rfl
theorem remS_zero : remS x 0 = x := rfl
theorem remU_zero : remU x 0 = x := rfl

variable {y} in
theorem divS_of_ne (h : y ≠ 0) : divS x y = BitVec.ofInt 64 (x.toInt.tdiv y.toInt) := by
  simp only [divS, beq_iff_eq, if_neg h]
variable {y} in
theorem remS_of_ne (h : y ≠ 0) : remS x y = BitVec.ofInt 64 (x.toInt.tmod y.toInt) := by
  simp only [remS, beq_iff_eq, if_neg h]

/-- The one quotient that is out of range wraps to the dividend. -/
theorem divS_minWord {y : Word} (h : y.toInt = -1) : divS minWord y = minWord := by
  rw [divS_of_ne _ (by rintro rfl; simp at h), h, toInt_minWord]; decide

theorem divS_toInt {x y : Word} (h : y ≠ 0) (hm : ¬(x = minWord ∧ y.toInt = -1)) :
    (divS x y).toInt = x.toInt.tdiv y.toInt := by
  have hx := toInt_bounds x
  have hy := toInt_ne_zero h
  rw [divS_of_ne _ h]
  have habs : (x.toInt.tdiv y.toInt).natAbs = x.toInt.natAbs / y.toInt.natAbs := Int.natAbs_tdiv ..
  have hle : x.toInt.natAbs / y.toInt.natAbs ≤ x.toInt.natAbs := Nat.div_le_self ..
  refine toInt_ofInt_of_bounds (by omega) ?_
  by_cases h1 : y.toInt = -1
  · have : x.toInt ≠ -(2 ^ 63) := fun e => hm ⟨BitVec.toInt_inj.mp (e.trans toInt_minWord.symm), h1⟩
    rw [h1]; simp; omega
  · by_cases h2 : y.toInt = 1
    · rw [h2]; simp; omega
    · have : x.toInt.natAbs / y.toInt.natAbs ≤ x.toInt.natAbs / 2 := Nat.div_le_div_left (by omega) (by omega)
      omega

theorem divU_toNat {x y : Word} (h : y ≠ 0) : (divU x y).toNat = x.toNat / y.toNat := by
  simp only [divU, beq_iff_eq, if_neg h, BitVec.toNat_ofNat]
  exact Nat.mod_eq_of_lt ((Nat.div_le_self ..).trans_lt x.isLt)

theorem remS_minWord {y : Word} (h : y.toInt = -1) : remS minWord y = 0 := by
  rw [remS_of_ne _ (by rintro rfl; simp at h), h, toInt_minWord]; decide

theorem remS_toInt {x y : Word} (h : y ≠ 0) : (remS x y).toInt = x.toInt - y.toInt * x.toInt.tdiv y.toInt := by
  have hx := toInt_bounds x
  have habs : (x.toInt.tmod y.toInt).natAbs = x.toInt.natAbs % y.toInt.natAbs := Int.natAbs_tmod ..
  have hlt : x.toInt.natAbs % y.toInt.natAbs ≤ x.toInt.natAbs := Nat.mod_le ..
  have hy := toInt_bounds y
  have : x.toInt.natAbs % y.toInt.natAbs < y.toInt.natAbs := Nat.mod_lt _ (by have := toInt_ne_zero h; omega)
  rw [remS_of_ne _ h, ← Int.tmod_def]
  exact toInt_ofInt_of_bounds (by omega) (by omega)

theorem remU_toNat {x y : Word} (h : y ≠ 0) : (remU x y).toNat = x.toNat % y.toNat := by
  simp only [remU, beq_iff_eq, if_neg h, BitVec.toNat_ofNat]
  exact Nat.mod_eq_of_lt ((Nat.mod_le ..).trans_lt x.isLt)

theorem minS_toInt : (minS x y).toInt = min x.toInt y.toInt := by
  simp only [minS, BitVec.slt, decide_eq_true_eq]; split <;> omega
theorem maxS_toInt : (maxS x y).toInt = max x.toInt y.toInt := by
  simp only [maxS, BitVec.slt, decide_eq_true_eq]; split <;> omega
theorem minU_toNat : (minU x y).toNat = min x.toNat y.toNat := by
  simp only [minU, BitVec.ult, decide_eq_true_eq]; split <;> omega
theorem maxU_toNat : (maxU x y).toNat = max x.toNat y.toNat := by
  simp only [maxU, BitVec.ult, decide_eq_true_eq]; split <;> omega

end Arithmetic

theorem integerResults : IntegerResults := by
  intro s a b c x y
  refine ⟨rfl, rfl, ⟨_, rfl, BitVec.toNat_mul x y⟩, ⟨_, rfl, mulHigh_toInt x y⟩, ⟨_, rfl, mulHighU_toNat x y⟩,
    ⟨divS x y, rfl, ?_, ?_, divS_toInt⟩, ⟨divU x y, rfl, ?_, divU_toNat⟩, ⟨remS x y, rfl, ?_, ?_, remS_toInt⟩,
    ⟨remU x y, rfl, ?_, remU_toNat⟩, ⟨_, rfl, minS_toInt x y⟩, ⟨_, rfl, maxS_toInt x y⟩,
    ⟨_, rfl, minU_toNat x y⟩, ⟨_, rfl, maxU_toNat x y⟩⟩
  · exact fun h => h ▸ divS_zero x
  · exact fun h h' => h ▸ divS_minWord h'
  · exact fun h => h ▸ divU_zero x
  · exact fun h => h ▸ remS_zero x
  · exact fun h h' => h ▸ remS_minWord h'
  · exact fun h => h ▸ remU_zero x

end Sys2Proof.Proofs
end

section
/-! SUPPORT. The scalar integer results bit by bit: shifts and rotations (R123), counts of bits, extensions, byte reversal
(R124) and bit fields (R125). -/

namespace Sys2Proof.Proofs

open Sys2Proof.Machine Sys2Proof.Claims Sys2Proof.Laws

/-! ### Shifts and rotations (R123) -/

section Shifts
variable (x : Word) {n i : Nat}

theorem shiftLeft_bit (hi : i < 64) : (x <<< n).getLsbD i = (decide (n ≤ i) && x.getLsbD (i - n)) := by
  rw [BitVec.getLsbD_shiftLeft]
  rcases Nat.lt_or_ge i n with h | h
  · simp [h, Nat.not_le.mpr h]
  · simp only [hi, h, Nat.not_lt.mpr h, decide_true, decide_false, Bool.not_false, Bool.true_and]

theorem shiftRight_bit : (x >>> n).getLsbD i = x.getLsbD (i + n) := by
  rw [BitVec.getLsbD_ushiftRight, Nat.add_comm]

theorem sshiftRight_bit (hi : i < 64) : (x.sshiftRight n).getLsbD i = x.getLsbD (min (i + n) 63) := by
  have h64 : decide (64 ≤ i) = false := by simpa using hi
  rw [BitVec.getLsbD_sshiftRight, h64, Bool.not_false, Bool.true_and]
  split
  · congr 1; omega
  · rw [BitVec.msb_eq_getLsbD_last]; congr 1; omega

theorem rotateLeft_bit (hn : n < 64) (hi : i < 64) : (x.rotateLeft n).getLsbD i = x.getLsbD ((i + 64 - n) % 64) := by
  rw [BitVec.getLsbD_rotateLeft, Nat.mod_eq_of_lt hn]
  by_cases h : i < n
  · simp only [h, decide_true, cond_true]; congr 1; omega
  · simp only [h, hi, decide_true, decide_false, cond_false, Bool.true_and]; congr 1; omega

end Shifts

theorem shiftOf_lt (y : Word) : shiftOf y < 64 := Nat.mod_lt _ (by decide)

theorem logicResults : LogicResults := by
  intro s a b c imm k x y z n
  have hn : n < 64 := shiftOf_lt y
  exact ⟨rfl, rfl, rfl, rfl, rfl, rfl, rfl, rfl, rfl, rfl, rfl,
    ⟨_, rfl, fun _ hi => shiftLeft_bit x hi⟩, ⟨_, rfl, fun _ hi => shiftLeft_bit x hi⟩,
    ⟨_, rfl, fun _ _ => shiftRight_bit x⟩, ⟨_, rfl, fun _ _ => shiftRight_bit x⟩,
    ⟨_, rfl, fun _ hi => sshiftRight_bit x hi⟩, ⟨_, rfl, fun _ hi => sshiftRight_bit x hi⟩,
    ⟨_, rfl, fun _ hi => rotateLeft_bit x hn hi⟩, ⟨_, rfl, fun _ hi => rotateLeft_bit x k.isLt hi⟩⟩

/-! ### Counts of bits (R124) -/

section Counts
variable (x : Word)

theorem clz64_zero : clz64 0 = 64 := rfl

theorem log2_lt_64 {x : Word} (h : x ≠ 0) : Nat.log2 x.toNat < 64 :=
  (Nat.log2_lt (by simpa [BitVec.toNat_eq] using h)).mpr x.isLt

theorem clz64_of_ne {x : Word} (h : x ≠ 0) : clz64 x = 63 - Nat.log2 x.toNat := by
  simp only [clz64, beq_iff_eq, if_neg h]

theorem clz64_le : clz64 x ≤ 64 := by
  by_cases h : x = 0
  · rw [h, clz64_zero]
  · rw [clz64_of_ne h]; omega

theorem clz64_one {x : Word} (h : x ≠ 0) : clz64 x < 64 ∧ x.getLsbD (63 - clz64 x) = true := by
  have h64 := log2_lt_64 h
  have hl : 63 - clz64 x = Nat.log2 x.toNat := by rw [clz64_of_ne h]; omega
  refine ⟨by rw [clz64_of_ne h]; omega, ?_⟩
  rw [hl, ← BitVec.testBit_toNat]
  exact Nat.testBit_log2 (by simpa [BitVec.toNat_eq] using h)

theorem clz64_zeros {i : Nat} (hi : i < clz64 x) : x.getLsbD (63 - i) = false := by
  by_cases h : x = 0
  · simp [h]
  · have h64 := log2_lt_64 h
    rw [clz64_of_ne h] at hi
    rw [← BitVec.testBit_toNat]
    exact Nat.testBit_lt_two_pow ((Nat.log2_lt (by simpa [BitVec.toNat_eq] using h)).mp (by omega))

theorem ctzFrom_le (x n : Nat) : ctzFrom x n ≤ n := by
  induction n generalizing x with
  | zero => exact le_rfl
  | succ n ih =>
    rw [ctzFrom]; split
    · omega
    · have := ih (x / 2); omega

theorem ctzFrom_zeros (x n : Nat) {i : Nat} (hi : i < ctzFrom x n) : x.testBit i = false := by
  induction n generalizing x i with
  | zero => simp [ctzFrom] at hi
  | succ n ih =>
    rw [ctzFrom] at hi
    split at hi
    · omega
    · rename_i h
      cases i with
      | zero => simpa [Nat.testBit_zero] using h
      | succ i => rw [Nat.testBit_succ]; exact ih _ (by omega)

theorem ctzFrom_one (x n : Nat) (h : ctzFrom x n < n) : x.testBit (ctzFrom x n) = true := by
  induction n generalizing x with
  | zero => omega
  | succ n ih =>
    rw [ctzFrom] at h ⊢
    split at h <;> rename_i hx
    · rw [if_pos hx, Nat.testBit_zero]; simpa using hx
    · rw [if_neg hx, Nat.add_comm 1, Nat.testBit_succ]; exact ih _ (by omega)

theorem ctz64_zero : ctz64 0 = 64 := by decide

theorem ctz64_zeros {i : Nat} (hi : i < ctz64 x) : x.getLsbD i = false := by
  rw [← BitVec.testBit_toNat]; exact ctzFrom_zeros _ _ hi

theorem ctz64_one {x : Word} (h : x ≠ 0) : ctz64 x < 64 ∧ x.getLsbD (ctz64 x) = true := by
  have hlt : ctz64 x < 64 := by
    refine lt_of_le_of_ne (ctzFrom_le _ _) fun e => h (BitVec.eq_of_getLsbD_eq fun i hi => ?_)
    rw [ctz64_zeros x (by omega)]; exact BitVec.getLsbD_zero.symm
  exact ⟨hlt, by rw [← BitVec.testBit_toNat]; exact ctzFrom_one _ _ hlt⟩

theorem popLow_eq_countP (x n : Nat) : Instr.popLow x n = (List.range n).countP x.testBit := by
  induction n with
  | zero => rfl
  | succ n ih => rw [Instr.popLow, ih, List.range_succ, List.countP_append, List.countP_singleton, Nat.add_comm]

theorem pop64_eq_countP : pop64 x = (List.range 64).countP (fun i => x.getLsbD i) := by
  simp only [pop64, popLow_eq_countP, ← BitVec.testBit_toNat]

end Counts

/-! ### Extensions and byte reversal (R124) -/

section Extensions
variable (x : Word) {w i : Nat}

theorem signExt_eq_signExtend : signExt w x = (BitVec.ofNat w x.toNat).signExtend 64 := by
  rw [signExt, BitVec.signExtend, BitVec.toInt_eq_toNat_cond]; simp [signedOf]

theorem signExt_bit (hw : 0 < w) (hi : i < 64) (hw' : w ≤ 64) :
    (signExt w x).getLsbD i = x.getLsbD (min i (w - 1)) := by
  rw [signExt_eq_signExtend, BitVec.getLsbD_signExtend, BitVec.msb_eq_getLsbD_last]
  simp only [BitVec.getLsbD_ofNat, BitVec.testBit_toNat, hi, decide_true, Bool.true_and]
  split
  · rename_i h; simp only [h, decide_true, Bool.true_and]; congr 1; omega
  · have h : w - 1 < w := by omega
    simp only [h, decide_true, Bool.true_and]; congr 1; omega

theorem zeroExt_bit (hi : i < 64) : (zeroExt w x).getLsbD i = (decide (i < w) && x.getLsbD i) := by
  simp only [zeroExt, BitVec.getLsbD_ofNat, Nat.testBit_mod_two_pow, BitVec.testBit_toNat, hi, decide_true, Bool.true_and]

theorem leNat_testBit (l : List Byte) (i : Nat) : (leNat l).testBit i = (l.getD (i / 8) 0).getLsbD (i % 8) := by
  induction l generalizing i with
  | nil => simp [leNat]
  | cons b t ih =>
    have hb : b.toNat < 2 ^ 8 := b.isLt
    rw [leNat, show b.toNat + 256 * leNat t = 2 ^ 8 * leNat t + b.toNat by omega, Nat.testBit_two_pow_mul_add _ hb]
    split
    · rename_i h
      rw [Nat.div_eq_of_lt h, Nat.mod_eq_of_lt h, BitVec.testBit_toNat]; rfl
    · rename_i h
      rw [ih, show i / 8 = (i - 8) / 8 + 1 by omega, show i % 8 = (i - 8) % 8 by omega]; rfl

theorem reverse_leBytes_getD (y : Nat) {n k : Nat} (hk : k < n) :
    (leBytes y n).reverse.getD k 0 = BitVec.ofNat 8 (y / 2 ^ (8 * (n - 1 - k))) := by
  rw [List.getD_reverse _ (by rwa [leBytes_length]), leBytes_length, leBytes_getD _ _ _ (by omega)]

theorem byteSwap_bit (n : Nat) (hi : i < 64) :
    (byteSwap (8 * n) x).getLsbD i = (decide (i < 8 * n) && x.getLsbD (8 * n - 8 - 8 * (i / 8) + i % 8)) := by
  rw [byteSwap, BitVec.getLsbD_ofNat, leNat_testBit, Nat.mul_div_cancel_left _ (by decide)]
  by_cases h : i < 8 * n
  · rw [reverse_leBytes_getD _ (show i / 8 < n by omega), BitVec.getLsbD_ofNat, Nat.testBit_div_two_pow,
      BitVec.testBit_toNat]
    have : i % 8 < 8 := by omega
    simp only [hi, h, this, decide_true, Bool.true_and]; congr 1; omega
  · rw [List.getD_eq_default _ _ (by rw [List.length_reverse, leBytes_length]; omega)]
    simp [h]

end Extensions

theorem countsAndExtensions : CountsAndExtensions := by
  intro s a b x
  refine ⟨⟨clz64 x, clz64_le x, rfl, fun h => h ▸ clz64_zero, clz64_one, fun _ => clz64_zeros x⟩,
    ⟨ctz64 x, ctzFrom_le _ _, rfl, fun h => h ▸ ctz64_zero, ctz64_one, fun _ => ctz64_zeros x⟩,
    pop64_eq_countP x ▸ rfl, fun ty h => ⟨_, rfl, fun i hi => ?_⟩,
    fun ty h => ⟨_, rfl, fun i hi => zeroExt_bit x hi⟩,
    fun ty h => ⟨_, rfl, fun i hi => ?_⟩⟩
  · have hw : 0 < ty.width ∧ ty.width ≤ 64 := by fin_cases h <;> decide
    exact signExt_bit x hw.1 hi hw.2
  · have hw : ∃ n, ty.width = 8 * n := by fin_cases h; exacts [⟨2, rfl⟩, ⟨4, rfl⟩, ⟨8, rfl⟩]
    obtain ⟨n, hn⟩ := hw
    rw [hn]; exact byteSwap_bit x n hi

/-! ### Bit fields (R125) -/

section Fields
variable (x y : Word) {lo w i : Nat}

theorem bitField_unsigned_bit (hi : i < 64) :
    (bitField .z64 x lo w).getLsbD i = (decide (i < w) && x.getLsbD (lo + i)) := by
  have : bitField .z64 x lo w = BitVec.ofNat 64 (x.toNat / 2 ^ lo % 2 ^ w) := rfl
  simp only [this, BitVec.getLsbD_ofNat, Nat.testBit_mod_two_pow, Nat.testBit_div_two_pow, BitVec.testBit_toNat, hi,
    decide_true, Bool.true_and, Nat.add_comm]

theorem bitField_signed_bit (hw : 1 ≤ w) (h : lo + w ≤ 64) (hi : i < 64) :
    (bitField .i64 x lo w).getLsbD i = x.getLsbD (lo + min i (w - 1)) := by
  have : bitField .i64 x lo w = signExt w (bitField .z64 x lo w) := rfl
  rw [this, signExt_bit _ hw hi (by omega), bitField_unsigned_bit x (by omega)]
  have : min i (w - 1) < w := by omega
  simp [this]

/-- The mask of a bit field. -/
theorem fieldMask_bit (hi : i < 64) :
    (BitVec.ofNat 64 ((2 ^ w - 1) * 2 ^ lo)).getLsbD i = decide (lo ≤ i ∧ i < lo + w) := by
  rw [BitVec.getLsbD_ofNat, Nat.testBit_mul_two_pow, Nat.testBit_two_pow_sub_one]
  simp only [hi, decide_true, Bool.true_and, ← Bool.decide_and, decide_eq_decide]; omega

theorem bitInsert_bit (hi : i < 64) : (bitInsert x y lo w).getLsbD i =
    if lo ≤ i ∧ i < lo + w then y.getLsbD (i - lo) else x.getLsbD i := by
  simp only [bitInsert, BitVec.getLsbD_or, BitVec.getLsbD_and, BitVec.getLsbD_not, fieldMask_bit hi, shiftLeft_bit y hi]
  split
  · rename_i h; simp [h]
  · rename_i h; simp [h, hi]

end Fields

theorem bitFields : BitFields := fun _ _ _ _ _ h1 h64 =>
  ⟨⟨_, rfl, fun _ hi => bitField_unsigned_bit _ hi⟩, ⟨_, rfl, fun _ hi => bitField_signed_bit _ h1 h64 hi⟩,
    ⟨_, rfl, fun _ hi => bitInsert_bit _ _ hi⟩⟩

end Sys2Proof.Proofs
end

section
/-! SUPPORT. Comparisons, predicate logic, moves, the address computation and selection (R126 to R129). -/

namespace Sys2Proof.Proofs

open Sys2Proof.Machine Sys2Proof.Claims Sys2Proof.Laws

/-- The conditions of `cmp` are those of R127 on the values of the words. -/
theorem cc_holds_eq_compares (cc : Cc) (x y : Word) : cc.holds x y = compares cc x y := by
  cases cc with
  | eq => simp [Cc.holds, compares, Bool.beq_eq_decide_eq, BitVec.toNat_inj]
  | ne => simp [Cc.holds, compares, bne, Bool.beq_eq_decide_eq, BitVec.toNat_inj]
  | lt => rfl
  | ge => simp [Cc.holds, compares, BitVec.slt, ← decide_not]
  | ltz => rfl
  | gez => simp [Cc.holds, compares, BitVec.ult, ← decide_not]

theorem comparesAndPredicates : ComparesAndPredicates := fun _ _ _ _ _ _ _ =>
  ⟨fun cc => ⟨cc_holds_eq_compares cc .. ▸ rfl, cc_holds_eq_compares cc .. ▸ rfl⟩, rfl, rfl, rfl, rfl⟩

/-- The sum of an address operand, as a number (R45). -/
theorem toNat_add_add_signExtend (x y : Word) (off : BitVec 32) :
    ((x + y + off.signExtend 64).toNat : Int) = (x.toNat + y.toNat + off.toInt) % 2 ^ 64 := by
  have h : off.toInt = (off.signExtend 64).toInt := (BitVec.toInt_signExtend_of_le (by decide)).symm
  rw [h, BitVec.toNat_add, BitVec.toNat_add, BitVec.toInt_eq_toNat_cond]
  split <;> omega

theorem movesAndSelection : MovesAndSelection := by
  intro s a b c d k p imm off
  have hsel : WritesG (.sel a p c d) s a (if s.p p.val then s.g c.val else s.g d.val) := rfl
  exact ⟨rfl, rfl, rfl, rfl, ⟨_, rfl, toNat_add_add_signExtend ..⟩,
    fun h => by rwa [h] at hsel, fun h => by rwa [h] at hsel⟩

end Sys2Proof.Proofs
end

section
/-! SUPPORT. Hardware loops: what the iteration step leaves, level by level (R141, R142), and what opening a level does
(R140). -/

namespace Sys2Proof.Proofs

open Sys2Proof.Machine Sys2Proof.Claims Sys2Proof.Laws

/-! ### The reuse clock that a ticking level advances (R249) -/

/-- Two states agree on all that decides what advancing the issuing slot's clock does, and on what it changes. -/
structure ClockAgrees (s u : State) : Prop where
  cur     : u.cur = s.cur
  lag     : u.lag = s.lag
  nextMsg : u.nextMsg = s.nextMsg
  flight  : u.flight = s.flight
  domains : u.domains = s.domains
  nud     : u.slot.csr.nud = s.slot.csr.nud

theorem ClockAgrees.refl (s : State) : ClockAgrees s s := ⟨rfl, rfl, rfl, rfl, rfl, rfl⟩

theorem ClockAgrees.trans {s t u : State} (h : ClockAgrees s t) (h' : ClockAgrees t u) : ClockAgrees s u :=
  ⟨h'.cur.trans h.cur, h'.lag.trans h.lag, h'.nextMsg.trans h.nextMsg, h'.flight.trans h.flight,
    h'.domains.trans h.domains, h'.nud.trans h.nud⟩

/-- A change of the slot that keeps its domain. -/
theorem clockAgrees_upd (s : State) {f : Slot → Slot} (h : (f s.slot).csr.nud = s.slot.csr.nud) :
    ClockAgrees s (s.upd f) := ⟨rfl, rfl, rfl, rfl, rfl, by rw [slot_upd, h]⟩

theorem clockAgrees_markSealed (s : State) : ClockAgrees s s.markSealed := by
  unfold State.markSealed; exact clockAgrees_upd s rfl

/-- The issuing slot posts an advance of its clock by one. -/
def advance (s : State) : State := s.postClock s.cur 1

/-- An advance is put in flight when it must wait behind another, and is otherwise made at the home. -/
theorem advance_eq (s : State) :
    advance s = if s.lag || s.clockBefore s.nextMsg s.cur s.slot.csr.nud.toNat then
        { s with flight := Store.set s.flight s.nextMsg (.clock s.cur s.slot.csr.nud.toNat 1), nextMsg := s.nextMsg + 1 }
      else s.clockAdd s.slot.csr.nud.toNat 1 := rfl

@[simp] theorem advance_slots (s : State) : (advance s).slots = s.slots := by rw [advance_eq]; split <;> rfl
@[simp] theorem advance_cur (s : State) : (advance s).cur = s.cur := by rw [advance_eq]; split <;> rfl
@[simp] theorem advance_slot (s : State) : (advance s).slot = s.slot := by simp [State.slot, State.slotAt]

theorem ClockAgrees.advance {s u : State} (h : ClockAgrees s u) : ClockAgrees (advance s) (advance u) := by
  have hb : u.clockBefore u.nextMsg u.cur u.slot.csr.nud.toNat = s.clockBefore s.nextMsg s.cur s.slot.csr.nud.toNat := by
    rw [h.nextMsg, h.cur, h.nud, State.clockBefore, h.flight]; rfl
  refine ⟨by simp [h.cur], ?_, ?_, ?_, ?_, by simp [h.nud]⟩
  all_goals
    rw [advance_eq, advance_eq, hb, h.lag]
    split
    · simp [h.cur, h.nextMsg, h.flight, h.domains, h.nud]
    · simp [State.clockAdd, State.updDomain, State.domainAt, h.lag, h.nextMsg, h.flight, h.domains, h.nud]

@[simp] theorem repeat_advance_cur (n : Nat) (s : State) : (Nat.repeat advance n s).cur = s.cur := by
  induction n with
  | zero => rfl
  | succ n ih => exact (advance_cur _).trans ih

/-- The advances of one slot, as `Stepped` counts them. -/
theorem repeat_postClock (n : Nat) (s : State) :
    Nat.repeat (fun v => v.postClock s.cur 1) n s = Nat.repeat advance n s := by
  induction n with
  | zero => rfl
  | succ n ih =>
    show (Nat.repeat (fun v => v.postClock s.cur 1) n s).postClock s.cur 1 = advance (Nat.repeat advance n s)
    rw [ih, advance, repeat_advance_cur]

theorem ClockAgrees.repeat_advance {s u : State} (h : ClockAgrees s u) (n : Nat) :
    ClockAgrees (Nat.repeat Proofs.advance n s) (Nat.repeat Proofs.advance n u) := by
  induction n with
  | zero => exact h
  | succ n ih => exact ih.advance

/-! ### One level of the iteration step (R141, R142) -/

theorem sameData_refl (s : State) : SameData s s :=
  ⟨rfl, rfl, rfl, rfl, rfl, rfl, rfl, rfl, rfl, rfl, rfl, rfl, rfl, rfl⟩

theorem sameData_trans {s t u : State} (h : SameData s t) (h' : SameData t u) : SameData s u := by
  unfold SameData at *; simp_all

/-- A level is active and its body ends at an address. -/
def endsAt (pc : Word) (s : State) (k : Nat) : Bool := (s.slot.level k).act && (s.slot.level k).stop == pc

/-- A ticking level advances the clock and seals the region, at each end of its body. -/
def ticked (s : State) (j : Nat) : State := if (s.slot.level j).tick then (advance s).markSealed else s

/-- What a level does at each end of its body before its count is looked at: it ticks, and a rotating one rotates. -/
def turned (s : State) (j : Nat) : State :=
  if (s.slot.level j).rot then (ticked s j).upd (fun t => { t with csr := { t.csr with vrb := t.csr.vrb + 31 } })
  else ticked s j

/-- A level ends. -/
def endLevel (s : State) (j : Nat) : State := (turned s j).upd (fun t => (t.setLc j 0).closeLevel j)

/-- A level goes on with its next iteration. -/
def continueLevel (s : State) (j : Nat) : State :=
  ((turned s j).upd (fun t => t.setLc j (s.slot.lcr j - 1))).capture j

/-- The slot after `turned`. -/
def turnedSlot (x : Slot) (j : Nat) : Slot :=
  { x with
    csr := { x.csr with vrb := x.csr.vrb + BitVec.ofNat 5 (31 * (x.level j).rot.toNat) }
    region := { x.region with sealed := x.region.sealed || (x.level j).tick } }

theorem slot_ticked (s : State) (j : Nat) : (ticked s j).slot =
    { s.slot with region := { s.slot.region with sealed := s.slot.region.sealed || (s.slot.level j).tick } } := by
  unfold ticked
  cases (s.slot.level j).tick <;> simp [State.markSealed]

theorem slot_turned (s : State) (j : Nat) : (turned s j).slot = turnedSlot s.slot j := by
  unfold turned turnedSlot
  cases (s.slot.level j).rot <;> simp [slot_ticked]

theorem turned_lcr (s : State) (j k : Nat) : (turned s j).slot.lcr k = s.slot.lcr k := by rw [slot_turned]; rfl
theorem iterate_skip {pc : Word} {j : Nat} {s : State} (rest : List Nat) (h : endsAt pc s j = false) :
    State.iterate pc (j :: rest) s = State.iterate pc rest s := by
  have h' : (!(s.slot.level j).act || (s.slot.level j).stop != pc) = true := by
    rw [bne, ← Bool.not_and]; exact congrArg not h
  rw [State.iterate]; exact if_pos h'

theorem iterate_at_end {pc : Word} {j : Nat} {s : State} (rest : List Nat) (h : endsAt pc s j = true) :
    State.iterate pc (j :: rest) s = if (s.slot.lcr j).toNat ≤ 1 then State.iterate pc rest (endLevel s j)
      else (some (s.slot.level j).start, continueLevel s j) := by
  have h' : (!(s.slot.level j).act || (s.slot.level j).stop != pc) = false := by
    rw [bne, ← Bool.not_and]; exact congrArg not h
  rw [State.iterate, continueLevel, ← turned_lcr s j j]; exact if_neg (Bool.eq_false_iff.mp h')

/-! ### Levels that end -/

theorem endLevel_slot (s : State) (j : Nat) : (endLevel s j).slot = ((turnedSlot s.slot j).setLc j 0).closeLevel j := by
  rw [endLevel, slot_upd, slot_turned]

theorem endLevel_level_same (s : State) (j : Nat) : (endLevel s j).slot.level j = {} := by
  rw [endLevel_slot]; exact get_set_same ..
theorem endLevel_level_other (s : State) {j k : Nat} (h : k ≠ j) : (endLevel s j).slot.level k = s.slot.level k := by
  rw [endLevel_slot]; exact get_set_other _ _ _ _ _ h
theorem endLevel_lcr_same (s : State) (j : Nat) : (endLevel s j).slot.lcr j = 0 := by
  rw [endLevel_slot]; exact get_set_same ..
theorem endLevel_lcr_other (s : State) {j k : Nat} (h : k ≠ j) : (endLevel s j).slot.lcr k = s.slot.lcr k := by
  rw [endLevel_slot]; exact get_set_other _ _ _ _ _ h

theorem sameData_endLevel (s : State) (j : Nat) : SameData s (endLevel s j) := by
  simp only [SameData, endLevel_slot, Slot.closeLevel, Slot.setLc, turnedSlot, and_self]

theorem clockAgrees_turned (s : State) (j : Nat) :
    ClockAgrees (Nat.repeat advance (s.slot.level j).tick.toNat s) (turned s j) := by
  have htick : ClockAgrees (Nat.repeat advance (s.slot.level j).tick.toNat s) (ticked s j) := by
    unfold ticked
    cases (s.slot.level j).tick
    · exact .refl s
    · exact clockAgrees_markSealed (advance s)
  unfold turned
  split
  · exact htick.trans (clockAgrees_upd _ rfl)
  · exact htick

theorem clockAgrees_endLevel (s : State) (j : Nat) :
    ClockAgrees (Nat.repeat advance (s.slot.level j).tick.toNat s) (endLevel s j) :=
  (clockAgrees_turned s j).trans (clockAgrees_upd _ rfl)

/-- The levels `took` have ended, each once, and nothing else has happened. -/
structure Ended (s t : State) (took : List Nat) : Prop where
  lcr    : ∀ k, t.slot.lcr k = if k ∈ took then 0 else s.slot.lcr k
  level  : ∀ k, t.slot.level k = if k ∈ took then {} else s.slot.level k
  order  : t.slot.order = s.slot.order.filter (fun k => !took.contains k)
  vrb    : t.slot.csr.vrb = s.slot.csr.vrb + BitVec.ofNat 5 (31 * took.countP (fun k => (s.slot.level k).rot))
  seals  : t.slot.region.sealed = (s.slot.region.sealed || took.any (fun k => (s.slot.level k).tick))
  ins    : t.slot.csr.ins = s.slot.csr.ins
  clock  : ClockAgrees (Nat.repeat advance (took.countP (fun k => (s.slot.level k).tick)) s) t
  data   : SameData s t

theorem countP_cons_toNat {α : Type} (p : α → Bool) (a : α) (l : List α) :
    (a :: l).countP p = (p a).toNat + l.countP p := by
  rw [List.countP_cons, Nat.add_comm]; cases p a <;> rfl

theorem repeat_advance_add (m n : Nat) (s : State) :
    Nat.repeat advance (m + n) s = Nat.repeat advance n (Nat.repeat advance m s) := by
  induction n with
  | zero => rfl
  | succ n ih => exact congrArg advance ih

theorem Ended.cons {s t : State} {j : Nat} {took : List Nat} (hj : j ∉ took) (h : Ended (endLevel s j) t took) :
    Ended s t (j :: took) := by
  have hlev : ∀ k ∈ took, (endLevel s j).slot.level k = s.slot.level k :=
    fun k hk => endLevel_level_other s (fun e => hj (e ▸ hk))
  have hrot : took.countP (fun k => ((endLevel s j).slot.level k).rot) = took.countP (fun k => (s.slot.level k).rot) :=
    List.countP_congr fun k hk => by rw [hlev k hk]
  have htick : took.countP (fun k => ((endLevel s j).slot.level k).tick) = took.countP (fun k => (s.slot.level k).tick) :=
    List.countP_congr fun k hk => by rw [hlev k hk]
  have hany : took.any (fun k => ((endLevel s j).slot.level k).tick) = took.any (fun k => (s.slot.level k).tick) := by
    rw [Bool.eq_iff_iff, List.any_eq_true, List.any_eq_true]
    exact exists_congr fun k => and_congr_right fun hk => by rw [hlev k hk]
  constructor
  case lcr =>
    intro k
    by_cases e : k = j
    · simp [h.lcr, e, endLevel_lcr_same]
    · simp [h.lcr, e, endLevel_lcr_other s e]
  case level =>
    intro k
    by_cases e : k = j
    · simp [h.level, e, endLevel_level_same]
    · simp [h.level, e, endLevel_level_other s e]
  case order =>
    rw [h.order, endLevel_slot]
    simp only [Slot.closeLevel, Slot.setLc, turnedSlot, List.filter_filter]
    congr 1; funext k
    rw [List.contains_cons, bne, Bool.not_or, Bool.and_comm]
  case vrb =>
    rw [h.vrb, hrot, countP_cons_toNat, endLevel_slot, Nat.mul_add, BitVec.ofNat_add, ← BitVec.add_assoc]
    rfl
  case seals =>
    rw [h.seals, hany, endLevel_slot, List.any_cons, ← Bool.or_assoc]
    rfl
  case ins => rw [h.ins, endLevel_slot]; rfl
  case clock =>
    rw [countP_cons_toNat, repeat_advance_add]
    exact ((clockAgrees_endLevel s j).repeat_advance _).trans (htick ▸ h.clock)
  case data => exact sameData_trans (sameData_endLevel s j) h.data

theorem Ended.nil (s : State) : Ended s s [] :=
  ⟨by simp, by simp, by simp, by simp, by simp, rfl, .refl s, sameData_refl s⟩

theorem ended_foldl {took : List Nat} (h : took.Nodup) (s : State) : Ended s (took.foldl endLevel s) took := by
  induction took generalizing s with
  | nil => exact .nil s
  | cons j took ih => exact .cons (List.nodup_cons.mp h).1 (ih (List.nodup_cons.mp h).2 _)

/-- A level that has ended ends no more, and the others end as before. -/
theorem endsAt_endLevel (pc : Word) (s : State) (j k : Nat) :
    endsAt pc (endLevel s j) k = (!(k == j) && endsAt pc s k) := by
  by_cases e : k = j
  · simp [endsAt, e, endLevel_level_same]
  · simp [endsAt, e, endLevel_level_other s e]

/-- The iteration step passes the levels at the head of the order that do not end here, and ends, each once, those that
do and have no further iteration. -/
theorem iterate_append {pc : Word} {pre : List Nat} {s : State} (rest : List Nat)
    (h : ∀ k ∈ pre.filter (endsAt pc s), (s.slot.lcr k).toNat ≤ 1) :
    State.iterate pc (pre ++ rest) s =
      State.iterate pc rest ((pre.filter (endsAt pc s)).eraseDups.foldl endLevel s) := by
  induction pre generalizing s with
  | nil => rfl
  | cons j pre ih =>
    cases hj : endsAt pc s j with
    | false =>
      rw [List.filter_cons_of_neg (by simp [hj])] at h ⊢
      rw [List.cons_append, iterate_skip _ hj]
      exact ih h
    | true =>
      rw [List.filter_cons_of_pos hj] at h ⊢
      have hf : pre.filter (endsAt pc (endLevel s j)) = (pre.filter (endsAt pc s)).filter (fun k => !(k == j)) := by
        rw [List.filter_filter]; exact congrArg (List.filter · pre) (funext (endsAt_endLevel pc s j))
      rw [List.cons_append, iterate_at_end _ hj, if_pos (h j (by simp)), List.eraseDups_cons, List.foldl_cons, ← hf]
      refine ih fun k hk => ?_
      rw [hf] at hk
      simp only [List.mem_filter, Bool.not_eq_true', beq_eq_false_iff_ne] at hk
      rw [endLevel_lcr_other s hk.2]
      exact h k (List.mem_cons_of_mem _ (List.mem_filter.mpr hk.1))

/-! ### Retirement -/

theorem countIns_lcr (s : State) (k : Nat) : s.countIns.slot.lcr k = s.slot.lcr k := by
  rw [countIns_eq, slot_upd]; rfl
theorem countIns_level (s : State) (k : Nat) : s.countIns.slot.level k = s.slot.level k := by
  rw [countIns_eq, slot_upd]; rfl
theorem countIns_order (s : State) : s.countIns.slot.order = s.slot.order := by
  rw [countIns_eq, slot_upd]; rfl
theorem countIns_pc (s : State) : s.countIns.pc = s.pc := by
  rw [State.pc, countIns_eq, slot_upd]; rfl
theorem sameData_countIns (s : State) : SameData s s.countIns := by
  unfold SameData; rw [countIns_eq, slot_upd]; exact sameData_refl s
theorem clockAgrees_countIns (s : State) : ClockAgrees s s.countIns := clockAgrees_upd s rfl
theorem endsAt_countIns (s : State) : endsAt s.pc s.countIns = endsHere s := by
  funext k; rw [endsAt, countIns_level]; rfl

/-- An iteration step that has come to `d` and `u` retires to `u` at `d`. -/
theorem retire_eq (s : State) {d : Option Word} {u : State} (h : State.iterate s.pc s.slot.order s.countIns = (d, u)) :
    s.retire = u.upd (fun t => { t with pc := (d.or s.slot.after).getD (nextPc s.pc) }) := by
  rw [State.retire, countIns_pc, countIns_order, h]

theorem nodup_eraseDups : ∀ l : List Nat, l.eraseDups.Nodup
  | [] => by simp
  | a :: l => by
    rw [List.eraseDups_cons, List.nodup_cons, List.mem_eraseDups]
    exact ⟨by simp, nodup_eraseDups _⟩
termination_by l => l.length
decreasing_by exact Nat.lt_succ_of_le (List.length_filter_le ..)

/-- The levels that have ended since the instruction was counted, in the terms of R141 and R142. -/
theorem stepped_of_ended {s u : State} {out : List Nat} (h : Ended s.countIns u out.eraseDups) :
    Stepped s u out out.eraseDups := by
  have hmem (k : Nat) : k ∈ out.eraseDups ↔ k ∈ out := List.mem_eraseDups
  have hcont (k : Nat) : out.eraseDups.contains k = out.contains k := by simp
  have horder : u.slot.order = s.slot.order.filter (fun k => !out.contains k) := by
    rw [h.order, countIns_order]; simp only [hcont]
  have hclock := ((clockAgrees_countIns s).repeat_advance _).trans h.clock
  simp only [countIns_level, ← repeat_postClock] at hclock
  refine ⟨fun k hk => ⟨?_, ?_, ?_⟩, fun k hk => ⟨?_, ?_⟩, horder, ?_, ?_, ⟨?_, ?_⟩, ?_, ?_⟩
  · rw [h.lcr, if_pos ((hmem k).mpr hk)]
  · rw [h.level, if_pos ((hmem k).mpr hk)]
  · rw [horder]; simp [hk]
  · rw [h.lcr, if_neg hk, countIns_lcr]
  · rw [h.level, if_neg hk, countIns_level]
  · rw [h.vrb]; simp only [countIns_level]; rw [countIns_eq, slot_upd]; rfl
  · rw [h.seals]; simp only [countIns_level]; rw [countIns_eq, slot_upd]; rfl
  · exact hclock.domains
  · exact hclock.flight
  · rw [h.ins, countIns_eq, slot_upd]; rfl
  · exact sameData_trans (sameData_countIns s) h.data

theorem stepped_atPc {s u : State} {out took : List Nat} (h : Stepped s u out took) (d : Word) :
    Stepped s (u.upd (fun t => { t with pc := d })) out took := by
  unfold Stepped SameData at h ⊢; rw [slot_upd]; exact h

theorem loopLevelsEnd : LoopLevelsEnd := by
  intro s out hcount
  have hit := iterate_append (pc := s.pc) (pre := s.slot.order) (s := s.countIns) []
    (by rw [endsAt_countIns]; simpa only [countIns_lcr] using hcount)
  rw [List.append_nil, endsAt_countIns] at hit
  rw [retire_eq s hit]
  exact ⟨stepped_atPc (stepped_of_ended (ended_foldl (nodup_eraseDups _) _)) _, by rw [State.pc, slot_upd]; rfl⟩

/-- Capture of a body marks its level, and nothing else. -/
theorem slot_capture (s : State) (j : Nat) : ∃ loops c, (s.capture j).slot = { s.slot with loops := loops } ∧
    (∀ k, k ≠ j → Store.get {} loops k = s.slot.level k) ∧
    Store.get {} loops j = { s.slot.level j with cap := c } := by
  unfold State.capture
  dsimp only
  split
  · exact ⟨_, _, rfl, fun _ _ => rfl, rfl⟩
  · exact ⟨_, true, slot_upd _ _, fun k hk => get_set_other _ _ _ _ _ hk, get_set_same ..⟩

/-- The slot of a level that goes on: it has turned, counted down, and may be captured. -/
theorem slot_continueLevel (s : State) (j : Nat) : ∃ loops c,
    (continueLevel s j).slot = { (turnedSlot s.slot j).setLc j (s.slot.lcr j - 1) with loops := loops } ∧
    (∀ k, k ≠ j → Store.get {} loops k = s.slot.level k) ∧
    Store.get {} loops j = { s.slot.level j with cap := c } := by
  obtain ⟨loops, c, hs, ho, hj⟩ := slot_capture ((turned s j).upd (fun t => t.setLc j (s.slot.lcr j - 1))) j
  rw [slot_upd, slot_turned] at hs hj
  refine ⟨loops, c, hs, fun k hk => ?_, hj⟩
  rw [ho k hk, slot_upd, slot_turned]; rfl

/-- The iteration step when level j goes on, after those opened later that end here have ended. -/
theorem iterate_continues {s : State} {pre post : List Nat} {j : Nat} (horder : s.slot.order = pre ++ j :: post)
    (hcount : ∀ k ∈ pre.filter (endsHere s), (s.slot.lcr k).toNat ≤ 1) (hend : endsHere s j = true)
    (hmore : 1 < (s.slot.lcr j).toNat) :
    let out := pre.filter (endsHere s)
    let u := out.eraseDups.foldl endLevel s.countIns
    Stepped s u out out.eraseDups ∧ u.slot.lcr j = s.slot.lcr j ∧ u.slot.level j = s.slot.level j ∧
      State.iterate s.pc s.slot.order s.countIns = (some (s.slot.level j).start, continueLevel u j) := by
  intro out u
  have hj : j ∉ out.eraseDups := fun h => absurd (hcount j (List.mem_eraseDups.mp h)) (by omega)
  have hstep : Stepped s u out out.eraseDups := stepped_of_ended (ended_foldl (nodup_eraseDups _) _)
  have ⟨_, hother, _⟩ := hstep
  obtain ⟨hlcr, hlev⟩ := hother j hj
  have hit := iterate_append (pc := s.pc) (pre := pre) (s := s.countIns) (j :: post)
    (by rw [endsAt_countIns]; simpa only [countIns_lcr] using hcount)
  rw [endsAt_countIns, ← horder] at hit
  have huend : endsAt s.pc u j = true := by rw [endsAt, hlev]; exact hend
  refine ⟨hstep, hlcr, hlev, hit.trans ?_⟩
  rw [iterate_at_end _ huend, hlcr, if_neg (by omega), hlev]

/-- The slot that has retired to the start of level j. -/
theorem slot_retire_continues {s u : State} {j : Nat} {d : Word}
    (hit : State.iterate s.pc s.slot.order s.countIns = (some d, continueLevel u j)) : ∃ loops c,
    s.retire.slot = { (turnedSlot u.slot j).setLc j (u.slot.lcr j - 1) with loops := loops, pc := d } ∧
    (∀ k, k ≠ j → s.retire.slot.level k = u.slot.level k) ∧
    s.retire.slot.level j = { u.slot.level j with cap := c } := by
  obtain ⟨loops, c, hs, ho, hj⟩ := slot_continueLevel u j
  have ht : s.retire.slot = { (turnedSlot u.slot j).setLc j (u.slot.lcr j - 1) with loops := loops, pc := d } := by
    rw [retire_eq s hit, slot_upd, hs]; rfl
  exact ⟨loops, c, ht, fun k hk => by rw [ht]; exact ho k hk, by rw [ht]; exact hj⟩

theorem loopLevelContinues : LoopLevelContinues := by
  intro s pre post j horder out hcount hend hmore t
  have hj : j ∉ out := fun h => absurd (hcount j h) (by omega)
  obtain ⟨⟨hout, hother, hord, hvrb, hseal, -, hins, hdata⟩, hlcr, hlev, hit⟩ :=
    iterate_continues horder hcount hend hmore
  obtain ⟨loops, c, ht, hlevel, hlj⟩ := slot_retire_continues hit
  change t.slot = _ at ht
  generalize (pre.filter (endsHere s)).eraseDups.foldl endLevel s.countIns = u at *
  have hcounts (k : Nat) (h : k ≠ j) : t.slot.lcr k = u.slot.lcr k := by rw [ht]; exact get_set_other _ _ _ _ _ h
  have ho : t.slot.order = u.slot.order := by rw [ht]; rfl
  refine ⟨fun k h => ?_, fun k h h' => ?_, ?_, ?_, ho.trans hord, ?_, ?_, ?_, ?_, ?_⟩
  · have hkj : k ≠ j := fun e => hj (e ▸ h)
    rw [hcounts k hkj, hlevel k hkj, ho]; exact hout k h
  · rw [hcounts k h', hlevel k h']; exact hother k (fun e => h (List.mem_eraseDups.mp e))
  · rw [ht, ← hlcr]; exact get_set_same ..
  · rw [show t.slot.level j = _ from hlj, hlev]
    exact ⟨(Bool.and_eq_true_iff.mp hend).1, rfl, rfl, rfl, rfl⟩
  · have : t.slot.csr.vrb = u.slot.csr.vrb + BitVec.ofNat 5 (31 * (s.slot.level j).rot.toNat) := by rw [ht, ← hlev]; rfl
    rw [this, hvrb, List.countP_append, countP_cons_toNat, List.countP_nil, Nat.add_zero, Nat.mul_add, BitVec.ofNat_add,
      BitVec.add_assoc]
  · have : t.slot.region.sealed = (u.slot.region.sealed || (s.slot.level j).tick) := by rw [ht, ← hlev]; rfl
    have hany : out.eraseDups.any (fun k => (s.slot.level k).tick) = out.any (fun k => (s.slot.level k).tick) := by
      rw [Bool.eq_iff_iff, List.any_eq_true, List.any_eq_true]; simp only [List.mem_eraseDups]
    rw [this, hseal, hany, List.any_cons, Bool.or_assoc, Bool.or_comm (List.any ..)]
  · rw [ht]; exact hins
  · rw [State.pc, ht]
  · unfold SameData at hdata ⊢; rw [ht]; exact hdata

/-! ### Opening a level (R140) -/

/-- Closing levels changes the levels and their order only. -/
theorem closeFrom_eq (x : Slot) (k : Nat) : ∃ loops order, x.closeFrom k = { x with loops := loops, order := order } := by
  have hfold (l : List Nat) : ∀ x : Slot, ∃ loops order,
      l.foldl Slot.closeLevel x = { x with loops := loops, order := order } := by
    induction l with
    | nil => exact fun x => ⟨_, _, rfl⟩
    | cons j l ih =>
      intro x
      obtain ⟨loops, order, h⟩ := ih (x.closeLevel j)
      exact ⟨loops, order, h⟩
  unfold Slot.closeFrom
  split
  · exact hfold _ x
  · exact ⟨_, _, rfl⟩

theorem closeFrom_of_not_mem {x : Slot} {k : Nat} (h : k ∉ x.order) : x.closeFrom k = x := by
  rw [Slot.closeFrom, if_neg (by simpa using h)]

/-- A transfer of control counts the instruction, may close levels, and goes to its destination. -/
theorem transfer_eq (s : State) (d : Word) (leaves : Bool) : ∃ loops order,
    s.transfer d leaves = s.upd (fun t => { countSlot t with loops := loops, order := order, pc := d }) := by
  unfold State.transfer
  dsimp only
  split
  · rename_i k _
    obtain ⟨loops, order, h⟩ := closeFrom_eq (countSlot s.slot) k
    refine ⟨loops, order, ?_⟩
    rw [countIns_eq, upd_upd, upd_upd, upd_eq, upd_eq, h]
  · refine ⟨s.slot.loops, s.slot.order, ?_⟩
    rw [countIns_eq, upd_upd, upd_eq, upd_eq]; rfl

/-- The slot with level `l` opened at k, with the count c. -/
def openSlot (k : Nat) (c : Word) (l : Level) (x : Slot) : Slot :=
  { ((x.closeFrom k).setLc k c).setLevel k l with order := k :: (x.closeFrom k).order }

theorem openSlot_eq (k : Nat) (c : Word) (l : Level) (x : Slot) : ∃ loops order,
    openSlot k c l x = { x with lc := Store.set x.lc k c, loops := Store.set loops k l, order := k :: order } := by
  obtain ⟨loops, order, h⟩ := closeFrom_eq x k
  exact ⟨loops, order, by rw [openSlot, h]; rfl⟩

theorem openSlot_of_not_mem {k : Nat} {x : Slot} (c : Word) (l : Level) (h : k ∉ x.order) :
    openSlot k c l x = { x with lc := Store.set x.lc k c, loops := Store.set x.loops k l, order := k :: x.order } := by
  rw [openSlot, closeFrom_of_not_mem h]; rfl

section Opening
variable (s : State) (k : LcReg) {c : Word} (rot tick : Bool) (stop : Word)

/-- The level that a loop instruction opens. -/
def newLevel : Level := { act := true, rot := rot, tick := tick, start := nextPc s.pc, stop := stop }

theorem openLoop_zero : s.openLoop k 0 rot tick stop = s.transfer (nextPc stop) false := rfl

theorem openLoop_of_marked (hc : c ≠ 0) (hm : s.marked (nextPc s.pc) = true) : s.openLoop k c rot tick stop =
    (s.transfer (nextPc s.pc) false).upd (openSlot k.val c (newLevel s rot tick stop)) := by
  rw [State.openLoop, if_neg (by simpa using hc)]
  simp only [State.destTrap, hm, Bool.false_and, Bool.not_true, Bool.and_false, Bool.false_eq_true, if_false]
  rfl

theorem openLoop_of_not_marked (hc : c ≠ 0) (hm : s.marked (nextPc s.pc) = false) :
    s.openLoop k c rot tick stop = s.trap 2 (State.lineTval (nextPc s.pc) 4) := by
  rw [State.openLoop, if_neg (by simpa using hc)]
  simp only [State.destTrap, hm, Bool.false_and, Bool.not_false, Bool.and_true, Bool.false_eq_true, if_false, if_true]
  rfl

/-- A level opens: what its slot holds then, and that nothing but the slot has changed. -/
theorem openLoop_opens (hc : c ≠ 0) (hm : s.marked (nextPc s.pc) = true) : ∃ loops order,
    s.openLoop k c rot tick stop = s.upd (fun x => { countSlot x with
      pc := nextPc s.pc, lc := Store.set x.lc k.val c, loops := Store.set loops k.val (newLevel s rot tick stop)
      order := k.val :: order }) ∧
    (s.straight = true → k.val ∉ s.slot.order → loops = s.slot.loops ∧ order = s.slot.order) := by
  rw [openLoop_of_marked s k rot tick stop hc hm]
  by_cases hf : s.straight = true ∧ k.val ∉ s.slot.order
  · obtain ⟨hs, hk⟩ := hf
    refine ⟨s.slot.loops, s.slot.order, ?_, fun _ _ => ⟨rfl, rfl⟩⟩
    rw [transfer_free s _ _ hs (fun h => absurd h Bool.false_ne_true), upd_eq, upd_eq, setSlot_cur,
      slot_setSlot, setSlot_setSlot, openSlot_of_not_mem (x := { s.slot.ended with pc := nextPc s.pc }) c _ hk]
    rfl
  · obtain ⟨l1, o1, h1⟩ := transfer_eq s (nextPc s.pc) false
    obtain ⟨l2, o2, h2⟩ := openSlot_eq k.val c (newLevel s rot tick stop)
      { countSlot s.slot with loops := l1, order := o1, pc := nextPc s.pc }
    refine ⟨l2, o2, ?_, fun hs hk => absurd ⟨hs, hk⟩ hf⟩
    rw [h1, upd_upd, upd_eq, upd_eq, h2]; rfl

end Opening

theorem loopsOpen : LoopsOpen := by
  intro s k b n tick tgt stop start i c rot hi
  have hexec : exec i s = .next (s.openLoop k c rot tick stop) := by
    rcases hi with ⟨rfl, rfl, rfl⟩ | ⟨rfl, rfl, rfl⟩ | ⟨rfl, hn, rfl⟩
    · rfl
    · rfl
    · have : c = n.setWidth 64 := BitVec.eq_of_toNat_eq (by simp [hn]; omega)
      rw [this]; rfl
  rw [hexec]
  refine ⟨fun h => by rw [h, openLoop_zero], fun hc hm => ?_, fun hc hm => ?_⟩
  · obtain ⟨loops, order, h, hfree⟩ := openLoop_opens s k rot tick stop hc hm
    refine ⟨_, rfl, ?_⟩
    rw [h]
    refine ⟨?_, ?_, ?_, ?_, fun j hj => ?_, ?_, ?_, ?_, ?_, fun hs hk => ?_⟩
    · rw [State.pc, slot_upd]
    · rw [slot_upd]; exact get_set_same ..
    · rw [slot_upd]; exact get_set_same ..
    · rw [slot_upd]; rfl
    · rw [slot_upd]; exact get_set_other _ _ _ _ _ hj
    · rw [slot_upd]; rfl
    · rw [slot_upd]; rfl
    · unfold SameData; rw [slot_upd]; exact sameData_refl s
    · exact ⟨rfl, rfl, rfl, rfl, rfl, rfl, rfl, rfl, rfl, rfl, fun n hn => slotAt_upd_other s _ n hn⟩
    · obtain ⟨rfl, rfl⟩ := hfree hs hk
      rw [slot_upd]
      exact ⟨rfl, fun j hj => get_set_other _ _ _ _ _ hj⟩
  · rw [openLoop_of_not_marked s k rot tick stop hc hm]; rfl

end Sys2Proof.Proofs
end

section
/-! SUPPORT. Float patterns and their order (R132, R133): the value of a pattern rises with its magnitude bits, so that
comparing values is comparing patterns. -/

namespace Sys2Proof.Proofs

open Sys2Proof.Machine Sys2Proof.Claims Sys2Proof.Num

/-! ### What a pattern means (R146) -/

section Patterns
variable (f : Fmt) (x : Nat)

/-- The magnitude bits of a pattern. -/
def magBits : Nat := x % f.signBit

theorem magBits_div : magBits f x / 2 ^ f.fw = x / 2 ^ f.fw % 2 ^ f.ew := by
  rw [magBits, Fmt.signBit, Nat.add_comm, Nat.pow_add, Nat.mod_mul_right_div_self]

theorem magBits_mod : magBits f x % 2 ^ f.fw = x % 2 ^ f.fw :=
  Nat.mod_mod_of_dvd _ (Nat.pow_dvd_pow 2 (Nat.le_add_left ..))

theorem magBits_div_le : magBits f x / 2 ^ f.fw ≤ 2 ^ f.ew - 1 := by
  rw [magBits_div]; exact Nat.le_sub_one_of_lt (Nat.mod_lt _ (Nat.two_pow_pos _))

/-- The exponent of the least magnitude. -/
def leastExp : Int := 1 - (f.bias : Int) - f.fw

/-- A pattern by its fields: sign, exponent and fraction. -/
theorem unpack_eq : unpack f x =
    if magBits f x / 2 ^ f.fw = 2 ^ f.ew - 1 then
      (if magBits f x % 2 ^ f.fw = 0 then .inf (negP f x) else .nan (decide (magBits f x % 2 ^ f.fw < 2 ^ (f.fw - 1))))
    else if magBits f x / 2 ^ f.fw = 0 then .fin (negP f x) (magBits f x % 2 ^ f.fw) (leastExp f)
    else .fin (negP f x) (magBits f x % 2 ^ f.fw + 2 ^ f.fw) (leastExp f + (magBits f x / 2 ^ f.fw - 1 : Nat)) := by
  have hn : (x / f.signBit % 2 == 1) = negP f x := rfl
  have hexp (e : Nat) (h : e ≠ 0) : (e : Int) - f.bias - f.fw = leastExp f + (e - 1 : Nat) := by
    rw [leastExp]; omega
  rw [unpack]
  simp only [← magBits_div f x, ← magBits_mod f x, beq_iff_eq, hn]
  split
  · rfl
  · split
    · rfl
    · rename_i h; rw [hexp _ h]

/-- The fields of the infinity are the greatest exponent and no fraction; a NaN has a fraction beside that exponent. -/
theorem inf_lt_iff {m : Nat} (h : m / 2 ^ f.fw ≤ 2 ^ f.ew - 1) :
    f.inf < m ↔ m / 2 ^ f.fw = 2 ^ f.ew - 1 ∧ m % 2 ^ f.fw ≠ 0 := by
  have hF : 0 < 2 ^ f.fw := Nat.two_pow_pos _
  have hm := Nat.div_add_mod m (2 ^ f.fw)
  have hr := Nat.mod_lt m hF
  rw [Fmt.inf]
  generalize 2 ^ f.fw = F at *
  generalize 2 ^ f.ew - 1 = E at *
  rcases h.lt_or_eq with hlt | heq
  · have : F * (m / F + 1) ≤ F * E := Nat.mul_le_mul_left _ hlt
    rw [Nat.mul_add] at this
    rw [Nat.mul_comm]; omega
  · rw [heq] at hm; rw [Nat.mul_comm]; omega

theorem eq_inf_iff {m : Nat} : m = f.inf ↔ m / 2 ^ f.fw = 2 ^ f.ew - 1 ∧ m % 2 ^ f.fw = 0 := by
  have hF : 0 < 2 ^ f.fw := Nat.two_pow_pos _
  rw [Fmt.inf]
  constructor
  · rintro rfl; exact ⟨Nat.mul_div_cancel _ hF, Nat.mul_mod_left ..⟩
  · rintro ⟨h1, h2⟩
    rw [← h1, ← Nat.add_zero (_ * _), ← h2, Nat.mul_comm, Nat.div_add_mod]

theorem nanP_iff : nanP f x = true ↔ f.inf < magBits f x := decide_eq_true_iff

theorem lt_or_eq_of_not_nan {f : Fmt} {x : Nat} (h : nanP f x = false) : magBits f x < f.inf ∨ magBits f x = f.inf := by
  rw [← Bool.not_eq_true, nanP_iff, not_lt] at h
  exact h.lt_or_eq

theorem unpack_of_nan {f : Fmt} {x : Nat} (h : nanP f x = true) : unpack f x = .nan (snanP f x) := by
  obtain ⟨he, hm⟩ := (inf_lt_iff f (magBits_div_le f x)).mp ((nanP_iff f x).mp h)
  have hs : snanP f x = decide (magBits f x % 2 ^ f.fw < 2 ^ (f.fw - 1)) := by
    have hd := Nat.div_add_mod (magBits f x) (2 ^ f.fw)
    rw [he, Nat.mul_comm] at hd
    rw [snanP, h, Bool.true_and, ← magBits, decide_eq_decide, Fmt.inf]
    omega
  rw [unpack_eq, if_pos he, if_neg hm, hs]

theorem unpack_of_inf {f : Fmt} {x : Nat} (h : magBits f x = f.inf) : unpack f x = .inf (negP f x) := by
  obtain ⟨he, hm⟩ := (eq_inf_iff f).mp h
  rw [unpack_eq, if_pos he, if_pos hm]

/-- The value of magnitude bits, in multiples of the least magnitude. -/
def magnitude (m : Nat) : Nat :=
  if m / 2 ^ f.fw = 0 then m % 2 ^ f.fw else (m % 2 ^ f.fw + 2 ^ f.fw) * 2 ^ (m / 2 ^ f.fw - 1)

/-- The next pattern up has the greater value, also where the fraction overflows into the exponent. -/
theorem magnitude_strictMono : StrictMono (magnitude f) := by
  refine strictMono_nat_of_lt_succ fun m => ?_
  have hF : 0 < 2 ^ f.fw := Nat.two_pow_pos _
  unfold magnitude
  generalize 2 ^ f.fw = F at hF
  have hr := Nat.mod_lt m hF
  have key : m + 1 = F * (m / F) + (m % F + 1) := by rw [← Nat.add_assoc, Nat.div_add_mod]
  by_cases h : m % F + 1 < F
  · have hd : (m + 1) / F = m / F := by rw [key, Nat.mul_add_div hF, Nat.div_eq_of_lt h, Nat.add_zero]
    have hm : (m + 1) % F = m % F + 1 := by rw [key, Nat.mul_add_mod, Nat.mod_eq_of_lt h]
    rw [hd, hm]
    split
    · omega
    · exact Nat.mul_lt_mul_of_pos_right (by omega) (Nat.two_pow_pos _)
  · have hl : m % F + 1 = F := by omega
    have hd : (m + 1) / F = m / F + 1 := by rw [key, Nat.mul_add_div hF, hl, Nat.div_self hF]
    have hm : (m + 1) % F = 0 := by rw [key, Nat.mul_add_mod, hl, Nat.mod_self]
    rw [hd, hm, if_neg (Nat.succ_ne_zero _), Nat.zero_add, Nat.add_sub_cancel]
    split
    · rename_i h0; rw [h0]; omega
    · rename_i h0
      obtain ⟨q, hq⟩ := Nat.exists_eq_succ_of_ne_zero h0
      rw [hq, Nat.succ_sub_one, Nat.pow_succ, Nat.mul_comm (2 ^ q), ← Nat.mul_assoc]
      exact Nat.mul_lt_mul_of_pos_right (by omega) (Nat.two_pow_pos _)

@[simp] theorem magnitude_zero : magnitude f 0 = 0 := by simp [magnitude]

/-- A finite pattern: the significand and the exponent multiply to the magnitude's value. -/
theorem unpack_of_lt_inf {f : Fmt} {x : Nat} (h : magBits f x < f.inf) :
    ∃ sig k : Nat, unpack f x = .fin (negP f x) sig (leastExp f + k) ∧ sig * 2 ^ k = magnitude f (magBits f x) := by
  have he : magBits f x / 2 ^ f.fw ≠ 2 ^ f.ew - 1 := fun he => by
    have : f.inf ≤ magBits f x := by
      rw [Fmt.inf, ← he]; exact Nat.div_mul_le_self ..
    omega
  rw [unpack_eq, if_neg he, magnitude]
  split
  · exact ⟨_, 0, by rw [Int.natCast_zero, Int.add_zero], by rw [Nat.pow_zero, Nat.mul_one]⟩
  · exact ⟨_, _, rfl, rfl⟩

theorem isNan_unpack : (unpack f x).isNan = nanP f x := by
  cases h : nanP f x with
  | true => rw [unpack_of_nan h]; rfl
  | false =>
    rcases lt_or_eq_of_not_nan h with hlt | heq
    · obtain ⟨_, _, hu, _⟩ := unpack_of_lt_inf hlt
      rw [hu]; rfl
    · rw [unpack_of_inf heq]; rfl

theorem isNeg_unpack {f : Fmt} {x : Nat} (h : nanP f x = false) : (unpack f x).isNeg = negP f x := by
  rcases lt_or_eq_of_not_nan h with hlt | heq
  · obtain ⟨_, _, hu, _⟩ := unpack_of_lt_inf hlt
    rw [hu]; rfl
  · rw [unpack_of_inf heq]; rfl

theorem snan_unpack : snan (unpack f x) = nvIf (snanP f x) := by
  cases h : nanP f x with
  | true => rw [unpack_of_nan h]; cases snanP f x <;> rfl
  | false =>
    have hs : snanP f x = false := by rw [snanP, h, Bool.false_and]
    have hn := (isNan_unpack f x).trans h
    rw [hs]
    generalize unpack f x = v at hn
    cases v with
    | nan => cases hn
    | inf => rfl
    | fin => rfl

end Patterns

/-! ### Comparing values is comparing patterns (R133) -/

/-- Signed numbers compare as their images under a rising function that keeps 0. -/
theorem sg_lt_iff {g : Nat → Nat} (hg : StrictMono g) (h0 : g 0 = 0) (n n' : Bool) (a b : Nat) :
    sg n (g a) < sg n' (g b) ↔ sg n a < sg n' b := by
  have hab : g a < g b ↔ a < b := hg.lt_iff_lt
  have hba : g b < g a ↔ b < a := hg.lt_iff_lt
  have ha : g a = 0 ↔ a = 0 := by rw [← h0, hg.injective.eq_iff, h0]
  have hb : g b = 0 ↔ b = 0 := by rw [← h0, hg.injective.eq_iff, h0]
  cases n <;> cases n' <;> simp only [sg, Bool.false_eq_true, if_true, if_false] <;> omega

theorem sg_mul_two_pow (n : Bool) (m i : Nat) : sg n (m * 2 ^ i) = sg n m * 2 ^ i := by
  cases n <;> simp [sg]

/-- Dyadic numbers over the same least exponent compare as their multiples of it. -/
theorem ltV_fin (n n' : Bool) (sa sb i j : Nat) (e : Int) :
    ltV (.fin n sa (e + i)) (.fin n' sb (e + j)) = decide (sg n (sa * 2 ^ i) < sg n' (sb * 2 ^ j)) := by
  rw [ltV, dyAdd, decide_eq_decide, sg_mul_two_pow, sg_mul_two_pow]
  rcases Nat.lt_or_ge i j with h | h
  · obtain ⟨k, rfl⟩ := Nat.exists_eq_add_of_lt h
    have h1 : (e + i - (e + i)).toNat = 0 := by omega
    have h2 : (e + (i + k + 1 : Nat) - (e + i)).toNat = k + 1 := by omega
    simp only [show e + (i : Int) < e + (i + k + 1 : Nat) by omega, if_true, h1, h2]
    have hp : (0 : Int) < 2 ^ i := by positivity
    rw [show (2 : Int) ^ (i + k + 1) = 2 ^ (k + 1) * 2 ^ i by ring, ← mul_assoc, mul_lt_mul_iff_left₀ hp]
    constructor <;> intro h <;> linarith
  · obtain ⟨k, rfl⟩ := Nat.exists_eq_add_of_le h
    have h1 : (e + j - (e + j)).toNat = 0 := by omega
    have h2 : (e + (j + k : Nat) - (e + j)).toNat = k := by omega
    simp only [show ¬e + ((j + k : Nat) : Int) < e + j by omega, if_false, h1, h2]
    have hp : (0 : Int) < 2 ^ j := by positivity
    rw [show (2 : Int) ^ (j + k) = 2 ^ k * 2 ^ j by ring, ← mul_assoc, mul_lt_mul_iff_left₀ hp]
    constructor <;> intro h <;> linarith

theorem rank0_eq (f : Fmt) (x : Nat) : rank0 f x = sg (negP f x) (magBits f x) := rfl

/-- Values that are no NaN compare as their patterns, −0 equal to +0. -/
theorem ltV_unpack {f : Fmt} {x y : Nat} (hf : 0 < f.inf) (hx : nanP f x = false) (hy : nanP f y = false) :
    ltV (unpack f x) (unpack f y) = decide (rank0 f x < rank0 f y) := by
  rw [rank0_eq, rank0_eq]
  rcases lt_or_eq_of_not_nan hx with hxl | hxe <;> rcases lt_or_eq_of_not_nan hy with hyl | hye
  case inl.inl =>
    obtain ⟨sa, i, hu, hs⟩ := unpack_of_lt_inf hxl
    obtain ⟨sb, j, hv, ht⟩ := unpack_of_lt_inf hyl
    rw [hu, hv, ltV_fin, hs, ht, decide_eq_decide]
    exact sg_lt_iff (magnitude_strictMono f) (magnitude_zero f) ..
  case inl.inr =>
    obtain ⟨sa, i, hu, -⟩ := unpack_of_lt_inf hxl
    rw [hu, unpack_of_inf hye, hye]
    cases negP f x <;> cases negP f y <;> simp [ltV, sg] <;> omega
  case inr.inl =>
    obtain ⟨sb, j, hv, -⟩ := unpack_of_lt_inf hyl
    rw [hv, unpack_of_inf hxe, hxe]
    cases negP f x <;> cases negP f y <;> simp [ltV, sg] <;> omega
  case inr.inr =>
    rw [unpack_of_inf hxe, unpack_of_inf hye, hxe, hye]
    cases negP f x <;> cases negP f y <;> simp [ltV, sg]; omega

theorem eqV_unpack {f : Fmt} {x y : Nat} (hf : 0 < f.inf) (hx : nanP f x = false) (hy : nanP f y = false) :
    eqV (unpack f x) (unpack f y) = decide (rank0 f x = rank0 f y) := by
  rw [eqV, isNan_unpack, isNan_unpack, hx, hy, ltV_unpack hf hx hy, ltV_unpack hf hy hx]
  simp only [Bool.not_false, Bool.true_and, ← decide_not, ← Bool.decide_and, decide_eq_decide]
  omega

/-- A NaN is neither less than, equal to nor greater than anything. -/
theorem ltV_of_nan {f : Fmt} {x y : Nat} (h : (nanP f x || nanP f y) = true) : ltV (unpack f x) (unpack f y) = false := by
  rcases Bool.or_eq_true_iff.mp h with h | h
  · rw [unpack_of_nan h]; rfl
  · rw [unpack_of_nan h]; cases unpack f x <;> rfl

theorem eqV_of_nan {f : Fmt} {x y : Nat} (h : (nanP f x || nanP f y) = true) : eqV (unpack f x) (unpack f y) = false := by
  rw [eqV, isNan_unpack, isNan_unpack, ← Bool.not_or, h]; rfl

/-! ### Comparisons (R133) -/

theorem nvIf_or (a b : Bool) : nvIf a ||| nvIf b = nvIf (a || b) := by cases a <;> cases b <;> rfl

section Compares
variable {f : Fmt} (hf : 0 < f.inf) (x y : Nat)
include hf

theorem eqV_eq : eqV (unpack f x) (unpack f y) = (!(nanP f x || nanP f y) && decide (rank0 f x = rank0 f y)) := by
  cases h : nanP f x || nanP f y with
  | true => exact eqV_of_nan h
  | false =>
    obtain ⟨hx, hy⟩ := Bool.or_eq_false_iff.mp h
    exact eqV_unpack hf hx hy

theorem ltV_eq : ltV (unpack f x) (unpack f y) = (!(nanP f x || nanP f y) && decide (rank0 f x < rank0 f y)) := by
  cases h : nanP f x || nanP f y with
  | true => exact ltV_of_nan h
  | false =>
    obtain ⟨hx, hy⟩ := Bool.or_eq_false_iff.mp h
    exact ltV_unpack hf hx hy

theorem ltV_or_eqV : (ltV (unpack f x) (unpack f y) || eqV (unpack f x) (unpack f y)) =
    (!(nanP f x || nanP f y) && decide (rank0 f x ≤ rank0 f y)) := by
  rw [ltV_eq hf, eqV_eq hf, ← Bool.and_or_distrib_left, ← Bool.decide_or]
  congr 2; exact propext Int.le_iff_lt_or_eq.symm

omit hf in
theorem fcc_un : FCc.un.holds f x y = (nanP f x || nanP f y, nvIf (snanP f x || snanP f y)) := by
  simp only [FCc.holds, snan_unpack, nvIf_or, isNan_unpack]

theorem fcc_eq : FCc.eq.holds f x y =
    (!(nanP f x || nanP f y) && decide (rank0 f x = rank0 f y), nvIf (snanP f x || snanP f y)) := by
  simp only [FCc.holds, snan_unpack, nvIf_or, eqV_eq hf]

theorem fcc_lt : FCc.lt.holds f x y =
    (!(nanP f x || nanP f y) && decide (rank0 f x < rank0 f y), nvIf (nanP f x || nanP f y)) := by
  simp only [FCc.holds, isNan_unpack, ltV_eq hf]; rfl

theorem fcc_le : FCc.le.holds f x y =
    (!(nanP f x || nanP f y) && decide (rank0 f x ≤ rank0 f y), nvIf (nanP f x || nanP f y)) := by
  simp only [FCc.holds, isNan_unpack, ltV_or_eqV hf]; rfl

end Compares

/-- The operand of a scalar float instruction is its register's low bits. -/
theorem fg_eq (s : State) {ty : Ty} (hty : ty = .f32 ∨ ty = .f64) (n : GReg) :
    s.fg ty n = (s.g n.val).toNat % 2 ^ ty.width := by
  rcases hty with rfl | rfl <;> rfl

theorem inf_pos {ty : Ty} (hty : ty = .f32 ∨ ty = .f64) : 0 < (fmtOf ty).inf := by
  rcases hty with rfl | rfl <;> decide

theorem execFcmp_of_holds {s : State} {cc : FCc} {ty : Ty} {p : PReg} {b c : GReg} {r : Bool} {fl : BitVec 5}
    (h : cc.holds (fmtOf ty) (s.fg ty b) (s.fg ty c) = (r, fl)) :
    execFcmp cc ty p b c s = .next ((s.setP p.val r).orFlags fl).retire := by
  rw [execFcmp, h]

theorem floatCompares : FloatCompares := by
  intro s ty p b c hty f x y un sn answers
  have hf : 0 < f.inf := inf_pos hty
  have key {cc : FCc} {r : Bool} {fl : BitVec 5}
      (h : cc.holds f ((s.g b.val).toNat % 2 ^ ty.width) ((s.g c.val).toNat % 2 ^ ty.width) = (r, fl)) :
      answers cc r fl := by
    rw [← fg_eq s hty b, ← fg_eq s hty c] at h
    exact execFcmp_of_holds h
  exact ⟨key (fcc_eq hf x y), key (fcc_lt hf x y), key (fcc_le hf x y), key (fcc_un x y)⟩

/-! ### Minimum and maximum (R132) -/

/-- The order of `fmin` and `fmax` is that of the values, with −0 below +0. -/
theorem rank_lt_iff (f : Fmt) (x y : Nat) : rank f x < rank f y ↔
    rank0 f x < rank0 f y ∨ (rank0 f x = rank0 f y ∧ negP f x = true ∧ negP f y = false) := by
  rw [rank, rank, rank0, rank0]
  cases negP f x <;> cases negP f y <;> simp <;> omega

section MinMax
variable {f : Fmt} {x y : Nat}

theorem minmax_of_nan_nan (m : Bool) (hx : nanP f x = true) (hy : nanP f y = true) :
    minmax f m x y = (f.qnan, nvIf (snanP f x || snanP f y)) := by
  rw [minmax, snan_unpack, snan_unpack, nvIf_or, unpack_of_nan hx, unpack_of_nan hy]

theorem minmax_of_nan_left (m : Bool) (hx : nanP f x = true) (hy : nanP f y = false) :
    minmax f m x y = (y % 2 ^ f.width, nvIf (snanP f x || snanP f y)) := by
  have hn := (isNan_unpack f y).trans hy
  rw [minmax, snan_unpack, snan_unpack, nvIf_or, unpack_of_nan hx]
  generalize unpack f y = v at hn
  cases v with
  | nan => cases hn
  | inf => rfl
  | fin => rfl

theorem minmax_of_nan_right (m : Bool) (hx : nanP f x = false) (hy : nanP f y = true) :
    minmax f m x y = (x % 2 ^ f.width, nvIf (snanP f x || snanP f y)) := by
  have hn := (isNan_unpack f x).trans hx
  rw [minmax, snan_unpack, snan_unpack, nvIf_or, unpack_of_nan hy]
  generalize unpack f x = v at hn
  cases v with
  | nan => cases hn
  | inf => rfl
  | fin => rfl

theorem minmax_of_numbers (hf : 0 < f.inf) (m : Bool) (hx : nanP f x = false) (hy : nanP f y = false) :
    minmax f m x y = (if decide (rank f x < rank f y) = m then y % 2 ^ f.width else x % 2 ^ f.width, 0) := by
  have hless : (ltV (unpack f x) (unpack f y) ||
      (eqV (unpack f x) (unpack f y) && (unpack f x).isNeg && !(unpack f y).isNeg)) = decide (rank f x < rank f y) := by
    rw [ltV_unpack hf hx hy, eqV_unpack hf hx hy, isNeg_unpack hx, isNeg_unpack hy, Bool.eq_iff_iff,
      decide_eq_true_iff, rank_lt_iff]
    simp only [Bool.or_eq_true, Bool.and_eq_true, decide_eq_true_eq, Bool.not_eq_true', and_assoc]
  have hnx := (isNan_unpack f x).trans hx
  have hny := (isNan_unpack f y).trans hy
  rw [← hless, minmax]
  generalize unpack f x = v at *
  generalize unpack f y = w at *
  cases v with
  | nan => cases hnx
  | inf => cases w with
    | nan => cases hny
    | inf => simp
    | fin => simp
  | fin => cases w with
    | nan => cases hny
    | inf => simp
    | fin => simp

end MinMax

theorem floatMinMax : FloatMinMax := by
  intro s ty a b c hty f x y fl
  have hf : 0 < f.inf := inf_pos hty
  have hw : f.width = ty.width := by rcases hty with rfl | rfl <;> rfl
  have hx : x % 2 ^ f.width = x := by rw [hw]; exact Nat.mod_mod ..
  have hy : y % 2 ^ f.width = y := by rw [hw]; exact Nat.mod_mod ..
  have hmin : WritesF (.fmin ty a b c) s a (minmax f false x y).1 (minmax f false x y).2 := by
    show execFmin ty a b c s = _
    rw [execFmin, fg_eq s hty, fg_eq s hty]; rfl
  have hmax : WritesF (.fmax ty a b c) s a (minmax f true x y).1 (minmax f true x y).2 := by
    show execFmax ty a b c s = _
    rw [execFmax, fg_eq s hty, fg_eq s hty]; rfl
  cases hnx : nanP f x <;> cases hny : nanP f y
  case false.false =>
    have hfl : fl = 0 := by simp [fl, snanP, hnx, hny, nvIf]
    rw [minmax_of_numbers hf _ hnx hny, hx, hy] at hmin hmax
    rw [hfl]
    refine ⟨_, _, hmin, hmax, by simp, by simp, by simp, fun _ _ => ?_⟩
    by_cases h : rank f x < rank f y
    · simp [h, h.le]
    · simp [h, not_lt.mp h]
  case false.true =>
    rw [minmax_of_nan_right _ hnx hny, hx] at hmin hmax
    exact ⟨x, x, hmin, hmax, by simp, by simp, by simp, by simp⟩
  case true.false =>
    rw [minmax_of_nan_left _ hnx hny, hy] at hmin hmax
    exact ⟨y, y, hmin, hmax, by simp, by simp, by simp, by simp⟩
  case true.true =>
    rw [minmax_of_nan_nan _ hnx hny] at hmin hmax
    exact ⟨f.qnan, f.qnan, hmin, hmax, by simp, by simp, by simp, by simp⟩

end Sys2Proof.Proofs
end

section
/-! PROOFS. The statements of the scalar and control instructions. -/

namespace Sys2Proof.Proofs

/-- Settles O1, from the value of each operation (`mulHigh_toInt` to `maxU_toNat`), with the corners of division apart. -/
theorem integerArithmetic : Obligations.IntegerArithmetic := ⟨integerResults, integerEncodings⟩

/-- Settles O2, from what each bit of a shift and of a rotation is. -/
theorem logicAndShifts : Obligations.LogicAndShifts := ⟨logicResults, logicEncodings⟩

/-- Settles O3, from what each bit of a count, an extension, a byte reversal and a field is. -/
theorem countsExtensionsAndBitFields : Obligations.CountsExtensionsAndBitFields :=
  ⟨countsAndExtensions, bitFields, fieldEncodings⟩

/-- Settles O4, from the conditions of `cmp` on the values of words. -/
theorem comparesMovesAndSelection : Obligations.ComparesMovesAndSelection :=
  ⟨comparesAndPredicates, compareEncodings, movesAndSelection⟩

/-- Settles O6, by induction on the levels in the order in which the iteration step takes them. -/
theorem loopSteps : Obligations.LoopSteps := ⟨loopLevelsEnd, loopLevelContinues, loopsOpen⟩

/-- Settles O15: the value of a pattern rises with its magnitude bits (`magnitude_strictMono`), so that comparing values is
comparing patterns. -/
theorem floatMinMaxAndCompares : Obligations.FloatMinMaxAndCompares := ⟨floatMinMax, floatCompares, floatEncodings⟩

end Sys2Proof.Proofs
end
